-- ==== Sys2Proof/Word.lean ====
section
/-! DEFINITION. The word types of the Atgar H9 and their plainest arithmetic (spec/00 R7: bits and bytes are
numbered from 0 and multi-byte values are little-endian). -/
namespace Sys2Proof

abbrev Byte := BitVec 8
abbrev Word := BitVec 32
abbrev DWord := BitVec 64
/-- One bit for each of the up to 1,024 lanes of a crew (spec/04 R83). -/
abbrev Mask := BitVec 1024
/-- The 128 bytes of one line, byte i in bits [8i+7:8i] (spec/12 R201). -/
abbrev Line := BitVec 1024

/-- The 32-bit word that holds a truth value as 0 or 1 (spec/04 R78). -/
def boolWord (b : Bool) : Word := if b then 1 else 0

/-- The integer that the low `w` bits of `n` stand for in two's complement. -/
def toSigned (w n : Nat) : Int :=
  let m := n % 2 ^ w
  if m < 2 ^ (w - 1) then (m : Int) else (m : Int) - (2 ^ w : Nat)

/-- The low `w` bits of an integer, as a natural number below 2^w: the exact result taken modulo 2^w. -/
def wrapInt (w : Nat) (x : Int) : Nat := (x % ((2 ^ w : Nat) : Int)).toNat

/-- Little-endian bytes of a natural number: `n` bytes, the least significant first. -/
def toBytesLE : Nat → Nat → List Byte
  | 0, _ => []
  | n + 1, x => BitVec.ofNat 8 x :: toBytesLE n (x / 256)

/-- The number that a little-endian list of bytes holds. -/
def fromBytesLE : List Byte → Nat
  | [] => 0
  | b :: bs => b.toNat + 256 * fromBytesLE bs

end Sys2Proof
end

