-- ==== Sys2Proof/Config.lean ====
section
/-! DEFINITION. What the Atgar H9 fixes for every part, and the free values: constants without a body for results
that the spec leaves open. -/
namespace Sys2Proof.Config

/-- Entries of the reconvergence stack (spec/04 R84). -/
def stackDepth : Nat := 32
/-- Instructions in a run (spec/01 R18). -/
def runLength : Nat := 24
/-- Packets in the queue of a service crew (spec/06 R118). -/
def svcQueue : Nat := 64
/-- Lane operations in one request packet (spec/06 R118). -/
def packetLanes : Nat := 32
/-- Entries of a core's L1 TLB and of a die's shared TLB (spec/13 R224). -/
def l1TlbSize : Nat := 256
def sharedTlbSize : Nat := 32768
/-- Page walkers of a die, and miss entries of a core (spec/13 R224, R226). -/
def walkers : Nat := 64
def missEntries : Nat := 256
/-- Entries of a core's deque, tasks in one spill, bytes of the spill block (spec/15 R258). -/
def dequeSize : Nat := 256
def spillBatch : Nat := 64
/-- Tasks that one spill block holds. The spec gives the block 1 MiB and the deque entry no size; the model takes 64
bytes an entry (DESIGN CHOICE, log 24). -/
def spillTasks : Nat := 16384
/-- Bytes of the view pool of a core (spec/00 Table 0-1). -/
def viewPool : Nat := 262144
/-- Units of 128 bytes in a unified store, and those that registers and scratchpad may take (spec/02 R35, spec/05
Table 5-4). -/
def storeUnits : Nat := 24576
def partyUnits : Nat := 20480
/-- Units of scratchpad allotment that a core holds at most (spec/00 R2). -/
def scratchUnits : Nat := 16384
/-- Bytes of a weight store and tiles of an accumulator store (spec/00). -/
def weightBytes : Nat := 2097152
def accTiles : Nat := 32
/-- Entries of the pedigree table, and the free entries below which a SPAWN stalls (spec/16 R268). -/
def pedTable : Nat := 65536
def pedReserve : Nat := 256
/-- Meridian ticks: a relock, the gap after one, a budget period, the wake latency, the placement limit of a handler,
the SPAWN stall limit, the amplitude timeout, the raise delay of the power manager (spec/18 R285, R286, spec/15 R263,
R264, spec/13 R236, spec/16 R268, spec/10 R186, spec/27 R366). -/
def relockTicks : Nat := 1500
def relockGap : Nat := 5000
def budgetPeriod : Nat := 100000
def wakeLatency : Nat := 50
def handlerLimit : Nat := 1000000000
def spawnStall : Nat := 1000000
def ampTimeout : Nat := 4294967296
def powerHold : Nat := 10000000
/-- Ticks between two image fetches (spec/27 R362). -/
def fetchPeriod : Nat := 1000000000
/-- Core cycles that a crew is ready without winning before it goes first (spec/15 R259), and for which a crew may stall inside
its run (spec/01 R18). -/
def ageing : Nat := 512
def runStall : Nat := 256
/-- Core cycles of a JOIN wait before suspension (spec/08 R146). -/
def joinCycles : Nat := 4096
/-- Lanes and v registers of a privileged agent: the spec gives none (DESIGN CHOICE, log 12). -/
def agentLanes : Nat := 32
def agentRegs : Nat := 192
/-- Bytes of scratchpad of a privileged agent: the spec gives none (DESIGN CHOICE, log 12). -/
def agentScratch : Nat := 4096

/-- The 132 bytes r and s of the device's ECDSA P-521 signature of a digest, under a key that is never exported (spec/27
R369): a free value (log 20). -/
opaque attestSignature : BitVec 512 → List Byte
/-- Whether a signature of 132 bytes fits a schedule image's digest under a key in the key list of the running image, which the first
argument names by its hash (spec/26 R346): a free value (log 20). -/
opaque scheduleSigned : BitVec 512 → BitVec 512 → List Byte → Bool
/-- The random word of a stochastic result in an s register, by %SEED, %PEDDIG and %DIX: the spec keys it by these (spec/16
Table 16-1) and names no lane (spec/03 R57): a free value (log 10). -/
opaque scalarRandom : BitVec 64 → BitVec 64 → BitVec 40 → BitVec 32
/-- A fresh free value for each tick of the state's counter `freeIx`. -/
opaque freeBits : Nat → BitVec 64

end Sys2Proof.Config
end

