-- ==== Sys2Proof/Machine/Number.lean ====
section
/-! DEFINITION. Number formats, rounding, exact functions and random streams (spec/03, spec/07 R136): arithmetic on bit
patterns as natural numbers. -/
namespace Sys2Proof.Machine

/-- A binary layout, Table 3-2 (spec/03 R40). -/
structure FFmt where
  ew : Nat
  fw : Nat
  bias : Nat
  e4m3 : Bool := false
deriving DecidableEq, Repr

def fp32 : FFmt := { ew := 8, fw := 23, bias := 127 }
def fp16 : FFmt := { ew := 5, fw := 10, bias := 15 }
def bf16 : FFmt := { ew := 8, fw := 7, bias := 127 }
def e4m3 : FFmt := { ew := 4, fw := 3, bias := 7, e4m3 := true }
def e5m2 : FFmt := { ew := 5, fw := 2, bias := 15 }
def acc64 : FFmt := { ew := 11, fw := 52, bias := 1023 }

/-- A decoded value: a NaN with its sign, its fraction aligned to 52 bits and its quiet bit; an infinity; or the exact
number (-1)^neg * m * 2^e, with m = 0 a signed zero (spec/03 R40, R41). -/
inductive Num where
  | nan (neg : Bool) (frac : Nat) (quiet : Bool)
  | inf (neg : Bool)
  | fin (neg : Bool) (m : Nat) (e : Int)
deriving DecidableEq, Repr

def Num.isNan : Num → Bool | .nan .. => true | _ => false
def Num.isInf : Num → Bool | .inf _ => true | _ => false
def Num.neg : Num → Bool | .nan n .. | .inf n | .fin n .. => n
def Num.isZero : Num → Bool | .fin _ m _ => m = 0 | _ => false

/-- The canonical NaN before it is given a format (spec/03 R42). -/
def Num.canon : Num := .nan false (2 ^ 51) true

/-- The rounding modes of Table 3-3, and the stochastic rounding of R44 with its 16 random bits. -/
inductive Mode where | rne | rtz | rup | rdn | rto | stoch (u : Nat)
deriving DecidableEq, Repr

/-- The rounding mode and the FZ, CN and SAT bits in force (spec/03 R42, R43, R45). -/
structure FEnv where
  mode : Mode := .rne
  fz : Bool := false
  cn : Bool := false
  sat : Bool := false
deriving DecidableEq, Repr

def FFmt.width (f : FFmt) : Nat := 1 + f.ew + f.fw
def FFmt.signBit (f : FFmt) (neg : Bool) : Nat := if neg then 2 ^ (f.ew + f.fw) else 0
/-- The largest finite magnitude, Table 3-2. -/
def FFmt.maxFinite (f : FFmt) : Nat := if f.e4m3 then 0x7E else (2 ^ f.ew - 1) * 2 ^ f.fw - 1
/-- The canonical NaN of Table 3-2. -/
def FFmt.canonBits (f : FFmt) : Nat := if f.e4m3 then 0x7F else (2 ^ f.ew - 1) * 2 ^ f.fw + 2 ^ (f.fw - 1)

/-- The value of a bit pattern (spec/03 R40, R41). -/
def FFmt.decode (f : FFmt) (x : Nat) : Num :=
  let neg := x.testBit (f.ew + f.fw)
  let ex := x / 2 ^ f.fw % 2 ^ f.ew
  let fr := x % 2 ^ f.fw
  if f.e4m3 && ex = 15 && fr = 7 then .nan neg (7 * 2 ^ 49) true
  else if !f.e4m3 && ex = 2 ^ f.ew - 1 then
    if fr = 0 then .inf neg else .nan neg (fr * 2 ^ (52 - f.fw)) (fr.testBit (f.fw - 1))
  else if ex = 0 then .fin neg fr (1 - (f.bias : Int) - f.fw)
  else .fin neg (2 ^ f.fw + fr) ((ex : Int) - f.bias - f.fw)

/-- A source under FZ: a subnormal pattern is a zero of its sign (spec/03 R45). -/
def FFmt.source (f : FFmt) (fz : Bool) (x : Nat) : Num :=
  if fz && x / 2 ^ f.fw % 2 ^ f.ew = 0 then .fin (x.testBit (f.ew + f.fw)) 0 0 else f.decode x

/-- The infinity of a format; in E4M3, the NaN or the largest finite value of R43. -/
def FFmt.infBits (f : FFmt) (v : FEnv) (neg : Bool) : Nat :=
  if v.sat && f.e4m3 then f.signBit neg + f.maxFinite
  else if f.e4m3 then (if v.cn then 0 else f.signBit neg) + 0x7F
  else f.signBit neg + (2 ^ f.ew - 1) * 2 ^ f.fw

/-- The result of an overflow, Table 3-3 with SAT. -/
def FFmt.overflow (f : FFmt) (v : FEnv) (neg : Bool) : Nat :=
  let big := f.signBit neg + f.maxFinite
  if v.sat then big
  else match v.mode with
    | .rne | .stoch _ => f.infBits v neg
    | .rtz | .rto => big
    | .rup => if neg then big else f.infBits v neg
    | .rdn => if neg then f.infBits v neg else big

/-- Whether the magnitude with integer part `sig` and remainder `rem` of 2^s rounds up (spec/03 R43, R44). -/
def roundUp (mode : Mode) (neg : Bool) (sig rem s : Nat) : Bool :=
  match mode with
  | .rne => rem * 2 > 2 ^ s || (rem * 2 = 2 ^ s && sig % 2 = 1)
  | .rtz => false
  | .rup => !neg && rem > 0
  | .rdn => neg && rem > 0
  | .rto => rem > 0 && sig % 2 = 0
  | .stoch u => u < rem * 2 ^ 16 / 2 ^ s

/-- The bit pattern of an exact nonzero or zero magnitude m * 2^e, rounded once (spec/03 R43-R45). -/
def FFmt.roundFin (f : FFmt) (v : FEnv) (neg : Bool) (m : Nat) (e : Int) : Nat :=
  if m = 0 then f.signBit neg
  else
    let qmin : Int := 1 - (f.bias : Int) - f.fw
    let q : Int := max (e + Nat.log2 m - f.fw) qmin
    let sig :=
      if q ≤ e then m * 2 ^ (e - q).toNat
      else
        let s := (q - e).toNat
        let sig := m / 2 ^ s
        let rem := m % 2 ^ s
        if roundUp v.mode neg sig rem s then sig + 1 else sig
    let mag := (q - qmin).toNat * 2 ^ f.fw + sig
    if mag > f.maxFinite then f.overflow v neg
    else if v.fz && mag < 2 ^ f.fw then f.signBit neg
    else f.signBit neg + mag

/-- The bit pattern of a value in a format: one rounding, with the NaN and infinity rules (spec/03 R42, R43). -/
def FFmt.round (f : FFmt) (v : FEnv) : Num → Nat
  | .nan neg frac _ =>
    if v.cn then f.canonBits
    else if f.e4m3 then f.signBit neg + 0x7F
    else f.signBit neg + (2 ^ f.ew - 1) * 2 ^ f.fw + (frac / 2 ^ (52 - f.fw) % 2 ^ (f.fw - 1) + 2 ^ (f.fw - 1))
  | .inf neg => f.infBits v neg
  | .fin neg m e => f.roundFin v neg m e

def FFmt.isNanBits (f : FFmt) (x : Nat) : Bool := (f.decode x).isNan
def FFmt.isInfBits (f : FFmt) (x : Nat) : Bool := (f.decode x).isInf

/-! ## Exact arithmetic -/

/-- The integer mantissa of a finite value at exponent `k`, which is at most its own. -/
def Num.at (n : Num) (k : Int) : Int :=
  match n with
  | .fin neg m e => let x : Int := (m * 2 ^ (e - k).toNat : Nat); if neg then -x else x
  | _ => 0

def Num.exp : Num → Int | .fin _ m e => if m = 0 then 0 else e | _ => 0

/-- The common exponent of two finite values: a zero takes that of the other. -/
def Num.commonExp (a b : Num) : Int :=
  if a.isZero then b.exp else if b.isZero then a.exp else min a.exp b.exp

/-- The exact sum of two values; an exact zero of opposite signs is -0 only under RDN (spec/03 R42). -/
def Num.add (a b : Num) (rdn : Bool := false) : Num :=
  match a, b with
  | .nan .., _ => a
  | _, .nan .. => b
  | .inf x, .inf y => if x = y then a else .canon
  | .inf _, _ => a
  | _, .inf _ => b
  | .fin x m e, .fin y n e' =>
    let k := Num.commonExp a b
    let s := (if m = 0 then 0 else Num.at (.fin x m e) k) + (if n = 0 then 0 else Num.at (.fin y n e') k)
    if s = 0 then .fin (if x = y then x else rdn) 0 0 else .fin (s < 0) s.natAbs k

/-- The exact product (spec/03 R42). -/
def Num.mul (a b : Num) : Num :=
  match a, b with
  | .nan .., _ => a
  | _, .nan .. => b
  | .inf x, y => if y.isZero then .canon else .inf (x != y.neg)
  | x, .inf y => if x.isZero then .canon else .inf (x.neg != y)
  | .fin x m e, .fin y n e' => .fin (x != y) (m * n) (e + e')

def Num.negate : Num → Num
  | .nan n f q => .nan (!n) f q
  | .inf n => .inf (!n)
  | .fin n m e => .fin (!n) m e

/-- The exact A * B + E; 0 * ∞ gives the canonical NaN even when E is a NaN (spec/07 R132). -/
def Num.fma (a b c : Num) (rdn : Bool := false) : Num :=
  match a, b with
  | .nan .., _ => a
  | _, .nan .. => b
  | _, _ => match Num.mul a b with
    | .nan .. => .canon
    | p => Num.add p c rdn

/-- a < b for two values that are no NaNs, with -0 = +0. -/
def Num.lt (a b : Num) : Bool :=
  match a, b with
  | .inf x, .inf y => x && !y
  | .inf x, _ => x
  | _, .inf y => !y
  | .fin x m e, .fin y n e' =>
    let k := Num.commonExp a b
    (if m = 0 then 0 else Num.at (.fin x m e) k) < (if n = 0 then 0 else Num.at (.fin y n e') k)
  | _, _ => false

def Num.eq (a b : Num) : Bool := !a.isNan && !b.isNan && !Num.lt a b && !Num.lt b a

/-- FMIN and FMAX (spec/07 R133, spec/06 R124): the smaller or larger operand, -0 below +0, a NaN loses. -/
def Num.pick (mx : Bool) (a b : Num) : Num :=
  match a.isNan, b.isNan with
  | true, true => a
  | true, false => b
  | false, true => a
  | false, false =>
    let less := Num.lt a b || (Num.eq a b && a.neg && !b.neg)
    if less != mx then a else b

/-! ## Functions (spec/07 R136), exact up to one last bit that says that more follows -/

/-- The largest r with r * r ≤ n, built from `bits` bits downward. -/
def isqrtBits : Nat → Nat → Nat → Nat
  | 0, _, r => r
  | k + 1, n, r => let t := r + 2 ^ k; isqrtBits k n (if t * t ≤ n then t else r)

def isqrt (n : Nat) : Nat := isqrtBits (Nat.log2 n / 2 + 1) n 0

/-- A positive value from a floor and whether the floor is exact. -/
def withSticky (neg : Bool) (q : Nat) (exact : Bool) (e : Int) : Num :=
  .fin neg (2 * q + if exact then 0 else 1) (e - 1)

def Num.rcp : Num → Num
  | .nan n f q => .nan n f q
  | .inf n => .fin n 0 0
  | .fin n m e => if m = 0 then .inf n else withSticky n (2 ^ 200 / m) (2 ^ 200 % m = 0) (-200 - e)

def Num.sqrt : Num → Num
  | .nan n f q => .nan n f q
  | .inf n => if n then .canon else .inf n
  | .fin n m e =>
    if m = 0 then .fin n 0 0
    else if n then .canon
    else
      let k : Nat := if e % 2 = 0 then 200 else 201
      let x := m * 2 ^ k
      let r := isqrt x
      withSticky false r (r * r = x) ((e - k) / 2)

def Num.rsq : Num → Num
  | .nan n f q => .nan n f q
  | .inf n => if n then .canon else .fin false 0 0
  | .fin n m e =>
    if m = 0 then .inf n
    else if n then .canon
    else
      let (m', e') := if e % 2 = 0 then (m, e) else (m * 2, e - 1)
      let r := isqrt (2 ^ 400 / m')
      withSticky false r (r * r * m' = 2 ^ 400) (-200 - e' / 2)

/-- Fraction bits of the fixed-point constants below. -/
def fxBits : Nat := 480
/-- ⌊π/2 * 2^480⌋. -/
def halfPi : Nat := 0x1921fb54442d18469898cc51701b839a252049c1114cf98e804177d4c76273644a29410f31c6809bbdf2a33679a748636605614dbe4be286e9fc26ada
/-- ⌊ln 2 * 2^480⌋. -/
def lnTwo : Nat := 0xb17217f7d1cf79abc9e3b39803f2f6af40f343267298b62d8a0d175b8baafa2be7b876206debac98559552fb4afa1b10ed2eae35c138214427573b29

/-- exp of a fixed-point x in [0, 1): `n` further terms, `k` the index of the next, `t` the last term. -/
def expTerms : Nat → Nat → Nat → Nat → Nat → Nat
  | 0, _, _, _, acc => acc
  | n + 1, x, k, t, acc => let t' := t * x / 2 ^ fxBits / k; expTerms n x (k + 1) t' (acc + t')

/-- The alternating series of sine and cosine: the sum of the terms taken with + and of those taken with -. -/
def trigTerms : Nat → Nat → Nat → Nat → Bool → Nat → Nat → Nat
  | 0, _, _, _, _, pos, neg => pos - neg
  | n + 1, x2, k, t, plus, pos, neg =>
    let t' := t * x2 / 2 ^ fxBits / (k * (k + 1))
    trigTerms n x2 (k + 2) t' (!plus) (if plus then pos + t' else pos) (if plus then neg else neg + t')

def sinFx (x : Nat) : Nat := trigTerms 50 (x * x / 2 ^ fxBits) 2 x false x 0
def cosFx (x : Nat) : Nat := trigTerms 50 (x * x / 2 ^ fxBits) 1 (2 ^ fxBits) false (2 ^ fxBits) 0

def Num.exp2 : Num → Num
  | .nan n f q => .nan n f q
  | .inf n => if n then .fin false 0 0 else .inf false
  | .fin n m e =>
    if m = 0 then .fin false 1 0
    else if e + Nat.log2 m ≥ 9 then (if n then .fin false 1 (-400) else .fin false 1 400)
    else
      let a : Int := (m * 2 ^ (e + 149).toNat : Nat)
      let x : Int := if n then -a else a
      let i := x / 2 ^ 149
      let f := (x % 2 ^ 149).toNat
      if f = 0 then .fin false 1 i
      else
        let y := f * lnTwo / 2 ^ 149
        withSticky false (expTerms 90 y 1 (2 ^ fxBits) (2 ^ fxBits)) false (i - fxBits)

/-- `n` bits of the binary logarithm of y in [1, 2), fixed point. -/
def log2Bits : Nat → Nat → Nat → Nat
  | 0, _, acc => acc
  | n + 1, y, acc =>
    let y2 := y * y / 2 ^ fxBits
    if y2 ≥ 2 ^ (fxBits + 1) then log2Bits n (y2 / 2) (2 * acc + 1) else log2Bits n y2 (2 * acc)

def Num.log2 : Num → Num
  | .nan n f q => .nan n f q
  | .inf n => if n then .canon else .inf false
  | .fin n m e =>
    if m = 0 then .inf true
    else if n then .canon
    else
      let l := Nat.log2 m
      let i : Int := e + l
      if m = 2 ^ l then .fin (i < 0) i.natAbs 0
      else
        let frac : Nat := 2 * log2Bits 160 (m * 2 ^ (fxBits - l)) 0 + 1
        let v : Int := i * 2 ^ 161 + (frac : Int)
        .fin (v < 0) v.natAbs (-161)

/-- sin or cos of an exact argument: reduction by π/2, then the series. -/
def trig (cosine neg : Bool) (m : Nat) (e : Int) : Num :=
  let x := if e ≥ 0 then m * 2 ^ (e.toNat + fxBits) else m * 2 ^ fxBits / 2 ^ (-e).toNat
  let n := x / halfPi
  let r := x % halfPi
  let quad := (n + if cosine then 1 else 0) % 4
  let v := if quad % 2 = 0 then sinFx r else cosFx r
  let s := (quad ≥ 2) != (neg && !cosine)
  withSticky s v false (-(fxBits : Int))

def Num.sin : Num → Num
  | .nan n f q => .nan n f q
  | .inf _ => .canon
  | .fin n m e =>
    if m = 0 || e + Nat.log2 m < -12 then .fin n m e else trig false n m e

def Num.cos : Num → Num
  | .nan n f q => .nan n f q
  | .inf _ => .canon
  | .fin n m e => if m = 0 || e + Nat.log2 m < -40 then .fin false 1 0 else trig true n m e

/-- The integer a value rounds to (spec/03 R46): none for a NaN; the result is clamped to the range. -/
def Num.toInt (mode : Mode) (lo hi : Int) : Num → Int
  | .nan .. => 0
  | .inf n => if n then lo else hi
  | .fin n m e =>
    let mag : Nat :=
      if e ≥ 0 then m * 2 ^ (min e.toNat 200)
      else
        let s := (-e).toNat
        let sig := m / 2 ^ s
        if roundUp mode n sig (m % 2 ^ s) s then sig + 1 else sig
    let v : Int := if n then -(mag : Int) else mag
    max lo (min hi v)

def Num.ofInt (x : Int) : Num := .fin (x < 0) x.natAbs 0

/-! ## Random streams -/

/-- Four 32-bit words. -/
structure Block where
  w0 : Nat
  w1 : Nat
  w2 : Nat
  w3 : Nat
deriving DecidableEq, Repr

/-- The rounds of Philox4x32 (spec/03 R56); `first` marks the round without a key step. -/
def philoxRounds : Nat → Bool → Block → Nat → Nat → Block
  | 0, _, c, _, _ => c
  | n + 1, first, c, k0, k1 =>
    let k0 := if first then k0 else (k0 + 0x9E3779B9) % 2 ^ 32
    let k1 := if first then k1 else (k1 + 0xBB67AE85) % 2 ^ 32
    let p0 := 0xD2511F53 * c.w0
    let p1 := 0xCD9E8D57 * c.w2
    philoxRounds n false
      ⟨(p1 / 2 ^ 32) ^^^ c.w1 ^^^ k0, p1 % 2 ^ 32, (p0 / 2 ^ 32) ^^^ c.w3 ^^^ k1, p0 % 2 ^ 32⟩ k0 k1

def philox (c : Block) (key : Nat) (rounds : Nat) : Block :=
  philoxRounds rounds true c (key % 2 ^ 32) (key / 2 ^ 32 % 2 ^ 32)

def Block.words (b : Block) : List Nat := [b.w0, b.w1, b.w2, b.w3]

/-- The random block of a lane at an index (spec/03 R57). -/
def laneBlock (dix lane seed digest : Nat) : Block :=
  philox ⟨dix % 2 ^ 32, dix / 2 ^ 32 % 256, lane, 0⟩ (seed ^^^ digest) 10

/-- The Gaussian of a block as an FP32 pattern (spec/03 R57). -/
def gaussian (b : Block) : Nat :=
  let s : Nat := (b.words.map fun w => w % 2 ^ 16 + w / 2 ^ 16).sum
  let x := Num.ofInt ((s : Int) - 262140)
  fp32.round {} (Num.mul x (fp32.decode 0x379CC471))

/-- The perturbation of an MLD element (spec/03 R59), as an FP32 pattern. -/
def reliefEps (tid e member seed : Nat) : Nat :=
  gaussian (philox ⟨e % 2 ^ 32, e / 2 ^ 32 % 2 ^ 16, member, 1⟩ (seed ^^^ tid) 7)

/-- The deviation table T of Table 3-6, in BF16. -/
def sigmaTable (f : Nat) : Nat :=
  [0x3F80, 0x3F86, 0x3F8C, 0x3F92, 0x3F98, 0x3F9F, 0x3FA6, 0x3FAD, 0x3FB5, 0x3FBD, 0x3FC5, 0x3FCE, 0x3FD7, 0x3FE1,
    0x3FEB, 0x3FF5].getD f 0

/-- The deviation of an ℓ byte (spec/03 R54). -/
def sigma (l : Nat) : Num :=
  let n : Int := toSigned 8 l / 16
  match bf16.decode (sigmaTable (l % 16)) with
  | .fin s m e => .fin s m (e + n)
  | x => x

/-- The perturbed weight of R59: one fused step in FP32, then the format of μ. -/
def reliefWeight (f : FFmt) (v : FEnv) (eps mu l : Nat) : Nat :=
  let w32 := fp32.round { cn := v.cn } (Num.fma (fp32.decode eps) (sigma l) (f.decode mu))
  f.round { v with mode := .rne } (fp32.decode w32)

/-- The GQ4 codebook, Table 3-5, as E4M3 patterns (spec/03 R52). -/
def gq4Level (c : Nat) : Nat :=
  [0xB8, 0xB3, 0xB0, 0xAC, 0xA9, 0xA4, 0x9C, 0x00, 0x1A, 0x22, 0x28, 0x2B, 0x2E, 0x31, 0x34, 0x38].getD c 0

/-- The scale of a GQ4 block, for c ≠ 0 (spec/03 R53). -/
def blockScale (s c : Nat) : Nat :=
  match fp32.decode s with
  | .fin n m e =>
    let p := m * c * 2 ^ 100
    fp32.round {} (withSticky n (p / 255) (p % 255 = 0) (e - 100))
  | _ => s

/-- The digest of a pedigree and a root index (spec/03 R61). -/
def pedDigest (ped : BitVec 512) (task : Word) : DWord :=
  let w (j : Nat) : Nat := ped.toNat / 2 ^ (32 * j) % 2 ^ 32
  let stepK (k : Nat) (i : Nat) : Nat :=
    let o := philox ⟨w (4 * i), w (4 * i + 1), w (4 * i + 2), w (4 * i + 3)⟩ k 10
    (o.w0 ^^^ o.w2) + (o.w1 ^^^ o.w3) * 2 ^ 32
  BitVec.ofNat 64 ([0, 1, 2, 3].foldl stepK task.toNat)

/-! ## LA320 records (spec/03 R49, R50): bits [319:0] the integer, bits [383:320] the status -/

def la320Add (r : BitVec 384) (x : Num) : BitVec 384 :=
  match x with
  | .nan .. => r ||| (1 : BitVec 384) <<< 320
  | .inf n => r ||| (if n then (4 : BitVec 384) else 2) <<< 320
  | .fin n m e =>
    let v : Nat := m * 2 ^ (e + 149).toNat
    let w := BitVec.ofNat 320 r.toNat
    let w' := if n then w - BitVec.ofNat 320 v else w + BitVec.ofNat 320 v
    r.extractLsb' 320 64 ++ w'

def la320Merge (a b : BitVec 384) : BitVec 384 :=
  (a.extractLsb' 320 64 ||| b.extractLsb' 320 64) ++ (a.extractLsb' 0 320 + b.extractLsb' 0 320)

def la320Round (f : FFmt) (r : BitVec 384) : Nat :=
  let nv := r.getLsbD 320
  let pi := r.getLsbD 321
  let ni := r.getLsbD 322
  if nv || (pi && ni) then f.canonBits
  else if pi then f.round {} (.inf false)
  else if ni then f.round {} (.inf true)
  else
    let x := toSigned 320 (r.extractLsb' 0 320).toNat
    f.round {} (.fin (x < 0) x.natAbs (-149))

end Sys2Proof.Machine
end

