-- ==== Sys2Proof/Syntax.lean ====
section
/-! DEFINITION. The instructions and events of the Atgar H9: one constructor of `Instr` per row of
spec/opcode_table.json. Instruction words carry their guard and hints (`Ctl`), typed operands and typed modifiers;
events carry the place where they happen and what the outside world supplies. -/
namespace Sys2Proof

/-- Special registers, Table 1-3 (spec/01 R14). -/
inductive Special where
  | lane | crew | party | task | ped | peddig | dix | seed | fmt | rbase | regc | clk | mer | wake | die | core | fault
deriving DecidableEq, Repr

/-- A 10-bit operand field (spec/01 R13, Table 1-2): lane register, uniform register, predicate, special register or
sign-extended 8-bit immediate. -/
inductive Operand where
  | v (i : BitVec 8)
  | s (i : BitVec 6)
  | p (i : BitVec 3)
  | sp (x : Special)
  | imm (i : BitVec 8)
deriving DecidableEq, Repr

/-- The guard GN, GP and the hints RE, IE, ST, YL, RU of an instruction word (spec/01 R8, R12, R17). -/
structure Ctl where
  gn : Bool
  gp : BitVec 3
  re : Bool
  ie : Bool
  st : BitVec 4
  yl : Bool
  ru : BitVec 3
deriving DecidableEq, Repr

/-- Integer comparison codes (spec/04 R71). -/
inductive ICond where | eq | ne | lt | le | gt | ge
deriving DecidableEq, Repr

/-- Combination of a comparison with predicate E (spec/04 R71). -/
inductive Comb where | none | and (e : Operand) | or (e : Operand) | xor (e : Operand)
deriving DecidableEq, Repr

/-- Where BFX and BFI take the position and the length from (spec/04 R67). -/
inductive FieldSpec where | reg (e : Operand) | imm (pos : BitVec 6) (len : BitVec 7)
deriving DecidableEq, Repr

/-- Where PRMT takes its selector from (spec/04 R69). -/
inductive PrmtSel where | reg (e : Operand) | imm (sel : BitVec 16)
deriving DecidableEq, Repr

/-- VOTE modes (spec/04 R74). -/
inductive VoteMode where | all | any | uni | ballot (b : Operand)
deriving DecidableEq, Repr

/-- SHFL modes (spec/04 R76). -/
inductive ShflMode where | idx | up | down | xor
deriving DecidableEq, Repr

/-- SHFL segment widths (spec/04 R76). -/
inductive Seg where | w32 | w16 | w8 | w4 | w2
deriving DecidableEq, Repr

/-- REDUX operators, and the six operators RED accepts (spec/04 R77, spec/06 R119). -/
inductive RedOp where | add | min | max | and | or | xor
deriving DecidableEq, Repr

/-- Operations of ATOM and ATOMS (spec/06 R119, R120); CAS carries its compare operand E. -/
inductive AtomOp where | add | min | max | and | or | xor | exch | cas (e : Operand)
deriving DecidableEq, Repr

/-- Integer types of I2I (spec/04 R80). -/
inductive IntTy where | s32 | z32 | s8 | z8 | s16 | z16 | s64 | z64
deriving DecidableEq, Repr

/-- Memory element types, Table 5-3 (spec/05 R96). -/
inductive MemTy where | b32 | b64 | b128 | u8 | s8 | u16 | s16
deriving DecidableEq, Repr

/-- Element types a store accepts (spec/05 R96: `.s8` and `.s16` raise cause 0x03). -/
inductive StTy where | b32 | b64 | b128 | u8 | u16
deriving DecidableEq, Repr

/-- Scope codes, Table 5-2 (spec/05 R95). -/
inductive Scope where | die | crew | party | core | pkg | sys
deriving DecidableEq, Repr

/-- The scopes a signal or ticket instruction accepts (spec/06 R125). -/
inductive SigScope where | die | pkg | sys
deriving DecidableEq, Repr

/-- The scopes IINV accepts (spec/05 R107). -/
inductive IScope where | die | core | pkg
deriving DecidableEq, Repr

/-- FENCE kinds (spec/05 R105), also the ordering of ATOM (spec/06 R119). -/
inductive Order where | plain | acq | rel | ar
deriving DecidableEq, Repr

/-- FRED element types (spec/06 R124). -/
inductive FredTy where | f32 | bf16x2 | f16x2
deriving DecidableEq, Repr

/-- FRED and collective operators (spec/06 R124). -/
inductive MinMaxAdd where | add | min | max
deriving DecidableEq, Repr

/-- SIGWAIT conditions, unsigned (spec/06 R125). -/
inductive SigCond where | eq | ne | ge | lt
deriving DecidableEq, Repr

/-- The rounding override RO, Table 7-1 (spec/07 R130). -/
inductive RO where | fmt | rne | rtz | rup | rdn | rto | rs
deriving DecidableEq, Repr

/-- FCMP conditions (spec/07 R134). -/
inductive FCond where | eq | ne | lt | le | gt | ge | num | nan
deriving DecidableEq, Repr

/-- Packed 16-bit element types (spec/07 R137). -/
inductive HTy where | bf16x2 | f16x2
deriving DecidableEq, Repr

/-- DOT4 element types (spec/07 R138). -/
inductive DotTy where | e4m3 | e5m2 | s8 | u8
deriving DecidableEq, Repr

/-- CVT source and destination formats (spec/07 R139). -/
inductive CvtTy where | f32 | f16 | bf16 | e4m3 | e5m2 | s8 | s32
deriving DecidableEq, Repr

/-- RNGU outputs (spec/07 R142). -/
inductive RngOut where | u32 | f32 | u64 | u128
deriving DecidableEq, Repr

/-- Reducer kinds, Table 8-3 (spec/08 R152). -/
inductive RedKind where | addf32 | addbf16 | adds64 | minf32 | maxf32 | mins64 | maxs64 | amin | amax | log
deriving DecidableEq, Repr

/-- OMMV x formats (spec/09 R175). -/
inductive XFmt where | f32 | f16 | bf16 | e4m3 | e5m2
deriving DecidableEq, Repr

/-- OMMV weight formats (spec/09 R175). -/
inductive WFmt where | f32 | f16 | bf16 | e4m3 | e5m2 | mldb | mlde
deriving DecidableEq, Repr

/-- TLBINV scope field, its own codes; SC 3 is the word that returns status 2 (spec/10 R192). -/
inductive TlbScope where | core | die | pkg | bad
deriving DecidableEq, Repr

/-- TLBINV kind field; KIND 3 returns status 2 (spec/10 R192). -/
inductive TlbKind where | ctx | page | all | bad
deriving DecidableEq, Repr

/-- FRET resume point (spec/10 R193). -/
inductive FretHow where | pc | retry | region | endTask
deriving DecidableEq, Repr

/-- BUDSET quantity (spec/10 R195). -/
inductive BudKind where | time | copy | coll | hbm
deriving DecidableEq, Repr

/-- Why a fetched word is no instruction for this crew (spec/01 R22, R23): the checks 1 to 5 in their order.
`illegal` carries the cause code of Table 1-7. `fetch` carries the CAUSE, the SUB code and the detail D1 of the
failed fetch (0x05 translation, 0x06 address, 0x1F uncorrectable word). -/
inductive Reject where
  | align (target : DWord)
  | fetch (cause : BitVec 8) (sub : BitVec 8) (addr : DWord) (d1 : Word)
  | illegal (cause : BitVec 8)
  | privilege
  | role
deriving DecidableEq, Repr

/-- A firmware image as the loader sees it (spec/27 R362): its sequence number, its SHA-512, whether its signature
verifies against the fused key, and whether it is whole. -/
structure Image where
  seq : DWord
  hash : BitVec 512
  signed : Bool
  whole : Bool
deriving DecidableEq, Repr

/-- Every row of spec/opcode_table.json: the instructions of Table 1-6 with their forms, the FWCALL services, the
rejected word, and the events of the part. -/
inductive Instr where
  -- MAJ 0x01, 0x02 (spec/04 R64, R65)
  | iadd (f : Ctl) (d a b : Operand) (sz : Bool)
  | isub (f : Ctl) (d a b : Operand) (sz : Bool)
  | iadd3 (f : Ctl) (d a b e : Operand) (sz : Bool)
  | iaddsat (f : Ctl) (d a b : Operand) (sz u : Bool)
  | isubsat (f : Ctl) (d a b : Operand) (sz u : Bool)
  | ineg (f : Ctl) (d a : Operand) (sz : Bool)
  | iabs (f : Ctl) (d a : Operand) (sz : Bool)
  | imin (f : Ctl) (d a b : Operand) (sz u : Bool)
  | imax (f : Ctl) (d a b : Operand) (sz u : Bool)
  | imul (f : Ctl) (d a b : Operand) (sz u : Bool)
  | imulhi (f : Ctl) (d a b : Operand) (sz u : Bool)
  | imad (f : Ctl) (d a b e : Operand) (sz u : Bool)
  | imadw (f : Ctl) (d a b e : Operand) (u : Bool)
  | idiv (f : Ctl) (d a b : Operand) (sz u : Bool)
  | irem (f : Ctl) (d a b : Operand) (sz u : Bool)
  -- MAJ 0x03, 0x04 (spec/04 R66)
  | and (f : Ctl) (d a b : Operand) (sz : Bool)
  | or (f : Ctl) (d a b : Operand) (sz : Bool)
  | xor (f : Ctl) (d a b : Operand) (sz : Bool)
  | andn (f : Ctl) (d a b : Operand) (sz : Bool)
  | orn (f : Ctl) (d a b : Operand) (sz : Bool)
  | not (f : Ctl) (d a : Operand) (sz : Bool)
  | shl (f : Ctl) (d a b : Operand) (sz : Bool)
  | shr (f : Ctl) (d a b : Operand) (sz : Bool)
  | sar (f : Ctl) (d a b : Operand) (sz : Bool)
  | rotl (f : Ctl) (d a b : Operand) (sz : Bool)
  | shf (f : Ctl) (d a b e : Operand) (sz right : Bool)
  -- MAJ 0x05, 0x06 (spec/04 R67-R70)
  | bfx (f : Ctl) (d a : Operand) (spec : FieldSpec) (sz u : Bool)
  | bfi (f : Ctl) (d a b : Operand) (spec : FieldSpec) (sz : Bool)
  | popc (f : Ctl) (d a : Operand) (sz : Bool)
  | clz (f : Ctl) (d a : Operand) (sz : Bool)
  | ctz (f : Ctl) (d a : Operand) (sz : Bool)
  | brev (f : Ctl) (d a : Operand) (sz : Bool)
  | prmt (f : Ctl) (d a b : Operand) (sel : PrmtSel)
  | clmul (f : Ctl) (d a b : Operand) (sz : Bool)
  | clmulh (f : Ctl) (d a b : Operand) (sz : Bool)
  -- MAJ 0x07, 0x08 (spec/04 R71-R73)
  | icmp (f : Ctl) (d a b : Operand) (cc : ICond) (cb : Comb) (sz u : Bool)
  | pand (f : Ctl) (d a b : Operand)
  | por (f : Ctl) (d a b : Operand)
  | pxor (f : Ctl) (d a b : Operand)
  | pnot (f : Ctl) (d a : Operand)
  | sel (f : Ctl) (d a b e : Operand) (sz : Bool)
  -- MAJ 0x09 (spec/04 R74-R77)
  | vote (f : Ctl) (d a : Operand) (mode : VoteMode)
  | bcast (f : Ctl) (d a b : Operand) (sz : Bool)
  | shfl (f : Ctl) (d a b : Operand) (mode : ShflMode) (seg : Seg) (sz : Bool)
  | redux (f : Ctl) (d a : Operand) (op : RedOp) (sz u : Bool)
  -- MAJ 0x0A, 0x0B (spec/04 R78-R82)
  | mov (f : Ctl) (d a : Operand) (sz : Bool)
  | movi (f : Ctl) (d : Operand) (imm : Word)
  | lea (f : Ctl) (d a b : Operand) (scale : Fin 5) (u : Bool) (ofs : BitVec 20)
  | i2i (f : Ctl) (d a : Operand) (dst src : IntTy) (sat : Bool)
  | rdsp (f : Ctl) (d a : Operand) (wrap : Bool)
  | wrsp (f : Ctl) (a : Operand) (clr : Bool)
  -- MAJ 0x20 (spec/04 R83-R93)
  | bra (f : Ctl) (ofs : BitVec 20)
  | brx (f : Ctl) (a : Operand)
  | call (f : Ctl) (d : Operand) (ofs : BitVec 20)
  | ret (f : Ctl) (a : Operand)
  | exit (f : Ctl)
  | reconv (f : Ctl) (ofs : BitVec 20)
  | brk (f : Ctl) (ofs : BitVec 20)
  | cont (f : Ctl) (ofs : BitVec 20)
  | yield (f : Ctl)
  | nop (f : Ctl)
  | trap (f : Ctl) (imm : Word)
  /-- A fetched word that fails checks 1 to 5 (spec/01 R22). -/
  | illegalInstruction (why : Reject)
  -- MAJ 0x30-0x35 (spec/05)
  | ld (f : Ctl) (d a : Operand) (ofs : BitVec 20) (ty : MemTy) (acq : Bool) (sc : Scope) (fr hv : Bool) (hd : BitVec 2)
  | st (f : Ctl) (a b : Operand) (ofs : BitVec 20) (ty : StTy) (rel : Bool) (sc : Scope)
  | pref (f : Ctl) (a : Operand) (ofs : BitVec 20) (l1 : Bool)
  | lds (f : Ctl) (d a : Operand) (ofs : BitVec 20) (ty : MemTy) (peer : Option (BitVec 3))
  | sts (f : Ctl) (a b : Operand) (ofs : BitVec 20) (ty : StTy) (peer : Option (BitVec 3))
  | ldr (f : Ctl) (d a : Operand) (ofs : BitVec 20)
  | str (f : Ctl) (a b : Operand) (ofs : BitVec 20)
  | ldw (f : Ctl) (d a : Operand) (ofs : BitVec 20) (ty : MemTy)
  | fence (f : Ctl) (kind : Order) (sc : Scope)
  | iinv (f : Ctl) (sc : IScope)
  | cflush (f : Ctl) (a : Operand) (ofs : BitVec 20) (sc : Scope) (inv : Bool)
  | waitc (f : Ctl) (l s c t : BitVec 6)
  | tshape (f : Ctl) (a b : Operand)
  | tcopy (f : Ctl) (a b : Operand) (rf : Option Operand) (dd : Bool)
  -- MAJ 0x50-0x52 (spec/06)
  | atom (f : Ctl) (d a b : Operand) (op : AtomOp) (sem : Order) (sc : Scope) (sz u : Bool)
  | atoms (f : Ctl) (d a b : Operand) (op : AtomOp) (peer : Option (BitVec 3)) (sz u : Bool)
  | red (f : Ctl) (a b : Operand) (op : RedOp) (rel : Bool) (sc : Scope) (sz u : Bool)
  | fred (f : Ctl) (a b : Operand) (ft : FredTy) (op : MinMaxAdd) (fz cn sat rel : Bool) (sc : Scope)
  | sigset (f : Ctl) (a b : Operand) (sc : SigScope)
  | sigadd (f : Ctl) (d : Option Operand) (a b : Operand) (sc : SigScope)
  | sigwait (f : Ctl) (d a b : Operand) (cc : SigCond) (sc : SigScope)
  | ticket (f : Ctl) (d a : Operand) (ex : Option Operand) (sc : SigScope)
  | tkserve (f : Ctl) (a : Operand) (sc : SigScope)
  -- MAJ 0x60-0x65 (spec/07)
  | fadd (f : Ctl) (d a b : Operand) (ro : RO)
  | fsub (f : Ctl) (d a b : Operand) (ro : RO)
  | fmul (f : Ctl) (d a b : Operand) (ro : RO)
  | ffma (f : Ctl) (d a b e : Operand) (ro : RO)
  | fmin (f : Ctl) (d a b : Operand)
  | fmax (f : Ctl) (d a b : Operand)
  | fcmp (f : Ctl) (d a b : Operand) (cc : FCond) (cb : Comb)
  | fclass (f : Ctl) (d a b : Operand)
  | frcp (f : Ctl) (d a : Operand)
  | frsq (f : Ctl) (d a : Operand)
  | fsqrt (f : Ctl) (d a : Operand)
  | fex2 (f : Ctl) (d a : Operand)
  | flg2 (f : Ctl) (d a : Operand)
  | fsin (f : Ctl) (d a : Operand)
  | fcos (f : Ctl) (d a : Operand)
  | hadd2 (f : Ctl) (d a b : Operand) (ht : HTy) (ro : RO)
  | hmul2 (f : Ctl) (d a b : Operand) (ht : HTy) (ro : RO)
  | hfma2 (f : Ctl) (d a b e : Operand) (ht : HTy) (ro : RO)
  | dot4 (f : Ctl) (d a b e : Operand) (et : DotTy) (ro : RO)
  | cvt (f : Ctl) (d a : Operand) (pk : Option Operand) (dt st : CvtTy) (ro : RO) (sel : BitVec 2)
  | fmtset (f : Ctl) (imm : Word)
  | fmtget (f : Ctl) (d : Operand)
  | rngu (f : Ctl) (d : Operand) (out : RngOut)
  | rngn (f : Ctl) (d : Operand)
  -- MAJ 0x80-0x86 (spec/08)
  | spawn (f : Ctl) (b : Operand) (sh : BitVec 3) (ofs : BitVec 20)
  | spawnr (f : Ctl) (a b : Operand) (sh : BitVec 3)
  | join (f : Ctl)
  | pedget (f : Ctl) (d b : Operand)
  | pedcmp (f : Ctl) (d a b : Operand)
  | vdecl (f : Ctl) (a b e : Operand) (kind : RedKind)
  | vptr (f : Ctl) (d a : Operand)
  | vfin (f : Ctl) (a : Operand) (raw : Bool)
  | alloc (f : Ctl) (d a : Operand)
  | barp (f : Ctl)
  | barc (f : Ctl) (pk : Bool)
  | arriveInit (f : Ctl) (a b : Operand)
  | arrive (f : Ctl) (d a b : Operand)
  | await (f : Ctl) (a b : Operand)
  | ringputGet (f : Ctl) (d a : Operand)
  | ringputPub (f : Ctl) (a b : Operand)
  | ringputInit (f : Ctl) (a b : Operand)
  | ringgetGet (f : Ctl) (d a : Operand)
  | ringgetRel (f : Ctl) (a b : Operand)
  | trigger (f : Ctl)
  -- MAJ 0x90-0x94 (spec/09)
  | tmma (f : Ctl) (a b : Operand) (t : BitVec 5)
  | tmmae (f : Ctl) (a b e : Operand) (t : BitVec 5)
  | tmmag (f : Ctl) (a b : Operand) (t : BitVec 5)
  | tzero (f : Ctl) (t : BitVec 5)
  | tload (f : Ctl) (a b : Operand) (t : BitVec 5)
  | tadd (f : Ctl) (t s : BitVec 5)
  | tlink (f : Ctl) (a b : Operand)
  | tdrain (f : Ctl) (a b : Operand) (t : BitVec 5) (clr h : Bool)
  | tdrainl (f : Ctl) (a b e : Operand) (t : BitVec 5) (h : Bool)
  | ommv (f : Ctl) (d a b : Operand) (k n : BitVec 6) (xf : XFmt) (wf : WFmt) (z : Bool)
  | ommve (f : Ctl) (d a b e : Operand) (k n : BitVec 6) (xf : XFmt) (wf : WFmt) (z : Bool)
  | histrd (f : Ctl) (d a b : Operand)
  | histclr (f : Ctl) (a b : Operand)
  -- MAJ 0xB0-0xB2 (spec/10)
  | tcopyx (f : Ctl) (a b e : Operand) (dd : Bool)
  | cstart (f : Ctl) (d a b : Operand)
  | cstat (f : Ctl) (d a : Operand)
  | agate (f : Ctl) (a b : Operand) (k : Fin 5) (nr : Bool)
  | amap (f : Ctl) (a b : Operand)
  | amapRd (f : Ctl) (a b : Operand)
  | aswap (f : Ctl) (a b : Operand) (q2 : BitVec 6)
  | anorm (f : Ctl) (a b : Operand)
  | rdmer (f : Ctl) (d : Operand) (dr : Bool)
  | rdclk (f : Ctl) (d : Operand) (dr : Bool)
  | clk2mer (f : Ctl) (d a : Operand)
  -- MAJ 0xC0-0xC3 (spec/10 R191-R195)
  | ctxsave (f : Ctl) (d a b : Operand)
  | ctxload (f : Ctl) (d a b : Operand)
  | tlbinv (f : Ctl) (d a b : Operand) (sc : TlbScope) (kind : TlbKind)
  | fret (f : Ctl) (d a b : Operand) (how : FretHow)
  | fwcall (f : Ctl) (imm : Word)
  | sigraise (f : Ctl) (d a b e : Operand) (sc : SigScope)
  | budset (f : Ctl) (d a b : Operand) (kind : BudKind)
  | wakeset (f : Ctl) (d a b : Operand)
  | sleep (f : Ctl) (d : Operand)
  -- Events. Cores are named 16*die+core, crews 128*core+slot, parties 16*core+slot, service crews 4*die+j.
  | agentWake (core : Nat)
  | wakeDeadline (core : Nat)
  | loadBind (crew idx : Nat)
  | storeComplete (crew idx : Nat)
  | replacementWriteback (die line : Nat)
  | leaseExpiry (die line : Nat)
  | serviceCrewApply (svc : Nat)
  | waitAtHomeSatisfied (svc idx : Nat)
  | accessRetry (core : Nat)
  | pageWalkDone (die idx : Nat)
  | copyComplete (crew : Nat)
  | copyAbandon (crew : Nat)
  | tileOpComplete (crew : Nat)
  | drainComplete (crew : Nat)
  | fusionWindowClose (core idx : Nat)
  | fusedPass (core : Nat)
  | collectiveComplete (crew : Nat)
  | collectiveTimeout (crew : Nat)
  | scheduleEnd (handle : Nat) (cause : BitVec 8) (steps : Nat) (acts : List (DWord × Option Byte))
  | ampMatch (die ctx slot : Nat)
  | ampCommandComplete (die ctx slot : Nat)
  | ampMatchTimeout (die ctx slot : Nat)
  | ampExchangeTimeout (die ctx slot : Nat) (done : Bool)
  | faultService (core : Nat)
  | hostPageReply (core : Nat) (granted : Bool)
  | handlerTaskStart (core : Nat)
  | handlerPlaceTimeout (core : Nat)
  | handlerVerdict (task : Nat)
  | taskFaultEnd (core : Nat)
  | coreFailure (core : Nat)
  | linkLost (crew : Nat)
  | preemptRequest (party : Nat)
  | taskComplete (task : Nat)
  | joinSuspend (task : Nat)
  | taskResume (task : Nat)
  | admitNext (core ctx queue : Nat)
  | dependenceRelease (launch : Nat)
  | batchDeal
  | coreTakeWork (core : Nat)
  | gangStart (launch : Nat)
  | runArbitration (core pipe : Nat)
  | launchComplete (launch : Nat)
  | triggerPoint (launch : Nat)
  | coreGate (core : Nat)
  | coreWake (core : Nat) (code : Nat)
  | budgetPeriodStart
  | budgetHold (cls : Nat)
  | spawnStallLimit (crew : Nat)
  | relockStart (die : Nat)
  | relockEnd (die : Nat)
  | powerStepDown (die : Nat)
  | powerStepUp (die : Nat)
  | thermalReset (die : Nat)
  | packageReset
  | selfTestPass (bit freq : Nat)
  | imageFetchRetry (img : Image)
  | firmwareUpdate (img : Image)
  | functionRetire (bit : Nat)
  | hbmSpareRepair (stack : Nat)
  | laneSpare (link : Nat)
  | rdmaWrite (qp ctx : Nat) (key : Word) (va : DWord) (data : List Byte)
  | rdmaRead (qp ctx : Nat) (key : Word) (va : DWord) (n : Nat)
  | atomicFetchAdd (qp ctx : Nat) (key : Word) (va : DWord) (x : DWord)
  | atomicCmpSwap (qp ctx : Nat) (key : Word) (va : DWord) (cmp swap : DWord)
  | unsupportedRequest (qp : Nat)
  | regionInstall (ctx idx : Nat) (base len : DWord) (r w atomic : Bool) (key : Word)
  | mirroredPageInstall (ctx idx : Nat) (page host : DWord) (key : Word) (qp : Nat)
  | commset (f : Ctl)
  | commclr (f : Ctl)
  | schedset (f : Ctl)
  | schedclr (f : Ctl)
  | telrd (f : Ctl)
  | fstep (f : Ctl)
  | repinv (f : Ctl)
  | attest (f : Ctl)
  | contextTableUpdate (ctx : Nat) (entry : BitVec 512)
  | ualinkPortDown (port : Nat)
  | crcErrorReplay (port : Nat)
  | retrainEnd (link : Nat)
deriving DecidableEq, Repr

end Sys2Proof
end

