-- ==== Sys2Proof/Machine/State.lean ====
section
/-! DEFINITION. The state of one Atgar H9 package: every piece of state that the spec names, as plain data. Tables are
association lists by number; what a table does not list has the initial value its accessor names. -/
namespace Sys2Proof.Machine

/-- Why a step stops. -/
inductive Fault where
  /-- Raised by `exec` of an instruction when no crew is issuing (`cur` names none). Safe: the part never issues an
  instruction without a crew, and every step of the machine names one. -/
  | noCrew
deriving DecidableEq, Repr

/-- Why the model gives no meaning. -/
inductive Refusal where
  /-- Raised by the dispatcher for an instruction that has no meaning yet. Safe: nothing is proved about it. -/
  | notModelled (mnemonic : String)
deriving DecidableEq, Repr

/-- A table by number, in rising order of the numbers. -/
abbrev Tbl (α : Type) := List (Nat × α)
/-- Values by number, in rising order, with no entry that is zero: what is not listed is zero. -/
abbrev Sparse (w : Nat) := List (Nat × BitVec w)
/-- Memory by physical byte address (spec/13 R225), in the host's cells. A byte that is not listed reads as zero
(DESIGN CHOICE, log 1). -/
abbrev Memory := List Host.Cell

/-- The roles of crews (spec/00 R3, spec/15 Table 15-3). -/
inductive Role where | copy | tile | vec
deriving DecidableEq, Repr

/-- The stalls of a crew (spec/15 R259). -/
inductive Wait where
  | waitc | fence | barrier | await | ring | sigwait | ticket | join | interlock | counter | walk | rejected | acquire
  | spawn | region | check | armed | hold | clock | privileged | svcFull
deriving DecidableEq, Repr

/-- What an access needs of its page (spec/13 R225). -/
inductive Need where | read | write | exec | both
deriving DecidableEq, Repr

/-- A fault report, Table 13-2 (spec/13 R232), with the crew's pedigree and the second pedigree of a race;
`tick` is when it was queued (R236), `need` what the access needs, for the second walk of R231. -/
structure Report where
  cause : BitVec 8
  sub : BitVec 8 := 0
  pr : Bool := true
  rg : Bool := false
  df : Bool := false
  more : Bool := false
  eng : BitVec 4 := 0
  crew : Nat := 0
  pslot : Nat := 0
  ctx : Nat := 0
  regc : Nat := 0
  pc : DWord := 0
  epc : DWord := 0
  addr : DWord := 0
  d1 : Word := 0
  d2 : Word := 0
  lmask : Word := 0
  taskf : Word := 0
  taskr : Word := 0
  wbase : Word := 0
  verdict : Byte := 0xFF
  tick : Nat := 0
  ped : BitVec 512 := 0
  ped2 : BitVec 512 := 0
  need : Need := .read
deriving DecidableEq, Repr

/-- A word that a pending operation writes to a register: a v register of a lane, or an s register. -/
structure RegWrite where
  vec : Bool
  reg : Nat
  lane : Nat
  val : Word
deriving DecidableEq, Repr

/-- What an operation at a service crew does to its element (spec/06 R120, R124, R125, R127). -/
inductive MemOp where
  | add | min (u : Bool) | max (u : Bool) | and | or | xor | exch | cas
  | fred (ft : FredTy) (op : MinMaxAdd) (fz cn sat : Bool)
deriving DecidableEq, Repr

/-- One lane operation of a request packet (spec/06 R118): its physical address, width and operands. -/
structure LaneOp where
  pa : Nat
  va : DWord
  bytes : Nat
  op : MemOp
  b : DWord
  e : DWord
  lane : Nat
deriving DecidableEq, Repr

/-- A request packet at a service crew (spec/06 R118); `dst` names the register that takes the old values; `live` says that the
crew that sent it is still there to be answered. -/
structure Packet where
  crew : Nat
  opId : Nat
  store : Bool
  wide : Bool
  ctx : Nat
  signal : Bool
  dst : Option Operand
  ops : List LaneOp
  live : Bool := true
deriving DecidableEq, Repr

/-- A crew that waits at a service crew for a condition on a word (spec/06 R126, R127); `got` is the answer that is on its way to
it: the value that satisfied the condition, or that the word is uncorrectable. -/
structure Waiter where
  crew : Nat
  pa : Nat
  va : DWord
  cc : SigCond
  val : DWord
  got : Option (Option DWord) := none
deriving DecidableEq, Repr

/-- What a service crew answers to a packet: the old values by lane, an uncorrectable word, and the completion time (spec/06 R118). -/
structure Reply where
  packet : Packet
  old : List (Nat × Nat)
  bad : Option DWord
  ct : Nat
deriving DecidableEq, Repr

/-- A service crew (spec/06 R116, R118): its queue, oldest first, its waiters, and the answers that wait for the end of their die's
relock (spec/18 R287). -/
structure Svc where
  queue : List Packet := []
  waiters : List Waiter := []
  replies : List Reply := []
deriving DecidableEq, Repr

/-- A load of an idempotent region whose addresses are not translated yet (spec/13 R228). -/
structure LoadReq where
  ty : MemTy
  acq : Bool
  sc : Scope
  fr : Bool
  home : Option (BitVec 2)
  dst : Operand
  addrs : List (Nat × DWord)
deriving DecidableEq, Repr

/-- An operation counted in L or S (spec/05 R113). `dsts` are the registers the interlock holds, `svc` the request
packets still out, `ct` the completion time to pass, `ack` whether another package has to answer it, `cut` whether one that no port
reached had to, `bytes` the
physical ranges at a service crew, `bad` an uncorrectable word met; `va` is the address of the data that another package holds,
and `fault` the machine check of an operation whose data is lost (spec/13 R239). -/
structure MemPend where
  id : Nat
  pc : DWord
  dsts : List Operand := []
  wide : Nat := 1
  writes : List RegWrite := []
  req : Option LoadReq := none
  acq : Bool := false
  region : Bool := false
  svc : Nat := 0
  ct : Option Nat := none
  ack : Bool := false
  cut : Bool := false
  done : Bool := false
  bad : Option DWord := none
  bytes : List (Nat × Nat) := []
  va : DWord := 0
  fault : Option Report := none
deriving DecidableEq, Repr

/-- A command of the amplitude engine, with its records captured at issue (spec/10 R185-R188). -/
inductive AmpCmd where
  | map (rec : BitVec 512)
  | read (ofs : Nat)
  | gate (k : Nat) (nr : Bool) (ofs : Nat) (rec : List Byte)
  | swap (q1 q2 : Nat)
  | norm (ofs : Nat) (mask : DWord)
deriving DecidableEq, Repr

/-- What an operation counted in C does; `issued` of an amplitude command is the tick of its issue, and once it is matched the
tick at which its engine last moved data (spec/24 R331); `empty` is one issued with no effective lane (spec/01 R12). -/
inductive CKind where
  | empty
  | copy (slot : Nat) (rec : BitVec 512) (disp : DWord) (dd : Bool) (ring : Option (Nat × Nat))
  | coll (slot : Nat) (rec : BitVec 512) (disp : DWord) (dd : Bool) (ext : BitVec 256) (nth : Nat) (issued : Nat)
  | sched (handle : Nat)
  | amp (slot : Nat) (cmd : AmpCmd) (nth : Nat) (issued : Nat) (matched : Bool) (dies : List Nat) (np : Nat)
deriving DecidableEq, Repr

/-- An operation counted in C. `applied` when its writes are made, `ct` the completion time that Meridian must pass then;
`rows` counts the units that a copy or a collective has moved, `todo` holds the amplitudes that a command has still to write, by their local
index, once it has read its slice (spec/24 R326), or what a schedule could not write yet, or the elements that a copy whose rows overlap
has still to move, whose source was `first` when it began; `buf` holds the bytes, by address, of destination words that an engine has
only in part (spec/05 R111), `why` says what its engine waits for and
`heldDie` the relocking die that holds it (spec/18 R287), `fault` is set when it has been abandoned, `order` is the place of an agent's copy
of accumulator bytes among the die's tile operations (spec/20 R303). -/
structure CPend where
  id : Nat
  pc : DWord
  kind : CKind
  ct : Option Nat := none
  rows : Nat := 0
  todo : Option (List (Nat × DWord)) := none
  first : List Byte := []
  buf : List (Nat × Byte) := []
  why : Option Wait := none
  heldDie : Nat := 4
  applied : Bool := false
  done : Bool := false
  fault : Option Report := none
  order : Nat := 0
deriving DecidableEq, Repr

/-- One lane of an octet instruction: x and the old y as read at issue (spec/22 R316). -/
structure OctetLane where
  lane : Nat
  x : List Word
  y : List Word
deriving DecidableEq, Repr

/-- A value that an armed operation counted as produced (spec/09 R177). -/
structure Produced where
  nan : Bool
  step : Nat
  lane : Nat
  j : Nat
deriving DecidableEq, Repr

/-- What an operation counted in T does, with the records captured at issue, and the slot of the one that
names memory (spec/09 R163). -/
inductive TKind where
  | empty
  | mma (a b : BitVec 512) (relief : Option DWord) (tile : Nat) (from_ : Nat)
  | zero (tile : Nat)
  | load (slot : Nat) (rec : BitVec 512) (disp : DWord) (tile : Nat)
  | add (tile src : Nat)
  | drain (slot : Nat) (rec : BitVec 512) (disp : DWord) (tile : Nat) (clr h : Bool)
  | drainl (slot : Nat) (rec mld : BitVec 512) (relief : DWord) (tile : Nat) (h : Bool)
  | octet (d : Nat) (base k n : Nat) (xf : XFmt) (wf : WFmt) (z : Bool) (relief : Option DWord)
      (lanes : List OctetLane) (waiting : List Nat) (out : List RegWrite) (prod : List Produced)
deriving DecidableEq, Repr

/-- An operation counted in T. A `fault` of one that is not done is a numeric trap that has stopped it. `checked` says that a
drain's first pass is over, `rows` which of its rows are written, `bits` holds what it has counted (spec/20 R304, R305,
R307); `why` says what its engine waits for, `heldDie` the relocking die that holds it. -/
structure TPend where
  id : Nat
  pc : DWord
  epc : DWord
  kind : TKind
  fmt : Word
  armed : Bool := false
  link : Option (Nat × Nat) := none
  ct : Option Nat := none
  checked : Bool := false
  rows : List Nat := []
  bits : List Nat := []
  why : Option Wait := none
  heldDie : Nat := 4
  applied : Bool := false
  done : Bool := false
  fault : Option Report := none
  order : Nat := 0
deriving DecidableEq, Repr

/-- The counters of Table 5-6. -/
inductive Cls where | l | s | c | t
deriving DecidableEq, Repr

/-- An entry of the reconvergence stack (spec/04 R84). -/
inductive StackEntry where
  | join (rpc : DWord) (mask : Mask) (dv : Bool) (fmt : Word)
  | pending (pc : DWord) (mask : Mask) (fmt : Word)
deriving DecidableEq, Repr

/-- A word of a register: whether it is a v register, its number and its lane (0 for an s register). -/
abbrev RegWord := Bool × Nat × Nat

/-- The words that an operation of class `cls` leaves unwritten because of uncorrectable data, and the machine check that is
due (spec/05 R115). -/
structure Poison where
  words : List RegWord
  cls : Cls
  id : Nat
  rep : Report
deriving DecidableEq, Repr

/-- A crew, or a privileged agent when it has no role. `holdUntil`, `readyAt`, `wonAt` and `stallAt` count core cycles
(spec/01 R17, R18, spec/15 R259); `stall` is why the instruction at PC has not issued yet; `yields` says that the run that
goes on holds a YL; `drawing` that a drawn ticket is on its way (spec/06 R127); `stuckSlots` are the ring slots that
abandoned copies left PEND (spec/08 R159); `heldDie` is the relocking die that a request of it waits for (spec/18 R287);
`restart` that a load which faulted while the crew was saved restarts its region (RG, spec/13 R240); `cut` that the stall of its
next instruction has ended its run (spec/15 R265). -/
structure Crew where
  role : Option Role := none
  party : Nat := 0
  idx : Nat := 0
  lanes : Nat := 32
  regc : Nat := 192
  rbase : Nat := 0
  pc : DWord := 0
  mask : Mask := 0
  live : Mask := 0
  stack : List StackEntry := []
  preds : Sparse 1024 := []
  vregs : Sparse 32 := []
  sregs : Sparse 32 := []
  fmt : Word := 0
  dix : BitVec 40 := 0
  wrapped : Bool := false
  ped : BitVec 512 := 0
  seed : DWord := 0
  task : Word := 0
  fault : Word := 0
  ct : Nat := 0
  epc : DWord := 0
  epcDix : BitVec 40 := 0
  inRegion : Bool := false
  runPos : Nat := 0
  ended : Bool := false
  halted : Bool := false
  report : Option Report := none
  ignoreTraps : Bool := false
  loads : List MemPend := []
  stores : List MemPend := []
  cops : List CPend := []
  tops : List TPend := []
  deferred : List (Cls × Report) := []
  poison : List Poison := []
  tlink : Option (Nat × Nat) := none
  ticket : Option DWord := none
  drawing : Bool := false
  stuckSlots : List (Nat × Nat) := []
  wait : Option Wait := none
  stall : Option Wait := none
  stallAt : Nat := 0
  heldDie : Nat := 4
  restart : Bool := false
  phase : Nat := 0
  aux : DWord := 0
  reply : Option DWord := none
  holdUntil : Nat := 0
  readyAt : Nat := 0
  wonAt : Nat := 0
  yields : Bool := false
  pipe : Nat := 0
  nextId : Nat := 0
  asleep : Bool := false
  cut : Bool := false
deriving DecidableEq, Repr

/-- A barrier object (spec/08 R157). -/
structure Barrier where
  expect : Nat
  pending : Nat
  phase : Bool
deriving DecidableEq, Repr

inductive SlotState where | free | held | pend | full | taken
deriving DecidableEq, Repr

/-- A slot of a stage ring: the full and empty phases and the state (spec/08 R158). -/
structure RingSlot where
  f : Bool := false
  e : Bool := false
  st : SlotState := .free
deriving DecidableEq, Repr

/-- A stage ring (spec/08 R158); `prodQ` and `consQ` hold the crews whose `.get` waits, in the order in which they
reached the ring. -/
structure Ring where
  slots : List RingSlot
  prod : Nat := 0
  pl : Bool := false
  cons : Nat := 0
  cl : Bool := false
  prodQ : List Nat := []
  consQ : List Nat := []
deriving DecidableEq, Repr

/-- A resident party (spec/15 R247) with its allotments (spec/05 Table 5-1), the accumulator tiles
that it holds, in the order of its own numbers, shape slots, barrier objects and rings;
`scratchBad` and `weightBad` are the bytes of its stores that hold an uncorrectable error (spec/05 R115), `preempted` says
that a pre-emption request stops it (spec/13 R240). -/
structure Party where
  task : Nat
  number : Nat := 0
  ctx : Nat := 0
  crews : List Nat := []
  scratchLen : Nat := 0
  scratch : Sparse 8 := []
  weightLen : Nat := 0
  weight : Sparse 8 := []
  scratchBad : List Nat := []
  weightBad : List Nat := []
  tiles : Nat := 0
  tileIds : List Nat := []
  acc : Sparse 64 := []
  shapes : Tbl (BitVec 512) := []
  bars : Tbl Barrier := []
  rings : Tbl Ring := []
  gen : Nat := 0
  arrived : List Nat := []
  arrivedPed : Option (BitVec 512) := none
  stopped : Bool := false
  preempted : Bool := false
deriving DecidableEq, Repr

inductive TaskStatus where | queued | waiting | resident | suspended | complete | failed
deriving DecidableEq, Repr

/-- A task (spec/08, spec/16). `decls` are the reducers in force, `views` the current view of each; `handlerOf` is the crew and the
report that a handler task serves, `faultedBy` the party whose fault ends the task, `pin` the core that
must host party 0 (spec/15 R256), `relCt` the completion time of the release at its end, `away` the parties that CTXSAVE
has taken from their cores (log 30). -/
structure Task where
  launch : Nat
  root : Word := 0
  ctx : Nat := 0
  parent : Option Nat := none
  shape : Nat := 0
  entry : DWord := 0
  ped : BitVec 512 := 0
  fmt : Word := 0
  seed : DWord := 0
  args : List Word := []
  arenaBase : DWord := 0
  arenaNext : DWord := 0
  arenaEnd : DWord := 0
  children : List Nat := []
  status : TaskStatus := .queued
  parties : List Nat := []
  die : Nat := 0
  saved : List (Party × List Crew) := []
  stolen : Bool := false
  triggered : Bool := false
  decls : Tbl Nat := []
  views : Tbl Nat := []
  gen : Nat := 0
  arrived : List Nat := []
  arrivedPed : Option (BitVec 512) := none
  handlerOf : Option (Nat × Report) := none
  faulted : Option Report := none
  faultedBy : Nat := 0
  joinFrom : Option Nat := none
  pin : Option Nat := none
  relCt : Option Nat := none
  away : Tbl (Party × List Crew) := []
deriving DecidableEq, Repr

inductive LaunchStatus where | waiting | running | complete
deriving DecidableEq, Repr

/-- An admitted launch (spec/15 R250-R262): its packet, its dies, the roots dealt and started; `started` counts the
roots of each core under DET, `back` holds roots that a retired die has returned (R254), `dep` is the value of the dependence word that
has satisfied it (R253). -/
structure Launch where
  ctx : Nat
  packet : BitVec 4096
  dies : Nat := 0
  det : Bool := false
  dep : Option DWord := none
  released : Bool := false
  gang : Bool := false
  gangStarted : Bool := false
  nextRoot : Nat := 0
  started : Tbl Nat := []
  back : List Nat := []
  finished : Nat := 0
  triggered : Nat := 0
  triggerSet : Bool := false
  faulted : Bool := false
  ran : List Nat := []
  relCt : Option Nat := none
  status : LaunchStatus := .waiting
deriving DecidableEq, Repr

/-- A reducer declaration (spec/08 R152). -/
structure Decl where
  task : Nat
  id : Nat
  kind : RedKind
  target : DWord
  count : Nat
deriving DecidableEq, Repr

/-- An element of a view: the LA320 record or the value, and the serial key of its contributor (spec/16 R274). -/
structure ViewElem where
  acc : BitVec 384
  val : BitVec 128
  key : Nat
deriving DecidableEq, Repr

/-- A reducer view in a core's view pool (spec/16 R272); `log` holds (serial key, record), sorted. -/
structure View where
  decl : Nat
  core : Nat
  elems : Tbl ViewElem := []
  log : List (Nat × BitVec 128) := []
  beyond : Bool := false
deriving DecidableEq, Repr

/-- A strand of the pedigree table: of a root task, or the launch strand L(k) (spec/16 R268). -/
inductive Strand where
  | task (root : Word) (ped : BitVec 512)
  | launch (k : Word)
deriving DecidableEq, Repr

/-- An entry of the pedigree table; `pin` is the task that pins it, and a launch strand is pinned by its launch. -/
structure PedEntry where
  launch : Nat
  strand : Strand
  owner : Option Nat := none
  pinned : Bool := true
deriving DecidableEq, Repr

/-- A translation held in a TLB (spec/13 R224, R225, Table 12-1). -/
structure TlbEntry where
  ctx : Nat
  vbase : Nat
  size : Nat
  r : Bool
  w : Bool
  x : Bool
  home : BitVec 3
  lc : BitVec 2
  rep : Bool
  pa : Nat
  hm : Bool := false
deriving DecidableEq, Repr

/-- A miss of a die: its walk runs, waits for a walker, or has failed (spec/13 R224). `crew` is the crew, or the engine of
a crew, that started it, `need` what its access needs; each of `cores` has a miss entry for it (R226). -/
structure Walk where
  ctx : Nat
  va : Nat
  crew : Nat
  core : Nat
  cores : List Nat := []
  need : Need := .read
  failed : Option (BitVec 8 × Bool) := none
deriving DecidableEq, Repr

/-- A line of another die in an L2 (spec/12 R205, R207): its home die, clean bytes with their expiry, dirty bytes with
their byte mask and the cores that wrote them. -/
structure L2Line where
  home : Nat := 0
  clean : Option (Nat × Line) := none
  dirtyMask : BitVec 128 := 0
  dirty : Line := 0
  writers : BitVec 16 := 0
deriving DecidableEq, Repr

/-- A frequency entry (M, C, F) of a die (spec/10 R190, spec/18 R286). -/
structure FreqEntry where
  mer : Nat
  clk : Nat
  freq : Nat
deriving DecidableEq, Repr

/-- A compute die with its base die. `capFrom` is the frequency that it had before the power manager lowered it (spec/27 R366). `lag` is how far its Meridian lies behind the package's: the spec bounds the skew of two dies by 2
ticks (spec/00 Table 0-1) and leaves it open within that; it is 0 from reset and no step changes it (DESIGN CHOICE, log 58). -/
structure Die where
  lag : Fin 3 := 0
  freqs : List FreqEntry := []
  relock : Option (Nat × Nat) := none
  lastRelock : Option Nat := none
  wantF : Option Nat := none
  capFrom : Option Nat := none
  l2 : Tbl L2Line := []
  replicas : Tbl Line := []
  tlb : List TlbEntry := []
  walks : List Walk := []
  waiting : Option Nat := none
  roots : List (Nat × Nat) := []
  rwait : Sparse 64 := []
  spareUsed : Bool := false
  tileOrder : Nat := 0
deriving DecidableEq, Repr

/-- A group of the octet path (spec/22 R318): its key, when it closes, and its requests (crew, operation, octet). -/
structure Group where
  party : Nat
  base : Nat
  k : Nat
  n : Nat
  wf : WFmt
  relief : Option (DWord × DWord)
  closes : Nat
  ready : Bool := false
  reqs : List (Nat × Nat × Nat)
deriving DecidableEq, Repr

/-- A Hypsometer slot: the base and 32 counters (spec/09 R171). -/
structure Hyps where
  base : Int := 0
  bins : Sparse 32 := []
deriving DecidableEq, Repr

/-- The wake sources of a privileged agent (spec/10 R195): what WAKESET armed, the sources that are pending, and when the
first armed one fired. -/
structure Alarm where
  armed : BitVec 9 := 0
  deadline : Nat := 0
  pending : BitVec 9 := 0
  fired : Nat := 0
deriving DecidableEq, Repr

/-- A core. `reports` is the queue of its firmware agent; `stallers` the crews whose translation faults stall it;
`hostAsk` the crew, or the engine of a crew, for which the agent has asked the host, and whether the host has declined; `handlers` the handler tasks
that wait for room; `hyps` the Hypsometer slots, 64 for each context; `fw` and `sc` are the alarms of the firmware agent and
of the service crew, `source` the first source since the core was gated: its code and its tick (spec/15 R263); `acc` holds the
elements of the accumulator tiles that no party holds (spec/20 R302). -/
structure Core where
  l1 : Tbl Line := []
  icache : Tbl Line := []
  tlb : List TlbEntry := []
  deque : List Nat := []
  spilled : List (List Nat) := []
  reports : List (Nat × Report) := []
  stallers : List Nat := []
  wake : Word := 0
  fw : Alarm := {}
  sc : Alarm := {}
  source : Option (Nat × Nat) := none
  gated : Bool := false
  stalls : Sparse 64 := []
  hyps : Tbl Hyps := []
  pipes : Tbl Nat := []
  groups : List Group := []
  replCT : Nat := 0
  rejected : List Nat := []
  reserved : Option (Nat × Nat) := none
  hostAsk : Option (Nat × Bool) := none
  handlers : List Nat := []
  retired : Bool := false
  acc : Sparse 64 := []
deriving DecidableEq, Repr

/-- A communicator (spec/26 R344) and how often each rank has issued a reduce on it; `dead` holds the reduces of each rank,
by number, whose match has timed out (spec/10 R183). -/
structure Comm where
  x : Nat
  y : Nat
  z : Nat
  tmo : Nat
  ranks : List (Nat × Nat)
  counts : Tbl Nat := []
  dead : List (Nat × Nat) := []
  broken : Bool := false
deriving DecidableEq, Repr

/-- An installed schedule image (spec/26 R346): its code, and the offset at which it is entered. -/
structure Schedule where
  entry : Nat
  code : List Byte
deriving DecidableEq, Repr

/-- A schedule handle (spec/10 R184): its number, CSTAT's STATE, cause and steps, the task that owns it, the crew that asked for it,
by its number in the task (`crew`) and by its place (`key`), and the argument block that the schedule receives in a0 (spec/26 R346). -/
structure Handle where
  num : DWord := 1
  task : Nat
  crew : Nat := 0
  key : Nat := 0
  ctx : Nat
  sched : Nat
  block : DWord := 0
  state : BitVec 3
  cause : BitVec 8 := 0
  steps : Nat := 0
deriving DecidableEq, Repr

/-- An amplitude state slot (spec/10 R185): the current map record, the issue-time record, the commands issued and
performed, and those, by number, that are over without having been performed. -/
structure AmpSlot where
  map : BitVec 512 := 0
  issueMap : BitVec 512 := 0
  issued : Nat := 0
  performed : Nat := 0
  dead : List Nat := []
deriving DecidableEq, Repr

/-- One quantity of a budget class (spec/15 R264). -/
structure Budget where
  limit : DWord := 0xFFFFFFFFFFFFFFFF
  next : Option DWord := none
  used : Nat := 0
  excess : Nat := 0
deriving DecidableEq, Repr

/-- A host region and a mirrored page of a context (spec/26 R356, R358). -/
structure Region where
  base : DWord
  len : DWord
  r : Bool
  w : Bool
  atomic : Bool
  key : Word
deriving DecidableEq, Repr

structure Mirror where
  page : DWord
  host : DWord
  key : Word
  qp : Nat
deriving DecidableEq, Repr

/-- What a host request does (spec/26 R356). -/
inductive HostOp where
  | write (data : List Byte)
  | read (n : Nat)
  | fetchAdd (x : DWord)
  | cmpSwap (cmp swap : DWord)
  | unsupported
deriving DecidableEq, Repr

structure HostReq where
  ctx : Nat
  key : Word
  va : DWord
  op : HostOp
deriving DecidableEq, Repr

/-- A queue pair (spec/26 R357): the requests not yet carried out, oldest first, the completion time of the last one, whether another
package has still to acknowledge it (R354), and whether the host has been asked for the page that the first lacks. -/
structure QueuePair where
  held : List HostReq := []
  ct : Nat := 0
  ackDue : Bool := false
  away : Bool := false
  asked : Bool := false
deriving DecidableEq, Repr

/-- A report on its way to the fault ring of a context that is not published yet (spec/13 R242): `entry` holds it, with its place,
while the home of its entry does not take it (spec/18 R287), then `ct` is the completion time of the entry; `lost` is a report for which the
ring had no room, still to be counted. -/
structure Post where
  ctx : Nat
  ct : Nat := 0
  entry : Option (Nat × Report) := none
  lost : Bool := false
deriving DecidableEq, Repr

/-- A mirrored write that has not left yet: the new value of a signal word, and the completion time of its change (spec/26
R358). -/
structure MirrorDue where
  qp : Nat
  host : DWord
  key : Word
  val : DWord
  ct : Nat
deriving DecidableEq, Repr

/-- What the package sends to the host, and through its UALink ports to other packages: the elements of a put from one on (spec/10
R182), and the amplitudes that leave, each with the local index at which it comes to lie (spec/24 R329). -/
inductive HostMsg where
  | ack (qp : Nat) (ct : Nat)
  | data (qp : Nat) (bytes : List Byte)
  | old (qp : Nat) (val : DWord)
  | nakAccess (qp : Nat)
  | nakInvalid (qp : Nat)
  | mirror (qp : Nat) (host : DWord) (key : Word) (val : DWord)
  | pageAsk (core : Nat) (ctx : Nat) (va : DWord)
  | fetchImage
  | put (pkg die ctx : Nat) (rec : BitVec 512) (disp : DWord) (dd : Bool) (sig : DWord) (first : Nat) (bytes : List Byte)
  | amps (pkg die ctx slot : Nat) (vals : List (Nat × DWord))
deriving DecidableEq, Repr

/-- The root of trust (spec/27 R362, R363); `writing` is the image that an update is writing over the slot, `fetching` says that the
loader has asked the host for an image and waits for it. -/
structure Firmware where
  image : Option Image := none
  writing : Option Image := none
  running : Option Image := none
  fusedMin : DWord := 0
  started : Bool := false
  lastFetch : Option Nat := none
  fetching : Bool := false
deriving DecidableEq, Repr

/-- The whole package. `agenda` holds the events that the outside decides to happen next, `pace` the Meridian ticks of
the next steps, `cur` the crew that issues next, `turn` the first crew whose turn
is still to come, `freeIx` counts the free values taken. -/
structure State where
  meridian : Nat
  pace : List Nat
  freeIx : Nat
  agenda : List Instr
  cur : Option Nat
  turn : Nat
  mem : Memory
  xmax : Tbl Nat
  bad : List Nat
  badWindow : List Nat
  dies : Tbl Die
  cores : Tbl Core
  crews : Tbl Crew
  parties : Tbl Party
  tasks : Tbl Task
  nextTask : Nat
  launches : Tbl Launch
  nextLaunch : Nat
  decls : Tbl Decl
  nextDecl : Nat
  views : Tbl View
  nextView : Nat
  pedTable : Tbl PedEntry
  nextPed : Nat
  records : Tbl (Nat × Word)
  svcs : Tbl Svc
  claims : Tbl DWord
  comms : Tbl Comm
  scheds : Tbl Schedule
  handles : Tbl Handle
  amps : Tbl AmpSlot
  budgets : Tbl Budget
  heldClasses : List Nat
  period : Nat
  ctxTable : Nat
  ctxLive : Tbl (BitVec 512)
  regions : Tbl Region
  mirrors : Tbl Mirror
  mirrorsDue : List MirrorDue
  qps : Tbl QueuePair
  outbox : List HostMsg
  posts : List Post
  ready : BitVec 128
  retiredBits : BitVec 128
  firmware : Firmware
  telemetry : Sparse 64
  elog : List (Nat × Nat)
  powerOver : Bool
  powerSince : Nat
  pkgId : Nat
  domain : List Nat
  retraining : List Nat
  portsDown : BitVec 16
deriving DecidableEq, Repr

/-- The package as it leaves reset: Meridian zero (spec/18 R283), no crew resident, no function ready (spec/27 R360),
every limit unlimited (spec/15 R264), every table empty. Registers of agents, memory, the package id and the place of
the context table have no reset value in the spec: zero (DESIGN CHOICE, log 1). -/
def State.reset : State where
  meridian := 0
  pace := []
  freeIx := 0
  agenda := []
  cur := none
  turn := 0
  mem := []
  xmax := []
  bad := []
  badWindow := []
  dies := []
  cores := []
  crews := []
  parties := []
  tasks := []
  nextTask := 0
  launches := []
  nextLaunch := 0
  decls := []
  nextDecl := 0
  views := []
  nextView := 0
  pedTable := []
  nextPed := 0
  records := []
  svcs := []
  claims := []
  comms := []
  scheds := []
  handles := []
  amps := []
  budgets := []
  heldClasses := []
  period := 0
  ctxTable := 0
  ctxLive := []
  regions := []
  mirrors := []
  mirrorsDue := []
  qps := []
  outbox := []
  posts := []
  ready := 0
  retiredBits := 0
  firmware := {}
  telemetry := []
  elog := []
  powerOver := false
  powerSince := 0
  pkgId := 0
  domain := [0]
  retraining := []
  portsDown := 0

end Sys2Proof.Machine
end

