-- ==== Sys2Proof/Machine/Uses.lean ====
section
/-! DEFINITION. What each instruction does with its operand fields (spec/01 R13-R15), who may issue it (spec/01 R20,
R21), and its guard and hints. The decoder's operand checks, the %REGC check and the interlock all read these lists. -/
namespace Sys2Proof

/-- One use of an operand field. `n` is the number of 32-bit registers the operand spans (1, 2 or 4, or a register
range for the octet instructions). -/
inductive Use where
  | dst (o : Operand) (n : Nat) (uniform : Bool)   -- v register, or s register when the result is uniform
  | dstS (o : Operand) (n : Nat)                   -- s register only
  | dstAny (o : Operand) (n : Nat) (uniform : Bool) -- as dst, or a predicate (a write of p7 is ignored)
  | dstP (o : Operand)                             -- predicate p0 to p6
  | src (o : Operand) (n : Nat)                    -- every class
  | reg (o : Operand) (n : Nat)                    -- every class but an immediate
  | vs (o : Operand) (n : Nat)                     -- v or s register
  | uni (o : Operand) (n : Nat)                    -- uniform: s register, immediate, uniform special
  | uniRI (o : Operand) (n : Nat)                  -- uniform register s, or an immediate
  | uniReg (o : Operand) (n : Nat)                 -- uniform, no immediate
  | sreg (o : Operand) (n : Nat)                   -- s register
  | pred (o : Operand)                             -- predicate
  | special (o : Operand)                          -- a readable special register other than %PED
  | vrange (o : Operand) (n : Nat)                 -- n consecutive v registers, no pair rule
  | vdst (o : Operand) (n : Nat)                   -- v register destination
deriving DecidableEq, Repr

/-- The uniform operands of R15: s registers, immediates, every special but %LANE, and p7. -/
def Operand.uniform : Operand → Bool
  | .s _ => true
  | .imm _ => true
  | .sp x => x ≠ .lane
  | .p i => i = 7
  | .v _ => false

/-- The 64-bit specials of Table 1-3. -/
def Special.wide : Special → Bool
  | .peddig | .dix | .seed | .clk | .mer => true
  | _ => false

def Operand.isV : Operand → Bool | .v _ => true | _ => false
def Operand.isS : Operand → Bool | .s _ => true | _ => false
def Operand.isP : Operand → Bool | .p _ => true | _ => false
def Operand.isImm : Operand → Bool | .imm _ => true | _ => false

/-- A special register may stand in a source operand: not %PED, and a 64-bit one only in a 64-bit operand (R14). -/
def Operand.specialOk (n : Nat) : Operand → Bool
  | .sp x => x ≠ .ped && (!x.wide || n = 2) && n ≤ 2
  | _ => true

/-- Cause 0x05 of Table 1-7 for one use: false means that the class or register is not accepted. -/
def Use.classOk : Use → Bool
  | .dst o _ u => o.isV || (o.isS && u)
  | .dstS o _ => o.isS
  | .dstAny o _ u => o.isV || (o.isS && u) || o.isP
  | .dstP o => match o with | .p i => i ≠ 7 | _ => false
  | .src o n => o.specialOk n && (n ≤ 2 || o.isV || o.isS)
  | .reg o n => !o.isImm && o.specialOk n
  | .vs o _ => o.isV || o.isS
  | .uni o n => o.uniform && o.specialOk n
  | .uniRI o _ => o.isS || o.isImm
  | .uniReg o n => o.uniform && !o.isImm && o.specialOk n
  | .sreg o _ => o.isS
  | .pred o => o.isP
  | .special o => match o with | .sp x => x ≠ .ped | _ => false
  | .vrange o _ => o.isV
  | .vdst o _ => o.isV

/-- The operand and the width in registers of a use. -/
def Use.operand : Use → Operand × Nat
  | .dst o n _ | .dstAny o n _ => (o, n)
  | .dstS o n | .src o n | .reg o n | .vs o n | .uni o n | .uniRI o n | .uniReg o n | .sreg o n | .vrange o n | .vdst o n => (o, n)
  | .dstP o | .pred o | .special o => (o, 1)

/-- Cause 0x06: the odd register of a pair, or an odd first register of a 128-bit type (spec/01 R15, spec/05 R96). -/
def Use.pairOk (u : Use) : Bool :=
  match u with
  | .vrange _ _ => true
  | _ => match u.operand with
    | (.v i, n) => n = 1 || i.toNat % 2 = 0
    | (.s i, n) => n = 1 || i.toNat % 2 = 0
    | _ => true

/-- Cause 0x02 for a register range: the last register lies in its file (spec/05 R96, spec/09 R175; for an s register log 51). -/
def Use.rangeOk (u : Use) : Bool :=
  match u.operand with
  | (.v i, n) => i.toNat < 192 && (n ≤ 2 || i.toNat + n ≤ 192)
  | (.s i, n) => n ≤ 2 || i.toNat + n ≤ 64
  | _ => true

/-- Cause 0x07: every v register of the use lies below the crew's %REGC (spec/01 R13, Table 1-7). -/
def Use.regcOk (regc : Nat) (u : Use) : Bool :=
  match u.operand with
  | (.v i, n) => i.toNat + n ≤ regc
  | _ => true

/-- Registers that a pair, or one register, takes for a width flag. -/
def wide (sz : Bool) : Nat := if sz then 2 else 1

def MemTy.regs : MemTy → Nat | .b64 => 2 | .b128 => 4 | _ => 1
def StTy.regs : StTy → Nat | .b64 => 2 | .b128 => 4 | _ => 1
def IntTy.regs : IntTy → Nat | .s64 | .z64 => 2 | _ => 1
def RngOut.regs : RngOut → Nat | .u64 => 2 | .u128 => 4 | _ => 1
/-- Elements of x in one register (spec/09 R175). -/
def XFmt.perReg : XFmt → Nat | .f32 => 1 | .f16 | .bf16 => 2 | .e4m3 | .e5m2 => 4
def Comb.uses : Comb → List Use | .none => [] | .and e | .or e | .xor e => [.pred e]
def AtomOp.uses (n : Nat) : AtomOp → List Use | .cas e => [.reg e n] | _ => []
def AtomOp.uniform : AtomOp → Bool | .cas e => e.uniform | _ => true

/-- B of a store: an immediate only for `.b32`, `.u8` and `.u16` (spec/05 R97), registers only for `.b128` (R96). -/
def storeUse (b : Operand) (ty : StTy) : Use :=
  match ty with | .b64 => .reg b 2 | .b128 => .vs b 4 | _ => .src b 1

/-- First x registers of an octet instruction (spec/09 R175). -/
def octetRegs (k : BitVec 6) (xf : XFmt) : Nat := (k.toNat + 1 + xf.perReg - 1) / xf.perReg

/-- The operand uses of every instruction; an event has none. Where a rule names the class of an operand (a uniform
register, a register pair), only that class is accepted; where it gives the width alone, every class that carries the
width is, but for an immediate, which stands only where R63 or the instruction's rule lets one (log 51). D of `rdsp.wrap` is one
register, and B of FCLASS is of every class of R132 (log 51). SPAWN and SPAWNR also read s48-s63, which the child receives (spec/08 Table
8-1); FWCALL and its services read s0-s7 and write their results there (spec/10 R194). D of CSTART and of CSTAT may be a v register: R15
lets the result of uniform sources go to one, and R180 is read as naming the sources (DEDUCED, log 51). -/
def Instr.uses : Instr → List Use
  | .iadd _ d a b sz | .isub _ d a b sz | .and _ d a b sz | .or _ d a b sz | .xor _ d a b sz | .andn _ d a b sz
  | .orn _ d a b sz | .shl _ d a b sz | .shr _ d a b sz | .sar _ d a b sz | .rotl _ d a b sz | .clmul _ d a b sz
  | .clmulh _ d a b sz =>
    [.dst d (wide sz) (a.uniform && b.uniform), .src a (wide sz), .src b (wide sz)]
  | .iaddsat _ d a b sz _ | .isubsat _ d a b sz _ | .imin _ d a b sz _ | .imax _ d a b sz _ | .imul _ d a b sz _
  | .imulhi _ d a b sz _ | .idiv _ d a b sz _ | .irem _ d a b sz _ =>
    [.dst d (wide sz) (a.uniform && b.uniform), .src a (wide sz), .src b (wide sz)]
  | .iadd3 _ d a b e sz | .imad _ d a b e sz _ | .shf _ d a b e sz _ =>
    [.dst d (wide sz) (a.uniform && b.uniform && e.uniform), .src a (wide sz), .src b (wide sz), .reg e (wide sz)]
  | .imadw _ d a b e _ => [.dst d 2 (a.uniform && b.uniform && e.uniform), .src a 1, .src b 1, .reg e 2]
  | .ineg _ d a sz | .iabs _ d a sz | .not _ d a sz | .popc _ d a sz | .clz _ d a sz | .ctz _ d a sz | .brev _ d a sz =>
    [.dst d (wide sz) a.uniform, .src a (wide sz)]
  | .bfx _ d a (.reg e) sz _ => [.dst d (wide sz) (a.uniform && e.uniform), .src a (wide sz), .vs e (wide sz)]
  | .bfx _ d a (.imm _ _) sz _ => [.dst d (wide sz) a.uniform, .src a (wide sz)]
  | .bfi _ d a b (.reg e) sz =>
    [.dst d (wide sz) (a.uniform && b.uniform && e.uniform), .src a (wide sz), .src b (wide sz), .vs e (wide sz)]
  | .bfi _ d a b (.imm _ _) sz => [.dst d (wide sz) (a.uniform && b.uniform), .src a (wide sz), .src b (wide sz)]
  | .prmt _ d a b (.reg e) => [.dst d 1 (a.uniform && b.uniform && e.uniform), .reg a 1, .reg b 1, .reg e 1]
  | .prmt _ d a b (.imm _) => [.dst d 1 (a.uniform && b.uniform), .reg a 1, .reg b 1]
  | .icmp _ d a b _ cb sz _ => [.dstP d, .src a (wide sz), .src b (wide sz)] ++ cb.uses
  | .pand _ d a b | .por _ d a b | .pxor _ d a b => [.dstP d, .pred a, .pred b]
  | .pnot _ d a => [.dstP d, .pred a]
  | .sel _ d a b e sz =>
    [.dst d (wide sz) (a.uniform && b.uniform && e.uniform), .src a (wide sz), .src b (wide sz), .pred e]
  | .vote _ d a (.ballot b) => [.dst d 1 true, .pred a, .uni b 1]
  | .vote _ d a _ => [.dstAny d 1 true, .pred a]
  | .bcast _ d a b sz => [.dst d (wide sz) true, .reg a (wide sz), .uni b (wide sz)]
  | .shfl _ d a b _ _ sz => [.dst d (wide sz) (a.uniform && b.uniform), .reg a (wide sz), .src b (wide sz)]
  | .redux _ d a _ sz _ => [.dst d (wide sz) true, .src a (wide sz)]
  | .mov _ d a sz => [.dstAny d (wide sz) a.uniform, .src a (wide sz)]
  | .movi _ d _ => [.dst d 1 true]
  | .lea _ d a b _ _ _ => [.dst d 2 (a.uniform && b.uniform), .vs a 2, .src b 1]
  | .i2i _ d a dst src _ => [.dst d dst.regs a.uniform, .reg a src.regs]
  | .rdsp _ d a w =>
    match a with
    | .sp x => [.dst d (if x.wide && !w then 2 else 1) (x ≠ .lane), .special a]
    | _ => [.dst d 1 true, .special a]
  | .wrsp _ a _ => [.uniRI a 2]
  | .brx _ a | .ret _ a => [.vs a 2]
  | .call _ d _ => [.dst d 2 true]
  | .ld _ d a _ ty _ _ _ _ _ => [.dst d ty.regs a.isS, .vs a 2]
  | .st _ a b _ ty _ _ => [.vs a 2, storeUse b ty]
  | .pref _ a _ _ | .cflush _ a _ _ _ => [.vs a 2]
  | .lds _ d a _ ty _ | .ldw _ d a _ ty => [.dst d ty.regs a.isS, .vs a 1]
  | .sts _ a b _ ty _ => [.vs a 1, storeUse b ty]
  | .ldr _ d a _ => [.dst d 1 a.isS, .vs a 1]
  | .str _ a b _ => [.vs a 1, .src b 1]
  | .tshape _ a b => [.uniRI a 1, .uniRI b 1]
  | .tcopy _ a b none _ => [.uniRI a 1, .uniRI b 2]
  | .tcopy _ a b (some e) _ => [.uniRI a 1, .uniRI b 2, .sreg e 1]
  | .atom _ d a b op _ _ sz _ =>
    [.dst d (wide sz) (a.uniform && b.uniform && op.uniform), .vs a 2, .src b (wide sz)] ++ op.uses (wide sz)
  | .atoms _ d a b op _ sz _ =>
    [.dst d (wide sz) (a.uniform && b.uniform && op.uniform), .vs a 1, .src b (wide sz)] ++ op.uses (wide sz)
  | .red _ a b _ _ _ sz _ => [.vs a 2, .src b (wide sz)]
  | .fred _ a b _ _ _ _ _ _ _ => [.vs a 2, .reg b 1]
  | .sigset _ a b _ => [.sreg a 2, .uniRI b 2]
  | .sigadd _ none a b _ => [.sreg a 2, .uniRI b 2]
  | .sigadd _ (some d) a b _ => [.dstS d 2, .sreg a 2, .uniRI b 2]
  | .sigwait _ d a b _ _ => [.dstS d 2, .sreg a 2, .uniRI b 2]
  | .ticket _ d a none _ => [.dstS d 2, .sreg a 2]
  | .ticket _ d a (some b) _ => [.dstS d 2, .sreg a 2, .uniRI b 2]
  | .tkserve _ a _ => [.sreg a 2]
  | .fadd _ d a b _ | .fsub _ d a b _ | .fmul _ d a b _ => [.dst d 1 (a.uniform && b.uniform), .src a 1, .src b 1]
  | .fmin _ d a b | .fmax _ d a b => [.dst d 1 (a.uniform && b.uniform), .src a 1, .src b 1]
  | .ffma _ d a b e _ => [.dst d 1 (a.uniform && b.uniform && e.uniform), .src a 1, .src b 1, .reg e 1]
  | .fcmp _ d a b _ cb => [.dstP d, .src a 1, .src b 1] ++ cb.uses
  | .fclass _ d a b =>
    match d with
    | .p _ => [.dstP d, .src a 1, .src b 1]
    | _ => [.dst d 1 a.uniform, .src a 1]
  | .frcp _ d a | .frsq _ d a | .fsqrt _ d a | .fex2 _ d a | .flg2 _ d a | .fsin _ d a | .fcos _ d a =>
    [.dst d 1 a.uniform, .src a 1]
  | .hadd2 _ d a b _ _ | .hmul2 _ d a b _ _ => [.dst d 1 (a.uniform && b.uniform), .reg a 1, .reg b 1]
  | .hfma2 _ d a b e _ _ | .dot4 _ d a b e _ _ =>
    [.dst d 1 (a.uniform && b.uniform && e.uniform), .reg a 1, .reg b 1, .reg e 1]
  | .cvt _ d a none _ sf _ _ =>
    [.dst d 1 a.uniform, if sf = .f32 ∨ sf = .s32 then .src a 1 else .reg a 1]
  | .cvt _ d a (some b) _ sf _ _ =>
    [.dst d 1 (a.uniform && b.uniform), if sf = .f32 ∨ sf = .s32 then .src a 1 else .reg a 1,
      if sf = .f32 ∨ sf = .s32 then .src b 1 else .reg b 1]
  | .fmtget _ d => [.dst d 1 true]
  | .rngu _ d out => [.vdst d out.regs]
  | .rngn _ d => [.vdst d 1]
  | .spawn _ b _ _ => [.uniRI b 1, .sreg (.s 48) 16]
  | .spawnr _ a b _ => [.sreg a 2, .uniRI b 1, .sreg (.s 48) 16]
  | .pedget _ d b => [.dst d 1 true, .uni b 1]
  | .pedcmp _ d a b => [.dst d 1 true, if a = .sp .ped then .uni (.imm 0) 1 else .sreg a 1, .uni b 1]
  | .vdecl _ a b e _ => [.uni a 1, .sreg b 2, .uniReg e 1]
  | .vptr _ d a => [.dstS d 2, .uni a 1]
  | .alloc _ d a => [.dstS d 2, .uniRI a 1]
  | .vfin _ a _ => [.uni a 1]
  | .arriveInit _ a b | .await _ a b | .ringputPub _ a b | .ringputInit _ a b | .ringgetRel _ a b => [.uni a 1, .uni b 1]
  | .arrive _ d a b => [if d = .v 0 then .uni (.imm 0) 1 else .dstS d 1, .uni a 1, .uni b 1]
  | .ringputGet _ d a | .ringgetGet _ d a => [.dstS d 1, .uni a 1]
  | .tmma _ a b _ | .tmmag _ a b _ | .tlink _ a b => [.uniRI a 1, .uniRI b 1]
  | .histclr _ a b => [.uniRI a 1, .uni b 1]
  | .tmmae _ a b e _ | .tdrainl _ a b e _ _ => [.uniRI a 1, .uniRI b 1, .sreg e 2]
  | .tload _ a b _ | .tdrain _ a b _ _ _ => [.uniRI a 1, .uniRI b 2]
  | .ommv _ d a b k n xf _ _ => [.vrange d (n.toNat + 1), .vrange a (octetRegs k xf), .uni b 1]
  | .ommve _ d a b e k n xf _ _ => [.vrange d (n.toNat + 1), .vrange a (octetRegs k xf), .uni b 1, .sreg e 2]
  | .histrd _ d a b => [.dst d 1 true, .uniRI a 1, .uni b 1]
  | .tcopyx _ a b e _ => [.uni a 1, .uni b 2, .uniReg e 1]
  | .cstart _ d a b => [.dst d 2 true, .uni a 1, .uni b 2]
  | .cstat _ d a => [.dst d 1 true, .uni a 2]
  | .agate _ a b _ _ | .amap _ a b | .amapRd _ a b | .aswap _ a b _ | .anorm _ a b => [.uni a 1, .uni b 1]
  | .rdmer _ d _ | .rdclk _ d _ => [.dst d 2 true]
  | .clk2mer _ d a => [.dst d 2 a.uniform, .vs a 2]
  | .ctxsave _ d a b | .ctxload _ d a b | .tlbinv _ d a b _ _ | .fret _ d a b _ | .budset _ d a b _ | .wakeset _ d a b =>
    [.dstS d 1, .uni a 1, .uni b 2]
  | .sigraise _ d a b e _ => [.dstS d 1, .uni a 2, .uni b 2, .uniReg e 1]
  | .sleep _ d => [.dstS d 1]
  | .fwcall .. | .commset .. | .commclr .. | .schedset .. | .schedclr .. | .telrd .. | .fstep .. | .repinv .. | .attest .. =>
    [.sreg (.s 0) 8]
  | _ => []

/-- Who may issue an instruction: the Roles column of Table 1-6 and R21 for the privileged agents. -/
structure Roles where
  copy : Bool
  tile : Bool
  vec : Bool
  priv : Bool
deriving DecidableEq, Repr

def Roles.all : Roles := ⟨true, true, true, true⟩
def Roles.user : Roles := ⟨true, true, true, false⟩
def Roles.vecPriv : Roles := ⟨false, false, true, true⟩
def Roles.copyPriv : Roles := ⟨true, false, false, true⟩
def Roles.copyOnly : Roles := ⟨true, false, false, false⟩
def Roles.tileOnly : Roles := ⟨false, true, false, false⟩
def Roles.vecOnly : Roles := ⟨false, false, true, false⟩
def Roles.tileVec : Roles := ⟨false, true, true, false⟩
def Roles.privOnly : Roles := ⟨false, false, false, true⟩

/-- The roles of Table 1-6; the rejected word and the events have none to check. -/
def Instr.roles : Instr → Roles
  | .ld .. | .st .. | .pref .. | .lds .. | .sts .. | .ldr .. | .str .. | .ldw .. | .cflush .. => .vecPriv
  | .tshape .. | .tcopy .. => .copyPriv
  | .atom .. | .atoms .. | .red .. | .fred .. => .vecPriv
  | .fadd .. | .fsub .. | .fmul .. | .ffma .. | .fmin .. | .fmax .. | .fcmp .. | .fclass .. | .frcp .. | .frsq ..
  | .fsqrt .. | .fex2 .. | .flg2 .. | .fsin .. | .fcos .. | .hadd2 .. | .hmul2 .. | .hfma2 .. | .dot4 .. | .cvt ..
  | .rngu .. | .rngn .. => .vecPriv
  | .spawn .. | .spawnr .. | .join .. | .pedget .. | .pedcmp .. | .vdecl .. | .vptr .. | .vfin .. | .alloc .. | .barp ..
  | .barc .. | .arriveInit .. | .arrive .. | .await .. | .ringputGet .. | .ringputPub .. | .ringputInit ..
  | .ringgetGet .. | .ringgetRel .. | .trigger .. => .user
  | .tmma .. | .tmmae .. | .tmmag .. | .tzero .. | .tload .. | .tadd .. | .tlink .. | .tdrain .. | .tdrainl .. => .tileOnly
  | .ommv .. | .ommve .. => .vecOnly
  | .histrd .. | .histclr .. => .tileVec
  | .tcopyx .. | .cstart .. | .cstat .. | .agate .. | .amap .. | .amapRd .. | .aswap .. | .anorm .. => .copyOnly
  | .ctxsave .. | .ctxload .. | .tlbinv .. | .fret .. | .fwcall .. | .sigraise .. | .budset .. | .wakeset .. | .sleep ..
  | .commset .. | .commclr .. | .schedset .. | .schedclr .. | .telrd .. | .fstep .. | .repinv .. | .attest .. => .privOnly
  | _ => .all

end Sys2Proof
end

