-- ==== Sys2Proof/WellFormed.lean ====
section
/-! DEFINITION. Well-formed instructions: the operand and modifier conditions that a word must meet to be an instruction
(spec/01 R12-R16, R23 and each family's own rules). An event is always well-formed. -/
namespace Sys2Proof

/-- The guard and hints of an instruction word; an event has none. -/
def Instr.ctl? : Instr → Option Ctl
  | .iadd f .. | .isub f .. | .iadd3 f .. | .iaddsat f .. | .isubsat f .. | .ineg f .. | .iabs f .. | .imin f ..
  | .imax f .. | .imul f .. | .imulhi f .. | .imad f .. | .imadw f .. | .idiv f .. | .irem f .. | .and f .. | .or f ..
  | .xor f .. | .andn f .. | .orn f .. | .not f .. | .shl f .. | .shr f .. | .sar f .. | .rotl f .. | .shf f ..
  | .bfx f .. | .bfi f .. | .popc f .. | .clz f .. | .ctz f .. | .brev f .. | .prmt f .. | .clmul f .. | .clmulh f ..
  | .icmp f .. | .pand f .. | .por f .. | .pxor f .. | .pnot f .. | .sel f .. | .vote f .. | .bcast f .. | .shfl f ..
  | .redux f .. | .mov f .. | .movi f .. | .lea f .. | .i2i f .. | .rdsp f .. | .wrsp f .. | .bra f .. | .brx f ..
  | .call f .. | .ret f .. | .exit f | .reconv f .. | .brk f .. | .cont f .. | .yield f | .nop f | .trap f ..
  | .ld f .. | .st f .. | .pref f .. | .lds f .. | .sts f .. | .ldr f .. | .str f .. | .ldw f .. | .fence f ..
  | .iinv f .. | .cflush f .. | .waitc f .. | .tshape f .. | .tcopy f .. | .atom f .. | .atoms f .. | .red f ..
  | .fred f .. | .sigset f .. | .sigadd f .. | .sigwait f .. | .ticket f .. | .tkserve f .. | .fadd f .. | .fsub f ..
  | .fmul f .. | .ffma f .. | .fmin f .. | .fmax f .. | .fcmp f .. | .fclass f .. | .frcp f .. | .frsq f .. | .fsqrt f ..
  | .fex2 f .. | .flg2 f .. | .fsin f .. | .fcos f .. | .hadd2 f .. | .hmul2 f .. | .hfma2 f .. | .dot4 f .. | .cvt f ..
  | .fmtset f .. | .fmtget f .. | .rngu f .. | .rngn f .. | .spawn f .. | .spawnr f .. | .join f | .pedget f ..
  | .pedcmp f .. | .vdecl f .. | .vptr f .. | .vfin f .. | .alloc f .. | .barp f | .barc f .. | .arriveInit f ..
  | .arrive f .. | .await f .. | .ringputGet f .. | .ringputPub f .. | .ringputInit f .. | .ringgetGet f ..
  | .ringgetRel f .. | .trigger f | .tmma f .. | .tmmae f .. | .tmmag f .. | .tzero f .. | .tload f .. | .tadd f ..
  | .tlink f .. | .tdrain f .. | .tdrainl f .. | .ommv f .. | .ommve f .. | .histrd f .. | .histclr f .. | .tcopyx f ..
  | .cstart f .. | .cstat f .. | .agate f .. | .amap f .. | .amapRd f .. | .aswap f .. | .anorm f .. | .rdmer f ..
  | .rdclk f .. | .clk2mer f .. | .ctxsave f .. | .ctxload f .. | .tlbinv f .. | .fret f .. | .fwcall f ..
  | .sigraise f .. | .budset f .. | .wakeset f .. | .sleep f .. | .commset f | .commclr f | .schedset f | .schedclr f
  | .telrd f | .fstep f | .repinv f | .attest f => some f
  | _ => none

/-- The pair GP = 7, GN = 1 is reserved (spec/01 R12). -/
def Ctl.guardOk (f : Ctl) : Bool := !(f.gp = 7 && f.gn)

/-- The FWCALL service numbers that have a constructor of their own (spec/26 Table 26-2, spec/27 Table 27-4). -/
def serviceNumbers : List Word := [0x10, 0x11, 0x12, 0x13, 0x20, 0x21, 0x22, 0x23]

/-- The modifier and immediate conditions that the types of the constructors leave open: LEN at most 64 (spec/04 R67),
scope without acquire (spec/05 R97), RO of an integer DOT4 (spec/07 R138), format pairs, SEL and PK of CVT (spec/07
R139), an FMTSET immediate (spec/03 R47), `.wrap` only on %DIX (spec/04 R81), the unused B of FCLASS (spec/07 R135),
an MLD weight for OMMVE (spec/09 R175), and a FWCALL number without a constructor of its own. -/
def Instr.modOk : Instr → Bool
  | .bfx _ _ _ (.imm _ len) _ _ => len.toNat ≤ 64
  | .bfi _ _ _ _ (.imm _ len) _ => len.toNat ≤ 64
  | .ld _ _ _ _ _ acq sc _ _ _ => acq || sc = .die
  | .dot4 _ _ _ _ _ et ro => (et = .e4m3 || et = .e5m2) || ro = .fmt
  | .cvt _ _ _ pk dt sf ro sl =>
    let isInt (t : CvtTy) : Bool := t = .s8 || t = .s32
    !(isInt dt && isInt sf) && !(isInt dt && ro = .rs) && (pk.isNone || dt = .f16 || dt = .bf16) &&
      (match sf with
        | .f32 | .s32 => sl = 0
        | .f16 | .bf16 => sl.toNat ≤ 1
        | _ => true)
  | .fmtset _ imm =>
    imm.toNat < 2 ^ 21 && (imm.extractLsb' 0 4).toNat < 12 && (imm.extractLsb' 4 4).toNat < 12 &&
      (imm.extractLsb' 8 4).toNat < 12 && (imm.extractLsb' 12 3).toNat < 5
  | .rdsp _ _ a w => !w || a = .sp .dix
  | .fclass _ d _ b => d.isP || b = .v 0
  | .ommve _ _ _ _ _ _ _ _ wf _ => wf = .mldb || wf = .mlde
  | .fwcall _ imm => !(serviceNumbers.contains imm)
  | _ => true

/-- A well-formed instruction: a legal guard, legal modifiers, and every operand in range, of an accepted class, and
even where it names a pair. -/
abbrev Instr.WellFormed (i : Instr) : Prop :=
  ((i.ctl?.all Ctl.guardOk) && i.modOk && i.uses.all fun u => u.rangeOk && u.classOk && u.pairOk) = true

end Sys2Proof
end

