-- ==== Sys2Proof/Machine/Ops.lean ====
section
/-! DEFINITION. The named operations over the state: tables, memory and its caches, translation, registers, time, the
fault report and the return from it, and the frame in which every instruction issues. -/
namespace Sys2Proof.Machine

/-! ## Tables -/

def Tbl.get? (t : Tbl α) (k : Nat) : Option α := t.lookup k

/-- Sets the entry of a number, keeping the rising order. -/
def Tbl.set : Tbl α → Nat → α → Tbl α
  | [], k, v => [(k, v)]
  | (k', v') :: t, k, v =>
    if k = k' then (k, v) :: t
    else if k < k' then (k, v) :: (k', v') :: t
    else (k', v') :: Tbl.set t k v

def Tbl.del (t : Tbl α) (k : Nat) : Tbl α := t.filter fun x => x.1 != k

def Sparse.get (t : Sparse w) (k : Nat) : BitVec w := (t.lookup k).getD 0

/-- Puts an entry before the first one of a higher number. -/
def Sparse.put : Sparse w → Nat → BitVec w → Sparse w
  | [], k, v => [(k, v)]
  | (k', v') :: t, k, v => if k < k' then (k, v) :: (k', v') :: t else (k', v') :: Sparse.put t k v

/-- Sets a value, keeping the rising order and no zero entry. -/
def Sparse.set (t : Sparse w) (k : Nat) (v : BitVec w) : Sparse w :=
  let t := t.filter fun x => x.1 != k
  if v = 0 then t else Sparse.put t k v

/-- The canonical form: every number above `lo`, strictly rising, no zero entry. -/
def Sparse.wfFrom (lo : Nat) : Sparse w → Bool
  | [] => true
  | (k, v) :: t => lo ≤ k && v != 0 && Sparse.wfFrom (k + 1) t

def Sparse.wf (t : Sparse w) : Bool := Sparse.wfFrom 0 t

/-- The canonical form of memory. -/
def Memory.wf (m : Memory) : Bool := Sparse.wf (w := 8) m
/-- The byte of memory at a physical address. -/
def Memory.read (m : Memory) (a : Nat) : Byte := Sparse.get (w := 8) m a
def Memory.write (m : Memory) (a : Nat) (b : Byte) : Memory := Sparse.set (w := 8) m a b
def Memory.writeBytes (m : Memory) (a : Nat) : List Byte → Memory
  | [] => m
  | b :: bs => Memory.writeBytes (Memory.write m a b) (a + 1) bs
def Memory.readBytes (m : Memory) (a : Nat) : Nat → List Byte
  | 0 => []
  | n + 1 => Memory.read m a :: Memory.readBytes m (a + 1) n

/-- The first `n` numbers from `a`. -/
def upto (a : Nat) : Nat → List Nat
  | 0 => []
  | n + 1 => a :: upto (a + 1) n

/-! ## Places -/

/-- The slot of a core's firmware agent in the keys of crews. -/
def agentSlot : Nat := 64
def crewKey (core slot : Nat) : Nat := 128 * core + slot
def coreOf (key : Nat) : Nat := key / 128
def slotOf (key : Nat) : Nat := key % 128
def dieOfCore (core : Nat) : Nat := core / 16

/-- One bit for each lane below `n`. -/
def laneMask (n : Nat) : Mask := BitVec.ofNat 1024 (2 ^ n - 1)

/-- The number of no task and of no party. -/
def noTask : Nat := 18446744073709551615

/-- A privileged agent: no role; it sleeps until it is woken. Registers, lanes and PC: log 12. -/
def Crew.agent : Crew :=
  { party := noTask, lanes := Config.agentLanes, regc := Config.agentRegs, mask := laneMask Config.agentLanes,
    live := laneMask Config.agentLanes, asleep := true }

/-- A crew slot that holds no crew. -/
def Crew.absent : Crew := { ended := true }

/-- Whether a slot belongs to a privileged agent: the firmware agent, or slot 63 of logical cores 12 to 15
(spec/15 R247). -/
def isAgentKey (key : Nat) : Bool := slotOf key = agentSlot || (slotOf key = 63 && coreOf key % 16 ≥ 12)

/-- The number of the party that stands for a privileged agent's own scratchpad and shape slots (log 12). -/
def agentParty (key : Nat) : Nat := 2 ^ 40 + key

def State.crew (s : State) (key : Nat) : Crew :=
  (Tbl.get? s.crews key).getD (if isAgentKey key then { Crew.agent with party := agentParty key } else .absent)
def State.setCrew (s : State) (key : Nat) (c : Crew) : State := { s with crews := Tbl.set s.crews key c }
/-- Changes a crew; a slot that holds none stays so. -/
def State.modCrew (s : State) (key : Nat) (f : Crew → Crew) : State :=
  if (Tbl.get? s.crews key).isSome || isAgentKey key then s.setCrew key (f (s.crew key)) else s

def State.core (s : State) (k : Nat) : Core := (Tbl.get? s.cores k).getD {}
def State.setCore (s : State) (k : Nat) (c : Core) : State := { s with cores := Tbl.set s.cores k c }
def State.modCore (s : State) (k : Nat) (f : Core → Core) : State := s.setCore k (f (s.core k))

def State.die (s : State) (d : Nat) : Die := (Tbl.get? s.dies d).getD {}
def State.setDie (s : State) (d : Nat) (x : Die) : State := { s with dies := Tbl.set s.dies d x }
def State.modDie (s : State) (d : Nat) (f : Die → Die) : State := s.setDie d (f (s.die d))

def State.party (s : State) (k : Nat) : Party :=
  (Tbl.get? s.parties k).getD
    { task := noTask, scratchLen := if k < agentParty 0 then 0 else Config.agentScratch }
def State.setParty (s : State) (k : Nat) (p : Party) : State := { s with parties := Tbl.set s.parties k p }
def State.modParty (s : State) (k : Nat) (f : Party → Party) : State := s.setParty k (f (s.party k))

def State.task (s : State) (k : Nat) : Task := (Tbl.get? s.tasks k).getD { launch := noTask, status := .complete }
def State.setTask (s : State) (k : Nat) (t : Task) : State := { s with tasks := Tbl.set s.tasks k t }
def State.modTask (s : State) (k : Nat) (f : Task → Task) : State := s.setTask k (f (s.task k))

def State.launch (s : State) (k : Nat) : Launch :=
  (Tbl.get? s.launches k).getD { ctx := 0, packet := 0, status := .complete }
def State.modLaunch (s : State) (k : Nat) (f : Launch → Launch) : State :=
  { s with launches := Tbl.set s.launches k (f (s.launch k)) }

def State.svc (s : State) (k : Nat) : Svc := (Tbl.get? s.svcs k).getD {}
def State.modSvc (s : State) (k : Nat) (f : Svc → Svc) : State := { s with svcs := Tbl.set s.svcs k (f (s.svc k)) }

/-- The party and the context of a crew. -/
def State.partyOf (s : State) (key : Nat) : Party := s.party (s.crew key).party
def State.ctxOf (s : State) (key : Nat) : Nat := (s.partyOf key).ctx
def State.taskOf (s : State) (key : Nat) : Task := s.task (s.partyOf key).task

/-- A resident crew that has not ended. -/
def State.resident (s : State) (key : Nat) : Bool := (Tbl.get? s.crews key).isSome && !(s.crew key).ended

/-- Draws the next free value. -/
def State.free (s : State) : DWord × State := (Config.freeBits s.freeIx, { s with freeIx := s.freeIx + 1 })

/-! ## Time (spec/18) -/

/-- The Meridian copy of a die (spec/18 R283). -/
def State.mer (s : State) (d : Nat) : Nat := s.meridian - (s.die d).lag.val

/-- The first cycle of a die that begins at or after a tick, counted from a frequency entry: cycle c begins 10 (c - C) / F
ticks after M (spec/18 R286, R288). -/
def FreqEntry.cycleFrom (e : FreqEntry) (t : Nat) : Nat := e.clk + ((t - e.mer) * e.freq + 9) / 10

/-- %CLK of a die at a tick (spec/18 R284, R288, log 59): counted from the newest frequency entry; during a relock it keeps the
count of the last cycle before it. -/
def State.clk (s : State) (d : Nat) : Nat :=
  let x := s.die d
  match x.freqs with
  | [] => 0
  | e :: _ =>
    match x.relock with
    | some (ms, _) => e.cycleFrom ms - 1
    | none => e.clk + (s.meridian - e.mer) * e.freq / 10

/-- Keeps the last 8 frequency entries, newest first (spec/10 R190). -/
def Die.addFreq (x : Die) (e : FreqEntry) : Die := { x with freqs := (e :: x.freqs).take 8 }

/-- Whether a die relocks: every operation of it is frozen (spec/18 R286). -/
def State.relocking (s : State) (die : Nat) : Bool := (s.die die).relock.isSome

/-- The core cycles that a crew's die has counted. -/
def State.cycles (s : State) (key : Nat) : Nat := s.clk (dieOfCore (coreOf key))

/-- An interlock and the like stall a crew inside its run; the other waits make it unready (spec/15 R259). -/
def Wait.inside (w : Wait) : Bool :=
  match w with
  | .interlock | .counter | .walk | .rejected | .svcFull | .acquire | .region | .check | .armed | .spawn | .clock => true
  | _ => false

/-- A crew that stalls inside its run is judged again at its next issue; one whose access was turned away waits for its retry
(spec/13 R226), and one whose wait makes it unready until that wait is over (spec/15 R259). -/
def Crew.wake (c : Crew) : Crew :=
  match c.wait with
  | some w => if w.inside && w ≠ .rejected && w ≠ .svcFull then { c with wait := none } else c
  | none => c
def State.wakeCrews (s : State) : State := { s with crews := s.crews.map fun x => (x.1, x.2.wake) }

/-- A crew's wait is over: it is ready from now on, and the stall that kept its instruction has ended (spec/15 R259). -/
def Crew.ready (c : Crew) (now : Nat) : Crew := { c with wait := none, stall := none, cut := false, readyAt := now }

/-! ## Wake codes (spec/10 R195, Table 10-6) -/

/-- A source of an agent's alarm becomes pending. -/
def Alarm.signal (x : Alarm) (code now : Nat) : Alarm :=
  { x with pending := x.pending ||| (1 : BitVec 9) <<< code
           fired := if x.pending &&& x.armed = 0 then now else x.fired }

/-- A wake source of a core fires: it becomes pending for both agents of the core, and wakes a gated core when it is the
first (spec/15 R263). -/
def State.signalWake (s : State) (core code : Nat) : State :=
  s.modCore core fun c =>
    { c with fw := c.fw.signal code s.meridian, sc := c.sc.signal code s.meridian
             source := if c.gated then c.source <|> some (code, s.meridian) else c.source }

/-- Adds to a stall counter of a core, which saturates (spec/15 R265). -/
def State.countCycles (s : State) (core i n : Nat) : State :=
  if 15 < i || n = 0 then s
  else s.modCore core fun c =>
    { c with stalls := Sparse.set c.stalls i (BitVec.ofNat 64 (min ((Sparse.get c.stalls i).toNat + n) (2 ^ 64 - 1))) }

/-! ## Registers -/

def Crew.v (c : Crew) (reg lane : Nat) : Word := Sparse.get c.vregs (1024 * reg + lane)
def Crew.s (c : Crew) (reg : Nat) : Word := Sparse.get c.sregs reg
def Crew.setV (c : Crew) (reg lane : Nat) (x : Word) : Crew :=
  { c with vregs := Sparse.set c.vregs (1024 * reg + lane) x }
def Crew.setS (c : Crew) (reg : Nat) (x : Word) : Crew := { c with sregs := Sparse.set c.sregs reg x }
/-- The lanes in which a predicate is true; p7 reads true (spec/01 Table 1-3). -/
def Crew.pred (c : Crew) (i : BitVec 3) : Mask := if i = 7 then BitVec.allOnes 1024 else Sparse.get c.preds i.toNat
/-- Writes a predicate in the lanes of a mask; a write of p7 is ignored. -/
def Crew.setPred (c : Crew) (i : BitVec 3) (lanes val : Mask) : Crew :=
  if i = 7 then c
  else { c with preds := Sparse.set c.preds i.toNat ((c.pred i &&& ~~~lanes) ||| (val &&& lanes)) }

/-- The 64-bit pair (n, n+1), the even register low (spec/01 R15). -/
def Crew.sPair (c : Crew) (reg : Nat) : DWord := c.s (reg + 1) ++ c.s reg
def Crew.vPair (c : Crew) (reg lane : Nat) : DWord := c.v (reg + 1) lane ++ c.v reg lane
def Crew.setSPair (c : Crew) (reg : Nat) (x : DWord) : Crew :=
  (c.setS reg (x.extractLsb' 0 32)).setS (reg + 1) (x.extractLsb' 32 32)

def RegWrite.apply (c : Crew) (w : RegWrite) : Crew := if w.vec then c.setV w.reg w.lane w.val else c.setS w.reg w.val

/-- The active lanes of the guard: p[GP] XOR GN (spec/01 R12). -/
def Crew.guard (c : Crew) (f : Ctl) : Mask := if f.gn then ~~~(c.pred f.gp) else c.pred f.gp
/-- The effective mask (spec/01 R12, spec/04 R83): active, live, guard-true, below the crew's size. -/
def Crew.eff (c : Crew) (f : Ctl) : Mask := c.mask &&& c.live &&& c.guard f &&& laneMask c.lanes
/-- The lanes of a mask in ascending order. -/
def lanesOf (m : Mask) (n : Nat) : List Nat := (upto 0 n).filter fun l => m.getLsbD l
def Crew.effLanes (c : Crew) (f : Ctl) : List Nat := lanesOf (c.eff f) c.lanes

/-! ## Memory, homes and caches (spec/12) -/

/-- The memory attributes of an access: HOME, LC and REP (spec/12 Table 12-1). -/
structure Attr where
  home : BitVec 3
  lc : BitVec 2
  rep : Bool
deriving DecidableEq, Repr

/-- Privileged agents name physical memory, interleaved, lease class 2 (DESIGN CHOICE, log 12). -/
def Attr.agent : Attr := { home := 4, lc := 2, rep := false }

/-- The home die of a physical address (spec/12 R201). -/
def Attr.die (a : Attr) (pa : Nat) : Nat := if a.home.toNat < 4 then a.home.toNat else pa / 4096 % 4
/-- Whether a physical address lies in another package (spec/13 R225). -/
def State.foreign (s : State) (pa : Nat) : Bool := pa / 2 ^ 52 % 256 != s.pkgId
/-- Whether a UALink port carries traffic: it is ready and not down (spec/26 R353, spec/27 R360). -/
def State.portUp (s : State) (p : Nat) : Bool := s.ready.getLsbD (80 + p) && !s.portsDown.getLsbD p
/-- Whether no port reaches the other packages. -/
def State.unlinked (s : State) : Bool := !(upto 0 16).any s.portUp
/-- Whether every port that reaches them retrains (spec/27 R364). -/
def State.portsBusy (s : State) : Bool := !s.unlinked && (upto 0 16).all fun p => !s.portUp p || s.retraining.contains p
/-- Whether a package is one that no UALink port reaches: another one outside the UALink domain, or any other one while no port
carries traffic (spec/26 R353). -/
def State.unreached (s : State) (pkg : Nat) : Bool := pkg != s.pkgId && (s.unlinked || !s.domain.contains pkg)
/-- Whether a physical address lies in a package that no UALink port reaches (spec/26 R353). -/
def State.cutOff (s : State) (pa : Nat) : Bool := s.unreached (pa / 2 ^ 52 % 256)
def lineOf (pa : Nat) : Nat := pa / 128
/-- The ticks of a lease class (spec/12 Table 12-1). -/
def leaseTicks (lc : BitVec 2) : Nat := if lc = 1 then 256 else if lc = 2 then 1024 else if lc = 3 then 4096 else 0

/-- The value of record of a line. -/
def State.homeLine (s : State) (ln : Nat) : Line :=
  (s.mem.filter fun x => x.1 / 128 = ln).foldl (fun acc x => acc ||| BitVec.shiftLeft (x.2.setWidth 1024) (8 * (x.1 % 128))) (0 : Line)

/-- The bytes that a byte mask selects, from one line, the others from another. -/
def expandMask (m : BitVec 128) : Line :=
  (upto 0 128).foldl (fun acc i => if m.getLsbD i then acc ||| (0xFF : Line) <<< (8 * i) else acc) 0
def overlay (base top : Line) (m : BitVec 128) : Line :=
  if m = 0 then base else let e := expandMask m; (base &&& ~~~e) ||| (top &&& e)
def lineByte (l : Line) (i : Nat) : Byte := l.extractLsb' (8 * i) 8

def State.l2 (s : State) (d ln : Nat) : L2Line := (Tbl.get? (s.die d).l2 ln).getD {}
/-- An L2 line that holds nothing is not listed; one without dirty bytes has no writers. -/
def State.setL2 (s : State) (d ln : Nat) (x : L2Line) : State :=
  s.modDie d fun y =>
    { y with l2 :=
        if x.dirtyMask != 0 then Tbl.set y.l2 ln x
        else if x.clean.isSome then Tbl.set y.l2 ln { x with dirty := 0, writers := 0 } else Tbl.del y.l2 ln }

/-- The completion time of an application at a home point: Max(Xmax, Mh) (spec/12 R206). -/
def State.completion (s : State) (home ln : Nat) : Nat := max ((Tbl.get? s.xmax ln).getD 0) (s.mer home)

/-- Writes a line's dirty bytes back to its home, and keeps them in what the die holds under its lease; the answer is the
home's completion time (spec/12 R206, R207, R212). -/
def State.writeBack (s : State) (d ln : Nat) : State × Nat :=
  let x := s.l2 d ln
  let m := (upto 0 128).foldl
    (fun m i => if x.dirtyMask.getLsbD i then m.write (ln * 128 + i) (lineByte x.dirty i) else m) s.mem
  let ct := s.completion x.home ln
  (({ s with mem := m }).setL2 d ln
    { x with clean := x.clean.map (fun (e : Nat × Line) => (e.1, overlay e.2 x.dirty x.dirtyMask)),
             dirtyMask := 0, dirty := 0, writers := 0 }, ct)

/-- The cores of a die that wrote some bytes keep a completion time of theirs for their next release (spec/12 R207). -/
def State.keepCt (s : State) (d : Nat) (writers : BitVec 16) (ct : Nat) : State :=
  (upto 0 16).foldl (fun s i =>
    if writers.getLsbD i then s.modCore (16 * d + i) fun c => { c with replCT := max c.replCT ct } else s) s

/-- A writeback whose completion time the cores that wrote the bytes keep for their next release (spec/12 R207). -/
def State.writeBackKept (s : State) (d ln : Nat) : State × Nat :=
  let r := s.writeBack d ln
  (r.1.keepCt d (s.l2 d ln).writers r.2, r.2)

/-- A die's L2 gives up a line: its dirty bytes go home first, and the writer cores keep the completion time (spec/12
R207). Clean bytes may go at any time (R205). -/
def State.replaceLine (s : State) (d ln : Nat) : State :=
  (if (s.l2 d ln).dirtyMask = 0 then s else (s.writeBackKept d ln).1).setL2 d ln {}

/-- Lines that an L2 holds (spec/00 Table 0-1). -/
def l2Lines : Nat := 786432
/-- Whether the Essia link of a die retrains (spec/27 R364). -/
def State.essiaBusy (s : State) (die : Nat) : Bool := s.retraining.contains (16 + die)
/-- What holds the traffic of a core to a die: the die, which relocks (spec/18 R287), or a link that retrains, named 4 (spec/27
R364). -/
def State.wayHeld (s : State) (core die : Nat) : Option Nat :=
  if die = dieOfCore core then none
  else if s.relocking die then some die
  else if s.essiaBusy die || s.essiaBusy (dieOfCore core) then some 4 else none

/-- Room for a line in a die's L2: a full one replaces its lowest line that is clean, or whose dirty bytes nothing holds on their way
home (spec/18 R287; DESIGN CHOICE, log 9). -/
def State.roomL2 (s : State) (d ln : Nat) : State :=
  let t := (s.die d).l2
  if (Tbl.get? t ln).isSome || t.length < l2Lines then s
  else match t.find? fun x => x.2.dirtyMask = 0 || (s.wayHeld (16 * d) x.2.home).isNone with
    | some x => s.replaceLine d x.1
    | none => s

/-- The clean bytes of a line that a die still holds under a lease (spec/12 R205). -/
def State.leased (s : State) (d ln : Nat) : Option Line :=
  match (s.l2 d ln).clean with
  | some (exp, l) => if s.mer d + 2 < exp then some l else none
  | none => none

/-- A line as die `d` reads it below L1 (spec/12 R205, R207, R209): at the home point, or from L2 under a lease that is
asked for when there is none, with the die's dirty bytes over it. -/
def State.readL2 (s : State) (d : Nat) (a : Attr) (ln : Nat) : Line × State :=
  let home := a.die (ln * 128)
  if home = d || a.lc = 0 || s.foreign (ln * 128) then (s.homeLine ln, s)
  else
    let x := s.l2 d ln
    match s.leased d ln with
    | some l => (overlay l x.dirty x.dirtyMask, s)
    | none =>
      let l := s.homeLine ln
      let exp := s.mer home + leaseTicks a.lc
      let s1 := { s with xmax := Tbl.set s.xmax ln (max ((Tbl.get? s.xmax ln).getD 0) exp) }.roomL2 d ln
      (overlay l x.dirty x.dirtyMask, s1.setL2 d ln { x with home := home, clean := some (exp, l) })

/-- Lines that the L1 partition and the instruction cache of a core hold (spec/12 Table 12-2, spec/01 R19), and a base
die's LLC (spec/00 Table 0-1). -/
def l1Lines : Nat := 2048
def icacheLines : Nat := 1024
def llcLines : Nat := 3145728
/-- Fills a cache; a full one drops its lowest line (DESIGN CHOICE, log 9). -/
def fillCache (t : Tbl Line) (cap ln : Nat) (l : Line) : Tbl Line :=
  Tbl.set (if t.length < cap then t else t.drop 1) ln l

/-- A line as a load of a core reads it, Table 12-3 (spec/12 R209, R210): `fr` bypasses L1, `hint` names the replica's
die. -/
def State.readLine (s : State) (core : Nat) (a : Attr) (fr : Bool) (hint : Option (BitVec 2)) (ln : Nat) :
    Line × State :=
  let d := dieOfCore core
  if s.foreign (ln * 128) || (a.lc = 0 && !a.rep) then (s.homeLine ln, s)
  else
    match if fr then none else Tbl.get? (s.core core).l1 ln with
    | some l => (l, s)
    | none =>
      let (l, s1) :=
        if a.rep then
          match if a.die (ln * 128) = d then some (s.homeLine ln) else s.leased d ln with
          | some l => (l, s)
          | none =>
            let r := match hint with | some h => h.toNat | none => d
            match Tbl.get? (s.die r).replicas ln with
            | some l => (l, s)
            | none =>
              let l := s.homeLine ln
              (l, s.modDie r fun x => { x with replicas := fillCache x.replicas llcLines ln l })
        else s.readL2 d a ln
      (l, if fr then s1 else s1.modCore core fun c => { c with l1 := fillCache c.l1 l1Lines ln l })

/-- Drops a line from the L1 of a core, or all of it (spec/05 R99, R100). -/
def State.dropL1 (s : State) (core ln : Nat) : State := s.modCore core fun c => { c with l1 := Tbl.del c.l1 ln }
def State.invalidateL1 (s : State) (core : Nat) : State := s.modCore core fun c => { c with l1 := [] }

/-- An uncorrectable word is whole again once it is written. -/
def State.clearBad (s : State) (pa n : Nat) : State :=
  { s with bad := s.bad.filter fun a => !(pa ≤ a && a < pa + n) }

/-- How a store completes (spec/05 R99): at once, or when Meridian has passed a time, or when another package
acknowledges it. -/
inductive StoreEnd where | now (ct : Option Nat) | passed (ct : Nat) | ack
deriving DecidableEq, Repr

/-- Stores bytes that lie in one line, as a crew or engine of a core does (spec/05 R99, spec/12 R206-R208): at the home
point, or as dirty bytes of the core's die, or through to the home. A store to a package that no port reaches writes nothing
(spec/26 R353). A store that goes through to the home over dirty bytes of the die takes their place there: the cores that wrote them keep
its completion time for their next release, as for a writeback (spec/12 R207, R216). -/
def State.storeLine (s : State) (core : Nat) (a : Attr) (sc : Scope) (pa : Nat) (bytes : List Byte) :
    State × StoreEnd :=
  let d := dieOfCore core
  let ln := lineOf pa
  let home := a.die pa
  let s := s.dropL1 core ln
  let applied := { s.clearBad pa bytes.length with mem := s.mem.writeBytes pa bytes }
  let wide := sc = .pkg || sc = .sys
  if s.foreign pa then (if s.cutOff pa then s else applied, .ack)
  else if home = d then
    let ct := s.completion home ln
    (applied, if wide then .passed ct else .now (some ct))
  else if a.lc = 0 then
    let ct := s.mer home
    (applied, if wide then .passed ct else .now (some ct))
  else
    let x := s.l2 d ln
    let ofs := pa % 128
    let bm : BitVec 128 := BitVec.ofNat 128 ((2 ^ bytes.length - 1) * 2 ^ ofs)
    let v : Line := BitVec.ofNat 1024 (fromBytesLE bytes * 2 ^ (8 * ofs))
    if wide then
      let ct := s.completion home ln
      let applied := if x.dirtyMask &&& bm = 0 then applied else applied.keepCt d x.writers ct
      (applied.setL2 d ln { x with clean := x.clean.map (fun (e : Nat × Line) => (e.1, overlay e.2 v bm)),
                                   dirtyMask := x.dirtyMask &&& ~~~bm }, .passed ct)
    else
      (((s.clearBad pa bytes.length).roomL2 d ln).setL2 d ln
        { x with home := home, dirtyMask := x.dirtyMask ||| bm, dirty := overlay x.dirty v bm,
                 writers := x.writers ||| (1 : BitVec 16) <<< (core % 16) }, .now none)

/-- The lines that a release at pkg or wider of a core writes back: dirty lines that a crew or engine of the core wrote
(spec/05 R105). -/
def State.dirtyOf (s : State) (core : Nat) : Tbl L2Line :=
  (s.die (dieOfCore core)).l2.filter fun x => x.2.dirtyMask != 0 && x.2.writers.getLsbD (core % 16)

/-- The writeback that a release at pkg or wider makes for a core (spec/05 R105, spec/12 R207), with the latest
completion time; another core that wrote bytes of a line keeps its time too (log 65). -/
def State.releaseCore (s : State) (core : Nat) : State × Nat :=
  let d := dieOfCore core
  (s.dirtyOf core).foldl (fun acc x => let r := acc.1.writeBackKept d x.1; (r.1, max acc.2 r.2)) (s, (s.core core).replCT)

/-- A die drops the clean bytes that it holds of a line, before their lease ends (spec/12 R205). -/
def State.dropLease (s : State) (d ln : Nat) : State :=
  if (s.l2 d ln).clean.isSome then s.setL2 d ln { s.l2 d ln with clean := none } else s

/-- What holds the traffic of a die to another package, which crosses the hub: its Essia link retrains, or every port does
(spec/26 R342, spec/27 R364). -/
def State.portHeld (s : State) (die : Nat) : Option Nat := if s.portsBusy || s.essiaBusy die then some 4 else none

/-- What holds a request of a core to a line's home point (spec/18 R287, spec/27 R364). -/
def State.homeHeld (s : State) (core : Nat) (a : Attr) (pa : Nat) : Option Nat :=
  if s.foreign pa then s.portHeld (dieOfCore core) else s.wayHeld core (a.die pa)
/-- What holds a request of the hub die to a line's home point (spec/18 R287, spec/26 R342, spec/27 R364). -/
def State.hubHeld (s : State) (a : Attr) (pa : Nat) : Option Nat :=
  if s.foreign pa then (if s.portsBusy then some 4 else none)
  else if s.relocking (a.die pa) then some (a.die pa)
  else if s.essiaBusy (a.die pa) then some 4 else none

/-- Whether an L1 (unless bypassed), a lease or a replica serves a read, so that it does not reach the home point. -/
def State.near (s : State) (core : Nat) (a : Attr) (fr : Bool) (hint : Option (BitVec 2)) (pa : Nat) : Bool :=
  let d := dieOfCore core
  let ln := lineOf pa
  let r := match hint with | some h => h.toNat | none => d
  !(a.lc = 0 && !a.rep) &&
    ((!fr && (Tbl.get? (s.core core).l1 ln).isSome) || (s.leased d ln).isSome ||
      (a.rep && (Tbl.get? (s.die r).replicas ln).isSome))

/-- What holds a read on its way to the home point, or to the die whose replica serves it (spec/18 R287, spec/27 R364). -/
def State.readHeld (s : State) (core : Nat) (a : Attr) (fr : Bool) (hint : Option (BitVec 2)) (pa : Nat) : Option Nat :=
  let d := dieOfCore core
  let ln := lineOf pa
  let r := match hint with | some h => h.toNat | none => d
  if !(a.lc = 0 && !a.rep) && ((!fr && (Tbl.get? (s.core core).l1 ln).isSome) || (s.leased d ln).isSome) then none
  else if a.rep && a.die pa ≠ d && !s.foreign pa then s.wayHeld core r <|> (if s.near core a fr hint pa then none else s.homeHeld core a pa)
  else s.homeHeld core a pa

/-- The same for a store: bytes that stay dirty in the die's own L2 do not wait, unless the home die has to check the store for
races (spec/16 R269). -/
def State.storeHeld (s : State) (core : Nat) (a : Attr) (sc : Scope) (pa : Nat) (checked : Bool := false) : Option Nat :=
  if !s.foreign pa && a.lc ≠ 0 && sc ≠ .pkg && sc ≠ .sys && !checked then none else s.homeHeld core a pa

/-! ## Budgets (spec/15 R264) -/

/-- The budget class of a task's launch, and of a crew's (spec/15 R264). -/
def State.taskClass (s : State) (t : Task) : Nat := ((s.launch t.launch).packet.extractLsb' 30 4).toNat
def State.classOf (s : State) (key : Nat) : Nat := s.taskClass (s.taskOf key)
/-- Charges a quantity to a budget class. -/
def State.chargeClass (s : State) (cls kind n : Nat) : State :=
  let b := (Tbl.get? s.budgets (4 * cls + kind)).getD {}
  { s with budgets := Tbl.set s.budgets (4 * cls + kind) { b with used := b.used + n } }
/-- Charges a quantity to the budget class of a crew's launch: 0 core time, 1 copy bytes, 2 collective bytes, 3 HBM bytes.
A privileged agent works for no launch. -/
def State.charge (s : State) (key kind n : Nat) : State :=
  if n = 0 || (s.crew key).role.isNone then s else s.chargeClass (s.classOf key) kind n

/-- Whether a quantity of a class has reached its limit. -/
def State.classSpent (s : State) (cls : Nat) : Bool :=
  (upto 0 4).any fun k =>
    let b := (Tbl.get? s.budgets (4 * cls + k)).getD {}
    b.limit ≠ BitVec.allOnes 64 && b.limit.toNat ≤ b.used
/-- Whether an engine of a crew may start no further unit of transfer in this period. -/
def State.spent (s : State) (key : Nat) : Bool := (s.crew key).role.isSome && s.classSpent (s.classOf key)

/-- The HBM bytes of a load (log 43): every line of this package that no cache of the issuing die serves is read whole at
its home point. -/
def State.readBytes (s : State) (core : Nat) (fr : Bool) (hint : Option (BitVec 2)) (l : List (Attr × Nat)) : Nat :=
  128 * ((l.filter fun x => !s.foreign x.2 && !s.near core x.1 fr hint x.2).map fun x => lineOf x.2).eraseDups.length

/-- The HBM bytes of a write of `n` bytes (log 43): what is applied at a home point of this package. -/
def State.writtenBytes (s : State) (core : Nat) (a : Attr) (sc : Scope) (pa n : Nat) : Nat :=
  if s.foreign pa then 0
  else if a.die pa = dieOfCore core || a.lc = 0 || sc = .pkg || sc = .sys then n else 0

/-- The dirty bytes of a line that a writeback moves. -/
def L2Line.dirtyBytes (x : L2Line) : Nat := ((upto 0 128).filter fun i => x.dirtyMask.getLsbD i).length

/-! ## Translation (spec/13 R224, R225) -/

/-- The context entry in memory (spec/15 R249). -/
def State.ctxStored (s : State) (ctx : Nat) : BitVec 512 :=
  BitVec.ofNat 512 (fromBytesLE (s.mem.readBytes (s.ctxTable + 64 * ctx) 64))
/-- The context entry that firmware last read; one that it has not read yet stands as the table has it (spec/15 R249, log 45). -/
def State.ctxEntry (s : State) (ctx : Nat) : BitVec 512 := (Tbl.get? s.ctxLive ctx).getD (s.ctxStored ctx)
def State.readCtx (s : State) (ctx : Nat) : State := { s with ctxLive := Tbl.set s.ctxLive ctx (s.ctxStored ctx) }

/-- The first address bit below the index of a level, and the size of the index (spec/13 R225). -/
def levelShift (l : Nat) : Nat := [48, 39, 30, 21, 16].getD l 16
def levelEntries (l : Nat) : Nat := [256, 512, 512, 512, 32].getD l 32

/-- A leaf that is well formed at its level (spec/13 R225, Table 13-1). -/
def leafOk (l : Nat) (e : DWord) : Bool :=
  2 ≤ l && e.extractLsb' 6 2 = 0 && e.extractLsb' 14 2 = 0 && e.extractLsb' 60 4 = 0 &&
    (e.extractLsb' 8 3).toNat < 5 && (e.extractLsb' 16 44).toNat * 2 ^ 16 % 2 ^ levelShift l = 0

/-- A pointer that is well formed at its level. -/
def pointerOk (l : Nat) (e : DWord) : Bool :=
  l ≠ 4 && e.extractLsb' 2 6 = 0 && e.extractLsb' 60 4 = 0 &&
    (l = 3 || (e.extractLsb' 8 4) = 0)

/-- The subcause, none of Table 13-1, that stands for a table in a package that no port reaches: its reader takes the machine check of
R239 with SUB 2 in place of a translation fault (spec/26 R353; log 75). -/
def walkLost : BitVec 8 := 0xFF

/-- The walk of a page table from a level: the translation, or the subcause and the HM bit (spec/13 R225); `cut` says which
addresses no port reaches. -/
def walkFrom (m : Memory) (cut : Nat → Bool) (ctx va : Nat) : Nat → Nat → Nat → Except (BitVec 8 × Bool) TlbEntry
  | 0, _, _ => .error (4, false)
  | fuel + 1, l, table =>
    let ix := va / 2 ^ levelShift l % levelEntries l
    let e : DWord := BitVec.ofNat 64 (fromBytesLE (m.readBytes (table + 8 * ix) 8))
    if cut table then .error (walkLost, false)
    else if !e.getLsbD 0 then .error (0, e.getLsbD 5)
    else if e.getLsbD 1 then
      if leafOk l e then
        .ok { ctx := ctx, vbase := va / 2 ^ levelShift l * 2 ^ levelShift l, size := 2 ^ levelShift l,
              r := e.getLsbD 2, w := e.getLsbD 3, x := e.getLsbD 4, home := e.extractLsb' 8 3,
              lc := e.extractLsb' 11 2, rep := e.getLsbD 13, pa := (e.extractLsb' 16 44).toNat * 2 ^ 16, hm := e.getLsbD 5 }
      else .error (4, e.getLsbD 5)
    else if pointerOk l e then walkFrom m cut ctx va fuel (l + 1) ((e.extractLsb' 8 52).toNat * 256)
    else .error (4, false)

/-- Whether physical memory has an address: a package has 384 GiB of HBM (spec/00 Table 0-1); what lies above does not
exist (log 52). Another package answers for itself. -/
def State.exists? (s : State) (pa : Nat) : Bool := s.foreign pa || pa % 2 ^ 52 < 384 * 2 ^ 30

/-- The page walk of a context's address. A page of this package beyond its HBM is malformed (log 52). -/
def State.pageWalk (s : State) (ctx va : Nat) : Except (BitVec 8 × Bool) TlbEntry :=
  match walkFrom s.mem s.cutOff ctx va 5 0 ((s.ctxEntry ctx).extractLsb' 64 64).toNat with
  | .ok e => if s.exists? (e.pa + e.size - 1) then .ok e else .error (4, e.hm)
  | .error x => .error x

/-- The subcause of a permission that a translation lacks; a replicated page is never writable (spec/12 R202). -/
def TlbEntry.denies (e : TlbEntry) : Need → Option (BitVec 8)
  | .read => if e.r then none else some 1
  | .write => if e.w && !e.rep then none else some 2
  | .exec => if e.x then none else some 3
  | .both => if !e.r then some 1 else if e.w && !e.rep then none else some 2

def TlbEntry.covers (e : TlbEntry) (ctx va : Nat) : Bool := e.ctx = ctx && e.vbase ≤ va && va < e.vbase + e.size
def TlbEntry.attr (e : TlbEntry) : Attr := { home := e.home, lc := e.lc, rep := e.rep }

/-- The granule in which misses are coalesced: the smallest page. -/
def granule (va : Nat) : Nat := va / 2 ^ 16

/-- Where one access stands: translated, waiting for a walk, waiting for the service of another's fault, turned away because every miss
entry is busy, or faulting with its subcause and HM bit. -/
inductive Tr where
  | ok (pa : Nat) (a : Attr)
  | walking
  | behind
  | rejected
  | fault (sub : BitVec 8) (hm : Bool)
deriving DecidableEq, Repr

def State.tlbFind (s : State) (core ctx va : Nat) : Option TlbEntry :=
  match (s.core core).tlb.find? fun e => e.covers ctx va with
  | some e => some e
  | none => (s.die (dieOfCore core)).tlb.find? fun e => e.covers ctx va

/-- The miss entries that a core uses (spec/13 R226): an access whose walk has ended needs none any more, so that one with many absent
pages finds all of them (log 76). -/
def State.missesOf (s : State) (core : Nat) : Nat :=
  ((s.die (dieOfCore core)).walks.filter fun w => w.failed.isNone && w.cores.contains core).length

/-- Whether an address lies in the page of a walk: the page that its leaf maps, or the smallest one where there is no leaf (spec/13
R224). -/
def State.samePage (s : State) (w : Walk) (ctx va : Nat) : Bool :=
  w.ctx = ctx && (granule w.va = granule va || match s.pageWalk w.ctx w.va with | .ok e => e.covers ctx va | .error _ => false)

/-- A miss of a crew, or of the engine of a crew, `who`: it joins the walk of its page or starts one, and takes a miss
entry of its core. A walk that has failed faults for the access that started it, and the others wait for its service (spec/13 R224,
R226). -/
def State.miss (s : State) (ctx who core va : Nat) (need : Need) : Tr × State :=
  let d := dieOfCore core
  let full := Config.missEntries ≤ s.missesOf core
  match (s.die d).walks.find? fun w => s.samePage w ctx va with
  | some w =>
    match w.failed with
    | some (sub, hm) => (if w.crew = who then .fault sub hm else .behind, s)
    | none =>
      if w.cores.contains core then (.walking, s)
      else if full then (.rejected, s)
      else (.walking, s.modDie d fun x =>
        { x with walks := x.walks.map fun (y : Walk) => if y = w then { y with cores := y.cores ++ [core] } else y })
  | none =>
    if full then (.rejected, s)
    else (.walking, s.modDie d fun x =>
      { x with walks := x.walks ++ [{ ctx := ctx, va := va, crew := who, core := core, cores := [core], need := need }] })

/-- The name of the engines of a crew, where the walkers, the retries and the agent's question to the host name a crew
(spec/05 R112, spec/13 R224, R226, R231). -/
def engineAsk (key : Nat) : Nat := key + 2 ^ 20
/-- The name of the region loads of a crew in the queue of retries (spec/13 R226, R228). -/
def loadAsk (key : Nat) : Nat := key + 2 ^ 21
/-- The crew for which one of these names, or of a crew, stands. -/
def askedFor (who : Nat) : Nat := who % 2 ^ 20

/-- Translates one address for a crew, starting a walk on a miss (spec/13 R224). -/
def State.translate (s : State) (key : Nat) (need : Need) (va : Nat) : Tr × State :=
  let core := coreOf key
  if (s.crew key).role.isNone then (if s.exists? va then .ok va .agent else .fault 4 false, s)
  else
    let ctx := s.ctxOf key
    match s.tlbFind core ctx va with
    | some e =>
      match e.denies need with
      | some sub => (.fault sub e.hm, s)
      | none => (.ok (e.pa + (va - e.vbase)) e.attr, s)
    | none => s.miss ctx key core va need

/-- Puts a translation into a TLB of bounded size; the oldest leaves. -/
def tlbInsert (t : List TlbEntry) (cap : Nat) (e : TlbEntry) : List TlbEntry :=
  (e :: t.filter fun x => !(x.ctx = e.ctx && x.vbase = e.vbase)).take cap

/-- A translation without TLBs: what an engine or firmware finds in the page table (spec/05 R112, spec/13 R231). -/
def State.lookup (s : State) (ctx va : Nat) (need : Need) : Except (BitVec 8 × Bool) (Nat × Attr) :=
  if va ≥ 2 ^ 56 then .error (0, false)
  else match s.pageWalk ctx va with
  | .error x => .error x
  | .ok e => match e.denies need with
    | some sub => .error (sub, e.hm)
    | none => .ok (e.pa + (va - e.vbase), e.attr)

/-! ## Taking an exception (spec/13 R232-R234) -/

/-- The window address of lane 0 of a crew's first register unit (spec/05 Table 5-4). -/
def windowBase (core rbase : Nat) : Word := BitVec.ofNat 32 (rbase * 128 + core % 16 * 2 ^ 22 + core / 16 * 2 ^ 26)

/-- The state of the faulting crew that every report carries (spec/13 Table 13-2). -/
def State.fillReport (s : State) (key : Nat) (c : Crew) (r : Report) : Report :=
  { r with
    rg := c.inRegion
    crew := slotOf key
    pslot := if c.role.isSome then c.party % 16 else 0
    ctx := (s.party c.party).ctx
    regc := c.regc
    pc := c.pc
    epc := if c.inRegion then c.epc else c.pc
    taskf := c.task
    wbase := windowBase (coreOf key) c.rbase
    ped := c.ped }

/-- Whether a crew holds the slot of a vector pipe. -/
def State.owner (s : State) (key : Nat) : Bool := (s.core (coreOf key)).pipes.any fun x => x.2 = key

/-- A crew leaves its pipe's slot; its place in the run is kept (spec/01 R18). -/
def State.leavePipe (s : State) (key : Nat) : State :=
  let s := s.modCore (coreOf key) fun c => { c with pipes := c.pipes.filter fun x => x.2 != key }
  if s.cur = some key then { s with cur := none } else s

/-- Ends the run of a crew: the pipe's slot is free, and an end by another cause than RE is counted (spec/01 R18, spec/15
Table 15-5, log 8). A crew that is not ready at once is ready when its hold ends; one with a YL takes this cycle (spec/15 R259). -/
def State.endRun (s : State) (key : Nat) (re : Bool) : State :=
  let now := s.cycles key
  let s := if re || !s.owner key then s else s.countCycles (coreOf key) 0 1
  (s.modCrew key fun c =>
    { c with runPos := 0, yields := false, wonAt := now
             readyAt := if now < c.holdUntil then c.holdUntil else if c.yields then now else c.readyAt }).leavePipe key

/-- The other crews of a party stop at their next issue slot (spec/13 R234). -/
def State.haltParty (s : State) (party : Nat) : State :=
  let crews := s.crews.map fun x =>
    if x.2.party = party && x.2.role.isSome then (x.1, { x.2 with halted := true }) else x
  let parties := s.parties.map fun x => if x.1 = party then (x.1, { x.2 with stopped := true }) else x
  { s with crews := crews, parties := parties }

/-- A fault of checks 1 to 5 in a privileged agent is a machine check of its core, taken at the next step (spec/01 R22,
spec/13 R239). -/
def State.agentCheck (s : State) (key : Nat) (r : Report) : State :=
  let s := s.modCrew key fun c => { c with report := some { r with cause := 0x1F, sub := 3, pc := c.pc } }
  { s.endRun key false with agenda := .coreFailure (coreOf key) :: s.agenda }

/-- A crew no longer waits at any ring of its party. -/
def State.leaveRings (s : State) (key : Nat) : State :=
  let c := s.crew key
  if ((s.party c.party).rings.all fun x => x.2.prodQ.isEmpty && x.2.consQ.isEmpty) then s
  else s.modParty c.party fun p => { p with rings := p.rings.map fun x =>
    (x.1, { x.2 with prodQ := x.2.prodQ.filter fun i => i != c.idx, consQ := x.2.consQ.filter fun i => i != c.idx }) }

/-- The one entry of every fault and trap: the report is queued to the core's firmware agent and wakes it with code 6,
the crew stops, the other crews of its party stop at their next issue slot, and a translation fault stalls the core
(spec/13 R231, R232, R234). The crew keeps its PC. A privileged agent reports the faults of check 6 in the same way; its
translations stall nobody. -/
def State.takeFault (s : State) (key : Nat) (r : Report) : State :=
  let c := s.crew key
  let core := coreOf key
  let r := { s.fillReport key c r with tick := s.meridian }
  let s := (s.leaveRings key).haltParty c.party
  let s := s.modCrew key fun c =>
    { c with report := some r, halted := true, wait := none, stall := none, phase := 0, reply := none }
  let s := s.modCore core fun x =>
    { x with reports := x.reports ++ [(key, r)],
             stallers := if r.cause = 0x05 && r.eng = 0 && c.role.isSome then x.stallers ++ [key] else x.stallers }
  (s.signalWake core 6).endRun key false

/-- The entry of a trap that an operation meets while its party drains for a pre-emption: the crew is saved stopped, with its report in
place (spec/13 R240). -/
def State.keepFault (s : State) (key : Nat) (r : Report) : State :=
  let r := { s.fillReport key (s.crew key) r with tick := s.meridian }
  (s.modCrew key fun c =>
    { c with report := some r, halted := true, wait := none, stall := none, phase := 0, reply := none }).endRun key false

/-- Forgets the failed walks of a crew once its fault has been serviced (spec/13 R224). -/
def State.dropWalks (s : State) (key : Nat) : State :=
  s.modDie (dieOfCore (coreOf (askedFor key))) fun x => { x with walks := x.walks.filter fun w => !(w.crew = key && w.failed.isSome) }

/-- A party goes on: none of its crews is halted any more, but for those that hold a report of their own (spec/10
R193). -/
def State.resumeParty (s : State) (party : Nat) : State :=
  let crews := s.crews.map fun x =>
    if x.2.party = party && x.2.role.isSome && x.2.report.isNone then
      (x.1, if x.2.halted then { x.2 with halted := false, wait := none, readyAt := s.cycles x.1 } else x.2)
    else x
  let parties := s.parties.map fun x => if x.1 = party then (x.1, { x.2 with stopped := false, preempted := false }) else x
  { s with crews := crews, parties := parties }

/-- A crew that a fault stall or a budget hold has held is ready from now on, unless it waits for something else; the stall that the
hold was has ended (spec/15 R259). -/
def Crew.freed (c : Crew) (now : Nat) : Crew :=
  if c.role.isNone || c.wait.isSome || c.halted then c
  else if c.stall = some .hold then { c with readyAt := max now c.holdUntil, stall := none, cut := false }
  else { c with readyAt := max now c.holdUntil }

/-- The user crews of a core, which a fault stall has held, are ready from now on (spec/15 R259). -/
def State.stallOver (s : State) (core : Nat) : State :=
  if (s.core core).stallers.isEmpty then
    { s with crews := s.crews.map fun x => (x.1, if coreOf x.1 = core then x.2.freed (s.cycles x.1) else x.2) }
  else s

/-! ## Outstanding counters and the return from a fault (spec/05 R113, spec/13 R234) -/

/-- The machine check of a lost die or link, with the address of the data (spec/13 R239, Table 13-3). -/
def lostReport (eng : BitVec 4) (addr : DWord) : Report := { cause := 0x1F, sub := 2, eng := eng, addr := addr }

/-- The report of an access whose walk has failed: a translation fault with its subcause and HM bit (spec/13 Table 13-1), or the
machine check of a table that no port reaches (log 75). -/
def transReport (sub : BitVec 8) (hm : Bool) (addr : DWord) (eng : BitVec 4) (need : Need) : Report :=
  if sub = walkLost then lostReport eng addr
  else { cause := 0x05, sub := sub, eng := eng, addr := addr, d1 := boolWord hm, need := need }

/-- The fault that an operation of L or S leaves for a WAITC once it has left its counter: it was lost (spec/13 R239), or met
uncorrectable data at a service crew (spec/06 R128). -/
def MemPend.deferred (cls : Cls) (m : MemPend) : Option (Cls × Report) :=
  match m.fault, cls, m.bad with
  | some r, _, _ => some (cls, r)
  | none, .s, some a => some (cls, { cause := 0x1F, addr := a, eng := 7 })
  | _, _, _ => none
def deferredMem (cls : Cls) (l : List MemPend) : List (Cls × Report) := (l.takeWhile fun m => m.done).filterMap (MemPend.deferred cls)

/-- Completions drop in issue order: the oldest operations that are done leave, and the faults of those that were
abandoned are kept for the WAITC or EXIT that raises them (spec/05 R112, R113). -/
def Crew.dropOps (c : Crew) : Crew :=
  { c with
    deferred := c.deferred ++ deferredMem .l c.loads ++ deferredMem .s c.stores
      ++ (c.cops.takeWhile fun o => o.done).filterMap (fun o => o.fault.map fun r => (Cls.c, r))
      ++ (c.tops.takeWhile fun o => o.done).filterMap (fun o => o.fault.map fun r => (Cls.t, r))
    loads := c.loads.dropWhile fun m => m.done
    stores := c.stores.dropWhile fun m => m.done
    cops := c.cops.dropWhile fun o => o.done
    tops := c.tops.dropWhile fun o => o.done }

/-- The return from a fault or trap (spec/10 R193, spec/13 R234): the crew resumes at a PC, with the traps of its next
instruction ignored or its region's index restored as HOW says, and its party with it; the fault stall ends. Slots that
abandoned copies left PEND return to HELD (spec/08 R159). A tile operation that has trapped goes on with its traps ignored
when the crew retries it, as a new operation of the core's order, and is left undone otherwise (spec/09 R172, R177, spec/20 R308;
log 42). A drawn ticket goes with its TICKET (spec/06 R127), and the host's answer about the fault with the fault (spec/13 R231). -/
def State.resumeCrew (s : State) (key : Nat) (how : FretHow) (pc : DWord) : State :=
  let c := s.crew key
  let s := s.modParty c.party fun p => c.stuckSlots.foldl (fun p (r : Nat × Nat) =>
    { p with rings := match Tbl.get? p.rings r.1 with
        | some g => Tbl.set p.rings r.1
            { g with slots := (upto 0 g.slots.length).map fun i =>
                let x := g.slots.getD i {}
                if i = r.2 && x.st = .pend then { x with st := .held } else x }
        | none => p.rings }) p
  let again (o : TPend) : Bool := how = .retry && match o.kind with | .octet .. => false | _ => true
  let stopped (o : TPend) : Bool := o.fault.isSome && !o.done
  let tops := c.tops.map fun (o : TPend) =>
    if !stopped o then o
    else if again o then { o with fault := none, armed := false, order := (s.die (dieOfCore (coreOf key))).tileOrder }
    else { o with fault := none, done := true, link := none }
  let link := if how = .retry then (c.tops.find? fun o => stopped o && !again o).bind (·.link) else none
  let carried := c.tops.any fun o => stopped o && again o
  let s := if carried then s.modDie (dieOfCore (coreOf key)) fun x => { x with tileOrder := x.tileOrder + 1 } else s
  let kept : Bool := match how with | .pc => pc = c.pc | .retry => !carried | _ => false
  let s := s.modCrew key fun c => Crew.dropOps
    { c with report := none, halted := false, wait := none, phase := 0, reply := none, tops := tops, stuckSlots := [],
             readyAt := s.cycles key, stall := none, ticket := if kept then c.ticket else none,
             tlink := c.tlink <|> link,
             pc := match how with | .pc => pc | .retry => if carried then c.pc + 12 else c.pc | _ => c.epc,
             ignoreTraps := how = .retry && !carried,
             inRegion := match how with | .region => true | _ => c.inRegion,
             dix := match how with | .region => c.epcDix | _ => c.dix }
  let s := s.modCore (coreOf key) fun x =>
    { x with stallers := x.stallers.filter (· != key), reports := x.reports.filter fun y => y.1 != key
             hostAsk := x.hostAsk.filter fun y => y.1 != key }
  (((s.dropWalks key).stallOver (coreOf key)).resumeParty c.party).wakeCrews

/-! ## The interlock (spec/05 R98) -/

/-- The registers of an operand of `n` registers. -/
def operandRegs (o : Operand) (n : Nat) : List (Bool × Nat) :=
  match o with
  | .v i => (upto i.toNat n).map fun r => (true, r)
  | .s i => (upto i.toNat n).map fun r => (false, r)
  | _ => []

def MemPend.regs (m : MemPend) : List (Bool × Nat) := m.dsts.flatMap fun o => operandRegs o m.wide

/-- The registers that pending operations will still write. -/
def Crew.pendingRegs (c : Crew) : List (Bool × Nat) :=
  (c.loads ++ c.stores).flatMap (fun m => if m.done then [] else m.regs) ++
    c.tops.flatMap fun t => match t.kind with
      | .octet d _ _ n .. => if t.done then [] else (upto d n).map fun r => (true, r)
      | _ => []

/-- Whether an instruction reads or writes a register that a pending operation will write. -/
def Crew.interlocked (c : Crew) (i : Instr) : Bool :=
  let p := c.pendingRegs
  if p.isEmpty then false
  else i.uses.any fun u => (operandRegs u.operand.1 u.operand.2).any fun r => p.contains r

/-- The uncorrectable data that an operation left in place of a register that this instruction would read (spec/05
R115). R115 does not say whether an instruction reads a register in lanes where it does not execute, nor whether a register that another
instruction than a load has written since still holds that data: here it reads whatever its mask is, and only the binding of a later load
takes the words from the data (DESIGN CHOICE, log 78). -/
def Crew.poisoned (c : Crew) (i : Instr) : Option Poison :=
  if c.poison.isEmpty then none
  else
    let reads := i.uses.filter fun u => match u with | .dst .. | .dstS .. | .dstAny .. | .dstP .. | .vdst .. => false | _ => true
    c.poison.find? fun p => reads.any fun u => (operandRegs u.operand.1 u.operand.2).any fun r => p.words.any fun w => r = (w.1, w.2.1)

/-! ## Issue -/

/-- How one issue of an instruction ends: it is done and the crew goes on at PC + 12; it has moved the PC; it waits and
is issued again; or it traps, with no effect or with the one the state shows. -/
inductive Issue where
  | done (s : State)
  | jump (s : State)
  | wait (w : Wait) (s : State)
  | trap (r : Report)
  | trapAt (s : State) (r : Report)
deriving DecidableEq, Repr

/-- The crew's instruction does not issue now: it waits, inside its run or not. -/
def State.stalled (s : State) (key : Nat) (w : Wait) : State :=
  s.modCrew key fun c => { c with wait := some w, stall := some w, stallAt := if c.stall.isSome then c.stallAt else s.cycles key }

/-- Whether an armed operation holds the issue of a crew (spec/09 R177). -/
def Crew.armedHold (c : Crew) : Bool := c.tops.any fun t => t.armed && !t.done

/-- After an instruction: its progress is forgotten, a region that it ends is over, and the run goes on or ends
(spec/01 R17, R18, spec/13 R228). A crew under an ST hold is ready when the hold ends (spec/15 R259). A die that has no clock yet holds
nobody. -/
def State.retire (s : State) (key : Nat) (f : Ctl) (moved : Bool) : State :=
  let hold := if f.st = 0 || (s.die (dieOfCore (coreOf key))).freqs.isEmpty then 0 else s.cycles key + f.st.toNat
  let s := s.modCrew key fun c =>
    { c with phase := 0, aux := 0, reply := none, wait := none, stall := none, cut := false, ignoreTraps := false, restart := false,
             runPos := c.runPos + 1,
             inRegion := c.inRegion && !(f.re && !f.ie), yields := c.yields || f.yl,
             holdUntil := hold, readyAt := if hold = 0 then c.readyAt else hold }
  if f.re || moved || (s.crew key).runPos ≥ Config.runLength then s.endRun key f.re else s

/-- The next instruction of the crew stands at PC + 12 (spec/01 R10). -/
def State.advance (s : State) (key : Nat) : State := s.modCrew key fun c => { c with pc := c.pc + 12 }

/-- Whether an agent or a crew of a role may issue (spec/01 R20, R21): the fault that it raises otherwise. -/
def roleFault (r : Roles) (role : Option Role) : Option (BitVec 8) :=
  match role with
  | none => if r.priv then none else some 0x03
  | some x =>
    if !r.copy && !r.tile && !r.vec then some 0x02
    else match x with
      | .copy => if r.copy then none else some 0x03
      | .tile => if r.tile then none else some 0x03
      | .vec => if r.vec then none else some 0x03

/-- The instructions that access memory: they wait for an older acquire (spec/05 R100). -/
def Instr.touchesMemory : Instr → Bool
  | .ld .. | .st .. | .pref .. | .lds .. | .sts .. | .ldr .. | .str .. | .ldw .. | .fence .. | .cflush .. | .atom ..
  | .atoms .. | .red .. | .fred .. | .sigset .. | .sigadd .. | .sigwait .. | .ticket .. | .tkserve .. | .tshape .. | .tcopy ..
  | .pedcmp .. | .vfin .. | .spawn .. | .spawnr .. | .join .. | .barp .. | .barc .. | .arrive .. | .ringputPub ..
  | .ringgetRel .. | .trigger .. | .tmma .. | .tmmae .. | .tmmag .. | .tload .. | .tdrain .. | .tdrainl .. | .ommv ..
  | .ommve .. | .tcopyx .. | .cstart .. | .agate .. | .amap .. | .amapRd .. | .aswap .. | .anorm .. | .ctxsave ..
  | .ctxload .. | .sigraise .. => true
  | _ => false

/-- The guard and the hints of an instruction. -/
def Instr.hints (i : Instr) : Ctl := i.ctl?.getD ⟨false, 7, false, false, 0, false, 0⟩

/-- The state in which an issued instruction acts: one with IE has entered its region (spec/13 R230). -/
def State.entered (s : State) (key : Nat) (f : Ctl) : State :=
  if f.ie then
    s.setCrew key { s.crew key with inRegion := true, epc := (s.crew key).pc, epcDix := (s.crew key).dix }
  else s

/-- Whether an instruction is the rejected word, which decode hands on with its fault. -/
def Instr.isRejected : Instr → Bool | .illegalInstruction _ => true | _ => false

/-- Whether a load of an idempotent region still waits for its translation (spec/13 R228). -/
def Crew.walking (c : Crew) : Bool := c.loads.any fun m => m.req.isSome && m.region

/-- What holds an instruction before it may act: an armed operation (spec/09 R177), loads of a region that is over (spec/13
R228), the interlock (spec/05 R98), an older acquire (R100). -/
def Crew.heldBy (c : Crew) (i : Instr) : Option Wait :=
  if c.armedHold then some .armed
  else if c.walking && (!c.inRegion || (Instr.hints i).ie) then some .region
  else if c.interlocked i then some .interlock
  else if Instr.touchesMemory i && c.loads.any fun m => m.acq && !m.done then some .acquire
  else none

/-- A fault of a crew's instruction: it waits for an armed operation, whose trap comes first (spec/09 R177), and for older loads of
the region, whose own fault comes first (spec/13 R228). -/
def State.raise (s : State) (key : Nat) (r : Report) (checked : Bool) : State :=
  if (s.crew key).armedHold then s.stalled key .armed
  else if (s.crew key).walking then s.stalled key .region
  else if checked && (s.crew key).role.isNone then s.agentCheck key r
  else s.takeFault key r

/-- An instruction that waits has not been issued: its crew has entered no region (spec/13 R230). -/
def Crew.notEntered (c old : Crew) : Crew := { c with inRegion := old.inRegion, epc := old.epc, epcDix := old.epcDix }

/-- The frame of every instruction: the crew that issues, the checks of role and privilege (spec/01 R22), what holds it,
data that it may not read (spec/05 R115), the entry of an idempotent region (spec/13 R230), then the instruction
itself. -/
def issue (i : Instr) (s : State) (body : State → Nat → Crew → Issue) : Host.Outcome State Fault Refusal :=
  match s.cur with
  | none => .fault .noCrew
  | some key =>
    let c := s.crew key
    let f := Instr.hints i
    match roleFault i.roles c.role with
    | some cause => .next (s.raise key { cause := cause } true)
    | none =>
      match c.heldBy i with
      | some w => .next (s.stalled key w)
      | none =>
        match c.poisoned i with
        | some p =>
          .next (if c.walking then s.stalled key .region
                 else (s.modCrew key fun c => { c with poison := c.poison.erase p }).takeFault key p.rep)
        | none =>
          let u := s.entered key f
          match body u key (u.crew key) with
          | .done t => .next ((t.advance key).retire key f false)
          | .jump t => .next (t.retire key f true)
          | .wait w t => .next ((t.modCrew key fun x => x.notEntered c).stalled key w)
          | .trap r => .next (u.raise key r (Instr.isRejected i))
          | .trapAt t r => .next (if c.walking then s.stalled key .region else t.takeFault key r)

end Sys2Proof.Machine
end

