-- ==== Sys2Proof/Machine/Digest.lean ====
section
/-! DEFINITION. SHA-512, which the spec names for every signature (spec/00 Table 0-1, spec/26 R346, spec/27 R362, R369) and
does not define: the Secure Hash Standard, FIPS 180-4 (PRESUMED, log 20). -/
namespace Sys2Proof.Machine

/-- The greatest number below 2^n, added to `r`, whose `k`-th power does not pass `x`. -/
def rootBits (k x : Nat) : Nat → Nat → Nat
  | 0, r => r
  | n + 1, r => rootBits k x n (if (r + 2 ^ n) ^ k ≤ x then r + 2 ^ n else r)

/-- The first 80 primes. -/
def shaPrimes : List Nat := (upto 2 408).filter fun n => (upto 2 (n - 2)).all fun d => n % d != 0

/-- The round constants: the first 64 bits of the fractions of the primes' cube roots. -/
def shaRounds : List DWord := shaPrimes.map fun p => BitVec.ofNat 64 (rootBits 3 (p * 2 ^ 192) 68 0)

/-- The eight working words. -/
structure ShaState where
  a : DWord
  b : DWord
  c : DWord
  d : DWord
  e : DWord
  f : DWord
  g : DWord
  h : DWord
deriving DecidableEq, Repr

/-- The first 64 bits of the fraction of the square root of a prime. -/
def shaStart (p : Nat) : DWord := BitVec.ofNat 64 (rootBits 2 (p * 2 ^ 128) 68 0)

def ShaState.first : ShaState :=
  { a := shaStart 2, b := shaStart 3, c := shaStart 5, d := shaStart 7, e := shaStart 11, f := shaStart 13, g := shaStart 17,
    h := shaStart 19 }

def rot3 (x : DWord) (i j k : Nat) : DWord := x.rotateRight i ^^^ x.rotateRight j ^^^ x.rotateRight k
def rotShift (x : DWord) (i j k : Nat) : DWord := x.rotateRight i ^^^ x.rotateRight j ^^^ (x >>> k)

/-- One round with the constant and the message word added. -/
def ShaState.round (s : ShaState) (x : DWord) : ShaState :=
  let t := s.h + rot3 s.e 14 18 41 + ((s.e &&& s.f) ^^^ (~~~s.e &&& s.g)) + x
  let m := rot3 s.a 28 34 39 + ((s.a &&& s.b) ^^^ (s.a &&& s.c) ^^^ (s.b &&& s.c))
  { a := t + m, b := s.a, c := s.b, d := s.c, e := s.d + t, f := s.e, g := s.f, h := s.g }

/-- The message words of a block, the latest first: each new one is made of four of the sixteen before it. -/
def shaExpand : Nat → List DWord → List DWord
  | 0, ws => ws
  | n + 1, ws =>
    shaExpand n ((rotShift (ws.getD 1 0) 19 61 6 + ws.getD 6 0 + rotShift (ws.getD 14 0) 1 8 7 + ws.getD 15 0) :: ws)

def shaWord (bs : List Byte) : DWord := bs.foldl (fun a b => (a <<< 8) ||| b.setWidth 64) 0

/-- A block of 128 bytes. -/
def ShaState.block (s : ShaState) (bs : List Byte) : ShaState :=
  let ws := (shaExpand 64 ((upto 0 16).map fun i => shaWord ((bs.drop (8 * i)).take 8)).reverse).reverse
  let t := (List.zipWith (· + ·) shaRounds ws).foldl ShaState.round s
  { a := s.a + t.a, b := s.b + t.b, c := s.c + t.c, d := s.d + t.d, e := s.e + t.e, f := s.f + t.f, g := s.g + t.g, h := s.h + t.h }

def shaPad (bs : List Byte) : List Byte :=
  bs ++ [0x80] ++ List.replicate ((239 - bs.length % 128) % 128) 0 ++ (toBytesLE 16 (8 * bs.length)).reverse

def shaBlocks : Nat → List Byte → ShaState → ShaState
  | 0, _, s => s
  | n + 1, bs, s => shaBlocks n (bs.drop 128) (s.block (bs.take 128))

/-- The digest, its first byte the most significant. -/
def sha512 (bs : List Byte) : BitVec 512 :=
  let p := shaPad bs
  let s := shaBlocks (p.length / 128) p .first
  s.a ++ s.b ++ s.c ++ s.d ++ s.e ++ s.f ++ s.g ++ s.h

end Sys2Proof.Machine
end

