-- ==== Sys2Proof/Machine/Operands.lean ====
section
/-! DEFINITION. Operand forms: reading a source in a lane and writing a destination (spec/01 R13-R15, spec/04 R62,
R63). -/
namespace Sys2Proof.Machine

/-- The value of a special register for a lane, Table 1-3 (spec/01 R14). -/
def State.special (s : State) (key : Nat) (c : Crew) (x : Special) (lane : Nat) : DWord :=
  let core := coreOf key
  match x with
  | .lane => (BitVec.ofNat 32 lane).setWidth 64
  | .crew => (BitVec.ofNat 32 c.idx).setWidth 64
  | .party => (BitVec.ofNat 32 (s.party c.party).number).setWidth 64
  | .task => c.task.setWidth 64
  | .ped => 0
  | .peddig => pedDigest c.ped c.task
  | .dix => c.dix.setWidth 64
  | .seed => c.seed
  | .fmt => c.fmt.setWidth 64
  | .rbase => (BitVec.ofNat 32 c.rbase).setWidth 64
  | .regc => (BitVec.ofNat 32 c.regc).setWidth 64
  | .clk => BitVec.ofNat 64 (s.clk (core / 16))
  | .mer => BitVec.ofNat 64 (s.mer (core / 16))
  | .wake => (s.core core).wake.setWidth 64
  | .die => (BitVec.ofNat 32 (core / 16)).setWidth 64
  | .core => (BitVec.ofNat 32 (core % 16)).setWidth 64
  | .fault => c.fault.setWidth 64

/-- A source operand in a lane: 32 bits zero-extended, or the 64 bits of a wide operand. An immediate is sign-extended
to the operand's width, a predicate reads 0 or 1, a 32-bit special is zero-extended (spec/04 R63, R78). -/
def State.operand (s : State) (key : Nat) (c : Crew) (wide : Bool) (o : Operand) (lane : Nat) : DWord :=
  match o with
  | .v i => if wide then c.vPair i.toNat lane else (c.v i.toNat lane).setWidth 64
  | .s i => if wide then c.sPair i.toNat else (c.s i.toNat).setWidth 64
  | .p i => if (c.pred i).getLsbD lane then 1 else 0
  | .sp x => s.special key c x lane
  | .imm i => if wide then i.signExtend 64 else (i.signExtend 32).setWidth 64

/-- The same as a natural number. -/
def State.operandNat (s : State) (key : Nat) (c : Crew) (wide : Bool) (o : Operand) (lane : Nat) : Nat :=
  (s.operand key c wide o lane).toNat

/-- A uniform operand of a crew: it is the same in every lane (spec/01 R15). -/
def State.uni (s : State) (key : Nat) (c : Crew) (wide : Bool) (o : Operand) : DWord := s.operand key c wide o 0

/-- Writes one lane register or pair. -/
def Crew.writeV (c : Crew) (wide : Bool) (reg lane : Nat) (x : DWord) : Crew :=
  let c := c.setV reg lane (x.extractLsb' 0 32)
  if wide then c.setV (reg + 1) lane (x.extractLsb' 32 32) else c

def Crew.writeS (c : Crew) (wide : Bool) (reg : Nat) (x : DWord) : Crew :=
  if wide then c.setSPair reg x else c.setS reg (x.extractLsb' 0 32)

/-- The mask of the lanes of a list that satisfy a test. -/
def maskOf (lanes : List Nat) (p : Nat → Bool) : Mask :=
  lanes.foldl (fun m l => if p l then m ||| BitVec.shiftLeft 1 l else m) 0

/-- Writes a destination in the lanes of the effective mask: a v register in each lane; an s register once, when the
mask is not empty; a predicate from the values that are not zero (spec/04 R62, R78). -/
def Crew.writeDst (c : Crew) (wide : Bool) (d : Operand) (lanes : List Nat) (val : Nat → DWord) : Crew :=
  match d with
  | .v i => lanes.foldl (fun c l => c.writeV wide i.toNat l (val l)) c
  | .s i => match lanes with | [] => c | l :: _ => c.writeS wide i.toNat (val l)
  | .p i => c.setPred i (maskOf lanes fun _ => true) (maskOf lanes fun l => val l != 0)
  | _ => c

/-- The frame of an instruction that computes one value for each lane (spec/04 R62): every source is read before the
destination is written. -/
def lanewise (i : Instr) (f : Ctl) (wide : Bool) (d : Operand) (s : State)
    (val : State → Nat → Crew → Nat → DWord) : Host.Outcome State Fault Refusal :=
  issue i s fun s key c => .done (s.setCrew key (c.writeDst wide d (c.effLanes f) (val s key c)))

/-- One source, two and three sources of width w, as natural numbers. -/
def unary (i : Instr) (f : Ctl) (sz : Bool) (d a : Operand) (s : State) (g : Nat → Nat → Nat) :
    Host.Outcome State Fault Refusal :=
  lanewise i f sz d s fun s key c l =>
    BitVec.ofNat 64 (g (if sz then 64 else 32) (s.operandNat key c sz a l))

def binary (i : Instr) (f : Ctl) (sz : Bool) (d a b : Operand) (s : State) (g : Nat → Nat → Nat → Nat) :
    Host.Outcome State Fault Refusal :=
  lanewise i f sz d s fun s key c l =>
    BitVec.ofNat 64 (g (if sz then 64 else 32) (s.operandNat key c sz a l) (s.operandNat key c sz b l))

def ternary (i : Instr) (f : Ctl) (sz : Bool) (d a b e : Operand) (s : State) (g : Nat → Nat → Nat → Nat → Nat) :
    Host.Outcome State Fault Refusal :=
  lanewise i f sz d s fun s key c l =>
    BitVec.ofNat 64 (g (if sz then 64 else 32) (s.operandNat key c sz a l) (s.operandNat key c sz b l)
      (s.operandNat key c sz e l))

/-- The frame of an instruction that computes one uniform value over the effective lanes (spec/01 R15). -/
def uniform (i : Instr) (f : Ctl) (wide : Bool) (d : Operand) (s : State)
    (val : State → Nat → Crew → List Nat → DWord) : Host.Outcome State Fault Refusal :=
  issue i s fun s key c =>
    let lanes := c.effLanes f
    let x := val s key c lanes
    .done (s.setCrew key (c.writeDst wide d lanes fun _ => x))

/-- The frame of an instruction that acts once per crew, when its effective mask is not empty (spec/01 R12). -/
def once (i : Instr) (f : Ctl) (s : State) (body : State → Nat → Crew → Issue) : Host.Outcome State Fault Refusal :=
  issue i s fun s key c => if c.eff f = 0 then .done s else body s key c

end Sys2Proof.Machine
end

