-- ==== Sys2Proof/Machine/Flags.lean ====
section
/-! DEFINITION. Conditions and classes: the comparisons that write predicates, the FP class word, the fields of %FMT, and
the non-finite traps with the lane fields of their report (spec/03 R47, spec/04 R71, spec/07 R131-R135). -/
namespace Sys2Proof.Machine

/-- The integer that w bits stand for, unsigned or signed (spec/04 R63). -/
def intOf (u : Bool) (w x : Nat) : Int := if u then (x % 2 ^ w : Nat) else toSigned w x

/-- An integer comparison (spec/04 R71). -/
def ICond.holds (cc : ICond) (a b : Int) : Bool :=
  match cc with
  | .eq => a = b | .ne => a ≠ b | .lt => a < b | .le => a ≤ b | .gt => a > b | .ge => a ≥ b

/-- The combination of a comparison with predicate E in a lane (spec/04 R71). -/
def Comb.apply (cb : Comb) (c : Crew) (lane : Nat) (x : Bool) : Bool :=
  let e (o : Operand) : Bool := match o with | .p i => (c.pred i).getLsbD lane | _ => false
  match cb with
  | .none => x | .and o => x && e o | .or o => x || e o | .xor o => x != e o

/-- A floating-point comparison: with a NaN only `.ne` and `.nan` hold (spec/07 R134). -/
def FCond.holds (cc : FCond) (a b : Num) : Bool :=
  let un := a.isNan || b.isNan
  match cc with
  | .eq => !un && Num.eq a b
  | .ne => un || !Num.eq a b
  | .lt => !un && Num.lt a b
  | .le => !un && !Num.lt b a
  | .gt => !un && Num.lt b a
  | .ge => !un && !Num.lt a b
  | .num => !un
  | .nan => un

/-- The one-hot class word of an FP32 pattern (spec/07 R135). -/
def classWord (x : Nat) : Nat :=
  let sub := x / 2 ^ 23 % 256 = 0
  match fp32.decode x with
  | .nan _ _ q => if q then 0x200 else 0x100
  | .inf n => if n then 1 else 0x80
  | .fin n m _ => if m = 0 then (if n then 8 else 0x10) else if sub then (if n then 4 else 0x20) else if n then 2 else 0x40

/-! ## The fields of %FMT, Table 3-4 -/

def fmtAF (x : Word) : Nat := (x.extractLsb' 0 4).toNat
def fmtBF (x : Word) : Nat := (x.extractLsb' 4 4).toNat
def fmtOF (x : Word) : Nat := (x.extractLsb' 8 4).toNat
def fmtRM (x : Word) : Mode :=
  match (x.extractLsb' 12 3).toNat with | 0 => .rne | 1 => .rtz | 2 => .rup | 3 => .rdn | _ => .rto
def fmtFZ (x : Word) : Bool := x.getLsbD 15
def fmtCN (x : Word) : Bool := x.getLsbD 16
def fmtSAT (x : Word) : Bool := x.getLsbD 17
def fmtNTE (x : Word) : Bool := x.getLsbD 18
def fmtITE (x : Word) : Bool := x.getLsbD 19
def fmtSRE (x : Word) : Bool := x.getLsbD 20

/-- The environment of a rounding under %FMT with a given mode. -/
def fmtEnv (x : Word) (m : Mode) : FEnv := { mode := m, fz := fmtFZ x, cn := fmtCN x, sat := fmtSAT x }

/-- Whether RO rounds stochastically (spec/07 R130). -/
def RO.stochastic (ro : RO) (fmt : Word) : Bool :=
  match ro with | .fmt => fmtSRE fmt | .rs => true | _ => false

/-- The rounding mode of RO, given the random bits of the lane (spec/07 Table 7-1). -/
def RO.mode (ro : RO) (fmt : Word) (u : Nat) : Mode :=
  if RO.stochastic ro fmt then .stoch u
  else match ro with
    | .rne => .rne | .rtz => .rtz | .rup => .rup | .rdn => .rdn | .rto => .rto
    | _ => fmtRM fmt

/-! ## Non-finite traps -/

/-- The LMASK word and the MORE bit of a report over lanes, for the word that holds lane `low` (spec/13 Table 13-2). -/
def laneFields (lanes : List Nat) (low : Nat) : Word × Bool :=
  ((lanes.filter fun l => l / 32 = low / 32).foldl (fun m l => m ||| BitVec.shiftLeft 1 (l % 32)) 0,
    lanes.any fun l => l / 32 != low / 32)

/-- The result of one lane as the traps see it: whether its result is a NaN or an infinity that its sources are not
(spec/07 R131). -/
structure LaneTrap where
  nan : Bool
  inf : Bool
deriving DecidableEq, Repr

def LaneTrap.of (srcs : List Num) (nanRes infRes : Bool) : LaneTrap :=
  { nan := nanRes && !srcs.any Num.isNan, inf := infRes && !srcs.any Num.isInf }

/-- The numeric trap of a vector instruction, when %FMT arms it and it is not ignored (spec/07 R131). -/
def numericTrap (fmt : Word) (ignore : Bool) (lanes : List Nat) (t : Nat → LaneTrap) : Option Report :=
  if ignore then none
  else
    let nan (l : Nat) : Bool := fmtNTE fmt && (t l).nan
    let inf (l : Nat) : Bool := fmtITE fmt && (t l).inf
    let met := lanes.filter fun l => nan l || inf l
    match lanes.find? nan, lanes.find? inf with
    | some l, _ =>
      let (m, more) := laneFields met l
      some { cause := 0x13, sub := 0, d1 := BitVec.ofNat 32 l, lmask := m, more := more }
    | none, some l =>
      let (m, more) := laneFields met l
      some { cause := 0x13, sub := 1, d1 := BitVec.ofNat 32 l, lmask := m, more := more }
    | none, none => none

end Sys2Proof.Machine
end

