-- ==== Sys2Proof/Machine/Int.lean ====
section
/-! DEFINITION. MAJ 0x01 to 0x0B: integer, logic, bit-field, predicate, lane-exchange and move instructions (spec/04
R64-R82). -/
namespace Sys2Proof.Machine

/-! ## Functions on w-bit values -/

/-- Clamps an exact result to the range of w bits (spec/04 R64). -/
def clampInt (u : Bool) (w : Nat) (x : Int) : Nat :=
  let lo : Int := if u then 0 else -(2 ^ (w - 1) : Nat)
  let hi : Int := if u then (2 ^ w - 1 : Nat) else (2 ^ (w - 1) - 1 : Nat)
  wrapInt w (max lo (min hi x))

/-- The quotient of IDIV: all ones for a zero divisor, else truncated towards zero (spec/04 R65). -/
def divNat (u : Bool) (w a b : Nat) : Nat :=
  if b % 2 ^ w = 0 then 2 ^ w - 1 else wrapInt w ((intOf u w a).tdiv (intOf u w b))

/-- The remainder of IREM: A for a zero divisor (spec/04 R65). -/
def remNat (u : Bool) (w a b : Nat) : Nat :=
  if b % 2 ^ w = 0 then a % 2 ^ w else wrapInt w ((intOf u w a).tmod (intOf u w b))

def sarNat (w a n : Nat) : Nat := wrapInt w (toSigned w a / (2 ^ (min n w) : Nat))
def rotlNat (w a n : Nat) : Nat := let k := n % w; (a * 2 ^ k + a / 2 ^ (w - k)) % 2 ^ w
/-- A funnel shift of A:B (spec/04 Table 4-2). -/
def shfNat (right : Bool) (w a b n : Nat) : Nat :=
  let x := a * 2 ^ w + b
  let k := n % w
  if right then x / 2 ^ k % 2 ^ w else x * 2 ^ k / 2 ^ w % 2 ^ w

/-- The field that position and length name, cut at w; none when it is empty (spec/04 R67). -/
def fieldOf (w pos len : Nat) : Option (Nat × Nat) :=
  if pos ≥ w || len = 0 then none else some (pos, min len (w - pos))

def bfxNat (u : Bool) (w a pos len : Nat) : Nat :=
  match fieldOf w pos len with
  | none => 0
  | some (p, n) =>
    let x := a / 2 ^ p % 2 ^ n
    if u then x else wrapInt w (toSigned n x)

def bfiNat (w a b pos len : Nat) : Nat :=
  match fieldOf w pos len with
  | none => b % 2 ^ w
  | some (p, n) => b % 2 ^ p + a % 2 ^ n * 2 ^ p + b / 2 ^ (p + n) * 2 ^ (p + n)

def popNat (w a : Nat) : Nat := ((upto 0 w).filter fun i => a.testBit i).length
def clzNat (w a : Nat) : Nat := if a % 2 ^ w = 0 then w else w - 1 - Nat.log2 (a % 2 ^ w)
def ctzNat (w a : Nat) : Nat := ((upto 0 w).find? fun i => a.testBit i).getD w
def brevNat (w a : Nat) : Nat :=
  (upto 0 w).foldl (fun x i => if a.testBit i then x + 2 ^ (w - 1 - i) else x) 0

/-- PRMT (spec/04 R69): each selector nibble picks a byte of B:A, or the sign of it. -/
def prmtNat (a b sel : Nat) : Nat :=
  let y := a % 2 ^ 32 + b % 2 ^ 32 * 2 ^ 32
  (upto 0 4).foldl (fun x i =>
    let n := sel / 2 ^ (4 * i) % 16
    let v := y / 2 ^ (8 * (n % 8)) % 256
    let v := if n ≥ 8 then (if v ≥ 128 then 255 else 0) else v
    x + v * 2 ^ (8 * i)) 0

/-- The carry-less product (spec/04 R70). -/
def clmulNat (w a b : Nat) : Nat :=
  (upto 0 w).foldl (fun x i => if b.testBit i then x ^^^ (a % 2 ^ w * 2 ^ i) else x) 0

def IntTy.bits : IntTy → Nat | .s32 | .z32 => 32 | .s8 | .z8 => 8 | .s16 | .z16 => 16 | .s64 | .z64 => 64
def IntTy.signed : IntTy → Bool | .s32 | .s8 | .s16 | .s64 => true | _ => false

/-- I2I (spec/04 R80). -/
def i2iNat (dst src : IntTy) (sat : Bool) (a : Nat) : Nat :=
  let v := intOf (!IntTy.signed src) (IntTy.bits src) a
  let x := if sat then clampInt (!IntTy.signed dst) (IntTy.bits dst) v else wrapInt (IntTy.bits dst) v
  wrapInt 64 (intOf (!IntTy.signed dst) (IntTy.bits dst) x)

/-! ## Integer arithmetic (spec/04 Table 4-1) -/

def execIadd (f : Ctl) (d a b : Operand) (sz : Bool) (s : State) :=
  binary (.iadd f d a b sz) f sz d a b s fun w x y => (x + y) % 2 ^ w
def execIsub (f : Ctl) (d a b : Operand) (sz : Bool) (s : State) :=
  binary (.isub f d a b sz) f sz d a b s fun w x y => wrapInt w ((x : Int) - y)
def execIadd3 (f : Ctl) (d a b e : Operand) (sz : Bool) (s : State) :=
  ternary (.iadd3 f d a b e sz) f sz d a b e s fun w x y z => (x + y + z) % 2 ^ w
def execIaddsat (f : Ctl) (d a b : Operand) (sz u : Bool) (s : State) :=
  binary (.iaddsat f d a b sz u) f sz d a b s fun w x y => clampInt u w (intOf u w x + intOf u w y)
def execIsubsat (f : Ctl) (d a b : Operand) (sz u : Bool) (s : State) :=
  binary (.isubsat f d a b sz u) f sz d a b s fun w x y => clampInt u w (intOf u w x - intOf u w y)
def execIneg (f : Ctl) (d a : Operand) (sz : Bool) (s : State) :=
  unary (.ineg f d a sz) f sz d a s fun w x => wrapInt w (-(toSigned w x))
def execIabs (f : Ctl) (d a : Operand) (sz : Bool) (s : State) :=
  unary (.iabs f d a sz) f sz d a s fun w x => (toSigned w x).natAbs % 2 ^ w
def execImin (f : Ctl) (d a b : Operand) (sz u : Bool) (s : State) :=
  binary (.imin f d a b sz u) f sz d a b s fun w x y => if intOf u w x ≤ intOf u w y then x else y
def execImax (f : Ctl) (d a b : Operand) (sz u : Bool) (s : State) :=
  binary (.imax f d a b sz u) f sz d a b s fun w x y => if intOf u w x ≤ intOf u w y then y else x
def execImul (f : Ctl) (d a b : Operand) (sz u : Bool) (s : State) :=
  binary (.imul f d a b sz u) f sz d a b s fun w x y => wrapInt w (intOf u w x * intOf u w y)
def execImulhi (f : Ctl) (d a b : Operand) (sz u : Bool) (s : State) :=
  binary (.imulhi f d a b sz u) f sz d a b s fun w x y => wrapInt w (intOf u w x * intOf u w y / (2 ^ w : Nat))
def execImad (f : Ctl) (d a b e : Operand) (sz u : Bool) (s : State) :=
  ternary (.imad f d a b e sz u) f sz d a b e s fun w x y z => wrapInt w (intOf u w x * intOf u w y + z)
def execImadw (f : Ctl) (d a b e : Operand) (u : Bool) (s : State) :=
  lanewise (.imadw f d a b e u) f true d s fun s key c l =>
    BitVec.ofNat 64 (wrapInt 64 (intOf u 32 (s.operandNat key c false a l) * intOf u 32 (s.operandNat key c false b l)
      + s.operandNat key c true e l))
def execIdiv (f : Ctl) (d a b : Operand) (sz u : Bool) (s : State) :=
  binary (.idiv f d a b sz u) f sz d a b s (divNat u)
def execIrem (f : Ctl) (d a b : Operand) (sz u : Bool) (s : State) :=
  binary (.irem f d a b sz u) f sz d a b s (remNat u)

/-! ## Logic and shifts (spec/04 Table 4-2) -/

def execAnd (f : Ctl) (d a b : Operand) (sz : Bool) (s : State) :=
  binary (.and f d a b sz) f sz d a b s fun _ x y => x &&& y
def execOr (f : Ctl) (d a b : Operand) (sz : Bool) (s : State) :=
  binary (.or f d a b sz) f sz d a b s fun _ x y => x ||| y
def execXor (f : Ctl) (d a b : Operand) (sz : Bool) (s : State) :=
  binary (.xor f d a b sz) f sz d a b s fun _ x y => x ^^^ y
def execAndn (f : Ctl) (d a b : Operand) (sz : Bool) (s : State) :=
  binary (.andn f d a b sz) f sz d a b s fun w x y => x &&& (2 ^ w - 1 - y % 2 ^ w)
def execOrn (f : Ctl) (d a b : Operand) (sz : Bool) (s : State) :=
  binary (.orn f d a b sz) f sz d a b s fun w x y => x ||| (2 ^ w - 1 - y % 2 ^ w)
def execNot (f : Ctl) (d a : Operand) (sz : Bool) (s : State) :=
  unary (.not f d a sz) f sz d a s fun w x => 2 ^ w - 1 - x % 2 ^ w
def execShl (f : Ctl) (d a b : Operand) (sz : Bool) (s : State) :=
  binary (.shl f d a b sz) f sz d a b s fun w x n => if n ≥ w then 0 else x * 2 ^ n % 2 ^ w
def execShr (f : Ctl) (d a b : Operand) (sz : Bool) (s : State) :=
  binary (.shr f d a b sz) f sz d a b s fun w x n => if n ≥ w then 0 else x / 2 ^ n
def execSar (f : Ctl) (d a b : Operand) (sz : Bool) (s : State) :=
  binary (.sar f d a b sz) f sz d a b s sarNat
def execRotl (f : Ctl) (d a b : Operand) (sz : Bool) (s : State) :=
  binary (.rotl f d a b sz) f sz d a b s rotlNat
def execShf (f : Ctl) (d a b e : Operand) (sz right : Bool) (s : State) :=
  ternary (.shf f d a b e sz right) f sz d a b e s (shfNat right)

/-! ## Bit fields (spec/04 R67-R70) -/

/-- The position and length of a field in a lane: E[7:0] and E[15:8], or the immediates. -/
def FieldSpec.get (p : FieldSpec) (s : State) (key : Nat) (c : Crew) (l : Nat) : Nat × Nat :=
  match p with
  | .reg e => let x := s.operandNat key c false e l; (x % 256, x / 256 % 256)
  | .imm pos len => (pos.toNat, len.toNat)

def execBfx (f : Ctl) (d a : Operand) (p : FieldSpec) (sz u : Bool) (s : State) :=
  lanewise (.bfx f d a p sz u) f sz d s fun s key c l =>
    let q := FieldSpec.get p s key c l
    BitVec.ofNat 64 (bfxNat u (if sz then 64 else 32) (s.operandNat key c sz a l) q.1 q.2)
def execBfi (f : Ctl) (d a b : Operand) (p : FieldSpec) (sz : Bool) (s : State) :=
  lanewise (.bfi f d a b p sz) f sz d s fun s key c l =>
    let q := FieldSpec.get p s key c l
    BitVec.ofNat 64
      (bfiNat (if sz then 64 else 32) (s.operandNat key c sz a l) (s.operandNat key c sz b l) q.1 q.2)
def execPopc (f : Ctl) (d a : Operand) (sz : Bool) (s : State) := unary (.popc f d a sz) f sz d a s popNat
def execClz (f : Ctl) (d a : Operand) (sz : Bool) (s : State) := unary (.clz f d a sz) f sz d a s clzNat
def execCtz (f : Ctl) (d a : Operand) (sz : Bool) (s : State) := unary (.ctz f d a sz) f sz d a s ctzNat
def execBrev (f : Ctl) (d a : Operand) (sz : Bool) (s : State) := unary (.brev f d a sz) f sz d a s brevNat
def execPrmt (f : Ctl) (d a b : Operand) (q : PrmtSel) (s : State) :=
  lanewise (.prmt f d a b q) f false d s fun s key c l =>
    let sl := match q with | .reg e => s.operandNat key c false e l % 2 ^ 16 | .imm x => x.toNat
    BitVec.ofNat 64 (prmtNat (s.operandNat key c false a l) (s.operandNat key c false b l) sl)
def execClmul (f : Ctl) (d a b : Operand) (sz : Bool) (s : State) :=
  binary (.clmul f d a b sz) f sz d a b s fun w x y => clmulNat w x y % 2 ^ w
def execClmulh (f : Ctl) (d a b : Operand) (sz : Bool) (s : State) :=
  binary (.clmulh f d a b sz) f sz d a b s fun w x y => clmulNat w x y / 2 ^ w

/-! ## Compare, predicate and select (spec/04 R71-R73) -/

def execIcmp (f : Ctl) (d a b : Operand) (cc : ICond) (cb : Comb) (sz u : Bool) (s : State) :=
  lanewise (.icmp f d a b cc cb sz u) f false d s fun s key c l =>
    let w := if sz then 64 else 32
    let x := ICond.holds cc (intOf u w (s.operandNat key c sz a l)) (intOf u w (s.operandNat key c sz b l))
    if Comb.apply cb c l x then 1 else 0
def execPand (f : Ctl) (d a b : Operand) (s : State) :=
  lanewise (.pand f d a b) f false d s fun s key c l => s.operand key c false a l &&& s.operand key c false b l
def execPor (f : Ctl) (d a b : Operand) (s : State) :=
  lanewise (.por f d a b) f false d s fun s key c l => s.operand key c false a l ||| s.operand key c false b l
def execPxor (f : Ctl) (d a b : Operand) (s : State) :=
  lanewise (.pxor f d a b) f false d s fun s key c l => s.operand key c false a l ^^^ s.operand key c false b l
def execPnot (f : Ctl) (d a : Operand) (s : State) :=
  lanewise (.pnot f d a) f false d s fun s key c l => s.operand key c false a l ^^^ 1
def execSel (f : Ctl) (d a b e : Operand) (sz : Bool) (s : State) :=
  lanewise (.sel f d a b e sz) f sz d s fun s key c l =>
    if s.operand key c false e l = 1 then s.operand key c sz a l else s.operand key c sz b l

/-! ## Lane exchange (spec/04 R74-R77) -/

/-- VOTE over the effective lanes. -/
def voteVal (s : State) (key : Nat) (c : Crew) (a : Operand) (m : VoteMode) (lanes : List Nat) : DWord :=
  let p (l : Nat) : Bool := s.operand key c false a l = 1
  let bit (x : Bool) : DWord := if x then 1 else 0
  match m with
  | .all => bit (lanes.all p)
  | .any => bit (lanes.any p)
  | .uni => bit (lanes.all p || !lanes.any p)
  | .ballot b =>
    let w := (s.uni key c false b).toNat
    (lanes.filter fun l => l / 32 = w && p l).foldl (fun x l => x ||| BitVec.shiftLeft 1 (l % 32)) 0

def execVote (f : Ctl) (d a : Operand) (m : VoteMode) (s : State) :=
  uniform (.vote f d a m) f false d s fun s key c lanes => voteVal s key c a m lanes

/-- Whether some lane of the slice of a lane has not exited (spec/04 R91). -/
def Crew.sliceLive (c : Crew) (l : Nat) : Bool := (upto (l / 32 * 32) 32).any fun i => c.live.getLsbD i

def execBcast (f : Ctl) (d a b : Operand) (sz : Bool) (s : State) :=
  uniform (.bcast f d a b sz) f sz d s fun s key c _ =>
    let l := (s.uni key c sz b).toNat
    if l < c.lanes && c.sliceLive l then s.operand key c sz a l else 0

def Seg.width : Seg → Nat | .w32 => 32 | .w16 => 16 | .w8 => 8 | .w4 => 4 | .w2 => 2

/-- The source lane of SHFL; none when it is out of range (spec/04 R76). R76 does not say whether B of `.up` and `.down` is signed: it is
unsigned here, as it is of the segment's width, so a B whose top bit is set is out of range (DESIGN CHOICE, log 81). -/
def shflSource (m : ShflMode) (w l b : Nat) : Option Nat :=
  let base := l - l % w
  match m with
  | .idx => some (base + b % w)
  | .up => if l % w < b then none else some (l - b)
  | .down => if l % w + b ≥ w then none else some (l + b)
  | .xor => some (base + ((l % w) ^^^ (b % w)))

def execShfl (f : Ctl) (d a b : Operand) (m : ShflMode) (sg : Seg) (sz : Bool) (s : State) :=
  lanewise (.shfl f d a b m sg sz) f sz d s fun s key c l =>
    match shflSource m (Seg.width sg) l (s.operandNat key c sz b l) with
    | some k => if (c.eff f).getLsbD k then s.operand key c sz a k else s.operand key c sz a l
    | none => s.operand key c sz a l

/-- One step of REDUX, and of an integer atomic of the same operator. -/
def RedOp.apply (op : RedOp) (u : Bool) (w x y : Nat) : Nat :=
  match op with
  | .add => (x + y) % 2 ^ w
  | .min => if intOf u w x ≤ intOf u w y then x else y
  | .max => if intOf u w x ≤ intOf u w y then y else x
  | .and => x &&& y
  | .or => x ||| y
  | .xor => x ^^^ y

def execRedux (f : Ctl) (d a : Operand) (op : RedOp) (sz u : Bool) (s : State) :=
  uniform (.redux f d a op sz u) f sz d s fun s key c lanes =>
    match lanes.map fun l => s.operandNat key c sz a l with
    | [] => 0
    | x :: xs => BitVec.ofNat 64 (xs.foldl (RedOp.apply op u (if sz then 64 else 32)) x)

/-! ## Moves and special registers (spec/04 R78-R82) -/

def execMov (f : Ctl) (d a : Operand) (sz : Bool) (s : State) :=
  lanewise (.mov f d a sz) f sz d s fun s key c l => s.operand key c sz a l
def execMovi (f : Ctl) (d : Operand) (imm : Word) (s : State) :=
  lanewise (.movi f d imm) f false d s fun _ _ _ _ => imm.setWidth 64
def execLea (f : Ctl) (d a b : Operand) (sc : Fin 5) (u : Bool) (ofs : BitVec 20) (s : State) :=
  lanewise (.lea f d a b sc u ofs) f true d s fun s key c l =>
    let x : Word := (s.operand key c false b l).extractLsb' 0 32
    let x : DWord := if u then x.setWidth 64 else x.signExtend 64
    s.operand key c true a l + BitVec.shiftLeft x sc.val + ofs.signExtend 64
def execI2i (f : Ctl) (d a : Operand) (dst src : IntTy) (sat : Bool) (s : State) :=
  lanewise (.i2i f d a dst src sat) f ((IntTy.bits dst) = 64) d s fun s key c l =>
    BitVec.ofNat 64 (i2iNat dst src sat (s.operandNat key c ((IntTy.bits src) = 64) a l))
def execRdsp (f : Ctl) (d a : Operand) (wrap : Bool) (s : State) :=
  lanewise (.rdsp f d a wrap) f (match a with | .sp x => x.wide && !wrap | _ => false) d s fun s key c l =>
    if wrap then (if c.wrapped then 1 else 0) else s.operand key c true a l
def execWrsp (f : Ctl) (a : Operand) (clr : Bool) (s : State) :=
  once (.wrsp f a clr) f s fun s key c =>
    .done (s.setCrew key { c with dix := (s.uni key c true a).extractLsb' 0 40, wrapped := c.wrapped && !clr })

end Sys2Proof.Machine
end

