-- ==== Sys2Proof/Machine/Sync.lean ====
section
/-! DEFINITION. What synchronises crews: the fence, the barriers, the arrival at a barrier object, the outstanding
counters, the end of a crew, and the frame of an event (spec/05 R105, R113, spec/08 R156, R157, spec/04 R91). -/
namespace Sys2Proof.Machine

def Scope.wide (sc : Scope) : Bool := sc = .pkg || sc = .sys

/-- Whether every older load has bound its value. -/
def Crew.loadsBound (c : Crew) : Bool := c.loads.all fun m => m.done

/-- Whether every older ST, STS, STR and CFLUSH has completed at least at die scope, and every older operation of S at a
service crew has been applied (spec/05 R105, spec/12 R216-R218): what then still runs is a completion time to pass or an
acknowledgement. -/
def Crew.storesAtDie (c : Crew) : Bool :=
  c.stores.all fun m => m.done || (m.svc = 0 && (m.ct.isSome || m.ack || !m.bytes.isEmpty))

/-- Whether every store to another package has been acknowledged. -/
def Crew.acked (c : Crew) : Bool := c.stores.all fun m => m.done || !m.ack

/-- One look at a FENCE (spec/05 R105): it passes, with the state it leaves, or the crew waits. Its writeback is made
once, in phase 0, when nothing holds it (spec/18 R287, spec/27 R364). A release by a privileged agent also waits until its stores have been acknowledged by the L2
(spec/12 R204), which they are when they are applied. -/
inductive Passage where
  | pass (s : State)
  | wait (s : State)
deriving DecidableEq, Repr

def State.fence (s : State) (key : Nat) (kind : Order) (sc : Scope) : Passage :=
  let core := coreOf key
  let rel := kind = .rel || kind = .ar
  if !(s.crew key).loadsBound then .wait s
  else if rel && Scope.wide sc && (s.crew key).phase = 0 &&
      (s.dirtyOf core).any (fun x => (s.wayHeld core x.2.home).isSome) then .wait s
  else
    let s :=
      if rel && Scope.wide sc && (s.crew key).phase = 0 then
        let r := (s.charge key 3 ((s.dirtyOf core).map fun x => x.2.dirtyBytes).sum).releaseCore core
        r.1.modCrew key fun c => { c with ct := max c.ct r.2, phase := 1 }
      else s
    let c := s.crew key
    if !c.storesAtDie then .wait s
    else if Scope.wide sc && s.mer (core / 16) ≤ c.ct then .wait s
    else if sc = .sys && !c.acked then .wait s
    else if kind = .acq || kind = .ar then .pass (s.invalidateL1 core)
    else .pass s

/-- The frame of an instruction that first performs a fence: `body` goes on once the fence has passed. -/
def fenced (s : State) (key : Nat) (kind : Order) (sc : Scope) (body : State → Issue) : Issue :=
  match s.fence key kind sc with
  | .wait t => .wait .fence t
  | .pass t => body t

/-! ## Barrier objects (spec/08 R157) -/

/-- An arrival of count `n` on barrier object `id`: none when the object is not initialised or the count is above
PENDING. -/
def Party.arriveObj (p : Party) (id n : Nat) : Option Party :=
  match Tbl.get? p.bars id with
  | none => none
  | some b =>
    if n > b.pending then none
    else if n = b.pending then some { p with bars := Tbl.set p.bars id { b with pending := b.expect, phase := !b.phase } }
    else some { p with bars := Tbl.set p.bars id { b with pending := b.pending - n } }

/-! ## BARP and BARC (spec/08 R143, R156) -/

/-- The lead crew of a task: crew 0 of party 0 (spec/08 R143). -/
def State.isLead (s : State) (c : Crew) : Bool := c.idx = 0 && (s.party c.party).number = 0

/-- The pedigree that the lead crew held when it arrived; one that has ended counts as arrived (spec/08 R143, R156). -/
def State.leadPed (s : State) (crews : List Nat) (arrived : Option (BitVec 512)) : Option (BitVec 512) :=
  arrived <|> (crews.find? fun k => (s.crew k).ended && s.isLead (s.crew k)).map fun k => (s.crew k).ped

/-- Every crew has arrived for the generation; one that has ended counts as arrived. -/
def State.allArrived (s : State) (crews arrived : List Nat) : Bool :=
  !arrived.isEmpty && crews.all fun k => (s.crew k).ended || arrived.contains k

/-- Completes a party's BARP when every crew has arrived: a new generation, and party 0 takes the lead crew's pedigree. -/
def State.barpCheck (s : State) (party : Nat) : State :=
  let p := s.party party
  if s.allArrived p.crews p.arrived then
    let s := (s.setParty party { p with gen := p.gen + 1, arrived := [], arrivedPed := none }).signalWake (party / 16) 2
    match s.leadPed p.crews p.arrivedPed with
    | some ped => p.crews.foldl (fun s k => s.modCrew k fun c => { c with ped := ped }) s
    | none => s
  else s

def State.taskCrews (s : State) (t : Task) : List Nat := t.parties.flatMap fun p => (s.party p).crews

/-- Completes a convoy's BARC: a new generation, and every crew takes the lead crew's pedigree. -/
def State.barcCheck (s : State) (task : Nat) : State :=
  let t := s.task task
  let crews := s.taskCrews t
  if t.away.isEmpty && t.faulted.isNone && s.allArrived crews t.arrived then
    let s := s.setTask task { t with gen := t.gen + 1, arrived := [], arrivedPed := none }
    let s := t.parties.foldl (fun s p => s.signalWake (p / 16) 2) s
    match s.leadPed crews t.arrivedPed with
    | some ped => crews.foldl (fun s k => s.modCrew k fun c => { c with ped := ped }) s
    | none => s
  else s

/-- Whether a crew may issue a lead-only instruction: the lead crew, not of a handler task (spec/08 R143, spec/13
R236). -/
def State.mayLead (s : State) (c : Crew) (handler : Bool) : Bool :=
  c.idx = 0 && (s.party c.party).number = 0 && (handler || (s.task (s.party c.party).task).handlerOf.isNone)

/-! ## Counters at their limit (spec/05 R113) -/

/-- Whether a counter stands at 63 (spec/05 R113). -/
def counterFull (l : List α) : Bool := l.length ≥ 63

def State.dropOps (s : State) (key : Nat) : State :=
  let c := s.crew key
  let c' := c.dropOps
  let s := s.setCrew key c'
  if c'.cops.length < c.cops.length || c'.tops.length < c.tops.length then s.signalWake (coreOf key) 3 else s

/-- A crew with one deferred fault less, and the fault: those kept for a WAITC, those of abandoned operations that older
ones keep in their counters, and uncorrectable data that nothing has read (spec/05 R112, R113, R115). -/
def Crew.lastFault (c : Crew) : Option (Report × Crew) :=
  match c.deferred with
  | (_, r) :: rest => some (r, { c with deferred := rest })
  | [] =>
    match c.cops.find? fun o => o.done && o.fault.isSome with
    | some o => o.fault.map fun r =>
        (r, { c with cops := c.cops.map fun (x : CPend) => if x.id = o.id then { x with fault := none } else x })
    | none =>
      match c.tops.find? fun o => o.done && o.fault.isSome with
      | some o => o.fault.map fun r =>
          (r, { c with tops := c.tops.map fun (x : TPend) => if x.id = o.id then { x with fault := none } else x })
      | none =>
        match (c.loads ++ c.stores).find? fun m => m.done && m.fault.isSome with
        | some m =>
          let told (l : List MemPend) : List MemPend := l.map fun (x : MemPend) => if x.id = m.id then { x with fault := none } else x
          m.fault.map fun r => (r, { c with loads := told c.loads, stores := told c.stores })
        | none =>
          match c.poison with
          | p :: rest => some (p.rep, { c with poison := rest })
          | [] => none

/-- The barrier fault of an arrival (spec/08 R157). -/
def barrierFault (id : Nat) : Report := { cause := 0x1A, d1 := BitVec.ofNat 32 id }

/-- A linked arrival is made: the party's barrier objects after it; a phase that flips wakes the core (spec/09 R172, spec/10 Table
10-6). -/
def State.linkArrives (s : State) (key : Nat) (p : Party) (id : Nat) : State :=
  let c := s.crew key
  let phase (q : Party) : Option Bool := (Tbl.get? q.bars id).map (·.phase)
  let t := s.setParty c.party p
  if phase p = phase (s.party c.party) then t else t.signalWake (coreOf key) 2

/-- The last lanes of a crew have left: it ends once its counters are zero; a deferred fault that no WAITC has raised is
raised at the EXIT, at once when it is there (spec/04 R91, spec/05 R112, R115). A link still pending arrives then, or
raises its barrier fault (spec/09 R172). R91 speaks of crews of tasks: a privileged agent whose last lane has left does not end, and issues
nothing more (DESIGN CHOICE, log 12). -/
def State.crewEnd (s : State) (key : Nat) : State :=
  let c := s.crew key
  if c.role.isNone || c.ended || c.report.isSome || c.live ≠ 0 then s
  else
    match c.lastFault with
    | some (r, c) => (s.setCrew key c).takeFault key { r with df := true }
    | none =>
      if c.loads.isEmpty && c.stores.isEmpty && c.cops.isEmpty && c.tops.isEmpty then
        let party := match c.tlink with
          | some (id, n) => (s.party c.party).arriveObj id n
          | none => some (s.party c.party)
        match party with
        | none =>
          (s.setCrew key { c with tlink := none }).takeFault key { barrierFault (c.tlink.getD (0, 0)).1 with df := true }
        | some p =>
          let s := s.setCrew key { c with ended := true, tlink := none, wait := none, stall := none }
          let s := match c.tlink with | some x => s.linkArrives key p x.1 | none => s
          (s.barpCheck c.party).barcCheck p.task
      else s

def State.crewsEnd (s : State) : State := (s.crews.map (·.1)).foldl State.crewEnd s

/-- The frame of an event: it changes the state, crews whose lanes have left may end, and every crew that stalls inside its run
is judged again. -/
def event (s : State) (f : State → State) : Host.Outcome State Fault Refusal := .next (f s).crewsEnd.wakeCrews

/-- An event that comes over the Ethernet port: there is none while the port is not ready (spec/00 R1, spec/27 Table 27-1). -/
def eventHost (s : State) (f : State → State) : Host.Outcome State Fault Refusal :=
  if s.ready.getLsbD 112 then event s f else .next s

/-- The frame of an event of a die: nothing of a die that relocks moves (spec/18 R286, R287). -/
def eventOn (die : Nat) (s : State) (f : State → State) : Host.Outcome State Fault Refusal :=
  if s.relocking die then .next s else event s f

/-- The frame of an event of a crew's operations. -/
def eventOf (key : Nat) (s : State) (f : State → State) : Host.Outcome State Fault Refusal :=
  eventOn (dieOfCore (coreOf key)) s f

/-- Whether the budget class of a crew's launch is held (spec/15 R264). -/
def State.classHeld (s : State) (key : Nat) : Bool :=
  (s.crew key).role.isSome && s.heldClasses.contains (s.classOf key)

/-- The frame of an engine's event: an engine of a held class starts nothing (spec/15 R264). -/
def engineEvent (key : Nat) (s : State) (f : State → State) : Host.Outcome State Fault Refusal :=
  eventOf key s fun s => if s.classHeld key then s else f s

end Sys2Proof.Machine
end

