-- ==== Sys2Proof/Machine/Pedigree.lean ====
section
/-! DEFINITION. Pedigrees: their order, the serial key, the pedigree table and the race filter Surveyor (spec/08 R148,
R149, spec/16 R266-R271). -/
namespace Sys2Proof.Machine

/-- DEPTH and element i of a pedigree; an element is J << 10 | K (spec/03 Table 3-7). -/
def pedDepth (p : BitVec 512) : Nat := (p.extractLsb' 0 5).toNat
def pedElem (p : BitVec 512) (i : Nat) : Nat := (p.extractLsb' (16 * i) 16).toNat
def elemJ (e : Nat) : Nat := e / 1024
def elemK (e : Nat) : Nat := e % 1024

def setElem (p : BitVec 512) (i e : Nat) : BitVec 512 :=
  (p &&& ~~~(BitVec.shiftLeft 0xFFFF (16 * i))) ||| BitVec.shiftLeft (BitVec.ofNat 512 e) (16 * i)
def setDepth (p : BitVec 512) (d : Nat) : BitVec 512 := (p &&& ~~~31) ||| BitVec.ofNat 512 d
/-- Keeps the elements up to i and the low word's flags. -/
def clearAbove (p : BitVec 512) (i : Nat) : BitVec 512 := BitVec.ofNat 512 (p.toNat % 2 ^ (16 * i + 16))

/-- PedOrder (spec/08 R149) from element i: 0 equal, 1 x precedes, 2 y precedes, 3 parallel. -/
def pedOrderFrom (x y : BitVec 512) : Nat → Nat → Nat
  | 0, _ => if pedDepth x = pedDepth y then 0 else if pedDepth x < pedDepth y then 1 else 2
  | n + 1, i =>
    let a := pedElem x i
    let b := pedElem y i
    if a = b then pedOrderFrom x y n (i + 1)
    else if elemJ a ≠ elemJ b then (if elemJ a < elemJ b then 1 else 2)
    else if i ≤ min (pedDepth x) (pedDepth y) then 3
    else if pedDepth x = pedDepth y then (if elemK a < elemK b then 1 else 2)
    else if pedDepth x < pedDepth y then (if elemK a ≤ elemK b then 1 else 3)
    else (if elemK b ≤ elemK a then 2 else 3)

def pedOrder (x y : BitVec 512) : Nat := pedOrderFrom x y (min (pedDepth x) (pedDepth y) + 1) 1

/-- The serial key of a strand (spec/16 R266). -/
def serialKey (root : Word) (p : BitVec 512) : Nat :=
  ((upto 1 31).foldl (fun k i => k * 2 ^ 16 + pedElem p i) root.toNat) * 32 + pedDepth p

/-! ## The pedigree table (spec/16 R268) -/

/-- An entry is found by its content, a pinned one before those that joins have rewritten to the same strand. -/
def State.findPed (s : State) (launch : Nat) (st : Strand) : Option Nat :=
  let hit (e : Nat × PedEntry) : Bool := e.2.launch = launch && e.2.strand = st
  ((s.pedTable.find? fun e => e.2.pinned && hit e) <|> (s.pedTable.find? hit)).map (·.1)

/-- A new entry of the pedigree table, pinned by a task or by its launch. -/
def State.addPed (s : State) (launch : Nat) (st : Strand) (owner : Option Nat) : State :=
  { s with pedTable := Tbl.set s.pedTable s.nextPed { launch := launch, strand := st, owner := owner }
           nextPed := s.nextPed + 1 }

/-- The handle of a strand: found by its content, or allocated, pinned by a task or by its launch. -/
def State.handleOf (s : State) (launch : Nat) (st : Strand) (owner : Option Nat) : Nat × State :=
  match s.findPed launch st with
  | some h => (h, s)
  | none => (s.nextPed, s.addPed launch st owner)

/-- A new strand of a task begins: it has an entry of its own, pinned until the task completes, beside those that a join has
rewritten to the same strand. -/
def State.beginStrand (s : State) (task : Nat) (ped : BitVec 512) : State :=
  let t := s.task task
  if s.pedTable.any fun e => e.2.launch = t.launch && e.2.strand = .task t.root ped && e.2.owner = some task && e.2.pinned then s
  else s.addPed t.launch (.task t.root ped) (some task)

/-- Frees every entry that is not pinned and that no record names. -/
def State.sweepPeds (s : State) : State :=
  { s with pedTable := s.pedTable.filter fun e => e.2.pinned || s.records.any fun r => r.2.1 = e.1 }

/-- Order of the record's strand and a storing strand (spec/16 R269). -/
def strandOrder (p : Strand) (root : Word) (ped : BitVec 512) : Nat :=
  match p with
  | .launch k => if root ≥ k then 1 else 3
  | .task r q => if r ≠ root then 3 else pedOrder q ped

/-- The nearest common ancestor's strand (spec/16 R269). -/
def nca (p : Strand) (root : Word) (ped : BitVec 512) : Strand :=
  match p with
  | .launch k => .launch (if k ≤ root then k else root)
  | .task r q =>
    if r ≠ root then .launch (if r ≤ root then r else root)
    else
      let i := ((upto 1 31).find? fun i => pedElem q i ≠ pedElem ped i).getD 31
      let n := setDepth (clearAbove q i) (i - 1)
      .task r (setElem n i (elemJ (pedElem q i) * 1024 + min (elemK (pedElem q i)) (elemK (pedElem ped i))))

/-- A conflict that the filter found: the record's strand and the overlapping bytes of the sector. -/
structure Conflict where
  sector : Nat
  strand : Strand
  bytes : Word
deriving DecidableEq, Repr

/-- CheckStore on one sector (spec/16 R269): the new record, or the conflict. -/
def State.checkSector (s : State) (launch task : Nat) (root : Word) (ped : BitVec 512) (sector : Nat) (b : Word) :
    Except Conflict State :=
  let fresh (m : Word) (st : Strand) (s : State) : State :=
    let (h, s) := s.handleOf launch st (match st with | .task .. => some task | .launch _ => none)
    { s with records := Tbl.set s.records sector (h, m) }
  let mine := Strand.task root ped
  match Tbl.get? s.records sector with
  | none => .ok (fresh b mine s)
  | some (h, m) =>
    match Tbl.get? s.pedTable h with
    | none => .ok (fresh b mine s)
    | some e =>
      if m = 0 || e.launch ≠ launch then .ok (fresh b mine s)
      else
        let o := strandOrder e.strand root ped
        if o = 3 && m &&& b ≠ 0 then .error { sector := sector, strand := e.strand, bytes := m &&& b }
        else if o = 3 then .ok (fresh (m ||| b) (nca e.strand root ped) s)
        else if o = 0 then .ok { s with records := Tbl.set s.records sector (h, m ||| b) }
        else if o = 1 then .ok (fresh b mine s)
        else .ok s

/-- The bytes that a store writes, gathered by sector. -/
def addSector : Tbl Word → Nat → Nat → Tbl Word
  | t, pa, n =>
    let sector := pa / 32
    let m : Word := BitVec.ofNat 32 ((2 ^ n - 1) * 2 ^ (pa % 32))
    Tbl.set t sector (((Tbl.get? t sector).getD 0) ||| m)

/-- The check of a whole store: every sector, or the first conflict; a conflict changes no record. -/
def State.checkStore (s : State) (launch task : Nat) (root : Word) (ped : BitVec 512) : Tbl Word → Except Conflict State
  | [] => .ok s
  | (sec, b) :: rest =>
    match s.checkSector launch task root ped sec b with
    | .error c => .error c
    | .ok s => s.checkStore launch task root ped rest

/-- Every conflict of a store. -/
def State.conflicts (s : State) (launch task : Nat) (root : Word) (ped : BitVec 512) (t : Tbl Word) : List Conflict :=
  t.filterMap fun x => match s.checkSector launch task root ped x.1 x.2 with | .error c => some c | .ok _ => none

/-- The lowest byte of a conflict in its sector. -/
def Conflict.low (c : Conflict) : Nat := ((upto 0 32).find? fun i => c.bytes.getLsbD i).getD 0

/-- The race trap of a conflict (spec/13 R235, spec/16 R269). -/
def Conflict.report (c : Conflict) (addr : DWord) (lane : Nat) (lmask : Word) (more : Bool) : Report :=
  { cause := 0x14, addr := addr, d1 := c.bytes, d2 := BitVec.ofNat 32 lane, lmask := lmask, more := more,
    taskr := match c.strand with | .task r _ => r | .launch k => k,
    ped2 := match c.strand with | .task _ p => p | .launch _ => BitVec.allOnes 512 }

/-- A joined child's entries become the joining task's strand, unpinned (spec/16 R268, R270). -/
def State.rewritePeds (s : State) (children : List Nat) (task : Nat) (ped : BitVec 512) : State :=
  let root := (s.task task).root
  let one (e : Nat × PedEntry) : Nat × PedEntry :=
    match e.2.owner with
    | some o =>
      if children.contains o then
        (e.1, { e.2 with strand := .task root ped, owner := some task, pinned := false })
      else e
    | none => e
  { s with pedTable := s.pedTable.map one }.sweepPeds

/-! ## Reading and comparing pedigrees (spec/08 R148, R149) -/

def execPedget (f : Ctl) (d b : Operand) (s : State) :=
  uniform (.pedget f d b) f false d s fun s key c _ =>
    let w := (s.uni key c false b).toNat
    if w < 16 then (c.ped.extractLsb' (32 * w) 32).setWidth 64 else 0

/-- The pedigree image at a scratchpad offset: aligned, and within the allotment. -/
def Party.pedImage (p : Party) (ofs : Nat) : Except Report (BitVec 512) :=
  if ofs % 64 ≠ 0 then .error { cause := 0x07, addr := BitVec.ofNat 64 ofs }
  else if ofs + 64 > p.scratchLen then .error { cause := 0x08, addr := BitVec.ofNat 64 ofs }
  else .ok (BitVec.ofNat 512 (fromBytesLE (Memory.readBytes p.scratch ofs 64)))

def execPedcmp (f : Ctl) (d a b : Operand) (s : State) : Host.Outcome State Fault Refusal :=
  once (.pedcmp f d a b) f s fun s key c =>
    let p := s.party c.party
    let x := if a = .sp .ped then .ok c.ped else p.pedImage (s.uni key c false a).toNat
    match x, p.pedImage (s.uni key c false b).toNat with
    | .error r, _ => .trap r
    | _, .error r => .trap r
    | .ok x, .ok y =>
      .done (s.setCrew key (c.writeDst false d (c.effLanes f) fun _ => BitVec.ofNat 64 (pedOrder x y)))

end Sys2Proof.Machine
end

