-- ==== Sys2Proof/Machine/Views.lean ====
section
/-! DEFINITION. Reducer views: their addresses, the contributions, and their merging (spec/08 R152, R153, spec/16
R272-R274). -/
namespace Sys2Proof.Machine

/-- Views stand at addresses whose bits [55:48] are all ones, 2 MiB apart (DESIGN CHOICE, log 13): a reducer id names the view that
the issuing task has of the declaration in force, so that no address depends on the schedule (spec/00 R4). -/
def viewAddr (id : Nat) : Nat := 0xFF * 2 ^ 48 + id * 2 ^ 21
def isViewAddr (va : Nat) : Bool := va / 2 ^ 48 = 0xFF
def viewNumber (va : Nat) : Nat := va % 2 ^ 48 / 2 ^ 21
def viewOffset (va : Nat) : Nat := va % 2 ^ 21

/-- The size of a view element and of its address step, and the size of a target element (spec/08 Table 8-3, R153). -/
def RedKind.viewSize : RedKind → Nat
  | .addf32 | .addbf16 => 48 | .minf32 | .maxf32 => 4 | .adds64 | .mins64 | .maxs64 => 8 | .amin | .amax | .log => 16
def RedKind.step : RedKind → Nat
  | .addf32 | .minf32 | .maxf32 => 4 | .addbf16 => 2 | .adds64 | .mins64 | .maxs64 => 8 | .amin | .amax | .log => 16
def RedKind.targetSize : RedKind → Nat
  | .addf32 | .minf32 | .maxf32 => 4 | .addbf16 => 2 | .adds64 | .mins64 | .maxs64 => 8 | .amin | .amax | .log => 16

/-- The initial value of an element (spec/08 Table 8-3): a key of amin and amax is the low half. -/
def RedKind.initial : RedKind → BitVec 128
  | .minf32 => 0x7F800000 | .maxf32 => 0xFF800000 | .mins64 => 0x7FFFFFFFFFFFFFFF | .maxs64 => 0x8000000000000000
  | .amin => 0x7FFFFFFFFFFFFFFF | .amax => 0x8000000000000000 | _ => 0

/-- The key of an element that nothing has contributed to: before every strand's, so that a tie keeps it (spec/08 R153). -/
def noKey : Nat := 0
/-- The key of a strand's contribution (spec/16 R274). -/
def contribKey (root : Word) (p : BitVec 512) : Nat := serialKey root p + 1

def View.elem (v : View) (kind : RedKind) (i : Nat) : ViewElem :=
  (Tbl.get? v.elems i).getD { acc := 0, val := RedKind.initial kind, key := noKey }
def View.setElem (v : View) (i : Nat) (e : ViewElem) : View := { v with elems := Tbl.set v.elems i e }

/-- Minimum or maximum of FP32 patterns in a view: of two NaNs the smaller pattern stays (spec/16 R274). -/
def viewPick (mx : Bool) (a b : Nat) : Nat :=
  if fp32.isNanBits a && fp32.isNanBits b then
    let a := a ||| 0x400000
    let b := b ||| 0x400000
    if a ≤ b then a else b
  else fp32.round {} (Num.pick mx (fp32.decode a) (fp32.decode b))

/-- Of two (key, payload) elements with their serial keys, the one that `.amin` or `.amax` keeps (spec/16 R274). -/
def pickKeyed (mx : Bool) (a b : ViewElem) : ViewElem :=
  let x := (a.val.extractLsb' 0 64).toInt
  let y := (b.val.extractLsb' 0 64).toInt
  if x = y then (if b.key < a.key then b else a)
  else if (y < x) != mx then b else a

/-- Inserts a log record after every record of a serial key that is not greater. -/
def insertLog : List (Nat × BitVec 128) → Nat → BitVec 128 → List (Nat × BitVec 128)
  | [], k, r => [(k, r)]
  | x :: t, k, r => if x.1 ≤ k then x :: insertLog t k r else (k, r) :: x :: t

/-- A log keeps the first `c` records in serial order and the overflow flag (spec/16 R274). -/
def View.cutLog (v : View) (c : Nat) : View :=
  { v with log := v.log.take c, beyond := v.beyond || v.log.length > c }

/-- What an access asks of a view element. -/
inductive Contribution where
  | fred (ft : FredTy) (op : MinMaxAdd) (plain : Bool) (val : Word)
  | red (op : RedOp) (sz u : Bool) (val : DWord)
  | store (val : BitVec 128) (lead : Bool)
  | other
deriving DecidableEq, Repr

/-- One contribution at a view address (spec/08 R153): the view after it, or none for a view fault. -/
def View.contribute (v : View) (d : Decl) (ofs key : Nat) (x : Contribution) : Option View :=
  let i := ofs / RedKind.step d.kind
  if ofs % RedKind.step d.kind ≠ 0 || i ≥ d.count then none
  else
    let e := v.elem d.kind i
    match d.kind, x with
    | .addf32, .fred .f32 .add true w => some (v.setElem i { e with acc := la320Add e.acc (fp32.decode w.toNat) })
    | .addbf16, .fred .bf16x2 .add true w =>
      if i % 2 ≠ 0 || i + 1 ≥ d.count then none
      else
        let e' := v.elem d.kind (i + 1)
        some ((v.setElem i { e with acc := la320Add e.acc (bf16.decode (w.toNat % 2 ^ 16)) }).setElem (i + 1)
          { e' with acc := la320Add e'.acc (bf16.decode (w.toNat / 2 ^ 16)) })
    | .adds64, .red .add true _ w =>
      some (v.setElem i { e with val := ((e.val.extractLsb' 0 64) + w).setWidth 128 })
    | .mins64, .red .min true false w =>
      some (v.setElem i { e with val := BitVec.ofNat 128 (RedOp.apply .min false 64 (e.val.toNat % 2 ^ 64) w.toNat) })
    | .maxs64, .red .max true false w =>
      some (v.setElem i { e with val := BitVec.ofNat 128 (RedOp.apply .max false 64 (e.val.toNat % 2 ^ 64) w.toNat) })
    | .minf32, .fred .f32 .min true w =>
      some (v.setElem i { e with val := BitVec.ofNat 128 (viewPick false (e.val.toNat % 2 ^ 32) w.toNat) })
    | .maxf32, .fred .f32 .max true w =>
      some (v.setElem i { e with val := BitVec.ofNat 128 (viewPick true (e.val.toNat % 2 ^ 32) w.toNat) })
    | .amin, .store w true => some (v.setElem i (pickKeyed false e { acc := 0, val := w, key := key }))
    | .amax, .store w true => some (v.setElem i (pickKeyed true e { acc := 0, val := w, key := key }))
    | .log, .store w true => if i = 0 then some ({ v with log := insertLog v.log key w }.cutLog d.count) else none
    | _, _ => none

/-- The current view of a task for a reducer id, with its declaration and its number (spec/08 R152, R154, spec/16 R272). -/
def State.viewOf (s : State) (t : Task) (id : Nat) : Option (Nat × View × Decl) := do
  let di ← Tbl.get? t.decls id
  let vi ← Tbl.get? t.views di
  let v ← Tbl.get? s.views vi
  let d ← Tbl.get? s.decls di
  return (vi, v, d)

/-- One contribution of a crew's lane; none for a view fault. A reducer is reached only by the task that declared it and by
the descendants that inherited it (spec/08 R152, spec/16 R272). -/
def State.contribute (s : State) (key : Nat) (va : Nat) (x : Contribution) : Option State :=
  let c := s.crew key
  match s.viewOf (s.taskOf key) (viewNumber va) with
  | none => none
  | some (vi, v, d) =>
    (v.contribute d (viewOffset va) (contribKey c.task c.ped) x).map fun v => { s with views := Tbl.set s.views vi v }

/-- The contributions of the lanes of one instruction, in ascending lane order: all of them, or the first lane that
faults. -/
def State.contributeAll (s : State) (key : Nat) (x : Nat → Contribution) : List (Nat × Nat) → Except Nat State
  | [] => .ok s
  | (l, va) :: rest =>
    match s.contribute key va (x l) with
    | none => .error l
    | some s => s.contributeAll key x rest

/-- The view fault of a lane. -/
def viewFault (lanes : List (Nat × Nat)) (l : Nat) : Report :=
  let va := ((lanes.find? fun x => x.1 = l).map (·.2)).getD 0
  { cause := 0x19, d1 := BitVec.ofNat 32 (viewNumber va), lmask := (laneFields [l] l).1 }

/-! ## Merging (spec/16 R273, R274) -/

/-- Merges one child view into the joining task's view. -/
def mergeView (d : Decl) (into from_ : View) : View :=
  let v := from_.elems.foldl (fun (v : View) (x : Nat × ViewElem) =>
    let e := v.elem d.kind x.1
    let a := e.val.toNat
    let b := x.2.val.toNat
    v.setElem x.1 (match d.kind with
      | .addf32 | .addbf16 => { e with acc := la320Merge e.acc x.2.acc }
      | .adds64 => { e with val := BitVec.ofNat 128 ((a + b) % 2 ^ 64) }
      | .mins64 => { e with val := BitVec.ofNat 128 (RedOp.apply .min false 64 a b) }
      | .maxs64 => { e with val := BitVec.ofNat 128 (RedOp.apply .max false 64 a b) }
      | .minf32 => { e with val := BitVec.ofNat 128 (viewPick false a b) }
      | .maxf32 => { e with val := BitVec.ofNat 128 (viewPick true a b) }
      | .amin => pickKeyed false e x.2
      | .amax => pickKeyed true e x.2
      | .log => e)) into
  let v := { v with log := from_.log.foldl (fun l r => insertLog l r.1 r.2) v.log, beyond := v.beyond || from_.beyond }
  if d.kind = .log then v.cutLog d.count else v

/-- Merges the views of one joined child that differ from the joining task's, and frees them (spec/16 R273). -/
def State.mergeChild (s : State) (task child : Nat) : State :=
  let t := s.task task
  (s.task child).views.foldl (fun s (x : Nat × Nat) =>
    match Tbl.get? t.views x.1 with
    | some mine =>
      if mine = x.2 then s
      else match Tbl.get? s.views mine, Tbl.get? s.views x.2, Tbl.get? s.decls x.1 with
        | some a, some b, some d => { s with views := Tbl.del (Tbl.set s.views mine (mergeView d a b)) x.2 }
        | _, _, _ => s
    | none => { s with views := Tbl.del s.views x.2 }) s

/-- The bytes that views take from a core's pool (spec/08 R152, spec/16 R272). -/
def Decl.viewBytes (d : Decl) : Nat := d.count * RedKind.viewSize d.kind + 16
def State.poolUsed (s : State) (core : Nat) : Nat :=
  (s.views.filter fun x => x.2.core = core).foldl
    (fun n x => n + ((Tbl.get? s.decls x.2.decl).map Decl.viewBytes).getD 0) 0

end Sys2Proof.Machine
end

