-- ==== Sys2Proof/Machine/Mem.lean ====
section
/-! DEFINITION. MAJ 0x30 to 0x34: loads, stores, fences, flushes and WAITC, and the events that bind loads and complete
stores (spec/05 R94-R107, R113-R115). -/
namespace Sys2Proof.Machine

/-! ## Access checks -/

/-- One lane of an access, translated. -/
structure LaneAcc where
  lane : Nat
  va : Nat
  pa : Nat
  attr : Attr
deriving DecidableEq, Repr

/-- How one lane of a global access stands. -/
inductive LaneVerdict where
  | ok (a : LaneAcc)
  | walking
  | behind
  | rejected
  | fault (lane : Nat) (r : Report)
deriving DecidableEq, Repr

/-- The address and alignment faults of a global access (spec/05 Table 5-8). -/
def addressFault (align : Nat) (va : DWord) : Option Report :=
  if va.extractLsb' 56 8 ≠ 0 then some { cause := 0x06, addr := va }
  else if va.toNat % align ≠ 0 then some { cause := 0x07, addr := va }
  else none

/-- The view fault of an access that is no contribution, whatever its alignment (spec/08 R153). -/
def State.viewAccess (s : State) (key va : Nat) : Option Report :=
  if isViewAddr va && (s.crew key).role.isSome then some { cause := 0x19, d1 := BitVec.ofNat 32 (viewNumber va) } else none

/-- Judges every lane of an access, starting the walks that are missing. -/
def State.judge (s : State) (key : Nat) (need : Need) (align : Nat) :
    List (Nat × DWord) → List LaneVerdict × State
  | [] => ([], s)
  | (l, va) :: rest =>
    let (v, s) : LaneVerdict × State :=
      match s.viewAccess key va.toNat <|> addressFault align va with
      | some r => (.fault l r, s)
      | none =>
          match s.translate key need va.toNat with
          | (.ok pa a, s) => (.ok { lane := l, va := va.toNat, pa := pa, attr := a }, s)
          | (.walking, s) => (.walking, s)
          | (.behind, s) => (.behind, s)
          | (.rejected, s) => (.rejected, s)
          | (.fault sub hm, s) => (.fault l (transReport sub hm va 0 need), s)
    let (vs, s) := s.judge key need align rest
    (v :: vs, s)

def LaneVerdict.acc? : LaneVerdict → Option LaneAcc | .ok a => some a | _ => none
def LaneVerdict.fault? : LaneVerdict → Option (Nat × Report) | .fault l r => some (l, r) | _ => none

/-- The fault of the lowest lane, with a bit for every lane that faults with its cause (spec/05 R115, spec/13
Table 13-2); D2 names the lane where Table 13-3 says so. -/
def lowestFault (fs : List (Nat × Report)) : Option Report :=
  match fs with
  | [] => none
  | (l, r) :: _ =>
    let (m, more) := laneFields ((fs.filter fun x => x.2.cause = r.cause).map (·.1)) l
    some { r with d2 := if r.cause = 0x19 then 0 else BitVec.ofNat 32 l, lmask := m, more := more }

/-- An access that its core turned away waits for its retry (spec/13 R226). -/
def State.rejectOn (s : State) (core who : Nat) : State :=
  s.modCore core fun c => { c with rejected := if c.rejected.contains who then c.rejected else c.rejected ++ [who] }
def State.reject (s : State) (key : Nat) : State := s.rejectOn (coreOf key) key

/-- The outcome of an access: every lane translated, a wait, or a fault. -/
inductive Access where
  | ok (lanes : List LaneAcc) (s : State)
  | walk (s : State)
  | rejected (s : State)
  | fault (r : Report)
deriving DecidableEq, Repr

/-- The lanes of an access, all judged; `who` is the name under which a rejected one waits for its retry. A fault of its own comes
before the service of another's fault for which a lane waits (spec/13 R224). -/
def State.accessAs (s : State) (who key : Nat) (need : Need) (align : Nat) (addrs : List (Nat × DWord)) : Access :=
  let (vs, s) := s.judge key need align addrs
  if vs.any fun v => match v with | .rejected => true | _ => false then .rejected (s.rejectOn (coreOf key) who)
  else if vs.any fun v => match v with | .walking => true | _ => false then .walk s
  else match lowestFault (vs.filterMap LaneVerdict.fault?) with
    | some r => .fault r
    | none =>
      if vs.any fun v => match v with | .behind => true | _ => false then .walk s else .ok (vs.filterMap LaneVerdict.acc?) s
def State.access (s : State) (key : Nat) (need : Need) (align : Nat) (addrs : List (Nat × DWord)) : Access :=
  s.accessAs key key need align addrs

/-- A request that a relocking die or a retraining link holds waits for it (spec/18 R287, spec/27 R364). -/
def held? (s : State) (key : Nat) (d : Option Nat) (go : Issue) : Issue :=
  match d with
  | some d => .wait .clock (s.modCrew key fun c => { c with heldDie := d })
  | none => go

/-- The frame of a global access that holds the crew until every lane has translated (spec/13 R228). -/
def held (s : State) (key : Nat) (need : Need) (align : Nat) (addrs : List (Nat × DWord))
    (body : List LaneAcc → State → Issue) : Issue :=
  match s.access key need align addrs with
  | .ok lanes t => body lanes t
  | .walk t => .wait .walk t
  | .rejected t => .wait .rejected t
  | .fault r => .trap r

/-! ## Elements -/

def MemTy.bytes : MemTy → Nat | .b32 => 4 | .b64 => 8 | .b128 => 16 | .u8 | .s8 => 1 | .u16 | .s16 => 2
def StTy.bytes : StTy → Nat | .b32 => 4 | .b64 => 8 | .b128 => 16 | .u8 => 1 | .u16 => 2

/-- The value of a loaded element, extended as its type says (spec/05 Table 5-3). -/
def extendElem (ty : MemTy) (raw : Nat) : Nat :=
  match ty with | .s8 => wrapInt 32 (toSigned 8 raw) | .s16 => wrapInt 32 (toSigned 16 raw) | _ => raw

/-- The register writes of `n` words to a destination in a lane. -/
def destWrites (d : Operand) (n lane x : Nat) : List RegWrite :=
  (upto 0 n).filterMap fun j =>
    let w : Word := BitVec.ofNat 32 (x / 2 ^ (32 * j))
    match d with
    | .v i => some { vec := true, reg := i.toNat + j, lane := lane, val := w }
    | .s i => some { vec := false, reg := i.toNat + j, lane := 0, val := w }
    | _ => none

/-- The element that a store takes from B in a lane (spec/05 R96, R97). -/
def State.storeElem (s : State) (key : Nat) (c : Crew) (b : Operand) (ty : StTy) (l : Nat) : Nat :=
  match ty, b with
  | .b128, .v i => (c.vPair i.toNat l).toNat + (c.vPair (i.toNat + 2) l).toNat * 2 ^ 64
  | .b128, .s i => (c.sPair i.toNat).toNat + (c.sPair (i.toNat + 2)).toNat * 2 ^ 64
  | .b128, o => s.operandNat key c true o l
  | .b64, o => s.operandNat key c true o l
  | _, o => s.operandNat key c false o l % 2 ^ (8 * StTy.bytes ty)

/-- The lanes that an access makes: one for a uniform result. -/
def accessLanes (d : Operand) (lanes : List Nat) : List Nat := if d.isS then lanes.take 1 else lanes

/-- Adds an operation to L or S, and numbers it. -/
def Crew.addLoad (c : Crew) (m : MemPend) : Crew :=
  { c with loads := c.loads ++ [{ m with id := c.nextId }], nextId := c.nextId + 1 }
def Crew.addStore (c : Crew) (m : MemPend) : Crew :=
  { c with stores := c.stores ++ [{ m with id := c.nextId }], nextId := c.nextId + 1 }

def overlaps (a n b m : Nat) : Bool := a < b + m && b < a + n

/-- Whether every operation of the crew that is older than one has been performed: none is at a service crew, none waits for
its translation. An acquire binds only then (spec/12 R218). -/
def Crew.olderPerformed (c : Crew) (id : Nat) : Bool :=
  (c.loads ++ c.stores).all fun m => id ≤ m.id || m.done || (m.svc = 0 && m.req.isNone)

/-- Whether an operation of the crew at a service crew, older than one, still has to reach some of these bytes (spec/05 R98). -/
def Crew.atServiceBefore (c : Crew) (id : Nat) (ranges : List (Nat × Nat)) : Bool :=
  (c.loads ++ c.stores).any fun m =>
    !m.done && m.id < id && m.bytes.any fun r => ranges.any fun q => overlaps r.1 r.2 q.1 q.2
/-- The same for the instruction that issues. -/
def Crew.atService (c : Crew) (ranges : List (Nat × Nat)) : Bool :=
  (c.loads ++ c.stores).any fun m => !m.done && m.bytes.any fun r => ranges.any fun q => overlaps r.1 r.2 q.1 q.2

/-- Whether an older region load that has not been translated may read some of the `n` bytes at these addresses: they agree in the
bits that every translation keeps (spec/05 R98, spec/13 R225, R228). -/
def Crew.behindLoad (c : Crew) (n : Nat) (addrs : List DWord) : Bool :=
  c.loads.any fun m => match m.req with
    | some q => q.addrs.any fun x => addrs.any fun a =>
        overlaps (x.2.toNat % 2 ^ 16) (MemTy.bytes q.ty) (a.toNat % 2 ^ 16) n
    | none => false

/-! ## Global loads -/

/-- The bytes of one lane as the core reads them. -/
def State.sample (s : State) (core : Nat) (fr : Bool) (hint : Option (BitVec 2)) (a : LaneAcc) (n : Nat) : Nat × State :=
  let (line, s) := s.readLine core a.attr fr hint (lineOf a.pa)
  (line.toNat / 2 ^ (8 * (a.pa % 128)) % 2 ^ (8 * n), s)

/-- The register writes of a load, its lanes in order, and an uncorrectable word if one was met. -/
def State.sampleAll (s : State) (core : Nat) (ty : MemTy) (fr : Bool) (hint : Option (BitVec 2)) (d : Operand) :
    List LaneAcc → List RegWrite × Option DWord × State
  | [] => ([], none, s)
  | a :: rest =>
    let (raw, s) := s.sample core fr hint a (MemTy.bytes ty)
    let bad := s.bad.any fun x => a.pa ≤ x && x < a.pa + MemTy.bytes ty
    let (ws, b, s) := s.sampleAll core ty fr hint d rest
    (destWrites d ty.regs a.lane (extendElem ty raw) ++ ws, if bad then some (BitVec.ofNat 64 a.va) else b, s)

/-- A load of some lanes, with the HBM bytes that it costs (spec/15 R264). -/
def State.load (s : State) (key : Nat) (ty : MemTy) (fr : Bool) (hint : Option (BitVec 2)) (d : Operand) (lanes : List LaneAcc) :
    List RegWrite × Option DWord × State :=
  let core := coreOf key
  (s.charge key 3 (s.readBytes core fr hint (lanes.map fun a => (a.attr, a.pa)))).sampleAll core ty fr hint d lanes

/-- The address of the data of an access that lies in another package (spec/13 Table 13-3). -/
def State.foreignVa (s : State) (l : List LaneAcc) : DWord :=
  match l.find? fun a => s.foreign a.pa with | some a => BitVec.ofNat 64 a.va | none => 0
/-- Whether some data of an access lies in a package that no port reaches (spec/26 R353). -/
def State.anyCut (s : State) (l : List LaneAcc) : Bool := l.any fun a => s.cutOff a.pa

def LaneAcc.ranges (l : List LaneAcc) (n : Nat) : List (Nat × Nat) := l.map fun a => (a.pa, n)

/-- LD (spec/05 R97, R98, R100, spec/13 R228): the value is taken at issue and bound later; within a region a load whose
walk runs does not hold the crew. -/
def execLd (f : Ctl) (d a : Operand) (ofs : BitVec 20) (ty : MemTy) (acq : Bool) (sc : Scope) (fr hv : Bool)
    (hd : BitVec 2) (s : State) : Host.Outcome State Fault Refusal :=
  issue (.ld f d a ofs ty acq sc fr hv hd) s fun s key c =>
    if counterFull c.loads then .wait .counter s
    else
      let addrs := (accessLanes d (c.effLanes f)).map fun l => (l, s.operand key c true a l + ofs.signExtend 64)
      let hint := if hv then some hd else none
      match s.access key .read (MemTy.bytes ty) addrs with
      | .fault r => .trap (if c.inRegion && r.cause = 0x05 then { r with pr := false } else r)
      | .rejected t => .wait .rejected t
      | .walk t =>
        if c.inRegion then
          .done (t.modCrew key fun c => c.addLoad
            { id := 0, pc := c.pc, dsts := [d], wide := ty.regs, acq := acq, region := true,
              req := some { ty := ty, acq := acq, sc := sc, fr := fr || acq, home := hint, dst := d, addrs := addrs } })
        else .wait .walk t
      | .ok lanes t =>
        if c.atService (LaneAcc.ranges lanes (MemTy.bytes ty)) then .wait .acquire t
        else held? t key (lanes.findSome? fun a => t.readHeld (coreOf key) a.attr (fr || acq) hint a.pa) <|
          let (ws, bad, t) := t.load key ty (fr || acq) hint d lanes
          .done (t.modCrew key fun c => c.addLoad
            { id := 0, pc := c.pc, dsts := [d], wide := ty.regs, writes := ws, acq := acq, bad := bad,
              ack := lanes.any (fun a => t.foreign a.pa), cut := t.anyCut lanes, va := t.foreignVa lanes })

/-! ## Global stores -/

/-- Stores the lanes of one instruction in ascending order, so that the highest lane prevails (spec/05 R98): the latest
completion time returned, the time to pass, and whether another package must acknowledge. -/
def State.storeLanes (s : State) (core : Nat) (sc : Scope) (n : Nat) (val : Nat → Nat) :
    List LaneAcc → State × Nat × Option Nat × Bool
  | [] => (s, 0, none, false)
  | a :: rest =>
    let (s, e) := s.storeLine core a.attr sc a.pa (toBytesLE n (val a.lane))
    let (s, ct, wait, ack) := s.storeLanes core sc n val rest
    match e with
    | .now none => (s, ct, wait, ack)
    | .now (some t) => (s, max t ct, wait, ack)
    | .passed t => (s, max t ct, some (max t (wait.getD 0)), ack)
    | .ack => (s, ct, wait, true)

/-- The HBM bytes of a store (spec/15 R264). -/
def State.storeBytes (s : State) (core : Nat) (sc : Scope) (n : Nat) (lanes : List LaneAcc) : Nat :=
  (lanes.map fun a => s.writtenBytes core a.attr sc a.pa n).sum

/-- The sectors that a store writes, of lines of this package. -/
def State.sectors (s : State) (n : Nat) (lanes : List LaneAcc) : Tbl Word :=
  lanes.foldl (fun t a => if s.foreign a.pa then t else addSector t a.pa n) []

/-- The virtual address of the lowest byte of a conflict. -/
def Conflict.addr (lanes : List LaneAcc) (n : Nat) (x : Conflict) : Nat :=
  let low := x.sector * 32 + x.low
  match lanes.find? fun a => a.pa ≤ low && low < a.pa + n with
  | some a => a.va + (low - a.pa)
  | none => 0

/-- The race trap of a store: the sector with the lowest conflicting byte, and every lane that touches a conflicting byte of
any sector (spec/13 R232, R235, Table 13-3). -/
def raceReport (lanes : List LaneAcc) (n : Nat) (first : Conflict) (xs : List Conflict) : Report :=
  let hits (a : LaneAcc) : Bool :=
    xs.any fun x => (upto a.pa n).any fun p => p / 32 = x.sector && x.bytes.getLsbD (p % 32)
  let x := xs.foldl (fun m x => if x.addr lanes n < m.addr lanes n then x else m) first
  let bad := lanes.filter hits
  let l := match bad with | a :: _ => a.lane | [] => 0
  let (m, more) := laneFields (bad.map LaneAcc.lane) l
  x.report (BitVec.ofNat 64 (x.addr lanes n)) l m more

/-- ST (spec/05 R97-R99, spec/16 R269, spec/08 R153). With `.rel` the fence comes first, also with no effective lane (log 63). -/
def execSt (f : Ctl) (a b : Operand) (ofs : BitVec 20) (ty : StTy) (rel : Bool) (sc : Scope) (s : State) :
    Host.Outcome State Fault Refusal :=
  issue (.st f a b ofs ty rel sc) s fun s key c =>
    let n := StTy.bytes ty
    let addrs := (c.effLanes f).map fun l => (l, s.operand key c true a l + ofs.signExtend 64)
    if counterFull c.stores then .wait .counter s
    else if c.behindLoad n (addrs.map (·.2)) then .wait .region s
    else
      let val (l : Nat) : Nat := s.storeElem key c b ty l
      let body (s : State) : Issue :=
        let views := addrs.map fun x => (x.1, x.2.toNat)
        if !addrs.isEmpty && c.role.isSome && views.all fun x => isViewAddr x.2 then
          let lead := s.isLead c
          match s.contributeAll key (fun l => if ty = StTy.b128 then .store (BitVec.ofNat 128 (val l)) lead else .other)
              views with
          | .error l => .trap (viewFault views l)
          | .ok t => .done (t.modCrew key fun c => c.addStore { id := 0, pc := c.pc, done := false })
        else
          held s key .write n addrs fun lanes t =>
            if c.atService (LaneAcc.ranges lanes n) then .wait .acquire t
            else held? t key (lanes.findSome? fun a => t.storeHeld (coreOf key) a.attr sc a.pa c.role.isSome) <|
              let p := s.party c.party
              let launch := (s.task p.task).launch
              let secs := t.sectors n lanes
              let checked := if c.role.isNone then .ok t else t.checkStore launch p.task c.task c.ped secs
              match checked with
              | .error x => .trap (raceReport lanes n x (t.conflicts launch p.task c.task c.ped secs))
              | .ok t =>
                let t := t.charge key 3 (t.storeBytes (coreOf key) sc n lanes)
                let (t, ct, wait, ack) := t.storeLanes (coreOf key) sc n val lanes
                .done (t.modCrew key fun c =>
                  { c with ct := max c.ct ct }.addStore { id := 0, pc := c.pc, ct := wait, ack := ack, cut := t.anyCut lanes, va := t.foreignVa lanes })
      if rel then fenced s key .rel sc body else body s

/-- PREF (spec/05 R104): lines whose addresses are already translated, and that no relock keeps away, are fetched; nothing is
counted and nothing faults. -/
def execPref (f : Ctl) (a : Operand) (ofs : BitVec 20) (l1 : Bool) (s : State) : Host.Outcome State Fault Refusal :=
  issue (.pref f a ofs l1) s fun s key c =>
    let core := coreOf key
    .done ((c.effLanes f).foldl (fun s l =>
      let va := (s.operand key c true a l + ofs.signExtend 64).toNat
      match if c.role.isNone then none else s.tlbFind core (s.ctxOf key) va with
      | some e =>
        let pa := e.pa + (va - e.vbase)
        if e.r && (s.readHeld core e.attr false none pa).isNone && !s.cutOff pa then
          let ln := lineOf pa
          let s := s.charge key 3 (s.readBytes core false none [(e.attr, pa)])
          if l1 then (s.readLine core e.attr false none ln).2
          else if e.rep then s else (s.readL2 (dieOfCore core) e.attr ln).2
        else s
      | none => s) s)

/-! ## Scratchpad, weight store and register window -/

/-- The offset of a local access (spec/05 R101). -/
def State.localOfs (s : State) (key : Nat) (c : Crew) (a : Operand) (ofs : BitVec 20) (l : Nat) : Nat :=
  (s.operand key c false a l + ofs.signExtend 64).toNat % 2 ^ 32

/-- A party of a task by its number (spec/01 Table 1-3); none when no core holds it. -/
def State.partyNumbered (s : State) (ti n : Nat) : Option Nat :=
  (s.task ti).parties.find? fun k => (s.party k).number = n
/-- The party count of a convoy: those on a core and those that CTXSAVE has taken from theirs. -/
def Task.partyCount (t : Task) : Nat := t.parties.length + t.away.length

/-- The party whose scratchpad an access names: its own, or a peer of its convoy; none beyond the convoy. An agent, which is in no
convoy, has no peer (log 74). -/
def State.peerParty (s : State) (c : Crew) (peer : Option (BitVec 3)) : Option Nat :=
  match peer with
  | none => some c.party
  | some n => s.partyNumbered (s.party c.party).task n.toNat
/-- Whether the peer is one that CTXSAVE has taken from its core: the access waits until it is back. -/
def State.peerAway (s : State) (c : Crew) (peer : Option (BitVec 3)) : Bool :=
  match peer with
  | none => false
  | some n => (Tbl.get? (s.task (s.party c.party).task).away n.toNat).isSome

/-- The faults of local offsets: alignment, then the bound of the allotment. -/
def localFault (cause : BitVec 8) (n len : Nat) (ofs : List (Nat × Nat)) : Option Report :=
  lowestFault (ofs.filterMap fun x =>
    if x.2 % n ≠ 0 then some (x.1, { cause := 0x07, addr := BitVec.ofNat 64 x.2 })
    else if x.2 + n > len then some (x.1, { cause := cause, addr := BitVec.ofNat 64 x.2 })
    else none)

def peerFault (ofs : List (Nat × Nat)) : Option Report :=
  lowestFault (ofs.map fun x => (x.1, { cause := 0x0A, addr := BitVec.ofNat 64 x.2 }))

/-- The first of some accesses of `n` bytes that meets an uncorrectable one (spec/05 R115). -/
def firstBad (bad : List Nat) (n : Nat) (ofs : List Nat) : Option DWord :=
  if bad.isEmpty then none
  else (ofs.find? fun x => bad.any fun a => x ≤ a && a < x + n).map (BitVec.ofNat 64)

/-- Writes bytes of a party's scratchpad; what is written is whole again. -/
def Party.putScratch (p : Party) (ofs : Nat) (bytes : List Byte) : Party :=
  { p with scratch := Memory.writeBytes p.scratch ofs bytes
           scratchBad := p.scratchBad.filter fun a => !(ofs ≤ a && a < ofs + bytes.length) }

/-- Writes bytes of a party's weight store. -/
def Party.putWeight (p : Party) (ofs : Nat) (bytes : List Byte) : Party :=
  { p with weight := Memory.writeBytes p.weight ofs bytes
           weightBad := p.weightBad.filter fun a => !(ofs ≤ a && a < ofs + bytes.length) }

/-- A load from an array of bytes, some of which may be uncorrectable. -/
def localLoad (d : Operand) (ty : MemTy) (store : Sparse 8) (bad : List Nat) (ofs : List (Nat × Nat)) (s : State)
    (key : Nat) : Issue :=
  let ws := ofs.flatMap fun x =>
    destWrites d ty.regs x.1 (extendElem ty (fromBytesLE (Memory.readBytes store x.2 (MemTy.bytes ty))))
  .done (s.modCrew key fun c => c.addLoad
    { id := 0, pc := c.pc, dsts := [d], wide := ty.regs, writes := ws, bad := firstBad bad (MemTy.bytes ty) (ofs.map (·.2)) })

def execLds (f : Ctl) (d a : Operand) (ofs : BitVec 20) (ty : MemTy) (peer : Option (BitVec 3)) (s : State) :
    Host.Outcome State Fault Refusal :=
  issue (.lds f d a ofs ty peer) s fun s key c =>
    if counterFull c.loads then .wait .counter s
    else if s.peerAway c peer then .wait .privileged s
    else
      let at_ := (accessLanes d (c.effLanes f)).map fun l => (l, s.localOfs key c a ofs l)
      match s.peerParty c peer with
      | none => match peerFault at_ with
        | some r => .trap r
        | none => localLoad d ty [] [] [] s key
      | some p =>
        let p := s.party p
        match localFault 0x08 (MemTy.bytes ty) p.scratchLen at_ with
        | some r => .trap r
        | none => localLoad d ty p.scratch p.scratchBad at_ s key

def execSts (f : Ctl) (a b : Operand) (ofs : BitVec 20) (ty : StTy) (peer : Option (BitVec 3)) (s : State) :
    Host.Outcome State Fault Refusal :=
  issue (.sts f a b ofs ty peer) s fun s key c =>
    if counterFull c.stores then .wait .counter s
    else if s.peerAway c peer then .wait .privileged s
    else
      let at_ := (c.effLanes f).map fun l => (l, s.localOfs key c a ofs l)
      let push (s : State) : Issue := .done (s.modCrew key fun c => c.addStore { id := 0, pc := c.pc })
      match s.peerParty c peer with
      | none => match peerFault at_ with
        | some r => .trap r
        | none => push s
      | some k =>
        match localFault 0x08 (StTy.bytes ty) (s.party k).scratchLen at_ with
        | some r => .trap r
        | none =>
          push (at_.foldl (fun t x => t.modParty k fun p =>
            p.putScratch x.2 (toBytesLE (StTy.bytes ty) (s.storeElem key c b ty x.1))) s)

def execLdw (f : Ctl) (d a : Operand) (ofs : BitVec 20) (ty : MemTy) (s : State) : Host.Outcome State Fault Refusal :=
  issue (.ldw f d a ofs ty) s fun s key c =>
    if counterFull c.loads then .wait .counter s
    else
      let at_ := (accessLanes d (c.effLanes f)).map fun l => (l, s.localOfs key c a ofs l)
      let p := s.party c.party
      match localFault 0x09 (MemTy.bytes ty) p.weightLen at_ with
      | some r => .trap r
      | none => localLoad d ty p.weight p.weightBad at_ s key

/-- The register that a window address names: the crew, and a v register of a lane or an s register (spec/05 R103). -/
structure WindowReg where
  crew : Nat
  vec : Bool
  reg : Nat
  lane : Nat
deriving DecidableEq, Repr

/-- The window address's register, if its unit is allotted as R103 requires; `ctx` is none for a privileged agent. -/
def State.window (s : State) (ctx : Option Nat) (w : Nat) : Option WindowReg :=
  let lane := w / 4 % 32
  let unit := w / 128 % 2 ^ 15
  let core := w / 2 ^ 22 % 16 + 16 * (w / 2 ^ 26 % 4)
  if w / 2 ^ 28 ≠ 0 then none
  else
    let live (c : Crew) : Bool :=
      unit ≥ c.rbase + c.lanes / 32 * c.regc || c.sliceLive (32 * ((unit - c.rbase) / c.regc))
    let owner := s.crews.find? fun x =>
      coreOf x.1 = core && x.2.role.isSome && !x.2.ended && x.2.rbase ≤ unit &&
        unit < x.2.rbase + x.2.lanes / 32 * x.2.regc + 2 && live x.2 &&
        (match ctx with | some k => (s.party x.2.party).ctx = k | none => true)
    match owner with
    | none => none
    | some (k, c) =>
      let o := unit - c.rbase
      let vs := c.lanes / 32 * c.regc
      if o < vs then
        let slice := o / c.regc
        some { crew := k, vec := true, reg := o % c.regc, lane := 32 * slice + lane }
      else some { crew := k, vec := false, reg := 32 * (o - vs) + lane, lane := 0 }

def State.windowRead (s : State) (r : WindowReg) : Word :=
  if r.vec then (s.crew r.crew).v r.reg r.lane else (s.crew r.crew).s r.reg
def State.windowWrite (s : State) (r : WindowReg) (x : Word) : State :=
  s.modCrew r.crew fun c => if r.vec then c.setV r.reg r.lane x else c.setS r.reg x

/-- The faults of window addresses (spec/05 Table 5-8). -/
def State.windowFault (s : State) (ctx : Option Nat) (ws : List (Nat × Nat)) : Option Report :=
  lowestFault (ws.filterMap fun x =>
    if x.2 % 4 ≠ 0 then some (x.1, { cause := 0x07, addr := BitVec.ofNat 64 x.2 })
    else if (s.window ctx x.2).isNone then some (x.1, { cause := 0x0B, addr := BitVec.ofNat 64 x.2 })
    else none)

/-- What holds a window access to another die (spec/18 R287, spec/27 R364). -/
def State.windowHeld (s : State) (key : Nat) (ws : List (Nat × Nat)) : Option Nat :=
  ws.findSome? fun x => s.wayHeld (coreOf key) (x.2 / 2 ^ 26 % 4)

def State.windowCtx (s : State) (c : Crew) : Option Nat := if c.role.isNone then none else some (s.party c.party).ctx

def execLdr (f : Ctl) (d a : Operand) (ofs : BitVec 20) (s : State) : Host.Outcome State Fault Refusal :=
  issue (.ldr f d a ofs) s fun s key c =>
    if counterFull c.loads then .wait .counter s
    else
      let at_ := (accessLanes d (c.effLanes f)).map fun l => (l, s.localOfs key c a ofs l)
      held? s key (s.windowHeld key at_) <|
      match s.windowFault (s.windowCtx c) at_ with
      | some r => .trap r
      | none =>
        let ws := at_.flatMap fun x => match s.window (s.windowCtx c) x.2 with
          | some r => destWrites d 1 x.1 (s.windowRead r).toNat
          | none => []
        .done (s.modCrew key fun c => c.addLoad
          { id := 0, pc := c.pc, dsts := [d], writes := ws, bad := firstBad s.badWindow 4 (at_.map (·.2)) })

def execStr (f : Ctl) (a b : Operand) (ofs : BitVec 20) (s : State) : Host.Outcome State Fault Refusal :=
  issue (.str f a b ofs) s fun s key c =>
    if counterFull c.stores then .wait .counter s
    else
      let at_ := (c.effLanes f).map fun l => (l, s.localOfs key c a ofs l)
      held? s key (s.windowHeld key at_) <|
      match s.windowFault (s.windowCtx c) at_ with
      | some r => .trap r
      | none =>
        let s := { s with badWindow := s.badWindow.filter fun a => !(at_.any fun x => x.2 ≤ a && a < x.2 + 4) }
        let t := at_.foldl (fun t x => match s.window (s.windowCtx c) x.2 with
          | some r => t.windowWrite r ((s.operand key c false b x.1).extractLsb' 0 32)
          | none => t) s
        .done (t.modCrew key fun c => c.addStore { id := 0, pc := c.pc })

/-! ## FENCE, IINV, CFLUSH, WAITC -/

def execFence (f : Ctl) (kind : Order) (sc : Scope) (s : State) : Host.Outcome State Fault Refusal :=
  once (.fence f kind sc) f s fun s key _ => fenced s key kind sc fun t => .done t

/-- IINV (spec/05 R107): the instruction caches of its core, die or package are empty. -/
def execIinv (f : Ctl) (sc : IScope) (s : State) : Host.Outcome State Fault Refusal :=
  once (.iinv f sc) f s fun s key _ =>
    let core := coreOf key
    let away := if sc = IScope.pkg then (upto 0 4).findSome? (s.wayHeld core) else none
    held? s key away <|
    .done { s with cores := s.cores.map fun x =>
      let hit : Bool := match sc with | .core => x.1 = core | .die => x.1 / 16 = core / 16 | .pkg => true
      if hit then (x.1, { x.2 with icache := [] }) else x }

/-- Whether CFLUSH writes a line back (spec/05 R106). -/
def State.flushes (s : State) (core : Nat) (sc : Scope) (inv : Bool) (a : LaneAcc) : Bool :=
  (s.l2 (dieOfCore core) (lineOf a.pa)).dirtyMask != 0 && (Scope.wide sc || inv)

/-- CFLUSH on one line (spec/05 R106): the completion time to pass, if its writeback has one that counts; the cores that wrote the
bytes keep it too (log 65). -/
def State.flushLine (s : State) (core : Nat) (sc : Scope) (inv : Bool) (a : LaneAcc) : State × Option Nat :=
  let d := dieOfCore core
  let ln := lineOf a.pa
  let dirty := (s.l2 d ln).dirtyMask ≠ 0
  if dirty && Scope.wide sc then
    let r := s.writeBackKept d ln
    (if inv then (r.1.setL2 d ln {}).dropL1 core ln else r.1, some r.2)
  else (if inv then (s.replaceLine d ln).dropL1 core ln else s, none)

/-- The HBM bytes of the writebacks that a flush of some lines makes (spec/15 R264). -/
def State.flushBytes (s : State) (core : Nat) (sc : Scope) (inv : Bool) (lanes : List LaneAcc) : Nat :=
  (((lanes.filter (s.flushes core sc inv)).map fun a => lineOf a.pa).eraseDups.map fun ln =>
    (s.l2 (dieOfCore core) ln).dirtyBytes).sum

/-- What holds the writeback of some lines (spec/18 R287, spec/27 R364). -/
def State.flushHeld (s : State) (core : Nat) (sc : Scope) (inv : Bool) (lanes : List LaneAcc) : Option Nat :=
  lanes.findSome? fun a => if s.flushes core sc inv a then s.homeHeld core a.attr a.pa else none

def execCflush (f : Ctl) (a : Operand) (ofs : BitVec 20) (sc : Scope) (inv : Bool) (s : State) :
    Host.Outcome State Fault Refusal :=
  issue (.cflush f a ofs sc inv) s fun s key c =>
    if counterFull c.stores then .wait .counter s
    else
      let addrs := (c.effLanes f).map fun l => (l, s.operand key c true a l + ofs.signExtend 64)
      held s key .write 1 addrs fun lanes t =>
        held? t key (t.flushHeld (coreOf key) sc inv lanes) <|
        let t := t.charge key 3 (t.flushBytes (coreOf key) sc inv lanes)
        let (t, ct) := lanes.foldl (fun (acc : State × Option Nat) a =>
          let r := acc.1.flushLine (coreOf key) sc inv a
          (r.1, match r.2 with | some x => some (max x (acc.2.getD 0)) | none => acc.2)) (t, none)
        .done (t.modCrew key fun c => { c with ct := max c.ct (ct.getD 0) }.addStore { id := 0, pc := c.pc, ct := ct })

/-- Whether a class's uncorrectable data is covered by a WAITC that asks for it: its operation has left the counter. -/
def Crew.covered (c : Crew) (p : Poison) : Bool :=
  (match p.cls with | .s => c.stores | _ => c.loads).all fun m => m.id != p.id

/-- The first deferred fault that a WAITC covers (spec/05 R112, R115), and the crew without it. -/
def Crew.takeDeferred (c : Crew) (l s cc t : Bool) : Option (Report × Crew) :=
  let hit (x : Cls) : Bool := match x with | .l => l | .s => s | .c => cc | .t => t
  match c.deferred.find? fun x => hit x.1 with
  | some x => some (x.2, { c with deferred := c.deferred.erase x })
  | none => (c.poison.find? fun p => hit p.cls && c.covered p).map fun p => (p.rep, { c with poison := c.poison.erase p })

/-- WAITC (spec/05 R114). -/
def execWaitc (f : Ctl) (l st cc t : BitVec 6) (s : State) : Host.Outcome State Fault Refusal :=
  once (.waitc f l st cc t) f s fun s key _ =>
    let c := s.crew key
    let met (n : BitVec 6) (k : Nat) : Bool := n = 63 || k ≤ n.toNat
    if met l c.loads.length && met st c.stores.length && met cc c.cops.length && met t c.tops.length then
      match c.takeDeferred (l ≠ 63) (st ≠ 63) (cc ≠ 63) (t ≠ 63) with
      | some (r, c) => .trapAt (s.setCrew key c) { r with df := true }
      | none => .done s
    else .wait .waitc s

/-! ## Events of loads and stores -/

/-- A region load whose walk has ended is sampled, behind the crew's older operations on its bytes (spec/05 R98); one that faults
reports its own fault, with PR clear, once the older loads of the region are translated (spec/13 R228, R234), and while its party
is being saved leaves its crew to restart the region (R240). -/
def State.resolveLoad (s : State) (key : Nat) (m : MemPend) (q : LoadReq) : State :=
  let put (s : State) (m : MemPend) : State :=
    s.modCrew key fun c => { c with loads := c.loads.map fun (x : MemPend) => if x.id = m.id then m else x }
  match s.accessAs (loadAsk key) key .read (MemTy.bytes q.ty) q.addrs with
  | .walk t => t
  | .rejected t => t
  | .fault r =>
    if (s.crew key).loads.any fun x => x.id < m.id && x.req.isSome then s
    else
    let s := put s { m with req := none, done := true }
    if (s.partyOf key).preempted then
      (s.dropWalks key).modCrew key fun c =>
        Crew.dropOps { c with pc := c.epc, dix := c.epcDix, inRegion := false, restart := true, phase := 0, reply := none }
    else (s.modCrew key fun c => Crew.dropOps { c with pc := m.pc, inRegion := true }).takeFault key { r with pr := false }
  | .ok lanes t =>
    if (t.crew key).atServiceBefore m.id (LaneAcc.ranges lanes (MemTy.bytes q.ty)) ||
        (lanes.findSome? fun a => t.readHeld (coreOf key) a.attr q.fr q.home a.pa).isSome then t
    else
    let (ws, bad, t) := t.load key q.ty q.fr q.home q.dst lanes
    put t { m with req := none, writes := ws, bad := bad, ack := lanes.any (fun a => t.foreign a.pa), cut := t.anyCut lanes
                   va := t.foreignVa lanes }

/-- The words that an operation writes. -/
def MemPend.words (m : MemPend) : List RegWord := m.writes.map fun w => (w.vec, w.reg, w.lane)

/-- The destination of an operation is written, or poisoned by an uncorrectable word (spec/05 R115). The words that an older one
left unwritten and this one writes are no longer that one's; its machine check stays due at a WAITC or EXIT. -/
def Crew.bindDst (c : Crew) (cls : Cls) (m : MemPend) : Crew :=
  let ws := m.words
  let c := { c with poison := c.poison.map fun p => { p with words := p.words.filter fun w => !ws.contains w } }
  match m.bad with
  | none => m.writes.foldl RegWrite.apply c
  | some a =>
    let rep : Report := { cause := 0x1F, addr := a, eng := if m.bytes.isEmpty then 0 else 7 }
    { c with poison := c.poison ++ [{ words := ws, cls := cls, id := m.id, rep := rep }] }

/-- Whether an operation's answer, from another package, cannot come any more (spec/13 R239, spec/26 R353). -/
def State.severed (s : State) (m : MemPend) : Bool := m.ack && (m.cut || s.unlinked)

/-- An operation in L or S whose die or link is lost ends with a machine check, which is deferred when it leaves its counter (spec/13
R239). -/
def State.loseMem (s : State) (key id : Nat) : State :=
  s.modCrew key fun c =>
    let lose (l : List MemPend) : List MemPend := l.map fun (x : MemPend) =>
      if x.id = id then { x with done := true, fault := some (lostReport 0 x.va) } else x
    Crew.dropOps { c with loads := lose c.loads, stores := lose c.stores }

/-- Binds a load: its registers are written, or poisoned by an uncorrectable word; an acquire invalidates L1 (spec/05
R98, R100, R115). -/
def State.bindLoad (s : State) (key : Nat) (m : MemPend) : State :=
  if s.severed m then s.loseMem key m.id
  else
  let s := s.modCrew key fun c =>
    let c := c.bindDst .l m
    { c with loads := c.loads.map fun (x : MemPend) => if x.id = m.id then { m with done := true } else x }
  let s := if m.acq then s.invalidateL1 (coreOf key) else s
  s.dropOps key

/-- LOAD_BIND: the load at a place of a crew's L queue binds, when its packets have been served. -/
def execLoadBind (crew idx : Nat) (s : State) : Host.Outcome State Fault Refusal :=
  eventOf crew s fun s =>
    match (s.crew crew).loads[idx]? with
    | none => s
    | some m =>
      if m.done || m.svc > 0 || (m.acq && !(s.crew crew).olderPerformed m.id) then s
      else match m.req with
        | some q => if (s.core (coreOf crew)).rejected.contains (loadAsk crew) then s else s.resolveLoad crew m q
        | none => s.bindLoad crew m

/-- STORE_COMPLETE: the operation at a place of a crew's S queue completes, when its packets have been served and
Meridian has passed its completion time (spec/05 R99, spec/06 R122). -/
def execStoreComplete (crew idx : Nat) (s : State) : Host.Outcome State Fault Refusal :=
  eventOf crew s fun s =>
    match (s.crew crew).stores[idx]? with
    | none => s
    | some m =>
      let passed := match m.ct with | some t => t < s.mer (dieOfCore (coreOf crew)) | none => true
      if m.done || m.svc > 0 || !passed then s
      else if s.severed m then s.loseMem crew m.id
      else
        let m' : MemPend := { m with done := true, bad := if m.dsts.isEmpty then m.bad else none }
        (s.modCrew crew fun c =>
          let c := if m.dsts.isEmpty then c else c.bindDst .s m
          { c with stores := c.stores.map fun (x : MemPend) => if x.id = m.id then m' else x }).dropOps crew

end Sys2Proof.Machine
end

