-- ==== Sys2Proof/Machine/Atomic.lean ====
section
/-! DEFINITION. MAJ 0x50 to 0x52: atomics, reductions at memory, signals and tickets, and the events of the service crews
(spec/06). -/
namespace Sys2Proof.Machine

/-! ## Service crews -/

/-- The service crew of a line (spec/06 R116): 4 * die + j, and those of another package after them. -/
def State.svcOf (s : State) (a : Attr) (pa : Nat) : Nat :=
  (if s.foreign pa then 16 * (1 + pa / 2 ^ 52 % 256) else 0) + 4 * a.die pa + pa / 128 % 4

/-- The home die of a service crew's lines. -/
def svcDie (svc : Nat) : Nat := svc / 4 % 4

/-- FRED on one value of a format: RNE under its own FZ, CN and SAT (spec/06 R124). -/
def fredValue (fm : FFmt) (op : MinMaxAdd) (v : FEnv) (x b : Nat) : Nat :=
  let x := fm.source v.fz x
  let b := fm.source v.fz b
  fm.round v (match op with | .add => Num.add x b | .min => Num.pick false x b | .max => Num.pick true x b)

/-- FRED on one element: FP32, or each half of a packed word. -/
def fredElem (ft : FredTy) (op : MinMaxAdd) (fz cn sat : Bool) (x b : Nat) : Nat :=
  let v : FEnv := { mode := .rne, fz := fz, cn := cn, sat := sat }
  let halves (fm : FFmt) : Nat :=
    fredValue fm op v (x % 2 ^ 16) (b % 2 ^ 16) + fredValue fm op v (x / 2 ^ 16 % 2 ^ 16) (b / 2 ^ 16 % 2 ^ 16) * 2 ^ 16
  match ft with | .f32 => fredValue fp32 op v x b | .bf16x2 => halves bf16 | .f16x2 => halves fp16

/-- The new value of an element of `w` bits (spec/06 R120, R124). -/
def MemOp.apply (op : MemOp) (w x b e : Nat) : Nat :=
  match op with
  | .add => RedOp.apply .add false w x b
  | .min u => RedOp.apply .min u w x b
  | .max u => RedOp.apply .max u w x b
  | .and => RedOp.apply .and false w x b
  | .or => RedOp.apply .or false w x b
  | .xor => RedOp.apply .xor false w x b
  | .exch => b % 2 ^ w
  | .cas => if x = e % 2 ^ w then b % 2 ^ w else x
  | .fred ft op fz cn sat => fredElem ft op fz cn sat x b

def RedOp.memOp (op : RedOp) (u : Bool) : MemOp :=
  match op with | .add => .add | .min => .min u | .max => .max u | .and => .and | .or => .or | .xor => .xor
def AtomOp.memOp (op : AtomOp) (u : Bool) : MemOp :=
  match op with
  | .add => .add | .min => .min u | .max => .max u | .and => .and | .or => .or | .xor => .xor | .exch => .exch
  | .cas _ => .cas
def AtomOp.compare (op : AtomOp) : Operand := match op with | .cas e => e | _ => .imm 0

/-- Whether an uncorrectable word lies in some bytes. -/
def State.badAt (s : State) (pa n : Nat) : Bool := s.bad.any fun x => pa ≤ x && x < pa + n
/-- Whether the hub firmware meets an uncorrectable error in some bytes of a physical range: in a word of them, or because no port
reaches their package (spec/10 R191, spec/26 R353; log 75). -/
def State.unreadable (s : State) (pa n : Nat) : Bool := s.cutOff pa || s.badAt pa n

/-- A waiting crew's condition on a value (spec/06 R125). -/
def SigCond.holds (cc : SigCond) (v x : DWord) : Bool :=
  match cc with | .eq => v == x | .ne => v != x | .ge => x.toNat ≤ v.toNat | .lt => v.toNat < x.toNat

/-- The phases of a crew whose service crew met an uncorrectable word, and of one whose word no port reaches any more. -/
def badPhase : Nat := 9
def lostPhase : Nat := 10

/-- Whether a link that retrains lies between a service crew and a crew (spec/27 R364). -/
def State.svcBusy (s : State) (svc key : Nat) : Bool :=
  if svc < 16 then svcDie svc ≠ dieOfCore (coreOf key) && (s.essiaBusy (svcDie svc) || s.essiaBusy (dieOfCore (coreOf key)))
  else (s.portHeld (dieOfCore (coreOf key))).isSome

/-- A waiter tested against the current value of its word, which it keeps once it is satisfied (spec/06 R126). -/
def State.testWaiter (s : State) (w : Waiter) : Waiter :=
  if w.got.isSome then w
  else if s.badAt w.pa 8 then { w with got := some none }
  else
    let v : DWord := BitVec.ofNat 64 (fromBytesLE (s.mem.readBytes w.pa 8))
    if SigCond.holds w.cc v w.val then { w with got := some (some v) } else w

/-- The answer of a satisfied waiter reaches its crew, unless its die relocks or the link retrains (spec/18 R287, spec/27 R364); a
word that no port reaches any more is lost (spec/26 R353). -/
def State.answerWaiter (s : State) (svc : Nat) (w : Waiter) : State :=
  let give (c : Crew → Crew) : State :=
    ((s.modSvc svc fun x => { x with waiters := x.waiters.erase w }).modCrew w.crew c).signalWake (coreOf w.crew) 1
  if s.relocking (dieOfCore (coreOf w.crew)) then s
  else if s.cutOff w.pa then give fun c => { c with phase := lostPhase, aux := w.va, reply := some 0 }
  else if s.svcBusy svc w.crew then s
  else match w.got with
    | none => s
    | some none => give fun c => { c with phase := badPhase, aux := w.va, reply := some 0 }
    | some (some v) => give fun c => { c with reply := some v }

/-- The dependence word of a packet and the value awaited (spec/15 Table 15-2). -/
def packetDepaddr (p : BitVec 4096) : DWord := p.extractLsb' 320 64
def packetDepval (p : BitVec 4096) : DWord := p.extractLsb' 384 64

/-- A launch that waits for its dependence word keeps the first value that satisfies it: the word is tested as a waiter's is, against
each of its values (spec/15 R253, spec/06 R126). -/
def State.testDep (s : State) (l : Launch) : Launch :=
  if l.released || l.dep.isSome || packetDepaddr l.packet = 0 then l
  else match s.lookup l.ctx (packetDepaddr l.packet).toNat .read with
    | .error _ => l
    | .ok (pa, _) =>
      let v := fromBytesLE (s.mem.readBytes pa 8)
      if !s.cutOff pa && (packetDepval l.packet).toNat ≤ v % 2 ^ 63 then { l with dep := some (BitVec.ofNat 64 v) } else l
def State.testDeps (s : State) : State :=
  if s.launches.all fun x => x.2.released || x.2.dep.isSome then s
  else { s with launches := s.launches.map fun x => (x.1, s.testDep x.2) }

/-- Tests the waiters of a service crew and the dependences of launches, and answers the waiters that are satisfied (spec/06 R126,
spec/15 R253). -/
def State.notify (s : State) (svc : Nat) : State :=
  let s := (s.modSvc svc fun x => { x with waiters := x.waiters.map s.testWaiter }).testDeps
  (s.svc svc).waiters.foldl (fun s w => s.answerWaiter svc w) s

/-- The new value of a signal word on a mirrored page is to be sent to the host once its completion time has passed (spec/26
R358). -/
def State.mirrorWrite (s : State) (pa ct : Nat) : State :=
  s.mirrors.foldl (fun s m =>
    match s.lookup (m.1 / 16) m.2.page.toNat .read with
    | .ok (base, _) =>
      if base ≤ pa && pa < base + 2 ^ 16 then
        { s with mirrorsDue := s.mirrorsDue ++ [{ qp := m.2.qp, host := m.2.host + BitVec.ofNat 64 (pa - base), key := m.2.key, ct := ct
                                                  val := BitVec.ofNat 64 (fromBytesLE (s.mem.readBytes pa 8)) }] }
      else s
    | .error _ => s) s

/-- The mirrored writes that leave now, in the order of their changes: their completion times have passed, and the Ethernet port is
ready (spec/26 R358, spec/27 Table 27-1). -/
def State.sendMirrors (s : State) : State :=
  let go (m : MirrorDue) : Bool := s.ready.getLsbD 112 && m.ct + 2 < s.meridian
  { s with mirrorsDue := s.mirrorsDue.dropWhile go
           outbox := s.outbox ++ (s.mirrorsDue.takeWhile go).map fun m => .mirror m.qp m.host m.key m.val }

/-- Applies bytes at a home point (spec/12 R206), with the completion time. -/
def State.homePut (s : State) (a : Attr) (pa : Nat) (bytes : List Byte) : State × Nat :=
  ({ s with mem := s.mem.writeBytes pa bytes }.clearBad pa bytes.length, s.completion (a.die pa) (lineOf pa))

/-- A change of a 64-bit signal word by its service crew: it is applied at the home, the waiters are tested, and a mirror
is written (spec/06 R116, R126, spec/26 R358). A word of a package that no port reaches is not written (spec/26 R353). -/
def State.signalPut (s : State) (a : Attr) (pa : Nat) (v : DWord) : State × Nat :=
  if s.cutOff pa then (s, 0)
  else
    let svc := s.svcOf a pa
    let (s, ct) := s.homePut a pa (toBytesLE 8 v.toNat)
    ((s.notify svc).mirrorWrite pa ct, ct)

/-- What holds a change of a signal word by an agent or an engine of a crew: the way to the home, or an older operation of the crew
on the word (spec/05 R98, spec/18 R287, spec/27 R364). -/
def State.signalHeld (s : State) (key : Nat) (a : Attr) (pa : Nat) : Option Nat :=
  if (s.crew key).atService [(pa, 8)] then some (dieOfCore (coreOf key)) else s.homeHeld (coreOf key) a pa

/-- Before a change of a word at its home on behalf of a crew, its die's dirty bytes of the line go home, and the die keeps no old copy
of the line (spec/06 R117, spec/12 R207, R212). -/
def State.homeClean (s : State) (key : Nat) (a : Attr) (pa : Nat) : State :=
  let core := coreOf key
  (s.flushLine core .die true { lane := 0, va := 0, pa := pa, attr := a }).1.dropL1 core (lineOf pa)

/-- A change of a signal word on behalf of a crew, after the crew's own older stores; the crew keeps the completion time, which is the answer too (spec/05 R99, spec/12 R220). -/
def State.signalFrom (s : State) (key : Nat) (a : Attr) (pa : Nat) (v : DWord) : State × Nat :=
  let r := (s.homeClean key a pa).signalPut a pa v
  (r.1.modCrew key fun c => { c with ct := max c.ct r.2 }, r.2)

/-- What the lane operations of a packet leave: the state, the values returned, an uncorrectable word, and the latest
completion time. -/
structure Applied where
  s : State
  old : List (Nat × Nat) := []
  bad : Option DWord := none
  ct : Nat := 0

/-- Applies one lane operation (spec/06 R120, R121, R128), after which the issuing core's L1 and its die keep no older copy of the line
(spec/12 R219); one on a package that no port reaches does nothing (spec/26
R353). -/
def applyLane (svc : Nat) (p : Packet) (x : Applied) (o : LaneOp) : Applied :=
  if x.s.cutOff o.pa then x
  else if x.s.badAt o.pa o.bytes then { x with bad := some (x.bad.getD o.va) }
  else
    let old := fromBytesLE (x.s.mem.readBytes o.pa o.bytes)
    let new := MemOp.apply o.op (8 * o.bytes) old o.b.toNat o.e.toNat
    let ct := x.s.completion (svcDie svc) (lineOf o.pa)
    let s := { x.s with mem := x.s.mem.writeBytes o.pa (toBytesLE o.bytes new) }
    let s := (s.dropL1 (coreOf p.crew) (lineOf o.pa)).dropLease (dieOfCore (coreOf p.crew)) (lineOf o.pa)
    let s := s.notify svc
    { x with s := if p.signal then s.mirrorWrite o.pa ct else s, old := x.old ++ [(o.lane, old)], ct := max x.ct ct }

/-- One packet of an operation has been served: its values reach their registers, and the last packet of a load binds
it (spec/06 R118, R122), but not into a die that relocks (spec/18 R287), and an acquire not before older operations have
been performed (spec/12 R218). A packet whose crew has left is answered to nobody. Of several packets with an uncorrectable word the
first that is served names the address, and no lane receives a value (log 73). -/
def State.packetDone (s : State) (p : Packet) (x : Applied) : State :=
  if !p.live then s
  else
  let s := (s.modCrew p.crew fun c => { c with ct := max c.ct x.ct, drawing := c.drawing && (p.store || p.dst.isSome) }).signalWake
    (coreOf p.crew) 1
  let upd (m : MemPend) : MemPend :=
    if m.id = p.opId then
      { m with svc := m.svc - 1, bad := m.bad <|> x.bad,
               ct := if p.store && p.wide then some (max x.ct (m.ct.getD 0)) else m.ct,
               writes := m.writes ++ match p.dst with
                 | some d => p.ops.flatMap fun o => destWrites d m.wide o.lane (((x.old.find? fun y => y.1 = o.lane).map (·.2)).getD 0)
                 | none => [] }
    else m
  if p.store then s.modCrew p.crew fun c => { c with stores := c.stores.map upd }
  else
    match p.dst with
    | none =>
      s.modCrew p.crew fun c => match x.bad, x.old with
        | some a, _ => { c with phase := badPhase, aux := a, reply := some 0 }
        | none, o :: _ => { c with ticket := some (BitVec.ofNat 64 o.2) }
        | none, [] => { c with phase := lostPhase, aux := (p.ops.head?.map (·.va)).getD 0, reply := some 0 }
    | some _ =>
      let s := s.modCrew p.crew fun c => { c with loads := c.loads.map upd }
      match (s.crew p.crew).loads.find? fun m => m.id = p.opId && !m.done && m.svc = 0 with
      | some m =>
        if s.relocking (dieOfCore (coreOf p.crew)) || (m.acq && !(s.crew p.crew).olderPerformed m.id) then s
        else s.bindLoad p.crew m
      | none => s

/-- The answer to a packet of a crew whose die relocks waits for the end of it (spec/18 R287). -/
def State.answerPacket (s : State) (svc : Nat) (p : Packet) (x : Applied) : State :=
  if p.live && s.relocking (dieOfCore (coreOf p.crew)) then
    s.modSvc svc fun y => { y with replies := y.replies ++ [{ packet := p, old := x.old, bad := x.bad, ct := x.ct }] }
  else s.packetDone p x

/-- The answers that have waited for a die reach it. -/
def State.deliver (s : State) (die : Nat) : State :=
  let mine (y : Reply) : Bool := dieOfCore (coreOf y.packet.crew) = die
  s.svcs.foldl (fun s x => (x.2.replies.filter mine).foldl
    (fun s y => s.packetDone y.packet { s := s, old := y.old, bad := y.bad, ct := y.ct })
    (if x.2.replies.isEmpty then s else s.modSvc x.1 fun z => { z with replies := z.replies.filter fun y => !mine y })) s

/-- The frame of an event of a service crew: those of this package stop while their die relocks (spec/18 R286). -/
def onService (svc : Nat) (s : State) (f : State → State) : Host.Outcome State Fault Refusal :=
  if svc < 16 then eventOn (svcDie svc) s f else event s f

/-- SERVICE_CREW_APPLY: the service crew applies the oldest instruction in its queue, all of its packets together, in
serial order (spec/06 R116, R121). -/
def State.servePackets (s : State) (svc : Nat) : Nat → Option (Nat × Nat) → State
  | 0, _ => s
  | n + 1, same =>
    match (s.svc svc).queue with
    | [] => s
    | p :: rest =>
      if s.svcBusy svc p.crew then s
      else if same = none || (same = some (p.crew, p.opId)) then
        let s := s.modSvc svc fun x => { x with queue := rest }
        let s := s.charge p.crew 3 (2 * (p.ops.map (·.bytes)).sum)
        let x := p.ops.foldl (applyLane svc p) { s := s }
        (x.s.answerPacket svc p x).servePackets svc n (some (p.crew, p.opId))
      else s

def execServiceCrewApply (svc : Nat) (s : State) : Host.Outcome State Fault Refusal :=
  onService svc s fun s => s.servePackets svc Config.svcQueue none

/-- WAIT_AT_HOME_SATISFIED: a waiter's word is tested; a value that satisfies it is returned (spec/06 R126). -/
def execWaitAtHomeSatisfied (svc idx : Nat) (s : State) : Host.Outcome State Fault Refusal :=
  onService svc s fun s => if idx < (s.svc svc).waiters.length then s.notify svc else s

/-! ## Requests -/

/-- Splits a list into pieces of at most `n`. -/
def chunks (n : Nat) : Nat → List α → List (List α)
  | 0, _ => []
  | k + 1, l => if l.isEmpty then [] else l.take n :: chunks n k (l.drop n)

/-- The packets of one instruction, each for one service crew (spec/06 R118). -/
def packPackets (p : Packet) (ops : List (Nat × LaneOp)) : List (Nat × Packet) :=
  (ops.map (·.1)).eraseDups.flatMap fun svc =>
    let mine := (ops.filter fun x => x.1 = svc).map (·.2)
    (chunks Config.packetLanes mine.length mine).map fun l => (svc, { p with ops := l })

/-- Queues the packets, when every queue has room for them (spec/06 R118). -/
def State.sendPackets (s : State) (ps : List (Nat × Packet)) : Option State :=
  if ps.all fun x => (s.svc x.1).queue.length + (ps.filter fun y => y.1 = x.1).length ≤ Config.svcQueue then
    some (ps.foldl (fun s x => s.modSvc x.1 fun q => { q with queue := q.queue ++ [x.2] }) s)
  else none

/-- A request that finds no room waits for its retry; the full queue of a relocking die rejects nothing (spec/06 R118, spec/18
R287). -/
def State.noRoom (s : State) (key : Nat) (ps : List (Nat × Packet)) : Issue :=
  match ps.find? fun x => x.1 < 16 && svcDie x.1 ≠ dieOfCore (coreOf key) && s.relocking (svcDie x.1) with
  | some x => .wait .clock (s.modCrew key fun c => { c with heldDie := svcDie x.1 })
  | none => .wait .svcFull (s.reject key)

/-- The lane operations of an instruction, with their service crews. -/
def State.laneOps (s : State) (op : MemOp) (n : Nat) (b e : Nat → DWord) (lanes : List LaneAcc) : List (Nat × LaneOp) :=
  lanes.map fun a => (s.svcOf a.attr a.pa,
    { pa := a.pa, va := BitVec.ofNat 64 a.va, bytes := n, op := op, b := b a.lane, e := e a.lane, lane := a.lane })

/-- Before a request leaves, the die's L2 writes the line's dirty bytes back and drops it (spec/06 R117). -/
def State.preAtomic (s : State) (core : Nat) (lanes : List LaneAcc) : State :=
  lanes.foldl (fun s a => (s.flushLine core .die true a).1) s

/-- The frame of a request to service crews: its addresses are translated, and the writebacks that go before it reach their
homes (spec/06 R117, R128, spec/18 R287); older region loads of the crew on its bytes go first (spec/05 R98). -/
def requested (s : State) (key : Nat) (align : Nat) (addrs : List (Nat × DWord)) (body : List LaneAcc → State → Issue) :
    Issue :=
  if (s.crew key).behindLoad align (addrs.map (·.2)) then .wait .region s
  else held s key .both align addrs fun lanes t =>
    held? t key (t.flushHeld (coreOf key) .die true lanes)
      (body lanes ((t.charge key 3 (t.flushBytes (coreOf key) .die true lanes)).preAtomic (coreOf key) lanes))

/-- What a request to the service crews asks for. -/
structure Request where
  op : MemOp
  bytes : Nat
  align : Nat
  store : Bool
  wide : Bool
  signal : Bool := false
  dst : Option Operand := none
  acq : Bool := false
  addrs : List (Nat × DWord)
  b : Nat → DWord
  e : Nat → DWord := fun _ => 0

/-- Issues a request (spec/06 R118, R121, R128): its addresses are translated, older requests of the crew to the same
bytes go first, and the operation is counted. -/
def State.request (s : State) (key : Nat) (c : Crew) (q : Request) (after : State → Issue := .done) : Issue :=
  requested s key q.align q.addrs fun lanes t =>
    let n := q.bytes
    let p : Packet := { crew := key, opId := (t.crew key).nextId, store := q.store, wide := q.wide, ctx := t.ctxOf key,
                        signal := q.signal, dst := q.dst, ops := [] }
    let ps := packPackets p (t.laneOps q.op n q.b q.e lanes)
    match t.sendPackets ps with
    | none => t.noRoom key ps
    | some t =>
      let m : MemPend := { id := 0, pc := c.pc, dsts := q.dst.toList, wide := n / 4, acq := q.acq, svc := ps.length,
                           ack := lanes.any (fun a => t.foreign a.pa), cut := t.anyCut lanes
                           bytes := lanes.map (fun a => (a.pa, n)), va := t.foreignVa lanes }
      after (t.modCrew key fun c => if q.store then c.addStore m else c.addLoad m)

/-! ## ATOM, ATOMS, RED, FRED -/

/-- ATOM (spec/06 R119-R122). With a uniform result the operation is made once (spec/01 R15, log 26). -/
def execAtom (f : Ctl) (d a b : Operand) (op : AtomOp) (sem : Order) (sc : Scope) (sz u : Bool) (s : State) :
    Host.Outcome State Fault Refusal :=
  issue (.atom f d a b op sem sc sz u) s fun s key c =>
    if counterFull c.loads then .wait .counter s
    else
      let n := if sz then 8 else 4
      let go (s : State) : Issue :=
        s.request key c
          { op := AtomOp.memOp op u, bytes := n, align := n, store := false, wide := Scope.wide sc, dst := some d
            acq := sem = .acq || sem = .ar
            addrs := (accessLanes d (c.effLanes f)).map fun l => (l, s.operand key c true a l)
            b := fun l => s.operand key c sz b l
            e := fun l => s.operand key c sz (AtomOp.compare op) l }
      if sem = .rel || sem = .ar then fenced s key .rel sc go else go s

/-- ATOMS (spec/06 R119-R122): applied by the scratchpad banks. -/
def execAtoms (f : Ctl) (d a b : Operand) (op : AtomOp) (peer : Option (BitVec 3)) (sz u : Bool) (s : State) :
    Host.Outcome State Fault Refusal :=
  issue (.atoms f d a b op peer sz u) s fun s key c =>
    if counterFull c.loads then .wait .counter s
    else if s.peerAway c peer then .wait .privileged s
    else
      let n := if sz then 8 else 4
      let at_ := (accessLanes d (c.effLanes f)).map fun l => (l, s.localOfs key c a 0 l)
      let push (s : State) (ws : List RegWrite) (bad : Option DWord) : Issue :=
        .done (s.modCrew key fun c => c.addLoad { id := 0, pc := c.pc, dsts := [d], wide := n / 4, writes := ws, bad := bad })
      match s.peerParty c peer with
      | none => match peerFault at_ with
        | some r => .trap r
        | none => push s [] none
      | some k =>
        match localFault 0x08 n (s.party k).scratchLen at_ with
        | some r => .trap r
        | none =>
          let r := at_.foldl (fun (acc : State × List RegWrite × Option DWord) x =>
            match firstBad (acc.1.party k).scratchBad n [x.2] with
            | some b => (acc.1, acc.2.1, some (acc.2.2.getD b))
            | none =>
            let old := fromBytesLE (Memory.readBytes (acc.1.party k).scratch x.2 n)
            let new := MemOp.apply (AtomOp.memOp op u) (8 * n) old (s.operandNat key c sz b x.1)
              (s.operandNat key c sz (AtomOp.compare op) x.1)
            (acc.1.modParty k fun p => p.putScratch x.2 (toBytesLE n new), acc.2.1 ++ destWrites d (n / 4) x.1 old, acc.2.2))
            (s, [], none)
          push r.1 r.2.1 r.2.2

/-- RED and FRED (spec/06 R122, R124): a contribution to a reducer view (spec/08 R153), or a request to the service
crews. -/
def State.reduce (s : State) (key : Nat) (c : Crew) (f : Ctl) (a b : Operand) (n : Nat) (sz rel : Bool) (sc : Scope)
    (op : MemOp) (x : DWord → Contribution) : Issue :=
  if counterFull c.stores then .wait .counter s
  else
    let go (s : State) : Issue :=
      let addrs := (c.effLanes f).map fun l => (l, s.operand key c true a l)
      let views := addrs.map fun y => (y.1, y.2.toNat)
      if !addrs.isEmpty && c.role.isSome && views.all fun y => isViewAddr y.2 then
        match s.contributeAll key (fun l => x (s.operand key c sz b l)) views with
        | .error l => .trap (viewFault views l)
        | .ok t => .done (t.modCrew key fun c => c.addStore { id := 0, pc := c.pc })
      else
        s.request key c { op := op, bytes := n, align := n, store := true, wide := Scope.wide sc, addrs := addrs
                          b := fun l => s.operand key c sz b l }
    if rel then fenced s key .rel sc go else go s

def execRed (f : Ctl) (a b : Operand) (op : RedOp) (rel : Bool) (sc : Scope) (sz u : Bool) (s : State) :
    Host.Outcome State Fault Refusal :=
  issue (.red f a b op rel sc sz u) s fun s key c =>
    s.reduce key c f a b (if sz then 8 else 4) sz rel sc (RedOp.memOp op u) fun w => .red op sz u w

def execFred (f : Ctl) (a b : Operand) (ft : FredTy) (op : MinMaxAdd) (fz cn sat rel : Bool) (sc : Scope) (s : State) :
    Host.Outcome State Fault Refusal :=
  issue (.fred f a b ft op fz cn sat rel sc) s fun s key c =>
    s.reduce key c f a b 4 false rel sc (.fred ft op fz cn sat)
      fun w => .fred ft op (!(fz || cn || sat)) (w.extractLsb' 0 32)

/-! ## Signals and tickets -/

def SigScope.scope : SigScope → Scope | .die => .die | .pkg => .pkg | .sys => .sys

/-- A signal operation counted in S: it releases, then goes to the service crew; with an empty mask it only counts
(spec/06 R125, spec/01 R12). -/
def State.signalOp (s : State) (key : Nat) (c : Crew) (f : Ctl) (sc : Scope) (va : DWord) (align : Nat)
    (skip : Nat) (op : MemOp) (b : DWord) (dst : Option Operand) (signal : Bool) : Issue :=
  if counterFull c.stores then .wait .counter s
  else if c.eff f = 0 then .done (s.modCrew key fun c => c.addStore { id := 0, pc := c.pc })
  else
    let lane := (c.effLanes f).headD 0
    match addressFault align va with
    | some r => .trap { r with d2 := BitVec.ofNat 32 lane, lmask := (laneFields [lane] lane).1 }
    | none =>
      fenced s key .rel sc fun s =>
        s.request key c { op := op, bytes := 8, align := 8, store := true, wide := Scope.wide sc, signal := signal
                          dst := dst, addrs := [(lane, va + BitVec.ofNat 64 skip)], b := fun _ => b }

def execSigset (f : Ctl) (a b : Operand) (sc : SigScope) (s : State) : Host.Outcome State Fault Refusal :=
  issue (.sigset f a b sc) s fun s key c =>
    s.signalOp key c f (SigScope.scope sc) (s.uni key c true a) 8 0 .exch (s.uni key c true b) none true

def execSigadd (f : Ctl) (d : Option Operand) (a b : Operand) (sc : SigScope) (s : State) :
    Host.Outcome State Fault Refusal :=
  issue (.sigadd f d a b sc) s fun s key c =>
    s.signalOp key c f (SigScope.scope sc) (s.uni key c true a) 8 0 .add (s.uni key c true b) d true

/-- TKSERVE (spec/06 R127): SERVE is at offset 8 of the ticket object. -/
def execTkserve (f : Ctl) (a : Operand) (sc : SigScope) (s : State) : Host.Outcome State Fault Refusal :=
  issue (.tkserve f a sc) s fun s key c =>
    s.signalOp key c f (SigScope.scope sc) (s.uni key c true a) 16 8 .add 1 none false

/-- Whether a crew waits at a service crew. -/
def State.waitsAtHome (s : State) (key : Nat) : Bool := s.svcs.any fun x => x.2.waiters.any fun w => w.crew = key

/-- Waits at the home for a condition: the waiter is registered unless it stands there already (spec/06 R126), once nothing holds the
request on its way (spec/18 R287, spec/27 R364). A word of a package that no port reaches is lost: the instruction waits for nothing
else, so the machine check comes at its own PC (spec/26 R353, log 60). -/
def State.waitAtHome (s : State) (key : Nat) (va : DWord) (cc : SigCond) (val : DWord) (w : Wait)
    (lane : Nat) : Issue :=
  let c := s.crew key
  if s.waitsAtHome key then .wait w s
  else
    requested s key 8 [(lane, va)] fun lanes t =>
      match lanes with
      | [] => .wait w t
      | x :: _ =>
        if c.atService [(x.pa, 8)] then .wait w t
        else if t.cutOff x.pa then .trap (lostReport 0 va)
        else held? t key (t.homeHeld (coreOf key) x.attr x.pa) <|
          let svc := t.svcOf x.attr x.pa
          .wait w (t.modSvc svc fun q =>
            { q with waiters := q.waiters ++ [{ crew := key, pa := x.pa, va := va, cc := cc, val := val }] })

/-- Writes a 64-bit uniform result in the effective lanes. -/
def Crew.writeUni (c : Crew) (f : Ctl) (d : Operand) (v : DWord) : Crew := c.writeDst true d (c.effLanes f) fun _ => v

/-- SIGWAIT (spec/06 R125, R126): it waits for the value, writes it, and acquires. -/
def execSigwait (f : Ctl) (d a b : Operand) (cc : SigCond) (sc : SigScope) (s : State) :
    Host.Outcome State Fault Refusal :=
  once (.sigwait f d a b cc sc) f s fun s key c =>
    let va := s.uni key c true a
    let lane := (c.effLanes f).headD 0
    match c.reply with
    | some v =>
      if c.phase = badPhase then .trap { cause := 0x1F, addr := va, eng := 7 }
      else if c.phase = lostPhase then .trap (lostReport 0 c.aux)
      else fenced s key .acq (SigScope.scope sc) fun s =>
        .done (s.modCrew key fun c => c.writeUni f d v)
    | none => s.waitAtHome key va cc (s.uni key c true b) .sigwait lane

/-- TICKET (spec/06 R127): draws NEXT, or takes B, waits until SERVE equals it, and acquires. -/
def execTicket (f : Ctl) (d a : Operand) (ex : Option Operand) (sc : SigScope) (s : State) :
    Host.Outcome State Fault Refusal :=
  once (.ticket f d a ex sc) f s fun s key c =>
    let va := s.uni key c true a
    let lane := (c.effLanes f).headD 0
    let t := match ex with | some b => some (s.uni key c true b) | none => c.ticket
    match addressFault 16 va, c.reply, t with
    | some r, _, _ => .trap { r with d2 := BitVec.ofNat 32 lane, lmask := (laneFields [lane] lane).1 }
    | none, some _, t =>
      if c.phase = badPhase then
        .done (s.modCrew key fun c =>
          { c with ticket := none, nextId := c.nextId + 1
                   poison := c.poison ++ [{ words := (operandRegs d 2).map fun r => (r.1, r.2, 0), cls := .l, id := c.nextId
                                            rep := { cause := 0x1F, addr := c.aux, eng := 7 } }] })
      else if c.phase = lostPhase then .trap (lostReport 0 c.aux)
      else
        fenced s key .acq (SigScope.scope sc) fun s =>
          .done (s.modCrew key fun c => { c.writeUni f d (t.getD 0) with ticket := none })
    | none, none, some t => s.waitAtHome key (va + 8) .eq t .ticket lane
    | none, none, none =>
      if c.drawing then .wait .ticket s
      else
        requested s key 8 [(lane, va)] fun lanes u =>
          let p : Packet := { crew := key, opId := (u.crew key).nextId, store := false, wide := Scope.wide (SigScope.scope sc),
                              ctx := u.ctxOf key, signal := false, dst := none, ops := [] }
          let ps := packPackets p (u.laneOps .add 8 (fun _ => 1) (fun _ => 0) lanes)
          match u.sendPackets ps with
          | none => u.noRoom key ps
          | some u => .wait .ticket (u.modCrew key fun c => { c with drawing := true })

end Sys2Proof.Machine
end

