-- ==== Sys2Proof/Machine/Caches.lean ====
section
/-! DEFINITION. The events of the caches and of translation (spec/12 R205, R207, spec/13 R224, R226). -/
namespace Sys2Proof.Machine

/-- REPLACEMENT_WRITEBACK: a die's L2 drops a line, clean bytes before their lease ends too (spec/12 R205); its dirty bytes go
home, unless something holds them (spec/18 R287, spec/27 R364), and the writer cores keep the completion time (R207). -/
def execReplacementWriteback (die line : Nat) (s : State) : Host.Outcome State Fault Refusal :=
  eventOn die s fun s =>
    let x := s.l2 die line
    if x.dirtyMask != 0 && (s.wayHeld (16 * die) x.home).isSome then s else s.replaceLine die line

/-- LEASE_EXPIRY: the holder's Meridian has reached X - 2 and the clean bytes are invalid (spec/12 R205). -/
def execLeaseExpiry (die line : Nat) (s : State) : Host.Outcome State Fault Refusal :=
  event s fun s =>
    let x := s.l2 die line
    match x.clean with
    | some (exp, _) => if exp ≤ s.mer die + 2 then s.setL2 die line { x with clean := none } else s
    | none => s

/-- ACCESS_RETRY: the oldest rejected access of a core is made again (spec/13 R226). -/
def execAccessRetry (core : Nat) (s : State) : Host.Outcome State Fault Refusal :=
  eventOn (dieOfCore core) s fun s =>
    match (s.core core).rejected with
    | [] => s
    | k :: rest =>
      let s := s.modCore core fun c => { c with rejected := rest }
      if (Tbl.get? s.crews k).isSome then s.modCrew k fun c => { c with wait := none } else s

/-- PAGE_WALK_DONE: a walk ends that has one of the die's 64 walkers, which take the misses in turn; the TLBs take the translation, or the walk, which has found no page or one without the permission, stays failed until the crew that
started it has raised its fault and been served (spec/13 R224). -/
def execPageWalkDone (die idx : Nat) (s : State) : Host.Outcome State Fault Refusal :=
  eventOn die s fun s =>
    let x := s.die die
    match x.walks[idx]? with
    | none => s
    | some w =>
      let ahead := ((x.walks.take idx).filter fun y => y.failed.isNone).length
      if w.failed.isSome || Config.walkers ≤ ahead then s
      else
        let failed (e : BitVec 8 × Bool) : State :=
          if (Tbl.get? s.crews (askedFor w.crew)).isSome then s.setDie die { x with walks := x.walks.set idx { w with failed := some e } }
          else s.setDie die { x with walks := x.walks.eraseIdx idx }
        match (s.pageWalk w.ctx w.va).map fun e => (e, e.denies w.need) with
        | .error e => failed e
        | .ok (e, some sub) => failed (sub, e.hm)
        | .ok (e, none) =>
          let s := s.setDie die { x with walks := x.walks.eraseIdx idx, tlb := tlbInsert x.tlb Config.sharedTlbSize e }
          w.cores.foldl (fun s k => s.modCore k fun c => { c with tlb := tlbInsert c.tlb Config.l1TlbSize e }) s

end Sys2Proof.Machine
end

