-- ==== Sys2Proof/Machine/Copy.lean ====
section
/-! DEFINITION. MAJ 0x35: shape records and the copy engine (spec/05 R108-R112, spec/03 R39, R55, spec/08 R159), and the
access of engines to the memory spaces, which the drain unit shares. -/
namespace Sys2Proof.Machine

/-! ## Shape records (spec/05 Table 5-5) -/

def bitsOf (r : BitVec n) (lo len : Nat) : Nat := (r.extractLsb' lo len).toNat
def sintOf (r : BitVec n) (lo : Nat) : Int := (r.extractLsb' lo 32).toInt

/-- One side of a shape: its space, peer, layout, base and strides. -/
structure Side where
  space : Nat
  peer : Nat
  pl : Bool
  base : Nat
  s1 : Int
  s2 : Int
deriving DecidableEq, Repr

def shapeFmt (r : BitVec 512) : Nat := bitsOf r 8 4
def shapeNdim (r : BitVec 512) : Nat := bitsOf r 14 2
def shapeSc (r : BitVec 512) : Nat := bitsOf r 22 3
def shapeTid (r : BitVec 512) : Nat := bitsOf r 32 32
def shapeExt (r : BitVec 512) (i : Nat) : Nat := bitsOf r (192 + 32 * i) 24
def shapeAux (r : BitVec 512) (i : Nat) : Int := sintOf r (416 + 32 * i)
def shapeSrc (r : BitVec 512) : Side :=
  { space := bitsOf r 0 4, peer := bitsOf r 16 3, pl := r.getLsbD 12, base := bitsOf r 64 64,
    s1 := sintOf r 288, s2 := sintOf r 320 }
def shapeDst (r : BitVec 512) : Side :=
  { space := bitsOf r 4 4, peer := bitsOf r 19 3, pl := r.getLsbD 13, base := bitsOf r 128 64,
    s1 := sintOf r 352, s2 := sintOf r 384 }

/-- The bits of an element of a format, Table 3-1; an MLD code moves its μ array. -/
def fmtBits (c : Nat) : Nat := [32, 16, 16, 8, 8, 8, 32, 4, 16, 8, 64, 64].getD c 8

/-- The reserved fields of a record. -/
def shapeReserved (r : BitVec 512) : Bool :=
  bitsOf r 25 7 ≠ 0 || bitsOf r 216 8 ≠ 0 || bitsOf r 248 8 ≠ 0 || bitsOf r 280 8 ≠ 0 || bitsOf r 480 32 ≠ 0

/-- A side's base is aligned to the element size, or to 4 bytes in PL32. -/
def Side.aligned (x : Side) (fmt : Nat) : Bool := x.base % (if x.pl then 4 else max 1 (fmtBits fmt / 8)) = 0

/-- Whether TSHAPE accepts a record (spec/05 R109) from a crew of a role, or from an agent; `parties` of its convoy. -/
def shapeOk (r : BitVec 512) (role : Option Role) (parties : Nat) : Bool :=
  let src := shapeSrc r
  let dst := shapeDst r
  let fmt := shapeFmt r
  let peerOk (x : Side) : Bool := if x.space = 2 then x.peer < parties else x.peer = 0
  !shapeReserved r && src.space < 6 && dst.space < 6 && fmt < 12 && shapeNdim r < 3 && shapeSc r < 6 &&
    (shapeNdim r ≠ 0 || shapeExt r 1 = 1) && (shapeNdim r = 2 || shapeExt r 2 = 1) &&
    shapeExt r 0 ≠ 0 && shapeExt r 1 ≠ 0 && shapeExt r 2 ≠ 0 && peerOk src && peerOk dst &&
    !(role.isSome && (src.space = 4 || dst.space = 4)) && !(role ≠ some .copy && dst.space = 3) &&
    !((src.pl || dst.pl) && (fmt = 7 || fmt = 10 || fmt = 11)) && !(fmt = 7 && shapeExt r 0 % 2 = 1) &&
    src.aligned fmt && dst.aligned fmt

/-- The bytes of a row of `n` elements. -/
def rowBytes (pl : Bool) (fmt n : Nat) : Nat := if pl then (n + 31) / 32 * 4 * fmtBits fmt else n * fmtBits fmt / 8

/-- An address after a signed step, modulo 2^64. -/
def stepAddr (a : Nat) (d : Int) : Nat := wrapInt 64 ((a : Int) + d)

/-- The rows of a record: their addresses on one side. -/
def Side.rows (x : Side) (disp : Nat) (e1 e2 : Nat) : List Nat :=
  (upto 0 e2).flatMap fun (j : Nat) => (upto 0 e1).map fun (i : Nat) =>
    stepAddr (x.base + disp) ((i : Int) * x.s1 + (j : Int) * x.s2)

/-! ## PL32 (spec/03 R55) -/

/-- The plane words of one group of up to 32 elements. -/
def plGroup (w : Nat) (xs : List Nat) : List Byte :=
  (upto 0 w).flatMap fun j =>
    toBytesLE 4 ((upto 0 32).foldl (fun a i => a + (xs.getD i 0) / 2 ^ (w - 1 - j) % 2 * 2 ^ i) 0)

def toPlanes (w : Nat) (xs : List Nat) : List Byte :=
  (upto 0 ((xs.length + 31) / 32)).flatMap fun g => plGroup w ((xs.drop (32 * g)).take 32)

/-- Element `i` of a row of planes. -/
def planeElem (w : Nat) (row : List Byte) (i : Nat) : Nat :=
  (upto 0 w).foldl (fun a j =>
    let word := fromBytesLE ((row.drop (i / 32 * 4 * w + 4 * j)).take 4)
    a + word / 2 ^ (i % 32) % 2 * 2 ^ (w - 1 - j)) 0

/-- Element `i` of a plain row. -/
def plainElem (w : Nat) (row : List Byte) (i : Nat) : Nat :=
  fromBytesLE ((row.drop (i * w / 8)).take ((w + 7) / 8)) / (if w = 4 then 16 ^ (i % 2) else 1) % 2 ^ w

def rowElem (pl : Bool) (w : Nat) (row : List Byte) (i : Nat) : Nat :=
  if pl then planeElem w row i else plainElem w row i

/-- The bytes of a row of elements. -/
def packRow (pl : Bool) (w : Nat) (xs : List Nat) : List Byte :=
  if pl then toPlanes w xs
  else if w = 4 then
    (upto 0 (xs.length / 2)).map fun i => BitVec.ofNat 8 (xs.getD (2 * i) 0 + 16 * xs.getD (2 * i + 1) 0)
  else xs.flatMap fun x => toBytesLE (w / 8) x

/-- A row converted between the layouts of two sides; the padding of a row of planes is zero (spec/05 R111). -/
def convertRow (src dst : Bool) (fmt n : Nat) (row : List Byte) : List Byte :=
  if !src && !dst then row
  else packRow dst (fmtBits fmt) ((upto 0 n).map fun i => rowElem src (fmtBits fmt) row i)

/-! ## The spaces, as engines reach them -/

/-- Why an engine cannot go on: an address that does not translate, one whose walk has to end first for the engine of a crew,
something that has to come first, a die that relocks (4 for a link that retrains), an uncorrectable word, or another package that no
port reaches. -/
inductive EngErr where
  | trans (va : Nat) (hm : Bool)
  | miss (key va : Nat) (need : Need)
  | wait (w : Wait)
  | held (die : Nat)
  | bad (va : Nat)
  | lost (va : Nat)
deriving DecidableEq, Repr

/-- Whether an error ends an operation whatever the host does (spec/05 R115, spec/13 R239). -/
def EngErr.final : EngErr → Bool | .bad _ => true | .lost _ => true | _ => false

/-- Whether an engine of a crew waits: for a walk, a die or an older access, or for a page that is absent and host-managed,
when the host has not declined to map it (spec/05 R112, spec/13 R231). -/
def State.engineWaits (s : State) (key : Nat) : EngErr → Bool
  | .trans _ hm => hm && (s.core (coreOf key)).hostAsk != some (engineAsk key, true)
  | .miss .. => true
  | .wait _ => true
  | .held _ => true
  | .bad _ => false
  | .lost _ => false

/-- What an error that holds an engine makes it wait for (spec/15 Table 15-5). -/
def EngErr.why : EngErr → Wait | .wait w => w | .held _ => .clock | _ => .walk
def EngErr.heldDie : EngErr → Nat | .held d => d | _ => 4

/-- An engine that waits for a walk has started it, or has been turned away (spec/13 R224, R226). -/
def State.engineMiss (s : State) : EngErr → State
  | .miss key va need =>
    let core := coreOf key
    match s.miss (s.ctxOf key) (engineAsk key) core va need with
    | (.rejected, s) => s.rejectOn core (engineAsk key)
    | (_, s) => s
  | _ => s

/-- Whether the access of an engine of a crew stands turned away (spec/13 R226). -/
def State.engineRejected (s : State) (key : Nat) : Bool := (s.core (coreOf key)).rejected.contains (engineAsk key)

/-- What an engine of a crew has asked of the agent or of the walkers is over. -/
def State.endAsk (s : State) (key : Nat) : State :=
  (s.dropWalks (engineAsk key)).modCore (coreOf key) fun x =>
    { x with hostAsk := x.hostAsk.filter fun y => y.1 != engineAsk key
             rejected := x.rejected.filter fun y => y != engineAsk key }

/-- The address that an error names, with its HM bit. -/
def EngErr.page? : EngErr → Option (Nat × Bool) | .trans va hm => some (va, hm) | _ => none
def stuckAt {α : Type} (x : Except EngErr α) : Option (Nat × Bool) :=
  match x with | .error e => e.page? | .ok _ => none

/-- A range split at line boundaries. -/
def pieces : Nat → Nat → Nat → List (Nat × Nat)
  | 0, _, _ => []
  | _ + 1, _, 0 => []
  | k + 1, a, n => let m := min n (128 - a % 128); (a, m) :: pieces k (a + m) (n - m)

def linePieces (a n : Nat) : List (Nat × Nat) := pieces (n / 128 + 2) a n

/-- The translation of an engine's address through the TLBs and walkers that it shares with the crews of its die; a walk of
its own that has failed faults (spec/05 R112, spec/13 R224). A privileged agent's is physical. -/
def State.engineTr (s : State) (key va : Nat) (need : Need) : Except EngErr (Nat × Attr) :=
  let core := coreOf key
  if (s.crew key).role.isNone then (if s.exists? va then .ok (va, .agent) else .error (.trans va false))
  else if va ≥ 2 ^ 56 then .error (.trans va false)
  else match s.tlbFind core (s.ctxOf key) va with
    | some e => match e.denies need with
      | some _ => .error (.trans va false)
      | none => .ok (e.pa + (va - e.vbase), e.attr)
    | none =>
      match (s.die (dieOfCore core)).walks.find? fun w =>
          s.samePage w (s.ctxOf key) va && w.crew = engineAsk key && w.failed.isSome with
      | some w => match w.failed with
        | some (sub, hm) => .error (if sub = walkLost then .lost va else .trans va (sub = 0 && hm))
        | none => .error (.miss key va need)
      | none => .error (.miss key va need)

/-- An access of an engine comes after older accesses of its crew to the same bytes (spec/12 R220), and waits for a die that
relocks (spec/18 R287). -/
def State.engineHeld (s : State) (key pa n : Nat) (die : Option Nat) : Except EngErr Unit :=
  if (s.crew key).atService [(pa, n)] then .error (.wait .acquire)
  else match die with | some d => .error (.held d) | none => .ok ()

/-- Reads global memory as the copy engine does: L2, then the home (spec/12 Table 12-3). -/
def State.engineRead (s : State) (key : Nat) : List (Nat × Nat) → Except EngErr (List Byte × State)
  | [] => .ok ([], s)
  | (va, n) :: rest => do
    let (pa, a) ← s.engineTr key va .read
    let a := { a with rep := false }
    s.engineHeld key pa n (s.readHeld (coreOf key) a true none pa)
    if s.cutOff pa then .error (.lost va)
    else if s.badAt pa n then .error (.bad va)
    else
      let s := s.charge key 3 (s.readBytes (coreOf key) true none [(a, pa)])
      let (l, s) := s.readL2 (dieOfCore (coreOf key)) a (lineOf pa)
      let (bs, s) ← s.engineRead key rest
      return (((upto (pa % 128) n).map (lineByte l)) ++ bs, s)

/-- What an engine's writes have to wait for: the completion time that they returned, the one that Meridian has to pass, and
whether another package has to acknowledge them (spec/05 R99, R111, spec/12 R206, R208). -/
structure Wrote where
  ct : Nat := 0
  wait : Option Nat := none
  ack : Bool := false
deriving DecidableEq, Repr

def maxOpt (a b : Option Nat) : Option Nat :=
  match a, b with | some x, some y => some (max x y) | some x, none => some x | none, y => y

def Wrote.and (a b : Wrote) : Wrote := { ct := max a.ct b.ct, wait := maxOpt a.wait b.wait, ack := a.ack || b.ack }

def StoreEnd.wrote : StoreEnd → Wrote
  | .now ct => { ct := ct.getD 0 }
  | .passed ct => { ct := ct, wait := some ct }
  | .ack => { ack := true }

/-- The crew keeps the completion times of its engine's writes, as it keeps those of its stores (spec/05 R99, R111). -/
def State.wrote (s : State) (key : Nat) (w : Wrote) : State := s.modCrew key fun c => { c with ct := max c.ct w.ct }

/-- Writes global memory as a store of the core (spec/12 R207). -/
def State.engineWrite (s : State) (key : Nat) (sc : Scope) : List (Nat × Nat) → List Byte → Except EngErr (State × Wrote)
  | [], _ => .ok (s, {})
  | (va, n) :: rest, bs => do
    let (pa, a) ← s.engineTr key va .write
    s.engineHeld key pa n (s.storeHeld (coreOf key) a sc pa)
    if (s.crew key).behindLoad n [BitVec.ofNat 64 va] then .error (.wait .region)
    if s.cutOff pa then .error (.lost va)
    else
    let s := s.charge key 3 (s.writtenBytes (coreOf key) a sc pa n)
    let (s, e) := s.storeLine (coreOf key) a sc pa (bs.take n)
    let (s, w) ← s.engineWrite key sc rest (bs.drop n)
    return (s, e.wrote.and w)

/-- A physical tile of the accumulator, as a privileged agent names it (log 66): the party that holds it and its own number; a tile
that no party holds stands in the core's own store (spec/20 R302). -/
def State.tileOwner (s : State) (core t : Nat) : Option (Nat × Nat) :=
  s.parties.findSome? fun x => if x.1 / 16 = core then (x.2.tileIds.idxOf? t).map fun i => (x.1, i) else none

/-- The party whose array a side names, for the spaces of a party: a peer that CTXSAVE has taken from its core is none. -/
def State.sideParty (s : State) (key : Nat) (x : Side) : Option Nat :=
  let c := s.crew key
  if x.space = 2 then s.partyNumbered (s.party c.party).task x.peer else some c.party

/-- The party that a side names, wherever it is. -/
def State.sideOwner (s : State) (key : Nat) (x : Side) : Party :=
  match s.sideParty key x with
  | some k => s.party k
  | none => ((Tbl.get? (s.taskOf key).away x.peer).map (·.1)).getD (s.partyOf key)

/-- A byte of the elements of an accumulator store. -/
def accByte (acc : Sparse 64) (a : Nat) : Byte := (Sparse.get acc (a / 8)).extractLsb' (8 * (a % 8)) 8
def accSetByte (acc : Sparse 64) (a : Nat) (b : Byte) : Sparse 64 :=
  let w := Sparse.get acc (a / 8)
  let m : DWord := BitVec.shiftLeft 0xFF (8 * (a % 8))
  Sparse.set acc (a / 8) ((w &&& ~~~m) ||| BitVec.shiftLeft (b.setWidth 64) (8 * (a % 8)))

/-- Bytes of one tile of the accumulator store. -/
def tileBytes : Nat := 131072

/-- The first uncorrectable byte of some, as an engine meets it (spec/05 R115). -/
def whole (bad : List Nat) (a n : Nat) : Except EngErr Unit :=
  match if bad.isEmpty then none else (upto a n).find? bad.contains with
  | some b => .error (.bad b)
  | none => .ok ()

/-- Window addresses on another die that relocks are out of reach (spec/18 R287). -/
def State.windowReach (s : State) (key a n : Nat) : Except EngErr Unit :=
  match s.windowHeld key ((upto (a / 4) ((a + n + 3) / 4 - a / 4)).map fun w => (0, 4 * w)) with
  | some d => .error (.held d)
  | none => .ok ()

/-- Reads a row of a side. -/
def State.sideRead (s : State) (key : Nat) (x : Side) (a n : Nat) : Except EngErr (List Byte × State) :=
  match x.space with
  | 0 => s.engineRead key (linePieces a n)
  | 4 => .ok ((upto a n).map fun b => match s.tileOwner (coreOf key) (b / tileBytes) with
      | some (k, t) => accByte (s.party k).acc (t * tileBytes + b % tileBytes)
      | none => accByte (s.core (coreOf key)).acc b, s)
  | 5 => do
    s.windowReach key a n
    whole (s.badWindow.flatMap fun w => upto w 4) a n
    return ((upto a n).map fun b => match s.window (s.windowCtx (s.crew key)) (b / 4 * 4) with
      | some r => (s.windowRead r).extractLsb' (8 * (b % 4)) 8
      | none => 0, s)
  | _ =>
    match s.sideParty key x with
    | none => .error (.wait .privileged)
    | some k => do
      let p := s.party k
      let (store, bad) := if x.space = 3 then (p.weight, p.weightBad) else (p.scratch, p.scratchBad)
      whole bad a n
      return (Memory.readBytes store a n, s)

/-- Writes a row of a side. -/
def State.sideWrite (s : State) (key : Nat) (x : Side) (sc : Scope) (a : Nat) (bs : List Byte) : Except EngErr (State × Wrote) :=
  let each (s : State) (f : State → Nat × Byte → State) : State := ((upto a bs.length).zip bs).foldl f s
  match x.space with
  | 0 => s.engineWrite key sc (linePieces a bs.length) bs
  | 4 => .ok (each s fun s y => match s.tileOwner (coreOf key) (y.1 / tileBytes) with
      | some (k, t) => s.modParty k fun p => { p with acc := accSetByte p.acc (t * tileBytes + y.1 % tileBytes) y.2 }
      | none => s.modCore (coreOf key) fun c => { c with acc := accSetByte c.acc y.1 y.2 }, {})
  | 5 => do
    s.windowReach key a bs.length
    let s := { s with badWindow := s.badWindow.filter fun w => !(a ≤ w && w + 4 ≤ a + bs.length) }
    return (each s fun s y => match s.window (s.windowCtx (s.crew key)) (y.1 / 4 * 4) with
      | some r =>
        let w := s.windowRead r
        let m : Word := BitVec.shiftLeft 0xFF (8 * (y.1 % 4))
        s.windowWrite r ((w &&& ~~~m) ||| BitVec.shiftLeft (y.2.setWidth 32) (8 * (y.1 % 4)))
      | none => s, {})
  | _ =>
    match s.sideParty key x with
    | none => .error (.wait .privileged)
    | some k => .ok (s.modParty k fun p => if x.space = 3 then p.putWeight a bs else p.putScratch a bs, {})

/-- The fault of a row that lies outside its space (spec/05 R110, Table 5-8, spec/08 R153). A row of the register window may
start at any byte of a word: the engine moves bytes (log 54). -/
def State.sideFault (s : State) (key : Nat) (x : Side) (a n : Nat) : Option Report :=
  let p := s.sideOwner key x
  let at_ (c : BitVec 8) (a : Nat) : Option Report := some { cause := c, addr := BitVec.ofNat 64 a }
  match x.space with
  | 0 =>
    if a + n > 2 ^ 56 then at_ 0x06 a
    else if (s.crew key).role.isSome && isViewAddr (a + n - 1) then
      some { cause := 0x19, d1 := BitVec.ofNat 32 (viewNumber a) }
    else none
  | 3 => if a + n > p.weightLen then at_ 0x09 a else none
  | 4 =>
    if a + n > Config.accTiles * tileBytes then some { cause := 0x1C, d1 := BitVec.ofNat 32 (max Config.accTiles (a / tileBytes)) }
    else none
  | 5 => ((upto (a / 4) ((a + n + 3) / 4 - a / 4)).find? fun w => (s.window (s.windowCtx (s.crew key)) (4 * w)).isNone).bind
      fun w => at_ 0x0B (4 * w)
  | _ => if a + n > p.scratchLen then at_ 0x08 a else none

/-- The first fault of a side's rows. -/
def State.rowsFault (s : State) (key : Nat) (x : Side) (n : Nat) (rows : List Nat) : Option Report :=
  rows.findSome? fun a => s.sideFault key x a n

/-! ## TSHAPE and TCOPY -/

/-- A record of 64 bytes in scratchpad. -/
def Party.record (p : Party) (ofs n : Nat) : Nat := fromBytesLE (Memory.readBytes p.scratch ofs n)

/-- The alignment and scratch-bound faults of a record at a scratchpad offset. -/
def Party.recordFault (p : Party) (ofs n align : Nat) : Option Report :=
  if ofs % align ≠ 0 then some { cause := 0x07, addr := BitVec.ofNat 64 ofs }
  else if ofs + n > p.scratchLen then some { cause := 0x08, addr := BitVec.ofNat 64 ofs }
  else none

def shapeFault (slot : Nat) : Report := { cause := 0x0C, d1 := BitVec.ofNat 32 slot }

def execTshape (f : Ctl) (a b : Operand) (s : State) : Host.Outcome State Fault Refusal :=
  once (.tshape f a b) f s fun s key c =>
    let slot := (s.uni key c false a).toNat
    let ofs := (s.uni key c false b).toNat % 2 ^ 32
    let p := s.party c.party
    if slot > 15 then .trap (shapeFault slot)
    else match p.recordFault ofs 64 64 with
      | some r => .trap r
      | none =>
        let r : BitVec 512 := BitVec.ofNat 512 (p.record ofs 64)
        if shapeOk r c.role (s.task p.task).partyCount then
          .done (s.setParty c.party { p with shapes := Tbl.set p.shapes slot r })
        else .trapAt (s.setParty c.party { p with shapes := Tbl.del p.shapes slot }) (shapeFault slot)

/-- Changes one slot of a stage ring (spec/08 R158). -/
def Ring.modSlot (g : Ring) (i : Nat) (f : RingSlot → RingSlot) : Ring :=
  { g with slots := g.slots.set i (f (g.slots.getD i {})) }

/-- The slot that `.rf` names: its ring and slot, which must be HELD (spec/08 R159). -/
def Party.heldSlot (p : Party) (e : Nat) : Except Report (Nat × Nat) :=
  let r := e / 256
  let i := e % 256
  match Tbl.get? p.rings r with
  | none => .error { cause := 0x1B, d1 := BitVec.ofNat 32 r }
  | some g =>
    if i < g.slots.length && (g.slots.getD i {}).st = .held then .ok (r, i)
    else .error { cause := 0x1B, d1 := BitVec.ofNat 32 i }

/-- Sets a slot's state. -/
def Party.setSlot (p : Party) (r i : Nat) (f : RingSlot → RingSlot) : Party :=
  match Tbl.get? p.rings r with
  | some g => { p with rings := Tbl.set p.rings r (g.modSlot i f) }
  | none => p

/-- Adds an operation to C, and numbers it. -/
def Crew.addC (c : Crew) (k : CKind) : Crew :=
  { c with cops := c.cops ++ [{ id := c.nextId, pc := c.pc, kind := k }], nextId := c.nextId + 1 }

/-- The frame of an instruction counted in C: an empty mask only counts (spec/01 R12, spec/05 R113). -/
def countedC (i : Instr) (f : Ctl) (s : State) (body : State → Nat → Crew → Issue) : Host.Outcome State Fault Refusal :=
  issue i s fun s key c =>
    if counterFull c.cops then .wait .counter s
    else if c.eff f = 0 then .done (s.modCrew key fun c => c.addC .empty)
    else body s key c

/-- The source and destination rows of a copy and the bytes of a row on each side. -/
structure CopyPlan where
  src : Side
  dst : Side
  srcRows : List Nat
  dstRows : List Nat
  srcLen : Nat
  dstLen : Nat
deriving DecidableEq, Repr

def copyPlan (r : BitVec 512) (disp : DWord) (dd : Bool) : CopyPlan :=
  let src := shapeSrc r
  let dst := shapeDst r
  let n := shapeExt r 0
  { src := src, dst := dst
    srcRows := src.rows (if dd then 0 else disp.toNat) (shapeExt r 1) (shapeExt r 2)
    dstRows := dst.rows (if dd then disp.toNat else 0) (shapeExt r 1) (shapeExt r 2)
    srcLen := rowBytes src.pl (shapeFmt r) n
    dstLen := rowBytes dst.pl (shapeFmt r) n }

/-- Whether a copy reads or writes the accumulator store, which only a privileged agent's may (spec/05 R110). -/
def CKind.onAcc : CKind → Bool
  | .copy _ r .. => (shapeSrc r).space = 4 || (shapeDst r).space = 4
  | _ => false

/-- Adds a copy to C; one of the accumulator store takes its place in the order of the die's tile operations (spec/20 R303). -/
def State.addCopy (s : State) (key : Nat) (k : CKind) : State :=
  if !k.onAcc then s.modCrew key fun c => c.addC k
  else
    let d := dieOfCore (coreOf key)
    let order := (s.die d).tileOrder
    (s.modDie d fun x => { x with tileOrder := order + 1 }).modCrew key fun c =>
      { c with cops := c.cops ++ [{ id := c.nextId, pc := c.pc, kind := k, order := order }], nextId := c.nextId + 1 }

def execTcopy (f : Ctl) (a b : Operand) (rf : Option Operand) (dd : Bool) (s : State) : Host.Outcome State Fault Refusal :=
  countedC (.tcopy f a b rf dd) f s fun s key c =>
    let slot := (s.uni key c false a).toNat
    let p := s.party c.party
    match Tbl.get? p.shapes slot with
    | none => .trap (shapeFault slot)
    | some r =>
      let disp := s.uni key c true b
      let plan := copyPlan r disp dd
      match s.rowsFault key plan.src plan.srcLen plan.srcRows, s.rowsFault key plan.dst plan.dstLen plan.dstRows with
      | some x, _ => .trap x
      | _, some x => .trap x
      | none, none =>
        match rf with
        | none => .done (s.addCopy key (.copy slot r disp dd none))
        | some e =>
          match p.heldSlot (s.uni key c false e).toNat with
          | .error x => .trap x
          | .ok (ri, si) =>
            let s := s.setParty c.party (p.setSlot ri si fun x => { x with st := .pend })
            .done (s.modCrew key fun c => c.addC (.copy slot r disp dd (some (ri, si))))

/-! ## The copy engine -/

/-- The scope of a code of Table 5-2. -/
def scopeOf (n : Nat) : Scope := match n with | 1 => .crew | 2 => .party | 3 => .core | 4 => .pkg | 5 => .sys | _ => .die

/-- A copy as far as it goes: the state, the units it has moved, the bytes of words that it has only in part, for one whose rows overlap
the elements that are left and its source as it began, what its writes wait for, and what stopped it. -/
structure CopyRun where
  s : State
  rows : Nat := 0
  buf : List (Nat × Byte) := []
  todo : Option (List (Nat × DWord)) := none
  first : List Byte := []
  w : Wrote := {}
  err : Option EngErr := none

/-- A unit of transfer: at most 128 bytes of a row, on each side (spec/15 R264). -/
structure CopyUnit where
  src : Nat
  dst : Nat
  srcLen : Nat
  dstLen : Nat
  n : Nat
deriving DecidableEq, Repr

/-- The units of a copy, row by row: 128 bytes of a plain row, or one group of planes. -/
def CopyPlan.units (p : CopyPlan) (fmt n : Nat) : List CopyUnit :=
  let g := if p.src.pl || p.dst.pl then 32 else 1024 / fmtBits fmt
  (p.srcRows.zip p.dstRows).flatMap fun r => (upto 0 ((n + g - 1) / g)).map fun i =>
    let m := min g (n - g * i)
    { src := r.1 + rowBytes p.src.pl fmt (g * i), dst := r.2 + rowBytes p.dst.pl fmt (g * i)
      srcLen := rowBytes p.src.pl fmt m, dstLen := rowBytes p.dst.pl fmt m, n := m }

/-- The destination bytes of a copy that are charged: those of one to or from global memory (spec/15 R264). -/
def CopyPlan.charged (p : CopyPlan) (n : Nat) : Nat := if p.src.space = 0 || p.dst.space = 0 then n else 0

/-! ### Whole words (spec/05 R111, spec/12 R213) -/

/-- Bytes by address, those that follow one another together. -/
def byteRuns : List (Nat × Byte) → List (Nat × List Byte)
  | [] => []
  | (a, b) :: t => match byteRuns t with
    | (a', bs) :: r => if a' = a + 1 then (a, b :: bs) :: r else (a, [b]) :: (a', bs) :: r
    | [] => [(a, [b])]

/-- Bytes by address with those of a unit over them. -/
def putBytes (buf : List (Nat × Byte)) (a : Nat) (bs : List Byte) : List (Nat × Byte) :=
  (buf.filter fun x => !(a ≤ x.1 && x.1 < a + bs.length)) ++ (upto a bs.length).zip bs

/-- Writes runs of bytes to a side. -/
def State.writeRuns (s : State) (key : Nat) (x : Side) (sc : Scope) : List (Nat × List Byte) → Except EngErr (State × Wrote)
  | [] => .ok (s, {})
  | (a, bs) :: rest => do
    let (s, w) ← s.sideWrite key x sc a bs
    let (s, w') ← s.writeRuns key x sc rest
    return (s, w.and w')

/-- Writes the bytes of a unit to a side: those of an aligned 4-byte word go together with the bytes that units still to come, at
`later`, write to it, so that no other engine's write comes between them. What is kept for later is answered. -/
def State.unitWrite (s : State) (key : Nat) (x : Side) (sc : Scope) (later : List (Nat × Nat)) (buf : List (Nat × Byte)) (a : Nat)
    (bs : List Byte) : Except EngErr (State × Wrote × List (Nat × Byte)) :=
  if buf.isEmpty && later.isEmpty then do
    let (s, w) ← s.sideWrite key x sc a bs
    return (s, w, [])
  else do
    let all := putBytes buf a bs
    let words := (all.map fun y => y.1 / 4).eraseDups.filter fun k => later.any fun u => overlaps u.1 u.2 (4 * k) 4
    let (s, w) ← s.writeRuns key x sc (byteRuns (all.filter fun y => !words.contains (y.1 / 4)))
    return (s, w, all.filter fun y => words.contains (y.1 / 4))

/-- Whether the destination rows of a copy consist of whole words. -/
def CopyPlan.wholeWords (p : CopyPlan) : Bool := p.dstLen % 4 = 0 && p.dstRows.all fun a => a % 4 = 0

/-- The destinations of the units still to come, where some word may belong to two units. -/
def CopyPlan.later (p : CopyPlan) (rest : List CopyUnit) : List (Nat × Nat) :=
  if p.wholeWords then [] else rest.map fun u => (u.dst, u.dstLen)

/-- Copies `k` units in order, of those that are left (spec/05 R111); once a quantity of the class has reached its limit no further one
starts (spec/15 R264). -/
def copyUnits (key fmt : Nat) (plan : CopyPlan) (sc : Scope) : Nat → List CopyUnit → CopyRun → CopyRun
  | 0, _, x => x
  | _, [], x => x
  | k + 1, u :: rest, x =>
    if x.s.spent key then { x with err := some (.wait .hold) }
    else match x.s.sideRead key plan.src u.src u.srcLen with
    | .error e => { x with err := some e }
    | .ok (row, t) =>
      match t.unitWrite key plan.dst sc (plan.later rest) x.buf u.dst (convertRow plan.src.pl plan.dst.pl fmt u.n row) with
      | .error e => { x with err := some e }
      | .ok (t, w, buf) =>
        copyUnits key fmt plan sc k rest { x with s := t.charge key 1 (plan.charged u.dstLen), rows := x.rows + 1, buf := buf, w := x.w.and w }

/-! ### Rows that overlap (spec/05 R111) -/

/-- Where element `i` of a copy comes from and where it goes: the row addresses, and its place in the row. -/
def CopyPlan.elem (p : CopyPlan) (n i : Nat) : Nat × Nat × Nat := (p.srcRows.getD (i / n) 0, p.dstRows.getD (i / n) 0, i % n)

/-- The elements that are written with an element, on the destination side: those of its group of planes, or of its byte. -/
def CopyPlan.granule (p : CopyPlan) (fmt : Nat) : Nat := if p.dst.pl then 32 else if fmtBits fmt = 4 then 2 else 1

/-- Where an element's bytes lie: for planes, those of its group. -/
def CopyPlan.elemRange (p : CopyPlan) (fmt n i : Nat) : Nat × Nat :=
  let (_, b, k) := p.elem n i
  let g := p.granule fmt
  (b + rowBytes p.dst.pl fmt (k / g * g), rowBytes p.dst.pl fmt g)

/-- The words that these bytes lie in. -/
def CopyPlan.elemWords (p : CopyPlan) (fmt n i : Nat) : List Nat :=
  let (a, len) := p.elemRange fmt n i
  upto (a / 4) ((a % 4 + len + 3) / 4)

/-- Copies one element: from the source as it was when the copy began, or as it is. -/
def copyElem (key fmt n : Nat) (plan : CopyPlan) (sc : Scope) (old : Bool) (i : Nat) (x : CopyRun) : CopyRun :=
  let w := fmtBits fmt
  let (a, _, k) := plan.elem n i
  let (b, len) := plan.elemRange fmt n i
  let g := plan.granule fmt
  let go (row : List Byte) (t : State) : CopyRun :=
    match t.sideRead key plan.dst b len with
    | .error e => { x with err := some e }
    | .ok (was, t) =>
      let elems := (upto 0 g).map fun j => if j = k % g then rowElem plan.src.pl w row k
        else if n ≤ k / g * g + j then 0 else rowElem plan.dst.pl w was j
      match t.sideWrite key plan.dst sc b (packRow plan.dst.pl w elems) with
      | .error e => { x with err := some e }
      | .ok (t, w') => { x with s := t.charge key 1 (plan.charged ((w + 7) / 8)), w := x.w.and w' }
  if old then go ((x.first.drop (i / n * plan.srcLen)).take plan.srcLen) x.s
  else match x.s.sideRead key plan.src a plan.srcLen with
    | .error e => { x with err := some e }
    | .ok (row, t) => go row t

/-- Copies the elements that are left of rows that overlap, in any order: each receives the source's value as the copy began, or one that
the copy itself has written. Which of the two, and the order, are free values (log 27). It stops, when a quantity of the class has
reached its limit or an element cannot be moved, where no word is written in part: `closed` is the last such place, `part` holds the words
since then. -/
def copyMixed (key fmt n : Nat) (plan : CopyPlan) (sc : Scope) : Nat → List Nat → List Nat → CopyRun → CopyRun → CopyRun
  | 0, _, _, x, _ => x
  | fuel + 1, part, left, x, closed =>
    let busy := part.filter fun k => left.any fun i => (plan.elemWords fmt n i).contains k
    let here : CopyRun := { x with todo := some (left.map fun i => (i, 0)) }
    let closed := if busy.isEmpty then here else closed
    if left.isEmpty then here
    else
      let spent := x.s.spent key
      if spent && busy.isEmpty then { here with err := some (.wait .hold) }
      else
        let may := if spent then left.filter fun i => (plan.elemWords fmt n i).any busy.contains else left
        let (v, s) := x.s.free
        let (o, s) := s.free
        let i := may.getD (v.toNat % may.length) 0
        let y := copyElem key fmt n plan sc (o.getLsbD 0) i { x with s := s }
        match y.err with
        | some e => { closed with err := some e }
        | none => copyMixed key fmt n plan sc fuel (busy ++ plan.elemWords fmt n i) (left.erase i) y closed

/-- Whether a copy's rows overlap within one space, by the names of the record (log 27). -/
def CopyPlan.overlapping (p : CopyPlan) : Bool :=
  p.src.space = p.dst.space && p.src.peer = p.dst.peer &&
    p.srcRows.any fun a => p.dstRows.any fun b => overlaps a p.srcLen b p.dstLen

/-- The units of a copy. -/
def copyAll (r : BitVec 512) (disp : DWord) (dd : Bool) : List CopyUnit := (copyPlan r disp dd).units (shapeFmt r) (shapeExt r 0)

/-- The bytes of the source rows of a copy, one after the other. -/
def State.readRows (s : State) (key : Nat) (x : Side) (n : Nat) : List Nat → Except EngErr (List Byte × State)
  | [] => .ok ([], s)
  | a :: rest => do
    let (bs, s) ← s.sideRead key x a n
    let (cs, s) ← s.readRows key x n rest
    return (bs ++ cs, s)

/-- A copy whose rows overlap goes on: it first takes its source as it stands (log 27). -/
def State.runMixed (s : State) (key : Nat) (r : BitVec 512) (disp : DWord) (dd : Bool) (o : CPend) : CopyRun :=
  let plan := copyPlan r disp dd
  let n := shapeExt r 0
  let go (s : State) (first : List Byte) (todo : List (Nat × DWord)) : CopyRun :=
    let x : CopyRun := { s := s, todo := some todo, first := first }
    let y := copyMixed key (shapeFmt r) n plan (scopeOf (shapeSc r)) (todo.length + 1) [] (todo.map (·.1)) x x
    { y with rows := if y.err.isNone then (copyAll r disp dd).length else 0 }
  match o.todo with
  | some todo => go s o.first todo
  | none => match s.readRows key plan.src plan.srcLen plan.srcRows with
    | .error e => { s := s, err := some e }
    | .ok (first, t) => go t first ((upto 0 (n * plan.srcRows.length)).map fun i => (i, 0))

/-- An operation `o` performs up to `k` of its units from where it stands; one whose rows overlap moves all of its elements. -/
def State.runCopy (s : State) (key : Nat) (r : BitVec 512) (disp : DWord) (dd : Bool) (o : CPend) (k : Nat) : CopyRun :=
  let plan := copyPlan r disp dd
  if plan.overlapping then s.runMixed key r disp dd o
  else copyUnits key (shapeFmt r) plan (scopeOf (shapeSc r)) k ((copyAll r disp dd).drop o.rows) { s := s, rows := o.rows, buf := o.buf }

/-- How many of the `left` units of a transfer an engine moves in one event: a free number, at least one (log 67). -/
def State.engineSteps (s : State) (left : Nat) : Nat × State :=
  if left ≤ 1 then (left, s) else let (x, s) := s.free; (left - x.toNat % left, s)

/-- The report of an engine that gives up (spec/05 R112, spec/13 R239): a copy fault with cause 3, or a machine check. -/
def engReport (cause : BitVec 8) (eng : BitVec 4) (id : Nat) : EngErr → Report
  | .bad va => { cause := 0x1F, eng := eng, addr := BitVec.ofNat 64 va }
  | .lost va => lostReport eng (BitVec.ofNat 64 va)
  | _ => { cause := cause, eng := eng, d1 := BitVec.ofNat 32 id, d2 := 3 }

/-- An operation in C notes what its engine waits for. -/
def CPend.stops (o : CPend) (e : Option EngErr) : CPend := { o with why := e.map EngErr.why, heldDie := (e.map EngErr.heldDie).getD 4 }

def State.modC (s : State) (key id : Nat) (f : CPend → CPend) : State :=
  s.modCrew key fun c => { c with cops := c.cops.map fun (o : CPend) => if o.id = id then f o else o }

/-- The oldest operation in C of a kind that has not completed. -/
def Crew.oldestC (c : Crew) (p : CKind → Bool) : Option CPend := c.cops.find? fun o => !o.done && p o.kind
def CKind.isCopy : CKind → Bool | .copy .. => true | .empty => true | _ => false

/-- A finished copy drops from C, and its ring slot is full, which wakes those that wait at the ring (spec/08 R159, spec/10 Table
10-6). -/
def State.finishCopy (s : State) (key : Nat) (o : CPend) : State :=
  let s := match o.kind with
    | .copy _ _ _ _ (some (r, i)) =>
      (s.modParty (s.crew key).party fun p => p.setSlot r i fun x => { x with f := !x.f, st := .full }).signalWake (coreOf key) 2
    | _ => s
  (s.modC key o.id fun o => { o with done := true }).dropOps key

/-- Whether Meridian has passed a completion time. -/
def State.passed (s : State) (key : Nat) (ct : Option Nat) : Bool :=
  match ct with | some t => t < s.mer (dieOfCore (coreOf key)) | none => true

/-- What a copy of `n` units has done so far: the units moved, the completion times kept; its engine waits for a walk, or goes
on. -/
def copyStep (key : Nat) (o : CPend) (n : Nat) (x : CopyRun) : State :=
  let t := (x.s.wrote key x.w).modC key o.id fun o =>
    { o.stops x.err with rows := x.rows, buf := x.buf, todo := x.todo, first := x.first, ct := maxOpt o.ct x.w.wait
                         applied := x.err.isNone && n ≤ x.rows }
  match x.err with | some e => t.engineMiss e | none => t

/-- What an abandoned copy has done: its slot stays PEND until the crew resumes, and its fault is due (spec/05 R112, spec/08
R159). It keeps what it has written. -/
def copyGivesUp (key : Nat) (o : CPend) (n : Nat) (x : CopyRun) (rep : Report) : State :=
  let slots := match o.kind with | .copy _ _ _ _ (some y) => [y] | _ => []
  (((copyStep key o n x).endAsk key).modCrew key fun c =>
    { c with stuckSlots := c.stuckSlots ++ slots
             cops := c.cops.map fun (y : CPend) => if y.id = o.id then { y with done := true, fault := some rep } else y }).dropOps key

end Sys2Proof.Machine
end

