-- ==== Sys2Proof/Machine/Task.lean ====
section
/-! DEFINITION. MAJ 0x80 to 0x86: spawn, join, arenas, reducers, barriers, rings and the early trigger (spec/08, spec/16
R268, R270-R274). PEDGET and PEDCMP stand in Pedigree.lean. -/
namespace Sys2Proof.Machine

/-- The frame of a lead-only instruction: any other crew raises a lead fault, whatever the guard (spec/08 R143). -/
def leadOnly (i : Instr) (f : Ctl) (s : State) (body : State → Nat → Crew → Issue) : Host.Outcome State Fault Refusal :=
  issue i s fun s key c =>
    if !s.mayLead c (match i with | .alloc .. => true | _ => false) then .trap { cause := 0x15 }
    else if c.eff f = 0 then .done s
    else body s key c

/-! ## Launch packets (spec/15 Table 15-2, Table 15-3) -/

def packetDet (p : BitVec 4096) : Bool := p.getLsbD 20
def packetTrig (p : BitVec 4096) : Bool := p.getLsbD 21
def packetDies (p : BitVec 4096) : Nat := bitsOf p 16 4
def packetAcq (p : BitVec 4096) : Scope := scopeOf (bitsOf p 24 3)
def packetRel (p : BitVec 4096) : Scope := scopeOf (bitsOf p 27 3)
def packetBudget (p : BitVec 4096) : Nat := bitsOf p 30 4
def packetNsh (p : BitVec 4096) : Nat := bitsOf p 34 3
def packetHv (p : BitVec 4096) : Bool := p.getLsbD 37
def packetHsh (p : BitVec 4096) : Nat := bitsOf p 38 3
def packetRoots (p : BitVec 4096) : Nat := bitsOf p 64 32
def packetEntry (p : BitVec 4096) : DWord := p.extractLsb' 128 64
def packetHentry (p : BitVec 4096) : DWord := p.extractLsb' 192 64
def packetSeed (p : BitVec 4096) : DWord := p.extractLsb' 256 64
def packetCmpaddr (p : BitVec 4096) : DWord := p.extractLsb' 448 64
def packetCmpval (p : BitVec 4096) : DWord := p.extractLsb' 512 64
def packetArgs (p : BitVec 4096) : List Word := (upto 0 16).map fun i => p.extractLsb' (1024 + 32 * i) 32
def packetShape (p : BitVec 4096) (e : Nat) : BitVec 320 := p.extractLsb' (1536 + 320 * e) 320

def entryParties (e : BitVec 320) : Nat := bitsOf e 0 3 + 1
def entryCrews (e : BitVec 320) : Nat := bitsOf e 3 4 + 1
def entryTiles (e : BitVec 320) : Nat := bitsOf e 7 6
def entryScr (e : BitVec 320) : Nat := bitsOf e 16 16
def entryWst (e : BitVec 320) : Nat := bitsOf e 32 16
def entryRole (e : BitVec 320) (c : Nat) : Nat := bitsOf e (64 + 16 * c) 2
def entryLanes (e : BitVec 320) (c : Nat) : Nat := 32 * (bitsOf e (66 + 16 * c) 5 + 1)
def entryRegs (e : BitVec 320) (c : Nat) : Nat := bitsOf e (71 + 16 * c) 8
/-- The units of the unified store of one crew, and of a party with its scratchpad (spec/02 R35, spec/15 R247). -/
def crewUnits (e : BitVec 320) (c : Nat) : Nat := entryLanes e c / 32 * entryRegs e c + 2
def entryUnits (e : BitVec 320) : Nat := (upto 0 (entryCrews e)).foldl (fun n c => n + crewUnits e c) (entryScr e)

/-! ## Context entries, Table 15-1 -/

def ctxValid (e : BitVec 512) : Bool := e.getLsbD 0
def ctxBmask (e : BitVec 512) : Nat := bitsOf e 8 16
def ctxQcnt (e : BitVec 512) : Nat := bitsOf e 24 8
def ctxHeap (e : BitVec 512) : DWord := e.extractLsb' 128 64
def ctxHeapSize (e : BitVec 512) : DWord := e.extractLsb' 192 64
def ctxFring (e : BitVec 512) : Nat := bitsOf e 256 64
def ctxFrlog (e : BitVec 512) : Nat := bitsOf e 320 16
def ctxQtab (e : BitVec 512) : Nat := bitsOf e 384 64
def ctxSpill (e : BitVec 512) : Nat := bitsOf e 448 64

/-! ## SPAWN and JOIN (spec/08 R145, R146) -/

/-- The phase of a crew whose SPAWN stalls on the pedigree table; `aux` holds when the stall began. -/
def spawnPhase : Nat := 7

def pedFault (sub : BitVec 8) (n : Nat) : Report := { cause := 0x16, sub := sub, d1 := BitVec.ofNat 32 n }

/-- The tasks on a core's deque and in its spill. -/
def Core.spillCount (c : Core) : Nat := c.spilled.foldl (fun n b => n + b.length) 0

/-- Pushes a task at the bottom of a core's deque; the 64 oldest spill when it is full (spec/15 R258). None when the
spill block is full. -/
def Core.push (c : Core) (t : Nat) : Option Core :=
  if c.deque.length < Config.dequeSize then some { c with deque := c.deque ++ [t] }
  else if c.spillCount + Config.spillBatch > Config.spillTasks then none
  else some { c with spilled := c.spilled ++ [c.deque.take Config.spillBatch]
                     deque := c.deque.drop Config.spillBatch ++ [t] }

/-- What a spill writes: 64 bytes for each of 64 entries, in order, in the core's 1 MiB block of the context's SPILL area.
The spec gives the entry no form: its bytes are free values (log 24). A block that cannot be written is left as it is. -/
def State.spillBytes (s : State) (core ctx : Nat) (before after : Core) : State :=
  if after.spilled.length ≤ before.spilled.length then s
  else
    let base := ctxSpill (s.ctxEntry ctx) + 2 ^ 20 * core + 64 * before.spillCount
    (upto 0 (8 * Config.spillBatch)).foldl (fun s i =>
      let (x, s) := s.free
      match s.lookup ctx (base + 8 * i) .write with
      | .ok (pa, a) => (s.storeLine core a .die pa (toBytesLE 8 x.toNat)).1
      | .error _ => s) s

/-- The strand and task pedigree of a crew change (spec/08 R143). -/
def State.setPed (s : State) (key task : Nat) (p : BitVec 512) : State :=
  (s.modCrew key fun c => { c with ped := p }).modTask task fun t => { t with ped := p }

/-- SPAWN's effect (spec/08 R145). -/
def State.spawn (s : State) (key : Nat) (c : Crew) (entry : DWord) (sh : Nat) (size : Word) : Issue :=
  let ti := (s.party c.party).task
  let t := s.task ti
  let l := s.launch t.launch
  let d := pedDepth c.ped
  let e := pedElem c.ped (d + 1)
  let n : DWord := size.setWidth 64
  if d = 31 then .trap (pedFault 0 d)
  else if elemK e = 1023 then .trap (pedFault 0 (elemK e))
  else if sh > packetNsh l.packet then .trap (shapeFault sh)
  else if n.toNat % 64 ≠ 0 || n.toNat > t.arenaEnd.toNat - t.arenaNext.toNat then
    .trap { cause := 0x17, d1 := size }
  else
    fenced s key .rel .pkg fun s =>
      let s := s.sweepPeds
      if Config.pedTable - s.pedTable.length < Config.pedReserve then
        .wait .spawn (s.modCrew key fun c =>
          if c.phase = spawnPhase then c else { c with phase := spawnPhase, aux := BitVec.ofNat 64 s.meridian })
      else
        let k := s.nextTask
        match (s.core (coreOf key)).push k with
        | none => .trap { cause := 0x17, d1 := size }
        | some core =>
          let cped := setDepth c.ped (d + 1)
          let cped := if d + 1 < 31 then setElem cped (d + 2) 0 else cped
          let mine := setElem c.ped (d + 1) (elemJ e * 1024 + elemK e + 1)
          let child : Task :=
            { launch := t.launch, root := t.root, ctx := t.ctx, parent := some ti, shape := sh, entry := entry, ped := cped,
              fmt := c.fmt, seed := c.seed, args := (upto 48 16).map c.s, arenaBase := t.arenaEnd - n,
              arenaNext := t.arenaEnd - n, arenaEnd := t.arenaEnd, decls := t.decls, views := t.views,
              die := dieOfCore (coreOf key) }
          let s := ((s.spillBytes (coreOf key) t.ctx (s.core (coreOf key)) core).modCore (coreOf key) fun x =>
            { x with deque := core.deque, spilled := core.spilled }).setTask k child
          let s := s.modTask ti fun t => { t with arenaEnd := t.arenaEnd - n, children := t.children ++ [k] }
          let s := { s with nextTask := k + 1 }
          let s := (s.setPed key ti mine).beginStrand k cped
          .done (s.beginStrand ti mine).wakeCrews

def execSpawn (f : Ctl) (b : Operand) (sh : BitVec 3) (ofs : BitVec 20) (s : State) :
    Host.Outcome State Fault Refusal :=
  leadOnly (.spawn f b sh ofs) f s fun s key c =>
    s.spawn key c (c.pc + BitVec.ofInt 64 (12 * ofs.toInt)) sh.toNat ((s.uni key c false b).extractLsb' 0 32)

/-- SPAWNR checks its entry as R10 does. -/
def execSpawnr (f : Ctl) (a b : Operand) (sh : BitVec 3) (s : State) : Host.Outcome State Fault Refusal :=
  leadOnly (.spawnr f a b sh) f s fun s key c =>
    let entry := s.uni key c true a
    if entry.toNat % 4 ≠ 0 then .trap { cause := 0x04, addr := entry }
    else s.spawn key c entry sh.toNat ((s.uni key c false b).extractLsb' 0 32)

def TaskStatus.beyond (t : TaskStatus) : Bool := t = .complete || t = .failed

/-- Every child has completed. -/
def State.childrenDone (s : State) (t : Task) : Bool := t.children.all fun k => TaskStatus.beyond (s.task k).status

/-- Merges the views of completed children, rewrites their strands, and forgets them (spec/16 R270, R273). A child that
ended with a fault contributes nothing (spec/13 R237). -/
def State.absorb (s : State) (task : Nat) (ped : BitVec 512) : State :=
  let kids := (s.task task).children
  let s := kids.foldl (fun s k => if (s.task k).status = .complete then s.mergeChild task k else s) s
  let s := s.rewritePeds kids task ped
  let s := s.modTask task fun t => { t with children := [] }
  { s with tasks := s.tasks.filter fun x => !kids.contains x.1 }

/-- JOIN (spec/08 R146). -/
def execJoin (f : Ctl) (s : State) : Host.Outcome State Fault Refusal :=
  leadOnly (.join f) f s fun s key c =>
    let ti := (s.party c.party).task
    let t := s.task ti
    let d := pedDepth c.ped
    let e := pedElem c.ped (d + 1)
    let acquire (s : State) : Issue := fenced s key .acq .pkg fun s => .done s
    if c.phase ≥ 2 then acquire s
    else if d < 31 && elemJ e = 63 then .trap (pedFault 0 (elemJ e))
    else if !s.childrenDone t then
      .wait .join (s.modTask ti fun t =>
        { t with joinFrom := t.joinFrom <|> some (s.clk (dieOfCore (coreOf key))) })
    else
      let mine := if d < 31 then setElem c.ped (d + 1) ((elemJ e + 1) * 1024 + elemK e) else c.ped
      let s := (s.sweepPeds.absorb ti mine).modTask ti fun t => { t with joinFrom := none }
      let s := s.setPed key ti mine
      let s := if d < 31 then s.beginStrand ti mine else s
      acquire (s.modCrew key fun c => { c with phase := 2 })

/-- ALLOC (spec/08 R151). -/
def execAlloc (f : Ctl) (d a : Operand) (s : State) : Host.Outcome State Fault Refusal :=
  leadOnly (.alloc f d a) f s fun s key c =>
    let ti := (s.party c.party).task
    let t := s.task ti
    let n := (s.operandNat key c false a 0 + 63) / 64 * 64
    if t.arenaNext.toNat + n > t.arenaEnd.toNat then
      .trap { cause := 0x17, d1 := (s.uni key c false a).extractLsb' 0 32 }
    else
      let s := s.modTask ti fun t => { t with arenaNext := t.arenaNext + BitVec.ofNat 64 n }
      .done (s.modCrew key fun c => c.writeUni f d t.arenaNext)

/-! ## Reducers (spec/08 R152-R155) -/

def reducerFault (n : Nat) : Report := { cause := 0x18, d1 := BitVec.ofNat 32 n }

/-- The bytes that a task's own views take from a core's pool. -/
def State.poolOwn (s : State) (task core : Nat) : Nat :=
  ((s.task task).views.map fun x => match Tbl.get? s.views x.2 with
    | some v => if v.core = core then ((Tbl.get? s.decls x.1).map Decl.viewBytes).getD 0 else 0
    | none => 0).sum

/-- VDECL (spec/08 R152). The spec bounds the pool of a core (Table 0-1) and does not say what a VDECL does that finds no
room there: it waits for room that others hold, and is a reducer fault when its own task's views leave none (log 28). It gives a count of 0,
below R152's range, no fault: it is a reducer fault here (DESIGN CHOICE, log 83). -/
def execVdecl (f : Ctl) (a b e : Operand) (kind : RedKind) (s : State) : Host.Outcome State Fault Refusal :=
  leadOnly (.vdecl f a b e kind) f s fun s key c =>
    let ti := (s.party c.party).task
    let t := s.task ti
    let id := s.operandNat key c false a 0
    let target := s.uni key c true b
    let n := s.operandNat key c false e 0
    let d : Decl := { task := ti, id := id, kind := kind, target := target, count := n }
    if id > 15 || (Tbl.get? t.decls id).isSome then .trap (reducerFault id)
    else if n = 0 || n > 65536 || d.viewBytes > 65536 then .trap (reducerFault n)
    else if target.toNat % RedKind.targetSize kind ≠ 0 then .trap { cause := 0x07, addr := target }
    else if s.poolOwn ti (coreOf key) + d.viewBytes > Config.viewPool then .trap (reducerFault n)
    else if s.poolUsed (coreOf key) + d.viewBytes > Config.viewPool then .wait .spawn s
    else
      let di := s.nextDecl
      let vi := s.nextView
      let s := { s with decls := Tbl.set s.decls di d, nextDecl := di + 1,
                        views := Tbl.set s.views vi { decl := di, core := coreOf key }, nextView := vi + 1 }
      .done (s.modTask ti fun t => { t with decls := Tbl.set t.decls id di, views := Tbl.set t.views di vi })

/-- VPTR (spec/08 R154): the address names the reducer, and its accesses reach the issuing task's current view (log 13). -/
def execVptr (f : Ctl) (d a : Operand) (s : State) : Host.Outcome State Fault Refusal :=
  once (.vptr f d a) f s fun s key c =>
    let t := s.task (s.party c.party).task
    let id := s.operandNat key c false a 0
    match (Tbl.get? t.decls id).bind fun di => Tbl.get? t.views di with
    | some _ => .done (s.modCrew key fun c => c.writeUni f d (BitVec.ofNat 64 (viewAddr id)))
    | none => .trap (reducerFault id)

/-- The bytes that VFIN writes at the target (spec/08 R155). -/
def View.finalBytes (v : View) (d : Decl) (raw : Bool) : List Byte :=
  if d.kind = .log then
    toBytesLE 8 v.log.length ++ toBytesLE 8 (if v.beyond then 1 else 0) ++ v.log.flatMap fun r => toBytesLE 16 r.2.toNat
  else
    (upto 0 d.count).flatMap fun i =>
      let e := v.elem d.kind i
      if raw then toBytesLE 48 e.acc.toNat
      else match d.kind with
        | .addf32 => toBytesLE 4 (la320Round fp32 e.acc)
        | .addbf16 => toBytesLE 2 (la320Round bf16 e.acc)
        | k => toBytesLE (RedKind.targetSize k) e.val.toNat

/-- Stores bytes at a virtual address, in pieces that each lie in one line. -/
def State.storePieces (s : State) (key : Nat) (sc : Scope) : List LaneAcc → List (Nat × Nat) → List Byte → State × Wrote
  | a :: as, (_, n) :: ps, bs =>
    let s := s.charge key 3 (s.writtenBytes (coreOf key) a.attr sc a.pa n)
    let (s, e) := s.storeLine (coreOf key) a.attr sc a.pa (bs.take n)
    let (s, w) := s.storePieces key sc as ps (bs.drop n)
    (s, e.wrote.and w)
  | _, _, _ => (s, {})

/-- VFIN (spec/08 R155): the final values as `st.pkg`, in the order of a store (spec/05 R98), counted in S; the declaration
is freed. -/
def execVfin (f : Ctl) (a : Operand) (raw : Bool) (s : State) : Host.Outcome State Fault Refusal :=
  issue (.vfin f a raw) s fun s key c =>
    if !s.mayLead c false then .trap { cause := 0x15 }
    else if counterFull c.stores then .wait .counter s
    else if c.eff f = 0 then .done (s.modCrew key fun c => c.addStore { id := 0, pc := c.pc })
    else
      let ti := (s.party c.party).task
      let t := s.task ti
      let id := s.operandNat key c false a 0
      match (Tbl.get? t.decls id).bind fun di => (Tbl.get? s.decls di).map fun d => (di, d) with
      | none => .trap (reducerFault id)
      | some (di, d) =>
        if d.task ≠ ti || !t.children.isEmpty || (raw && d.kind ≠ .addf32 && d.kind ≠ .addbf16) then
          .trap (reducerFault id)
        else
          match (Tbl.get? t.views di).bind fun vi => Tbl.get? s.views vi with
          | none => .trap (reducerFault id)
          | some v =>
            let bs := v.finalBytes d raw
            let ps := linePieces d.target.toNat bs.length
            if c.behindLoad 128 (ps.map fun p => BitVec.ofNat 64 p.1) then .wait .region s
            else match s.access key .write 1 (ps.map fun p => (0, BitVec.ofNat 64 p.1)) with
            | .fault r => .trap { r with d2 := 0, lmask := 0, more := false }
            | .walk t => .wait .walk t
            | .rejected t => .wait .rejected t
            | .ok lanes u =>
              if c.atService ((lanes.zip ps).map fun x => (x.1.pa, x.2.2)) then .wait .acquire u
              else held? u key (lanes.findSome? fun a => u.storeHeld (coreOf key) a.attr .pkg a.pa) <|
              let (u, w) := u.storePieces key .pkg lanes ps bs
              let u := { u with decls := Tbl.del u.decls di, views := u.views.filter fun x => x.2.decl != di }
              let u := u.modTask ti fun t => { t with decls := Tbl.del t.decls id, views := Tbl.del t.views di }
              .done ((u.wrote key w).modCrew key fun c => c.addStore { id := 0, pc := c.pc, ct := w.wait, ack := w.ack, cut := u.anyCut lanes, va := d.target })

/-! ## Barriers (spec/08 R156, R157) -/

/-- BARP: it arrives once it has released at party scope, and waits for its generation. -/
def execBarp (f : Ctl) (s : State) : Host.Outcome State Fault Refusal :=
  issue (.barp f) s fun s key c =>
    let beyond (s : State) : Issue :=
      if BitVec.ofNat 64 (s.party c.party).gen ≠ (s.crew key).aux then .done s.wakeCrews else .wait .barrier s
    if c.phase ≥ 2 then beyond s
    else fenced s key .rel .party fun s =>
      let g := (s.party c.party).gen
      let s := s.modCrew key fun c => { c with phase := 2, aux := BitVec.ofNat 64 g }
      let s := s.modParty c.party fun p =>
        { p with arrived := p.arrived ++ [key], arrivedPed := if s.isLead c then some c.ped else p.arrivedPed }
      beyond (s.barpCheck c.party)

/-- BARC: the same for the convoy; it acquires once it has completed. -/
def execBarc (f : Ctl) (pk : Bool) (s : State) : Host.Outcome State Fault Refusal :=
  issue (.barc f pk) s fun s key c =>
    let sc : Scope := if pk then .pkg else .die
    let ti := (s.party c.party).task
    let beyond (s : State) : Issue :=
      if BitVec.ofNat 64 (s.task ti).gen ≠ (s.crew key).aux then fenced s.wakeCrews key .acq sc fun s => .done s
      else .wait .barrier s
    if c.phase ≥ 2 then beyond s
    else fenced s key .rel sc fun s =>
      let g := (s.task ti).gen
      let s := s.modCrew key fun c => { c with phase := 2, aux := BitVec.ofNat 64 g }
      let s := s.modTask ti fun t =>
        { t with arrived := t.arrived ++ [key], arrivedPed := if s.isLead c then some c.ped else t.arrivedPed }
      beyond (s.barcCheck ti)

/-- ARRIVE.init (spec/08 R157). -/
def execArriveInit (f : Ctl) (a b : Operand) (s : State) : Host.Outcome State Fault Refusal :=
  once (.arriveInit f a b) f s fun s key c =>
    let p := s.party c.party
    let id := s.operandNat key c false a 0
    let n := s.operandNat key c false b 0
    if id > 15 then .trap (barrierFault id)
    else if n = 0 || n > 64 then .trap (barrierFault n)
    else
      let busy : Bool := match Tbl.get? p.bars id with | some x => x.pending ≠ x.expect | none => false
      if busy then .trap (barrierFault id)
      else .done (s.setParty c.party
        { p with bars := Tbl.set p.bars id { expect := n, pending := n, phase := false } }).wakeCrews

/-- ARRIVE (spec/08 R157): D is absent when the form names none. -/
def execArrive (f : Ctl) (d a b : Operand) (s : State) : Host.Outcome State Fault Refusal :=
  once (.arrive f d a b) f s fun s key c =>
    let id := s.operandNat key c false a 0
    let n := s.operandNat key c false b 0
    if id > 15 then .trap (barrierFault id)
    else if n = 0 || n > 64 then .trap (barrierFault n)
    else
      fenced s key .rel .party fun s =>
        let p := s.party c.party
        match Tbl.get? p.bars id, p.arriveObj id n with
        | some x, some p' =>
          let s := s.setParty c.party p'
          let s := s.modCrew key fun c =>
            if d = .v 0 then c else c.writeDst false d (c.effLanes f) fun _ => (boolWord x.phase).setWidth 64
          let s := if ((s.party c.party).bars.lookup id).map (·.phase) = some x.phase then s else s.signalWake (coreOf key) 2
          .done s.wakeCrews
        | none, _ => .trap (barrierFault id)
        | _, none => .trap (barrierFault n)

/-- AWAIT (spec/08 R157): an acquire point, which older operations at the home points precede (spec/12 R218). -/
def execAwait (f : Ctl) (a b : Operand) (s : State) : Host.Outcome State Fault Refusal :=
  once (.await f a b) f s fun s key c =>
    let id := s.operandNat key c false a 0
    let b := s.operandNat key c false b 0
    if id > 15 then .trap (barrierFault id)
    else if b > 1 then .trap (barrierFault b)
    else match Tbl.get? (s.party c.party).bars id with
      | none => .trap (barrierFault id)
      | some x => if x.phase = (b = 1) || !c.olderPerformed c.nextId then .wait .await s else .done s

/-! ## Stage rings (spec/08 R158) -/

def ringFault (n : Nat) : Report := { cause := 0x1B, d1 := BitVec.ofNat 32 n }

/-- The ring that a uniform operand names. -/
def State.ringOf (s : State) (key : Nat) (c : Crew) (a : Operand) : Except Report (Nat × Ring) :=
  let id := s.operandNat key c false a 0
  match Tbl.get? (s.party c.party).rings id with
  | some g => if id < 8 then .ok (id, g) else .error (ringFault id)
  | none => .error (ringFault id)

def State.setRing (s : State) (party id : Nat) (g : Ring) : State :=
  s.modParty party fun p => { p with rings := Tbl.set p.rings id g }

/-- Whether it is a crew's turn at the end of a ring that it asks for: the crews whose `.get` waits there are served in the
order in which they came (spec/08 R158). Both `.get`s are acquire points, which older operations at the home points precede (spec/12
R218). -/
def ringTurn (q : List Nat) (idx : Nat) : Bool := match q with | [] => true | x :: _ => x = idx
def ringLeave (q : List Nat) (idx : Nat) : List Nat := q.filter fun x => x != idx
def ringQueue (q : List Nat) (idx : Nat) : List Nat := if q.contains idx then q else q ++ [idx]

def execRingputGet (f : Ctl) (d a : Operand) (s : State) : Host.Outcome State Fault Refusal :=
  once (.ringputGet f d a) f s fun s key c =>
    match s.ringOf key c a with
    | .error r => .trap r
    | .ok (id, g) =>
      let i := g.prod
      if (g.slots.getD i {}).e = g.pl && ringTurn g.prodQ c.idx && c.olderPerformed c.nextId then
        let g := g.modSlot i fun x => { x with st := .held }
        let wrap : Bool := i + 1 = g.slots.length
        let s := s.setRing c.party id
          { g with prod := if wrap then 0 else i + 1, pl := g.pl != wrap, prodQ := ringLeave g.prodQ c.idx }
        .done (s.modCrew key fun c => c.writeDst false d (c.effLanes f) fun _ => BitVec.ofNat 64 i).wakeCrews
      else .wait .ring (s.setRing c.party id { g with prodQ := ringQueue g.prodQ c.idx })

/-- The slot that a uniform operand names, in a state. -/
def Ring.slotIn (g : Ring) (i : Nat) (st : SlotState) : Bool := i < g.slots.length && (g.slots.getD i {}).st = st

def execRingputPub (f : Ctl) (a b : Operand) (s : State) : Host.Outcome State Fault Refusal :=
  once (.ringputPub f a b) f s fun s key c =>
    fenced s key .rel .party fun s =>
      match s.ringOf key c a with
      | .error r => .trap r
      | .ok (id, g) =>
        let i := s.operandNat key c false b 0
        if g.slotIn i .held then
          .done ((s.setRing c.party id (g.modSlot i fun x => { x with f := !x.f, st := .full })).signalWake (coreOf key) 2).wakeCrews
        else .trap (ringFault i)

def execRingputInit (f : Ctl) (a b : Operand) (s : State) : Host.Outcome State Fault Refusal :=
  once (.ringputInit f a b) f s fun s key c =>
    let id := s.operandNat key c false a 0
    let n := s.operandNat key c false b 0
    if id > 7 then .trap (ringFault id)
    else if n < 2 || n > 64 then .trap (ringFault n)
    else
      let busy : Bool := match Tbl.get? (s.party c.party).rings id with
        | some g => g.slots.any fun x => x.st = .held || x.st = .pend || x.st = .taken
        | none => false
      if busy then .trap (ringFault id)
      else
        let (p, q) := match Tbl.get? (s.party c.party).rings id with | some g => (g.prodQ, g.consQ) | none => ([], [])
        .done (s.setRing c.party id { slots := List.replicate n {}, prodQ := p, consQ := q }).wakeCrews

def execRinggetGet (f : Ctl) (d a : Operand) (s : State) : Host.Outcome State Fault Refusal :=
  once (.ringgetGet f d a) f s fun s key c =>
    match s.ringOf key c a with
    | .error r => .trap r
    | .ok (id, g) =>
      let i := g.cons
      let x := g.slots.getD i {}
      if x.f ≠ g.cl && x.st = .full && ringTurn g.consQ c.idx && c.olderPerformed c.nextId then
        let g := g.modSlot i fun x => { x with st := .taken }
        let wrap : Bool := i + 1 = g.slots.length
        let s := s.setRing c.party id
          { g with cons := if wrap then 0 else i + 1, cl := g.cl != wrap, consQ := ringLeave g.consQ c.idx }
        .done (s.modCrew key fun c => c.writeDst false d (c.effLanes f) fun _ => BitVec.ofNat 64 i).wakeCrews
      else .wait .ring (s.setRing c.party id { g with consQ := ringQueue g.consQ c.idx })

def execRinggetRel (f : Ctl) (a b : Operand) (s : State) : Host.Outcome State Fault Refusal :=
  once (.ringgetRel f a b) f s fun s key c =>
    fenced s key .rel .party fun s =>
      match s.ringOf key c a with
      | .error r => .trap r
      | .ok (id, g) =>
        let i := s.operandNat key c false b 0
        if g.slotIn i .taken then
          .done ((s.setRing c.party id (g.modSlot i fun x => { x with e := !x.e, st := .free })).signalWake (coreOf key) 2).wakeCrews
        else .trap (ringFault i)

/-- TRIGGER (spec/08 R160): a root task of a launch with the early policy counts as triggered once. -/
def execTrigger (f : Ctl) (s : State) : Host.Outcome State Fault Refusal :=
  leadOnly (.trigger f) f s fun s key c =>
    fenced s key .rel .pkg fun s =>
      let ti := (s.party c.party).task
      let t := s.task ti
      if t.parent.isNone && t.handlerOf.isNone && !t.triggered && packetTrig (s.launch t.launch).packet then
        .done ((s.modTask ti fun t => { t with triggered := true }).modLaunch t.launch
          fun l => { l with triggered := l.triggered + 1 })
      else .done s

end Sys2Proof.Machine
end

