-- ==== Sys2Proof/Machine/Matrix.lean ====
section
/-! DEFINITION. MAJ 0x90 to 0x94: the matrix array, the drain unit, the Hypsometer and TLINK, with their events
(spec/09, spec/20). -/
namespace Sys2Proof.Machine

/-! ## Values -/

/-- The value of an element of a format code, Table 3-1, its subnormals flushed under FZ (spec/09 R165). -/
def codeNum (code : Nat) (fz : Bool) (x : Nat) : Num :=
  match code with
  | 0 => fp32.source fz x
  | 1 => fp16.source fz x
  | 2 => bf16.source fz x
  | 3 => e4m3.source fz x
  | 4 => e5m2.source fz x
  | 5 => Num.ofInt (toSigned 8 x)
  | 6 => Num.ofInt (toSigned 32 x)
  | 7 => e4m3.decode (gq4Level x)
  | 8 => bf16.source fz x
  | 9 => e4m3.source fz x
  | _ => acc64.decode x

/-- The RTO rounding to ACC64 (spec/03 R48). -/
def rto (cn : Bool) (x : Num) : Num := acc64.decode (acc64.round { mode := .rto, cn := cn } x)

/-- A rounded sum or product, and whether it makes a NaN from operands that are no NaNs (spec/09 R177). -/
def rsum (cn : Bool) (a b : Num) : Num × Bool :=
  let r := rto cn (Num.add a b)
  (r, r.isNan && !a.isNan && !b.isNan)
def rmul (cn : Bool) (a b : Num) : Num × Bool :=
  let r := rto cn (Num.mul a b)
  (r, r.isNan && !a.isNan && !b.isNan)
def exactMul (cn : Bool) (a b : Num) : Num × Bool :=
  let r := Num.mul a b
  (if cn && r.isNan then .canon else r, r.isNan && !a.isNan && !b.isNan)

/-- A k-step: the pass sum of four products. -/
def passSum (cn : Bool) (p : List (Num × Num)) : Num × Bool :=
  let m (i : Nat) : Num × Bool := match p[i]? with
    | some x => exactMul cn x.1 x.2
    | none => (.fin false 0 0, false)
  let x := rsum cn (m 0).1 (m 1).1
  let y := rsum cn (m 2).1 (m 3).1
  let z := rsum cn x.1 y.1
  (z.1, (m 0).2 || (m 1).2 || (m 2).2 || (m 3).2 || x.2 || y.2 || z.2)

/-- The reserved parts of E, the Relief pair (spec/09 R162): the origin and the member. -/
def reliefE0 (e : DWord) : Nat := bitsOf e 0 48
def reliefMember (e : DWord) : Nat := bitsOf e 48 16

/-- A weight as the array takes it, and whether its rounding produced a NaN or an infinity from a finite mean (spec/09
R166). -/
structure Weight where
  val : Num
  nan : Bool := false
  inf : Bool := false
deriving DecidableEq, Repr

/-- A perturbed weight (spec/03 R59). -/
def perturbed (code : Nat) (fmt : Word) (seed tid e : Nat) (member mu l : Nat) : Weight :=
  let f := if code = 8 then bf16 else e4m3
  let w := reliefWeight f (fmtEnv fmt .rne) (reliefEps tid (e % 2 ^ 48) member seed) mu l
  let finite := !f.isNanBits mu && !f.isInfBits mu
  { val := f.decode w, nan := finite && f.isNanBits w, inf := finite && f.isInfBits w }

/-- An output in a format code: its bits and its value (spec/09 R169). -/
def outBits (code : Nat) (fmt : Word) (x : Num) (raw : Nat) : Nat :=
  let v := fmtEnv fmt .rne
  match code with
  | 0 => fp32.round v x
  | 1 => fp16.round v x
  | 2 => bf16.round v x
  | 3 => e4m3.round v x
  | 4 => e5m2.round v x
  | 5 => wrapInt 8 (Num.toInt .rne (-128) 127 x)
  | 6 => wrapInt 32 (Num.toInt .rne (-2 ^ 31) (2 ^ 31 - 1) x)
  | _ => raw

def isFloatCode (code : Nat) : Bool := code < 5

/-! ## Tiles -/

/-- Element (m, n) of a tile in a party's accumulator. -/
def accIndex (t m n : Nat) : Nat := t * 16384 + m * 128 + n
def Party.tile (p : Party) (t m n : Nat) : DWord := Sparse.get p.acc (accIndex t m n)
def Party.setTile (p : Party) (t m n : Nat) (x : DWord) : Party := { p with acc := Sparse.set p.acc (accIndex t m n) x }

/-- The pairs (m, n) of an extent, in row-major order. -/
def cells (m n : Nat) : List (Nat × Nat) := (upto 0 m).flatMap fun i => (upto 0 n).map fun j => (i, j)

/-- The side of a record where its array rests. -/
def restRows (r : BitVec 512) (disp : Nat) : List Nat := (shapeDst r).rows disp (shapeExt r 1) 1
def restLen (r : BitVec 512) : Nat := rowBytes (shapeDst r).pl (shapeFmt r) (shapeExt r 0)
/-- An auxiliary array of a record. -/
def auxBase (r : BitVec 512) (i : Nat) : Nat := stepAddr (shapeDst r).base (shapeAux r i)

/-- The bytes of the operand's local space from an address. -/
def State.localBytes (s : State) (key : Nat) (r : BitVec 512) (a n : Nat) : List Byte :=
  match s.sideRead key (shapeDst r) a n with | .ok (bs, _) => bs | .error _ => []

/-- What keeps an engine from an operand's local bytes: an uncorrectable one (spec/05 R115), among the rows and scales, or
among the ℓ bytes. -/
def State.localErr (s : State) (key : Nat) (r : BitVec 512) (ell : Bool) : Option EngErr :=
  let p := s.partyOf key
  let bad := if (shapeDst r).space = 3 then p.weightBad else p.scratchBad
  let try_ (a n : Nat) : Option EngErr := match whole bad a n with | .error e => some e | .ok _ => none
  let n := shapeExt r 0 * shapeExt r 1
  if bad.isEmpty then none
  else (if ell then none else (restRows r 0).findSome? fun a => try_ a (restLen r)) <|>
    (if shapeFmt r = 7 then try_ (auxBase r 0) (n / 64) <|> try_ (auxBase r 1) (4 * ((n / 64 + 255) / 256))
     else if ell then try_ (auxBase r 0) n else none)

/-- The rows of an operand as bytes. -/
def State.operandRows (s : State) (key : Nat) (r : BitVec 512) : List (List Byte) :=
  (restRows r 0).map fun a => s.localBytes key r a (restLen r)

/-- The A elements of a tile product. -/
def aElem (r : BitVec 512) (fz : Bool) (rows : List (List Byte)) (m k : Nat) : Num :=
  codeNum (shapeFmt r) fz (rowElem (shapeDst r).pl (fmtBits (shapeFmt r)) (rows.getD m []) k)

/-- The B elements: plain, GQ4 levels, means, or perturbed weights. -/
def bElem (r : BitVec 512) (fmt : Word) (seed : Nat) (relief : Option DWord) (rows : List (List Byte)) (ls : List Byte)
    (k n : Nat) : Weight :=
  let code := shapeFmt r
  let x := rowElem (shapeDst r).pl (fmtBits code) (rows.getD n []) k
  match relief with
  | some e =>
    perturbed code fmt seed (shapeTid r) (reliefE0 e + 1024 * n + k) (reliefMember e) x
      (ls.getD (n * shapeExt r 0 + k) 0).toNat
  | none => { val := codeNum code (fmtFZ fmt) x }

/-- The scale of a block of a GQ4 operand: none when its code is 0 (spec/03 R53). FZ flushes a subnormal super-scale, which is a
source (R45); the block scale is no result and stays as it is rounded (DESIGN CHOICE, log 55). -/
def gq4Scale (r : BitVec 512) (fz : Bool) (cs ss : List Byte) (n j : Nat) : Option Num :=
  let q := n * (shapeExt r 0 / 64) + j
  let c := (cs.getD q 0).toNat
  let super := fromBytesLE ((ss.drop (4 * (q / 256))).take 4)
  if c = 0 then none
  else some (fp32.decode (blockScale (if fz && super / 2 ^ 23 % 256 = 0 then super / 2 ^ 31 * 2 ^ 31 else super) c))

/-- A tile element under way: the sum, the block's sum, and the first k-steps at which a NaN and an infinity arose. -/
structure Cell where
  s : Num
  g : Num := .fin false 0 0
  nan : Option Nat := none
  inf : Option Nat := none

def Cell.mark (c : Cell) (q : Nat) (nan inf : Bool) : Cell :=
  { c with nan := c.nan <|> (if nan then some q else none), inf := c.inf <|> (if inf then some q else none) }

/-- One k-step of one element (spec/09 R165, spec/20 R300). A block with c = 0 adds nothing, as R300 has it; R53 has it contribute +0, which
would make a tile element of -0 a +0 and a NaN canonical under CN (DESIGN CHOICE, log 80). -/
def stepCell (cn gq4 : Bool) (scale : Nat → Option Num) (a : Nat → Num) (b : Nat → Weight) (from_ : Nat) (c : Cell)
    (q : Nat) : Cell :=
  let ws := (upto (4 * q) 4).map fun k => (a k, b k)
  let (ps, bad) := passSum cn (ws.map fun w => (w.1, w.2.val))
  let wn := ws.any fun w => w.2.nan
  let wi := ws.any fun w => w.2.inf
  if gq4 then
    let g := rsum cn c.g ps
    if (q + 1) % 16 = 0 then
      match scale (q / 16) with
      | none => { c with g := .fin false 0 0 }
      | some sc =>
        let x := rmul cn g.1 sc
        let y := rsum cn c.s x.1
        { c with s := y.1, g := .fin false 0 0 }.mark q (bad || g.2 || x.2 || y.2) false
    else
      let c := { c with g := g.1 }
      if q < from_ || (scale (q / 16)).isNone then c else c.mark q (bad || g.2) false
  else
    let x := rsum cn c.s ps
    { c with s := x.1 }.mark q (bad || x.2 || wn) wi

/-- Runs an element from a k-step up to another. A resumed GQ4 operation sums its open block again. -/
def runCell (cn gq4 : Bool) (scale : Nat → Option Num) (a : Nat → Num) (b : Nat → Weight) (from_ to_ : Nat) (s : Num) :
    Cell :=
  let start := if gq4 then from_ / 16 * 16 else from_
  (upto start (to_ - start)).foldl (stepCell cn gq4 scale a b from_) { s := s }

/-! ## Counting in T -/

/-- Adds an operation to T with the pending link (spec/09 R172), numbered in the order of the die's tile operations. -/
def State.addT (s : State) (key : Nat) (k : TKind) (arms : Bool) : State :=
  let d := dieOfCore (coreOf key)
  let order := (s.die d).tileOrder
  let s := s.modDie d fun x => { x with tileOrder := order + 1 }
  s.modCrew key fun c =>
    let armed := arms && (fmtNTE c.fmt || fmtITE c.fmt) && !c.ignoreTraps
    { c with
      tops := c.tops ++ [{ id := c.nextId, pc := c.pc, epc := c.epc, kind := k, fmt := c.fmt, armed := armed, link := c.tlink
                           order := order }]
      nextId := c.nextId + 1
      tlink := none }

/-- The frame of an instruction counted in T: an empty mask only counts. -/
def countedT (i : Instr) (f : Ctl) (s : State) (body : State → Nat → Crew → Issue) : Host.Outcome State Fault Refusal :=
  issue i s fun s key c =>
    if counterFull c.tops then .wait .counter s
    else if c.eff f = 0 then .done (s.addT key .empty false)
    else body s key c

def tileFault (n : Nat) : Report := { cause := 0x1C, d1 := BitVec.ofNat 32 n }
def formatFault (n : Nat) : Report := { cause := 0x12, d1 := BitVec.ofNat 32 n }

/-! ## Requirements, Table 9-2 -/

def isA (r : BitVec 512) : Bool :=
  (shapeDst r).space = 1 && (shapeDst r).pl && shapeNdim r < 2 && 4 ≤ shapeExt r 0 && shapeExt r 0 ≤ 1024 &&
    shapeExt r 0 % 4 = 0 && shapeExt r 1 ≤ 128
/-- B of TMMAG lies in scratchpad, in PL32. -/
def isB (r : BitVec 512) (k : Nat) (grad : Bool) : Bool :=
  ((shapeDst r).space = 1 || (!grad && (shapeDst r).space = 3)) && shapeNdim r < 2 &&
    (if grad then (shapeDst r).pl else (shapeDst r).pl != (shapeFmt r = 7)) && shapeExt r 0 = k && (shapeFmt r ≠ 7 || k % 64 = 0) && shapeExt r 1 ≤ 128
def isPlane (r : BitVec 512) (peer : Bool) : Bool :=
  ((shapeDst r).space < 2 || (peer && (shapeDst r).space = 2)) && shapeNdim r < 2 && shapeExt r 0 ≤ 128 &&
    shapeExt r 1 ≤ 128 && !((shapeDst r).pl && shapeFmt r = 11)
def isMld (r dst : BitVec 512) : Bool :=
  ((shapeDst r).space = 1 || (shapeDst r).space = 3) && shapeNdim r < 2 && shapeExt r 0 ≥ shapeExt dst 1 &&
    shapeExt r 1 ≥ shapeExt dst 0

/-- The formats that A and B accept, Table 9-3: the offending code, if any. -/
def productFormats (fmt : Word) (a b : BitVec 512) (relief grad : Bool) : Option Nat :=
  let af := fmtAF fmt
  let bf := fmtBF fmt
  if shapeFmt a ≠ af then some (shapeFmt a)
  else if shapeFmt b ≠ bf then some (shapeFmt b)
  else if af > 5 then some af
  else if relief then (if bf = 8 || bf = 9 then (if af = 5 then some af else none) else some bf)
  else if grad then (if af > 4 then some af else if bf > 4 then some bf else none)
  else if af = 5 then (if bf = 5 then none else some bf)
  else if bf = 5 then some bf
  else if bf < 5 || bf = 7 || bf = 8 || bf = 9 then none else some bf

/-- The bounds of an operand and its auxiliary arrays (spec/09 R163). -/
def State.operandFault (s : State) (key : Nat) (r : BitVec 512) (disp : Nat) (ell : Bool) : Option Report :=
  let side := shapeDst r
  let n := shapeExt r 0 * shapeExt r 1
  match s.rowsFault key side (restLen r) (restRows r disp) with
  | some x => some x
  | none =>
    if shapeFmt r = 7 then
      (s.sideFault key side (auxBase r 0) (n / 64)).or (s.sideFault key side (auxBase r 1) (4 * ((n / 64 + 255) / 256)))
    else if ell then s.sideFault key side (auxBase r 0) n
    else none

/-- The frame of the tile products. -/
def product (i : Instr) (f : Ctl) (a b : Operand) (e : Option Operand) (t : BitVec 5) (grad : Bool) (s : State) :
    Host.Outcome State Fault Refusal :=
  countedT i f s fun s key c =>
    let p := s.party c.party
    let sa := (s.uni key c false a).toNat
    let sb := (s.uni key c false b).toNat
    if t.toNat ≥ p.tiles then .trap (tileFault t.toNat)
    else match Tbl.get? p.shapes sa, Tbl.get? p.shapes sb with
      | none, _ => .trap (shapeFault sa)
      | _, none => .trap (shapeFault sb)
      | some ra, some rb =>
        if !isA ra then .trap (shapeFault sa)
        else if !isB rb (shapeExt ra 0) grad then .trap (shapeFault sb)
        else match productFormats c.fmt ra rb e.isSome grad with
          | some code => .trap (formatFault code)
          | none =>
            match s.operandFault key ra 0 false, s.operandFault key rb 0 e.isSome with
            | some x, _ => .trap x
            | _, some x => .trap x
            | none, none => .done (s.addT key (.mma ra rb (e.map fun e => s.uni key c true e) t.toNat 0) true)

def execTmma (f : Ctl) (a b : Operand) (t : BitVec 5) (s : State) : Host.Outcome State Fault Refusal :=
  product (.tmma f a b t) f a b none t false s
def execTmmae (f : Ctl) (a b e : Operand) (t : BitVec 5) (s : State) : Host.Outcome State Fault Refusal :=
  product (.tmmae f a b e t) f a b (some e) t false s
def execTmmag (f : Ctl) (a b : Operand) (t : BitVec 5) (s : State) : Host.Outcome State Fault Refusal :=
  product (.tmmag f a b t) f a b none t true s

def execTzero (f : Ctl) (t : BitVec 5) (s : State) : Host.Outcome State Fault Refusal :=
  countedT (.tzero f t) f s fun s key c =>
    if t.toNat ≥ (s.party c.party).tiles then .trap (tileFault t.toNat) else .done (s.addT key (.zero t.toNat) false)

def execTadd (f : Ctl) (t src : BitVec 5) (s : State) : Host.Outcome State Fault Refusal :=
  countedT (.tadd f t src) f s fun s key c =>
    let n := (s.party c.party).tiles
    if t.toNat ≥ n then .trap (tileFault t.toNat)
    else if src.toNat ≥ n then .trap (tileFault src.toNat)
    else .done (s.addT key (.add t.toNat src.toNat) false)

/-- The formats of TLOAD and TDRAIN, Table 9-2. -/
def planeFormat (code : Nat) : Bool := code < 7 || code = 11

def execTload (f : Ctl) (a b : Operand) (t : BitVec 5) (s : State) : Host.Outcome State Fault Refusal :=
  countedT (.tload f a b t) f s fun s key c =>
    let p := s.party c.party
    let slot := (s.uni key c false a).toNat
    let disp := s.uni key c true b
    if t.toNat ≥ p.tiles then .trap (tileFault t.toNat)
    else match Tbl.get? p.shapes slot with
      | none => .trap (shapeFault slot)
      | some r =>
        if !isPlane r false then .trap (shapeFault slot)
        else if !planeFormat (shapeFmt r) then .trap (formatFault (shapeFmt r))
        else match s.operandFault key r disp.toNat false with
          | some x => .trap x
          | none => .done (s.addT key (.load slot r disp t.toNat) false)

def execTdrain (f : Ctl) (a b : Operand) (t : BitVec 5) (clr h : Bool) (s : State) :
    Host.Outcome State Fault Refusal :=
  countedT (.tdrain f a b t clr h) f s fun s key c =>
    let p := s.party c.party
    let slot := (s.uni key c false a).toNat
    let disp := s.uni key c true b
    if t.toNat ≥ p.tiles then .trap (tileFault t.toNat)
    else match Tbl.get? p.shapes slot with
      | none => .trap (shapeFault slot)
      | some r =>
        if !isPlane r true then .trap (shapeFault slot)
        else if shapeFmt r ≠ fmtOF c.fmt || !planeFormat (shapeFmt r) then .trap (formatFault (shapeFmt r))
        else match s.operandFault key r disp.toNat false with
          | some x => .trap x
          | none => .done (s.addT key (.drain slot r disp t.toNat clr h) true)

def execTdrainl (f : Ctl) (a b e : Operand) (t : BitVec 5) (h : Bool) (s : State) :
    Host.Outcome State Fault Refusal :=
  countedT (.tdrainl f a b e t h) f s fun s key c =>
    let p := s.party c.party
    let sa := (s.uni key c false a).toNat
    let sb := (s.uni key c false b).toNat
    if t.toNat ≥ p.tiles then .trap (tileFault t.toNat)
    else match Tbl.get? p.shapes sa, Tbl.get? p.shapes sb with
      | none, _ => .trap (shapeFault sa)
      | _, none => .trap (shapeFault sb)
      | some r, some l =>
        if !isPlane r true then .trap (shapeFault sa)
        else if !isMld l r then .trap (shapeFault sb)
        else if shapeFmt r ≠ fmtOF c.fmt || shapeFmt r > 4 then .trap (formatFault (shapeFmt r))
        else if shapeFmt l ≠ 8 && shapeFmt l ≠ 9 then .trap (formatFault (shapeFmt l))
        else
          match s.operandFault key r 0 false, s.sideFault key (shapeDst l) (auxBase l 0) (shapeExt l 0 * shapeExt l 1) with
          | some x, _ => .trap x
          | _, some x => .trap x
          | none, none => .done (s.addT key (.drainl sa r l (s.uni key c true e) t.toNat h) true)

/-- TLINK (spec/09 R172). -/
def execTlink (f : Ctl) (a b : Operand) (s : State) : Host.Outcome State Fault Refusal :=
  once (.tlink f a b) f s fun s key c =>
    let id := s.operandNat key c false a 0
    let n := s.operandNat key c false b 0
    if id > 15 then .trap (barrierFault id)
    else if n = 0 || n > 64 then .trap (barrierFault n)
    else if c.tlink.isSome then .trap (barrierFault id)
    else .done (s.modCrew key fun c => { c with tlink := some (id, n) })

/-! ## The Hypsometer (spec/09 R171, spec/20 R305) -/

/-- The bin of a value. -/
def hypsBin (base : Int) (x : Num) : Nat :=
  match x with
  | .nan .. | .inf _ => 31
  | .fin _ m e =>
    if m = 0 then 0
    else
      let l : Int := e + Nat.log2 m
      if l < base then 1 else if l ≤ base + 27 then (2 + (l - base)).toNat else 30

/-- Adds a drain's counts to a slot in one step, each counter saturating. -/
def Hyps.count (h : Hyps) (xs : List Num) : Hyps :=
  xs.foldl (fun h x =>
    let b := hypsBin h.base x
    let n := Sparse.get h.bins b
    if n = BitVec.allOnes 32 then h else { h with bins := Sparse.set h.bins b (n + 1) }) h

/-- The number of a context's slot: the slots belong to the context, and one that it has not touched since it was first
placed on the core is clear. -/
def hypsKey (ctx i : Nat) : Nat := 64 * ctx + i
def Core.hypsSlot (c : Core) (k : Nat) : Hyps := (Tbl.get? c.hyps k).getD {}

def hypsFault (n : Nat) : Report := { cause := 0x1D, d1 := BitVec.ofNat 32 n }

def execHistrd (f : Ctl) (d a b : Operand) (s : State) : Host.Outcome State Fault Refusal :=
  once (.histrd f d a b) f s fun s key c =>
    let slot := s.operandNat key c false a 0
    let bin := s.operandNat key c false b 0
    if slot > 63 then .trap (hypsFault slot)
    else if bin > 32 then .trap (hypsFault bin)
    else
      let h := (s.core (coreOf key)).hypsSlot (hypsKey (s.ctxOf key) slot)
      let x : DWord := if bin = 32 then BitVec.ofNat 64 (wrapInt 32 h.base) else (Sparse.get h.bins bin).setWidth 64
      .done (s.modCrew key fun c => c.writeDst false d (c.effLanes f) fun _ => x)

def execHistclr (f : Ctl) (a b : Operand) (s : State) : Host.Outcome State Fault Refusal :=
  once (.histclr f a b) f s fun s key c =>
    let slot := s.operandNat key c false a 0
    let base := toSigned 32 (s.operandNat key c false b 0)
    if slot > 63 then .trap (hypsFault slot)
    else if base < -1074 || base > 1023 then .trap (hypsFault (s.operandNat key c false b 0))
    else .done (s.modCore (coreOf key) fun x => { x with hyps := Tbl.set x.hyps (hypsKey (s.ctxOf key) slot) { base := base } })

/-! ## Completion -/

def State.modT (s : State) (key id : Nat) (f : TPend → TPend) : State :=
  s.modCrew key fun c => { c with tops := c.tops.map fun (o : TPend) => if o.id = id then f o else o }

/-- An operation completes: its link arrives, or its barrier fault is deferred (spec/09 R172); an arrival that flips the phase wakes
those that wait for it (spec/10 Table 10-6). -/
def State.finishT (s : State) (key : Nat) (o : TPend) : State :=
  let party := (s.crew key).party
  let (s, bad) : State × Option Report :=
    match o.link with
    | none => (s, none)
    | some (id, n) => match (s.party party).arriveObj id n with
      | some p => (s.linkArrives key p id, none)
      | none => (s, some (barrierFault (if (Tbl.get? (s.party party).bars id).isSome then n else id)))
  (s.modT key o.id fun o => { o with done := true, fault := bad }).dropOps key

/-- The shape slot that a copy fault of an operation names (spec/13 Table 13-3). -/
def TKind.slot : TKind → Nat
  | .load sl _ _ _ | .drain sl _ _ _ _ _ | .drainl sl _ _ _ _ _ => sl
  | _ => 0

/-- An operation is abandoned: its fault is deferred and its link dropped (spec/09 R172, R178). -/
def State.abandonT (s : State) (key : Nat) (o : TPend) (r : Report) : State :=
  ((s.endAsk key).modT key o.id fun o => { o with done := true, fault := some r, link := none }).dropOps key

/-- An armed operation traps (spec/09 R177): it stops where it is and the crew reports it at the operation's PC; while its party drains
for a pre-emption the report stays with the crew (spec/13 R240). -/
def State.trapT (s : State) (key : Nat) (o : TPend) (k : TKind) (r : Report) : State :=
  let s := (s.modT key o.id fun o => { o with kind := k, fault := some r }).modCrew key fun c => { c with pc := o.pc }
  if (s.partyOf key).preempted && (s.taskOf key).faulted.isNone then s.keepFault key r else s.takeFault key r

/-- The counted kinds of a trap under %FMT. -/
def counted (fmt : Word) (nan inf : Bool) : Bool × Bool := (fmtNTE fmt && nan, fmtITE fmt && inf)

/-- The report of a tile operation's trap, from the elements that met one at its stage, in row-major order. -/
def tileTrap (eng : BitVec 4) (tile stage : Nat) (met : List ((Nat × Nat) × Bool × Bool)) : Option Report :=
  let nans := met.filter fun x => x.2.1
  let infs := met.filter fun x => x.2.2
  let make (sub : BitVec 8) (x : (Nat × Nat) × Bool × Bool) : Report :=
    { cause := 0x13, sub := sub, eng := eng, more := met.any fun y => (y.2.1 || y.2.2) && y.1 != x.1
      d1 := BitVec.ofNat 32 (tile * 2 ^ 16 + x.1.2 * 2 ^ 8 + x.1.1), d2 := BitVec.ofNat 32 stage }
  match nans, infs with
  | x :: _, _ => some (make 0 x)
  | [], x :: _ => some (make 1 x)
  | [], [] => none

/-- The digits of a format, Table 9-3, and the passes of a k-step (spec/09 R164). -/
def digits (code : Nat) : Nat := [24, 11, 8, 4, 3, 8, 0, 4, 8, 4].getD code 0
def passCount (a b : BitVec 512) : Nat := (digits (shapeFmt b) + 3) / 4 * ((digits (shapeFmt a) + 11) / 12)

/-- The cycles by which a k-step's operand reads exceed its passes (spec/20 R295). -/
def portCycles (a b : BitVec 512) : Nat :=
  let ab := 4 * shapeExt a 1 * fmtBits (shapeFmt a) / 8
  let bb := 4 * shapeExt b 1 * fmtBits (shapeFmt b) / 8 + if shapeFmt b = 8 || shapeFmt b = 9 then 4 * shapeExt b 1 else 0
  let far : Bool := (shapeDst b).space = 3
  let scratch := (if far then ab else ab + bb) + 511
  let weight := (if far then bb else 0) + 511
  max (scratch / 512) (weight / 512) - passCount a b

/-- TMMA, TMMAE and TMMAG (spec/09 R165-R167, R177, spec/20 R306); the cycles that the ports add are counted in stall counter 9
(R295). The operands are read at one instant, at completion, though a word that is written meanwhile may be read old or new (R174; DESIGN
CHOICE, log 79). -/
def State.runProduct (s : State) (key : Nat) (o : TPend) (a b : BitVec 512) (relief : Option DWord) (tile from_ : Nat) :
    State :=
  let c := s.crew key
  let p := s.party c.party
  let cn := fmtCN o.fmt
  let fz := fmtFZ o.fmt
  let kk := shapeExt a 0 / 4
  let gq4 := shapeFmt b = 7
  let nn := shapeExt b 1
  let ra := s.operandRows key a
  let rb := s.operandRows key b
  let ls := if relief.isSome then s.localBytes key b (auxBase b 0) (shapeExt b 0 * nn) else []
  let cs := if gq4 then s.localBytes key b (auxBase b 0) (shapeExt b 0 * nn / 64) else []
  let ss := if gq4 then s.localBytes key b (auxBase b 1) (4 * ((shapeExt b 0 * nn / 64 + 255) / 256)) else []
  let run (to_ : Nat) (x : Nat × Nat) : Cell :=
    runCell cn gq4 (gq4Scale b fz cs ss x.2) (aElem a fz ra x.1)
      (fun k => bElem b o.fmt c.seed.toNat relief rb ls k x.2) from_ to_ (acc64.decode (p.tile tile x.1 x.2).toNat)
  let all := cells (shapeExt a 1) nn
  let stop : Option Nat :=
    if !o.armed then none
    else all.foldl (fun q x =>
      let r := run kk x
      let hit := (if fmtNTE o.fmt then r.nan else none, if fmtITE o.fmt then r.inf else none)
      let q' := match hit with | (some i, some j) => some (min i j) | (some i, none) => some i | (none, j) => j
      match q, q' with | some i, some j => some (min i j) | some i, none => some i | none, j => j) none
  let slow (to_ : Nat) (s : State) : State := s.countCycles (coreOf key) 9 (portCycles a b * (to_ - from_))
  let put (p : Party) (x : Nat × Nat) (r : Cell) : Party :=
    p.setTile tile x.1 x.2 (BitVec.ofNat 64 (acc64.round {} r.s))
  match stop with
  | none => ((slow kk s).setParty c.party (all.foldl (fun p x => if kk ≤ from_ then p else put p x (run kk x)) p)).finishT key o
  | some q =>
    let p' := if q ≤ from_ then p else all.foldl (fun p x => put p x (run q x)) p
    let met := all.map fun x =>
      let r := run (q + 1) x
      (x, counted o.fmt (r.nan = some q) (r.inf = some q))
    match tileTrap 2 tile q met with
    | some r => ((slow (q + 1) s).setParty c.party p').trapT key o (.mma a b relief tile q) r
    | none => s

/-- A unit of transfer of a TLOAD or a drain: at most 128 bytes of row `m`, the `n` elements from `n0` (spec/15 R264). -/
structure TileUnit where
  addr : Nat
  m : Nat
  n0 : Nat
  n : Nat
deriving DecidableEq, Repr

/-- The number under which an operation remembers a unit. -/
def TileUnit.id (u : TileUnit) : Nat := 128 * u.m + u.n0

/-- The units of a record, row by row. -/
def tileUnits (r : BitVec 512) (disp : Nat) : List TileUnit :=
  let pl := (shapeDst r).pl
  let n := shapeExt r 0
  let g := if pl then 32 else 1024 / fmtBits (shapeFmt r)
  ((restRows r disp).zip (upto 0 (shapeExt r 1))).flatMap fun x => (upto 0 ((n + g - 1) / g)).map fun i =>
    { addr := x.1 + rowBytes pl (shapeFmt r) (g * i), m := x.2, n0 := g * i, n := min g (n - g * i) }

/-- The units that an operation has not moved yet. -/
def unitsLeft (o : TPend) (r : BitVec 512) (disp : DWord) : List TileUnit :=
  (tileUnits r disp.toNat).filter fun u => !o.rows.contains u.id

/-- A TLOAD or a drain as far as it goes: the state, the units moved and the bits written, what the writes wait for, what stopped
it. -/
structure TileRun where
  s : State
  rows : List Nat := []
  bits : List Nat := []
  w : Wrote := {}
  err : Option EngErr := none

/-- TLOAD (spec/09 R168): a NaN follows R42 under the %FMT of the issue; once a quantity of the class has reached its limit no further
unit starts (spec/15 R264). -/
def loadUnits (key : Nat) (fmt : Word) (r : BitVec 512) (tile : Nat) : List TileUnit → TileRun → TileRun
  | [], x => x
  | u :: rest, x =>
    let side := shapeDst r
    let len := rowBytes side.pl (shapeFmt r) u.n
    if x.s.spent key then { x with err := some (.wait .hold) }
    else match x.s.sideRead key side u.addr len with
    | .error e => { x with err := some e }
    | .ok (bs, s) =>
      let s := s.modParty (s.crew key).party fun p => (upto 0 u.n).foldl (fun p i =>
        let v := rowElem side.pl (fmtBits (shapeFmt r)) bs i
        p.setTile tile u.m (u.n0 + i) (BitVec.ofNat 64 (acc64.round { cn := fmtCN fmt } (codeNum (shapeFmt r) false v)))) p
      loadUnits key fmt r tile rest
        { x with s := if side.space = 0 then s.charge key 1 (8 * u.n) else s, rows := x.rows ++ [u.id] }
def State.runLoad (s : State) (key : Nat) (o : TPend) (r : BitVec 512) (disp : DWord) (tile : Nat) : TileRun :=
  loadUnits key o.fmt r tile (unitsLeft o r disp) { s := s }

/-- One drained element: its bits, and what its traps see. -/
structure Drained where
  m : Nat
  n : Nat
  bits : Nat
  met : Bool × Bool

/-- The elements that a drain writes (spec/09 R169, R170), with what its traps see (R177). -/
def drainElems (p : Party) (r : BitVec 512) (fmt : Word) (tile : Nat) (scale : Nat → Nat → Num → Num) (at_ : List (Nat × Nat)) :
    List Drained :=
  let code := shapeFmt r
  at_.map fun (m, n) =>
    let raw := (p.tile tile m n).toNat
    let x := scale m n (acc64.decode raw)
    let bits := outBits code fmt x raw
    let v := codeNum code false bits
    { m := m, n := n, bits := bits
      met := counted fmt (isFloatCode code && v.isNan && !x.isNan) (isFloatCode code && v.isInf && !x.isInf && !x.isNan) }

/-- Writes units of a tile to a drain's destination, in ascending order (spec/20 R304); once a quantity of the class has reached its
limit no further one starts (spec/15 R264). -/
def writeUnits (key : Nat) (o : TPend) (r : BitVec 512) (tile : Nat) (clr : Bool) (scale : Nat → Nat → Num → Num) :
    List TileUnit → TileRun → TileRun
  | [], x => x
  | u :: rest, x =>
    let party := (x.s.crew key).party
    let at_ := (upto u.n0 u.n).map fun n => (u.m, n)
    let bits := (drainElems (x.s.party party) r o.fmt tile scale at_).map (·.bits)
    let row := packRow (shapeDst r).pl (fmtBits (shapeFmt r)) bits
    if x.s.spent key then { x with err := some (.wait .hold) }
    else match x.s.sideWrite key (shapeDst r) (scopeOf (shapeSc r)) u.addr row with
    | .error e => { x with err := some e }
    | .ok (s, w) =>
      let s := if clr then s.modParty party fun p => at_.foldl (fun p y => p.setTile tile y.1 y.2 0) p else s
      writeUnits key o r tile clr scale rest
        { s := if (shapeDst r).space = 0 then s.charge key 1 row.length else s
          rows := x.rows ++ [u.id], bits := x.bits ++ bits, w := x.w.and w }

/-- Which of the rows left a drain writes at once: a free choice, since an observer that is not ordered with it may see any
subset of them (spec/20 R304). -/
def State.drainPick (s : State) (left : List TileUnit) : List TileUnit × State :=
  let (x, s) := s.free
  let (y, s) := s.free
  let l := left.filter fun u => if u.m < 64 then x.getLsbD u.m else y.getLsbD (u.m - 64)
  (if l.isEmpty then left else l, s)

/-- The Hypsometer takes what a finished drain has counted (spec/20 R305). -/
def State.histogram (s : State) (key : Nat) (r : BitVec 512) (bits : List Nat) : State :=
  s.modCore (coreOf key) fun x =>
    let i := hypsKey (s.ctxOf key) (shapeTid r % 64)
    { x with hyps := Tbl.set x.hyps i ((x.hypsSlot i).count (bits.map (codeNum (shapeFmt r) false))) }

/-- A drain that is complete counts in the Hypsometer when it has H, in one step (spec/20 R305). -/
def State.finishDrain (s : State) (key : Nat) (o : TPend) (bits : List Nat) : State :=
  (match o.kind with
    | .drain _ r _ _ _ true | .drainl _ r _ _ _ true => s.histogram key r bits
    | _ => s).finishT key o

/-- An operation in T notes what its engine waits for. -/
def TPend.stops (o : TPend) (e : Option EngErr) : TPend := { o with why := e.map EngErr.why, heldDie := (e.map EngErr.heldDie).getD 4 }

/-- What a run of a TLOAD or a drain has done: its units and counts are kept. -/
def tileStep (key : Nat) (o : TPend) (x : TileRun) : State :=
  (x.s.wrote key x.w).modT key o.id fun o =>
    { o.stops x.err with rows := o.rows ++ x.rows, bits := o.bits ++ x.bits, ct := maxOpt o.ct x.w.wait }

/-- Performs a drain: its traps in a first pass, then rows (spec/20 R304, R307). `give` is true when an unmapped page
ends it, false when it waits. A drain whose destination is another package's is acknowledged with a later event. -/
def State.runDrain (s : State) (key : Nat) (o : TPend) (r : BitVec 512) (disp : DWord) (tile : Nat) (clr give : Bool)
    (scale : Nat → Nat → Num → Num) : State :=
  let p := s.partyOf key
  match if o.armed && !o.checked then
      tileTrap 3 tile 0xFFFF
        ((drainElems p r o.fmt tile scale (cells (shapeExt r 1) (shapeExt r 0))).map fun e => ((e.m, e.n), e.met)) else none with
  | some x => s.trapT key o o.kind x
  | none =>
    let s := if o.armed && !o.checked then s.modT key o.id fun o => { o with checked := true } else s
    let left := unitsLeft o r disp
    let (l, u) := if give then (left, s) else s.drainPick left
    let x := writeUnits key o r tile clr scale l { s := u }
    match x.err with
    | some e =>
      if (give && !s.engineWaits key e) || e.final then (tileStep key o x).abandonT key o (engReport 0x0D 3 o.kind.slot e)
      else if x.rows.isEmpty then (s.modT key o.id fun o => o.stops (some e)).engineMiss e
      else (tileStep key o x).engineMiss e
    | none =>
      let t := tileStep key o x
      if x.rows.length < left.length then t
      else
        let t := t.modT key o.id fun o => { o with applied := true }
        if !x.w.ack && t.passed key (maxOpt o.ct x.w.wait) then t.finishDrain key o (o.bits ++ x.bits) else t

/-- The factor of TDRAINL (spec/09 R170). -/
def State.drainScale (s : State) (key : Nat) (mld : BitVec 512) (e : DWord) (m n : Nat) (g : Num) : Num :=
  let l := (s.localBytes key mld (auxBase mld 0 + n * shapeExt mld 0 + m) 1).headD 0
  let eps := reliefEps (shapeTid mld) ((reliefE0 e + 1024 * n + m) % 2 ^ 48) (reliefMember e) (s.crew key).seed.toNat
  Num.mul (Num.mul (Num.mul g (fp32.decode eps)) (sigma l.toNat)) (fp32.decode 0x3F317218)

/-- The tiles that an operation holds: TADD's source too (spec/20 R303). -/
def TKind.tiles : TKind → List Nat
  | .mma _ _ _ t _ | .zero t | .load _ _ _ t | .drain _ _ _ t _ _ | .drainl _ _ _ _ t _ => [t]
  | .add t s => [t, s]
  | _ => []
def TKind.isOctet : TKind → Bool | .octet .. => true | _ => false
def TKind.isDrain : TKind → Bool | .drain .. | .drainl .. => true | _ => false
/-- TLOAD and the drains reach beyond their tiles. -/
def TKind.isMem : TKind → Bool | .load .. => true | k => k.isDrain
def TKind.isMma : TKind → Bool | .mma .. => true | _ => false

/-- The oldest operation of a crew on the array or the drain unit; one that has trapped has left it (spec/20 R308). -/
def Crew.headT (c : Crew) : Option TPend :=
  match c.tops.find? fun o => !o.done && !o.kind.isOctet with
  | some o => if o.fault.isSome then none else some o
  | none => none

/-- The tiles that a side of a copy covers, in the core's accumulator store. -/
def accTiles (x : Side) (len : Nat) (rows : List Nat) : List Nat :=
  if x.space = 4 then rows.flatMap fun a => upto (a / tileBytes) ((a + len + tileBytes - 1) / tileBytes - a / tileBytes) else []

/-- The tiles, with their parties, that a copy of the accumulator store covers. -/
def State.copyTiles (s : State) (core : Nat) (k : CKind) : List (Nat × Nat) :=
  if !k.onAcc then [] else match k with
  | .copy _ r disp dd _ =>
    let p := copyPlan r disp dd
    (accTiles p.src p.srcLen p.srcRows ++ accTiles p.dst p.dstLen p.dstRows).filterMap (s.tileOwner core)
  | _ => []

/-- Whether an earlier operation of the party, or an earlier copy of the accumulator store, holds a tile of an operation (spec/20 R303).
Unordered operations of two crews on one tile race (spec/09 R173): the model performs whole operations one after another, in the order of
their issue (DESIGN CHOICE, log 79). -/
def State.tileHeld (s : State) (key : Nat) (o : TPend) : Bool :=
  let party := (s.crew key).party
  (s.crews.any fun x => x.2.party = party && x.2.tops.any fun y =>
    !y.done && y.fault.isNone && y.order < o.order && y.kind.tiles.any o.kind.tiles.contains) ||
  s.crews.any fun x => coreOf x.1 = coreOf key && x.2.cops.any fun y =>
    y.kind.onAcc && !y.done && y.order < o.order && (s.copyTiles (coreOf key) y.kind).any fun z => z.1 = party && o.kind.tiles.contains z.2

/-- Whether an earlier tile operation holds a tile that a copy covers (spec/20 R303). -/
def State.accHeld (s : State) (key : Nat) (o : CPend) : Bool :=
  let mine := s.copyTiles (coreOf key) o.kind
  !mine.isEmpty && s.crews.any fun x => coreOf x.1 = coreOf key && x.2.tops.any fun y =>
    !y.done && y.fault.isNone && y.order < o.order && y.kind.tiles.any fun t => mine.contains (x.2.party, t)

/-- Whether the tile operations of a crew's party are served before others: a COPY crew of it has a collective or a schedule
outstanding, and its context's collective egress queue is empty, since no collective of the context waits for its data to
arrive (spec/15 R260). -/
def State.egressFirst (s : State) (key : Nat) : Bool :=
  let p := (s.crew key).party
  let ctx := s.ctxOf key
  let sends (o : CPend) : Bool := !o.done && match o.kind with | .coll .. | .sched _ => true | _ => false
  (s.crews.any fun x => x.2.party = p && x.2.role = some .copy && x.2.cops.any sends) &&
    !(s.crews.any fun x => (s.party x.2.party).ctx = ctx && x.2.cops.any fun o => sends o && o.applied)

/-- Whether something keeps an operation of a crew from its turn: an operation holds its tile, or the crew has trapped before it; at the
accumulator port also what the crew's class or an earlier operation of the crew waits for. At the array only the tile lets a later operation
pass (spec/15 R260, spec/20 R303). -/
def State.tileStuck (s : State) (key : Nat) (c : Crew) (o : TPend) : Bool :=
  s.tileHeld key o || (!o.kind.isMma && s.classHeld key) ||
    c.tops.any fun z => !z.done && z.order ≤ o.order && (z.fault.isSome || (!o.kind.isMma && z.why.isSome))

/-- Whether another crew's operation goes first at the array, or at the accumulator port: the array and the port serve issue
order across the parties of a core, among the operations that nothing holds (spec/15 R260, spec/20 R303). -/
def State.tileBehind (s : State) (key : Nat) (o : TPend) : Bool :=
  let mine := s.egressFirst key
  (!o.kind.isMma && s.crews.any fun x => coreOf x.1 = coreOf key && x.2.cops.any fun y =>
    y.kind.onAcc && !y.done && !y.applied && y.why.isNone && y.order < o.order && !s.accHeld x.1 y) ||
  s.crews.any fun x => x.1 != key && coreOf x.1 = coreOf key && x.2.tops.any fun y =>
    !y.done && !y.kind.isOctet && y.kind.isMma = o.kind.isMma && !y.applied && !s.tileStuck x.1 x.2 y &&
      if o.kind.isMma then
        let first := s.egressFirst x.1
        if first = mine then y.order < o.order else first
      else y.order < o.order

/-- Whether an earlier operation goes before a copy of the accumulator store at the port, which serves issue order (spec/20 R303). -/
def State.accBehind (s : State) (key : Nat) (o : CPend) : Bool :=
  o.kind.onAcc && o.why.isNone && s.crews.any fun x => coreOf x.1 = coreOf key && x.2.tops.any fun y =>
    !y.done && !y.kind.isOctet && !y.kind.isMma && !y.applied && y.order < o.order && !s.tileStuck x.1 x.2 y

/-- COPY_COMPLETE: the oldest copy of a crew is performed, and completes at its scope (spec/05 R111, R113): when Meridian has
passed its completion time, and another package, whose acknowledgement comes with a later event, has it. A copy that meets
an unmapped page waits. It moves some of its units in each event (log 67). One of the
accumulator store waits for the tile operations before it (spec/20 R303). -/
def execCopyComplete (crew : Nat) (s : State) : Host.Outcome State Fault Refusal :=
  engineEvent crew s fun s =>
    match (s.crew crew).oldestC CKind.isCopy with
    | none => s
    | some o =>
      match o.kind with
      | .copy slot r disp dd _ =>
        if o.applied then (if s.passed crew o.ct then s.finishCopy crew o else s)
        else if s.engineRejected crew || s.accHeld crew o || s.accBehind crew o then s
        else
          let n := (copyAll r disp dd).length
          let (k, u) := s.engineSteps (if (copyPlan r disp dd).overlapping then 1 else n - o.rows)
          let x := u.runCopy crew r disp dd o k
          match x.err with
          | some e => if e.final then copyGivesUp crew o n x (engReport 0x0D 1 slot e) else copyStep crew o n x
          | none =>
            let t := copyStep crew o n x
            if n ≤ x.rows && !x.w.ack && t.passed crew (maxOpt o.ct x.w.wait) then t.finishCopy crew o else t
      | _ => s.finishCopy crew o

/-- The oldest operation of a crew on the array or the drain unit, when its tiles are free and it is its turn (spec/09 R173,
spec/15 R260, spec/20 R303). -/
def State.nextTile (s : State) (key : Nat) : Option TPend :=
  match (s.crew key).headT with
  | none => none
  | some o =>
    if s.tileHeld key o || (!o.applied && o.why.isNone && s.tileBehind key o) || s.engineRejected key then none else some o

/-- TILE_OP_COMPLETE: the oldest tile operation of a crew is performed (spec/09 R165-R168, R173). A held class keeps a TLOAD alone, since
the others transfer nothing (spec/15 R264). -/
def execTileOpComplete (crew : Nat) (s : State) : Host.Outcome State Fault Refusal :=
  eventOf crew s fun s =>
    match s.nextTile crew with
    | none => s
    | some o =>
      let party := (s.crew crew).party
      if o.kind.isMem && s.classHeld crew then s
      else match o.kind with
      | .empty => s.finishT crew o
      | .zero t =>
        (s.modParty party fun p => (cells 128 128).foldl (fun p x => p.setTile t x.1 x.2 0) p).finishT crew o
      | .add t src =>
        (s.modParty party fun p =>
          let old := p
          (cells 128 128).foldl (fun p x =>
            let r := acc64.round { mode := .rto, cn := fmtCN o.fmt }
              (Num.add (acc64.decode (old.tile t x.1 x.2).toNat) (acc64.decode (old.tile src x.1 x.2).toNat))
            p.setTile t x.1 x.2 (BitVec.ofNat 64 r)) p).finishT crew o
      | .load _ r disp t =>
        let x := s.runLoad crew o r disp t
        match x.err with
        | none => (tileStep crew o x).finishT crew o
        | some e =>
          if e.final then (tileStep crew o x).abandonT crew o (engReport 0x0D 2 o.kind.slot e)
          else (tileStep crew o x).engineMiss e
      | .mma a b relief t q =>
        match s.localErr crew a false <|> s.localErr crew b false <|> (relief.bind fun _ => s.localErr crew b true) with
        | some e => s.abandonT crew o (engReport 0x0D 2 0 e)
        | none => s.runProduct crew o a b relief t q
      | _ => s

/-- A drain goes on: performed, or completed once Meridian has passed its completion time. -/
def State.stepDrain (s : State) (crew : Nat) (o : TPend) (give : Bool) : State :=
  if o.applied then (if s.passed crew o.ct then s.finishDrain crew o o.bits else s)
  else match o.kind with
    | .drain _ r disp t clr _ => s.runDrain crew o r disp t clr give (fun _ _ x => x)
    | .drainl _ r mld e t _ =>
      match s.localErr crew mld true with
      | some x => s.abandonT crew o (engReport 0x0D 3 o.kind.slot x)
      | none => s.runDrain crew o r 0 t false give (s.drainScale crew mld e)
    | _ => s

/-- DRAIN_COMPLETE: the oldest tile operation of a crew, a drain, writes its rows and completes at its scope (spec/09
R169-R171). -/
def execDrainComplete (crew : Nat) (s : State) : Host.Outcome State Fault Refusal :=
  engineEvent crew s fun s =>
    match s.nextTile crew with
    | none => s
    | some o => s.stepDrain crew o false

/-- COPY_ABANDON: the oldest copy of a crew meets an address that nobody maps; what it reached stays written, and a copy
fault is deferred (spec/05 R112). A TLOAD or a drain is abandoned in the same way (spec/09 R168, R169). -/
def execCopyAbandon (crew : Nat) (s : State) : Host.Outcome State Fault Refusal :=
  eventOf crew s fun s =>
    let tile (s : State) : State :=
      match s.nextTile crew with
      | none => s
      | some o => match o.kind with
        | .load _ r disp t =>
          let x := s.runLoad crew o r disp t
          match x.err with
          | none => s
          | some e => if s.engineWaits crew e then s else (tileStep crew o x).abandonT crew o (engReport 0x0D 2 o.kind.slot e)
        | _ => if o.kind.isDrain && !o.applied then s.stepDrain crew o true else s
    match (s.crew crew).oldestC CKind.isCopy with
    | none => tile s
    | some o =>
      match o.kind with
      | .copy slot r disp dd _ =>
        let n := (copyAll r disp dd).length
        let x := s.runCopy crew r disp dd o n
        match o.applied || s.accHeld crew o, x.err with
        | false, some e => if s.engineWaits crew e then tile s else copyGivesUp crew o n x (engReport 0x0D 1 slot e)
        | _, _ => tile s
      | _ => tile s

end Sys2Proof.Machine
end

