-- ==== Sys2Proof/Machine/Octet.lean ====
section
/-! DEFINITION. OMMV and OMMVE: octet requests, the fusion window and fused passes (spec/09 R175, R176, spec/22). -/
namespace Sys2Proof.Machine

def XFmt.fmt : XFmt → FFmt | .f32 => fp32 | .f16 => fp16 | .bf16 => bf16 | .e4m3 => e4m3 | .e5m2 => e5m2
def XFmt.bits : XFmt → Nat | .f32 => 32 | .f16 | .bf16 => 16 | .e4m3 | .e5m2 => 8
/-- The format code of a weight format, Table 3-1. -/
def WFmt.code : WFmt → Nat
  | .f32 => 0 | .f16 => 1 | .bf16 => 2 | .e4m3 => 3 | .e5m2 => 4 | .mldb => 8 | .mlde => 9
def WFmt.size (w : WFmt) : Nat := fmtBits (WFmt.code w) / 8

/-- The open group that a request joins, while its window has not closed, or a new one (spec/22 R318). -/
def joinGroup (key : Group) : List Group → Nat × Nat × Nat → List Group
  | [], r => [{ key with reqs := [r] }]
  | g :: gs, r =>
    if !g.ready && key.closes < g.closes + 16 && g.reqs.length < 16 && g.party = key.party && g.base = key.base && g.k = key.k && g.n = key.n &&
        g.wf = key.wf && g.relief = key.relief then
      let reqs := g.reqs ++ [r]
      { g with reqs := reqs, ready := reqs.length = 16 } :: gs
    else g :: joinGroup key gs r

/-- OMMV and OMMVE (spec/09 R175, spec/22 R316-R318): x and the old y are read, and every octet with an effective lane
sends a request. The range that R175 checks holds the ℓ bytes of OMMVE alone, since OMMV reads only μ of WF 8 and 9 (DESIGN CHOICE, log 84).
-/
def octetOp (i : Instr) (f : Ctl) (d a b : Operand) (e : Option Operand) (k n : BitVec 6) (xf : XFmt) (wf : WFmt)
    (z : Bool) (s : State) : Host.Outcome State Fault Refusal :=
  countedT i f s fun s key c =>
    let p := s.party c.party
    let base := s.operandNat key c false b 0
    let kk := k.toNat + 1
    let nn := n.toNat + 1
    let len := kk * nn * WFmt.size wf + if e.isSome then kk * nn else 0
    if base + len > p.weightLen then .trap { cause := 0x09, addr := BitVec.ofNat 64 base }
    else
      match d, a with
      | .v dr, .v ar =>
        let lanes := c.effLanes f
        let data := lanes.map fun l =>
          { lane := l, x := (upto ar.toNat (octetRegs k xf)).map fun r => c.v r l
            y := (upto dr.toNat nn).map fun r => c.v r l : OctetLane }
        let octets := (lanes.map fun l => l / 8).eraseDups
        let relief := e.map fun e => s.uni key c true e
        let core := coreOf key
        let gkey : Group :=
          { party := c.party, base := base, k := kk, n := nn, wf := wf, relief := relief.map fun x => (x, c.seed)
            closes := s.clk (core / 16) + 16, reqs := [] }
        let id := c.nextId
        let s := s.addT key (.octet dr.toNat base kk nn xf wf z relief data octets [] []) true
        .done (s.modCore core fun x => { x with groups := octets.foldl (fun g o => joinGroup gkey g (key, id, o)) x.groups })
      | _, _ => .done s

def execOmmv (f : Ctl) (d a b : Operand) (k n : BitVec 6) (xf : XFmt) (wf : WFmt) (z : Bool) (s : State) :
    Host.Outcome State Fault Refusal :=
  octetOp (.ommv f d a b k n xf wf z) f d a b none k n xf wf z s
def execOmmve (f : Ctl) (d a b e : Operand) (k n : BitVec 6) (xf : XFmt) (wf : WFmt) (z : Bool) (s : State) :
    Host.Outcome State Fault Refusal :=
  octetOp (.ommve f d a b e k n xf wf z) f d a b (some e) k n xf wf z s

/-- W(k, j) as a request takes it under its own %FMT (spec/09 R175, spec/22 R319). -/
def octetWeight (store : Sparse 8) (base kk nn : Nat) (wf : WFmt) (fmt : Word) (relief : Option DWord) (seed : Nat)
    (k j : Nat) : Weight :=
  let size := WFmt.size wf
  let raw := fromBytesLE (Memory.readBytes store (base + (k * nn + j) * size) size)
  match relief with
  | some e =>
    perturbed (WFmt.code wf) fmt seed 0 (reliefE0 e + 1024 * j + k) (reliefMember e) raw
      (Memory.read store (base + kk * nn * size + k * nn + j)).toNat
  | none => { val := codeNum (WFmt.code wf) (fmtFZ fmt) raw }

/-- Element `i` of a lane's x. -/
def octetX (xf : XFmt) (fz : Bool) (x : List Word) (i : Nat) : Num :=
  let per := xf.perReg
  (XFmt.fmt xf).source fz ((x.getD (i / per) 0).toNat / 2 ^ (XFmt.bits xf * (i % per)) % 2 ^ XFmt.bits xf)

/-- y[j] of a lane (spec/09 R176) and the values it counted as produced. -/
def octetElem (fmt : Word) (kk : Nat) (z : Bool) (x : Nat → Num) (w : Nat → Weight) (y : Word) (lane j : Nat) :
    Nat × List Produced :=
  let cn := fmtCN fmt
  let fz := fmtFZ fmt
  let zero : Num := .fin false 0 0
  let start := if z then zero else fp32.source fz y.toNat
  let r := (upto 0 ((kk + 3) / 4)).foldl (fun (acc : Num × List Produced) q =>
    let ks := (upto (4 * q) 4).filter fun k => k < kk
    let ws := ks.map fun k => (x k, w k)
    let (ps, bad) := passSum cn (ws.map fun w => (w.1, w.2.val))
    let t := rsum cn acc.1 ps
    let c := counted fmt (bad || t.2 || ws.any fun w => w.2.nan) (ws.any fun w => w.2.inf)
    (t.1, acc.2 ++ (if c.1 then [{ nan := true, step := q, lane := lane, j := j }] else [])
      ++ (if c.2 then [{ nan := false, step := q, lane := lane, j := j }] else []))) (start, [])
  let bits := fp32.round (fmtEnv fmt .rne) r.1
  let c := counted fmt false (fp32.isInfBits bits && !r.1.isInf && !r.1.isNan)
  (bits, r.2 ++ if c.2 then [{ nan := false, step := 0xFFFF, lane := lane, j := j }] else [])

/-- The report of an armed octet instruction (spec/22 R320): a NaN goes before an infinity, and the lane, the j and the stage
are those of the kind reported. -/
def octetTrap (ps : List Produced) : Report :=
  let nan := ps.any fun p => p.nan
  let kind := ps.filter fun p => p.nan = nan
  let stage := kind.foldl (fun m p => min m p.step) 0xFFFF
  let here := kind.filter fun p => p.step = stage
  let lane := here.foldl (fun m p => min m p.lane) 1024
  let j := (here.filter fun p => p.lane = lane).foldl (fun m p => min m p.j) 64
  let (m, more) := laneFields (ps.map fun p => p.lane).eraseDups lane
  { cause := 0x13, sub := if nan then 0 else 1, eng := 4, d1 := BitVec.ofNat 32 lane
    d2 := BitVec.ofNat 32 (j * 2 ^ 16 + stage), lmask := m, more := more }

/-- Serves one request of a pass: its lanes are computed; the last request of an instruction checks it and writes y, or
traps (spec/22 R319, R320). -/
def State.serveOctet (s : State) (key id octet : Nat) : State :=
  let c := s.crew key
  match c.tops.find? fun o => o.id = id && !o.done with
  | none => s
  | some o =>
    match o.kind with
    | .octet d base kk nn xf wf z relief lanes waiting out prod =>
      let store := (s.party c.party).weight
      let len := kk * nn * WFmt.size wf + if relief.isSome then kk * nn else 0
      match whole (s.party c.party).weightBad base len with
      | .error e => s.abandonT key o (engReport 0x0D 4 0 e)
      | .ok _ =>
      let mine := lanes.filter fun l => l.lane / 8 = octet
      let w (k j : Nat) : Weight := octetWeight store base kk nn wf o.fmt relief c.seed.toNat k j
      let res := mine.flatMap fun l => (upto 0 nn).map fun j =>
        let r := octetElem o.fmt kk z (octetX xf (fmtFZ o.fmt) l.x) (fun k => w k j) (l.y.getD j 0) l.lane j
        (({ vec := true, reg := d + j, lane := l.lane, val := BitVec.ofNat 32 r.1 : RegWrite }), r.2)
      let out := out ++ res.map (·.1)
      let prod := prod ++ res.flatMap (·.2)
      let waiting := waiting.erase octet
      let kind : TKind := .octet d base kk nn xf wf z relief lanes waiting out prod
      if !waiting.isEmpty then s.modT key id fun o => { o with kind := kind }
      else if o.armed && !prod.isEmpty then s.trapT key o kind (octetTrap prod)
      else (s.modCrew key fun c => out.foldl RegWrite.apply c).finishT key o
    | _ => s

/-- Whether a group is ready: it is full, a pre-emption request has made it so, or its window has closed (spec/22 R318). -/
def State.groupReady (s : State) (core : Nat) (g : Group) : Bool := g.ready || decide (g.closes ≤ s.clk (core / 16))

/-- FUSION_WINDOW_CLOSE: a group whose 16 core cycles are over is ready (spec/22 R318). -/
def execFusionWindowClose (core idx : Nat) (s : State) : Host.Outcome State Fault Refusal :=
  eventOn (dieOfCore core) s fun s =>
    let x := s.core core
    match x.groups[idx]? with
    | none => s
    | some g =>
      if g.closes ≤ s.clk (core / 16) then s.setCore core { x with groups := x.groups.set idx { g with ready := true } }
      else s

/-- FUSED_PASS: the octet path serves the oldest ready group (spec/22 R318, R319); its requests are in flight, so a held class does not keep
them (spec/15 R264). -/
def execFusedPass (core : Nat) (s : State) : Host.Outcome State Fault Refusal :=
  eventOn (dieOfCore core) s fun s =>
    let x := s.core core
    match x.groups.find? (s.groupReady core) with
    | none => s
    | some g =>
      let s := s.setCore core { x with groups := x.groups.erase g }
      g.reqs.foldl (fun s r => s.serveOctet r.1 r.2.1 r.2.2) s

end Sys2Proof.Machine
end

