-- ==== Sys2Proof/Machine/Engine.lean ====
section
/-! DEFINITION. MAJ 0xB0 to 0xB2: collectives, schedules, amplitude commands and clocks, with their events (spec/10
R180-R190, spec/24, spec/26 R343-R352). -/
namespace Sys2Proof.Machine

/-! ## Communicators -/

def commKey (ctx id : Nat) : Nat := 64 * ctx + id
def State.comm (s : State) (ctx id : Nat) : Option Comm := Tbl.get? s.comms (commKey ctx id)
def schedKey (ctx id : Nat) : Nat := 256 * ctx + id
/-- The schedule image of a context with an id (spec/26 R346). -/
def State.sched (s : State) (ctx id : Nat) : Option Schedule := Tbl.get? s.scheds (schedKey ctx id)

/-- The extension record's fields (spec/10 Table 10-2). -/
def extComm (r : BitVec 256) : Nat := bitsOf r 0 8
def extOp (r : BitVec 256) : Nat := bitsOf r 8 2
def extMode (r : BitVec 256) : Bool := r.getLsbD 10
def extStart (r : BitVec 256) : Nat := bitsOf r 32 16
def extRm (r : BitVec 256) (i : Nat) : Bool := r.getLsbD (48 + i)
def extCoord (r : BitVec 256) (i : Nat) : Nat := bitsOf r (64 + 16 * i) 16
def extSig (r : BitVec 256) : DWord := r.extractLsb' 128 64
def extReserved (r : BitVec 256) : Bool := bitsOf r 14 2 ≠ 0 || bitsOf r 51 13 ≠ 0 || bitsOf r 112 16 ≠ 0 || bitsOf r 192 64 ≠ 0

/-- The participating set, by linear rank (spec/10 R181). -/
def Comm.members (m : Comm) (r : BitVec 256) : List Nat :=
  (upto 0 (m.x * m.y * m.z)).filter fun k =>
    (extRm r 0 || k % m.x = extCoord r 0) && (extRm r 1 || k / m.x % m.y = extCoord r 1) &&
      (extRm r 2 || k / (m.x * m.y) = extCoord r 2)

/-- The package and die of a rank. -/
def Comm.place (m : Comm) (k : Nat) : Nat × Nat := m.ranks.getD k (0, 0)
/-- The rank of a die of this package. -/
def State.rankOf (s : State) (m : Comm) (die : Nat) : Option Nat := m.ranks.findIdx? fun x => x.1 = s.pkgId && x.2 = die

def collFault (slot : Nat) : Report := { cause := 0x0E, d1 := BitVec.ofNat 32 slot }
/-- The deferred fault of a collective, with a cause of Table 26-4. -/
def collCause (slot : Nat) (c : Word) : Report := { collFault slot with eng := 5, d2 := c }

/-- The issue checks of R183. -/
def State.collCheck (s : State) (key ctx : Nat) (r : BitVec 512) (x : BitVec 256) : Option Comm :=
  match s.comm ctx (extComm x) with
  | none => none
  | some m =>
    let set := m.members x
    let die := dieOfCore (coreOf key)
    let sc := scopeOf (shapeSc r)
    let fmt := shapeFmt r
    let otherPkg := set.any fun k => (m.place k).1 != s.pkgId
    let otherDie := set.any fun k => (m.place k).1 = s.pkgId && (m.place k).2 != die
    let inside := match s.rankOf m die with | some k => set.contains k | none => false
    if extReserved x || extComm x > 63 then none
    else if extCoord x 0 ≥ m.x || extCoord x 1 ≥ m.y || extCoord x 2 ≥ m.z then none
    else if extStart x ≥ set.length then none
    else if extOp x ≠ 0 && !inside then none
    else if extOp x ≠ 0 && fmt ≠ 0 && fmt ≠ 1 && fmt ≠ 2 && fmt ≠ 6 then none
    else if (shapeSrc r).space > 1 || (shapeDst r).space ≠ 0 || (shapeSrc r).pl || (shapeDst r).pl then none
    else if otherPkg && sc ≠ .sys then none
    else if otherDie && !Scope.wide sc then none
    else some m

/-- The reduces that a rank of this package has issued on a communicator and that are not over, with their numbers. -/
def State.rankReduces (s : State) (ctx comm : Nat) (m : Comm) (rank : Nat) : List (Nat × Nat × CPend) :=
  s.crews.flatMap fun k =>
    if (s.party k.2.party).ctx = ctx && s.rankOf m (dieOfCore (coreOf k.1)) = some rank then
      k.2.cops.filterMap fun o =>
        match o.kind with
        | .coll _ _ _ _ x n _ => if !o.done && extComm x = comm && extOp x ≠ 0 then some (n, k.1, o) else none
        | _ => none
    else []

/-- The operations of this package that match a reduce: each rank's of the same number, over the ranks of its set
(spec/10 R182). -/
def State.collPeers (s : State) (ctx : Nat) (m : Comm) (x : BitVec 256) (nth : Nat) : List (Nat × Nat × CPend) :=
  (m.members x).filterMap fun k =>
    ((s.rankReduces ctx (extComm x) m k).find? fun y => y.1 = nth).map fun y => (k, y.2)

def State.failC (s : State) (key id : Nat) (r : Report) : State :=
  ((s.endAsk key).modC key id fun o => { o with done := true, fault := some r }).dropOps key

/-- The tick at which an operation was issued, or its engine last moved data. -/
def CKind.since : CKind → Nat
  | .coll _ _ _ _ _ _ i => i
  | .amp _ _ _ i _ _ _ => i
  | _ => 0

/-- Whether the communicator's timeout has passed since the earliest issue of a reduce, and its match is incomplete; whether a match is
complete whose exchange has made no progress for that long is told by `stuck` (spec/10 R183, spec/26 Table 26-4). -/
def State.collLate (s : State) (ctx : Nat) (m : Comm) (x : BitVec 256) (nth : Nat) (stuck : Bool) : Bool :=
  let peers := s.collPeers ctx m x nth
  let since := if peers.length < (m.members x).length then peers.foldl (fun t y => min t y.2.2.kind.since) s.meridian
    else peers.foldl (fun t y => max t y.2.2.kind.since) 0
  (stuck || peers.length < (m.members x).length) && !peers.isEmpty && decide (since + m.tmo < s.meridian)

/-- The timeout of a reduce has passed: every member that has issued it takes the fault, as does every member that issues it later; one
whose die relocks once the die runs again (spec/10 R183, spec/18 R286). -/
def State.collExpire (s : State) (ctx : Nat) (m : Comm) (x : BitVec 256) (nth : Nat) : State :=
  let peers := (s.collPeers ctx m x nth).filter fun y => !s.relocking (m.place y.1).2
  let s := peers.foldl (fun s y =>
    s.failC y.2.1 y.2.2.id (collCause (match y.2.2.kind with | .coll sl .. => sl | _ => 0) 2)) s
  let dead := m.dead ++ ((m.members x).map fun k => (nth, k)).filter fun k => !m.dead.contains k
  { s with comms := Tbl.set s.comms (commKey ctx (extComm x)) { m with dead := dead } }

/-- TCOPYX (spec/10 R181-R183). A signal word at a view address is a view fault (spec/08 R153). -/
def execTcopyx (f : Ctl) (a b e : Operand) (dd : Bool) (s : State) : Host.Outcome State Fault Refusal :=
  countedC (.tcopyx f a b e dd) f s fun s key c =>
    let slot := (s.uni key c false a).toNat
    let ofs := s.operandNat key c false e 0
    let disp := s.uni key c true b
    let p := s.party c.party
    match Tbl.get? p.shapes slot, p.recordFault ofs 32 32 with
    | none, _ => .trap (shapeFault slot)
    | _, some x => .trap x
    | some r, none =>
      let x : BitVec 256 := BitVec.ofNat 256 (p.record ofs 32)
      match s.collCheck key p.ctx r x with
      | none => .trap (collFault slot)
      | some m =>
        let plan := copyPlan r disp dd
        match s.rowsFault key plan.src plan.srcLen plan.srcRows, s.rowsFault key plan.dst plan.dstLen plan.dstRows with
        | some y, _ => .trap y
        | _, some y => .trap y
        | none, none =>
          if isViewAddr (extSig x).toNat then .trap { cause := 0x19, d1 := BitVec.ofNat 32 (viewNumber (extSig x).toNat) }
          else
          let die := dieOfCore (coreOf key)
          let rank := (s.rankOf m die).getD 0
          let nth := (Tbl.get? m.counts rank).getD 0
          let red := extOp x ≠ 0
          let s := if red && s.collLate p.ctx m x nth false then s.collExpire p.ctx m x nth else s
          let m := (s.comm p.ctx (extComm x)).getD m
          let m' := if red then { m with counts := Tbl.set m.counts rank (nth + 1) } else m
          let s := { s with comms := Tbl.set s.comms (commKey p.ctx (extComm x)) m' }
          let late := red && m.dead.contains (nth, rank)
          let fault : Option Report :=
            if late then some (collCause slot 2)
            else if m.broken then some (collCause slot 5)
            else none
          let t := s.modCrew key fun c =>
            { c with
              cops := c.cops ++ [{ id := c.nextId, pc := c.pc, kind := .coll slot r disp dd x nth s.meridian
                                   done := fault.isSome, fault := fault }]
              nextId := c.nextId + 1 }
          .done (if fault.isSome then t.dropOps key else t)

/-- One operand combination of a reduce (spec/10 R182, spec/26 R352). -/
def combine (x : BitVec 256) (fmt : Nat) (a b : Nat) : Nat :=
  let v : FEnv := { mode := .rne, fz := x.getLsbD 11, cn := x.getLsbD 12, sat := x.getLsbD 13 }
  let op : MinMaxAdd := match extOp x with | 2 => .max | 3 => .min | _ => .add
  match fmt with
  | 0 => fredValue fp32 op v a b
  | 1 => fredValue fp16 op v a b
  | 2 => fredValue bf16 op v a b
  | _ => match op with
    | .add => (a + b) % 2 ^ 32
    | .min => RedOp.apply .min false 32 a b
    | .max => RedOp.apply .max false 32 a b

/-- One level of the canonical tree (spec/26 R349). -/
def pairLevel (g : Nat → Nat → Nat) : List Nat → List Nat
  | a :: b :: t => g a b :: pairLevel g t
  | l => l
def treeFold (g : Nat → Nat → Nat) : Nat → List Nat → Nat
  | 0, l => l.headD 0
  | n + 1, l => if l.length ≤ 1 then l.headD 0 else treeFold g n (pairLevel g l)

/-- The reduction of one element over the members in linear-rank order (spec/10 R182). -/
def reduceElem (x : BitVec 256) (fmt : Nat) (vals : List Nat) : Nat :=
  if extMode x then treeFold (combine x fmt) vals.length vals
  else
    let l := vals.drop (extStart x) ++ vals.take (extStart x)
    match l with | [] => 0 | a :: t => t.foldl (combine x fmt) a

/-- The source elements of one unit of a collective. -/
def State.collRead (s : State) (key : Nat) (r : BitVec 512) (u : CopyUnit) : Except EngErr (List Nat × State) := do
  let (bs, s) ← s.sideRead key (shapeSrc r) u.src u.srcLen
  return ((upto 0 u.n).map fun i => rowElem false (fmtBits (shapeFmt r)) bs i, s)

/-- Writes one unit of the destination of a rank of this package, in whole words (spec/10 R182, spec/26 R348): the bytes of words that a
unit still to come shares are kept. -/
def State.collWrite (s : State) (key : Nat) (r : BitVec 512) (later : List (Nat × Nat)) (buf : List (Nat × Byte)) (u : CopyUnit)
    (vals : List Nat) : Except EngErr (State × Wrote × List (Nat × Byte)) :=
  s.unitWrite key (shapeDst r) (scopeOf (shapeSc r)) later buf u.dst (packRow false (fmtBits (shapeFmt r)) vals)

/-- The destinations of the units of a collective after a number of them, where some word may belong to two units. -/
def collLater (r : BitVec 512) (disp : DWord) (dd : Bool) (i : Nat) : List (Nat × Nat) :=
  (copyPlan r disp dd).later ((copyAll r disp dd).drop (i + 1))

/-- Adds 1 to the signal word of `n` ranks of this package, as `sigadd.sc` does (spec/10 R183): after the crew's own older accesses
to the word (spec/12 R220), once nothing holds the way to its home. -/
def State.collSignal (s : State) (key : Nat) (sc : Scope) (va : DWord) : Nat → Except EngErr (State × Wrote)
  | 0 => .ok (s, {})
  | n + 1 => do
    let (pa, a) ← s.engineTr key va.toNat .both
    s.engineHeld key pa 8 (s.signalHeld key a pa)
    if s.cutOff pa then .error (.lost va.toNat)
    else if s.badAt pa 8 then .error (.bad va.toNat)
    else
    let (s, t) := s.signalFrom key a pa (BitVec.ofNat 64 (fromBytesLE ((s.homeClean key a pa).mem.readBytes pa 8)) + 1)
    let w : Wrote := { ct := t, wait := if Scope.wide sc then some t else none, ack := s.foreign pa }
    let (s, w') ← s.collSignal key sc va n
    return (s, w.and w')

def CKind.isColl : CKind → Bool | .coll .. => true | _ => false

/-- An engine operation has made its writes: it is over when Meridian has passed their completion times, and another
package's acknowledgement comes with a later event. -/
def State.applyC (s : State) (key id : Nat) (w : Wrote) : State :=
  let t := (s.wrote key w).modC key id fun o => { o with applied := true, ct := maxOpt o.ct w.wait, why := none }
  let ct := ((t.crew key).cops.find? fun o => o.id = id).bind (·.ct)
  if !w.ack && t.passed key ct then (t.modC key id fun o => { o with done := true }).dropOps key else t

/-- An error that stops an engine operation: it waits, noting for what, or it is given up with the cause of Table 26-4, 3 or 7,
or 4 for a lost rank. -/
def State.engineStop (s : State) (key id : Nat) (waits : Bool) (e : EngErr) (give : Word → State) : State :=
  match e with
  | .bad _ => give 7
  | .lost _ => give 4
  | e => if waits then (s.modC key id fun o => o.stops (some e)).engineMiss e else give 3

/-- The fields on which the members of a reduce agree (spec/10 R183). -/
def collAgrees (r r' : BitVec 512) (x x' : BitVec 256) : Bool :=
  bitsOf x 8 43 = bitsOf x' 8 43 && shapeFmt r = shapeFmt r' && shapeExt r 0 = shapeExt r' 0 &&
    shapeExt r 1 = shapeExt r' 1 && shapeExt r 2 = shapeExt r' 2

/-- Whether some member's package is out of reach (spec/26 R353). -/
def State.collCut (s : State) (m : Comm) (x : BitVec 256) : Bool :=
  (m.members x).any fun k => s.unreached (m.place k).1

/-- Whether some member belongs to another package. -/
def State.collFar (s : State) (m : Comm) (x : BitVec 256) : Bool := (m.members x).any fun k => (m.place k).1 != s.pkgId

/-- What holds a collective of a crew: no traverse processor is ready to drive it (spec/26 R345, spec/27 R360), or a link on its
way retrains (spec/27 R364). -/
def State.collHeld (s : State) (crew : Nat) (x : BitVec 256) : Bool :=
  s.ready.extractLsb' 96 16 = 0 || s.essiaBusy (dieOfCore (coreOf crew)) ||
    match s.comm (s.ctxOf crew) (extComm x) with
    | none => false
    | some m => (m.members x).any fun k => if (m.place k).1 = s.pkgId then s.essiaBusy (m.place k).2 else s.portsBusy

/-- The tick at which an operation's engine last moved data. -/
def CKind.moved (t : Nat) : CKind → CKind
  | .amp a b c _ e f g => .amp a b c t e f g
  | .coll a b c d e f _ => .coll a b c d e f t
  | k => k

/-- What a rank of another package meets, Table 26-4: nothing, or a cause that its answer brings: a disagreement (1), a translation that is
not resolved (3) or bad data (7). It comes from outside: a free value (log 29). -/
def State.farCause (s : State) : Word × State :=
  let (w, s) := s.free
  let c := w.extractLsb' 0 8
  (if c = 1 || c = 3 || c = 7 then c.setWidth 32 else 0, s)

/-- One unit of a put (spec/10 R182): it goes to every rank of the set. A rank of another package is sent its elements with the
shape, the displacement and SIG, which it resolves in its own address space (R181), and acknowledges them; they leave a port once for
each such rank (log 43). -/
def State.putUnit (s : State) (key : Nat) (r : BitVec 512) (disp : DWord) (dd : Bool) (x : BitVec 256) (m : Comm) (first : Nat)
    (buf : List (Nat × Byte)) (u : CopyUnit) : Except EngErr (State × Wrote × List (Nat × Byte)) := do
  let (vals, s) ← s.collRead key r u
  (m.members x).foldlM (fun (acc : State × Wrote × List (Nat × Byte)) k =>
    if (m.place k).1 = s.pkgId then do
      let (t, w, kept) ← acc.1.collWrite key r (collLater r disp dd first) buf u vals
      return (t, acc.2.1.and w, kept)
    else
      .ok (State.charge { acc.1 with outbox := acc.1.outbox ++
        [HostMsg.put (m.place k).1 (m.place k).2 (s.ctxOf key) r disp dd (extSig x) first (packRow false (fmtBits (shapeFmt r)) vals)] } key 2 u.srcLen,
        acc.2.1.and { ack := true }, acc.2.2)) (s, ({} : Wrote), buf)

/-- Moves units of a put in order; once a quantity of the class has reached its limit no further one starts (spec/15 R264). -/
def putUnits (key : Nat) (r : BitVec 512) (disp : DWord) (dd : Bool) (x : BitVec 256) (m : Comm) : List CopyUnit → CopyRun → CopyRun
  | [], y => y
  | u :: rest, y =>
    if y.s.spent key then { y with err := some (.wait .hold) }
    else match y.s.putUnit key r disp dd x m y.rows y.buf u with
      | .error e => { y with err := some e }
      | .ok (t, w, buf) => putUnits key r disp dd x m rest { s := t, rows := y.rows + 1, buf := buf, w := y.w.and w }

/-- A put goes on by a free number of its units (log 67), unless a rank of another package fails it (spec/26 Table 26-4). -/
def State.runPut (s : State) (key : Nat) (o : CPend) (slot : Nat) (r : BitVec 512) (disp : DWord) (dd : Bool)
    (x : BitVec 256) (m : Comm) : State :=
  let (met, s') := if s.collFar m x then s.farCause else (0, s)
  if s.collCut m x then s.failC key o.id (collCause slot 4)
  else if met > 1 then s'.failC key o.id (collCause slot met)
  else
    let units := copyAll r disp dd
    let (k, s) := s'.engineSteps (units.length - o.rows)
    let y := putUnits key r disp dd x m ((units.drop o.rows).take k) { s := s, rows := o.rows, buf := o.buf }
    let ct := maxOpt o.ct y.w.wait
    let t := (y.s.wrote key y.w).modC key o.id fun o =>
      { o with rows := y.rows, buf := y.buf, ct := ct, why := none, applied := y.err.isNone && units.length ≤ y.rows
               kind := if o.rows < y.rows then o.kind.moved s.meridian else o.kind }
    match y.err with
    | some e => t.engineStop key o.id (t.engineWaits key e) e fun c => t.failC key o.id (collCause slot c)
    | none =>
      if units.length ≤ y.rows && extSig x = 0 && !y.w.ack && t.passed key ct then (t.modC key o.id fun o => { o with done := true }).dropOps key
      else t

/-- The operand of a member for one unit: of an operation of this package, what its source holds; of another package's, free values,
since it comes from outside (log 29). -/
def State.reduceRead (s : State) (r : BitVec 512) (i : Nat) (u : CopyUnit) (o : Option (Nat × CPend)) : Except EngErr (List Nat × State) :=
  match o with
  | some (key, o) => match o.kind with
    | .coll _ r' disp dd .. => match (copyAll r' disp dd)[i]? with
      | some u' => s.collRead key r' u'
      | none => .ok ([], s)
    | _ => .ok ([], s)
  | none => .ok ((upto 0 u.n).map fun j => (Config.freeBits (s.freeIx + j)).toNat % 2 ^ fmtBits (shapeFmt r),
      { s with freeIx := s.freeIx + u.n })

/-- One unit of a reduce: every member's operand is read, and every destination of this package receives the result (spec/10
R182). With a member in another package each operand leaves a port and each result enters one (log 43). -/
def State.reduceUnit (s : State) (r : BitVec 512) (x : BitVec 256) (far : Bool) (i : Nat) (u : CopyUnit)
    (all : List (Option (Nat × CPend))) (bufs : List (List (Nat × Byte))) : Except EngErr (State × List Wrote × List (List (Nat × Byte))) := do
  let (vss, s) ← all.foldlM (fun (acc : List (List Nat) × State) o => do
    let (vs, t) ← acc.2.reduceRead r i u o
    return (acc.1 ++ [vs], t)) (([] : List (List Nat)), s)
  let res := (upto 0 u.n).map fun j => reduceElem x (shapeFmt r) (vss.map fun vs => vs.getD j 0)
  ((all.filterMap id).zip bufs).foldlM (fun (acc : State × List Wrote × List (List (Nat × Byte))) y => match y.1.2.kind with
    | .coll _ r' disp dd .. => match (copyAll r' disp dd)[i]? with
      | some u' => do
        let (t, w, buf) ← acc.1.collWrite y.1.1 r' (collLater r' disp dd i) y.2 u' res
        return (t.charge y.1.1 2 (if far then 2 * u.srcLen else 0), acc.2.1 ++ [w], acc.2.2 ++ [buf])
      | none => .ok (acc.1, acc.2.1 ++ [{}], acc.2.2 ++ [y.2])
    | _ => .ok (acc.1, acc.2.1 ++ [{}], acc.2.2 ++ [y.2])) (s, [], [])

/-- A reduce as far as it goes: the state, the units it has moved, the bytes of words that each member has only in part, what each member's
writes wait for, and what stopped it. -/
structure ReduceRun where
  s : State
  rows : Nat
  bufs : List (List (Nat × Byte))
  ws : List Wrote
  err : Option EngErr := none

/-- Reduces units in order, until a quantity of a member's class has reached its limit (spec/15 R264). -/
def reduceUnits (r : BitVec 512) (x : BitVec 256) (far : Bool) (all : List (Option (Nat × CPend))) : List CopyUnit → ReduceRun → ReduceRun
  | [], y => y
  | u :: rest, y =>
    if (all.filterMap id).any fun z => y.s.spent z.1 then { y with err := some (.wait .hold) }
    else match y.s.reduceUnit r x far y.rows u all y.bufs with
      | .error e => { y with err := some e }
      | .ok (t, ws, bufs) =>
        reduceUnits r x far all rest { s := t, rows := y.rows + 1, bufs := bufs, ws := (y.ws.zip ws).map fun z => z.1.and z.2 }

/-- A reduce (spec/10 R182): once every member of this package has issued it, none of their classes is held (spec/15 R264), none of
their dies relocks (spec/18 R287), and the reduces before it at those ranks are over (spec/26 R348), every member's destination receives
the result, by a free number of units in each event (log 67), unless a rank of another package fails it (spec/26 Table 26-4). A member with
a signal waits until every member's data has completed. -/
def State.runReduce (s : State) (key : Nat) (slot : Nat) (r : BitVec 512) (disp : DWord) (dd : Bool) (x : BitVec 256) (nth : Nat) (m : Comm) :
    State :=
  let ctx := s.ctxOf key
  let peers := s.collPeers ctx m x nth
  let at_ (k : Nat) : Option (Nat × CPend) := (peers.find? fun y => y.1 = k).map (·.2)
  let set := m.members x
  let here := set.filter fun k => (m.place k).1 = s.pkgId
  let mine := here.filterMap at_
  let agree := mine.all fun y => match y.2.kind with
    | .coll _ r' _ _ x' _ _ => collAgrees r r' x x'
    | _ => false
  let failAll (c : Word) (s : State) : State := mine.foldl (fun s y =>
    s.failC y.1 y.2.id (collCause (match y.2.kind with | .coll sl .. => sl | _ => slot) c)) s
  let own := mine.find? fun y => y.1 = key
  let held (k : Nat) : Bool := s.relocking (m.place k).2 || (at_ k).any fun y => s.classHeld y.1
  let stopped (s : State) : State :=
    let die := ((here.map fun k => (m.place k).2).find? s.relocking).getD 4
    here.foldl (fun s k => match at_ k with
      | some y => if held k then s else s.modC y.1 y.2.id fun o => o.stops (some (.held die))
      | none => s) s
  let far := here.length < set.length
  let (met, s') := if far then s.farCause else (0, s)
  if here.any fun k => (at_ k).isNone || (s.rankReduces ctx (extComm x) m k).any fun y => y.1 < nth then s
  else if here.any fun k => s.relocking (m.place k).2 then stopped s
  else if !agree then failAll 1 s
  else if s.collCut m x then failAll 4 s
  else if here.any held then stopped s
  else if met ≠ 0 && (met ≠ 1 || (own.map (·.2.rows)).getD 0 = 0) then failAll met s'
  else
    let s := s'
    let units := copyAll r disp dd
    let from_ := (own.map (·.2.rows)).getD 0
    let (k, s) := s.engineSteps (units.length - from_)
    let y := reduceUnits r x far (set.map at_) ((units.drop from_).take k)
      { s := s, rows := from_, bufs := mine.map fun z => z.2.buf, ws := mine.map fun _ => {} }
    let all := y.err.isNone && units.length ≤ y.rows
    let last := (mine.zip y.ws).foldl (fun a z => maxOpt a (maxOpt z.1.2.ct z.2.wait)) none
    let t := ((mine.zip y.ws).zip y.bufs).foldl (fun t zb => let z := zb.1; match z.1.2.kind with
      | .coll _ _ _ _ x' _ _ =>
        let ct := if all && extSig x' ≠ 0 then last else maxOpt z.1.2.ct z.2.wait
        let t := (t.wrote z.1.1 z.2).modC z.1.1 z.1.2.id fun o =>
          { o with rows := y.rows, buf := zb.2, ct := ct, why := if y.err.isSome && y.rows ≤ from_ then o.why else none, applied := all, kind := if o.rows < y.rows then o.kind.moved s.meridian else o.kind }
        if all && extSig x' = 0 && !z.2.ack && t.passed z.1.1 ct then (t.modC z.1.1 z.1.2.id fun o => { o with done := true }).dropOps z.1.1
        else t
      | _ => t) y.s
    match y.err with
    | some e => t.engineStop key ((own.map (·.2.id)).getD 0) (mine.all fun z => t.engineWaits z.1 e) e fun c => failAll c t
    | none => t

/-- Whether a collective has added to its signal words. -/
def CPend.signalled (o : CPend) : Bool := match o.kind with | .coll _ r disp dd .. => (copyAll r disp dd).length < o.rows | _ => false

/-- A collective whose data has completed adds to its signal words, once (spec/10 R183): those of every rank of this package
for a put, the issuer's own for a reduce; then it is over at its scope. A rank of another package, which acknowledges it, may still fail it
(spec/26 Table 26-4). -/
def State.collDone (s : State) (key : Nat) (o : CPend) (slot : Nat) (r : BitVec 512) (x : BitVec 256) : State :=
  let far := !o.signalled && (s.comm (s.ctxOf key) (extComm x)).any fun m => s.collFar m x
  if !s.passed key o.ct then s
  else
  let (met, s) := if far then s.farCause else (0, s)
  if met > 1 then s.failC key o.id (collCause slot met)
  else if extSig x = 0 || o.signalled then (s.modC key o.id fun o => { o with done := true }).dropOps key
  else
    let ranks := match extOp x, s.comm (s.ctxOf key) (extComm x) with
      | 0, some m => ((m.members x).filter fun k => (m.place k).1 = s.pkgId).length
      | 0, none => 0
      | _, _ => 1
    match s.collSignal key (scopeOf (shapeSc r)) (extSig x) ranks with
    | .error e => s.engineStop key o.id (s.engineWaits key e) e fun c => s.failC key o.id (collCause slot c)
    | .ok (t, w) => (t.modC key o.id fun o => { o with rows := o.rows + 1 }).applyC key o.id w

/-- COLLECTIVE_COMPLETE: the oldest collective of a crew moves its data, or completes at its scope (spec/10 R182,
R183). -/
def execCollectiveComplete (crew : Nat) (s : State) : Host.Outcome State Fault Refusal :=
  engineEvent crew s fun s =>
    match (s.crew crew).oldestC CKind.isColl with
    | none => s
    | some o =>
      match o.kind with
      | .coll slot r disp dd x nth _ =>
        if s.collHeld crew x || s.engineRejected crew then s
        else if o.applied then s.collDone crew o slot r x
        else match s.comm (s.ctxOf crew) (extComm x) with
          | none => s.failC crew o.id (collCause slot 4)
          | some m => if extOp x = 0 then s.runPut crew o slot r disp dd x m else s.runReduce crew slot r disp dd x nth m
      | _ => s

/-- Whether a collective of a crew has to take the timeout's fault: the match of a reduce is incomplete when the timeout has passed since
the earliest issue, or has ended so while the die relocked; or a complete match, or a put, has made no progress for the timeout since it was
complete, or since its engines last moved data (spec/10 R183, spec/26 Table 26-4). -/
def State.collTimedOut (s : State) (key : Nat) (o : CPend) : Bool :=
  match o.kind with
  | .coll _ _ _ _ x nth iss => match s.comm (s.ctxOf key) (extComm x) with
    | none => false
    | some m =>
      !o.done && !o.applied &&
        if extOp x = 0 then decide (iss + m.tmo < s.meridian)
        else (m.dead.contains (nth, (s.rankOf m (dieOfCore (coreOf key))).getD 0)) || s.collLate (s.ctxOf key) m x nth true
  | _ => false

/-- COLLECTIVE_TIMEOUT: the oldest collective of a crew whose timeout has passed fails; of a reduce every member of its set does, now or
when it issues (spec/10 R183). -/
def execCollectiveTimeout (crew : Nat) (s : State) : Host.Outcome State Fault Refusal :=
  eventOf crew s fun s =>
    match (s.crew crew).cops.find? (s.collTimedOut crew) with
    | none => s
    | some o =>
      match o.kind with
      | .coll slot _ _ _ x nth _ =>
        let s := match s.comm (s.ctxOf crew) (extComm x) with
          | some m => if extOp x = 0 then s else s.collExpire (s.ctxOf crew) m x nth
          | none => s
        s.failC crew o.id (collCause slot 2)
      | _ => s

/-! ## Schedules (spec/10 R184, spec/26 R346) -/

/-- The crew of a task, by its party's number and its own: it is the same wherever the task runs. -/
def State.maker (s : State) (c : Crew) : Nat := 16 * (s.party c.party).number + c.idx

/-- The handle of a CSTART: a number that the task's strand, the crew's number in the task and the CSTARTs before it fix, so that no
schedule of the package decides it (spec/00 R4; DESIGN CHOICE, log 68). It is not zero. -/
def State.newHandle (s : State) (c : Crew) : DWord :=
  let p := s.party c.party
  let t := s.task p.task
  let n := (s.handles.filter fun h => h.2.task = p.task && h.2.crew = s.maker c).length
  BitVec.ofNat 64 (1 + ((pedDigest t.ped t.root).toNat + s.maker c * 2 ^ 57 + n) % (2 ^ 64 - 1))

/-- The place of a new handle in the table. -/
def State.handleKey (s : State) : Nat := s.handles.foldl (fun n h => max n (h.1 + 1)) 0

def execCstart (f : Ctl) (d a b : Operand) (s : State) : Host.Outcome State Fault Refusal :=
  countedC (.cstart f d a b) f s fun s key c =>
    let id := s.operandNat key c false a 0
    let ctx := s.ctxOf key
    let block := s.uni key c true b
    if (s.sched ctx id).isNone || id < 16 then .trap (collFault id)
    else if block.toNat % 64 ≠ 0 then .trap (collFault id)
    else
      let h := s.newHandle c
      let hd : Handle := { num := h, task := (s.party c.party).task, crew := s.maker c, key := key, ctx := ctx, sched := id, block := block
                           state := 1 }
      let k := s.handleKey
      .done (State.modCrew { s with handles := Tbl.set s.handles k hd } key fun c => (c.addC (.sched k)).writeUni f d h)

/-- A task and the tasks above it, the nearest first. -/
def State.lineage (s : State) : Nat → Nat → List Nat
  | 0, _ => []
  | fuel + 1, t => t :: match (s.task t).parent with | some p => s.lineage fuel p | none => []

/-- The schedule that a handle names to a crew: of its own context (spec/12 R223), of its task, or else of the nearest task above it that
has one; a number that several other tasks share names the oldest (DESIGN CHOICE, log 68). -/
def State.handleFor (s : State) (key : Nat) (num : DWord) : Option (Nat × Handle) :=
  let all := s.handles.filter fun h => h.2.num = num && h.2.ctx = s.ctxOf key
  match (s.lineage (s.tasks.length + 1) (s.party (s.crew key).party).task).findSome? fun t => all.find? fun h => h.2.task = t with
  | some h => some h
  | none => all.head?

/-- A schedule that has not ended may have started, and taken more steps, since it was last looked at: free values (log
29). -/
def State.schedGoesOn (s : State) (k : Nat) (h : Handle) : Handle × State :=
  if h.state = 1 || h.state = 2 then
    let (x, s) := s.free
    let h := if h.state = 2 || x.getLsbD 16 then { h with state := 2, steps := h.steps + x.toNat % 65536 } else h
    (h, { s with handles := Tbl.set s.handles k h })
  else (h, s)

/-- CSTAT (spec/10 R184). A handle is its own context's (spec/12 R223). -/
def execCstat (f : Ctl) (d a : Operand) (s : State) : Host.Outcome State Fault Refusal :=
  once (.cstat f d a) f s fun s key c =>
    let (w, s) : DWord × State := match s.handleFor key (s.uni key c true a) with
      | some (k, h) =>
        let (h, s) := s.schedGoesOn k h
        (BitVec.ofNat 64 (h.state.toNat + h.cause.toNat * 2 ^ 8 + min h.steps 65535 * 2 ^ 16), s)
      | none => (0, s)
    .done (s.modCrew key fun c => c.writeDst false d (c.effLanes f) fun _ => w)

/-- The crew and the operation that a running schedule serves. -/
def State.schedOp (s : State) (handle : Nat) : Option (Nat × CPend) :=
  s.crews.findSome? fun k => (k.2.cops.find? fun o => !o.done && match o.kind with | .sched h => h = handle | _ => false).map fun o => (k.1, o)

/-- What a schedule's accesses have come to: all made, some of them writes that another package has still to acknowledge; one that waits,
for its page, its home or an older access; or one that ends the schedule with a cause. -/
inductive SchedRun where
  | made (s : State) (far : Bool)
  | waits (s : State) (va : DWord) (e : EngErr)
  | ends (s : State) (cause : BitVec 8)
deriving DecidableEq, Repr

/-- A byte that a schedule writes is applied at its home point, on behalf of its crew, which keeps the completion time (spec/12 R220,
spec/26 R345). -/
def State.schedPut (s : State) (k : Nat) (h : Handle) (a : Attr) (pa : Nat) (v : Byte) : State :=
  let r := (s.homeClean h.key a pa).homePut a pa [v]
  if (s.schedOp k).isSome then r.1.wrote h.key { ct := r.2 } else r.1

/-- The bytes that a schedule reads (`none`) and writes in its context, in order, through the hub's DMA engine (spec/26 R345), after the
older stores of its crew. Every address is translated; a page that is absent and host-managed is waited for, as is a home that nothing
reaches yet, and a budget that is spent; a fault that cannot be resolved ends the schedule with cause 3, a lost package with 4 and
uncorrectable data with 7 (R346, Table 26-4). -/
def State.schedActs (s : State) (k : Nat) (h : Handle) (far : Bool) : List (DWord × Option Byte) → SchedRun
  | [] => .made s far
  | (va, v) :: rest =>
    let cls := s.taskClass (s.task h.task)
    if s.classSpent cls then .waits s va (.wait .hold)
    else match s.lookup h.ctx va.toNat (if v.isSome then .write else .read) with
    | .error (sub, hm) =>
      if sub = walkLost then .ends s 4
      else if s.engineWaits h.key (.trans va.toNat (sub = 0 && hm)) then .waits s va (.trans va.toNat true) else .ends s 3
    | .ok (pa, a) =>
      if s.cutOff pa then .ends s 4
      else match s.engineHeld h.key pa 1 (s.hubHeld a pa) with
        | .error e => .waits s va e
        | .ok _ =>
          let t := s.chargeClass cls (if s.foreign pa then 2 else 3) 1
          match v with
          | none => if s.badAt pa 1 then .ends s 7 else t.schedActs k h far rest
          | some b => (t.schedPut k h a pa b).schedActs k h (far || s.foreign pa) rest

/-- A schedule ends with a cause of Table 26-4, and its CSTART completes (spec/10 R184, spec/26 R347). -/
def State.schedEnd (s : State) (k : Nat) (h : Handle) (cause : BitVec 8) (steps : Nat) : State :=
  let h' : Handle := { h with state := if cause = 0 then 3 else 4, cause := cause, steps := h.steps + steps }
  let t : State := { s with handles := Tbl.set s.handles k h' }
  match s.schedOp k with
  | none => t
  | some (key, o) =>
    if cause = 0 then ((t.endAsk key).modC key o.id fun o => { o with done := true }).dropOps key
    else t.failC key o.id (collCause h.sched (cause.setWidth 32))

/-- SCHEDULE_END: a schedule makes accesses in its context, takes steps and ends with a cause; what it does is the schedule's: an input
(log 69). An access that has to wait leaves it running, and what came before it stands. One that has written to another package ends with a
later event, since that package acknowledges first (spec/26 R354). A traverse processor has to be ready (R345), and nothing happens while
its class is held (spec/15 R264) or the die of its CSTART relocks (spec/18 R286). -/
def execScheduleEnd (handle : Nat) (cause : BitVec 8) (steps : Nat) (acts : List (DWord × Option Byte)) (s : State) :
    Host.Outcome State Fault Refusal :=
  event s fun s =>
    match Tbl.get? s.handles handle with
    | none => s
    | some h =>
      if (h.state ≠ 1 && h.state ≠ 2) || 7 < cause.toNat || s.ready.extractLsb' 96 16 = 0 || s.relocking (dieOfCore (coreOf h.key)) ||
          s.heldClasses.contains (s.taskClass (s.task h.task)) then s
      else
        match s.schedActs handle h false acts with
        | .made t false => t.schedEnd handle h cause steps
        | .made t true => { t with handles := Tbl.set t.handles handle { h with state := 2, steps := h.steps + steps } }
        | .ends t c => t.schedEnd handle h c steps
        | .waits t va e =>
          let t : State := { t with handles := Tbl.set t.handles handle { h with state := 2 } }
          match t.schedOp handle with
          | none => t
          | some (key, o) => t.modC key o.id fun o => { o.stops (some e) with todo := some [(va.toNat, 0)] }

/-! ## Amplitude states (spec/10 R185-R188, spec/24) -/

def ampKey (die ctx slot : Nat) : Nat := (16 * die + ctx) * 8 + slot
def State.amp (s : State) (die ctx slot : Nat) : AmpSlot := (Tbl.get? s.amps (ampKey die ctx slot)).getD {}
def State.setAmp (s : State) (die ctx slot : Nat) (a : AmpSlot) : State :=
  { s with amps := Tbl.set s.amps (ampKey die ctx slot) a }

/-- A command of a slot at a die is over without having been performed there: the next one is its turn (spec/10 R186). -/
def AmpSlot.skip (a : AmpSlot) : Nat → AmpSlot
  | 0 => a
  | n + 1 => if a.dead.contains a.performed then AmpSlot.skip { a with performed := a.performed + 1 } n else a
def State.ampOver (s : State) (die ctx slot nth : Nat) : State :=
  let a := s.amp die ctx slot
  let b := AmpSlot.skip { a with dead := if a.dead.contains nth then a.dead else a.dead ++ [nth] } (a.dead.length + 1)
  s.setAmp die ctx slot { b with dead := b.dead.filter fun n => b.performed ≤ n || b.issued ≤ n }

/-- The address that the loss of a shape's other end names: of its side in global memory, the destination first (DESIGN CHOICE, log
60). -/
def shapeLost (r : BitVec 512) : DWord :=
  BitVec.ofNat 64 (if (shapeDst r).space = 0 then (shapeDst r).base else if (shapeSrc r).space = 0 then (shapeSrc r).base else 0)
def TKind.lostAt : TKind → DWord
  | .load _ r .. => shapeLost r | .drain _ r .. => shapeLost r | .drainl _ r .. => shapeLost r | _ => 0

/-- LINK_LOST: the destination of a crew's oldest engine operation, or of a store, a load or a tile operation, is unreachable:
a machine check, or a collective fault, is deferred (spec/13 R239, spec/10 R183, R184, spec/26 Table 26-4). The event names the crew, and the model takes its
oldest operation of these kinds (DESIGN CHOICE, log 60). A crew whose die relocks meets it afterwards (spec/18 R286). -/
def execLinkLost (crew : Nat) (s : State) : Host.Outcome State Fault Refusal :=
  eventOf crew s fun s =>
    let c := s.crew crew
    match c.cops.find? fun o => !o.done with
    | some o =>
      match o.kind with
      | .coll slot .. => s.failC crew o.id (collCause slot 4)
      | .copy _ r disp dd _ => copyGivesUp crew o (copyAll r disp dd).length { s := s, rows := o.rows } (lostReport 1 (shapeLost r))
      | .amp slot _ nth _ _ _ _ =>
        let a := s.amp (dieOfCore (coreOf crew)) (s.ctxOf crew) slot
        (s.ampOver (dieOfCore (coreOf crew)) (s.ctxOf crew) slot nth).failC crew o.id (lostReport 6 (a.map.extractLsb' 0 64))
      | .sched h =>
        match Tbl.get? s.handles h with
        | some x =>
          { s with handles := Tbl.set s.handles h { x with state := 4, cause := 4 } }.failC crew o.id (collCause x.sched 4)
        | none => s.failC crew o.id (collCause 0 4)
      | .empty => s
    | none =>
      match c.stores.find? fun m => !m.done, c.loads.find? fun m => !m.done, c.headT with
      | some m, _, _ => s.loseMem crew m.id
      | none, some m, _ => s.loseMem crew m.id
      | none, none, some o =>
        if o.kind.isMem then s.abandonT crew o (lostReport (if o.kind.isDrain then 3 else 2) o.kind.lostAt) else s
      | none, none, none => s

def mapBase (r : BitVec 512) : Nat := bitsOf r 0 64
def mapNq (r : BitVec 512) : Nat := bitsOf r 64 6
def mapNl (r : BitVec 512) : Nat := bitsOf r 72 6
def mapNd (r : BitVec 512) : Nat := bitsOf r 80 2
def mapNp (r : BitVec 512) : Nat := bitsOf r 88 4
def mapComm (r : BitVec 512) : Nat := bitsOf r 96 8
def mapDie (r : BitVec 512) (v : Nat) : Nat := bitsOf r (104 + 2 * v) 2
def mapBit (r : BitVec 512) (q : Nat) : Nat := bitsOf r (128 + 8 * q) 6
def mapSetBit (r : BitVec 512) (q b : Nat) : BitVec 512 :=
  (r &&& ~~~(BitVec.shiftLeft 0x3F (128 + 8 * q))) ||| BitVec.shiftLeft (BitVec.ofNat 512 b) (128 + 8 * q)
/-- The dies of a state, by select value. -/
def mapDies (r : BitVec 512) : List Nat := (upto 0 (2 ^ mapNd r)).map (mapDie r)

/-- Whether AMAP accepts a record with NQ ≠ 0 on a die (spec/10 R185). -/
def mapOk (r : BitVec 512) (die : Nat) (comm : Bool) : Bool :=
  let nq := mapNq r
  let dies := mapDies r
  let bits := (upto 0 nq).map (mapBit r)
  mapBase r % 128 = 0 && nq ≤ 48 && nq = mapNl r + mapNd r + mapNp r && 5 ≤ mapNl r && mapNl r ≤ 33 && mapNd r < 3 &&
    mapNp r < 9 && bitsOf r 70 2 = 0 && bitsOf r 78 2 = 0 && bitsOf r 82 6 = 0 && bitsOf r 92 4 = 0 && bitsOf r 112 16 = 0 &&
    ((upto 0 48).all fun q => bitsOf r (134 + 8 * q) 2 = 0 && (q < nq || mapBit r q = 0)) &&
    bits.all (fun b => b < nq) && bits.eraseDups.length = nq &&
    ((upto 0 4).all fun v => v < dies.length || mapDie r v = 0) && dies.eraseDups.length = dies.length &&
    dies.contains die && (mapNp r = 0 || (mapComm r < 64 && comm))

def ampFault (slot : Nat) (c : Word) : Report := { cause := 0x0F, d1 := BitVec.ofNat 32 slot, d2 := c }

/-- The dies whose commands match, and the package bits, of a command on a slot. -/
def ampPeers (die : Nat) (now : BitVec 512) (cmd : AmpCmd) : List Nat × Nat :=
  let r := match cmd with | .map r => if mapNq r = 0 then now else r | _ => now
  if mapNq r = 0 then ([die], 0) else (mapDies r, mapNp r)

/-- The operation of a die on a slot with a number. -/
def State.ampOp (s : State) (die ctx slot nth : Nat) : Option (Nat × CPend) :=
  s.crews.findSome? fun k =>
    if dieOfCore (coreOf k.1) = die && (s.party k.2.party).ctx = ctx then
      (k.2.cops.find? fun o => !o.done && match o.kind with
        | .amp sl _ n _ _ _ _ => sl = slot && n = nth
        | _ => false).map fun o => (k.1, o)
    else none

/-- An operation in C of a crew, as it stands. -/
def State.copOf (s : State) (key id : Nat) : Option CPend := (s.crew key).cops.find? fun o => o.id = id

/-- The machine check, or the amplitude fault with a cause, of a command (spec/10 R186, spec/13 R239). -/
def State.ampReport (s : State) (die ctx slot : Nat) (c : Word) : Report :=
  if c = 4 then lostReport 6 ((s.amp die ctx slot).map.extractLsb' 0 64) else { ampFault slot c with eng := 6 }

/-- Ends a command on some dies: performed, or failed with a cause (spec/10 R186), 4 for a lost die or link, which is a machine
check (spec/13 R239). -/
def State.ampEnd (s : State) (ctx slot : Nat) (xs : List (Nat × Nat × CPend)) (fault : Option Word)
    (upd : BitVec 512 → AmpCmd → BitVec 512) : State :=
  xs.foldl (fun s x =>
    match x.2.2.kind with
    | .amp _ cmd nth _ _ _ _ =>
      let a := s.amp x.1 ctx slot
      let t := (s.setAmp x.1 ctx slot { a with map := upd a.map cmd }).ampOver x.1 ctx slot nth
      match fault with
      | some c => t.failC x.2.1 x.2.2.id (s.ampReport x.1 ctx slot c)
      | none => t.applyC x.2.1 x.2.2.id { ack := ((s.copOf x.2.1 x.2.2.id).map (·.rows)) = some 1 }
    | _ => s) s

/-- The ticks of a state's timeout (spec/10 R186). -/
def State.ampTimeout (s : State) (ctx : Nat) (m : BitVec 512) (np : Nat) : Nat :=
  if np = 0 then Config.ampTimeout else ((s.comm ctx (mapComm m)).map (·.tmo)).getD Config.ampTimeout

/-- The operations of a slot at a die that have not been performed. -/
def State.ampOpen (s : State) (die ctx slot : Nat) : List (Nat × CPend) :=
  s.crews.flatMap fun k =>
    if dieOfCore (coreOf k.1) = die && (s.party k.2.party).ctx = ctx then
      (k.2.cops.filter fun o => !o.done && !o.applied && match o.kind with | .amp sl .. => sl = slot | _ => false).map fun o => (k.1, o)
    else []

/-- The record that a command of a slot at a die is issued under: that of the latest AMAP before it, or the slot's (spec/10 R185). -/
def State.ampRecord (s : State) (die ctx slot nth : Nat) (cmd : AmpCmd) : BitVec 512 :=
  let earlier := (upto (s.amp die ctx slot).performed (nth - (s.amp die ctx slot).performed)).reverse.findSome? fun n =>
    (s.ampOp die ctx slot n).bind fun y => match y.2.kind with | .amp _ (.map r) .. => some r | _ => none
  let before := earlier.getD (s.amp die ctx slot).map
  match cmd with
  | .map r => if mapNq r = 0 then before else r
  | _ => before

/-- The peers of this package that have issued a command of a slot. -/
def State.ampIssued (s : State) (ctx slot nth : Nat) (dies : List Nat) : List (Nat × Nat × CPend) :=
  dies.filterMap fun d => (s.ampOp d ctx slot nth).map fun x => (d, x.1, x.2)

/-- Whether the timeout has passed since the earliest issue of a command, under a record, and its match is incomplete: some peer has not
issued it (spec/10 R186). -/
def State.ampLate (s : State) (ctx slot nth : Nat) (m : BitVec 512) (dies : List Nat) (np : Nat) : Bool :=
  let xs := s.ampIssued ctx slot nth dies
  let first := xs.foldl (fun t x => min t x.2.2.kind.since) s.meridian
  (0 < np || xs.length < dies.length) && decide (first + s.ampTimeout ctx m np < s.meridian)

/-- The timeout of a command has passed: every peer that has issued it takes the fault, as does every peer that issues it later; one whose
die relocks once the die runs again (spec/10 R186, spec/18 R286). -/
def State.ampExpire (s : State) (ctx slot nth : Nat) (dies : List Nat) : State :=
  let xs := (s.ampIssued ctx slot nth dies).filter fun x => !s.relocking x.1
  let t := s.ampEnd ctx slot xs (some 2) fun m _ => m
  dies.foldl (fun t d => if xs.any fun x => x.1 = d then t else t.ampOver d ctx slot nth) t

/-- Issues an amplitude command: it is counted in C and numbered on its slot; AMAP's record is the slot's issue-time
record from then on (spec/10 R185, R186). One that comes after the timeout of its match takes the fault. -/
def State.ampIssue (s : State) (key slot : Nat) (cmd : AmpCmd) : State :=
  let die := dieOfCore (coreOf key)
  let ctx := s.ctxOf key
  let a := s.amp die ctx slot
  let (dies, np) := ampPeers die a.issueMap cmd
  let r := match cmd with | .map r => if mapNq r = 0 then a.issueMap else r | _ => a.issueMap
  let s := if s.ampLate ctx slot a.issued r dies np then s.ampExpire ctx slot a.issued dies else s
  let a := s.amp die ctx slot
  let s := s.setAmp die ctx slot
    { a with issued := a.issued + 1, issueMap := match cmd with | .map r => r | _ => a.issueMap }
  let dead := a.dead.contains a.issued
  let t := s.modCrew key fun c =>
    { c with
      cops := c.cops ++ [{ id := c.nextId, pc := c.pc, kind := .amp slot cmd a.issued s.meridian false dies np, done := dead
                           fault := if dead then some { ampFault slot 2 with eng := 6 } else none }]
      nextId := c.nextId + 1 }
  if dead then t.dropOps key else t

def State.issueMap (s : State) (key slot : Nat) : BitVec 512 :=
  (s.amp (dieOfCore (coreOf key)) (s.ctxOf key) slot).issueMap

def execAmap (f : Ctl) (a b : Operand) (s : State) : Host.Outcome State Fault Refusal :=
  countedC (.amap f a b) f s fun s key c =>
    let slot := s.operandNat key c false a 0
    let ofs := s.operandNat key c false b 0
    let p := s.party c.party
    if slot > 7 then .trap (ampFault slot 0)
    else match p.recordFault ofs 64 64 with
      | some r => .trap r
      | none =>
        let r : BitVec 512 := BitVec.ofNat 512 (p.record ofs 64)
        if mapNq r ≠ 0 && !mapOk r (dieOfCore (coreOf key)) (s.comm p.ctx (mapComm r)).isSome then .trap (ampFault slot 0)
        else .done (s.ampIssue key slot (.map r))

def execAmapRd (f : Ctl) (a b : Operand) (s : State) : Host.Outcome State Fault Refusal :=
  countedC (.amapRd f a b) f s fun s key c =>
    let slot := s.operandNat key c false a 0
    let ofs := s.operandNat key c false b 0
    if slot > 7 then .trap (ampFault slot 0)
    else match (s.party c.party).recordFault ofs 64 64 with
      | some r => .trap r
      | none => .done (s.ampIssue key slot (.read ofs))

/-- The fields of a gate record (spec/10 Table 10-4). -/
def gateMask (g : List Byte) : Nat := fromBytesLE (g.take 8)
def gateVal (g : List Byte) : Nat := fromBytesLE ((g.drop 8).take 8)
def gateTgt (g : List Byte) (j : Nat) : Nat := (g.getD (16 + j) 0).toNat
def gateU (g : List Byte) (k r c : Nat) : Nat × Nat :=
  let o := 32 + 8 * (2 ^ k * r + c)
  (fromBytesLE ((g.drop o).take 4), fromBytesLE ((g.drop (o + 4)).take 4))
def gateTgts (g : List Byte) (k : Nat) : List Nat := (upto 0 k).map (gateTgt g)

/-- Whether AGATE accepts a gate record (spec/10 R187). -/
def gateOk (g : List Byte) (k nq : Nat) : Bool :=
  let ts := gateTgts g k
  ts.all (fun t => t < nq && !(gateMask g).testBit t) && ts.eraseDups.length = k && gateMask g < 2 ^ nq &&
    gateVal g &&& gateMask g = gateVal g && (upto (16 + k) (16 - k)).all fun i => g.getD i 0 = 0

/-- The view fault of a command whose slice, as the issue-time record has it, lies at view addresses (spec/08 R153). -/
def State.sliceFault (s : State) (key slot : Nat) : Option Report :=
  let r := s.issueMap key slot
  if isViewAddr (mapBase r) || isViewAddr (mapBase r + 8 * 2 ^ mapNl r - 1) then
    some { cause := 0x19, d1 := BitVec.ofNat 32 (viewNumber (mapBase r)) }
  else none

/-- A command that reads or writes its slice is issued. -/
def State.sliceIssue (s : State) (key slot : Nat) (cmd : AmpCmd) : Issue :=
  match s.sliceFault key slot with
  | some r => .trap r
  | none => .done (s.ampIssue key slot cmd)

def execAgate (f : Ctl) (a b : Operand) (k : Fin 5) (nr : Bool) (s : State) : Host.Outcome State Fault Refusal :=
  countedC (.agate f a b k nr) f s fun s key c =>
    let slot := s.operandNat key c false a 0
    let ofs := s.operandNat key c false b 0
    let kk := k.val + 1
    let len := 32 + 8 * 4 ^ kk
    let p := s.party c.party
    if slot > 7 || mapNq (s.issueMap key slot) = 0 then .trap (ampFault slot 0)
    else match p.recordFault ofs len 1 with
      | some r => .trap r
      | none =>
        let g := Memory.readBytes p.scratch ofs len
        if gateOk g kk (mapNq (s.issueMap key slot)) then s.sliceIssue key slot (.gate kk nr ofs g)
        else .trap (ampFault slot 0)

def execAswap (f : Ctl) (a b : Operand) (q2 : BitVec 6) (s : State) : Host.Outcome State Fault Refusal :=
  countedC (.aswap f a b q2) f s fun s key c =>
    let slot := s.operandNat key c false a 0
    let q1 := s.operandNat key c false b 0
    let nq := mapNq (s.issueMap key slot)
    if slot > 7 || nq = 0 || q1 ≥ nq || q2.toNat ≥ nq then .trap (ampFault slot 0)
    else s.sliceIssue key slot (.swap q1 q2.toNat)

def popcount (n : Nat) : Nat := ((upto 0 64).filter fun i => n.testBit i).length

def execAnorm (f : Ctl) (a b : Operand) (s : State) : Host.Outcome State Fault Refusal :=
  countedC (.anorm f a b) f s fun s key c =>
    let slot := s.operandNat key c false a 0
    let ofs := s.operandNat key c false b 0
    let p := s.party c.party
    if slot > 7 || mapNq (s.issueMap key slot) = 0 then .trap (ampFault slot 0)
    else match p.recordFault ofs 16 1 with
      | some r => .trap r
      | none =>
        let q := p.record ofs 8
        if q ≥ 2 ^ mapNq (s.issueMap key slot) || popcount q > 8 || p.record (ofs + 8) 8 ≠ 0 then .trap (ampFault slot 0)
        else match p.recordFault ofs (16 + 8 * 2 ^ popcount q) 1 with
          | some r => .trap r
          | none => s.sliceIssue key slot (.norm ofs (BitVec.ofNat 64 q))

/-- The physical index of a logical index under a map, and back (spec/10 R185). -/
def physIndex (r : BitVec 512) (x : Nat) : Nat :=
  (upto 0 (mapNq r)).foldl (fun p q => if x.testBit q then p + 2 ^ mapBit r q else p) 0
def logIndex (r : BitVec 512) (p : Nat) : Nat :=
  (upto 0 (mapNq r)).foldl (fun x q => if p.testBit (mapBit r q) then x + 2 ^ q else x) 0

/-- Exchanges two physical bits of a map. -/
def swapBits (r : BitVec 512) (b l : Nat) : BitVec 512 :=
  (upto 0 (mapNq r)).foldl (fun m q =>
    if mapBit r q = b then mapSetBit m q l else if mapBit r q = l then mapSetBit m q b else m) r

/-- The exchanges that bring the non-local targets of a command to local bits, in ascending TGT order: each with the map before it, the
non-local bit and the local bit (spec/10 R187, spec/24 R329). -/
def swapsOf (tgts : List Nat) : List Nat → BitVec 512 → List (BitVec 512 × Nat × Nat)
  | [], _ => []
  | q :: rest, m =>
    let b := mapBit m q
    if b < mapNl m then swapsOf tgts rest m
    else
      match (upto 0 (mapNl m)).reverse.find? fun l => !(tgts.map (mapBit m)).contains l with
      | some l => (m, b, l) :: swapsOf tgts rest (swapBits m b l)
      | none => swapsOf tgts rest m

/-- The map once the non-local targets have been brought to local bits. -/
def localise (r : BitVec 512) (tgts : List Nat) : BitVec 512 :=
  (swapsOf tgts tgts r).foldl (fun m x => swapBits m x.2.1 x.2.2) r

def fma32 (a b c : Nat) : Nat := fp32.round {} (Num.fma (fp32.decode a) (fp32.decode b) (fp32.decode c))
/-- The sign of a pattern flipped. -/
def negate32 (a : Nat) : Nat := if a < 2 ^ 31 then a + 2 ^ 31 else a - 2 ^ 31

/-- One row of a group (spec/10 R187). -/
def gateRow (g : List Byte) (k r : Nat) (a : Nat → Nat × Nat) : Nat × Nat :=
  (upto 0 (2 ^ k)).foldl (fun acc c =>
    let u := gateU g k r c
    let x := a c
    (fma32 (negate32 u.2) x.2 (fma32 u.1 x.1 acc.1), fma32 u.2 x.1 (fma32 u.1 x.2 acc.2))) (0, 0)

/-- A logical index with the targets set to a group index. -/
def withTargets (x : Nat) (ts : List Nat) (c : Nat) : Nat :=
  (ts.zip (upto 0 ts.length)).foldl (fun x y =>
    let clear := if x.testBit y.1 then x - 2 ^ y.1 else x
    if c.testBit y.2 then clear + 2 ^ y.1 else clear) x
def targetsOf (x : Nat) (ts : List Nat) : Nat :=
  (ts.zip (upto 0 ts.length)).foldl (fun c y => if x.testBit y.1 then c + 2 ^ y.2 else c) 0

/-- The amplitude that a command leaves at a logical index, from the old ones. -/
def ampValue (cmd : AmpCmd) (old : Nat → Nat × Nat) (x : Nat) : Nat × Nat :=
  match cmd with
  | .gate k _ _ g =>
    if x &&& gateMask g = gateVal g then
      let ts := gateTgts g k
      gateRow g k (targetsOf x ts) fun c => old (withTargets x ts c)
    else old x
  | _ => old x

/-- The map that a command leaves, and the one under which its amplitudes come to lie; a record with NQ = 0 frees the slot,
which then reads as zero (spec/10 R185). -/
def ampMap (cmd : AmpCmd) (m : BitVec 512) : BitVec 512 :=
  match cmd with
  | .map r => if mapNq r = 0 then 0 else r
  | .gate k nr _ g => if nr then m else localise m (gateTgts g k)
  | .swap q1 q2 => swapBits m (mapBit m q1) (mapBit m q2)
  | _ => m

/-- The sum of ANORM over the amplitudes whose masked qubits give `v` (spec/10 R188), rounded once to binary64. -/
def normSum (xs : List (Nat × Nat)) : Nat :=
  let t := xs.foldl (fun acc y =>
    Num.add (Num.add acc (Num.mul (fp32.decode y.1) (fp32.decode y.1))) (Num.mul (fp32.decode y.2) (fp32.decode y.2)))
    (.fin false 0 0)
  acc64.round { cn := true } t

/-- The masked qubits of a logical index, in ascending qubit order. -/
def maskedOf (q x : Nat) : Nat := targetsOf x ((upto 0 64).filter fun i => q.testBit i)

/-- The slices of some dies of a command. The bytes are charged as the engines work them off; an error names the crew whose engine met
it. -/
def State.ampRead (s : State) (ctx slot : Nat) (m : BitVec 512) :
    List (Nat × Nat × CPend) → Except (Nat × EngErr) (List (Nat × List Nat) × State)
  | [] => .ok ([], s)
  | x :: rest =>
    match s.engineRead x.2.1 (linePieces (mapBase (s.amp x.1 ctx slot).map) (8 * 2 ^ mapNl m)) with
    | .error e => .error (x.2.1, e)
    | .ok (bs, t) =>
      match State.ampRead { t with budgets := s.budgets } ctx slot m rest with
      | .error e => .error e
      | .ok (xs, t) => .ok ((x.1, (upto 0 (2 ^ mapNl m)).map fun i => fromBytesLE ((bs.drop (8 * i)).take 8)) :: xs, t)

/-- Amplitudes that follow each other in a line are written together. -/
def joinAmps : List (Nat × DWord) → List (Nat × List Byte)
  | [] => []
  | (i, v) :: rest =>
    match joinAmps rest with
    | (j, bs) :: l =>
      if j = i + 1 && j % 16 ≠ 0 then (i, toBytesLE 8 v.toNat ++ bs) :: l else (i, toBytesLE 8 v.toNat) :: (j, bs) :: l
    | [] => [(i, toBytesLE 8 v.toNat)]

/-- Work on a slice as far as it goes: the state, what the writes wait for, and what stopped it, with the first index that is left. -/
structure AmpPut where
  s : State
  w : Wrote := {}
  err : Option (EngErr × Nat) := none

/-- Works off amplitudes line by line, writing them unless the command only reads, and charges each with its bytes: of memory, and of
a port (spec/24 R333). Once a quantity of the class has reached its limit no further line starts (spec/15 R264). -/
def ampPut (key : Nat) (sc : Scope) (base : Nat) (reads : Bool) (mem port : Nat) : List (Nat × List Byte) → AmpPut → AmpPut
  | [], x => x
  | (i, bs) :: rest, x =>
    if x.s.spent key then { x with err := some (.wait .hold, i) }
    else match if reads then .ok (x.s, {}) else x.s.engineWrite key sc [(base + 8 * i, bs.length)] bs with
      | .error e => { x with err := some (e, i) }
      | .ok (s, w) =>
        ampPut key sc base reads mem port rest
          { x with s := (s.charge key 3 (bs.length / 8 * mem)).charge key 2 (bs.length / 8 * port), w := x.w.and w }

/-- Which of the amplitudes left an engine writes next: a free choice, since it processes its groups in no fixed order and a plain
access may see old and new ones (spec/24 R326, spec/10 R186). -/
def State.ampPick (s : State) (todo : List (Nat × DWord)) : (Nat × DWord → Bool) × State :=
  let now (x : Nat × DWord) : Bool := !(Config.freeBits (s.freeIx + x.1)).getLsbD 0
  let t := { s with freeIx := s.freeIx + todo.foldl (fun n x => max n (x.1 + 1)) 0 }
  (if todo.any now then now else fun _ => true, t)

/-! ### Exchanges (spec/24 R329-R334) -/

/-- The exchanges of a command under a map. -/
def ampSwaps (cmd : AmpCmd) (m : BitVec 512) : List (BitVec 512 × Nat × Nat) :=
  match cmd with
  | .gate k _ _ g => swapsOf (gateTgts g k) (gateTgts g k) m
  | .swap q1 q2 =>
    let a := mapBit m q1
    let b := mapBit m q2
    if a = b then [] else [(m, max a b, min a b)]
  | _ => []

/-- The select values of this package whose slices a die's part of a command depends on: those that it exchanges amplitudes with, one
after the other. A command whose targets are local, and ANORM, reads its own slice alone. -/
def ampGroup (cmd : AmpCmd) (m : BitVec 512) (v : Nat) : List Nat :=
  let nl := mapNl m
  let nd := mapNd m
  match cmd with
  | .gate k _ _ g =>
    let bits := ((gateTgts g k).map (mapBit m)).filter fun b => nl ≤ b
    (upto 0 (2 ^ nd)).filter fun w => (upto 0 nd).all fun j => bits.contains (nl + j) || w.testBit j = v.testBit j
  | .swap .. =>
    match ampSwaps cmd m with
    | (_, b, a) :: _ =>
      if b < nl || nl + nd ≤ b then [v]
      else if a < nl then [v, v ^^^ 2 ^ (b - nl)]
      else if v.testBit (a - nl) = v.testBit (b - nl) then [v]
      else [v, v ^^^ 2 ^ (a - nl) ^^^ 2 ^ (b - nl)]
    | [] => [v]
  | _ => [v]

/-- The partners of a die in a command (spec/24 R329). -/
def ampPartners (cmd : AmpCmd) (m : BitVec 512) (v : Nat) : List Nat :=
  (ampGroup cmd m v).filter fun w => w ≠ v && match cmd with | .gate .. => popcount (v ^^^ w) = 1 | _ => true

/-- Whether a command exchanges amplitudes with other packages. -/
def ampAbroad (cmd : AmpCmd) (m : BitVec 512) (np : Nat) : Bool :=
  0 < np && (ampSwaps cmd m).any fun x => mapNl m + mapNd m ≤ max x.2.1 x.2.2

/-- How many amplitudes of the slice of a select value leave the package when two physical bits are exchanged. -/
def ampLeaving (m : BitVec 512) (sel b l : Nat) : Nat :=
  if max b l < mapNl m + mapNd m then 0
  else ((upto 0 (2 ^ mapNl m)).filter fun p =>
    (sel * 2 ^ mapNl m + p).testBit b != (sel * 2 ^ mapNl m + p).testBit l).length

/-- The memory bytes of a command on one die beyond its first pass (spec/24 R330): 16 bytes for each amplitude and pass. -/
def ampMemBytes (cmd : AmpCmd) (m : BitVec 512) : Nat :=
  match cmd with
  | .gate k nr _ g =>
    let far := ((gateTgts g k).filter fun q => mapNl m ≤ mapBit m q).length
    16 * 2 ^ mapNl m * (far - 1 + if nr then far else 0)
  | _ => 0

/-- The bytes of a command that leave and enter a port at one die (spec/24 R329, R333). A target is exchanged with a local
bit, any of which lets the same number leave. -/
def ampPortBytes (cmd : AmpCmd) (m : BitVec 512) (sel : Nat) : Nat :=
  match cmd with
  | .gate k nr _ g =>
    let n := (gateTgts g k).foldl (fun n q => n + if mapBit m q < mapNl m then 0 else ampLeaving m sel (mapBit m q) 0) 0
    16 * n * (if nr then 2 else 1)
  | .swap q1 q2 => 16 * ampLeaving m sel (mapBit m q1) (mapBit m q2)
  | _ => 0

/-- The rank of this package in the communicator of a state with package bits. -/
def State.ampRank (s : State) (ctx : Nat) (m : BitVec 512) (np : Nat) : Nat :=
  if np = 0 then 0
  else ((s.comm ctx (mapComm m)).bind fun c => c.ranks.findIdx? fun x => x.1 = s.pkgId).getD 0

/-- One exchange sends to other packages the amplitudes of a die's slice that leave: every one whose two bits differ goes to where they
are exchanged (spec/24 R329). `val` gives an amplitude by its logical index. -/
def State.ampSend (s : State) (ctx slot own : Nat) (v : Nat) (val : Nat → Nat × Nat) (x : BitVec 512 × Nat × Nat) : State :=
  let m := x.1
  let nl := mapNl m
  let lo := nl + mapNd m
  let dest (p : Nat) : Nat := p ^^^ 2 ^ x.2.1 ^^^ 2 ^ x.2.2
  let out := (upto (own * 2 ^ lo + v * 2 ^ nl) (2 ^ nl)).filter fun p =>
    p.testBit x.2.1 != p.testBit x.2.2 && dest p / 2 ^ lo ≠ own
  match out, s.comm ctx (mapComm m) with
  | p :: _, some c =>
    { s with outbox := s.outbox ++ [.amps (c.place (dest p / 2 ^ lo)).1 (mapDie m (dest p % 2 ^ lo / 2 ^ nl)) ctx slot
        (out.map fun p => let y := val (logIndex m p); (dest p % 2 ^ nl, BitVec.ofNat 64 (y.1 + y.2 * 2 ^ 32)))] }
  | _, _ => s

/-- All exchanges of a command send what leaves, and those that NR undoes send it again, in descending TGT order. -/
def State.ampSends (s : State) (ctx slot own : Nat) (cmd : AmpCmd) (m : BitVec 512) (v : Nat) (old new : Nat → Nat × Nat) : State :=
  let xs := ampSwaps cmd m
  let s := xs.foldl (fun s x => s.ampSend ctx slot own v old x) s
  match cmd with
  | .gate _ true .. => xs.reverse.foldl (fun s x => s.ampSend ctx slot own v new (swapBits x.1 x.2.1 x.2.2, x.2)) s
  | _ => s

/-- Each die of a command writes what its own operation names in its crew's scratchpad. -/
def State.ampOwn (s : State) (xs : List (Nat × Nat × CPend)) (out : Nat → AmpCmd → Option (Nat × List Byte)) : State :=
  xs.foldl (fun s x => match x.2.2.kind with
    | .amp _ cmd .. => match out x.1 cmd with
      | some (ofs, bs) => s.modParty (s.crew x.2.1).party fun p => p.putScratch ofs bs
      | none => s
    | _ => s) s

/-- Performs a matched command on some dies of this package that depend on each other's slices alone (spec/24 R326-R330), but for the
amplitudes that it leaves in each slice, which its engines write afterwards. An amplitude that comes from another package is an input: a
free value (log 29). -/
def State.ampRun (s : State) (ctx slot : Nat) (cmd : AmpCmd) (m : BitVec 512) (np : Nat) (dies : List Nat)
    (xs : List (Nat × Nat × CPend)) : Except (Nat × EngErr) (State × Option (List (List DWord))) :=
  match cmd with
  | .map _ => .ok (s, none)
  | .read _ => .ok (s.ampOwn xs (fun d c => match c with
      | .read ofs => some (ofs, toBytesLE 64 (s.amp d ctx slot).map.toNat)
      | _ => none), none)
  | cmd => do
    let (slices, s) ← s.ampRead ctx slot m xs
    let nl := mapNl m
    let lo := nl + mapNd m
    let own := s.ampRank ctx m np
    let old (x : Nat) : Nat × Nat :=
      let p := physIndex m x
      let w := if np = 0 || p / 2 ^ lo = own then ((slices.lookup (dies.getD (p % 2 ^ lo / 2 ^ nl) 0)).getD []).getD (p % 2 ^ nl) 0
        else (Config.freeBits (s.freeIx + p)).toNat
      (w % 2 ^ 32, w / 2 ^ 32)
    let s' := if np = 0 then s else { s with freeIx := s.freeIx + 2 ^ mapNq m }
    match cmd with
    | .norm _ q =>
      let all := (upto 0 (2 ^ mapNq m)).map fun x => (maskedOf q.toNat x, old x)
      let out := (upto 0 (2 ^ popcount q.toNat)).flatMap fun v =>
        toBytesLE 8 (normSum ((all.filter fun y => y.1 = v).map (·.2)))
      return (s'.ampOwn xs (fun _ c => match c with | .norm ofs _ => some (ofs + 16, out) | _ => none), none)
    | _ =>
      let m' := ampMap cmd m
      let new := ampValue cmd old
      let t := if np = 0 then s' else xs.foldl (fun s x => s.ampSends ctx slot own cmd m (dies.idxOf x.1) old new) s'
      return (t, some (xs.map fun x => (upto (own * 2 ^ lo + dies.idxOf x.1 * 2 ^ nl) (2 ^ nl)).map fun p =>
        let y := new (logIndex m' p)
        BitVec.ofNat 64 (y.1 + y.2 * 2 ^ 32)))

/-- The dies of a command with their crews: every die's operation, or none when one has not issued. -/
def State.ampCrews (s : State) (ctx slot nth : Nat) (dies : List Nat) : Option (List (Nat × Nat × CPend)) :=
  dies.mapM fun d => (s.ampOp d ctx slot nth).map fun x => (d, x.1, x.2)

/-- Whether two peers' commands agree (spec/10 R186): in everything but BASE, and where their records lie. -/
def ampAgrees (a b : AmpCmd) : Bool :=
  match a, b with
  | .map r, .map r' =>
    if mapNq r = 0 || mapNq r' = 0 then mapNq r = mapNq r' else r.extractLsb' 64 448 = r'.extractLsb' 64 448
  | .read _, .read _ => true
  | .gate k nr _ g, .gate k' nr' _ g' => k = k' && nr = nr' && g = g'
  | .norm _ q, .norm _ q' => q = q'
  | x, y => x = y

/-- The amplitudes that the engine of an operation has still to work off. -/
def State.todoOf (s : State) (key id : Nat) : List (Nat × DWord) := ((s.copOf key id).bind fun o => o.todo).getD []

/-- The amplitudes of a command, given to the operations of its dies by their local indices (spec/10 R185). -/
def State.ampShare (s : State) (new : List (List DWord)) (xs : List (Nat × Nat × CPend)) : State :=
  (xs.zip new).foldl (fun s y => s.modC y.1.2.1 y.1.2.2.id fun o =>
    { o with todo := some ((upto 0 y.2.length).zip y.2), why := none }) s

/-- A gate record is read between the issue and the start of the command: each word of U that has been written since its issue has its
old or its new value, a free choice (spec/09 R174; the fields that the issue checks are those of the issue, log 70). -/
def State.ampSample (s : State) (key : Nat) (o : CPend) : State :=
  match o.kind with
  | .amp slot (.gate k nr ofs g) nth iss mt dies np =>
    let store := (s.partyOf key).scratch
    let r := (upto 8 (g.length / 4 - 8)).foldl (fun (acc : List Byte × Nat) i =>
      let now := Memory.readBytes store (ofs + 4 * i) 4
      if now = (acc.1.drop (4 * i)).take 4 then acc
      else (if (Config.freeBits acc.2).getLsbD 0 then acc.1.take (4 * i) ++ now ++ acc.1.drop (4 * i + 4) else acc.1, acc.2 + 1))
      (g, s.freeIx)
    { s with freeIx := r.2 }.modC key o.id fun o => { o with kind := .amp slot (.gate k nr ofs r.1) nth iss mt dies np }
  | _ => s

/-- One die's engine works off amplitudes, the chosen ones of those that it has left, in ascending order: the state, and what stopped it. What
is left keeps that order, so each amplitude is written once (spec/24 R330). `rows` of its operation is 1 once another package has to
acknowledge them. -/
def State.ampWork (s : State) (ctx slot : Nat) (cmd : AmpCmd) (m : BitVec 512) (np v : Nat) (x : Nat × Nat × CPend)
    (go : Nat × DWord → Bool) (now todo : List (Nat × DWord)) : State × Option EngErr :=
  let reads : Bool := match cmd with | .norm .. => true | _ => false
  let y := ampPut x.2.1 (if np = 0 then .pkg else .sys) (mapBase (s.amp x.1 ctx slot).map) reads
    (8 + ampMemBytes cmd m / 2 ^ mapNl m) (ampPortBytes cmd m (s.ampRank ctx m np * 2 ^ mapNd m + v) / 2 ^ mapNl m)
    (joinAmps now) { s := s }
  let stop := match y.err, now.getLast? with | some (_, i), _ => i | none, some z => z.1 + 1 | none, none => 0
  let u := (y.s.wrote x.2.1 y.w).modC x.2.1 x.2.2.id fun o =>
    { o.stops (y.err.map (·.1)) with
      todo := some (todo.filter fun z => !go z || stop ≤ z.1)
      ct := maxOpt o.ct y.w.wait
      rows := if y.w.ack then 1 else o.rows
      kind := if now.any fun z => z.1 < stop then o.kind.moved s.meridian else o.kind }
  (u, y.err.map (·.1))

/-- The amplitudes by which an engine may be ahead of a partner: 4 MiB of them are in flight from the partner, and every second one that
the engine writes came from there (spec/24 R331; DEDUCED, log 67). -/
def ampWindow : Nat := 2 ^ 20

/-- How many amplitudes an engine may write before the buffer of an exchange is empty or full (spec/24 R331). -/
def State.ampRoom (s : State) (cmd : AmpCmd) (m : BitVec 512) (v : Nat) (dies : List Nat) (x : Nat × Nat × CPend)
    (group : List (Nat × Nat × CPend)) : Nat :=
  let left := (s.todoOf x.2.1 x.2.2.id).length
  (group.filter fun y => (ampPartners cmd m v).contains (dies.idxOf y.1)).foldl
    (fun n y => min n (left + ampWindow - (s.todoOf y.2.1 y.2.2.id).length)) left

/-- One die's engine works off some of the amplitudes that are left to it, as many as there is room for; one that cannot move any leaves all
as they are. -/
def State.ampMove (s : State) (ctx slot : Nat) (cmd : AmpCmd) (m : BitVec 512) (np v room : Nat) (x : Nat × Nat × CPend) :
    State × Option EngErr :=
  let todo := s.todoOf x.2.1 x.2.2.id
  let (go, t) := s.ampPick todo
  let now := (todo.filter go).take room
  if todo.isEmpty then (s, none)
  else if now.isEmpty then (s, some (.held 4))
  else
    let y := t.ampWork ctx slot cmd m np v x go now todo
    if y.2.isSome && y.1.todoOf x.2.1 x.2.2.id = todo then (s, y.2) else y

/-- The oldest command of a slot at a die. -/
def State.ampHead (s : State) (die ctx slot : Nat) : Option (Nat × CPend) :=
  s.ampOp die ctx slot (s.amp die ctx slot).performed

/-- What keeps the engine of a die from going on: its class is held, its die relocks, or the link over which it exchanges retrains
(spec/24 R333, R334, spec/27 R364). -/
def State.ampStopped (s : State) (shares : Bool) (x : Nat × Nat × CPend) : Bool :=
  s.classHeld x.2.1 || s.relocking x.1 || (shares && s.essiaBusy x.1)

/-- An engine waits for a partner, and says so (spec/24 R331, R333). -/
def State.ampWait (s : State) (x : Nat × Nat × CPend) : State := s.modC x.2.1 x.2.2.id fun o => o.stops (some (.held 4))

/-- Whether an engine that waits does so for a die, as a partner of its exchange, or for the sums of ANORM (spec/24 R334). -/
def State.ampAwaits (s : State) (key : Nat) (o : CPend) (d : Nat) : Bool :=
  !o.done && o.why = some .clock && o.heldDie = 4 && match o.kind with
    | .amp slot cmd _ _ _ dies _ =>
      let die := dieOfCore (coreOf key)
      let m := (s.amp die (s.ctxOf key) slot).map
      match cmd with
      | .norm .. => d != die && dies.contains d && o.todo = some []
      | _ => (ampPartners cmd m (dies.idxOf die)).any fun w => dies[w]? = some d
    | _ => false

/-- Whether a package whose amplitudes or sums a command needs is out of reach (spec/26 R353). -/
def State.ampCut (s : State) (ctx : Nat) (m : BitVec 512) (np : Nat) : Bool :=
  0 < np && (s.comm ctx (mapComm m)).any fun c => c.ranks.any fun x => s.unreached x.1

/-- AMP_MATCH: every peer of this package has issued the command, none relocks, and none has an older one of the slot to perform: the records
agree and it begins, or every peer takes the fault (spec/10 R186, spec/24 R328). -/
def execAmpMatch (die ctx slot : Nat) (s : State) : Host.Outcome State Fault Refusal :=
  eventOn die s fun s =>
    match s.ampHead die ctx slot with
    | none => s
    | some (_, o) =>
      match o.kind with
      | .amp _ _ nth _ false dies _ =>
        match s.ampCrews ctx slot nth dies with
        | none => s
        | some xs =>
          if !xs.all fun x => (s.amp x.1 ctx slot).performed = nth && !s.relocking x.1 then s
          else
            let s := xs.foldl (fun s x => s.ampSample x.2.1 x.2.2) s
            let xs := (s.ampCrews ctx slot nth dies).getD xs
            let agree := xs.all fun x => xs.all fun y => match x.2.2.kind, y.2.2.kind with
              | .amp _ c _ _ _ d _, .amp _ c' _ _ _ d' _ => ampAgrees c c' && d = d'
              | _, _ => false
            if agree then
              xs.foldl (fun s x => s.modC x.2.1 x.2.2.id fun o => { o with
                kind := match o.kind with | .amp a b c _ _ e f => .amp a b c s.meridian true e f | k => k }) s
            else s.ampEnd ctx slot xs (some 1) (fun m _ => m)
      | _ => s

/-- An error that an engine met: it waits for what it needs, or its command fails there. -/
def State.ampStop (s : State) (ctx slot : Nat) (xs : List (Nat × Nat × CPend)) (k : Nat) (e : EngErr) : State :=
  match xs.find? fun x => x.2.1 = k with
  | some x => s.engineStop k x.2.2.id (s.engineWaits k e) e fun c => s.ampEnd ctx slot [x] (some c) (fun m _ => m)
  | none => s

/-- What a die's engine meets when it comes to read the slice of its own die (spec/10 R186, spec/05 R112). -/
def State.ampOwnError (s : State) (ctx slot : Nat) (cmd : AmpCmd) (m : BitVec 512) (x : Nat × Nat × CPend) : Option EngErr :=
  match cmd with
  | .gate .. | .swap .. => match s.ampRead ctx slot m [x] with | .error (_, e) => some e | .ok _ => none
  | _ => none

/-- The engines of dies that depend on each other read their slices, once none of them is stopped; each then has its amplitudes to
write. A command that writes none is over; ANORM has the lines of its own slice to read first (spec/24 R326-R331). -/
def State.ampBegin (s : State) (ctx slot : Nat) (cmd : AmpCmd) (m : BitVec 512) (np : Nat) (dies : List Nat)
    (xs : List (Nat × Nat × CPend)) : State :=
  match cmd with
  | .norm .. => s.ampShare (xs.map fun _ => (upto 0 (2 ^ mapNl m)).map fun _ => 0) xs
  | _ =>
    match s.ampRun ctx slot cmd m np dies xs with
    | .error (k, e) => s.ampStop ctx slot xs k e
    | .ok (t, none) => t.ampEnd ctx slot xs none fun m c => ampMap c m
    | .ok (t, some new) => t.ampShare new xs

/-- ANORM's sums meet once every die's slice has been read, and no die and no link on their way is stopped (spec/10 R188, spec/18 R287,
spec/27 R364). -/
def State.ampSum (s : State) (ctx slot nth : Nat) (cmd : AmpCmd) (m : BitVec 512) (np : Nat) (dies : List Nat)
    (x : Nat × Nat × CPend) : State :=
  match s.ampCrews ctx slot nth dies with
  | none => s
  | some all =>
    if !all.all fun y => y.2.2.todo = some [] then s
    else if s.ampCut ctx m np then s.ampEnd ctx slot [x] (some 4) fun m _ => m
    else if (1 < dies.length && all.any fun y => s.relocking y.1 || s.essiaBusy y.1) || (0 < np && s.portsBusy) then s.ampWait x
    else match s.ampRun ctx slot cmd m np dies all with
      | .error (k, e) => s.ampStop ctx slot all k e
      | .ok (t, _) => t.ampEnd ctx slot all none fun m c => ampMap c m

/-- A command whose engine has nothing left to do is over at its die; ANORM once the sums have met. -/
def State.ampFinish (s : State) (ctx slot nth : Nat) (cmd : AmpCmd) (m : BitVec 512) (np : Nat) (dies : List Nat)
    (x : Nat × Nat × CPend) : State :=
  if !(s.todoOf x.2.1 x.2.2.id).isEmpty then s
  else match cmd with
  | .norm .. => s.ampSum ctx slot nth cmd m np dies x
  | _ => s.ampEnd ctx slot [x] none fun m c => ampMap c m

/-- One engine goes on with a command: it works off some of its amplitudes, unless a partner with work left is stopped, and the command
is over at its die once nothing is left (spec/24 R328-R331). -/
def State.ampGo (s : State) (ctx slot nth : Nat) (cmd : AmpCmd) (m : BitVec 512) (np : Nat) (dies : List Nat) (x : Nat × Nat × CPend)
    (group : List (Nat × Nat × CPend)) : State :=
  let v := dies.idxOf x.1
  match s.ampMove ctx slot cmd m np v (s.ampRoom cmd m v dies x group) x with
  | (t, some e) => t.ampStop ctx slot [x] x.2.1 e
  | (t, none) => t.ampFinish ctx slot nth cmd m np dies x

/-- Whether an engine of a command may move data: neither it nor a partner with work left is stopped, and a port carries what goes
abroad. -/
def State.ampFree (s : State) (cmd : AmpCmd) (m : BitVec 512) (np v : Nat) (dies : List Nat) (group : List (Nat × Nat × CPend)) : Bool :=
  let partners := group.filter fun y => (ampPartners cmd m v).contains (dies.idxOf y.1) && y.2.2.todo != some []
  !(partners.any (s.ampStopped true) || (ampAbroad cmd m np && s.portsBusy))

/-- AMP_COMMAND_COMPLETE: the oldest command of a slot goes on at a die, or completes at its scope (spec/10 R186). Once it is matched,
a die waits for its partners alone (spec/24 R328). -/
def execAmpCommandComplete (die ctx slot : Nat) (s : State) : Host.Outcome State Fault Refusal :=
  eventOn die s fun s =>
    let waiting := s.crews.findSome? fun k =>
      if dieOfCore (coreOf k.1) = die && (s.party k.2.party).ctx = ctx then
        (k.2.cops.find? fun o => !o.done && o.applied && match o.kind with | .amp sl .. => sl = slot | _ => false).map
          fun o => (k.1, o)
      else none
    match waiting with
    | some (key, o) => if s.passed key o.ct then (s.modC key o.id fun o => { o with done := true }).dropOps key else s
    | none =>
      match s.ampHead die ctx slot with
      | none => s
      | some (key, o) =>
        let s := if o.todo.isSome then s else match o.kind with | .amp _ _ _ _ false .. => s.ampSample key o | _ => s
        let o := (s.copOf key o.id).getD o
        match o.kind with
        | .amp _ cmd nth _ matched dies np =>
          let m := (s.amp die ctx slot).map
          let v := dies.idxOf die
          let group := (ampGroup cmd m v).filterMap fun w => dies[w]?.bind fun d => (s.ampOp d ctx slot nth).map fun y => (d, y.1, y.2)
          let shares := 1 < (ampGroup cmd m v).length
          if s.engineRejected key || !matched && (dies.length > 1 || np > 0) || s.ampStopped shares (die, key, o) then s
          else if ampAbroad cmd m np && s.ampCut ctx m np then s.ampEnd ctx slot [(die, key, o)] (some 4) fun m _ => m
          else if o.todo.isSome then
            if s.ampFree cmd m np v dies group then s.ampGo ctx slot nth cmd m np dies (die, key, o) group else s.ampWait (die, key, o)
          else if let some e := s.ampOwnError ctx slot cmd m (die, key, o) then s.ampStop ctx slot [(die, key, o)] key e
          else if group.length < (ampGroup cmd m v).length || group.any (fun y => y.2.2.todo.isSome) then s
          else if group.any (s.ampStopped shares) || (ampAbroad cmd m np && s.portsBusy) then s.ampWait (die, key, o)
          else
            let t := s.ampBegin ctx slot cmd m np dies group
            if (t.copOf key o.id).any fun o => o.todo.isSome then t.ampGo ctx slot nth cmd m np dies (die, key, o) group else t
        | _ => s

/-- AMP_MATCH_TIMEOUT: the oldest command of a slot at a die whose match has taken too long fails: every peer that has issued the command,
or issues it later, takes the fault; so does one whose command ended so while its die relocked (spec/10 R186). -/
def execAmpMatchTimeout (die ctx slot : Nat) (s : State) : Host.Outcome State Fault Refusal :=
  eventOn die s fun s =>
    let past (n : Nat) : Bool := n < (s.amp die ctx slot).performed || (s.amp die ctx slot).dead.contains n
    match (s.ampOpen die ctx slot).find? fun y => match y.2.kind with
      | .amp _ cmd nth _ false dies np => past nth || s.ampLate ctx slot nth (s.ampRecord die ctx slot nth cmd) dies np
      | _ => false with
    | none => s
    | some y =>
      match y.2.kind with
      | .amp _ _ nth _ _ dies _ =>
        if past nth then s.ampEnd ctx slot [(die, y)] (some 2) fun m _ => m else s.ampExpire ctx slot nth dies
      | _ => s

/-- AMP_EXCHANGE_TIMEOUT: the exchange of a matched command has moved no data at a die for the timeout; every amplitude holds its new
or its old value: `more` says that the engine has written some since it last let anyone know (spec/24 R331). A command that exchanges
nothing has no such timeout. -/
def execAmpExchangeTimeout (die ctx slot : Nat) (more : Bool) (s : State) : Host.Outcome State Fault Refusal :=
  eventOn die s fun s =>
    match s.ampHead die ctx slot with
    | none => s
    | some (key, o) =>
      match o.kind with
      | .amp _ cmd nth issued true dies np =>
        let m := (s.amp die ctx slot).map
        let v := dies.idxOf die
        let group := (ampGroup cmd m v).filterMap fun w => dies[w]?.bind fun d => (s.ampOp d ctx slot nth).map fun y => (d, y.1, y.2)
        let last := group.foldl (fun t y => match y.2.2.kind with
          | .amp _ _ _ i _ _ _ => if (ampPartners cmd m v).contains (dies.idxOf y.1) then max t i else t
          | _ => t) issued
        if (ampPartners cmd m v).isEmpty && !ampAbroad cmd m np then s
        else if s.meridian ≤ last + s.ampTimeout ctx m np then s
        else
          let shares := 1 < (ampGroup cmd m v).length
          let t := if more && o.todo.isSome && !s.ampStopped shares (die, key, o) && s.ampFree cmd m np v dies group then
            (s.ampMove ctx slot cmd m np v (s.ampRoom cmd m v dies (die, key, o) group) (die, key, o)).1 else s
          t.ampEnd ctx slot [(die, key, o)] (some 2) fun m _ => m
      | _ => s

/-! ## Clocks (spec/10 R189, R190) -/

def Crew.countersZero (c : Crew) : Bool := c.loads.isEmpty && c.stores.isEmpty && c.cops.isEmpty && c.tops.isEmpty

/-- A read of a clock: with DR it waits until L, S, C and T are zero. -/
def clockRead (i : Instr) (f : Ctl) (d : Operand) (dr : Bool) (s : State) (clock : State → Nat → Nat) :
    Host.Outcome State Fault Refusal :=
  once i f s fun s key c =>
    if dr && !c.countersZero then held? s key (some 4) (.done s)
    else .done (s.modCrew key fun c => c.writeUni f d (BitVec.ofNat 64 (clock s (dieOfCore (coreOf key)))))

def execRdmer (f : Ctl) (d : Operand) (dr : Bool) (s : State) : Host.Outcome State Fault Refusal :=
  clockRead (.rdmer f d dr) f d dr s State.mer
def execRdclk (f : Ctl) (d : Operand) (dr : Bool) (s : State) : Host.Outcome State Fault Refusal :=
  clockRead (.rdclk f d dr) f d dr s State.clk

/-- The Meridian tick of a cycle count of a die (spec/10 R190). -/
def Die.toMeridian (x : Die) (c : Nat) : DWord :=
  match x.freqs.find? fun e => e.clk ≤ c with
  | some e => BitVec.ofNat 64 (e.mer + (c - e.clk) * 10 / e.freq)
  | none => 0xFFFFFFFFFFFFFFFF

def execClk2mer (f : Ctl) (d a : Operand) (s : State) : Host.Outcome State Fault Refusal :=
  lanewise (.clk2mer f d a) f true d s fun s key c l =>
    (s.die (dieOfCore (coreOf key))).toMeridian (s.operandNat key c true a l)

end Sys2Proof.Machine
end

