-- ==== Sys2Proof/Machine/Ring.lean ====
section
/-! DEFINITION. Bytes of records in memory, the fault report's image and the fault ring (spec/13 R232, R242). -/
namespace Sys2Proof.Machine

/-! ## Records -/

/-- A field of a record: its byte offset, its size in bytes and its value. -/
abbrev Field := Nat × Nat × Nat

/-- Clears a range of memory: its bytes read as zero. -/
def Memory.clear (m : Memory) (a n : Nat) : Memory := m.filter fun x => !(a ≤ x.1 && x.1 < a + n)

/-- Writes the fields of a record at an address. -/
def Memory.putFields (m : Memory) (a : Nat) (fs : List Field) : Memory :=
  fs.foldl (fun m f => m.writeBytes (a + f.1) (toBytesLE f.2.1 f.2.2)) m

/-- The bytes of memory in a range that are not zero, by their offset. -/
def Memory.cells (m : Memory) (a n : Nat) : List (Nat × Byte) :=
  (m.filter fun x => a ≤ x.1 && x.1 < a + n).map fun x => (x.1 - a, x.2)

/-- A field of a record in memory. -/
def Memory.field (m : Memory) (a n : Nat) : Nat := fromBytesLE (m.readBytes a n)

/-! ## The report's image, Table 13-2 -/

/-- The header's first word, which is also %FAULT. -/
def Report.word (r : Report) : Word :=
  BitVec.ofNat 32 (r.cause.toNat + r.sub.toNat * 2 ^ 8 + (boolWord r.pr).toNat * 2 ^ 16 + (boolWord r.rg).toNat * 2 ^ 17 +
    (boolWord r.df).toNat * 2 ^ 18 + (boolWord r.more).toNat * 2 ^ 19 + r.eng.toNat * 2 ^ 20)

def Report.fields (r : Report) : List Field :=
  [(0, 4, r.word.toNat), (4, 4, r.crew % 64 + r.pslot % 16 * 2 ^ 6 + r.ctx % 16 * 2 ^ 10 + r.regc % 256 * 2 ^ 16),
   (8, 8, r.pc.toNat), (16, 8, r.epc.toNat), (24, 8, r.addr.toNat), (32, 4, r.d1.toNat), (36, 4, r.d2.toNat),
   (40, 4, r.lmask.toNat), (44, 4, r.taskf.toNat), (48, 4, r.taskr.toNat), (52, 4, r.wbase.toNat),
   (56, 1, r.verdict.toNat), (64, 64, r.ped.toNat), (128, 64, r.ped2.toNat)]

/-- The byte of VERDICT in a report. -/
def verdictOfs : Nat := 56

/-- The report that an image holds. -/
def Report.ofImage (m : Memory) (a : Nat) : Report :=
  let w : Word := BitVec.ofNat 32 (m.field a 4)
  let v := m.field (a + 4) 4
  { cause := w.extractLsb' 0 8, sub := w.extractLsb' 8 8, pr := w.getLsbD 16, rg := w.getLsbD 17, df := w.getLsbD 18
    more := w.getLsbD 19, eng := w.extractLsb' 20 4, crew := v % 64, pslot := v / 2 ^ 6 % 16, ctx := v / 2 ^ 10 % 16
    regc := v / 2 ^ 16 % 256, pc := BitVec.ofNat 64 (m.field (a + 8) 8), epc := BitVec.ofNat 64 (m.field (a + 16) 8)
    addr := BitVec.ofNat 64 (m.field (a + 24) 8), d1 := BitVec.ofNat 32 (m.field (a + 32) 4)
    d2 := BitVec.ofNat 32 (m.field (a + 36) 4), lmask := BitVec.ofNat 32 (m.field (a + 40) 4)
    taskf := BitVec.ofNat 32 (m.field (a + 44) 4), taskr := BitVec.ofNat 32 (m.field (a + 48) 4)
    wbase := BitVec.ofNat 32 (m.field (a + 52) 4), verdict := BitVec.ofNat 8 (m.field (a + 56) 1)
    ped := BitVec.ofNat 512 (m.field (a + 64) 64), ped2 := BitVec.ofNat 512 (m.field (a + 128) 64) }

/-! ## The fault ring (spec/13 R242) -/

/-- What became of a report: written, with the virtual address of its entry; no free entry; or impossible to write. -/
inductive RingPut where
  | wrote (s : State) (va : Nat)
  | full
  | impossible
deriving DecidableEq, Repr

/-- Adds 1 to a 64-bit word at its service crew, as SIGADD does. -/
def State.bumpWord (s : State) (a : Attr) (pa : Nat) : State :=
  (s.signalPut a pa (BitVec.ofNat 64 (s.mem.field pa 8) + 1)).1

/-- Whether the service crew or the home point of a word takes nothing now: its die relocks, or the link to it retrains (spec/18 R286,
R287, spec/27 R364). -/
def State.wordHeld (s : State) (a : Attr) (pa : Nat) : Bool :=
  (s.hubHeld a pa).isSome

/-- The image of a report is written at its place; the release of its entry lasts until Meridian has passed the completion times of
its lines (steps 1 and 2). -/
def State.putEntry (s : State) (b : Attr) (pa : Nat) (r : Report) : State × Nat :=
  ({ s with mem := (s.mem.clear pa 256).putFields pa r.fields }.clearBad pa 256,
   max (s.completion (b.die pa) (lineOf pa)) (s.completion (b.die pa) (lineOf pa + 1)))

/-- Writes a report into the fault ring of a context, or sends it on its way to a home that does not take it yet. A ring in a package
that no port reaches cannot be written (spec/26 R353). -/
def State.ringPut (s : State) (ctx : Nat) (r : Report) : RingPut :=
  let e := s.ctxEntry ctx
  let size := 2 ^ ctxFrlog e
  match s.lookup ctx (ctxFring e) .write with
  | .error _ => .impossible
  | .ok (base, _) =>
    let put := s.mem.field base 8 + (s.posts.filter fun p => p.ctx = ctx && !p.lost).length
    let get := s.mem.field (base + 8) 8
    let va := ctxFring e + 256 + 256 * (put % size)
    match s.lookup ctx va .write with
    | .error _ => .impossible
    | .ok (pa, b) =>
      if s.cutOff base || s.cutOff pa then .impossible
      else if size ≤ (put + 2 ^ 64 - get) % 2 ^ 64 then .full
      else if s.wordHeld b pa then .wrote { s with posts := s.posts ++ [{ ctx := ctx, entry := some (va, r) }] } va
      else
        let w := s.putEntry b pa r
        .wrote { w.1 with posts := w.1.posts ++ [{ ctx := ctx, ct := w.2 }] } va

/-- The word that tells of new reports, when NOTE names one that translates. -/
def State.noteWord (s : State) (ctx base : Nat) : Option (Nat × Attr) :=
  let note := s.mem.field (base + 24) 8
  if note = 0 then none else (s.lookup ctx note .write).toOption

/-- A report for which the ring had no room is counted in LOST, unless that word's service crew stands still. -/
def State.countLost (s : State) (ctx : Nat) : Option State :=
  match s.lookup ctx (ctxFring (s.ctxEntry ctx)) .write with
  | .error _ => some s
  | .ok (base, a) => if s.wordHeld a base then none else some (s.bumpWord a (base + 16))

/-- Steps 3 and 4 for one report: it is counted in PUT, and NOTE is told, unless the service crew of either word stands still
(spec/18 R286). -/
def State.countPost (s : State) (ctx : Nat) : Option State :=
  match s.lookup ctx (ctxFring (s.ctxEntry ctx)) .write with
  | .error _ => some s
  | .ok (base, a) =>
    let note := s.noteWord ctx base
    if s.wordHeld a base || note.any fun n => s.wordHeld n.2 n.1 then none
    else
      let s := s.bumpWord a base
      some (note.elim s fun n => s.bumpWord n.2 n.1)

/-- What becomes of one report on its way, when `first` says that none of its context is before it: its entry is written once its home
takes it, and it is counted once its release is over; none when nothing is left to do. -/
def State.postStep (s : State) (p : Post) (first : Bool) : State × Option Post :=
  if p.lost then (match s.countLost p.ctx with | some t => (t, none) | none => (s, some p))
  else match p.entry with
    | some (va, r) =>
      match s.lookup p.ctx va .write with
      | .error _ => (s, none)
      | .ok (pa, a) =>
        if s.wordHeld a pa then (s, some p)
        else let w := s.putEntry a pa r; (w.1, some { p with entry := none, ct := w.2 })
    | none =>
      if s.meridian ≤ p.ct || !first then (s, some p)
      else match s.countPost p.ctx with | some t => (t, none) | none => (s, some p)

/-- The reports on their way go on; they are counted in PUT in the order of their entries. -/
def State.publish (s : State) : State :=
  let r := s.posts.foldl (fun (acc : State × List Post) p =>
    let x := acc.1.postStep p (acc.2.all fun q => q.ctx ≠ p.ctx)
    (x.1, acc.2 ++ x.2.toList)) (s, [])
  if s.posts.isEmpty then s else { r.1 with posts := r.2 }

/-- A report that does not wait: a full ring drops it and counts it in LOST; one that cannot be written is dropped. -/
def State.ringReport (s : State) (ctx : Nat) (r : Report) : State :=
  match s.ringPut ctx r with
  | .wrote s _ => s
  | .impossible => s
  | .full => (s.countLost ctx).getD { s with posts := s.posts ++ [{ ctx := ctx, lost := true }] }

end Sys2Proof.Machine
end

