-- ==== Sys2Proof/Machine/Sched.lean ====
section
/-! DEFINITION. Residency, placement, launches and their tasks: Compass, the die dispatchers and the life of a task
(spec/08 R144-R147, spec/15 R247-R262, spec/16 R268, R272). -/
namespace Sys2Proof.Machine

/-! ## Room on a core (spec/15 R247, R255) -/

def State.dieReady (s : State) (die : Nat) : Bool := s.ready.getLsbD (64 + die)
/-- A core takes work when its ready bit and that of its die are set (spec/27 R360, R361, R364). -/
def State.coreReady (s : State) (core : Nat) : Bool :=
  s.ready.getLsbD core && s.dieReady (dieOfCore core) && !(s.core core).retired

/-- The free party slots of a core, by party key, and its free crew slots; a service crew holds slot 63 (spec/15 R247). -/
def State.freeParties (s : State) (core : Nat) : List Nat :=
  (upto (16 * core) 16).filter fun k => (Tbl.get? s.parties k).isNone
def State.freeCrews (s : State) (core : Nat) : List Nat :=
  (upto (crewKey core 0) 64).filter fun k => (Tbl.get? s.crews k).isNone && !isAgentKey k

def State.partiesOn (s : State) (core : Nat) : List Party :=
  (s.parties.filter fun p => p.1 / 16 = core && p.1 < agentParty 0).map (·.2)

/-- The units of the unified store that the registers of the crews of a core hold: their uniform registers, and the lane
registers of the slices that are live (spec/15 R247, spec/04 R91). -/
def State.heldUnits (s : State) (core : Nat) : List (Nat × Nat) :=
  (s.partiesOn core).flatMap fun p => p.crews.flatMap fun k =>
    let c := s.crew k
    let slices := c.lanes / 32
    (c.rbase + slices * c.regc, 2) ::
      ((upto 0 slices).filter fun i => !c.ended && c.sliceLive (32 * i)).map fun i => (c.rbase + i * c.regc, c.regc)

/-- The places for `n` contiguous units below `cap` that no held range overlaps, each at the bottom of a gap, from the lowest. -/
def fitUnits (held : List (Nat × Nat)) (n cap : Nat) : List Nat :=
  let starts := (0 :: held.map fun x => x.1 + x.2).eraseDups
  (starts.filter fun b => b + n ≤ cap && held.all fun x => x.2 = 0 || !overlaps b n x.1 x.2).mergeSort

/-- Places for the registers of several crews, each contiguous, since a crew's registers follow its %RBASE (spec/05 R103): each at the
lowest place with which the rest still fits (log 18). -/
def fitCrews (cap : Nat) : List Nat → List (Nat × Nat) → Option (List Nat)
  | [], _ => some []
  | n :: rest, held => (fitUnits held n cap).findSome? fun b => (fitCrews cap rest ((b, n) :: held)).map (b :: ·)

/-- What a party needs of a core: the units of each crew's registers, units of scratchpad, bytes of weight store, tiles. -/
structure Demand where
  crews : List Nat
  scratch : Nat
  weight : Nat
  tiles : Nat
deriving DecidableEq, Repr

def entryNeed (e : BitVec 320) : Demand :=
  { crews := (upto 0 (entryCrews e)).map (crewUnits e), scratch := entryScr e, weight := 128 * entryWst e, tiles := entryTiles e }
/-- The demand of a party that has left its core. -/
def Party.demand (p : Party) (cs : List Crew) : Demand :=
  { crews := cs.map fun c => c.lanes / 32 * c.regc + 2, scratch := p.scratchLen / 128, weight := p.weightLen, tiles := p.tiles }

/-- Where a party lies on a core: its party slot, the crew slots, each crew's first unit, and the tiles. -/
structure Room where
  slot : Nat
  crews : List Nat
  bases : List Nat
  tiles : List Nat
deriving DecidableEq, Repr

/-- Room for a party in a party slot of a core: enough free crew slots, units, bytes of weight store and tiles (spec/15
R255). -/
def State.roomAt (s : State) (core slot : Nat) (n : Demand) : Option Room :=
  let ps := s.partiesOn core
  let crews := s.freeCrews core
  let held := s.heldUnits core
  let units := (held.map (·.2)).sum + (ps.map fun p => p.scratchLen / 128).sum + n.crews.sum + n.scratch
  let tiles := (upto 0 Config.accTiles).filter fun t => ps.all fun p => !p.tileIds.contains t
  if s.coreReady core && n.crews.length ≤ crews.length && units ≤ Config.partyUnits && n.tiles ≤ tiles.length &&
      (ps.map fun p => p.scratchLen / 128).sum + n.scratch ≤ Config.scratchUnits &&
      (ps.map (·.weightLen)).sum + n.weight ≤ Config.weightBytes then
    (fitCrews Config.partyUnits n.crews held).map fun bases =>
      { slot := slot, crews := crews.take n.crews.length, bases := bases, tiles := tiles.take n.tiles }
  else none

/-- The same in the first free party slot. -/
def State.room (s : State) (core : Nat) (n : Demand) : Option Room :=
  match s.freeParties core with | k :: _ => s.roomAt core k n | [] => none

def State.fits (s : State) (core : Nat) (n : Demand) : Bool := (s.room core n).isSome

/-- The core of a list that fits with the most free party slots, ties to the first (spec/15 R255). -/
def State.bestCore (s : State) (cores : List Nat) (n : Demand) : Option Nat :=
  (cores.filter fun k => s.fits k n).foldl (fun best k => match best with
    | none => some k
    | some b => if (s.freeParties b).length < (s.freeParties k).length then some k else some b) none

def dieCores (die : Nat) : List Nat := upto (16 * die) 16

/-- The cores of a die that may host a party of a launch's waiting task, root or stolen task: a core that is reserved for a
gang takes none of another launch (spec/15 R257). -/
def State.openCores (s : State) (launch die : Nat) : List Nat :=
  (dieCores die).filter fun k => match (s.core k).reserved with | some (l, _) => l = launch | none => true

/-- The pipe with the fewest bound crews, ties to the lowest (spec/15 R248). -/
def State.bindPipe (s : State) (core : Nat) : Nat :=
  let bound (p : Nat) : Nat := (s.crews.filter fun x => coreOf x.1 = core && x.2.role.isSome && x.2.pipe = p).length
  (upto 0 8).foldl (fun best p => if bound p < bound best then p else best) 0

/-! ## Placing a task -/

def roleOf (n : Nat) : Role := match n with | 0 => .copy | 1 => .tile | _ => .vec

/-- A crew at the start of its task, Table 8-1 (spec/08 R144). -/
def Task.crewStart (t : Task) (num idx party rbase pipe now : Nat) (role : Role) (lanes regs : Nat) : Crew :=
  { role := some role, party := party, idx := idx, lanes := lanes, regc := regs, rbase := rbase, pc := t.entry,
    mask := laneMask lanes, live := laneMask lanes,
    sregs := (upto 0 16).foldl (fun r i => Sparse.set r (48 + i) (t.args.getD i 0)) [],
    fmt := t.fmt, dix := BitVec.ofNat 40 ((num * 16 + idx) * 2 ^ 33), ped := t.ped, seed := t.seed, task := t.root,
    fault := match t.handlerOf with | some (_, r) => r.word | none => 0,
    readyAt := now, pipe := pipe }

/-- The elements of one accumulator tile. -/
def tileElems : Nat := 16384

/-- Physical tiles that a party takes from a core hold nothing of what stood in them (spec/08 Table 8-1, spec/20 R302). -/
def Core.takeTiles (c : Core) (ids : List Nat) : Core := { c with acc := c.acc.filter fun x => !ids.contains (x.1 / tileElems) }
/-- Tiles that a party leaves keep their elements, which a privileged agent can still name (spec/20 R302, log 66). -/
def Core.leaveTiles (c : Core) (p : Party) : Core :=
  { c with acc := p.acc.foldl (fun t x => Sparse.set t (p.tileIds.getD (x.1 / tileElems) 0 * tileElems + x.1 % tileElems) x.2) c.acc }

/-- A core has run a task of a launch (spec/15 R261). -/
def State.ranOn (s : State) (launch core : Nat) : State :=
  s.modLaunch launch fun l => if l.ran.contains core then l else { l with ran := l.ran ++ [core] }

/-- Makes one party of a task resident on a core that has room. -/
def State.placeParty (s : State) (ti num core : Nat) (e : BitVec 320) : Option State :=
  match s.room core (entryNeed e) with
  | none => none
  | some r =>
    let t := s.task ti
    let p : Party :=
      { task := ti, number := num, ctx := t.ctx, crews := r.crews, scratchLen := 128 * entryScr e, weightLen := 128 * entryWst e
        tiles := entryTiles e, tileIds := r.tiles }
    let s := s.setParty r.slot p
    let s := ((r.crews.zip r.bases).zip (upto 0 r.crews.length)).foldl (fun s x =>
      s.setCrew x.1.1 (t.crewStart num x.2 r.slot x.1.2 (s.bindPipe core) (s.clk (dieOfCore core)) (roleOf (entryRole e x.2))
        (entryLanes e x.2) (entryRegs e x.2))) s
    let s := ((s.invalidateL1 core).signalWake core 4).modCore core fun c => c.takeTiles r.tiles
    let s := s.modTask ti fun t => { t with parties := t.parties ++ [r.slot] }
    some (s.ranOn t.launch core)

/-- Parties 1 to P - 1, each on the core of the die that fits with the most free party slots, all on distinct cores; `own`
says that the task comes from the core's own deque, or is a handler, which no reservation bars (spec/15 R257). -/
def State.placeRest (s : State) (own : Bool) (ti die : Nat) (e : BitVec 320) : List Nat → List Nat → Option State
  | [], _ => some s
  | num :: rest, used =>
    let cores := if own then dieCores die else s.openCores (s.task ti).launch die
    match s.bestCore (cores.filter fun k => !used.contains k) (entryNeed e) with
    | none => none
    | some k => match s.placeParty ti num k e with
      | some s => s.placeRest own ti die e rest (k :: used)
      | none => none

def State.shapeOf (s : State) (t : Task) : BitVec 320 := packetShape (s.launch t.launch).packet t.shape

/-- A root task starts: firmware reads its context's entry, which gives its arena (spec/15 R249, spec/08 R150). -/
def State.rootStarts (s : State) (ti : Nat) : State :=
  let t := s.task ti
  if t.parent.isSome || t.handlerOf.isSome then s
  else
    let s := s.readCtx t.ctx
    let e := s.ctxEntry t.ctx
    let base := ctxHeap e + t.root.setWidth 64 * ctxHeapSize e
    s.modTask ti fun t => { t with arenaBase := base, arenaNext := base, arenaEnd := base + ctxHeapSize e }

/-- Places a convoy, its party 0 on a core (spec/15 R255). -/
def State.placeTask (s : State) (own : Bool) (ti core : Nat) : Option State :=
  let e := s.shapeOf (s.task ti)
  match s.placeParty ti 0 core e with
  | none => none
  | some s => match s.placeRest own ti (dieOfCore core) e (upto 1 (entryParties e - 1)) [core] with
    | none => none
    | some s => some ((s.modTask ti fun t => { t with status := .resident, die := dieOfCore core }).rootStarts ti)

/-- A task that cannot be placed becomes the die's waiting task. -/
def State.park (s : State) (die ti : Nat) : State :=
  (s.modTask ti fun t => { t with status := .waiting, die := die }).modDie die fun x => { x with waiting := some ti }

/-! ## Leaving a core -/

/-- Removes what waits or runs on behalf of a crew, then the crew (spec/13 R237, spec/15 R247). Its request packets are still applied,
and answered to nobody (spec/06 R118). -/
def State.dropCrew (s : State) (key : Nat) : State :=
  let core := coreOf key
  let s := (s.dropWalks key).dropWalks (engineAsk key)
  let s := s.modCore core fun (x : Core) =>
    { x with pipes := x.pipes.filter fun y => y.2 != key,
             rejected := x.rejected.filter fun y => y != key && y != engineAsk key && y != loadAsk key,
             stallers := x.stallers.filter fun y => y != key, reports := x.reports.filter fun y => y.1 != key,
             hostAsk := x.hostAsk.filter fun y => y.1 != key && y.1 != engineAsk key }
  { s with crews := Tbl.del s.crews key
           svcs := s.svcs.map (fun (x : Nat × Svc) => (x.1,
             { x.2 with waiters := x.2.waiters.filter fun w => w.crew != key
                        queue := x.2.queue.map fun (p : Packet) => if p.crew = key then { p with live := false } else p
                        replies := x.2.replies.filter fun y => y.packet.crew != key }))
           cur := if s.cur = some key then none else s.cur }

def State.dropParty (s : State) (pk : Nat) : State :=
  let p := s.party pk
  let s := p.crews.foldl State.dropCrew s
  let s := if p.acc.isEmpty then s else s.modCore (pk / 16) fun c => c.leaveTiles p
  { s with parties := Tbl.del s.parties pk }

/-- The views that a task holds and its parent does not: they are discarded with it (spec/13 R237). -/
def State.dropViews (s : State) (ti : Nat) : State :=
  let t := s.task ti
  let shared := match t.parent with | some p => (s.task p).views.map (fun (x : Nat × Nat) => x.2) | none => []
  let mine := (t.views.map (·.2)).filter fun v => !shared.contains v
  { s with views := s.views.filter fun v => !mine.contains v.1 }

/-- A task is over (spec/08 R147, spec/13 R237): its children are joined, or their views discarded when it failed; its
slots, declarations, pins and schedule handles (spec/10 R184) go; a root counts for its launch. -/
def State.taskOver (s : State) (ti : Nat) (status : TaskStatus) : State :=
  let t := s.task ti
  let s :=
    if status = .complete then s.absorb ti t.ped
    else
      let s := t.children.foldl State.dropViews (s.dropViews ti)
      let s := s.rewritePeds t.children ti t.ped
      { s with tasks := s.tasks.filter fun x => !t.children.contains x.1 }
  let s := t.parties.foldl State.dropParty s
  let own := (s.decls.filter fun d => d.2.task = ti).map (·.1)
  let s := { s with decls := s.decls.filter fun d => !own.contains d.1
                    views := s.views.filter fun v => !own.contains v.2.decl
                    handles := s.handles.filter fun h => h.2.task != ti
                    pedTable := s.pedTable.map fun (e : Nat × PedEntry) =>
                      if e.2.owner = some ti then (e.1, { e.2 with pinned := false }) else e }
  let s := s.sweepPeds
  let s := s.modTask ti fun t => { t with status := status, parties := [], children := [], away := [], saved := [] }
  let root := t.parent.isNone && t.handlerOf.isNone
  s.modLaunch t.launch fun l =>
    { l with faulted := l.faulted || status = .failed
             finished := if root then l.finished + 1 else l.finished
             triggered := if root && !t.triggered then l.triggered + 1 else l.triggered }

/-- The release of a completing task at a scope: the latest completion time to pass (spec/08 R147). -/
def State.taskRelease (s : State) (t : Task) (sc : Scope) : State × Nat :=
  let crews := s.taskCrews t
  let ct := crews.foldl (fun m k => max m (s.crew k).ct) 0
  if Scope.wide sc then
    (t.parties.map fun p => p / 16).eraseDups.foldl (fun acc core =>
      let r := acc.1.releaseCore core
      (r.1, max acc.2 r.2)) (s, ct)
  else (s, 0)

/-- What holds a writeback that a core makes on its way: its die relocks, or a home die does, or a link retrains (spec/18 R287,
spec/27 R364). -/
def State.backHeldBy (s : State) (core : Nat) : Option Nat :=
  if s.relocking (dieOfCore core) then some (dieOfCore core) else (s.dirtyOf core).findSome? fun x => s.wayHeld core x.2.home
def State.backHeld (s : State) (core : Nat) : Bool := (s.backHeldBy core).isSome

/-- TASK_COMPLETE: every crew and every child has ended; the task releases, and completes once its completion time has
passed (spec/08 R147). A task that ended with a fault completes when its children have (spec/13 R237). -/
def execTaskComplete (task : Nat) (s : State) : Host.Outcome State Fault Refusal :=
  eventOn (s.task task).die s fun s =>
    let t := s.task task
    if t.status ≠ .resident || !s.childrenDone t then s
    else if t.faulted.isSome then (if t.parties.isEmpty && t.away.isEmpty && t.saved.isEmpty then s.taskOver task .failed else s)
    else if !t.away.isEmpty || !((s.taskCrews t).all fun k => (s.crew k).ended) then s
    else
      match t.relCt with
      | some ct => if ct < s.mer t.die then s.taskOver task .complete else s
      | none =>
        let sc := if t.parent.isNone then packetRel (s.launch t.launch).packet else .pkg
        if Scope.wide sc && (t.parties.any fun p => s.backHeld (p / 16)) then s
        else
        let r := s.taskRelease t sc
        let s := r.1.modTask task fun t => { t with relCt := some r.2 }
        if !Scope.wide sc || r.2 < s.mer t.die then s.taskOver task .complete else s

/-! ## Launches -/

/-- The dies of a launch that are ready. -/
def State.launchDies (s : State) (l : Launch) : List Nat :=
  (upto 0 4).filter fun d => l.dies.testBit d && s.dieReady d

/-- Whether the word that tells of a launch cannot be set now. -/
def State.completionHeld (s : State) (ctx : Nat) (p : BitVec 4096) : Bool :=
  match s.lookup ctx (packetCmpaddr p).toNat .write with | .ok (pa, a) => s.wordHeld a pa | .error _ => false

/-- The word that tells of a launch is set, or its failure to translate is reported (spec/15 R261, R262). -/
def State.setCompletion (s : State) (l : Launch) (v : DWord) : State :=
  let va := packetCmpaddr l.packet
  match s.lookup l.ctx va.toNat .write with
  | .ok (pa, a) => (s.signalPut a pa v).1
  | .error (sub, hm) => s.ringReport l.ctx { transReport sub hm va 7 .write with ctx := l.ctx }

def failBit : DWord := 0x8000000000000000

/-- A launch that is over leaves nothing: its tasks, its pedigree entries and the records that name them (spec/16 R268). -/
def State.closeLaunch (s : State) (li : Nat) : State :=
  let mine := (s.pedTable.filter fun e => e.2.launch = li).map (·.1)
  let s := { s with pedTable := s.pedTable.filter fun e => e.2.launch != li
                    records := s.records.filter fun r => !mine.contains r.2.1
                    tasks := s.tasks.filter fun t => t.2.launch != li
                    cores := s.cores.map fun (c : Nat × Core) => match c.2.reserved with
                      | some (l, _) => if l = li then (c.1, { c.2 with reserved := none }) else c
                      | none => c }
  s.modLaunch li fun l => { l with status := .complete }

/-- LAUNCH_COMPLETE: every root is over, and the trigger point is past under TRIG = 1 (spec/15 R262); the cores that ran it release at REL, and the completion word is set
(spec/15 R261). -/
def execLaunchComplete (launch : Nat) (s : State) : Host.Outcome State Fault Refusal :=
  event s fun s =>
    let l := s.launch launch
    if l.status ≠ .running || l.finished < packetRoots l.packet || (packetTrig l.packet && !l.triggerSet) then s
    else if s.tasks.any fun t => t.2.launch = launch && !TaskStatus.beyond t.2.status then s
    else if l.relCt.isNone && Scope.wide (packetRel l.packet) && l.ran.any s.backHeld then s
    else
      let sc := packetRel l.packet
      let (s, ct) : State × Nat := match l.relCt with
        | some ct => (s, ct)
        | none =>
          if Scope.wide sc then
            let r := l.ran.foldl (fun (acc : State × Nat) core =>
              let r := acc.1.releaseCore core
              (r.1, max acc.2 r.2)) (s, 0)
            (r.1.modLaunch launch fun l => { l with relCt := some r.2 }, r.2)
          else (s, 0)
      if (Scope.wide sc && s.meridian ≤ ct + 2) || s.completionHeld l.ctx l.packet then s
      else
        let v := packetCmpval l.packet + (if packetTrig l.packet then 1 else 0)
        (s.setCompletion l (if l.faulted then v ||| failBit else v)).closeLaunch launch

/-- TRIGGER_POINT: every root has triggered or completed (spec/15 R262). -/
def execTriggerPoint (launch : Nat) (s : State) : Host.Outcome State Fault Refusal :=
  event s fun s =>
    let l := s.launch launch
    if l.status ≠ .running || !packetTrig l.packet || l.triggerSet || l.triggered < packetRoots l.packet ||
        s.completionHeld l.ctx l.packet then s
    else (s.setCompletion l (packetCmpval l.packet)).modLaunch launch fun l => { l with triggerSet := true }

/-! ## Compass: batches (spec/15 R254) -/

/-- The first numbers of a list that follow one another from `a`. -/
def consecutive : Nat → List Nat → List Nat
  | a, b :: rest => if b = a then b :: consecutive (a + 1) rest else []
  | _, [] => []

/-- The next batch of a launch, up to 64 consecutive roots: returned ones first, from the lowest. -/
def Launch.batch (l : Launch) : List Nat × Launch :=
  match l.back.min? with
  | some a =>
    let ts := consecutive a ((upto a 64).filter l.back.contains)
    (ts, { l with back := l.back.filter fun t => !ts.contains t })
  | none =>
    let n := min 64 (packetRoots l.packet - l.nextRoot)
    (upto l.nextRoot n, { l with nextRoot := l.nextRoot + n })

/-- The roots that a die has received and not started: one that waits to be placed has not started (spec/15 R254, R255). -/
def State.unstarted (s : State) (die : Nat) : Nat :=
  (s.die die).roots.length + match (s.die die).waiting with
    | some w => if (s.task w).parent.isNone && (s.task w).handlerOf.isNone then 1 else 0
    | none => 0

/-- The die of a list that holds the fewest unstarted roots, with room for `n` more. -/
def State.batchDie (s : State) (dies : List Nat) (n : Nat) : Option Nat :=
  (dies.filter fun d => s.unstarted d + n ≤ 128).foldl (fun best d => match best with
    | none => some d
    | some b => if s.unstarted d < s.unstarted b then some d else some b) none

/-- BATCH_DEAL: Compass deals one batch of the earliest launch that has one that can be dealt; of a deterministic one, the roots that a
die which has left the ready map has returned (spec/27 R361, log 71). -/
def execBatchDeal (s : State) : Host.Outcome State Fault Refusal :=
  event s fun s =>
    let deal := s.launches.findSome? fun x =>
      if x.2.status = .running && x.2.released && (!x.2.det || !x.2.back.isEmpty) then
        match x.2.batch with
        | ([], _) => none
        | (ts, l) => (s.batchDie (s.launchDies x.2) ts.length).map fun d => (x.1, l, ts, d)
      else none
    match deal with
    | none => s
    | some (li, l, ts, d) =>
      ({ s with launches := Tbl.set s.launches li l }).modDie d fun x => { x with roots := x.roots ++ ts.map fun t => (li, t) }

/-! ## Roots -/

/-- The task of a root (spec/08 R144); its arena is that of the context entry when it starts. -/
def State.makeRoot (s : State) (li t : Nat) (pin : Option Nat) : Nat × State :=
  let l := s.launch li
  let task : Task :=
    { launch := li, root := BitVec.ofNat 32 t, ctx := l.ctx, entry := packetEntry l.packet, seed := packetSeed l.packet,
      args := packetArgs l.packet, pin := pin }
  let k := s.nextTask
  (k, ({ s with nextTask := k + 1 }.setTask k task).beginStrand k 0)

/-- The rank of a die among the dies of a DET launch, and the core of an index (spec/15 R256). -/
def detCores (dies : List Nat) : List Nat := dies.flatMap dieCores
def detIndex (dies : List Nat) (core : Nat) : Option Nat := (detCores dies).findIdx? (· = core)

/-- The dies of a DET launch: those with all 16 cores ready (spec/27 R361), as its admission fixed them. -/
def launchMask (l : Launch) : List Nat := (upto 0 4).filter fun d => l.dies.testBit d

/-- The next root of a DET launch on a core. -/
def Launch.detNext (l : Launch) (core : Nat) : Option Nat :=
  let dies := launchMask l
  match detIndex dies core with
  | none => none
  | some i =>
    let t := i + 16 * dies.length * (Tbl.get? l.started core).getD 0
    if t < packetRoots l.packet then some t else none

/-- The launches that have a root which a core may start, oldest first: (launch, root, deterministic). -/
def State.rootChoices (s : State) (core : Nat) : List (Nat × Nat × Bool) :=
  let held := (s.die (dieOfCore core)).roots
  s.launches.filterMap fun x =>
    if x.2.status ≠ .running || !x.2.released then none
    else
      let own : Option Nat := if x.2.det && !x.2.gang then x.2.detNext core else none
      (own.map fun t => (x.1, t, true)) <|> ((held.filter fun r => r.1 = x.1).map (·.2)).min?.map fun t => (x.1, t, false)

/-- Starts a root whose party 0 goes to a core: placed, or the die's waiting task. -/
def State.startRoot (s : State) (li t core : Nat) (det : Bool) : State :=
  let s :=
    if det then s.modLaunch li fun l => { l with started := Tbl.set l.started core ((Tbl.get? l.started core).getD 0 + 1) }
    else s.modDie (dieOfCore core) fun x => { x with roots := x.roots.filter fun r => r != (li, t) }
  let (k, s) := s.makeRoot li t (if det then some core else none)
  match s.placeTask false k core with
  | some s => s
  | none => s.park (dieOfCore core) k

/-- Step 3 of R255 on a core: none when there is no root for it. -/
def State.takeRoot (s : State) (core : Nat) : List (Nat × Nat × Bool) → Option State
  | [] => none
  | (li, t, det) :: rest =>
    let n := entryNeed (packetShape (s.launch li).packet 0)
    if det then (if s.fits core n then some (s.startRoot li t core true) else s.takeRoot core rest)
    else match s.bestCore (s.openCores li (dieOfCore core)) n with
      | some best => if best = core then some (s.startRoot li t core false) else some s
      | none => none

/-! ## Deques and stealing (spec/15 R258) -/

/-- Pops the bottom of a core's deque; the newest spilled block comes back when the deque is empty. -/
def Core.pop (c : Core) : Option (Nat × Core) :=
  let c := if c.deque.isEmpty then match c.spilled.getLast? with
    | some b => { c with deque := b, spilled := c.spilled.dropLast }
    | none => c else c
  c.deque.getLast?.map fun t => (t, { c with deque := c.deque.dropLast })

/-- The oldest task of a core, and the core without it. -/
def Core.top (c : Core) : Option (Nat × Core) :=
  match c.spilled with
  | (t :: b) :: rest => some (t, { c with spilled := if b.isEmpty then rest else b :: rest })
  | _ => match c.deque with
    | t :: rest => some (t, { c with deque := rest })
    | [] => none

/-- The victims of a thief, in its order. -/
def victims (core : Nat) : List Nat :=
  let d := core / 16
  ((upto 1 15).map fun i => 16 * d + (core % 16 + i) % 16) ++ (upto 1 3).flatMap fun i => dieCores ((d + i) % 4)

/-- A stolen task takes a fresh view of each reducer it inherits (spec/16 R272). -/
def State.freshViews (s : State) (ti core : Nat) : State :=
  let t := s.task ti
  let s := t.decls.foldl (fun s d =>
    let v := s.nextView
    let s := { s with views := Tbl.set s.views v { decl := d.2, core := core }, nextView := v + 1 }
    s.modTask ti fun t => { t with views := Tbl.set t.views d.2 v }) s
  s.modTask ti fun t => { t with stolen := true }

/-- Whether a thief may take a task: its launch allows both dies and is not deterministic, and the thief's view pool holds
the fresh views. -/
def State.maySteal (s : State) (ti thief victim : Nat) : Bool :=
  let t := s.task ti
  let l := s.launch t.launch
  let bytes := t.decls.foldl (fun n d => n + ((Tbl.get? s.decls d.2).map Decl.viewBytes).getD 0) 0
  !l.det && l.dies.testBit (dieOfCore thief) && l.dies.testBit (dieOfCore victim) &&
    s.poolUsed thief + bytes ≤ Config.viewPool

/-- Step 4 of R255: a core without work steals, but not from a die that stands still (spec/18 R286). -/
def State.steal (s : State) (core : Nat) : State :=
  let take := ((victims core).filter fun v => !s.relocking (dieOfCore v)).findSome? fun v =>
    match (s.core v).top with
    | some (t, c') => if s.maySteal t core v && s.fits core (entryNeed (s.shapeOf (s.task t))) then some (v, t, c') else none
    | none => none
  match take with
  | none => s
  | some (v, t, c') =>
    let s := (s.setCore v c').freshViews t core
    match s.placeTask false t core with
    | some s => s
    | none => s.park (dieOfCore core) t

/-- Whether a handler task of the die waits and fits a core: it goes ahead of the waiting task, roots and stolen tasks
(spec/13 R236). -/
def State.handlerAhead (s : State) (core : Nat) : Bool :=
  (dieCores (dieOfCore core)).any fun k => (s.core k).handlers.any fun h => s.fits core (entryNeed (s.shapeOf (s.task h)))

/-- CORE_TAKE_WORK: a core with room for a party takes it in the order of R255 and places the convoy; a task whose party 0 does
not fit stays where it is (log 46), and the die's waiting task goes ahead of deques (log 47). -/
def execCoreTakeWork (core : Nat) (s : State) : Host.Outcome State Fault Refusal :=
  eventOn (dieOfCore core) s fun s =>
    let d := dieOfCore core
    if !s.coreReady core || (s.freeParties core).isEmpty then s
    else match (s.die d).waiting with
    | some w =>
      let here : Bool := match (s.task w).pin with | some p => p = core | none => true
      if !here || s.handlerAhead core || (s.core core).reserved.isSome then s
      else match s.placeTask false w core with
        | some s => s.modDie d fun x => { x with waiting := none }
        | none => s
    | none =>
      let own := (s.core core).pop.filter fun x => s.fits core (entryNeed (s.shapeOf (s.task x.1)))
      match own with
      | some (t, c') =>
        let s := (s.setCore core c').modTask t fun x => { x with pin := if (s.launch x.launch).det then some core else none }
        match s.placeTask true t core with
        | some s => s
        | none => s.park d t
      | none =>
        if s.handlerAhead core || (s.core core).reserved.isSome then s
        else match s.takeRoot core (s.rootChoices core) with
          | some s => s
          | none => s.steal core

/-! ## Gangs (spec/15 R257) -/

/-- Whether a launch starts as a gang. -/
def isGang (det : Bool) (roots dies : Nat) : Bool := det && roots ≤ 16 * dies

/-- Reserves the cores of the first gang launch that has not started, when no other gang holds reservations. -/
def State.reserveGang (s : State) : State :=
  if s.cores.any fun c => c.2.reserved.isSome then s
  else match s.launches.find? fun x => x.2.status = .running && x.2.gang && !x.2.gangStarted with
    | none => s
    | some (li, l) =>
      ((detCores (launchMask l)).zip (upto 0 (packetRoots l.packet))).foldl (fun s x =>
        s.modCore x.1 fun c => { c with reserved := some (li, x.2) }) s

/-- Party 0 of every root on its core, with the tasks so made. -/
def State.placeHeads (s : State) (li : Nat) : List (Nat × Nat) → List (Nat × Nat) → Option (List (Nat × Nat) × State)
  | [], done => some (done, s)
  | (core, t) :: rest, done =>
    let (k, s) := s.makeRoot li t (some core)
    match s.placeParty k 0 core (s.shapeOf (s.task k)) with
    | none => none
    | some s => s.placeHeads li rest (done ++ [(k, core)])

/-- The other parties of every root, each task then resident. -/
def State.placeTails (s : State) : List (Nat × Nat) → Option State
  | [] => some s
  | (k, core) :: rest =>
    let e := s.shapeOf (s.task k)
    match s.placeRest false k (dieOfCore core) e (upto 1 (entryParties e - 1)) [core] with
    | none => none
    | some s => ((s.modTask k fun t => { t with status := .resident, die := dieOfCore core }).rootStarts k).placeTails rest

/-- Party 0 of every root on its core, then the other parties of every root. -/
def State.placeGang (s : State) (li : Nat) (roots : List (Nat × Nat)) : Option State :=
  (s.placeHeads li roots []).bind fun x => x.2.placeTails x.1

/-- Whether a die's waiting task goes first: the cores of the die that no gang has reserved could take it, its own one among them and one
for each of its parties (spec/15 R255, R257, log 47). -/
def State.waitingFirst (s : State) (die : Nat) : Bool :=
  match (s.die die).waiting with
  | none => false
  | some w =>
    let t := s.task w
    let free := (dieCores die).filter fun k => s.coreReady k && (s.core k).reserved.isNone
    free ≠ [] && entryParties (s.shapeOf t) ≤ free.length && match t.pin with | some c => free.contains c | none => true

/-- GANG_START: every reserved core has room for its root and every convoy can be placed: all roots start in one step, unless a
die of the launch relocks or has a waiting task to place. -/
def execGangStart (launch : Nat) (s : State) : Host.Outcome State Fault Refusal :=
  event s fun s =>
    let s := s.reserveGang
    let l := s.launch launch
    if (launchMask l).any fun d => s.relocking d || s.waitingFirst d then s
    else
    let mine := (s.cores.filterMap fun c => match c.2.reserved with
      | some (li, t) => if li = launch then some (c.1, t) else none
      | none => none)
    if l.status ≠ .running || !l.gang || l.gangStarted || !l.released || mine.length ≠ packetRoots l.packet then s
    else match s.placeGang launch mine with
      | none => s
      | some s =>
        let s := s.modLaunch launch fun l => { l with gangStarted := true }
        ({ s with cores := s.cores.map fun (c : Nat × Core) => match c.2.reserved with
            | some (li, _) => if li = launch then (c.1, { c.2 with reserved := none }) else c
            | none => c }).reserveGang

/-! ## Admission (spec/15 R250-R253) -/

/-- Table 15-2 and 15-3: the reserved fields. -/
def packetReserved (p : BitVec 4096) : Bool :=
  bitsOf p 22 2 ≠ 0 || bitsOf p 41 23 ≠ 0 || bitsOf p 96 32 ≠ 0 || bitsOf p 576 448 ≠ 0 ||
    (upto 0 8).any fun i =>
      let e := packetShape p i
      if packetNsh p < i then e ≠ 0
      else bitsOf e 13 3 ≠ 0 || bitsOf e 48 16 ≠ 0 || (upto 0 16).any fun c =>
        if entryCrews e ≤ c then bitsOf e (64 + 16 * c) 16 ≠ 0 else e.getLsbD (79 + 16 * c)

def scopeValid (n : Nat) : Bool := n = 0 || n = 4 || n = 5

/-- Whether a shape entry fits a core's stores (spec/02 R35, Table 15-3). A value beyond a field's range is refused as condition 7
(DESIGN CHOICE, log 57). -/
def entryOk (e : BitVec 320) : Bool :=
  entryUnits e ≤ Config.partyUnits && entryTiles e ≤ 32 && entryScr e ≤ 16384 && entryWst e ≤ 16384 &&
    (upto 0 (entryCrews e)).all fun c => entryRole e c ≠ 3 && 1 ≤ entryRegs e c && entryRegs e c ≤ 192

/-- The first of conditions 1 to 13 of R253 that a packet fails. -/
def packetFails (p : BitVec 4096) (bmask : Nat) : Option Nat :=
  let conds : List Bool :=
    [!packetReserved p, bitsOf p 0 16 = 1, 1 ≤ packetRoots p,
     scopeValid (bitsOf p 24 3) && scopeValid (bitsOf p 27 3), bmask.testBit (packetBudget p),
     (packetEntry p).toNat % 4 = 0 && (packetHentry p).toNat % 4 = 0,
     (upto 0 (packetNsh p + 1)).all fun i => entryOk (packetShape p i),
     packetCmpaddr p ≠ 0 && (packetCmpaddr p).toNat % 8 = 0, (packetDepaddr p).toNat % 8 = 0,
     !packetHv p || packetHsh p ≤ packetNsh p, !packetTrig p || (packetCmpval p).toNat < 2 ^ 63 - 1,
     (packetCmpval p).toNat < 2 ^ 63, packetHv p || packetHentry p = 0]
  (conds.findIdx? fun b => !b).map (· + 1)

/-- Whether the word of a refused launch cannot be set now. -/
def State.refusalHeld (s : State) (ctx : Nat) (p : BitVec 4096) : Bool :=
  packetCmpaddr p ≠ 0 && (packetCmpaddr p).toNat % 8 = 0 && s.completionHeld ctx p

/-- A launch is refused: its report, and the completion word when it can be written (spec/15 R253). -/
def State.refuse (s : State) (ctx : Nat) (p : BitVec 4096) (n : Nat) (va : DWord) : State :=
  let bad := if (packetEntry p).toNat % 4 ≠ 0 then packetEntry p else packetHentry p
  let r : Report := if n = 6 then { cause := 0x04, addr := bad, ctx := ctx }
    else { cause := 0x20, d1 := BitVec.ofNat 32 n, addr := va, ctx := ctx }
  let s := s.ringReport ctx r
  let a := packetCmpaddr p
  if a = 0 || a.toNat % 8 ≠ 0 then s
  else match s.lookup ctx a.toNat .write with
    | .ok (pa, x) => (s.signalPut x pa (packetCmpval p ||| failBit)).1
    | .error _ => s

/-- The dies of an admitted launch (spec/15 R253, spec/27 R361). -/
def State.admitDies (s : State) (p : BitVec 4096) : List Nat :=
  (upto 0 4).filter fun d => (packetDies p).testBit d && s.dieReady d &&
    (!packetDet p || (dieCores d).all fun k => s.ready.getLsbD k)

/-- What firmware finds at an address of a packet: fine, refused, or an absent host-managed page to be asked for. -/
inductive Probe where | ok | bad | ask (va : DWord)
deriving DecidableEq, Repr

def State.probe (s : State) (ctx : Nat) (va : DWord) (need : Need) (declined : Bool) : Probe :=
  match s.lookup ctx va.toNat need with
  | .ok _ => .ok
  | .error (sub, hm) => if sub = 0 && hm && !declined then .ask va else .bad

/-- A valid packet is admitted: it waits for its dependence, if it has one. -/
def State.admitPacket (s : State) (ctx : Nat) (p : BitVec 4096) : State :=
  let dies := s.admitDies p
  let l : Launch :=
    { ctx := ctx, packet := p, dies := dies.foldl (fun m d => m + 2 ^ d) 0, det := packetDet p,
      gang := isGang (packetDet p) (packetRoots p) dies.length, released := packetDepaddr p = 0, status := .running }
  let s := { s with launches := Tbl.set s.launches s.nextLaunch l, nextLaunch := s.nextLaunch + 1 }
  if l.gang then s.reserveGang else s

/-- The agent that services a host request's page: the first core of the package (DESIGN CHOICE, log 36). -/
def State.hostAgent (s : State) : Nat := (s.cores.head?.map (·.1)).getD 0
/-- Whether the agent of a core waits for an answer of the host, about a crew, an engine or a host request: it asks one question at a
time (log 36). -/
def State.asking (s : State) (core : Nat) : Bool :=
  (s.core core).hostAsk.any (fun x => !x.2) || (core = s.hostAgent && s.qps.any fun x => x.2.asked)

/-- Judges a claimed packet: none while the host is asked for a page, over the Ethernet port once that is ready (spec/27 Table 27-1). -/
def State.judgePacket (s : State) (core ctx : Nat) (p : BitVec 4096) (va : DWord) : Option State :=
  let agent := crewKey core agentSlot
  let declined : Bool := match (s.core core).hostAsk with | some (k, d) => k = agent && d | none => false
  let asked : Bool := (s.core core).hostAsk.isSome || s.asking core
  match packetFails p (ctxBmask (s.ctxEntry ctx)) with
  | some n => some (s.refuse ctx p n va)
  | none =>
    let ask (a : DWord) : Option State :=
      if asked || !s.ready.getLsbD 112 then none
      else some ({ s with outbox := s.outbox ++ [HostMsg.pageAsk core ctx a] }.modCore core
        fun c => { c with hostAsk := some (agent, false) })
    match s.probe ctx (packetCmpaddr p) .write declined with
    | .ask a => ask a
    | .bad => some (s.refuse ctx p 14 va)
    | .ok =>
      let dep := if packetDepaddr p = 0 then .ok else s.probe ctx (packetDepaddr p) .read declined
      match dep with
      | .ask a => ask a
      | .bad => some (s.refuse ctx p 15 va)
      | .ok => if (s.admitDies p).isEmpty then some (s.refuse ctx p 16 va) else some (s.admitPacket ctx p)

/-- ADMIT_NEXT: a firmware agent claims the next packet of a host queue with the queue's ticket, copies it, and admits or
refuses it (spec/15 R250). The steps of AdmitNext are one event; while the host is asked for a page, or something holds the way to the
queue (spec/18 R287) or no port reaches it (log 75), the packet stays. The
context's entry is read for the packet that is admitted or refused (R249). -/
def execAdmitNext (core ctx queue : Nat) (s : State) : Host.Outcome State Fault Refusal :=
  eventOn (dieOfCore core) s fun s =>
    let u := s.readCtx ctx
    let e := u.ctxEntry ctx
    if ctx > 15 || !ctxValid e || ctxQcnt e ≤ queue then s
    else
    let barred (a : Attr) (pa : Nat) : Bool := u.cutOff pa || (u.homeHeld core a pa).isSome
    match u.lookup ctx (ctxQtab e + 32 * queue) .read with
    | .error _ => s
    | .ok (q, qa) =>
      if barred qa q then s else
      let base := u.mem.field q 8
      let logn := u.mem.field (q + 8) 1
      match u.lookup ctx (u.mem.field (q + 16) 8) .read, u.lookup ctx (u.mem.field (q + 24) 8) .write with
      | .ok (tail, ta), .ok (tk, a) =>
        if barred ta tail || barred a tk then s else
        let next := u.mem.field tk 8
        let serve := u.mem.field (tk + 8) 8
        if next ≠ serve || u.mem.field tail 8 ≤ next then s
        else
          let va := base + 512 * (next % 2 ^ logn)
          match u.lookup ctx va .read with
          | .error _ => s
          | .ok (pa, pb) =>
            let p : BitVec 4096 := BitVec.ofNat 4096 (u.mem.field pa 512)
            if barred pb pa || u.wordHeld a tk || u.refusalHeld ctx p then s
            else match u.judgePacket core ctx p (BitVec.ofNat 64 va) with
            | none => s
            | some u =>
              if u.nextLaunch = s.nextLaunch && u.outbox.length ≠ s.outbox.length && (u.core core).hostAsk ≠ (s.core core).hostAsk
              then { u with ctxLive := s.ctxLive }
              else
                let u := (u.bumpWord a tk).bumpWord a (tk + 8)
                u.modCore core fun c => { c with hostAsk := match c.hostAsk with
                  | some (k, d) => if k = crewKey core agentSlot then none else some (k, d)
                  | none => none }
      | _, _ => s

/-- DEPENDENCE_RELEASE: a value of the dependence word of a launch satisfies it, or the word is tested: the launch releases its roots,
or is cancelled, as it is when the word does not translate any more, or no port reaches it (spec/15 R253; log 75). -/
def execDependenceRelease (launch : Nat) (s : State) : Host.Outcome State Fault Refusal :=
  event s fun s =>
    let l := s.launch launch
    if l.status ≠ .running || l.released || s.completionHeld l.ctx l.packet then s
    else
      let va := packetDepaddr l.packet
      let cancel (s : State) : State :=
        (s.setCompletion l (packetCmpval l.packet ||| failBit)).closeLaunch launch
      let answered (v : DWord) : State :=
        if v.getLsbD 63 then cancel s else s.modLaunch launch fun l => { l with released := true }
      match l.dep, s.lookup l.ctx va.toNat .read with
      | some v, _ => answered v
      | none, .error (sub, hm) => cancel (s.ringReport l.ctx { transReport sub hm va 7 .read with ctx := l.ctx })
      | none, .ok (pa, a) =>
        if s.cutOff pa then cancel (s.ringReport l.ctx { lostReport 7 va with ctx := l.ctx })
        else if s.wordHeld a pa then s
        else match (s.testDep l).dep with | some v => answered v | none => s

/-! ## Suspension (spec/08 R146) -/

/-- Whether the operations that a crew has issued are complete; a trapped operation stays where it stands (spec/13 R240),
and a ticket's draw has been answered. -/
def Crew.drained (c : Crew) : Bool :=
  c.loads.isEmpty && c.stores.isEmpty && c.cops.isEmpty && (c.tops.all fun t => t.fault.isSome) && !c.drawing

/-- A wait at a service crew is cancelled, or its answer dropped: the crew issues its instruction again (spec/06 R126, R127). A
ticket that is being drawn, or is drawn, is kept. -/
def State.cancelWait (s : State) (key : Nat) : State :=
  let waits : Bool := s.svcs.any fun x => x.2.waiters.any fun w => w.crew = key
  let s := { s with svcs := s.svcs.map fun (x : Nat × Svc) => (x.1, { x.2 with waiters := x.2.waiters.filter fun w => w.crew != key }) }
  s.modCrew key fun c => if waits || c.reply.isSome then { c with wait := none, phase := 0, reply := none } else c

/-- The crews of a task stop at their next issue slot. -/
def State.haltTask (s : State) (t : Task) : State := t.parties.foldl State.haltParty s

/-- The names of the crews of a party that has left its core, in the lists of arrivals. -/
def unplacedKey (num idx : Nat) : Nat := 2 ^ 50 + 16 * num + idx
def Party.rename (p : Party) (k : Nat) : Nat := match p.crews.idxOf? k with | some i => unplacedKey p.number i | none => k
def Party.unplaced (p : Party) : Party :=
  { p with crews := (upto 0 p.crews.length).map (unplacedKey p.number), arrived := p.arrived.map p.rename }
def Task.rename (t : Task) (p : Party) : Task := { t with arrived := t.arrived.map p.rename }

/-- Before a party leaves its core, the dirty bytes of the core go home, and its crews keep the latest completion time, so that a
release of theirs elsewhere covers what they wrote here (spec/05 R98, spec/12 R216, log 72). -/
def State.flushParty (s : State) (pk : Nat) : State :=
  let core := pk / 16
  let p := s.party pk
  let s := match p.crews with
    | k :: _ => s.charge k 3 ((s.dirtyOf core).map fun (x : Nat × L2Line) => x.2.dirtyBytes).sum
    | [] => s
  let r := s.releaseCore core
  p.crews.foldl (fun s k => s.modCrew k fun c => { c with ct := max c.ct r.2 }) r.1

/-- Takes the parties of a task from their cores, each with its crews. -/
def State.saveTask (s : State) (ti : Nat) : State :=
  let t := s.task ti
  let s := t.parties.foldl State.flushParty s
  let saved := t.parties.map fun p => ((s.party p).unplaced, (s.party p).crews.map s.crew)
  (t.parties.foldl State.dropParty s).modTask ti fun t =>
    { t.parties.foldl (fun t p => t.rename (s.party p)) t with saved := saved, parties := [], status := .suspended, joinFrom := none }

/-- JOIN_SUSPEND: a JOIN has waited more than 4,096 core cycles: the task stops, and leaves its slots once its operations
have drained; of one whose children have ended meanwhile each party goes on where it is, but for one that holds a report, which FRET
resumes. -/
def execJoinSuspend (task : Nat) (s : State) : Host.Outcome State Fault Refusal :=
  eventOn (s.task task).die s fun s =>
    let t := s.task task
    match t.joinFrom with
    | none => s
    | some c0 =>
      if t.status ≠ .resident || t.faulted.isSome || !t.away.isEmpty then s
      else if s.childrenDone t then
        let idle := t.parties.filter fun p =>
          (s.party p).stopped && !(s.party p).preempted && (s.party p).crews.all fun k => (s.crew k).report.isNone
        if idle.isEmpty then s else (idle.foldl State.resumeParty s).modTask task fun t => { t with joinFrom := none }
      else if s.clk t.die ≤ c0 + Config.joinCycles then s
      else
        let s :=
          if t.parties.all fun p => (s.party p).stopped then s
          else (s.taskCrews t).foldl State.cancelWait ((t.parties.foldl (fun s p => s.signalWake (p / 16) 7) s).haltTask t)
        if (s.taskCrews t).all (fun (k : Nat) => (s.crew k).drained && (s.crew k).report.isNone) &&
            !(t.parties.any fun p => s.backHeld (p / 16)) then s.saveTask task else s

/-- A crew that was saved with a report has it queued again where it stands now (spec/13 R237, R240). -/
def State.requeue (s : State) (key : Nat) : State :=
  match (s.crew key).report with
  | none => s
  | some r =>
    if (s.core (coreOf key)).reports.any fun y => y.1 = key then s
    else
      (s.modCore (coreOf key) fun x =>
        { x with reports := x.reports ++ [(key, r)]
                 stallers := if r.cause = 0x05 && r.eng = 0 then x.stallers ++ [key] else x.stallers }).signalWake (coreOf key) 6

/-- Puts one saved party back in its room on a core: its crews are bound again, and the barrier arrivals keep their meaning. -/
def State.restoreParty (s : State) (ti core : Nat) (r : Room) (p : Party) (cs : List Crew) (held : Bool) : State :=
  let now (k : Nat) : Option Nat := ((p.crews.zip r.crews).find? fun y => y.1 = k).map (·.2)
  let s := s.setParty r.slot
    { p with crews := r.crews, tileIds := r.tiles, arrived := p.arrived.filterMap now, stopped := held, preempted := false }
  let s := ((r.crews.zip r.bases).zip cs).foldl (fun s y =>
    s.setCrew y.1.1 { y.2 with party := r.slot, rbase := y.1.2, pipe := s.bindPipe core, wait := none, stall := none
                               halted := held || y.2.report.isSome
                               holdUntil := 0, readyAt := s.clk (dieOfCore core) }) s
  let s := s.modTask ti fun t =>
    { t with parties := t.parties ++ [r.slot], arrived := t.arrived.map fun k => (now k).getD k }
  let s := (((s.invalidateL1 core).signalWake core 4).modCore core fun c => c.takeTiles r.tiles).ranOn (s.task ti).launch core
  r.crews.foldl State.requeue s

/-- Puts the parties of a suspended task back on its die; party 0 of a deterministic task goes to its own core (spec/15
R256). -/
def State.restoreAll (s : State) (ti die : Nat) : List (Party × List Crew) → List Nat → Option State
  | [], _ => some s
  | (p, cs) :: rest, used =>
    let cores := match (s.task ti).pin with
      | some c => if p.number = 0 then [c] else dieCores die
      | none => dieCores die
    match s.bestCore (cores.filter fun k => !used.contains k) (p.demand cs) with
    | none => none
    | some k => match s.room k (p.demand cs) with
      | some r => (s.restoreParty ti k r p cs false).restoreAll ti die rest (k :: used)
      | none => none

/-- TASK_RESUME: a suspended task whose children are complete is placed again on its die; a task that a pre-emption has
stopped goes on once all of its parties are resident (log 31). -/
def execTaskResume (task : Nat) (s : State) : Host.Outcome State Fault Refusal :=
  eventOn (s.task task).die s fun s =>
    let t := s.task task
    if t.status = .suspended then
      if !s.childrenDone t then s
      else match s.restoreAll task t.die t.saved [] with
        | some s => s.modTask task fun t => { t with saved := [], status := .resident }
        | none => s
    else if t.status = .resident && t.faulted.isNone && t.away.isEmpty then
      t.parties.foldl (fun s p =>
        if (s.party p).stopped then (s.party p).crews.foldl State.requeue (s.resumeParty p) else s) s
    else s

end Sys2Proof.Machine
end

