-- ==== Sys2Proof/Machine/Faults.lean ====
section
/-! DEFINITION. What the firmware agent does with a report: service, handler tasks, the end of a task, convoy teardown,
machine checks and pre-emption (spec/13 R231-R242). -/
namespace Sys2Proof.Machine

/-! ## The end of a task (spec/13 R237, R238) -/

/-- The report of the first crew of a party that has left its core. -/
def Crew.savedReport (c : Crew) (ctx : Nat) (r : Report) : Report :=
  { r with rg := c.inRegion, ctx := ctx, regc := c.regc, pc := c.pc, epc := if c.inRegion then c.epc else c.pc
           taskf := c.task, ped := c.ped }

/-- Every other party of the convoy has a Convoy stopped report, for the fault ring only; one that is saved, or that CTXSAVE has taken
from its core, too. -/
def State.convoyStopped (s : State) (t : Task) : State :=
  let r : Report := { cause := 0x1E, d1 := BitVec.ofNat 32 t.faultedBy }
  let s := (t.parties.filter fun p => (s.party p).number ≠ t.faultedBy).foldl (fun s pk =>
    let key := (s.party pk).crews.headD 0
    s.ringReport t.ctx (s.fillReport key (s.crew key) r)) s
  ((t.away.map (·.2) ++ t.saved).filter fun x => x.1.number ≠ t.faultedBy).foldl (fun s x =>
    s.ringReport t.ctx ((x.2.headD {}).savedReport t.ctx r)) s

/-- The reports that the crews of a task hold, those of saved ones too, but for those in a handler's hands, which stand in the fault
ring already. -/
def State.taskReports (s : State) (t : Task) : List Report :=
  ((s.taskCrews t).filterMap fun k => (s.crew k).report.filter fun r => !s.tasks.any fun h => h.2.handlerOf = some (k, r)) ++
    ((t.away.map (·.2) ++ t.saved).flatMap (·.2)).filterMap (·.report)

/-- A task is to end with a fault of a party: its crews stop at their next issue slot, the report and every other report of its
crews go to the fault ring, and a task whose handler it is ends with it (spec/13 R236-R238, R242). `kept` says that the report is in
the ring already. -/
def State.doomOne (s : State) (ti party : Nat) (r : Report) (kept : Bool) : State :=
  let t := s.task ti
  if t.faulted.isSome || TaskStatus.beyond t.status then s
  else
    let s := s.modTask ti fun t =>
      { t with faulted := some r, faultedBy := party, status := if t.status = .suspended then .resident else t.status }
    let s := s.haltTask t
    let s := s.modLaunch t.launch fun l => { l with faulted := true }
    let mine (k : Nat) : Bool := t.parties.any fun p => (s.party p).crews.contains k
    let s := ((if kept then [] else [r]) ++ (s.taskReports t).filter fun y => y != r).foldl (fun s r => s.ringReport t.ctx r) s
    { s with cores := s.cores.map fun (c : Nat × Core) =>
        (c.1, { c.2 with reports := c.2.reports.filter fun y => !mine y.1
                         handlers := c.2.handlers.filter fun h => h != ti }) }

def State.doom (s : State) (ti party : Nat) (r : Report) (kept : Bool) : State :=
  let t := s.task ti
  let s := s.doomOne ti party r kept
  match t.handlerOf with
  | some (k, r') => s.doomOne (s.partyOf k).task (s.partyOf k).number r' true
  | none => s

/-- Dooms the task of a crew with the crew's report. -/
def State.doomCrew (s : State) (key : Nat) (r : Report) (kept : Bool) : State :=
  s.doom (s.partyOf key).task (s.partyOf key).number r kept

/-- Whether a crew that is to be removed has nothing left in flight; a load that no walk resolves is dropped. -/
def Crew.finished (c : Crew) : Bool :=
  (c.loads.all fun m => m.done || m.req.isSome) && c.stores.isEmpty && c.cops.isEmpty && c.tops.all fun t => t.fault.isSome

/-- The reports that the crews of a doomed task have raised since: they go to the fault ring too (spec/13 R237). -/
def State.lateReports (s : State) (t : Task) : List Report :=
  t.parties.flatMap fun p =>
    ((s.core (p / 16)).reports.filter fun y => (s.party p).crews.contains y.1).map (·.2)

/-- A doomed task whose operations are complete stops its convoy, loses its crews at once, and is over when its children are (spec/13
R237, R238). -/
def State.finishDoomed (s : State) (ti : Nat) : State :=
  let t := s.task ti
  if t.faulted.isNone || TaskStatus.beyond t.status || !((s.taskCrews t).all fun k => (s.crew k).finished) then s
  else
    let s := (s.lateReports t).foldl (fun s r => s.ringReport t.ctx r) s
    let s := (t.parties.foldl State.dropParty (s.convoyStopped t)).modTask ti fun t =>
      { t with parties := [], away := [], saved := [], status := .resident }
    if s.childrenDone t then s.taskOver ti .failed else s

/-! ## Service of reports (spec/13 R231, R234) -/

/-- What the agent can do with a report: the entry maps the access now, the host may map it, or it is handed on. -/
inductive Service where | mapped | ask | hand
deriving DecidableEq, Repr

/-- What the agent finds for a report: the second walk is judged by what the access needs. -/
def State.service (s : State) (core key : Nat) (r : Report) : Service :=
  if r.cause ≠ 0x05 || r.eng ≠ 0 then .hand
  else
    let declined : Bool := match (s.core core).hostAsk with | some (k, d) => k = key && d | none => false
    match s.pageWalk (s.ctxOf key) r.addr.toNat with
    | .ok e => if (e.denies r.need).isNone then .mapped else .hand
    | .error (sub, hm) => if sub = 0 && hm && !declined then .ask else .hand

/-- Resumes a crew after a service: at its PC, or at its region's entry when its state is not exact. -/
def State.resumeServiced (s : State) (key : Nat) (r : Report) : State :=
  let s := s.modCore (coreOf key) fun x =>
    { x with hostAsk := match x.hostAsk with | some (k, d) => if k = key then none else some (k, d) | none => none }
  if r.pr then s.resumeCrew key .pc r.pc else s.resumeCrew key .region 0

/-- The page that an engine of a crew waits for: absent and host-managed, as its walk has found, or one that a schedule of the crew
could not write (spec/05 R112, spec/26 R345). -/
def State.engineStuck (s : State) (key : Nat) : Option Nat :=
  (((s.die (dieOfCore (coreOf key))).walks.find? fun w => w.crew = engineAsk key && w.failed = some (0, true)).map (·.va)) <|>
    (s.crew key).cops.findSome? fun o => match o.kind, o.why, o.todo with
      | .sched _, some .walk, some ((va, _) :: _) => if o.done then none else some va
      | _, _, _ => none

/-- The agent walks the table again for the engines of its core that have met an absent page, and asks the host, over the Ethernet port
once that is ready, for the first that is still absent (spec/05 R112, spec/13 R231, spec/27 Table 27-1). -/
def State.askForEngine (s : State) (core : Nat) : State :=
  let keys := (s.crews.filter fun x => coreOf x.1 = core && x.2.role.isSome).map (·.1)
  let s := keys.foldl (fun s k => match s.engineStuck k with
    | some va => match s.pageWalk (s.ctxOf k) va with | .ok _ => s.dropWalks (engineAsk k) | .error _ => s
    | none => s) s
  let absent (k : Nat) : Option (Nat × Nat) := (s.engineStuck k).bind fun va => match s.pageWalk (s.ctxOf k) va with
    | .error (0, true) => some (k, va)
    | _ => none
  match (s.core core).hostAsk with
  | some (k, declined) =>
    if declined && engineAsk 0 ≤ k && s.engineStuck (askedFor k) = none then s.endAsk (askedFor k) else s
  | none =>
    match keys.findSome? absent with
    | none => s
    | some (key, va) =>
      if s.asking core || !s.ready.getLsbD 112 then s
      else { s with outbox := s.outbox ++ [HostMsg.pageAsk core (s.ctxOf key) (BitVec.ofNat 64 va)] }.modCore core
        fun x => { x with hostAsk := some (engineAsk key, false) }

/-- The oldest report that the agent of a core has of a user crew; of a privileged agent's own it does nothing, and a task that is to
end is not resumed (spec/13 R238). -/
def State.headReport (s : State) (core : Nat) : Option (Nat × Report) :=
  (s.core core).reports.find? fun y => (s.crew y.1).role.isSome && (s.taskOf y.1).faulted.isNone

/-- FAULT_SERVICE: the agent walks the table again for its oldest report, or asks the host; with no report that it can
serve, it serves the engines of its core (spec/05 R112, spec/13 R231). -/
def execFaultService (core : Nat) (s : State) : Host.Outcome State Fault Refusal :=
  eventOn (dieOfCore core) s fun s =>
    match s.headReport core with
    | none => s.askForEngine core
    | some (key, r) =>
      match s.service core key r with
      | .mapped => s.resumeServiced key r
      | .ask =>
        if (s.core core).hostAsk.isSome || s.asking core || !s.ready.getLsbD 112 then s.askForEngine core
        else { s with outbox := s.outbox ++ [HostMsg.pageAsk core (s.ctxOf key) r.addr] }.modCore core
          fun x => { x with hostAsk := some (key, false) }
      | .hand => s.askForEngine core

/-- Whether a report is handed to the handler of the launch (spec/13 R236). -/
def State.handleable (s : State) (key : Nat) (r : Report) : Bool :=
  let t := s.taskOf key
  packetHv (s.launch t.launch).packet && t.handlerOf.isNone && t.faulted.isNone && r.cause ≠ 0x1E &&
    !(r.cause = 0x1F && 1 ≤ r.sub.toNat && r.sub.toNat ≤ 3)

/-- Places the oldest waiting handler task of a core that fits: there, or on another core of the die (spec/13 R236). -/
def State.placeHandler (s : State) (core : Nat) : State :=
  let place (h : Nat) : Option State :=
    let n := entryNeed (s.shapeOf (s.task h))
    let where_ := if s.fits core n then some core else s.bestCore (dieCores (dieOfCore core)) n
    (where_.bind fun k => s.placeTask true h k).map fun s => s.modCore core fun x => { x with handlers := x.handlers.erase h }
  ((s.core core).handlers.findSome? place).getD s

/-- The handler task of a report that stands in the ring at an address (spec/13 R236, Table 8-1): it continues the faulting
crew's strand, whose entry stays the faulting task's (spec/16 R268). What the host has answered about the fault goes with it, so that the
agent may ask about the handler's own (R231). -/
def State.makeHandler (s : State) (core key : Nat) (r : Report) (va : Nat) : State :=
  let c := s.crew key
  let t := s.taskOf key
  let l := s.launch t.launch
  let e := s.ctxEntry t.ctx
  let base := ctxHeap e + c.task.setWidth 64 * ctxHeapSize e
  let h : Task :=
    { launch := t.launch, root := c.task, ctx := t.ctx, shape := packetHsh l.packet, entry := packetHentry l.packet, ped := c.ped,
      seed := c.seed, args := [BitVec.ofNat 32 va, BitVec.ofNat 32 (va / 2 ^ 32)] ++ (packetArgs l.packet).drop 2,
      arenaBase := base, arenaNext := base, arenaEnd := base + ctxHeapSize e, handlerOf := some (key, r),
      die := dieOfCore core }
  let k := s.nextTask
  ({ s with nextTask := k + 1 }.setTask k h).modCore core fun x =>
    { x with handlers := x.handlers ++ [k], reports := x.reports.filter (fun y => y != (key, r))
             hostAsk := x.hostAsk.filter fun y => y.1 != key }

/-- HANDLER_TASK_START: the oldest report of a core goes to the fault ring and a handler task is made for it; the oldest
handler task that waits is placed (spec/13 R236). A report for which the ring has no room waits; one that cannot be
written ends the task. -/
def execHandlerTaskStart (core : Nat) (s : State) : Host.Outcome State Fault Refusal :=
  eventOn (dieOfCore core) s fun s =>
    let s := match s.headReport core with
      | none => s
      | some (key, r) =>
        if s.service core key r ≠ Service.hand || !s.handleable key r then s
        else match s.ringPut (s.ctxOf key) r with
          | .full => s
          | .impossible => s.doomCrew key r true
          | .wrote s va => s.makeHandler core key r va
    s.placeHandler core

/-- HANDLER_PLACE_TIMEOUT: a handler task has not been placed 10^9 ticks after its report; the faulting task ends (spec/13
R236). -/
def execHandlerPlaceTimeout (core : Nat) (s : State) : Host.Outcome State Fault Refusal :=
  eventOn (dieOfCore core) s fun s =>
    let late (r : Report) : Bool := r.tick + Config.handlerLimit ≤ s.meridian
    let waits := (s.core core).handlers.findSome? fun h => ((s.task h).handlerOf.filter fun y => late y.2).map fun y => (h, y)
    match waits with
    | some (h, key, r) =>
      let s := { s with tasks := Tbl.del s.tasks h }.modCore core fun x => { x with handlers := x.handlers.erase h }
      s.doomCrew key r true
    | none => match s.headReport core with
      | some (key, r) =>
        if s.service core key r = Service.hand && s.handleable key r && late r then s.doomCrew key r false else s
      | none => s

/-- FRET's checks (spec/10 R193, spec/13 R234): whether a resumption of a crew is refused. -/
def Crew.refuses (c : Crew) (how : FretHow) (pc : DWord) : Bool :=
  match c.report with
  | none => true
  | some r => match how with
    | .pc => pc = c.pc + 12 && !r.pr
    | .retry => !r.pr
    | .region => !r.rg
    | .endTask => false

/-- A byte of memory as an agent of a die reads it: dirty in the die's L2, or at home (spec/12 R207). -/
def State.agentByte (s : State) (die pa : Nat) : Byte :=
  let x := s.l2 die (lineOf pa)
  if x.dirtyMask.getLsbD (pa % 128) then lineByte x.dirty (pa % 128) else s.mem.read pa

/-- Whether an agent's read of a byte that its die does not hold has to wait. -/
def State.verdictHeld (s : State) (die : Nat) (a : Attr) (pa : Nat) : Bool :=
  !(s.l2 die (lineOf pa)).dirtyMask.getLsbD (pa % 128) && (s.homeHeld (16 * die) a pa).isSome

/-- HANDLER_VERDICT: the handler task has completed; the agent acts on its VERDICT byte, which it reads once nothing holds the way to its
home (spec/13 R236, spec/18 R287). Of a crew that has left its slot, or whose task is to end, nothing is resumed (R238). -/
def execHandlerVerdict (task : Nat) (s : State) : Host.Outcome State Fault Refusal :=
  eventOn (s.task task).die s fun s =>
    let h := s.task task
    match h.handlerOf with
    | none => s
    | some (key, r) =>
      if h.status ≠ .complete then s
      else
        let c := s.crew key
        let va := (h.args.getD 0 0).toNat + (h.args.getD 1 0).toNat * 2 ^ 32
        let place := s.lookup h.ctx (va + verdictOfs) .read
        let v := match place with
          | .ok (pa, _) => if s.cutOff pa then 0xFF else (s.agentByte h.die pa).toNat
          | .error _ => 0xFF
        if match place with | .ok (pa, a) => s.verdictHeld h.die a pa | .error _ => false then s
        else
        let s := { s with tasks := Tbl.del s.tasks task }
        if (s.partyOf key).task = noTask || c.report ≠ some r || (s.taskOf key).faulted.isSome then s
        else
          let go (how : FretHow) (pc : DWord) : State :=
            if c.refuses how pc then s.doomCrew key r true else s.resumeCrew key how pc
          match v with
          | 0 => go .pc (c.pc + 12)
          | 1 => go .retry 0
          | 2 => go .region 0
          | _ => s.doomCrew key r true

/-- TASK_FAULT_END: a task whose report nobody handles ends with its fault; tasks of the core that are ending lose their
crews once their operations are complete (spec/13 R237, R238). -/
def execTaskFaultEnd (core : Nat) (s : State) : Host.Outcome State Fault Refusal :=
  eventOn (dieOfCore core) s fun s =>
    let s := match s.headReport core with
      | none => s
      | some (key, r) =>
        if s.service core key r = Service.hand && !s.handleable key r then s.doomCrew key r false else s
    let mine := s.tasks.filter fun t => t.2.faulted.isSome && (t.2.parties.isEmpty || t.2.parties.any fun p => p / 16 = core)
    mine.foldl (fun s t => s.finishDoomed t.1) s

/-- HOST_PAGE_REPLY: the host has mapped the page, and the crew resumes once it is mapped, or the engine walks again; or it
declines, and the fault is handed on (spec/13 R231). -/
def State.pageReply (s : State) (core : Nat) (granted : Bool) : State :=
  match (s.core core).hostAsk with
  | some (key, false) =>
    if !granted then s.modCore core fun x => { x with hostAsk := some (key, true) }
    else
      let s := s.modCore core fun x => { x with hostAsk := none }
      match (s.core core).reports.find? fun y => y.1 = key with
      | some (_, r) => if s.service core key r = Service.mapped then s.resumeServiced key r else s
      | none => s.dropWalks key
  | _ => s

/-! ## Machine checks (spec/13 R239, spec/27 R364) -/

/-- The codes of the log's events: the spec names none (DESIGN CHOICE, log 33). -/
def logSpare (bit : Nat) : Nat := 256 + bit
def logRetire (bit : Nat) : Nat := 512 + bit
def logCorrect (place : Nat) : Nat := 1024 + place

/-- Corrections of HBM stacks and Essia links: each is counted under its place's telemetry index and logged with its tick, which lies
between the log's last entry and now (spec/27 R365). -/
def corrections (now : Nat) : Nat → Nat → List (Nat × Nat) × Sparse 64 → List (Nat × Nat) × Sparse 64
  | 0, _, x => x
  | n + 1, ix, (log, tel) =>
    let w := (Config.freeBits ix).toNat
    let i := 1056 + w % 12
    let last := (log.getLast?.map (·.1)).getD 0
    corrections now n (ix + 1)
      (log ++ [(last + w / 16 % (now - last + 1), logCorrect (i - 988))], Sparse.set tel i (Sparse.get tel i + 1))

/-- The corrections that have come since the last look: how many, where and when are free values (log 62). -/
def State.corrected (s : State) : State :=
  let n := (Config.freeBits s.freeIx).toNat
  let x := corrections s.meridian n (s.freeIx + 1) (s.elog, s.telemetry)
  { s with elog := x.1, telemetry := x.2, freeIx := s.freeIx + 1 + n }

/-- An entry of the error log ring, after the corrections that came before it (spec/27 R365). -/
def State.logError (s : State) (event : Nat) : State :=
  let s := s.corrected
  { s with elog := s.elog ++ [(s.meridian, event)] }

/-- A root that waits for its place, and has not started: it is its launch's again. -/
def State.unpark (s : State) (die : Nat) : State :=
  match (s.die die).waiting with
  | none => s
  | some w =>
    let t := s.task w
    if t.parent.isSome || t.handlerOf.isSome then s
    else
      let s := { s with tasks := Tbl.del s.tasks w, pedTable := s.pedTable.filter fun e => e.2.owner != some w }
      (s.modDie die fun x => { x with waiting := none }).modLaunch t.launch fun l =>
        match t.pin with
        | some c => { l with started := Tbl.set l.started c ((Tbl.get? l.started c).getD 0 - 1) }
        | none => { l with back := l.back ++ [t.root.toNat] }

/-- The roots of a deterministic launch that a core has not started. -/
def Launch.detLeft (l : Launch) (core : Nat) : List Nat :=
  let n := 16 * (launchMask l).length
  match detIndex (launchMask l) core with
  | none => []
  | some i =>
    let first := i + n * (Tbl.get? l.started core).getD 0
    (upto 0 ((packetRoots l.packet + n - 1 - first) / n)).map fun k => first + n * k

/-- A deterministic launch whose die leaves the ready map: the roots that the die's cores have not started are Compass's again, and a
gang that has not started is none (spec/15 R254, spec/27 R361, log 71). -/
def State.returnDet (s : State) (die li : Nat) : State :=
  let l := s.launch li
  if l.status ≠ .running || !l.det || l.gangStarted || !l.dies.testBit die then s
  else
    let s := s.modLaunch li fun l => (dieCores die).foldl (fun l core =>
      let ts := l.detLeft core
      { l with back := l.back ++ ts, started := Tbl.set l.started core ((Tbl.get? l.started core).getD 0 + ts.length) })
      { l with gang := false }
    { s with cores := s.cores.map fun (c : Nat × Core) => match c.2.reserved with
        | some (k, _) => if k = li then (c.1, { c.2 with reserved := none }) else c
        | none => c }

/-- A die that leaves the ready map returns its unstarted roots to Compass (spec/15 R254). -/
def State.returnRoots (s : State) (die : Nat) : State :=
  let s := s.unpark die
  let rs := (s.die die).roots
  let s := (rs.foldl (fun s r => s.modLaunch r.1 fun l => { l with back := l.back ++ [r.2] }) s).modDie die fun x => { x with roots := [] }
  (s.launches.map (·.1)).foldl (fun s li => s.returnDet die li) s

/-- Clears a ready bit, which is never set again; a die without a ready core, or without its Essia link, is not ready (spec/27 R360,
Table 27-1, R361). -/
def State.clearReady (s : State) (bit : Nat) : State :=
  let clear (s : State) (bit : Nat) : State :=
    { s with ready := s.ready &&& ~~~(BitVec.shiftLeft 1 bit), retiredBits := s.retiredBits ||| BitVec.shiftLeft 1 bit }
  let s := clear s bit
  let die := if bit < 64 then bit / 16 else if 64 ≤ bit && bit < 68 then bit - 64 else if 76 ≤ bit && bit < 80 then bit - 76 else 4
  if die > 3 then s
  else if (bit < 64 && (dieCores die).any fun k => s.ready.getLsbD k) then s
  else (if s.dieReady die then clear s (64 + die) else s).returnRoots die

/-- The amplitude commands of a crew that is lost are over (spec/10 R186). -/
def State.dropAmps (s : State) (key : Nat) : State :=
  (s.crew key).cops.foldl (fun s o => match o.kind with
    | .amp slot _ nth _ _ _ _ => if o.done || o.applied then s else s.ampOver (dieOfCore (coreOf key)) (s.ctxOf key) slot nth
    | _ => s) s

/-- Every task with a party on a core ends with a machine check; the parties on it stop with what they had in flight
(spec/13 R239). -/
def State.coreTasksEnd (s : State) (core : Nat) (sub : BitVec 8) : State :=
  let ps := s.parties.filter fun p => p.1 / 16 = core && p.1 < agentParty 0
  ps.foldl (fun s p =>
    let key := p.2.crews.headD 0
    let r := s.fillReport key (s.crew key) { cause := 0x1F, sub := sub }
    let s := s.doom p.2.task p.2.number r false
    let s := p.2.crews.foldl (fun s k => (s.dropAmps k).modCrew k fun c => { c with loads := [], stores := [], cops := [], tops := [] }) s
    s.finishDoomed p.2.task) s

/-- CORE_FAILURE: a core fails, or its agent faults: its tasks end, and the die's spare takes its number, or the core is
retired (spec/13 R239, spec/27 R364). -/
def execCoreFailure (core : Nat) (s : State) : Host.Outcome State Fault Refusal :=
  event s fun s =>
    let agentFault : Bool := ([agentSlot, 63].map fun n => crewKey core n).any fun k => isAgentKey k && (s.crew k).report.isSome
    let s := s.coreTasksEnd core (if agentFault then 3 else 1)
    let gone (k : Nat) : Bool := coreOf k = core && isAgentKey k
    let s := { s with crews := s.crews.filter fun x => !gone x.1
                      svcs := s.svcs.map fun (x : Nat × Svc) => (x.1,
                        { x.2 with waiters := x.2.waiters.filter fun w => !gone w.crew
                                   queue := x.2.queue.map fun (p : Packet) => if gone p.crew then { p with live := false } else p
                                   replies := x.2.replies.filter fun y => !gone y.packet.crew })
                      cur := match s.cur with | some k => if coreOf k = core then none else some k | none => none }
    let s := s.modCore core fun x =>
      { x with l1 := [], icache := [], tlb := [], groups := [], wake := 0, fw := {}, sc := {}, source := none, gated := false }
    let d := dieOfCore core
    if (s.die d).spareUsed then
      ((s.modCore core fun x => { x with retired := true }).clearReady core).logError (logRetire core)
    else (s.modDie d fun x => { x with spareUsed := true }).logError (logSpare core)

/-! ## Pre-emption (spec/13 R240) -/

/-- A crew that a fault stall finds is saved at its region's entry, or at its PC, and its report is discarded. -/
def State.discardStall (s : State) (key : Nat) : State :=
  if !(s.core (coreOf key)).stallers.contains key then s
  else
    let s := s.modCrew key fun c =>
      let rg : Bool := (c.report.map (·.rg)).getD false
      { c with report := none, phase := 0, reply := none,
               pc := if rg then c.epc else c.pc, dix := if rg then c.epcDix else c.dix, inRegion := c.inRegion && rg }
    let s := (s.dropWalks key).modCore (coreOf key) fun x =>
      { x with stallers := x.stallers.filter fun y => y != key, reports := x.reports.filter fun y => y.1 != key,
               hostAsk := match x.hostAsk with | some (k, d) => if k = key then none else some (k, d) | none => none }
    s.stallOver (coreOf key)

/-- PREEMPT_REQUEST: the party stops at its next issue slot; its waits at service crews are cancelled, its core's open
groups are ready at once, and its operations drain (spec/13 R240, spec/22 R318). CTXSAVE then saves it. -/
def execPreemptRequest (party : Nat) (s : State) : Host.Outcome State Fault Refusal :=
  eventOn (dieOfCore (party / 16)) s fun s =>
    match Tbl.get? s.parties party with
    | none => s
    | some p =>
      let core := party / 16
      let s := (s.haltParty party).signalWake core 7
      let s := s.modParty party fun p => { p with preempted := true }
      let s := p.crews.foldl (fun s k => (s.discardStall k).cancelWait k) s
      s.modCore core fun x => { x with groups := x.groups.map fun (g : Group) => { g with ready := true } }

end Sys2Proof.Machine
end

