-- ==== Sys2Proof/Machine/Priv.lean ====
section
/-! DEFINITION. MAJ 0xC0 to 0xC3: the privileged instructions, but for the services of FWCALL (spec/10 R191-R195, spec/13
R240, R241). -/
namespace Sys2Proof.Machine

/-- Writes a 32-bit uniform result: a status code of Table 10-5, or a wake code. -/
def State.status (s : State) (key : Nat) (f : Ctl) (d : Operand) (code : Nat) : State :=
  s.modCrew key fun c => c.writeDst false d (c.effLanes f) fun _ => BitVec.ofNat 64 code

/-- A physical address: bits [63:60] are zero (spec/13 R225). -/
def physOk (pa align n : Nat) : Bool := pa % align = 0 && pa + n ≤ 2 ^ 60

/-! ## The party save area, Table 13-4 (spec/13 R241) -/

def pageUp (n : Nat) : Nat := (n + 4095) / 4096 * 4096

/-- Offsets of the sections of an area: crew blocks, registers, scratchpad, weight store, accumulator, and its end. -/
structure AreaMap where
  crews : Nat
  regs : Nat
  scratch : Nat
  weight : Nat
  acc : Nat
  total : Nat
deriving DecidableEq, Repr

def regBytes (lanes regs : Nat) : Nat := lanes / 32 * regs * 128 + 256 + 896

def areaMap (shapes : List (Nat × Nat)) (scratch weight tiles : Nat) : AreaMap :=
  let regs := 4096 + 8192 * shapes.length
  let scr := regs + pageUp (shapes.foldl (fun n x => n + regBytes x.1 x.2) 0)
  let wst := scr + pageUp scratch
  let acc := wst + pageUp weight
  { crews := 4096, regs := regs, scratch := scr, weight := wst, acc := acc, total := acc + 131072 * tiles }

def roleCode (r : Option Role) : Nat := match r with | some .copy => 0 | some .tile => 1 | _ => 2

/-- The party's shape entry, its low 64 bits (Table 15-3). -/
def Party.shapeWord (p : Party) (convoy : Nat) : Nat :=
  (convoy - 1) + (p.crews.length - 1) * 2 ^ 3 + p.tiles * 2 ^ 7 + p.scratchLen / 128 * 2 ^ 16 + p.weightLen / 128 * 2 ^ 32

/-- A ring's 208 bytes: N, the indices with their lap bits, and three bytes for each slot (DESIGN CHOICE, log 30). -/
def slotCode : SlotState → Nat | .free => 0 | .held => 1 | .pend => 2 | .full => 3 | .taken => 4
def slotOf? : Nat → SlotState | 1 => .held | 2 => .pend | 3 => .full | 4 => .taken | _ => .free
def Ring.fields (g : Ring) (base : Nat) : List Field :=
  [(base, 1, g.slots.length), (base + 1, 1, g.prod), (base + 2, 1, g.cons),
   (base + 3, 1, (boolWord g.pl).toNat + 2 * (boolWord g.cl).toNat)] ++
    (g.slots.zip (upto 0 g.slots.length)).map fun x =>
      (base + 8 + x.2, 1, slotCode x.1.st + 8 * (boolWord x.1.f).toNat + 16 * (boolWord x.1.e).toNat)

/-- A barrier object's 8 bytes: EXPECT, PENDING and PHASE (DESIGN CHOICE, log 30). -/
def Barrier.word (b : Barrier) : Nat := b.expect + b.pending * 2 ^ 8 + (boolWord b.phase).toNat * 2 ^ 16

/-- The header of an area. The unlisted bytes from 3,840 on name the task and the party number (DESIGN CHOICE,
log 30). -/
def Party.headerFields (p : Party) (cs : List Crew) (convoy : Nat) : List Field :=
  [(0, 4, 1), (4, 4, p.ctx), (8, 8, p.shapeWord convoy), (3840, 8, p.task), (3848, 8, p.number)] ++
    ((cs.zip (upto 0 cs.length)).flatMap fun x =>
      [(64 + 12 * x.2, 4, roleCode x.1.role), (68 + 12 * x.2, 4, x.1.lanes), (72 + 12 * x.2, 4, x.1.regc)]) ++
    (p.shapes.map fun x => (1024 + 64 * x.1, 64, x.2.toNat)) ++
    (p.bars.map fun x => (2048 + 8 * x.1, 8, x.2.word)) ++
    p.rings.flatMap fun x => x.2.fields (2176 + 208 * x.1)

def StackEntry.fields (e : StackEntry) (base : Nat) : List Field :=
  match e with
  | .join rpc m dv fm => [(base, 8, rpc.toNat), (base + 8, 4, fm.toNat), (base + 12, 4, 1 + 2 * (boolWord dv).toNat), (base + 16, 128, m.toNat)]
  | .pending pc m fm => [(base, 8, pc.toNat), (base + 8, 4, fm.toNat), (base + 12, 4, 0), (base + 16, 128, m.toNat)]

/-- One crew's block; the stack's oldest entry comes first (DESIGN CHOICE, log 30). -/
def Crew.blockFields (c : Crew) (base : Nat) : List Field :=
  let r := c.report.getD { cause := 0, pr := false, rg := c.restart, verdict := 0 }
  let flags := (boolWord r.rg).toNat + 2 * (boolWord r.pr).toNat + 4 * (boolWord c.inRegion).toNat + 8 * (c.runPos % 32) +
    256 * (boolWord c.ticket.isSome).toNat + 512 * (boolWord c.tlink.isSome).toNat + 1024 * (boolWord c.report.isSome).toNat
  let link := match c.tlink with | some (id, n) => id + n * 16 | none => 0
  let st := c.stack.reverse
  [(base, 8, c.pc.toNat), (base + 8, 8, c.epc.toNat), (base + 16, 8, c.dix.toNat + (boolWord c.wrapped).toNat * 2 ^ 63),
   (base + 24, 8, c.ct), (base + 32, 4, c.fmt.toNat), (base + 36, 4, flags),
   (base + 40, 1, c.loads.length), (base + 41, 1, c.stores.length), (base + 42, 1, c.cops.length), (base + 43, 1, c.tops.length),
   (base + 44, 4, link), (base + 48, 8, (c.ticket.getD 0).toNat), (base + 56, 4, st.length), (base + 64, 64, c.ped.toNat),
   (base + 128, 128, c.mask.toNat), (base + 256, 128, c.live.toNat)] ++
    (match c.report with | some r => r.fields.map fun x => (base + 384 + x.1, x.2) | none => []) ++
    (st.zip (upto 0 st.length)).flatMap fun x => x.1.fields (base + 576 + 144 * x.2)

/-- The registers of a crew: lane registers in units of 32 lanes, slice by slice, then s registers, then p0 to p6. -/
def Crew.regFields (c : Crew) (base : Nat) : List Field :=
  let vs := c.lanes / 32 * c.regc * 128
  (c.vregs.map fun x =>
    let reg := x.1 / 1024
    let lane := x.1 % 1024
    (base + ((lane / 32 * c.regc + reg) * 32 + lane % 32) * 4, 4, x.2.toNat)) ++
    (c.sregs.map fun x => (base + vs + 4 * x.1, 4, x.2.toNat)) ++
    c.preds.map fun x => (base + vs + 256 + 128 * x.1, 128, x.2.toNat)

def Party.tileFields (p : Party) (base : Nat) : List Field := p.acc.map fun x => (base + 8 * x.1, 8, x.2.toNat)

def shapesOf (cs : List Crew) : List (Nat × Nat) := cs.map fun c => (c.lanes, c.regc)

/-- Where each crew's registers begin. -/
def regBases : Nat → List (Nat × Nat) → List Nat
  | _, [] => []
  | b, x :: rest => b :: regBases (b + regBytes x.1 x.2) rest

def Party.areaFields (p : Party) (cs : List Crew) (convoy : Nat) : List Field :=
  let m := areaMap (shapesOf cs) p.scratchLen p.weightLen p.tiles
  p.headerFields cs convoy ++
    ((cs.zip (upto 0 cs.length)).flatMap fun x => x.1.blockFields (m.crews + 8192 * x.2)) ++
    ((cs.zip (regBases m.regs (shapesOf cs))).flatMap fun x => x.1.regFields x.2) ++
    (p.scratch.map fun x => (m.scratch + x.1, 1, x.2.toNat)) ++ (p.weight.map fun x => (m.weight + x.1, 1, x.2.toNat)) ++
    p.tileFields m.acc

/-- The bytes of the area of a resident party. -/
def State.areaBytes (s : State) (pk : Nat) : Nat :=
  let p := s.party pk
  (areaMap (shapesOf (p.crews.map s.crew)) p.scratchLen p.weightLen p.tiles).total

/-- What holds an agent's way to the homes of an area, whose pages are interleaved over the dies (spec/18 R287, spec/27 R364). -/
def State.areaHeld (s : State) (core pa n : Nat) : Option Nat :=
  (upto 0 (min 4 (pageUp n / 4096))).findSome? fun i => s.homeHeld core .agent (pa + 4096 * i)

/-- CTXSAVE's effect: the party's dirty bytes go home, the area is written and the party leaves its slot (log 30). What Table 13-4 does
not list, its task keeps for it. -/
def State.saveParty (s : State) (pk pa : Nat) : State :=
  let s := s.flushParty pk
  let p := s.party pk
  let cs := p.crews.map s.crew
  let t := s.task p.task
  let m := areaMap (shapesOf cs) p.scratchLen p.weightLen p.tiles
  let s := { s with mem := (s.mem.clear pa m.total).putFields pa (p.areaFields cs (t.parties.length + t.away.length)) }.clearBad pa m.total
  (s.dropParty pk).modTask p.task fun t =>
    { t.rename p with away := Tbl.set t.away p.number (p.unplaced, cs), parties := t.parties.filter fun k => k != pk }

/-- CTXSAVE (spec/10 R192). -/
def execCtxsave (f : Ctl) (d a b : Operand) (s : State) : Host.Outcome State Fault Refusal :=
  once (.ctxsave f d a b) f s fun s key c =>
    let slot := s.operandNat key c false a 0
    let pa := (s.uni key c true b).toNat
    let pk := 16 * coreOf key + slot
    if slot > 15 || !physOk pa 4096 4096 || !s.exists? pa then .done (s.status key f d 2)
    else match Tbl.get? s.parties pk with
      | none => .done (s.status key f d 1)
      | some p =>
        if !p.stopped then .done (s.status key f d 1)
        else if s.cutOff pa then .done (s.status key f d 4)
        else if !p.crews.all fun k => (s.crew k).drained then .wait .privileged s
        else held? s key (s.backHeldBy (coreOf key) <|> s.areaHeld (coreOf key) pa (s.areaBytes pk)) (.done ((s.saveParty pk pa).status key f d 0))

/-! ## Reading an area -/

/-- A ring of an area; who waits at it, and in which order, its task has kept (spec/08 R158, log 30). -/
def loadRing (m : Memory) (a : Nat) (old : Option Ring) : Ring :=
  let n := m.field a 1
  let laps := m.field (a + 3) 1
  { slots := (upto 0 n).map fun i =>
      let x := m.field (a + 8 + i) 1
      { f := x.testBit 3, e := x.testBit 4, st := slotOf? (x % 8) }
    prod := m.field (a + 1) 1, pl := laps.testBit 0, cons := m.field (a + 2) 1, cl := laps.testBit 1
    prodQ := (old.map (·.prodQ)).getD [], consQ := (old.map (·.consQ)).getD [] }

def loadStack (m : Memory) (a : Nat) : StackEntry :=
  let k := m.field (a + 12) 4
  let pc : DWord := BitVec.ofNat 64 (m.field a 8)
  let fm : Word := BitVec.ofNat 32 (m.field (a + 8) 4)
  let mask : Mask := BitVec.ofNat 1024 (m.field (a + 16) 128)
  if k.testBit 0 then .join pc mask (k.testBit 1) fm else .pending pc mask fm

/-- Words of a section, from its bytes that are not zero: (index, value) pairs in rising order. -/
def gatherWords (n w : Nat) (cells : List (Nat × Byte)) : List (Nat × BitVec w) :=
  cells.foldl (fun t x => Sparse.set t (x.1 / n) (Sparse.get t (x.1 / n) ||| BitVec.ofNat w (x.2.toNat * 2 ^ (8 * (x.1 % n))))) []

/-- The crews of an area: role, lanes and registers. -/
def areaCrews (m : Memory) (a : Nat) : List (Role × Nat × Nat) :=
  (upto 0 (m.field (a + 8) 8 / 2 ^ 3 % 16 + 1)).map fun i =>
    (roleOf (m.field (a + 64 + 12 * i) 4), m.field (a + 68 + 12 * i) 4, m.field (a + 72 + 12 * i) 4)

/-- A party that no CTXSAVE of its task has left: what its area does not list is as at its start (log 30). -/
def Task.freshParty (t : Task) (ti num : Nat) : Party := { task := ti, number := num, ctx := t.ctx }
def Task.freshCrew (t : Task) (num idx : Nat) : Crew := t.crewStart num idx 0 0 0 0 .vec 32 1

/-- A crew's block and registers read back over what its task kept. -/
def Crew.ofArea (c : Crew) (m : Memory) (a regs : Nat) : Crew :=
  let flags := m.field (a + 36) 4
  let w := m.field (a + 16) 8
  let link := m.field (a + 44) 4
  let vs := c.lanes / 32 * c.regc * 128
  let rep := Report.ofImage m (a + 384)
  let units := gatherWords 4 32 (m.cells regs vs)
  { c with
    pc := BitVec.ofNat 64 (m.field a 8), epc := BitVec.ofNat 64 (m.field (a + 8) 8), dix := BitVec.ofNat 40 w
    wrapped := w.testBit 63, ct := m.field (a + 24) 8, fmt := BitVec.ofNat 32 (m.field (a + 32) 4)
    inRegion := flags.testBit 2, runPos := flags / 8 % 32
    ticket := if flags.testBit 8 then some (BitVec.ofNat 64 (m.field (a + 48) 8)) else none
    tlink := if flags.testBit 9 then some (link % 16, link / 16 % 128) else none
    restart := flags.testBit 0 && !flags.testBit 10
    report := if flags.testBit 10 then some { rep with rg := flags.testBit 0, pr := flags.testBit 1, tick := (c.report.map (·.tick)).getD 0 } else none
    stack := ((upto 0 (m.field (a + 56) 4)).map fun i => loadStack m (a + 576 + 144 * i)).reverse
    ped := BitVec.ofNat 512 (m.field (a + 64) 64), mask := BitVec.ofNat 1024 (m.field (a + 128) 128)
    live := BitVec.ofNat 1024 (m.field (a + 256) 128)
    vregs := units.foldl (fun t x =>
      let unit := x.1 / 32
      Sparse.set t (1024 * (unit % c.regc) + 32 * (unit / c.regc) + x.1 % 32) x.2) []
    sregs := gatherWords 4 32 (m.cells (regs + vs) 256), preds := gatherWords 128 1024 (m.cells (regs + vs + 256) 896) }

/-- The header and the stores of an area, read back over what its task kept. -/
def Party.ofArea (p : Party) (m : Memory) (a : Nat) (at_ : AreaMap) (scratch weight tiles : Nat) : Party :=
  { p with
    scratchLen := scratch, weightLen := weight, tiles := tiles
    shapes := (upto 0 16).filterMap fun i =>
      let r : BitVec 512 := BitVec.ofNat 512 (m.field (a + 1024 + 64 * i) 64)
      if r = 0 then none else some (i, r)
    bars := (upto 0 16).filterMap fun i =>
      let w := m.field (a + 2048 + 8 * i) 8
      if w % 2 ^ 8 = 0 then none else some (i, { expect := w % 2 ^ 8, pending := w / 2 ^ 8 % 2 ^ 8, phase := w.testBit 16 })
    rings := (upto 0 8).filterMap fun i =>
      if m.field (a + 2176 + 208 * i) 1 = 0 then none else some (i, loadRing m (a + 2176 + 208 * i) (Tbl.get? p.rings i))
    scratch := m.cells (a + at_.scratch) scratch, weight := m.cells (a + at_.weight) weight
    acc := gatherWords 8 64 (m.cells (a + at_.acc) (131072 * tiles)) }

/-- CTXLOAD (spec/10 R192): the area is loaded into a free slot, and the party is left stopped. Its task and number are the
area's (log 30); a party that is resident, or of a task that has none such, is out of range. -/
def execCtxload (f : Ctl) (d a b : Operand) (s : State) : Host.Outcome State Fault Refusal :=
  once (.ctxload f d a b) f s fun s key c =>
    let core := coreOf key
    let slot := s.operandNat key c false a 0
    let pa := (s.uni key c true b).toNat
    let pk := 16 * core + slot
    let field (o n : Nat) : Nat := s.mem.field (pa + o) n
    let ti := field 3840 8
    let num := field 3848 8
    let t := s.task ti
    let shape := field 8 8
    let crews := areaCrews s.mem pa
    let scratch := shape / 2 ^ 16 % 2 ^ 16 * 128
    let weight := shape / 2 ^ 32 % 2 ^ 16 * 128
    let tiles := shape / 2 ^ 7 % 64
    if slot > 15 || !physOk pa 4096 4096 || !s.exists? pa then .done (s.status key f d 2)
    else if (Tbl.get? s.parties pk).isSome then .done (s.status key f d 1)
    else if s.cutOff pa then .done (s.status key f d 4)
    else if field 0 4 ≠ 1 || t.status ≠ .resident || t.faulted.isSome || field 4 4 ≠ t.ctx || shape % 2 ^ 3 < num ||
        (s.partyNumbered ti num).isSome then .done (s.status key f d 2)
    else
      let m := areaMap (crews.map (·.2)) scratch weight tiles
      if s.unreadable pa m.total then .done (s.status key f d 4)
      else held? s key (s.areaHeld core pa m.total) <|
        let kept := Tbl.get? t.away num
        let base (i : Nat) : Crew := ((kept.map (·.2)).bind fun l => l[i]?).getD (t.freshCrew num i)
        let cs := ((crews.zip (regBases m.regs (crews.map (·.2)))).zip (upto 0 crews.length)).map fun x =>
          let c := base x.2
          Crew.ofArea { c with role := some x.1.1.1, lanes := x.1.1.2.1, regc := x.1.1.2.2 } s.mem
            (pa + m.crews + 8192 * x.2) (pa + x.1.2)
        let p := ((kept.map (·.1)).getD (t.freshParty ti num)).ofArea s.mem pa m scratch weight tiles
        match s.roomAt core pk (p.demand cs) with
        | none => .done (s.status key f d 5)
        | some r =>
          .done (((s.restoreParty ti core r p cs true).modTask ti fun t => { t with away := Tbl.del t.away num }).status key f d 0)

/-! ## TLBINV -/

/-- TLBINV (spec/10 R192): it ends when the entries are gone and no walk runs that could refill them. -/
def execTlbinv (f : Ctl) (d a b : Operand) (sc : TlbScope) (kind : TlbKind) (s : State) : Host.Outcome State Fault Refusal :=
  once (.tlbinv f d a b sc kind) f s fun s key c =>
    let core := coreOf key
    let ctx := s.operandNat key c false a 0
    let va := (s.uni key c true b).toNat
    if sc = TlbScope.bad || kind = TlbKind.bad || (kind ≠ TlbKind.all && ctx > 15) then .done (s.status key f d 2)
    else held? s key (if sc = TlbScope.pkg then (upto 0 4).findSome? (s.wayHeld core) else none) <|
      let entry (e : TlbEntry) : Bool := match kind with
        | .ctx => e.ctx = ctx | .page => e.covers ctx va | _ => true
      let refills (w : Walk) : Bool := granule w.va = granule va || match s.pageWalk ctx w.va with
        | .ok e => e.covers ctx va
        | .error _ => false
      let walk (w : Walk) : Bool := w.failed.isNone && match kind with
        | .ctx => w.ctx = ctx | .page => w.ctx = ctx && refills w | _ => true
      let cores := s.cores.map fun (x : Nat × Core) =>
        let hit : Bool := match sc with | .core => x.1 = core | .die => x.1 / 16 = core / 16 | _ => true
        if hit then (x.1, { x.2 with tlb := x.2.tlb.filter fun e => !entry e }) else x
      let dies := s.dies.map fun (x : Nat × Die) =>
        let hit : Bool := match sc with | .core => false | .die => x.1 = core / 16 | _ => true
        if hit then (x.1, { x.2 with tlb := x.2.tlb.filter fun e => !entry e }) else x
      let s := { s with cores := cores, dies := dies }
      let busy := s.dies.any fun x => x.2.walks.any fun w => walk w && match sc with
        | .core => w.cores.contains core | .die => x.1 = core / 16 | _ => true
      if busy then .wait .privileged s else .done (s.status key f d 0)

/-! ## FRET -/

/-- FRET (spec/10 R193): the return from a fault or trap. With HOW 3 the task ends with its fault; a service crew, which slot 63
may be, has no task to end, and a crew of a task that is to end issues no more (spec/13 R238). -/
def execFret (f : Ctl) (d a b : Operand) (how : FretHow) (s : State) : Host.Outcome State Fault Refusal :=
  once (.fret f d a b how) f s fun s key c =>
    let slot := s.operandNat key c false a 0
    let pc := s.uni key c true b
    let k := crewKey (coreOf key) slot
    if slot > 63 then .done (s.status key f d 2)
    else if (s.crew k).report.isNone || ((s.crew k).role.isNone && how = FretHow.endTask) ||
        ((s.taskOf k).faulted.isSome && how ≠ FretHow.endTask) then .done (s.status key f d 1)
    else if how = FretHow.pc && pc.toNat % 4 ≠ 0 then .done (s.status key f d 2)
    else if (s.crew k).refuses how pc then .done (s.status key f d 1)
    else if how = FretHow.endTask then
      let r := (s.crew k).report.getD { cause := 0 }
      .done ((s.doomCrew k r (s.tasks.any fun t => t.2.handlerOf = some (k, r))).status key f d 0)
    else .done ((s.resumeCrew k how pc).status key f d 0)

/-! ## SIGRAISE, BUDSET, WAKESET, SLEEP -/

/-- SIGRAISE (spec/10 R194). A word that no port reaches raises the machine check of R239 (spec/26 R353). -/
def execSigraise (f : Ctl) (d a b e : Operand) (sc : SigScope) (s : State) : Host.Outcome State Fault Refusal :=
  once (.sigraise f d a b e sc) f s fun s key c =>
    let va := (s.uni key c true a).toNat
    let v := s.uni key c true b
    let ctx := s.operandNat key c false e 0
    if ctx > 15 || va % 8 ≠ 0 then .done (s.status key f d 2)
    else match s.lookup ctx va .write with
      | .error _ => .done (s.status key f d 3)
      | .ok (pa, _) =>
        if s.cutOff pa then .trap (lostReport 0 (BitVec.ofNat 64 va))
        else fenced s key .rel (SigScope.scope sc) fun s =>
          match s.lookup ctx va .write with
          | .ok (pa, x) => held? s key (s.signalHeld key x pa) (.done ((s.signalFrom key x pa v).1.status key f d 0))
          | .error _ => .done (s.status key f d 3)

def BudKind.code : BudKind → Nat | .time => 0 | .copy => 1 | .coll => 2 | .hbm => 3

/-- BUDSET (spec/10 R195): the limit holds from the next period on. -/
def execBudset (f : Ctl) (d a b : Operand) (kind : BudKind) (s : State) : Host.Outcome State Fault Refusal :=
  once (.budset f d a b kind) f s fun s key c =>
    let cls := s.operandNat key c false a 0
    if cls > 15 then .done (s.status key f d 2)
    else
      let k := 4 * cls + BudKind.code kind
      let x := (Tbl.get? s.budgets k).getD {}
      .done ({ s with budgets := Tbl.set s.budgets k { x with next := some (s.uni key c true b) } }.status key f d 0)

/-- The alarm of a privileged agent of a core. -/
def Core.alarm (x : Core) (key : Nat) : Alarm := if slotOf key = agentSlot then x.fw else x.sc
def Core.setAlarm (x : Core) (key : Nat) (y : Alarm) : Core := if slotOf key = agentSlot then { x with fw := y } else { x with sc := y }

/-- WAKESET (spec/10 R195): one mask bit for each code of Table 10-6. -/
def execWakeset (f : Ctl) (d a b : Operand) (s : State) : Host.Outcome State Fault Refusal :=
  once (.wakeset f d a b) f s fun s key c =>
    let mask := s.operandNat key c false a 0
    if mask > 0x1FF then .done (s.status key f d 2)
    else
      let dl := (s.uni key c true b).toNat
      .done ((s.modCore (coreOf key) fun x =>
        x.setAlarm key { x.alarm key with armed := BitVec.ofNat 9 mask, deadline := dl }).status key f d 0)

/-- The lowest armed source that is pending. -/
def Alarm.code (x : Alarm) : Option Nat := (upto 1 8).find? fun i => (x.pending &&& x.armed).getLsbD i

/-- A source has fired for an agent: it is pending no more, and %WAKE holds its code. -/
def Core.takeWake (x : Core) (key code : Nat) : Core :=
  let y := x.alarm key
  { x.setAlarm key { y with pending := y.pending &&& ~~~((1 : BitVec 9) <<< code) } with wake := BitVec.ofNat 32 code }

/-- SLEEP (spec/10 R195): a pending source returns at once; else the agent is clock-gated, and AGENT_WAKE completes the
instruction. `aux` holds the number of D. -/
def execSleep (f : Ctl) (d : Operand) (s : State) : Host.Outcome State Fault Refusal :=
  once (.sleep f d) f s fun s key _ =>
    let core := coreOf key
    match ((s.core core).alarm key).code with
    | some code => .done ((s.modCore core fun x => x.takeWake key code).status key f d code)
    | none =>
      let reg := match d with | .s i => i.toNat | _ => 0
      .wait .privileged (s.modCrew key fun c => { c with asleep := true, phase := 1, aux := BitVec.ofNat 64 reg })

/-- The agents of a core that SLEEP has stopped and whose source fired a wake latency ago. -/
def State.wakeable (s : State) (core : Nat) : List (Nat × Nat) :=
  ([agentSlot, 63].map (crewKey core)).filterMap fun k =>
    let y := (s.core core).alarm k
    if isAgentKey k && (s.crew k).asleep && (s.crew k).phase = 1 && y.fired + Config.wakeLatency ≤ s.meridian then
      y.code.map fun c => (k, c)
    else none

/-- AGENT_WAKE: an armed source has fired and the wake latency has passed: D and %WAKE take its code, and the agent goes on
(spec/10 R195). -/
def execAgentWake (core : Nat) (s : State) : Host.Outcome State Fault Refusal :=
  eventOn (dieOfCore core) s fun s =>
    (s.wakeable core).foldl (fun s x =>
      (s.modCore core fun y => y.takeWake x.1 x.2).modCrew x.1 fun c =>
        { c.setS c.aux.toNat (BitVec.ofNat 32 x.2) with asleep := false, phase := 0, aux := 0, wait := none, stall := none
                                                        readyAt := s.clk (dieOfCore core), pc := c.pc + 12 }) s

/-- WAKE_DEADLINE: the deadline that an agent has armed has passed (spec/10 R195). -/
def execWakeDeadline (core : Nat) (s : State) : Host.Outcome State Fault Refusal :=
  event s fun s =>
    let due (y : Alarm) : Bool := y.deadline ≠ 0 && y.deadline ≤ s.mer (dieOfCore core)
    let ring (y : Alarm) : Alarm := if due y then Alarm.signal { y with deadline := 0 } 5 s.meridian else y
    let x := s.core core
    if !due x.fw && !due x.sc then s
    else s.modCore core fun x =>
      { x with fw := ring x.fw, sc := ring x.sc, source := if x.gated then x.source <|> some (5, s.meridian) else x.source }

end Sys2Proof.Machine
end

