-- ==== Sys2Proof/Machine/Services.lean ====
section
/-! DEFINITION. FWCALL and the services of the hub firmware (spec/10 R194, spec/26 R343-R346, spec/27 R367-R369). Operands
stand in s0 to s7 of the agent, and results return there. -/
namespace Sys2Proof.Machine

/-- The operands of a service: s1, and the pairs that start at a register. -/
def Crew.arg (c : Crew) (i : Nat) : Nat := (c.s i).toNat
def Crew.argPair (c : Crew) (i : Nat) : Nat := (c.sPair i).toNat

/-- A service answers: s0 takes the status code, and nothing else changes unless the code is 0 (spec/26 R343, spec/27 R368). -/
def answered (s : State) (key : Nat) : Except Nat State → Issue
  | .error code => .done (s.modCrew key fun c => c.setS 0 (BitVec.ofNat 32 code))
  | .ok t => .done (t.modCrew key fun c => c.setS 0 0)

/-- The frame of a service. -/
def service (i : Instr) (f : Ctl) (s : State) (body : State → Nat → Crew → Except Nat State) :
    Host.Outcome State Fault Refusal :=
  once i f s fun s key c => answered s key (body s key c)

/-- FWCALL of a number that names no service (spec/10 R194). -/
def execFwcall (f : Ctl) (imm : Word) (s : State) : Host.Outcome State Fault Refusal :=
  once (.fwcall f imm) f s fun s key _ => .done (s.modCrew key fun c => c.setS 0 0xFFFFFFFF)

/-! ## Communicators and schedules (spec/26 R343-R346) -/

/-- The rank entries of a communicator record, Table 26-3. -/
def commRanks (m : Memory) (pa n : Nat) : List (Nat × Nat × Nat) :=
  (upto 0 n).map fun r =>
    let w := m.field (pa + 64 + 4 * r) 4
    (w % 2 ^ 8, w / 2 ^ 8 % 4, w / 2 ^ 10)

/-- Whether the header of a record is well formed, and how many ranks it gives (spec/26 R344). -/
def commCount (m : Memory) (pa : Nat) : Nat :=
  let h := m.field pa 8
  h / 2 ^ 16 % 2 ^ 16 * (h / 2 ^ 32 % 2 ^ 16) * (h / 2 ^ 48)
def commHeader (m : Memory) (ctx pa : Nat) : Bool :=
  let h := m.field pa 8
  let n := commCount m pa
  let tmo := m.field (pa + 8) 8
  h % 2 ^ 8 < 64 && h / 2 ^ 8 % 2 ^ 4 = ctx && h / 2 ^ 12 % 2 ^ 4 = 0 && 1 ≤ n && n ≤ 1024 && 10 ^ 4 ≤ tmo && tmo ≤ 2 ^ 48 &&
    m.field (pa + 16) 48 = 0

def commOk (s : State) (ctx pa : Nat) : Bool :=
  let n := commCount s.mem pa
  let ranks := commRanks s.mem pa n
  commHeader s.mem ctx pa && (ranks.all fun r => r.2.2 = 0 && s.domain.contains r.1) &&
    (ranks.map fun r => (r.1, r.2.1)).eraseDups.length = n

/-- COMMSET (spec/26 R343, R344). Whether the record of another package differs is not known here: a free value (log 29). -/
def execCommset (f : Ctl) (s : State) : Host.Outcome State Fault Refusal :=
  service (.commset f) f s fun s _ c =>
    let ctx := c.arg 0
    let pa := c.argPair 2
    let h := s.mem.field pa 8
    let x := h / 2 ^ 16 % 2 ^ 16
    let y := h / 2 ^ 32 % 2 ^ 16
    let z := h / 2 ^ 48
    if ctx > 15 || !physOk pa 64 64 then .error 2
    else if s.unreadable pa 64 then .error 4
    else if !commHeader s.mem ctx pa || !physOk pa 64 (64 + 4 * (x * y * z)) then .error 2
    else if s.unreadable pa (64 + 4 * (x * y * z)) then .error 4
    else if !commOk s ctx pa then .error 2
    else if (s.comm ctx (h % 2 ^ 8)).isSome then .error 1
    else
      let ranks := (commRanks s.mem pa (x * y * z)).map fun r => (r.1, r.2.1)
      let (w, s) := if ranks.any fun r => r.1 != s.pkgId then s.free else (0, s)
      let rec' : Comm := { x := x, y := y, z := z, tmo := s.mem.field (pa + 8) 8, ranks := ranks, broken := w.getLsbD 0 }
      .ok { s with comms := Tbl.set s.comms (commKey ctx (h % 2 ^ 8)) rec' }

/-- Whether a collective on a communicator is outstanding. -/
def State.collBusy (s : State) (ctx id : Nat) : Bool :=
  s.crews.any fun k => (s.party k.2.party).ctx = ctx && k.2.cops.any fun o => !o.done && match o.kind with
    | .coll _ _ _ _ x _ _ => extComm x = id
    | _ => false

def execCommclr (f : Ctl) (s : State) : Host.Outcome State Fault Refusal :=
  service (.commclr f) f s fun s _ c =>
    let ctx := c.arg 0
    let id := c.arg 1
    if ctx > 15 || id > 63 then .error 2
    else if (s.comm ctx id).isNone then .error 1
    else if s.collBusy ctx id then .error 5
    else .ok { s with comms := Tbl.del s.comms (commKey ctx id) }

/-- SCHEDSET (spec/26 R346) installs an image, in place of the one that the id had: a malformed image gives status 2, a signature that fails status 4, as do words of it that are
uncorrectable (spec/10 Table 10-5). -/
def execSchedset (f : Ctl) (s : State) : Host.Outcome State Fault Refusal :=
  service (.schedset f) f s fun s _ c =>
    let ctx := c.arg 0
    let id := c.arg 1
    let pa := c.argPair 2
    let size := s.mem.field (pa + 4) 4
    let entry := s.mem.field (pa + 8) 8
    if ctx > 15 || id < 16 || id > 255 || !physOk pa 1 64 then .error 2
    else if s.unreadable pa 64 then .error 4
    else if s.mem.field pa 4 ≠ 1 || size = 0 || entry ≥ size || s.mem.field (pa + 16) 48 ≠ 0 || 64 + size + 132 > 262144 ||
        !physOk pa 1 (64 + size + 132) then .error 2
    else if s.unreadable pa (64 + size + 132) then .error 4
    else if !Config.scheduleSigned ((s.firmware.running.map (·.hash)).getD 0) (sha512 (s.mem.readBytes pa (64 + size))) (s.mem.readBytes (pa + 64 + size) 132) then .error 4
    else .ok { s with scheds := Tbl.set s.scheds (schedKey ctx id) { entry := entry, code := s.mem.readBytes (pa + 64) size } }

def execSchedclr (f : Ctl) (s : State) : Host.Outcome State Fault Refusal :=
  service (.schedclr f) f s fun s _ c =>
    let ctx := c.arg 0
    let id := c.arg 1
    if ctx > 15 || id < 16 || id > 255 then .error 2
    else if (s.sched ctx id).isNone then .error 1
    else if s.handles.any fun h => h.2.ctx = ctx && h.2.sched = id && (h.2.state = 1 || h.2.state = 2) then .error 5
    else .ok { s with scheds := Tbl.del s.scheds (schedKey ctx id) }

/-! ## Telemetry (spec/27 R367) -/

/-- The current F of a die. -/
def State.freq (s : State) (d : Nat) : Nat := ((s.die d).freqs.head?.map (·.freq)).getD 0

/-- An entry of the telemetry block, Table 27-3, that the package itself keeps; none for any other index. -/
def State.telemetryEntry (s : State) (i : Nat) : Option DWord :=
  let seq (x : Option Image) : DWord := (x.map (·.seq)).getD 0
  if i = 0 then some (s.ready.extractLsb' 0 64)
  else if i = 1 then some (s.ready.extractLsb' 64 64)
  else if i = 2 then some s.firmware.fusedMin
  else if i = 3 then some (seq s.firmware.running)
  else if 16 ≤ i && i < 1040 then some (Sparse.get (s.core ((i - 16) / 16)).stalls ((i - 16) % 16))
  else if 1040 ≤ i && i < 1056 then some (Sparse.get (s.die ((i - 1040) / 4)).rwait ((i - 1040) % 4))
  else if i = 1079 then some (BitVec.ofNat 64 ((upto 0 4).foldl (fun n d => n + s.freq d * 2 ^ (8 * d)) 0))
  else if (1056 ≤ i && i < 1068) || (1088 ≤ i && i < 1104) then some (Sparse.get s.telemetry i)
  else if i = 2047 then some (BitVec.ofNat 64 (s.elog.length % 256))
  else if 2048 ≤ i && i < 2560 then
    let k := (i - 2048) / 2
    let last := ((upto 0 s.elog.length).filter fun j => j % 256 = k).getLast?
    match last.bind fun j => s.elog[j]? with
    | some (t, e) => some (BitVec.ofNat 64 (if i % 2 = 0 then t else e))
    | none => some 0
  else none

/-- What TELRD reads. The corrections of HBM stacks and Essia links have no event of their own: those that have come are seen where
they show, in their counts and in the log (spec/27 R365, log 62). Power, temperatures and flow come from outside: free values (log
62). -/
def State.telemetryRead (s : State) (i : Nat) : Option (DWord × State) :=
  let s := if (1056 ≤ i && i < 1068) || (2047 ≤ i && i < 2560) then s.corrected else s
  match s.telemetryEntry i with
  | some v => some (v, s)
  | none => if 1072 ≤ i && i < 1079 then some s.free else none

def execTelrd (f : Ctl) (s : State) : Host.Outcome State Fault Refusal :=
  service (.telrd f) f s fun s key c =>
    match s.telemetryRead (c.arg 1) with
    | none => .error 2
    | some (v, s) => .ok (s.modCrew key fun c => c.setSPair 2 v)

/-! ## Frequency, replicas, attestation -/

/-- FSTEP (spec/18 R285): a newer request replaces one that waits. -/
def execFstep (f : Ctl) (s : State) : Host.Outcome State Fault Refusal :=
  service (.fstep f) f s fun s _ c =>
    let d := c.arg 1
    let fr := c.arg 2
    if d > 3 || fr < 8 || fr > 18 then .error 2
    else .ok (s.modDie d fun x => { x with wantF := some fr, capFrom := none })

/-- The page that an entry names whether or not it is valid: firmware has cleared V before it drops the replicas (spec/13
R227); else the status of a translation that fails, or meets a table that no port reaches. -/
def rawPage (s : State) (va : Nat) : Nat → Nat → Nat → Except Nat (Nat × Nat)
  | 0, _, _ => .error 3
  | fuel + 1, l, table =>
    let e : DWord := BitVec.ofNat 64 (s.mem.field (table + 8 * (va / 2 ^ levelShift l % levelEntries l)) 8)
    if s.cutOff table then .error 4
    else if e = 0 then .error 3
    else if e.getLsbD 1 then .ok ((e.extractLsb' 16 44).toNat * 2 ^ 16, 2 ^ levelShift l)
    else rawPage s va fuel (l + 1) ((e.extractLsb' 8 52).toNat * 256)

/-- REPINV (spec/27 R368): every die drops its replicas of the page, once nothing holds the way to it (spec/18 R287, spec/27 R364). -/
def execRepinv (f : Ctl) (s : State) : Host.Outcome State Fault Refusal :=
  once (.repinv f) f s fun s key c =>
    let ctx := c.arg 1
    let va := c.argPair 2
    if ctx > 15 || va ≥ 2 ^ 56 then answered s key (.error 2)
    else match rawPage s va 5 0 ((s.ctxEntry ctx).extractLsb' 64 64).toNat with
      | .error code => answered s key (.error code)
      | .ok (pa, size) =>
        held? s key ((upto 0 4).findSome? (s.wayHeld (coreOf key))) <|
        let dies := s.dies.map fun (x : Nat × Die) =>
          (x.1, { x.2 with replicas := x.2.replicas.filter fun y => !(pa / 128 ≤ y.1 && y.1 < (pa + size) / 128) })
        answered s key (.ok { s with dies := dies })

/-- The bytes of a 512-bit hash, most significant first. -/
def hashBytes (h : BitVec 512) : List Byte := (toBytesLE 64 h.toNat).reverse

/-- The first 152 bytes of an attestation report, Table 27-5. -/
def State.attested (s : State) (nonce : List Byte) (img : Image) : List Byte :=
  nonce ++ hashBytes img.hash ++ toBytesLE 8 img.seq.toNat ++ toBytesLE 8 s.meridian ++
    toBytesLE 8 (s.ready.extractLsb' 0 64).toNat

/-- ATTEST (spec/27 R369): the signature of the digest is a free value (log 20). -/
def execAttest (f : Ctl) (s : State) : Host.Outcome State Fault Refusal :=
  service (.attest f) f s fun s _ c =>
    let buf := c.argPair 2
    let nonce := c.argPair 4
    if c.arg 1 > 15 || !physOk buf 1 320 || !physOk nonce 1 64 then .error 2
    else if s.unreadable nonce 64 || s.cutOff buf then .error 4
    else match s.firmware.running with
      | none => .error 1
      | some img =>
        let head := s.attested (s.mem.readBytes nonce 64) img
        let mem := ((s.mem.clear buf 320).writeBytes buf head).writeBytes (buf + 152) ((Config.attestSignature (sha512 (head.take 152))).take 132)
        .ok ({ s with mem := mem }.clearBad buf 320)

end Sys2Proof.Machine
end

