-- ==== Sys2Proof/Machine/Life.lean ====
section
/-! DEFINITION. The life of the package: run arbitration, clock gating, budgets, frequency, power, reset, self test,
firmware and spares (spec/15 R259, R263, R264, spec/16 R268, spec/18 R285-R288, spec/27 R360-R366). -/
namespace Sys2Proof.Machine

/-! ## Readiness (spec/15 R259) -/

/-- Whether a crew is stopped: it has ended, holds a report, is halted, sleeps, is stalled by a fault of its core, or its
die relocks, its core is retired, its class is held. The crews of a handler are exempt from the stall of their fault (spec/13
R231). -/
def State.barred (s : State) (key : Nat) : Bool :=
  let c := s.crew key
  let x := s.core (coreOf key)
  let exempt := c.role.isNone || match (s.taskOf key).handlerOf with | some (k, _) => x.stallers.contains k | none => false
  c.ended || c.report.isSome || c.halted || c.asleep || (!x.stallers.isEmpty && !exempt) || s.relocking (dieOfCore (coreOf key)) ||
    x.retired || s.classHeld key

/-- The same, or its core is gated. -/
def State.stopped (s : State) (key : Nat) : Bool := s.barred key || (s.core (coreOf key)).gated

def State.isReady (s : State) (key : Nat) : Bool :=
  let c := s.crew key
  !s.stopped key && c.live ≠ 0 && c.holdUntil ≤ s.cycles key && match c.wait with | none => true | some w => w.inside

/-- Whether a crew may issue now. -/
def State.canIssue (s : State) (key : Nat) : Bool :=
  let c := s.crew key
  !s.stopped key && c.live ≠ 0 && c.wait = none && c.holdUntil ≤ s.cycles key

/-! ## Stalls inside a run (spec/01 R18) -/

/-- The owners of the vector pipes. -/
def State.owners (s : State) : List Nat := s.cores.flatMap fun x => x.2.pipes.map (·.2)

/-- Whether an owner stands between runs: it is pre-empted and keeps its position (spec/13 R240), has no live lane, or waits before the
first instruction of its run. -/
def State.offRun (s : State) (key : Nat) : Bool :=
  let c := s.crew key
  (s.partyOf key).preempted || c.live = 0 || (c.runPos = 0 && match c.wait with | some w => !w.inside | none => false)

/-- Whether the stall of an owner has lasted for more than 256 core cycles. On a die without a clock no time passes, and any stall
ends a run. -/
def State.overstalled (s : State) (key : Nat) : Bool :=
  let c := s.crew key
  (s.die (dieOfCore (coreOf key))).freqs.isEmpty || c.stallAt + Config.runStall < s.cycles key

/-- An owner that cannot issue stalls inside its run from now on, whatever holds it. -/
def State.markStalls (s : State) : State :=
  (s.owners.filter fun k => (s.crew k).stall.isNone && !s.canIssue k && !s.offRun k).foldl (fun s k =>
    s.modCrew k fun c => { c with stall := some .hold, stallAt := s.cycles k }) s

/-- A stall inside a run that has lasted for more than 256 core cycles has ended the run, whether or not it ends now. -/
def State.cutRuns (s : State) : State :=
  (s.owners.filter fun k => (s.crew k).stall.isSome && !s.offRun k && s.overstalled k).foldl (fun s k =>
    (s.endRun k false).modCrew k fun c => { c with cut := true }) s

/-! ## Budgets (spec/15 R264) -/

/-- The parties of every class of which a quantity has reached its limit stop at their next issue slot. -/
def State.holdSpent (s : State) : State :=
  if s.budgets.isEmpty then s
  else { s with heldClasses := s.heldClasses ++ (upto 0 16).filter fun c => s.classSpent c && !s.heldClasses.contains c }

/-- A new budget period: held classes go on, and their crews are ready; an excess is deducted, and new limits hold. -/
def State.startPeriod (s : State) : State :=
  let p := s.meridian / Config.budgetPeriod
  if p ≤ s.period then s
  else
    let budgets := s.budgets.map fun (x : Nat × Budget) =>
      let beyond := if x.2.limit = BitVec.allOnes 64 then 0 else x.2.used - x.2.limit.toNat
      (x.1, { x.2 with used := beyond, excess := beyond, limit := x.2.next.getD x.2.limit, next := none })
    let crews := if s.heldClasses.isEmpty then s.crews else s.crews.map fun x =>
      (x.1, if s.classHeld x.1 && (s.core (coreOf x.1)).stallers.isEmpty then x.2.freed (s.cycles x.1) else x.2)
    { s with period := p, heldClasses := [], budgets := budgets, crews := crews }

/-! ## Time -/

/-- Whether a die's relock has begun: Ms is past (spec/18 R286, R287). -/
def State.relocked (s : State) (die : Nat) : Bool := match (s.die die).relock with | some (ms, _) => ms ≤ s.meridian | none => false

/-- The core time of one period of ticks (spec/15 R264): for every core, a tick of each class with a resident party when the
core is not gated; during a fault stall, of the class of the crew that stalls it alone (spec/13 R231); none while its die
relocks (spec/18 R287). -/
def State.chargeTime (s : State) (n : Nat) : State :=
  let classOf (launch : Nat) : Nat := packetBudget (s.launch launch).packet
  let used (core : Nat) : List Nat :=
    if s.relocked (dieOfCore core) then []
    else match (s.core core).stallers with
      | k :: _ => [classOf (s.taskOf k).launch]
      | [] =>
        if (s.core core).gated then []
        else ((s.partiesOn core).map fun p => classOf (s.task p.task).launch).eraseDups
  let cores := (s.parties.filter fun p => p.1 < agentParty 0).map (fun p => p.1 / 16) |>.eraseDups
  (cores.flatMap used).foldl (fun s cls =>
    let b := (Tbl.get? s.budgets (4 * cls)).getD {}
    { s with budgets := Tbl.set s.budgets (4 * cls) { b with used := b.used + n } }) s

/-- The core cycles of a die in the next `n` ticks (spec/18 R284). -/
def State.cyclesOf (s : State) (d n : Nat) : Nat := State.clk { s with meridian := s.meridian + n } d - s.clk d

/-- Whether a crew waits, at a WAITC or a fence, for Meridian to pass a completion time. -/
def State.waitsCt (s : State) (key : Nat) (c : Crew) : Bool :=
  (c.wait = some .waitc && c.stores.any fun m => !m.done && m.svc = 0 && !s.passed key m.ct) ||
    (c.wait = some .fence && c.loadsBound && c.storesAtDie && s.mer (dieOfCore (coreOf key)) ≤ c.ct)

/-- The lines of Table 15-5 that a cycle of a core counts in now (spec/15 R265), log 8; line 9 is counted where a product is made. -/
def State.stallLines (s : State) (core : Nat) : List Nat :=
  let x := s.core core
  let mine := s.crews.filter fun k => coreOf k.1 = core && k.2.role.isSome && !k.2.ended
  let some_ (p : Nat → Crew → Bool) : Bool := mine.any fun k => p k.1 k.2
  let stalls (w : Wait) : Bool := some_ fun _ c => c.stall = some w
  let cops (p : CPend → Bool) : Bool := some_ fun _ c => c.cops.any fun o => !o.done && p o
  let amp (o : CPend) : Bool := match o.kind with | .amp .. => true | _ => false
  [(0, some_ fun _ c => c.cut && c.stall.isSome), (1, some_ fun k c => c.stall = some .interlock && s.owner k),
   (2, x.rejected.any fun k => (s.crew k).stall ≠ some .svcFull), (3, stalls .svcFull), (4, some_ s.waitsCt), (5, !x.stallers.isEmpty),
   (6, some_ fun k _ => s.classHeld k), (7, stalls .counter), (8, some_ fun k _ => s.isReady k && !s.owner k),
   (10, some_ fun k c => c.tops.any fun o => !o.done && s.tileHeld k o),
   (11, some_ fun _ c => c.tops.any fun o => !o.done && o.kind.isDrain && o.why = some .clock),
   (12, cops fun o => CKind.isCopy o.kind && o.why = some .walk),
   (13, cops fun o => o.why = some .clock && ((CKind.isCopy o.kind && o.heldDie < 4) || amp o)),
   (14, !x.groups.isEmpty && x.groups.all fun g => !s.groupReady core g), (15, x.gated)].filterMap fun y => if y.2 then some y.1 else none

/-- The stall counters of the cores over the next `n` ticks: line 14 until the oldest window closes. -/
def State.countCores (s : State) (n : Nat) : State :=
  s.cores.foldl (fun t c =>
    let k := s.cyclesOf (dieOfCore c.1) n
    let open_ := ((c.2.groups.head?.map (·.closes)).getD 0) - s.clk (dieOfCore c.1)
    if k = 0 then t else (s.stallLines c.1).foldl (fun t i => t.countCycles c.1 i (if i = 14 then min k open_ else k)) t) s

/-- The cores that hold a writeback for die `d`: those of crews at a fence, and of tasks and launches that are to release (spec/18
R287). -/
def State.backWaiting (s : State) (d : Nat) : List Nat :=
  let atFence := (s.crews.filter fun k => k.2.stall = some .fence && k.2.phase = 0).map fun k => coreOf k.1
  let releasing := s.tasks.flatMap fun t =>
    if t.2.status = .resident && t.2.relCt.isNone && (s.taskCrews t.2).all fun k => (s.crew k).ended then t.2.parties.map (· / 16) else []
  let ending := s.launches.flatMap fun l =>
    if l.2.status = .running && l.2.relCt.isNone && packetRoots l.2.packet ≤ l.2.finished && Scope.wide (packetRel l.2.packet) then l.2.ran
    else []
  (atFence ++ releasing ++ ending).filter fun core => (s.dirtyOf core).any fun x => x.2.home = d

/-- The dies, but for `d`, with a request that die d's relock holds: at its service crews, or of a crew, an engine or a release. -/
def State.waitingDies (s : State) (d : Nat) : List Nat :=
  let queued := (s.svcs.filter fun x => x.1 < 16 && svcDie x.1 = d).flatMap fun x =>
    (x.2.queue.filter (·.live)).map (·.crew) ++ x.2.waiters.map (·.crew)
  let held := (s.crews.filter fun k => (k.2.stall = some .clock && k.2.heldDie = d) ||
    (k.2.cops.any fun o => !o.done && o.why = some .clock && (o.heldDie = d || s.ampAwaits k.1 o d)) ||
    k.2.tops.any fun o => !o.done && o.why = some .clock && o.heldDie = d).map (·.1)
  (((queued ++ held).map coreOf ++ s.backWaiting d).map dieOfCore).filter (fun e => e != d) |>.eraseDups

/-- RWAITd of each die whose requests a relock of die d holds (spec/18 R287). -/
def State.countHeld (s : State) (n : Nat) : State :=
  ((upto 0 4).filter s.relocked).foldl (fun t d => (s.waitingDies d).foldl (fun t e => t.modDie e fun x =>
    let v := min ((Sparse.get x.rwait d).toNat + s.cyclesOf e n) (2 ^ 64 - 1)
    { x with rwait := Sparse.set x.rwait d (BitVec.ofNat 64 v) }) t) s

/-- A relock takes exactly 1,500 ticks: the die then runs at its new frequency, from the cycle that begins at Ms + 1,500, and
records the entry (spec/18 R286), and the answers that have waited at its crossing reach it (R287). -/
def State.relockOver (s : State) (die : Nat) : State :=
  let x := s.die die
  match x.relock with
  | some (ms, f) =>
    let t := ms + Config.relockTicks
    if s.meridian < t then s
    else
      let c := match x.freqs with | e :: _ => e.cycleFrom ms | [] => 0
      (s.setDie die { x.addFreq { mer := t, clk := c, freq := f } with relock := none, lastRelock := some t }).deliver die
  | none => s

/-- The flash takes the image of an update: when it has all of it is the part's own time (spec/27 R363). -/
def State.flash (s : State) : State :=
  match s.firmware.writing with
  | none => s
  | some i =>
    let (x, s) := s.free
    if x.getLsbD 0 then s
    else { s with firmware := { s.firmware with image := some i, writing := none, started := false } }

/-- The loader repeats its fetch every 10^9 ticks until an image passes (spec/27 R362). -/
def State.refetch (s : State) : State :=
  let w := s.firmware
  match w.lastFetch with
  | none => s
  | some t =>
    if w.running.isSome || s.meridian < t + Config.fetchPeriod || !s.ready.getLsbD 112 then s
    else { s with firmware := { w with lastFetch := some s.meridian, fetching := true }, outbox := s.outbox ++ [HostMsg.fetchImage] }

/-- How many of `n` ticks pass before a relock begins or ends, or a budget period is over. -/
def State.untilEdge (s : State) (n : Nat) : Nat :=
  ((upto 0 4).filterMap fun d => (s.die d).relock.map fun r =>
    (if s.meridian < r.1 then r.1 else r.1 + Config.relockTicks) - s.meridian).foldl min
      (min n (Config.budgetPeriod - s.meridian % Config.budgetPeriod))

/-- The ticks of the next step, and the state once they have passed (log 3): relocks that are over end, a new budget period begins,
classes that have spent theirs are held, runs that have stalled for too long end, reports whose release is over are published, and
mirrored writes leave whose change has completed. Ticks beyond the beginning or the end of a relock, or the end of a budget period, are
left to the next step. -/
def State.tick (s : State) : State :=
  let s := s.markStalls
  let all := s.pace.headD 1
  let n := s.untilEdge all
  let t := { ((s.countHeld n).countCores n).chargeTime n with
    meridian := s.meridian + n, pace := if n < all then (all - n) :: s.pace.drop 1 else s.pace.drop 1 }
  ((upto 0 4).foldl State.relockOver t).startPeriod.holdSpent.cutRuns.publish.sendMirrors.refetch.flash

/-! ## Issue and run arbitration (spec/01 R17, R18, spec/15 R259) -/

/-- The pipe of an agent: 0 for the firmware agent; a service crew's own pipe is 1 (DESIGN CHOICE, log 12). -/
def pipeOf (s : State) (key : Nat) : Nat :=
  if slotOf key = agentSlot then 0 else if isAgentKey key then 1 else (s.crew key).pipe

/-- The ready crews of a pipe, without the agents, by slot. -/
def State.readyCrews (s : State) (core pipe : Nat) : List Nat :=
  (s.crews.map (·.1)).filter fun k => coreOf k = core && !isAgentKey k && pipeOf s k = pipe && s.isReady k
def State.readyAgents (s : State) (core pipe : Nat) : List Nat :=
  (s.crews.map (·.1)).filter fun k => coreOf k = core && isAgentKey k && pipeOf s k = pipe && s.isReady k

/-- The crew with the earliest ready time, ties to the lowest slot. -/
def State.earliest (s : State) (ks : List Nat) : Option Nat :=
  ks.foldl (fun best k => match best with
    | none => some k
    | some b => if (s.crew k).readyAt < (s.crew b).readyAt then some k else some b) none

/-- How long a crew has been ready without winning: since it became ready, or its last run ended (spec/15 R259). -/
def Crew.agedFrom (c : Crew) : Nat := max c.readyAt c.wonAt

/-- The crews that have been ready for 512 core cycles without winning, and of them the oldest. -/
def State.oldest (s : State) (core pipe : Nat) : Option Nat :=
  let aged := (s.readyCrews core pipe).filter fun k => (s.crew k).agedFrom + Config.ageing ≤ s.clk (dieOfCore core)
  aged.foldl (fun best k => match best with
    | none => some k
    | some b => if (s.crew k).agedFrom < (s.crew b).agedFrom then some k else some b) none

/-- The winner of a pipe's slot: an agent; else the oldest crew that has been ready for 512 core cycles without winning; else the
one with the earliest ready time (spec/15 R259). -/
def State.winner (s : State) (core pipe : Nat) : Option Nat :=
  (s.readyAgents core pipe).head? <|> s.oldest core pipe <|> s.earliest (s.readyCrews core pipe)

/-- RUN_ARBITRATION: at a run boundary a pipe grants its slot (spec/15 R259). -/
def execRunArbitration (core pipe : Nat) (s : State) : Host.Outcome State Fault Refusal :=
  eventOn (dieOfCore core) s fun s =>
    if pipe > 7 || (Tbl.get? (s.core core).pipes pipe).isSome then s
    else match s.winner core pipe with
      | none => s
      | some k => (s.modCrew k fun c => { c with stall := none, stallAt := s.cycles k, cut := false }).modCore core fun x => { x with pipes := Tbl.set x.pipes pipe k }

/-! ## Clock gating (spec/15 R263) -/

/-- Whether a core is to be gated: no crew of it is ready but for a budget hold, and its agents sleep and have nothing to serve. -/
def State.gateable (s : State) (core : Nat) : Bool :=
  let x := s.core core
  !x.gated && !s.relocking (dieOfCore core) && x.fw.code.isNone && x.sc.code.isNone && x.reports.isEmpty && x.hostAsk.isNone && x.handlers.isEmpty && x.stallers.isEmpty &&
    (s.crews.filter fun k => coreOf k.1 = core).all fun k =>
      if isAgentKey k.1 then k.2.asleep else k.2.ended || (!s.isReady k.1 && !s.classHeld k.1)

/-- CORE_GATE: a core that has nothing to issue loses its clock. -/
def State.gate (s : State) (core : Nat) : State :=
  if s.gateable core then s.modCore core fun x => { x with gated := true, source := none } else s
def execCoreGate (core : Nat) (s : State) : Host.Outcome State Fault Refusal :=
  eventOn (dieOfCore core) s fun s => s.gate core

/-- The code of Table 10-6 under which the end of a wait wakes a gated core when no other source has told of it (log 34). -/
def Wait.code : Wait → Nat
  | .waitc => 3
  | .fence | .hold => 5
  | .sigwait | .ticket => 1
  | _ => 2

/-- CORE_WAKE: a gated core wakes 50 ticks after the first source of Table 10-6 since it was gated, and %WAKE takes its code
(spec/15 R263). -/
def execCoreWake (core code : Nat) (s : State) : Host.Outcome State Fault Refusal :=
  eventOn (dieOfCore core) s fun s =>
    match (s.core core).source with
    | some (c, t) =>
      if (s.core core).gated && c = code && t + Config.wakeLatency ≤ s.meridian then
        s.modCore core fun x => { x with gated := false, wake := BitVec.ofNat 32 code, source := none }
      else s
    | none => s

/-! ## The events of budgets (spec/15 R264) -/

/-- BUDGET_HOLD: a quantity of a class has reached its limit, if the passing of time has not held the class yet. -/
def execBudgetHold (cls : Nat) (s : State) : Host.Outcome State Fault Refusal :=
  event s fun s =>
    if s.classSpent cls && !s.heldClasses.contains cls then { s with heldClasses := s.heldClasses ++ [cls] } else s

/-- BUDGET_PERIOD_START: the period of this tick begins, if the passing of time has not begun it yet. -/
def execBudgetPeriodStart (s : State) : Host.Outcome State Fault Refusal :=
  event s State.startPeriod

/-- SPAWN_STALL_LIMIT: a SPAWN has stalled on the pedigree table for 10^6 ticks (spec/16 R268). -/
def execSpawnStallLimit (crew : Nat) (s : State) : Host.Outcome State Fault Refusal :=
  eventOf crew s fun s =>
    let c := s.crew crew
    if c.phase = spawnPhase && c.report.isNone && c.aux.toNat + Config.spawnStall ≤ s.meridian then
      s.takeFault crew { cause := 0x16, sub := 1, d1 := BitVec.ofNat 32 s.pedTable.length }
    else s

/-! ## Frequency steps (spec/18 R285, R286) -/

/-- RELOCK_START: a die begins the step that waits, no sooner than 5,000 ticks after its last relock; Ms is the next tick, so that no
cycle of the relock has run already (log 59). -/
def execRelockStart (die : Nat) (s : State) : Host.Outcome State Fault Refusal :=
  event s fun s =>
    let x := s.die die
    let free := match x.lastRelock with | some t => t + Config.relockGap ≤ s.meridian + 1 | none => true
    match x.wantF with
    | some f => if x.relock.isNone && free then s.setDie die { x with relock := some (s.meridian + 1, f), wantF := none } else s
    | none => s

/-- RELOCK_END: the relock of a die that has lasted 1,500 ticks ends (R286), if the passing of time has not ended it yet. -/
def execRelockEnd (die : Nat) (s : State) : Host.Outcome State Fault Refusal :=
  event s fun s => s.relockOver die

/-- The frequency that a die has, or is relocking to: F. -/
def State.running (s : State) (d : Nat) : Nat :=
  match (s.die d).relock with | some (_, f) => f | none => s.freq d
/-- The frequency that a die will have: that of the step that waits, or F. -/
def State.target (s : State) (d : Nat) : Nat := (s.die d).wantF.getD (s.running d)

/-- A die whose frequency the power manager lowers keeps in mind what it was, or was to be. A lower step that waits already stays. -/
def State.lower (s : State) (die f : Nat) : State :=
  s.modDie die fun x =>
    { x with wantF := some (match x.wantF with | some w => min w f | none => f)
             capFrom := x.capFrom <|> some (max (s.running die) (s.target die)) }

/-- POWER_STEP_DOWN: a limit of Table 27-2 is reached on a die, the hottest one when it is the package's (an input: the state holds no
temperature, log 62): one step of 100 MHz down from F, in place of a higher step that waits; beyond the four dies it is the coolant, which takes every die to F = 8 (spec/27
R366). -/
def execPowerStepDown (die : Nat) (s : State) : Host.Outcome State Fault Refusal :=
  event s fun s =>
    let s := { s with powerOver := true, powerSince := s.meridian }
    if die < 4 then
      if 8 < s.running die then s.lower die (s.running die - 1)
      else s.modDie die fun x => { x with wantF := none, capFrom := x.capFrom <|> x.wantF }
    else (upto 0 4).foldl (fun s d => if s.freq d = 0 then s else s.lower d 8) s

/-- POWER_STEP_UP: after 10^7 ticks within limits a die that was lowered steps up, as far as it was. -/
def execPowerStepUp (die : Nat) (s : State) : Host.Outcome State Fault Refusal :=
  event s fun s =>
    match (s.die die).capFrom with
    | none => s
    | some top =>
      if s.powerOver && s.powerSince + Config.powerHold ≤ s.meridian then
        if s.target die < top then
          s.modDie die fun x => { x with wantF := some (s.target die + 1), capFrom := if s.target die + 1 < top then some top else none }
        else s.modDie die fun x => { x with capFrom := none }
      else s

/-! ## Reset, self test and firmware (spec/27 R360-R363) -/

/-- Whether the loader accepts an image (spec/27 R362). -/
def Firmware.accepts (w : Firmware) (i : Image) : Bool := i.signed && i.whole && w.fusedMin ≤ i.seq

/-- What the flash holds at a reset: an update that is cut off leaves the old image, the new one or none that is valid, as it
happens (spec/27 R363). -/
def State.cutUpdate (s : State) : Firmware × State :=
  let w := s.firmware
  match w.writing with
  | none => (w, s)
  | some i =>
    let (x, s) := s.free
    let w := { w with writing := none }
    (if x.getLsbD 0 then w else if x.getLsbD 1 then { w with image := some i, started := false } else { w with image := none }, s)

/-- The package leaves reset: HBM, flash, fuses, package id, domain and context-table address stay (log 35); the loader starts the image,
or brings up the Ethernet port and asks the host for one. What happens next in the outside world stays. -/
def State.restart (s : State) : State :=
  let (w, s) := s.cutUpdate
  let w := { w with running := none, lastFetch := none, fetching := false }
  let base : State :=
    { State.reset with pace := s.pace, freeIx := s.freeIx, agenda := s.agenda, mem := s.mem, bad := s.bad, ctxTable := s.ctxTable
                       pkgId := s.pkgId, domain := s.domain, firmware := w, outbox := s.outbox }
  let recovery : State :=
    { base with ready := BitVec.shiftLeft 1 112, outbox := base.outbox ++ [HostMsg.fetchImage]
                firmware := { w with lastFetch := some 0, fetching := true } }
  match w.image with
  | some i =>
    if w.accepts i then
      { base with firmware := { w with running := some i, started := true, fusedMin := if w.started then w.fusedMin else i.seq } }
    else recovery
  | none => recovery

def execPackageReset (s : State) : Host.Outcome State Fault Refusal := .next s.restart

/-- The machine check of a task that has no crew: it is queued, waits for its place or is suspended. -/
def Task.checkReport (t : Task) : Report :=
  { cause := 0x1F, sub := 1, ctx := t.ctx, taskf := t.root, ped := t.ped, pc := t.entry, epc := t.entry }

/-- Every task ends with a machine check, those without a crew too, and the fault rings tell of it. -/
def State.endAll (s : State) : State :=
  let cores := (s.parties.filter fun p => p.1 < agentParty 0).map (fun p => p.1 / 16) |>.eraseDups
  let s := cores.foldl (fun s k => s.coreTasksEnd k 1) s
  let s := s.tasks.foldl (fun s t => (s.doom t.1 0 t.2.checkReport false).finishDoomed t.1) s
  s.posts.foldl (fun s p =>
    let x := s.postStep { p with ct := 0 } true
    match x.2 with | some q => (x.1.postStep q true).1 | none => x.1) s

/-- THERMAL_RESET: a junction at 115 °C: every task ends with a machine check, and the package resets (spec/27 R366). -/
def execThermalReset (die : Nat) (s : State) : Host.Outcome State Fault Refusal :=
  .next (s.logError (logRetire (64 + die))).endAll.restart

/-- SELF_TEST_PASS: a function of the started package is ready (spec/27 R360); a die's first lock records its first
frequency entry (spec/10 R190). A bit once cleared stays clear. -/
def execSelfTestPass (bit freq : Nat) (s : State) : Host.Outcome State Fault Refusal :=
  event s fun s =>
    if s.firmware.running.isNone || bit > 112 || s.retiredBits.getLsbD bit || s.ready.getLsbD bit then s
    else
      let d := bit - 64
      let die := 64 ≤ bit && bit < 68
      let fit := s.ready.getLsbD (76 + d) && (dieCores d).any fun k => s.ready.getLsbD k
      if die && (!fit || freq < 8 || freq > 18) then s
      else
        let s := { s with ready := s.ready ||| BitVec.shiftLeft 1 bit }
        if die then s.modDie d fun x => { x with freqs := [{ mer := s.meridian, clk := 0, freq := freq }] }
        else if bit < 64 then s.modCore bit id
        else s

/-- IMAGE_FETCH_RETRY: in recovery, the image that the loader has asked for comes from the host; one that passes is written to flash
and the package resets, and after one that does not the loader waits for its next fetch (spec/27 R362). -/
def execImageFetchRetry (img : Image) (s : State) : Host.Outcome State Fault Refusal :=
  eventHost s fun s =>
    let w := s.firmware
    if w.running.isSome || !w.fetching then s
    else if w.accepts img then { s with firmware := { w with image := some img } }.restart
    else { s with firmware := { w with fetching := false } }

/-- FIRMWARE_UPDATE: an image that passes and is not older than the running one begins to be written over the slot (spec/27
R363). -/
def execFirmwareUpdate (img : Image) (s : State) : Host.Outcome State Fault Refusal :=
  eventHost s fun s =>
    let w := s.firmware
    match w.running with
    | none => s
    | some r =>
      if w.accepts img && r.seq ≤ img.seq then { s with firmware := { w with writing := some img } } else s

/-! ## Retirement and spares (spec/27 R364, R365) -/

/-- FUNCTION_RETIRE: a function that cannot be repaired goes; the tasks of a core or of a die that goes end with a machine
check (R361, R364). -/
def execFunctionRetire (bit : Nat) (s : State) : Host.Outcome State Fault Refusal :=
  event s fun s =>
    if bit > 112 then s
    else
      let cores := if bit < 64 then [bit] else if 64 ≤ bit && bit < 68 then dieCores (bit - 64)
        else if 76 ≤ bit && bit < 80 then dieCores (bit - 76) else []
      let s := cores.foldl (fun s k => s.coreTasksEnd k 1) s
      let s := if bit < 64 then s.modCore bit fun x => { x with retired := true } else s
      (s.clearReady bit).logError (logRetire bit)

/-- HBM_SPARE_REPAIR: a failing row or channel of a stack is mapped to a spare, with its data: no address and no value
changes. -/
def execHbmSpareRepair (stack : Nat) (s : State) : Host.Outcome State Fault Refusal :=
  event s fun s => if stack < 8 then s.logError (logSpare (68 + stack)) else s

/-- LANE_SPARE: a link, UALink port 0 to 15 or 16 + d for the Essia link of die d, moves to a spare lane and retrains; the
spare lanes of a port are counted in bits [63:48] of its entry (Table 27-3). -/
def execLaneSpare (link : Nat) (s : State) : Host.Outcome State Fault Refusal :=
  event s fun s =>
    if link > 19 || s.retraining.contains link then s
    else
      let s := { s with retraining := s.retraining ++ [link] }.logError (logSpare (if link < 16 then 80 + link else 60 + link))
      if link < 16 then
        { s with telemetry := Sparse.set s.telemetry (1088 + link) (Sparse.get s.telemetry (1088 + link) + BitVec.shiftLeft 1 48) }
      else s

/-- RETRAIN_END: the link's traffic goes on. -/
def execRetrainEnd (link : Nat) (s : State) : Host.Outcome State Fault Refusal :=
  event s fun s => { s with retraining := s.retraining.filter fun x => x != link }

/-- UALINK_PORT_DOWN: the traffic of a port moves to another that reaches the same destination; only timing changes
(spec/26 R353). A destination that no port reaches is LINK_LOST. -/
def execUalinkPortDown (port : Nat) (s : State) : Host.Outcome State Fault Refusal :=
  event s fun s => if port < 16 then { s with portsDown := s.portsDown ||| BitVec.shiftLeft 1 port } else s

/-- CRC_ERROR_REPLAY: bits [47:0] of the port's entry count the replays (Table 27-3), and the correction is logged. -/
def execCrcErrorReplay (port : Nat) (s : State) : Host.Outcome State Fault Refusal :=
  event s fun s =>
    if port > 15 then s
    else
      let v := Sparse.get s.telemetry (1088 + port)
      let low : DWord := ((v.extractLsb' 0 48) + 1).setWidth 64
      let high : DWord := BitVec.shiftLeft ((v.extractLsb' 48 16).setWidth 64) 48
      { s with telemetry := Sparse.set s.telemetry (1088 + port) (high ||| low) }.logError (logCorrect (80 + port))

end Sys2Proof.Machine
end

