-- ==== Sys2Proof/Machine/HostLink.lean ====
section
/-! DEFINITION. The host link: RDMA and atomics over queue pairs, and the management messages (spec/26 R355-R359). -/
namespace Sys2Proof.Machine

/-- The region of a request: its key, bounds and permission (spec/26 R356). -/
def State.regionFor (s : State) (ctx : Nat) (key : Word) (va : DWord) (n : Nat) (p : Region → Bool) : Bool :=
  s.regions.any fun r => r.1 / 64 = ctx && r.2.key = key && r.2.base.toNat ≤ va.toNat &&
    va.toNat + n ≤ r.2.base.toNat + r.2.len.toNat && p r.2

def HostOp.bytes : HostOp → Nat | .write d => d.length | .read n => n | .unsupported => 0 | _ => 8
def HostOp.allowed (o : HostOp) (r : Region) : Bool :=
  match o with | .write _ => r.w | .read _ => r.r | .unsupported => true | _ => r.atomic
def HostOp.need : HostOp → Need | .write _ => .write | .read _ => .read | _ => .both

/-- The line pieces of a host access, each translated; of the first that fails its address, and whether its page is absent and
host-managed. -/
def State.hostPieces (s : State) (ctx : Nat) (need : Need) : List (Nat × Nat) → Except (Nat × Bool) (List (Nat × Attr × Nat))
  | [] => .ok []
  | (va, n) :: rest =>
    match s.lookup ctx va need with
    | .error (sub, hm) => .error (va, sub = 0 && hm)
    | .ok (pa, a) => match s.hostPieces ctx need rest with
      | .ok l => .ok ((pa, a, n) :: l)
      | .error e => .error e

/-- Stores of a host write, at each line's home point (spec/26 R356). -/
def State.hostWrite (s : State) : List (Nat × Attr × Nat) → List Byte → Nat → State × Nat
  | [], _, ct => (s, ct)
  | (pa, a, n) :: rest, bs, ct =>
    let r := s.homePut a pa (bs.take n)
    r.1.hostWrite rest (bs.drop n) (max ct r.2)

/-- Whether an access covers a queue's TAIL word: agents are woken with code 8 (spec/15 R250, spec/10 Table 10-6). -/
def State.coversTail (s : State) (ctx va n : Nat) : Bool :=
  let e := s.ctxStored ctx
  ctxValid e && (upto 0 (ctxQcnt e)).any fun q =>
    match s.lookup ctx (ctxQtab e + 32 * q) .read with
    | .ok (d, _) => let t := s.mem.field (d + 16) 8; va < t + 8 && t < va + n
    | .error _ => false

def State.tailWake (s : State) (ctx va n : Nat) : State :=
  if s.coversTail ctx va n then (s.cores.map (·.1)).foldl (fun s k => s.signalWake k 8) s else s

def State.reply (s : State) (m : HostMsg) : State := { s with outbox := s.outbox ++ [m] }
def State.modQp (s : State) (qp : Nat) (f : QueuePair → QueuePair) : State :=
  { s with qps := Tbl.set s.qps qp (f ((Tbl.get? s.qps qp).getD {})) }

/-- The queue pair that carries only SEND messages (spec/26 R359): the spec gives it no number (DESIGN CHOICE, log 36). -/
def managementQp : Nat := 1023

/-- Carries out one request (spec/26 R355, R356): none while it is held for a page that is absent and host-managed. One that only SEND
may be on its queue pair is of an unsupported kind; one for a package that no port reaches changes nothing (log 36). A compare that
fails changes no word, and nothing is mirrored (R358). -/
def State.hostDo (s : State) (qp : Nat) (q : HostReq) : Option State :=
  let nak := s.reply (.nakAccess qp)
  let n := q.op.bytes
  let atomic : Bool := match q.op with | .fetchAdd _ | .cmpSwap _ _ => true | _ => false
  if q.op = .unsupported || qp = managementQp || (atomic && q.va.toNat % 8 ≠ 0) then some (s.reply (.nakInvalid qp))
  else if !s.regionFor q.ctx q.key q.va n q.op.allowed then some nak
  else match s.hostPieces q.ctx q.op.need (linePieces q.va.toNat n) with
    | .error (_, true) => none
    | .error (_, false) => some nak
    | .ok ps =>
      if ps.any fun p => s.cutOff p.1 then some nak
      else match q.op with
      | .write d =>
        let r := s.hostWrite ps d 0
        some ((r.1.modQp qp fun x => { x with ct := r.2, ackDue := true, away := ps.any fun p => s.foreign p.1 }).tailWake q.ctx q.va.toNat n)
      | .read _ => some (s.reply (.data qp (ps.flatMap fun p => s.mem.readBytes p.1 p.2.2)))
      | .fetchAdd x => match ps with
        | (pa, a, _) :: _ =>
          let old : DWord := BitVec.ofNat 64 (s.mem.field pa 8)
          let r := s.signalPut a pa (old + x)
          some (((r.1.reply (.old qp old)).modQp qp fun y => { y with ct := r.2, away := s.foreign pa }).tailWake q.ctx q.va.toNat 8)
        | [] => some s
      | .cmpSwap cmp x => match ps with
        | (pa, a, _) :: _ =>
          let old : DWord := BitVec.ofNat 64 (s.mem.field pa 8)
          if old ≠ cmp then some (s.reply (.old qp old))
          else
          let r := s.signalPut a pa x
          some (((r.1.reply (.old qp old)).modQp qp fun y => { y with ct := r.2, away := s.foreign pa }).tailWake q.ctx q.va.toNat 8)
        | [] => some s
      | .unsupported => some s

/-- Whether a request waits at a home point that relocks, or for a link that retrains (spec/18 R287, spec/27 R364). -/
def State.hostHeld (s : State) (q : HostReq) : Bool :=
  match s.hostPieces q.ctx q.op.need (linePieces q.va.toNat q.op.bytes) with
  | .ok ps => ps.any fun p => (s.hubHeld p.2.1 p.1).isSome
  | .error _ => false

/-- Whether another package has acknowledged what a queue pair wrote to it: a free value, since that comes from outside (spec/26 R354, log
29). One that no port reaches never does, and its request is answered with a NAK (log 36). -/
def State.qpAway (s : State) (qp : Nat) : State :=
  let x := (Tbl.get? s.qps qp).getD {}
  if !x.away then s
  else if s.unlinked then
    (if x.ackDue then s.reply (.nakAccess qp) else s).modQp qp fun y => { y with away := false, ackDue := false }
  else
    let (w, s) := s.free
    if w.getLsbD 0 then s.modQp qp fun y => { y with away := false } else s

/-- The requests of a queue pair in order, each once Meridian has passed the completion time of the one before (spec/26
R357), and another package that it wrote to has acknowledged it; a WRITE is acknowledged then. -/
def State.serveQp (s : State) (qp : Nat) : Nat → State
  | 0 => s
  | fuel + 1 =>
    let s := s.qpAway qp
    let x := (Tbl.get? s.qps qp).getD {}
    if x.away || s.meridian ≤ x.ct + 2 && x.ct ≠ 0 then s
    else
      let s := if x.ackDue then (s.reply (.ack qp x.ct)).modQp qp fun y => { y with ackDue := false } else s
      match x.held with
      | [] => s
      | q :: rest =>
        if s.hostHeld q then s
        else match s.hostDo qp q with
        | some s => (s.modQp qp fun y => { y with held := rest, asked := false }).serveQp qp fuel
        | none =>
          match s.hostPieces q.ctx q.op.need (linePieces q.va.toNat q.op.bytes) with
          | .error (va, _) =>
            if s.asking s.hostAgent then s
            else (s.reply (.pageAsk s.hostAgent q.ctx (BitVec.ofNat 64 va))).modQp qp fun y => { y with asked := true }
          | .ok _ => s

def State.serveQps (s : State) : State :=
  if !s.ready.getLsbD 112 then s else s.qps.foldl (fun s x => s.serveQp x.1 (x.2.held.length + 1)) s

/-- A request arrives on a queue pair, behind those that are held. -/
def State.hostArrive (s : State) (qp : Nat) (q : HostReq) : State :=
  let s := s.modQp qp fun x => { x with held := x.held ++ [q] }
  s.serveQp qp (((Tbl.get? s.qps qp).getD {}).held.length + 1)

/-- The frame of a host request: there are 1,024 queue pairs and 16 contexts (spec/26 R355). -/
def hostRequest (qp ctx : Nat) (q : HostReq) (s : State) : Host.Outcome State Fault Refusal :=
  eventHost s fun s => if qp < 1024 && ctx < 16 then s.hostArrive qp q else s

def execRdmaWrite (qp ctx : Nat) (key : Word) (va : DWord) (data : List Byte) (s : State) : Host.Outcome State Fault Refusal :=
  hostRequest qp ctx { ctx := ctx, key := key, va := va, op := .write data } s
def execRdmaRead (qp ctx : Nat) (key : Word) (va : DWord) (n : Nat) (s : State) : Host.Outcome State Fault Refusal :=
  hostRequest qp ctx { ctx := ctx, key := key, va := va, op := .read n } s
def execAtomicFetchAdd (qp ctx : Nat) (key : Word) (va : DWord) (x : DWord) (s : State) : Host.Outcome State Fault Refusal :=
  hostRequest qp ctx { ctx := ctx, key := key, va := va, op := .fetchAdd x } s
def execAtomicCmpSwap (qp ctx : Nat) (key : Word) (va : DWord) (cmp swap : DWord) (s : State) : Host.Outcome State Fault Refusal :=
  hostRequest qp ctx { ctx := ctx, key := key, va := va, op := .cmpSwap cmp swap } s
def execUnsupportedRequest (qp : Nat) (s : State) : Host.Outcome State Fault Refusal :=
  hostRequest qp 0 { ctx := 0, key := 0, va := 0, op := .unsupported } s

/-- HOST_PAGE_REPLY: to the agent of a core about a crew or a packet, or about the page of a host request (spec/13 R231,
spec/26 R356): it answers the one question that the agent has asked. A declined request is answered with a NAK for a remote access
error. An agent whose die relocks hears nothing (spec/18 R286). -/
def execHostPageReply (core : Nat) (granted : Bool) (s : State) : Host.Outcome State Fault Refusal :=
  eventHost s fun s =>
    if s.relocking (dieOfCore core) then s
    else match (s.core core).hostAsk with
    | some (_, false) => s.pageReply core granted
    | _ =>
      match if core = s.hostAgent then s.qps.find? fun x => x.2.asked else none with
      | none => s
      | some (qp, x) =>
        let s := s.modQp qp fun y => { y with asked := false }
        if granted then s.serveQp qp (x.held.length + 1)
        else match x.held with
          | [] => s
          | _ :: rest => ((s.reply (.nakAccess qp)).modQp qp fun y => { y with held := rest }).serveQp qp (x.held.length + 1)

/-- REGION_INSTALL: up to 64 regions of a context (spec/26 R356). -/
def execRegionInstall (ctx idx : Nat) (base len : DWord) (r w atomic : Bool) (key : Word) (s : State) :
    Host.Outcome State Fault Refusal :=
  eventHost s fun s =>
    if ctx > 15 || idx > 63 then s
    else { s with regions := Tbl.set s.regions (64 * ctx + idx) { base := base, len := len, r := r, w := w, atomic := atomic, key := key } }

/-- MIRRORED_PAGE_INSTALL: up to 16 mirrored 64 KiB pages of a context (spec/26 R358), each on a queue pair that carries RDMA WRITEs
(R355, R359). -/
def execMirroredPageInstall (ctx idx : Nat) (page host : DWord) (key : Word) (qp : Nat) (s : State) :
    Host.Outcome State Fault Refusal :=
  eventHost s fun s =>
    if ctx > 15 || idx > 15 || page.toNat % 2 ^ 16 ≠ 0 || managementQp ≤ qp then s
    else { s with mirrors := Tbl.set s.mirrors (16 * ctx + idx) { page := page, host := host, key := key, qp := qp } }

/-- CONTEXT_TABLE_UPDATE: an entry of the context table is written (spec/15 R249, spec/26 R359). -/
def execContextTableUpdate (ctx : Nat) (entry : BitVec 512) (s : State) : Host.Outcome State Fault Refusal :=
  eventHost s fun s =>
    if ctx > 15 then s
    else { s with mem := (s.mem.clear (s.ctxTable + 64 * ctx) 64).writeBytes (s.ctxTable + 64 * ctx) (toBytesLE 64 entry.toNat) }

end Sys2Proof.Machine
end

