-- ==== Sys2Proof/Decode.lean ====
section
/-! DEFINITION. The instruction word (spec/01): its fields, the decoder, which rejects a word with a cause of Table 1-7,
and the encoder. -/
namespace Sys2Proof

/-- The fields of an instruction word, Table 1-1 (spec/01 R8). -/
structure Raw where
  maj : BitVec 8
  min : BitVec 4
  gn : BitVec 1
  gp : BitVec 3
  d : BitVec 10
  a : BitVec 10
  b : BitVec 10
  c : BitVec 32
  h : BitVec 18
deriving DecidableEq, Repr

/-- The fields of a word (spec/01 Table 1-1). -/
def Raw.unpack (w : BitVec 96) : Raw where
  maj := w.extractLsb' 88 8
  min := w.extractLsb' 84 4
  gn := w.extractLsb' 83 1
  gp := w.extractLsb' 80 3
  d := w.extractLsb' 70 10
  a := w.extractLsb' 60 10
  b := w.extractLsb' 50 10
  c := w.extractLsb' 18 32
  h := w.extractLsb' 0 18

/-- The word of given fields. -/
def Raw.pack (r : Raw) : BitVec 96 :=
  r.maj ++ r.min ++ r.gn ++ r.gp ++ r.d ++ r.a ++ r.b ++ r.c ++ r.h

/-! ## Operand fields and codes -/

/-- The code of a special register, Table 1-3. -/
def Special.code : Special → BitVec 8
  | .lane => 0x80 | .crew => 0x81 | .party => 0x82 | .task => 0x83 | .ped => 0x84 | .peddig => 0x85 | .dix => 0x86
  | .seed => 0x87 | .fmt => 0x88 | .rbase => 0x89 | .regc => 0x8A | .clk => 0x8B | .mer => 0x8C | .wake => 0x8D
  | .die => 0x8E | .core => 0x8F | .fault => 0x90

/-- The special register of a code of class 10, if the code is assigned. -/
def Special.ofCode : BitVec 8 → Option Special
  | 0x80 => some .lane | 0x81 => some .crew | 0x82 => some .party | 0x83 => some .task | 0x84 => some .ped
  | 0x85 => some .peddig | 0x86 => some .dix | 0x87 => some .seed | 0x88 => some .fmt | 0x89 => some .rbase
  | 0x8A => some .regc | 0x8B => some .clk | 0x8C => some .mer | 0x8D => some .wake | 0x8E => some .die
  | 0x8F => some .core | 0x90 => some .fault
  | _ => none

/-- The 10-bit field of an operand (spec/01 Table 1-2). -/
def Operand.bits : Operand → BitVec 10
  | .v i => (0 : BitVec 2) ++ i
  | .s i => (4 : BitVec 4) ++ i
  | .p i => (0x40 : BitVec 7) ++ i
  | .sp x => (2 : BitVec 2) ++ x.code
  | .imm i => (3 : BitVec 2) ++ i

/-- The operand of a 10-bit field, or none for a reserved encoding (spec/01 R13, cause 0x02). -/
def Operand.ofBits (x : BitVec 10) : Option Operand :=
  let lo := x.extractLsb' 0 8
  match x.extractLsb' 8 2 with
  | 0 => if lo.toNat < 192 then some (.v lo) else none
  | 1 => if lo.toNat < 64 then some (.s (lo.extractLsb' 0 6)) else none
  | 2 => if lo.toNat < 8 then some (.p (lo.extractLsb' 0 3)) else (Special.ofCode lo).map .sp
  | _ => some (.imm lo)

def ICond.code : ICond → BitVec 3 | .eq => 0 | .ne => 1 | .lt => 2 | .le => 3 | .gt => 4 | .ge => 5
def ICond.ofCode : BitVec 3 → Option ICond
  | 0 => some .eq | 1 => some .ne | 2 => some .lt | 3 => some .le | 4 => some .gt | 5 => some .ge | _ => none
def FCond.code : FCond → BitVec 4
  | .eq => 0 | .ne => 1 | .lt => 2 | .le => 3 | .gt => 4 | .ge => 5 | .num => 6 | .nan => 7
def FCond.ofCode : BitVec 4 → Option FCond
  | 0 => some .eq | 1 => some .ne | 2 => some .lt | 3 => some .le | 4 => some .gt | 5 => some .ge | 6 => some .num
  | 7 => some .nan | _ => none
def ShflMode.code : ShflMode → BitVec 2 | .idx => 0 | .up => 1 | .down => 2 | .xor => 3
def ShflMode.ofCode : BitVec 2 → ShflMode | 0 => .idx | 1 => .up | 2 => .down | _ => .xor
def Seg.code : Seg → BitVec 3 | .w32 => 0 | .w16 => 1 | .w8 => 2 | .w4 => 3 | .w2 => 4
def Seg.ofCode : BitVec 3 → Option Seg
  | 0 => some .w32 | 1 => some .w16 | 2 => some .w8 | 3 => some .w4 | 4 => some .w2 | _ => none
def RedOp.code : RedOp → BitVec 3 | .add => 0 | .min => 1 | .max => 2 | .and => 3 | .or => 4 | .xor => 5
def RedOp.ofCode : BitVec 3 → Option RedOp
  | 0 => some .add | 1 => some .min | 2 => some .max | 3 => some .and | 4 => some .or | 5 => some .xor | _ => none
def AtomOp.code : AtomOp → BitVec 4
  | .add => 0 | .min => 1 | .max => 2 | .and => 3 | .or => 4 | .xor => 5 | .exch => 6 | .cas _ => 7
def AtomOp.ofCode (e : Operand) : BitVec 4 → Option AtomOp
  | 0 => some .add | 1 => some .min | 2 => some .max | 3 => some .and | 4 => some .or | 5 => some .xor
  | 6 => some .exch | 7 => some (.cas e) | _ => none
def AtomOp.e : AtomOp → Operand | .cas e => e | _ => .v 0
def IntTy.code : IntTy → BitVec 3
  | .s32 => 0 | .z32 => 1 | .s8 => 2 | .z8 => 3 | .s16 => 4 | .z16 => 5 | .s64 => 6 | .z64 => 7
def IntTy.ofCode : BitVec 3 → IntTy
  | 0 => .s32 | 1 => .z32 | 2 => .s8 | 3 => .z8 | 4 => .s16 | 5 => .z16 | 6 => .s64 | _ => .z64
def MemTy.code : MemTy → BitVec 3 | .b32 => 0 | .b64 => 1 | .b128 => 2 | .u8 => 3 | .s8 => 4 | .u16 => 5 | .s16 => 6
def MemTy.ofCode : BitVec 3 → Option MemTy
  | 0 => some .b32 | 1 => some .b64 | 2 => some .b128 | 3 => some .u8 | 4 => some .s8 | 5 => some .u16
  | 6 => some .s16 | _ => none
def StTy.code : StTy → BitVec 3 | .b32 => 0 | .b64 => 1 | .b128 => 2 | .u8 => 3 | .u16 => 5
def StTy.ofCode : BitVec 3 → Option StTy
  | 0 => some .b32 | 1 => some .b64 | 2 => some .b128 | 3 => some .u8 | 5 => some .u16 | _ => none
def Scope.code : Scope → BitVec 3 | .die => 0 | .crew => 1 | .party => 2 | .core => 3 | .pkg => 4 | .sys => 5
def Scope.ofCode : BitVec 3 → Option Scope
  | 0 => some .die | 1 => some .crew | 2 => some .party | 3 => some .core | 4 => some .pkg | 5 => some .sys | _ => none
def SigScope.code : SigScope → BitVec 3 | .die => 0 | .pkg => 4 | .sys => 5
def SigScope.ofCode : BitVec 3 → Option SigScope | 0 => some .die | 4 => some .pkg | 5 => some .sys | _ => none
def IScope.code : IScope → BitVec 3 | .die => 0 | .core => 3 | .pkg => 4
def IScope.ofCode : BitVec 3 → Option IScope | 0 => some .die | 3 => some .core | 4 => some .pkg | _ => none
def Order.code : Order → BitVec 2 | .plain => 0 | .acq => 1 | .rel => 2 | .ar => 3
def Order.ofCode : BitVec 2 → Order | 0 => .plain | 1 => .acq | 2 => .rel | _ => .ar
def FredTy.code : FredTy → BitVec 2 | .f32 => 0 | .bf16x2 => 1 | .f16x2 => 2
def FredTy.ofCode : BitVec 2 → Option FredTy | 0 => some .f32 | 1 => some .bf16x2 | 2 => some .f16x2 | _ => none
def MinMaxAdd.code : MinMaxAdd → BitVec 2 | .add => 0 | .min => 1 | .max => 2
def MinMaxAdd.ofCode : BitVec 2 → Option MinMaxAdd | 0 => some .add | 1 => some .min | 2 => some .max | _ => none
def SigCond.code : SigCond → BitVec 3 | .eq => 0 | .ne => 1 | .ge => 2 | .lt => 3
def SigCond.ofCode : BitVec 3 → Option SigCond | 0 => some .eq | 1 => some .ne | 2 => some .ge | 3 => some .lt | _ => none
def RO.code : RO → BitVec 3 | .fmt => 0 | .rne => 1 | .rtz => 2 | .rup => 3 | .rdn => 4 | .rto => 5 | .rs => 6
def RO.ofCode : BitVec 3 → Option RO
  | 0 => some .fmt | 1 => some .rne | 2 => some .rtz | 3 => some .rup | 4 => some .rdn | 5 => some .rto
  | 6 => some .rs | _ => none
def HTy.code : HTy → BitVec 1 | .bf16x2 => 0 | .f16x2 => 1
def HTy.ofCode : BitVec 1 → HTy | 0 => .bf16x2 | _ => .f16x2
def DotTy.code : DotTy → BitVec 2 | .e4m3 => 0 | .e5m2 => 1 | .s8 => 2 | .u8 => 3
def DotTy.ofCode : BitVec 2 → DotTy | 0 => .e4m3 | 1 => .e5m2 | 2 => .s8 | _ => .u8
def CvtTy.code : CvtTy → BitVec 4 | .f32 => 0 | .f16 => 1 | .bf16 => 2 | .e4m3 => 3 | .e5m2 => 4 | .s8 => 5 | .s32 => 6
def CvtTy.ofCode : BitVec 4 → Option CvtTy
  | 0 => some .f32 | 1 => some .f16 | 2 => some .bf16 | 3 => some .e4m3 | 4 => some .e5m2 | 5 => some .s8
  | 6 => some .s32 | _ => none
def RngOut.code : RngOut → BitVec 2 | .u32 => 0 | .f32 => 1 | .u64 => 2 | .u128 => 3
def RngOut.ofCode : BitVec 2 → RngOut | 0 => .u32 | 1 => .f32 | 2 => .u64 | _ => .u128
def RedKind.code : RedKind → BitVec 4
  | .addf32 => 0 | .addbf16 => 1 | .adds64 => 2 | .minf32 => 3 | .maxf32 => 4 | .mins64 => 5 | .maxs64 => 6
  | .amin => 7 | .amax => 8 | .log => 9
def RedKind.ofCode : BitVec 4 → Option RedKind
  | 0 => some .addf32 | 1 => some .addbf16 | 2 => some .adds64 | 3 => some .minf32 | 4 => some .maxf32
  | 5 => some .mins64 | 6 => some .maxs64 | 7 => some .amin | 8 => some .amax | 9 => some .log | _ => none
def XFmt.code : XFmt → BitVec 3 | .f32 => 0 | .f16 => 1 | .bf16 => 2 | .e4m3 => 3 | .e5m2 => 4
def XFmt.ofCode : BitVec 3 → Option XFmt
  | 0 => some .f32 | 1 => some .f16 | 2 => some .bf16 | 3 => some .e4m3 | 4 => some .e5m2 | _ => none
def WFmt.code : WFmt → BitVec 4 | .f32 => 0 | .f16 => 1 | .bf16 => 2 | .e4m3 => 3 | .e5m2 => 4 | .mldb => 8 | .mlde => 9
def WFmt.ofCode : BitVec 4 → Option WFmt
  | 0 => some .f32 | 1 => some .f16 | 2 => some .bf16 | 3 => some .e4m3 | 4 => some .e5m2 | 8 => some .mldb
  | 9 => some .mlde | _ => none
def TlbScope.code : TlbScope → BitVec 2 | .core => 0 | .die => 1 | .pkg => 2 | .bad => 3
def TlbScope.ofCode : BitVec 2 → TlbScope | 0 => .core | 1 => .die | 2 => .pkg | _ => .bad
def TlbKind.code : TlbKind → BitVec 2 | .ctx => 0 | .page => 1 | .all => 2 | .bad => 3
def TlbKind.ofCode : BitVec 2 → TlbKind | 0 => .ctx | 1 => .page | 2 => .all | _ => .bad
def FretHow.code : FretHow → BitVec 2 | .pc => 0 | .retry => 1 | .region => 2 | .endTask => 3
def FretHow.ofCode : BitVec 2 → FretHow | 0 => .pc | 1 => .retry | 2 => .region | _ => .endTask
def BudKind.code : BudKind → BitVec 2 | .time => 0 | .copy => 1 | .coll => 2 | .hbm => 3
def BudKind.ofCode : BitVec 2 → BudKind | 0 => .time | 1 => .copy | 2 => .coll | _ => .hbm

def b1 (b : Bool) : BitVec 1 := BitVec.ofBool b
def flag (x : BitVec 1) : Bool := x = 1

/-- PV and PEER as one field, PV lowest (spec/05 R101). -/
def peerBits : Option (BitVec 3) → BitVec 4 | none => 0 | some n => n ++ (1 : BitVec 1)
def peerOf (x : BitVec 4) : Option (Option (BitVec 3)) :=
  if x.extractLsb' 0 1 = 1 then some (some (x.extractLsb' 1 3)) else if x = 0 then some none else none

/-! ## The C field and the hints -/

inductive Form where | ci | cr | cs
deriving DecidableEq, Repr

/-- The C form of every assigned MAJ/MIN pair, Table 1-6; none for an unassigned or reserved pair (cause 0x01). -/
def formOf (maj : BitVec 8) (min : BitVec 4) : Option Form :=
  let n := min.toNat
  let cr (k : Nat) : Option Form := if n < k then some .cr else none
  match maj with
  | 0x01 => cr 9 | 0x02 => cr 6 | 0x03 => cr 6 | 0x04 => cr 5 | 0x05 => cr 7 | 0x06 => cr 2 | 0x07 => cr 1
  | 0x08 => cr 5 | 0x09 => cr 4
  | 0x0A => if n = 1 then some .ci else if n = 2 then some .cs else cr 4
  | 0x0B => cr 2
  | 0x20 => if n = 10 then some .ci else if n = 0 || n = 2 || n = 5 || n = 6 || n = 7 then some .cs else cr 10
  | 0x30 => if n < 3 then some .cs else none
  | 0x31 => if n < 2 then some .cs else none
  | 0x32 => if n < 2 then some .cs else none
  | 0x33 => if n < 1 then some .cs else none
  | 0x34 => if n = 2 then some .cs else if n = 3 then some .ci else cr 2
  | 0x35 => cr 2
  | 0x50 => cr 4 | 0x51 => cr 3 | 0x52 => cr 2
  | 0x60 => cr 8 | 0x61 => cr 7 | 0x62 => cr 4 | 0x63 => cr 1
  | 0x64 => if n = 0 then some .ci else cr 2
  | 0x65 => cr 2
  | 0x80 => if n = 0 then some .cs else cr 3
  | 0x81 => cr 2 | 0x82 => cr 3 | 0x83 => cr 1 | 0x84 => cr 4 | 0x85 => cr 2 | 0x86 => cr 1
  | 0x90 => cr 3 | 0x91 => cr 4 | 0x92 => cr 2 | 0x93 => cr 2 | 0x94 => cr 2
  | 0xB0 => cr 3 | 0xB1 => cr 4 | 0xB2 => cr 3
  | 0xC0 => cr 2 | 0xC1 => cr 1
  | 0xC2 => if n = 1 then some .ci else cr 3
  | 0xC3 => cr 3
  | _ => none

def Raw.form (r : Raw) : Option Form := formOf r.maj r.min

def Raw.e (r : Raw) : BitVec 10 := r.c.extractLsb' 22 10
def Raw.mod (r : Raw) : BitVec 22 := r.c.extractLsb' 0 22
def Raw.smod (r : Raw) : BitVec 12 := r.c.extractLsb' 20 12
def Raw.ofs (r : Raw) : BitVec 20 := r.c.extractLsb' 0 20

def crBits (e : BitVec 10) (mod : BitVec 22) : BitVec 32 := e ++ mod
def csBits (mod : BitVec 12) (ofs : BitVec 20) : BitVec 32 := mod ++ ofs

/-- The hint field (spec/01 Table 1-5). -/
def Ctl.hints (f : Ctl) : BitVec 18 := b1 f.re ++ b1 f.ie ++ f.st ++ b1 f.yl ++ f.ru ++ (0 : BitVec 8)

def Raw.ctl (r : Raw) : Ctl where
  gn := flag r.gn
  gp := r.gp
  re := flag (r.h.extractLsb' 17 1)
  ie := flag (r.h.extractLsb' 16 1)
  st := r.h.extractLsb' 12 4
  yl := flag (r.h.extractLsb' 11 1)
  ru := r.h.extractLsb' 8 3

/-! ## The instructions of each major opcode

`build` reads the modifier and the unused fields of an assigned opcode; none stands for cause 0x03. The operand fields
have been checked for reserved encodings before. -/

/-- A condition of `build`. -/
def need (b : Bool) : Option Unit := if b then some () else none

def Raw.D (r : Raw) : Operand := (Operand.ofBits r.d).getD (.v 0)
def Raw.A (r : Raw) : Operand := (Operand.ofBits r.a).getD (.v 0)
def Raw.B (r : Raw) : Operand := (Operand.ofBits r.b).getD (.v 0)
def Raw.E (r : Raw) : Operand := (Operand.ofBits r.e).getD (.v 0)

/-- A bit field of the 22-bit and of the 12-bit modifier. -/
def Raw.m (r : Raw) (i n : Nat) : BitVec n := r.mod.extractLsb' i n
def Raw.sm (r : Raw) (i n : Nat) : BitVec n := r.smod.extractLsb' i n
/-- One modifier bit as a flag. -/
def Raw.mb (r : Raw) (i : Nat) : Bool := flag (r.m i 1)
def Raw.smb (r : Raw) (i : Nat) : Bool := flag (r.sm i 1)
/-- The modifier bits from `k` upward are zero. -/
def Raw.top (r : Raw) (k : Nat) : Bool := r.mod.toNat < 2 ^ k
def Raw.stop (r : Raw) (k : Nat) : Bool := r.smod.toNat < 2 ^ k

/-- The combination field CB and its predicate E (spec/04 R71). -/
def Raw.comb (r : Raw) (cb : BitVec 2) : Option Comb :=
  match cb with
  | 0 => if r.e = 0 then some .none else none
  | 1 => some (.and r.E)
  | 2 => some (.or r.E)
  | _ => some (.xor r.E)

def build01 (r : Raw) : Option Instr :=
  let f := r.ctl
  let z := r.e = 0
  let z2 := z && r.b = 0
  match r.min with
  | 0 => do need (z && r.top 1); some (.iadd f r.D r.A r.B (r.mb 0))
  | 1 => do need (z && r.top 1); some (.isub f r.D r.A r.B (r.mb 0))
  | 2 => do need (r.top 1); some (.iadd3 f r.D r.A r.B r.E (r.mb 0))
  | 3 => do need (z && r.top 2); some (.iaddsat f r.D r.A r.B (r.mb 0) (r.mb 1))
  | 4 => do need (z && r.top 2); some (.isubsat f r.D r.A r.B (r.mb 0) (r.mb 1))
  | 5 => do need (z2 && r.top 1); some (.ineg f r.D r.A (r.mb 0))
  | 6 => do need (z2 && r.top 1); some (.iabs f r.D r.A (r.mb 0))
  | 7 => do need (z && r.top 2); some (.imin f r.D r.A r.B (r.mb 0) (r.mb 1))
  | 8 => do need (z && r.top 2); some (.imax f r.D r.A r.B (r.mb 0) (r.mb 1))
  | _ => none

def build02 (r : Raw) : Option Instr :=
  let f := r.ctl
  let z := r.e = 0
  match r.min with
  | 0 => do need (z && r.top 2); some (.imul f r.D r.A r.B (r.mb 0) (r.mb 1))
  | 1 => do need (z && r.top 2); some (.imulhi f r.D r.A r.B (r.mb 0) (r.mb 1))
  | 2 => do need (r.top 2); some (.imad f r.D r.A r.B r.E (r.mb 0) (r.mb 1))
  | 3 => do need (r.top 2 && !r.mb 0); some (.imadw f r.D r.A r.B r.E (r.mb 1))
  | 4 => do need (z && r.top 2); some (.idiv f r.D r.A r.B (r.mb 0) (r.mb 1))
  | 5 => do need (z && r.top 2); some (.irem f r.D r.A r.B (r.mb 0) (r.mb 1))
  | _ => none

def build03 (r : Raw) : Option Instr :=
  let f := r.ctl
  let z := r.e = 0 && r.top 1
  match r.min with
  | 0 => do need z; some (.and f r.D r.A r.B (r.mb 0))
  | 1 => do need z; some (.or f r.D r.A r.B (r.mb 0))
  | 2 => do need z; some (.xor f r.D r.A r.B (r.mb 0))
  | 3 => do need z; some (.andn f r.D r.A r.B (r.mb 0))
  | 4 => do need z; some (.orn f r.D r.A r.B (r.mb 0))
  | 5 => do need (z && r.b = 0); some (.not f r.D r.A (r.mb 0))
  | _ => none

def build04 (r : Raw) : Option Instr :=
  let f := r.ctl
  let z := r.e = 0 && r.top 1
  match r.min with
  | 0 => do need z; some (.shl f r.D r.A r.B (r.mb 0))
  | 1 => do need z; some (.shr f r.D r.A r.B (r.mb 0))
  | 2 => do need z; some (.sar f r.D r.A r.B (r.mb 0))
  | 3 => do need z; some (.rotl f r.D r.A r.B (r.mb 0))
  | 4 => do need (r.top 3 && !r.mb 1); some (.shf f r.D r.A r.B r.E (r.mb 0) (r.mb 2))
  | _ => none

/-- Position and length of BFX and BFI (spec/04 R67). -/
def Raw.fieldSpec (r : Raw) : Option FieldSpec :=
  if r.mb 2 then
    if (r.m 9 7).toNat ≤ 64 && r.e = 0 then some (.imm (r.m 3 6) (r.m 9 7)) else none
  else if r.m 3 13 = 0 then some (.reg r.E) else none

def build05 (r : Raw) : Option Instr :=
  let f := r.ctl
  let z := r.e = 0 && r.b = 0 && r.top 1
  match r.min with
  | 0 => do need (r.top 16 && r.b = 0); let sp ← r.fieldSpec; some (.bfx f r.D r.A sp (r.mb 0) (r.mb 1))
  | 1 => do need (r.top 16 && !r.mb 1); let sp ← r.fieldSpec; some (.bfi f r.D r.A r.B sp (r.mb 0))
  | 2 => do need z; some (.popc f r.D r.A (r.mb 0))
  | 3 => do need z; some (.clz f r.D r.A (r.mb 0))
  | 4 => do need z; some (.ctz f r.D r.A (r.mb 0))
  | 5 => do need z; some (.brev f r.D r.A (r.mb 0))
  | 6 =>
    if r.mb 16 then do need (r.top 17 && r.e = 0); some (.prmt f r.D r.A r.B (.imm (r.m 0 16)))
    else do need (r.mod = 0); some (.prmt f r.D r.A r.B (.reg r.E))
  | _ => none

def build06 (r : Raw) : Option Instr :=
  let z := r.e = 0 && r.top 1
  match r.min with
  | 0 => do need z; some (.clmul r.ctl r.D r.A r.B (r.mb 0))
  | 1 => do need z; some (.clmulh r.ctl r.D r.A r.B (r.mb 0))
  | _ => none

def build07 (r : Raw) : Option Instr := do
  need (r.top 7)
  let cc ← ICond.ofCode (r.m 2 3)
  let cb ← r.comb (r.m 5 2)
  some (.icmp r.ctl r.D r.A r.B cc cb (r.mb 0) (r.mb 1))

def build08 (r : Raw) : Option Instr :=
  let f := r.ctl
  let z := r.e = 0 && r.mod = 0
  match r.min with
  | 0 => do need z; some (.pand f r.D r.A r.B)
  | 1 => do need z; some (.por f r.D r.A r.B)
  | 2 => do need z; some (.pxor f r.D r.A r.B)
  | 3 => do need (z && r.b = 0); some (.pnot f r.D r.A)
  | 4 => do need (r.top 1); some (.sel f r.D r.A r.B r.E (r.mb 0))
  | _ => none

def build09 (r : Raw) : Option Instr :=
  let f := r.ctl
  let z := r.e = 0
  match r.min with
  | 0 => do
    need (z && r.top 4 && r.m 0 2 = 0)
    match r.m 2 2 with
    | 0 => do need (r.b = 0); some (.vote f r.D r.A .all)
    | 1 => do need (r.b = 0); some (.vote f r.D r.A .any)
    | 2 => do need (r.b = 0); some (.vote f r.D r.A .uni)
    | _ => some (.vote f r.D r.A (.ballot r.B))
  | 1 => do need (z && r.top 1); some (.bcast f r.D r.A r.B (r.mb 0))
  | 2 => do
    need (z && r.top 7 && !r.mb 1)
    let sg ← Seg.ofCode (r.m 4 3)
    some (.shfl f r.D r.A r.B (ShflMode.ofCode (r.m 2 2)) sg (r.mb 0))
  | 3 => do
    need (z && r.b = 0 && r.top 5)
    let op ← RedOp.ofCode (r.m 2 3)
    some (.redux f r.D r.A op (r.mb 0) (r.mb 1))
  | _ => none

def build0A (r : Raw) : Option Instr :=
  let f := r.ctl
  match r.min with
  | 0 => do need (r.e = 0 && r.b = 0 && r.top 1); some (.mov f r.D r.A (r.mb 0))
  | 1 => do need (r.a = 0 && r.b = 0); some (.movi f r.D r.c)
  | 2 =>
    if h : r.stop 4 ∧ (r.sm 0 3).toNat < 5 then some (.lea f r.D r.A r.B ⟨(r.sm 0 3).toNat, h.2⟩ (r.smb 3) r.ofs) else none
  | 3 => do
    need (r.e = 0 && r.b = 0 && r.top 9 && r.m 0 2 = 0)
    some (.i2i f r.D r.A (IntTy.ofCode (r.m 5 3)) (IntTy.ofCode (r.m 2 3)) (r.mb 8))
  | _ => none

def build0B (r : Raw) : Option Instr :=
  match r.min with
  | 0 => do
    need (r.e = 0 && r.b = 0 && r.top 1 && (!r.mb 0 || r.A = .sp .dix))
    some (.rdsp r.ctl r.D r.A (r.mb 0))
  | 1 => do need (r.e = 0 && r.b = 0 && r.top 1); some (.wrsp r.ctl r.A (r.mb 0))
  | _ => none

def build20 (r : Raw) : Option Instr :=
  let f := r.ctl
  let z := r.d = 0 && r.a = 0 && r.b = 0
  let zr := z && r.c = 0
  let zs := z && r.smod = 0
  match r.min with
  | 0 => do need zs; some (.bra f r.ofs)
  | 1 => do need (r.d = 0 && r.b = 0 && r.c = 0); some (.brx f r.A)
  | 2 => do need (r.a = 0 && r.b = 0 && r.smod = 0); some (.call f r.D r.ofs)
  | 3 => do need (r.d = 0 && r.b = 0 && r.c = 0); some (.ret f r.A)
  | 4 => do need zr; some (.exit f)
  | 5 => do need zs; some (.reconv f r.ofs)
  | 6 => do need zs; some (.brk f r.ofs)
  | 7 => do need zs; some (.cont f r.ofs)
  | 8 => do need zr; some (.yield f)
  | 9 => do need zr; some (.nop f)
  | 10 => do need z; some (.trap f r.c)
  | _ => none

def build30 (r : Raw) : Option Instr :=
  let f := r.ctl
  match r.min with
  | 0 => do
    need (r.b = 0 && (r.sm 3 2).toNat ≤ 1)
    let ty ← MemTy.ofCode (r.sm 0 3)
    let sc ← Scope.ofCode (r.sm 5 3)
    need (r.sm 3 2 = 1 || sc = .die)
    some (.ld f r.D r.A r.ofs ty (r.smb 3) sc (r.smb 8) (r.smb 11) (r.sm 9 2))
  | 1 => do
    need (r.d = 0 && r.stop 8 && !r.smb 3)
    let ty ← StTy.ofCode (r.sm 0 3)
    let sc ← Scope.ofCode (r.sm 5 3)
    some (.st f r.A r.B r.ofs ty (r.smb 4) sc)
  | 2 => do need (r.d = 0 && r.b = 0 && r.stop 1); some (.pref f r.A r.ofs (r.smb 0))
  | _ => none

def build31 (r : Raw) : Option Instr :=
  match r.min with
  | 0 => do
    need (r.b = 0 && r.stop 7)
    let ty ← MemTy.ofCode (r.sm 0 3)
    let pe ← peerOf (r.sm 3 4)
    some (.lds r.ctl r.D r.A r.ofs ty pe)
  | 1 => do
    need (r.d = 0 && r.stop 7)
    let ty ← StTy.ofCode (r.sm 0 3)
    let pe ← peerOf (r.sm 3 4)
    some (.sts r.ctl r.A r.B r.ofs ty pe)
  | _ => none

def build32 (r : Raw) : Option Instr :=
  match r.min with
  | 0 => do need (r.b = 0 && r.smod = 0); some (.ldr r.ctl r.D r.A r.ofs)
  | 1 => do need (r.d = 0 && r.smod = 0); some (.str r.ctl r.A r.B r.ofs)
  | _ => none

def build33 (r : Raw) : Option Instr := do
  need (r.b = 0 && r.stop 3)
  let ty ← MemTy.ofCode (r.sm 0 3)
  some (.ldw r.ctl r.D r.A r.ofs ty)

def build34 (r : Raw) : Option Instr :=
  let f := r.ctl
  match r.min with
  | 0 => do
    need (r.d = 0 && r.a = 0 && r.b = 0 && r.e = 0 && r.top 5)
    let sc ← Scope.ofCode (r.m 0 3)
    some (.fence f (Order.ofCode (r.m 3 2)) sc)
  | 1 => do
    need (r.d = 0 && r.a = 0 && r.b = 0 && r.e = 0 && r.top 3)
    let sc ← IScope.ofCode (r.m 0 3)
    some (.iinv f sc)
  | 2 => do
    need (r.d = 0 && r.b = 0 && r.stop 4)
    let sc ← Scope.ofCode (r.sm 0 3)
    some (.cflush f r.A r.ofs sc (r.smb 3))
  | 3 => do
    need (r.d = 0 && r.a = 0 && r.b = 0 && r.c.extractLsb' 24 8 = 0)
    some (.waitc f (r.c.extractLsb' 0 6) (r.c.extractLsb' 6 6) (r.c.extractLsb' 12 6) (r.c.extractLsb' 18 6))
  | _ => none

def build35 (r : Raw) : Option Instr :=
  match r.min with
  | 0 => do need (r.d = 0 && r.c = 0); some (.tshape r.ctl r.A r.B)
  | 1 => do
    need (r.d = 0 && r.top 2)
    if r.mb 1 then some (.tcopy r.ctl r.A r.B (some r.E) (r.mb 0))
    else do need (r.e = 0); some (.tcopy r.ctl r.A r.B none (r.mb 0))
  | _ => none

def build50 (r : Raw) : Option Instr :=
  let f := r.ctl
  match r.min with
  | 0 => do
    need (r.top 11 && (r.m 2 4 = 7 || r.e = 0))
    let op ← AtomOp.ofCode r.E (r.m 2 4)
    let sc ← Scope.ofCode (r.m 8 3)
    some (.atom f r.D r.A r.B op (Order.ofCode (r.m 6 2)) sc (r.mb 0) (r.mb 1))
  | 1 => do
    need (r.top 10 && (r.m 2 4 = 7 || r.e = 0))
    let op ← AtomOp.ofCode r.E (r.m 2 4)
    let pe ← peerOf (r.m 6 4)
    some (.atoms f r.D r.A r.B op pe (r.mb 0) (r.mb 1))
  | 2 => do
    need (r.d = 0 && r.e = 0 && r.top 11 && !r.mb 6 && !r.mb 5)
    let op ← RedOp.ofCode (r.m 2 3)
    let sc ← Scope.ofCode (r.m 8 3)
    some (.red f r.A r.B op (r.mb 7) sc (r.mb 0) (r.mb 1))
  | 3 => do
    need (r.d = 0 && r.e = 0 && r.top 11)
    let ft ← FredTy.ofCode (r.m 0 2)
    let op ← MinMaxAdd.ofCode (r.m 2 2)
    let sc ← Scope.ofCode (r.m 8 3)
    some (.fred f r.A r.B ft op (r.mb 4) (r.mb 5) (r.mb 6) (r.mb 7) sc)
  | _ => none

def build51 (r : Raw) : Option Instr :=
  let f := r.ctl
  match r.min with
  | 0 => do
    need (r.d = 0 && r.e = 0 && r.top 3)
    let sc ← SigScope.ofCode (r.m 0 3)
    some (.sigset f r.A r.B sc)
  | 1 => do
    need (r.e = 0 && r.top 4)
    let sc ← SigScope.ofCode (r.m 0 3)
    if r.mb 3 then do need (r.d = 0); some (.sigadd f none r.A r.B sc)
    else some (.sigadd f (some r.D) r.A r.B sc)
  | 2 => do
    need (r.e = 0 && r.top 6)
    let sc ← SigScope.ofCode (r.m 0 3)
    let cc ← SigCond.ofCode (r.m 3 3)
    some (.sigwait f r.D r.A r.B cc sc)
  | _ => none

def build52 (r : Raw) : Option Instr :=
  let f := r.ctl
  match r.min with
  | 0 => do
    need (r.e = 0 && r.top 4)
    let sc ← SigScope.ofCode (r.m 0 3)
    if r.mb 3 then some (.ticket f r.D r.A (some r.B) sc)
    else do need (r.b = 0); some (.ticket f r.D r.A none sc)
  | 1 => do
    need (r.d = 0 && r.b = 0 && r.e = 0 && r.top 3)
    let sc ← SigScope.ofCode (r.m 0 3)
    some (.tkserve f r.A sc)
  | _ => none

/-- MAJ 0x60. A B of FCLASS that is not 0 beside a register D is cause 0x03; beside a D that is neither register nor predicate the
class of D counts, cause 0x05 (spec/07 R135; log 51). -/
def build60 (r : Raw) : Option Instr :=
  let f := r.ctl
  let z := r.e = 0
  match r.min with
  | 0 => do need (z && r.top 3); let ro ← RO.ofCode (r.m 0 3); some (.fadd f r.D r.A r.B ro)
  | 1 => do need (z && r.top 3); let ro ← RO.ofCode (r.m 0 3); some (.fsub f r.D r.A r.B ro)
  | 2 => do need (z && r.top 3); let ro ← RO.ofCode (r.m 0 3); some (.fmul f r.D r.A r.B ro)
  | 3 => do need (r.top 3); let ro ← RO.ofCode (r.m 0 3); some (.ffma f r.D r.A r.B r.E ro)
  | 4 => do need (z && r.mod = 0); some (.fmin f r.D r.A r.B)
  | 5 => do need (z && r.mod = 0); some (.fmax f r.D r.A r.B)
  | 6 => do
    need (r.top 8 && r.m 0 2 = 0)
    let cc ← FCond.ofCode (r.m 2 4)
    let cb ← r.comb (r.m 6 2)
    some (.fcmp f r.D r.A r.B cc cb)
  | 7 => do need (z && r.mod = 0 && (r.D.isP || r.b = 0 || !(r.D.isV || r.D.isS))); some (.fclass f r.D r.A r.B)
  | _ => none

def build61 (r : Raw) : Option Instr :=
  let f := r.ctl
  let z := r.b = 0 && r.c = 0
  match r.min with
  | 0 => do need z; some (.frcp f r.D r.A)
  | 1 => do need z; some (.frsq f r.D r.A)
  | 2 => do need z; some (.fsqrt f r.D r.A)
  | 3 => do need z; some (.fex2 f r.D r.A)
  | 4 => do need z; some (.flg2 f r.D r.A)
  | 5 => do need z; some (.fsin f r.D r.A)
  | 6 => do need z; some (.fcos f r.D r.A)
  | _ => none

def build62 (r : Raw) : Option Instr :=
  let f := r.ctl
  let ht := HTy.ofCode (r.m 3 1)
  match r.min with
  | 0 => do need (r.e = 0 && r.top 4); let ro ← RO.ofCode (r.m 0 3); some (.hadd2 f r.D r.A r.B ht ro)
  | 1 => do need (r.e = 0 && r.top 4); let ro ← RO.ofCode (r.m 0 3); some (.hmul2 f r.D r.A r.B ht ro)
  | 2 => do need (r.top 4); let ro ← RO.ofCode (r.m 0 3); some (.hfma2 f r.D r.A r.B r.E ht ro)
  | 3 => do
    need (r.top 6 && !r.mb 3)
    let ro ← RO.ofCode (r.m 0 3)
    let et := DotTy.ofCode (r.m 4 2)
    need ((et = .e4m3 || et = .e5m2) || ro = .fmt)
    some (.dot4 f r.D r.A r.B r.E et ro)
  | _ => none

def build63 (r : Raw) : Option Instr := do
  need (r.e = 0 && r.top 14 && (r.mb 11 || r.b = 0))
  let ro ← RO.ofCode (r.m 0 3)
  let dt ← CvtTy.ofCode (r.m 3 4)
  let sf ← CvtTy.ofCode (r.m 7 4)
  let i := Instr.cvt r.ctl r.D r.A (if r.mb 11 then some r.B else none) dt sf ro (r.m 12 2)
  need i.modOk
  some i

def build64 (r : Raw) : Option Instr :=
  match r.min with
  | 0 => do
    let i := Instr.fmtset r.ctl r.c
    need (r.d = 0 && r.a = 0 && r.b = 0 && i.modOk)
    some i
  | 1 => do need (r.a = 0 && r.b = 0 && r.c = 0); some (.fmtget r.ctl r.D)
  | _ => none

def build65 (r : Raw) : Option Instr :=
  match r.min with
  | 0 => do need (r.a = 0 && r.b = 0 && r.e = 0 && r.top 2); some (.rngu r.ctl r.D (RngOut.ofCode (r.m 0 2)))
  | 1 => do need (r.a = 0 && r.b = 0 && r.c = 0); some (.rngn r.ctl r.D)
  | _ => none

def build80 (r : Raw) : Option Instr :=
  match r.min with
  | 0 => do need (r.d = 0 && r.a = 0 && r.stop 3); some (.spawn r.ctl r.B (r.sm 0 3) r.ofs)
  | 1 => do need (r.d = 0 && r.e = 0 && r.top 3); some (.spawnr r.ctl r.A r.B (r.m 0 3))
  | 2 => do need (r.d = 0 && r.a = 0 && r.b = 0 && r.c = 0); some (.join r.ctl)
  | _ => none

def build82 (r : Raw) : Option Instr :=
  match r.min with
  | 0 => do
    need (r.d = 0 && r.top 4)
    let k ← RedKind.ofCode (r.m 0 4)
    some (.vdecl r.ctl r.A r.B r.E k)
  | 1 => do need (r.b = 0 && r.c = 0); some (.vptr r.ctl r.D r.A)
  | 2 => do need (r.d = 0 && r.b = 0 && r.e = 0 && r.top 1); some (.vfin r.ctl r.A (r.mb 0))
  | _ => none

def build84 (r : Raw) : Option Instr :=
  let f := r.ctl
  let z := r.d = 0 && r.a = 0 && r.b = 0 && r.e = 0
  match r.min with
  | 0 => do need (z && r.mod = 0); some (.barp f)
  | 1 => do need (z && r.top 1); some (.barc f (r.mb 0))
  | 2 =>
    if r.mb 0 then do need (r.d = 0 && r.e = 0 && r.top 1); some (.arriveInit f r.A r.B)
    else do need (r.e = 0 && r.mod = 0); some (.arrive f r.D r.A r.B)
  | 3 => do need (r.d = 0 && r.e = 0 && r.mod = 0); some (.await f r.A r.B)
  | _ => none

def build85 (r : Raw) : Option Instr :=
  let f := r.ctl
  let z := r.e = 0 && r.top 2
  match r.min, r.m 0 2 with
  | 0, 0 => do need (z && r.b = 0); some (.ringputGet f r.D r.A)
  | 0, 1 => do need (z && r.d = 0); some (.ringputPub f r.A r.B)
  | 0, 2 => do need (z && r.d = 0); some (.ringputInit f r.A r.B)
  | 1, 0 => do need (z && r.b = 0); some (.ringgetGet f r.D r.A)
  | 1, 1 => do need (z && r.d = 0); some (.ringgetRel f r.A r.B)
  | _, _ => none

def build90 (r : Raw) : Option Instr :=
  let f := r.ctl
  let z := r.d = 0 && r.top 5
  match r.min with
  | 0 => do need (z && r.e = 0); some (.tmma f r.A r.B (r.m 0 5))
  | 1 => do need z; some (.tmmae f r.A r.B r.E (r.m 0 5))
  | 2 => do need (z && r.e = 0); some (.tmmag f r.A r.B (r.m 0 5))
  | _ => none

def build91 (r : Raw) : Option Instr :=
  let f := r.ctl
  let z := r.d = 0 && r.e = 0
  let zz := z && r.a = 0 && r.b = 0
  match r.min with
  | 0 => do need (zz && r.top 5); some (.tzero f (r.m 0 5))
  | 1 => do need (z && r.top 5); some (.tload f r.A r.B (r.m 0 5))
  | 2 => do need (zz && r.top 10); some (.tadd f (r.m 0 5) (r.m 5 5))
  | 3 => do need (z && r.mod = 0); some (.tlink f r.A r.B)
  | _ => none

def build92 (r : Raw) : Option Instr :=
  match r.min with
  | 0 => do need (r.d = 0 && r.e = 0 && r.top 7); some (.tdrain r.ctl r.A r.B (r.m 0 5) (r.mb 5) (r.mb 6))
  | 1 => do need (r.d = 0 && r.top 7 && !r.mb 5); some (.tdrainl r.ctl r.A r.B r.E (r.m 0 5) (r.mb 6))
  | _ => none

def build93 (r : Raw) : Option Instr := do
  need (r.top 20)
  let xf ← XFmt.ofCode (r.m 12 3)
  let wf ← WFmt.ofCode (r.m 15 4)
  match r.min with
  | 0 => do need (r.e = 0); some (.ommv r.ctl r.D r.A r.B (r.m 0 6) (r.m 6 6) xf wf (r.mb 19))
  | 1 => do
    need (wf = .mldb || wf = .mlde)
    some (.ommve r.ctl r.D r.A r.B r.E (r.m 0 6) (r.m 6 6) xf wf (r.mb 19))
  | _ => none

def buildB0 (r : Raw) : Option Instr :=
  match r.min with
  | 0 => do need (r.d = 0 && r.top 1); some (.tcopyx r.ctl r.A r.B r.E (r.mb 0))
  | 1 => do need (r.c = 0); some (.cstart r.ctl r.D r.A r.B)
  | 2 => do need (r.b = 0 && r.c = 0); some (.cstat r.ctl r.D r.A)
  | _ => none

def buildB1 (r : Raw) : Option Instr :=
  let f := r.ctl
  let z := r.d = 0 && r.e = 0
  match r.min with
  | 0 =>
    if h : (z && r.top 4) = true ∧ 1 ≤ (r.m 0 3).toNat ∧ (r.m 0 3).toNat - 1 < 5 then
      some (.agate f r.A r.B ⟨(r.m 0 3).toNat - 1, h.2.2⟩ (r.mb 3))
    else none
  | 1 => do need (z && r.top 1); some (if r.mb 0 then .amapRd f r.A r.B else .amap f r.A r.B)
  | 2 => do need (z && r.top 6); some (.aswap f r.A r.B (r.m 0 6))
  | 3 => do need (z && r.mod = 0); some (.anorm f r.A r.B)
  | _ => none

def buildB2 (r : Raw) : Option Instr :=
  match r.min with
  | 0 => do need (r.a = 0 && r.b = 0 && r.e = 0 && r.top 1); some (.rdmer r.ctl r.D (r.mb 0))
  | 1 => do need (r.a = 0 && r.b = 0 && r.e = 0 && r.top 1); some (.rdclk r.ctl r.D (r.mb 0))
  | 2 => do need (r.b = 0 && r.c = 0); some (.clk2mer r.ctl r.D r.A)
  | _ => none

/-- FWCALL by its service number (spec/10 R194, spec/26 Table 26-2, spec/27 Table 27-4). -/
def fwService (f : Ctl) (imm : Word) : Instr :=
  match imm with
  | 0x10 => .commset f | 0x11 => .commclr f | 0x12 => .schedset f | 0x13 => .schedclr f
  | 0x20 => .telrd f | 0x21 => .fstep f | 0x22 => .repinv f | 0x23 => .attest f
  | _ => .fwcall f imm

def buildC2 (r : Raw) : Option Instr :=
  match r.min with
  | 0 => do need (r.e = 0 && r.top 2); some (.fret r.ctl r.D r.A r.B (FretHow.ofCode (r.m 0 2)))
  | 1 => do need (r.d = 0 && r.a = 0 && r.b = 0); some (fwService r.ctl r.c)
  | 2 => do
    need (r.top 3)
    let sc ← SigScope.ofCode (r.m 0 3)
    some (.sigraise r.ctl r.D r.A r.B r.E sc)
  | _ => none

def buildC3 (r : Raw) : Option Instr :=
  match r.min with
  | 0 => do need (r.e = 0 && r.top 2); some (.budset r.ctl r.D r.A r.B (BudKind.ofCode (r.m 0 2)))
  | 1 => do need (r.c = 0); some (.wakeset r.ctl r.D r.A r.B)
  | 2 => do need (r.a = 0 && r.b = 0 && r.c = 0); some (.sleep r.ctl r.D)
  | _ => none

/-- The instruction that the fields name once its opcode is assigned and its operand fields hold no reserved encoding;
none for cause 0x03: a nonzero unused field, an undefined modifier bit or a modifier value that is not allowed. -/
def build (r : Raw) : Option Instr :=
  if r.h.extractLsb' 0 8 ≠ 0 then none
  else match r.maj with
  | 0x01 => build01 r | 0x02 => build02 r | 0x03 => build03 r | 0x04 => build04 r | 0x05 => build05 r
  | 0x06 => build06 r | 0x07 => build07 r | 0x08 => build08 r | 0x09 => build09 r | 0x0A => build0A r
  | 0x0B => build0B r | 0x20 => build20 r | 0x30 => build30 r | 0x31 => build31 r | 0x32 => build32 r
  | 0x33 => build33 r | 0x34 => build34 r | 0x35 => build35 r | 0x50 => build50 r | 0x51 => build51 r
  | 0x52 => build52 r | 0x60 => build60 r | 0x61 => build61 r | 0x62 => build62 r | 0x63 => build63 r
  | 0x64 => build64 r | 0x65 => build65 r | 0x80 => build80 r
  | 0x81 => match r.min with
    | 0 => do need (r.c = 0); some (.pedget r.ctl r.D r.B)
    | 1 => do need (r.c = 0); some (.pedcmp r.ctl r.D r.A r.B)
    | _ => none
  | 0x82 => build82 r
  | 0x83 => do need (r.b = 0 && r.c = 0); some (.alloc r.ctl r.D r.A)
  | 0x84 => build84 r | 0x85 => build85 r
  | 0x86 => do need (r.d = 0 && r.a = 0 && r.b = 0 && r.c = 0); some (.trigger r.ctl)
  | 0x90 => build90 r | 0x91 => build91 r | 0x92 => build92 r | 0x93 => build93 r
  | 0x94 => match r.min with
    | 0 => do need (r.c = 0); some (.histrd r.ctl r.D r.A r.B)
    | 1 => do need (r.d = 0 && r.c = 0); some (.histclr r.ctl r.A r.B)
    | _ => none
  | 0xB0 => buildB0 r | 0xB1 => buildB1 r | 0xB2 => buildB2 r
  | 0xC0 => match r.min with
    | 0 => do need (r.c = 0); some (.ctxsave r.ctl r.D r.A r.B)
    | 1 => do need (r.c = 0); some (.ctxload r.ctl r.D r.A r.B)
    | _ => none
  | 0xC1 => do
    need (r.e = 0 && r.top 4)
    some (.tlbinv r.ctl r.D r.A r.B (TlbScope.ofCode (r.m 0 2)) (TlbKind.ofCode (r.m 2 2)))
  | 0xC2 => buildC2 r | 0xC3 => buildC3 r
  | _ => none

/-! ## Decoding -/

/-- Some operand field holds a reserved encoding (cause 0x02); E counts in form CR only. -/
def Raw.reserved (r : Raw) (fm : Form) : Bool :=
  (Operand.ofBits r.d).isNone || (Operand.ofBits r.a).isNone || (Operand.ofBits r.b).isNone ||
    (fm = .cr && (Operand.ofBits r.e).isNone)

/-- A register range that the word names passes its file (cause 0x02, spec/05 R96, spec/09 R175). The range is read
from the fields, whatever the rest of the word holds. -/
def Raw.rangeBad (r : Raw) : Bool :=
  let beyond (o : Operand) (n : Nat) : Bool :=
    match o with
    | .v i => i.toNat + n > 192
    | .s i => i.toNat + n > 64
    | _ => false
  if r.maj = 0x30 || r.maj = 0x31 || r.maj = 0x33 then
    r.sm 0 3 = 2 && (if r.min = 0 then beyond r.D 4 else r.min = 1 && beyond r.B 4)
  else if r.maj = 0x65 then r.min = 0 && r.m 0 2 = 3 && r.D.isV && beyond r.D 4
  else if r.maj = 0x93 then
    let n := (r.m 6 6).toNat + 1
    let k := match XFmt.ofCode (r.m 12 3) with | some xf => octetRegs (r.m 0 6) xf | none => 1
    r.D.isV && beyond r.D n || r.A.isV && beyond r.A k
  else false

/-- The operand classes of PEDGET: A must be %PED (spec/08 R148, cause 0x05). WRSP: D must be %DIX (spec/04 R82). -/
def Raw.namedOk (r : Raw) : Bool :=
  if r.maj = 0x81 && r.min = 0 then r.A = .sp .ped
  else if r.maj = 0x0B && r.min = 1 then r.D = .sp .dix
  else true

/-- Decoding a word for a crew with `regc` registers: the instruction, or the lowest cause of Table 1-7 that holds
(spec/01 R22 check 3, R23). -/
def decodeFor (regc : Nat) (w : BitVec 96) : Except (BitVec 8) Instr :=
  let r := Raw.unpack w
  match r.form with
  | none => .error 1
  | some fm =>
    if r.reserved fm || r.rangeBad then .error 2
    else match build r with
    | none => .error 3
    | some i =>
      if r.D.isImm || (fm = .cr && r.E.isImm) then .error 4
      else if !(i.uses.all Use.classOk && r.namedOk) then .error 5
      else if !(i.uses.all Use.pairOk) then .error 6
      else if !(i.uses.all (Use.regcOk regc)) then .error 7
      else if r.gp = 7 && r.gn = 1 then .error 8
      else .ok i

/-- Decoding a word, for a crew that has every v register. -/
def decodeWord (w : BitVec 96) : Except (BitVec 8) Instr := decodeFor 192 w

/-- The word that twelve bytes hold, least significant byte first (spec/01 R9). -/
def wordOfBytes (bs : List Byte) : BitVec 96 := BitVec.ofNat 96 (fromBytesLE (bs.take 12))

/-- Decoding bytes: the first twelve of them. Fewer than twelve bytes are no instruction. -/
def decodeBytes (bs : List Byte) : Except (BitVec 8) (Instr × List Byte) :=
  if bs.length < 12 then .error 1
  else (decodeWord (wordOfBytes bs)).map fun i => (i, bs.drop 12)

/-! ## Encoding -/

/-- The fields of an instruction in form CR. -/
def crRaw (maj : BitVec 8) (min : BitVec 4) (f : Ctl) (d a b e : BitVec 10) (mod : BitVec 22) : Raw :=
  ⟨maj, min, b1 f.gn, f.gp, d, a, b, crBits e mod, f.hints⟩
def csRaw (maj : BitVec 8) (min : BitVec 4) (f : Ctl) (d a b : BitVec 10) (mod : BitVec 12) (ofs : BitVec 20) : Raw :=
  ⟨maj, min, b1 f.gn, f.gp, d, a, b, csBits mod ofs, f.hints⟩
def ciRaw (maj : BitVec 8) (min : BitVec 4) (f : Ctl) (d a b : BitVec 10) (imm : Word) : Raw :=
  ⟨maj, min, b1 f.gn, f.gp, d, a, b, imm, f.hints⟩

/-- SZ alone, SZ and U, and a modifier of zeros. -/
def szMod (sz : Bool) : BitVec 22 := (0 : BitVec 21) ++ b1 sz
def szUMod (sz u : Bool) : BitVec 22 := (0 : BitVec 20) ++ b1 u ++ b1 sz
def zero10 : BitVec 10 := 0

def Comb.code : Comb → BitVec 2 | .none => 0 | .and _ => 1 | .or _ => 2 | .xor _ => 3
def Comb.eBits : Comb → BitVec 10 | .none => 0 | .and e | .or e | .xor e => e.bits
def FieldSpec.eBits : FieldSpec → BitVec 10 | .reg e => e.bits | .imm _ _ => 0
def FieldSpec.modBits : FieldSpec → BitVec 14 | .reg _ => 0 | .imm pos len => len ++ pos ++ (1 : BitVec 1)
def PrmtSel.eBits : PrmtSel → BitVec 10 | .reg e => e.bits | .imm _ => 0
def PrmtSel.modBits : PrmtSel → BitVec 22 | .reg _ => 0 | .imm x => (1 : BitVec 6) ++ x
def VoteMode.code : VoteMode → BitVec 2 | .all => 0 | .any => 1 | .uni => 2 | .ballot _ => 3
def VoteMode.bBits : VoteMode → BitVec 10 | .ballot b => b.bits | _ => 0
def optBits : Option Operand → BitVec 10 | none => 0 | some o => o.bits

/-- The fields of the word of an instruction (spec/01 Table 1-6 and each family's encoding table); none for an event
and for the rejected word. -/
def encodeRaw : Instr → Option Raw
  | .iadd f d a b sz => some (crRaw 0x01 0 f d.bits a.bits b.bits zero10 (szMod sz))
  | .isub f d a b sz => some (crRaw 0x01 1 f d.bits a.bits b.bits zero10 (szMod sz))
  | .iadd3 f d a b e sz => some (crRaw 0x01 2 f d.bits a.bits b.bits e.bits (szMod sz))
  | .iaddsat f d a b sz u => some (crRaw 0x01 3 f d.bits a.bits b.bits zero10 (szUMod sz u))
  | .isubsat f d a b sz u => some (crRaw 0x01 4 f d.bits a.bits b.bits zero10 (szUMod sz u))
  | .ineg f d a sz => some (crRaw 0x01 5 f d.bits a.bits zero10 zero10 (szMod sz))
  | .iabs f d a sz => some (crRaw 0x01 6 f d.bits a.bits zero10 zero10 (szMod sz))
  | .imin f d a b sz u => some (crRaw 0x01 7 f d.bits a.bits b.bits zero10 (szUMod sz u))
  | .imax f d a b sz u => some (crRaw 0x01 8 f d.bits a.bits b.bits zero10 (szUMod sz u))
  | .imul f d a b sz u => some (crRaw 0x02 0 f d.bits a.bits b.bits zero10 (szUMod sz u))
  | .imulhi f d a b sz u => some (crRaw 0x02 1 f d.bits a.bits b.bits zero10 (szUMod sz u))
  | .imad f d a b e sz u => some (crRaw 0x02 2 f d.bits a.bits b.bits e.bits (szUMod sz u))
  | .imadw f d a b e u => some (crRaw 0x02 3 f d.bits a.bits b.bits e.bits (szUMod false u))
  | .idiv f d a b sz u => some (crRaw 0x02 4 f d.bits a.bits b.bits zero10 (szUMod sz u))
  | .irem f d a b sz u => some (crRaw 0x02 5 f d.bits a.bits b.bits zero10 (szUMod sz u))
  | .and f d a b sz => some (crRaw 0x03 0 f d.bits a.bits b.bits zero10 (szMod sz))
  | .or f d a b sz => some (crRaw 0x03 1 f d.bits a.bits b.bits zero10 (szMod sz))
  | .xor f d a b sz => some (crRaw 0x03 2 f d.bits a.bits b.bits zero10 (szMod sz))
  | .andn f d a b sz => some (crRaw 0x03 3 f d.bits a.bits b.bits zero10 (szMod sz))
  | .orn f d a b sz => some (crRaw 0x03 4 f d.bits a.bits b.bits zero10 (szMod sz))
  | .not f d a sz => some (crRaw 0x03 5 f d.bits a.bits zero10 zero10 (szMod sz))
  | .shl f d a b sz => some (crRaw 0x04 0 f d.bits a.bits b.bits zero10 (szMod sz))
  | .shr f d a b sz => some (crRaw 0x04 1 f d.bits a.bits b.bits zero10 (szMod sz))
  | .sar f d a b sz => some (crRaw 0x04 2 f d.bits a.bits b.bits zero10 (szMod sz))
  | .rotl f d a b sz => some (crRaw 0x04 3 f d.bits a.bits b.bits zero10 (szMod sz))
  | .shf f d a b e sz rt =>
    some (crRaw 0x04 4 f d.bits a.bits b.bits e.bits ((0 : BitVec 19) ++ b1 rt ++ (0 : BitVec 1) ++ b1 sz))
  | .bfx f d a sp sz u =>
    some (crRaw 0x05 0 f d.bits a.bits zero10 sp.eBits ((0 : BitVec 6) ++ sp.modBits ++ b1 u ++ b1 sz))
  | .bfi f d a b sp sz =>
    some (crRaw 0x05 1 f d.bits a.bits b.bits sp.eBits ((0 : BitVec 6) ++ sp.modBits ++ (0 : BitVec 1) ++ b1 sz))
  | .popc f d a sz => some (crRaw 0x05 2 f d.bits a.bits zero10 zero10 (szMod sz))
  | .clz f d a sz => some (crRaw 0x05 3 f d.bits a.bits zero10 zero10 (szMod sz))
  | .ctz f d a sz => some (crRaw 0x05 4 f d.bits a.bits zero10 zero10 (szMod sz))
  | .brev f d a sz => some (crRaw 0x05 5 f d.bits a.bits zero10 zero10 (szMod sz))
  | .prmt f d a b sl => some (crRaw 0x05 6 f d.bits a.bits b.bits sl.eBits sl.modBits)
  | .clmul f d a b sz => some (crRaw 0x06 0 f d.bits a.bits b.bits zero10 (szMod sz))
  | .clmulh f d a b sz => some (crRaw 0x06 1 f d.bits a.bits b.bits zero10 (szMod sz))
  | .icmp f d a b cc cb sz u =>
    some (crRaw 0x07 0 f d.bits a.bits b.bits cb.eBits ((0 : BitVec 15) ++ cb.code ++ cc.code ++ b1 u ++ b1 sz))
  | .pand f d a b => some (crRaw 0x08 0 f d.bits a.bits b.bits zero10 0)
  | .por f d a b => some (crRaw 0x08 1 f d.bits a.bits b.bits zero10 0)
  | .pxor f d a b => some (crRaw 0x08 2 f d.bits a.bits b.bits zero10 0)
  | .pnot f d a => some (crRaw 0x08 3 f d.bits a.bits zero10 zero10 0)
  | .sel f d a b e sz => some (crRaw 0x08 4 f d.bits a.bits b.bits e.bits (szMod sz))
  | .vote f d a md => some (crRaw 0x09 0 f d.bits a.bits md.bBits zero10 ((0 : BitVec 18) ++ md.code ++ (0 : BitVec 2)))
  | .bcast f d a b sz => some (crRaw 0x09 1 f d.bits a.bits b.bits zero10 (szMod sz))
  | .shfl f d a b md sg sz =>
    some (crRaw 0x09 2 f d.bits a.bits b.bits zero10
      ((0 : BitVec 15) ++ sg.code ++ md.code ++ (0 : BitVec 1) ++ b1 sz))
  | .redux f d a op sz u =>
    some (crRaw 0x09 3 f d.bits a.bits zero10 zero10 ((0 : BitVec 17) ++ op.code ++ b1 u ++ b1 sz))
  | .mov f d a sz => some (crRaw 0x0A 0 f d.bits a.bits zero10 zero10 (szMod sz))
  | .movi f d x => some (ciRaw 0x0A 1 f d.bits zero10 zero10 x)
  | .lea f d a b sc u o =>
    some (csRaw 0x0A 2 f d.bits a.bits b.bits ((0 : BitVec 8) ++ b1 u ++ BitVec.ofNat 3 sc.val) o)
  | .i2i f d a dst src sat =>
    some (crRaw 0x0A 3 f d.bits a.bits zero10 zero10
      ((0 : BitVec 13) ++ b1 sat ++ dst.code ++ src.code ++ (0 : BitVec 2)))
  | .rdsp f d a w => some (crRaw 0x0B 0 f d.bits a.bits zero10 zero10 (szMod w))
  | .wrsp f a cl => some (crRaw 0x0B 1 f (Operand.sp .dix).bits a.bits zero10 zero10 (szMod cl))
  | .bra f o => some (csRaw 0x20 0 f zero10 zero10 zero10 0 o)
  | .brx f a => some (crRaw 0x20 1 f zero10 a.bits zero10 zero10 0)
  | .call f d o => some (csRaw 0x20 2 f d.bits zero10 zero10 0 o)
  | .ret f a => some (crRaw 0x20 3 f zero10 a.bits zero10 zero10 0)
  | .exit f => some (crRaw 0x20 4 f zero10 zero10 zero10 zero10 0)
  | .reconv f o => some (csRaw 0x20 5 f zero10 zero10 zero10 0 o)
  | .brk f o => some (csRaw 0x20 6 f zero10 zero10 zero10 0 o)
  | .cont f o => some (csRaw 0x20 7 f zero10 zero10 zero10 0 o)
  | .yield f => some (crRaw 0x20 8 f zero10 zero10 zero10 zero10 0)
  | .nop f => some (crRaw 0x20 9 f zero10 zero10 zero10 zero10 0)
  | .trap f x => some (ciRaw 0x20 10 f zero10 zero10 zero10 x)
  | .ld f d a o ty acq sc fr hv hd =>
    some (csRaw 0x30 0 f d.bits a.bits zero10
      (b1 hv ++ hd ++ b1 fr ++ sc.code ++ (0 : BitVec 1) ++ b1 acq ++ ty.code) o)
  | .st f a b o ty rel sc =>
    some (csRaw 0x30 1 f zero10 a.bits b.bits
      ((0 : BitVec 4) ++ sc.code ++ b1 rel ++ (0 : BitVec 1) ++ ty.code) o)
  | .pref f a o l1 => some (csRaw 0x30 2 f zero10 a.bits zero10 ((0 : BitVec 11) ++ b1 l1) o)
  | .lds f d a o ty pe => some (csRaw 0x31 0 f d.bits a.bits zero10 ((0 : BitVec 5) ++ peerBits pe ++ ty.code) o)
  | .sts f a b o ty pe => some (csRaw 0x31 1 f zero10 a.bits b.bits ((0 : BitVec 5) ++ peerBits pe ++ ty.code) o)
  | .ldr f d a o => some (csRaw 0x32 0 f d.bits a.bits zero10 0 o)
  | .str f a b o => some (csRaw 0x32 1 f zero10 a.bits b.bits 0 o)
  | .ldw f d a o ty => some (csRaw 0x33 0 f d.bits a.bits zero10 ((0 : BitVec 9) ++ ty.code) o)
  | .fence f kd sc => some (crRaw 0x34 0 f zero10 zero10 zero10 zero10 ((0 : BitVec 17) ++ kd.code ++ sc.code))
  | .iinv f sc => some (crRaw 0x34 1 f zero10 zero10 zero10 zero10 ((0 : BitVec 19) ++ sc.code))
  | .cflush f a o sc inv => some (csRaw 0x34 2 f zero10 a.bits zero10 ((0 : BitVec 8) ++ b1 inv ++ sc.code) o)
  | .waitc f l s c t => some (ciRaw 0x34 3 f zero10 zero10 zero10 ((0 : BitVec 8) ++ t ++ c ++ s ++ l))
  | .tshape f a b => some (crRaw 0x35 0 f zero10 a.bits b.bits zero10 0)
  | .tcopy f a b rf dd =>
    some (crRaw 0x35 1 f zero10 a.bits b.bits (optBits rf) ((0 : BitVec 20) ++ b1 rf.isSome ++ b1 dd))
  | .atom f d a b op sem sc sz u =>
    some (crRaw 0x50 0 f d.bits a.bits b.bits op.e.bits
      ((0 : BitVec 11) ++ sc.code ++ sem.code ++ op.code ++ b1 u ++ b1 sz))
  | .atoms f d a b op pe sz u =>
    some (crRaw 0x50 1 f d.bits a.bits b.bits op.e.bits
      ((0 : BitVec 12) ++ peerBits pe ++ op.code ++ b1 u ++ b1 sz))
  | .red f a b op rel sc sz u =>
    some (crRaw 0x50 2 f zero10 a.bits b.bits zero10
      ((0 : BitVec 11) ++ sc.code ++ b1 rel ++ (0 : BitVec 2) ++ op.code ++ b1 u ++ b1 sz))
  | .fred f a b ft op fz cn sat rel sc =>
    some (crRaw 0x50 3 f zero10 a.bits b.bits zero10
      ((0 : BitVec 11) ++ sc.code ++ b1 rel ++ b1 sat ++ b1 cn ++ b1 fz ++ op.code ++ ft.code))
  | .sigset f a b sc => some (crRaw 0x51 0 f zero10 a.bits b.bits zero10 ((0 : BitVec 19) ++ sc.code))
  | .sigadd f d a b sc =>
    some (crRaw 0x51 1 f (optBits d) a.bits b.bits zero10 ((0 : BitVec 18) ++ b1 d.isNone ++ sc.code))
  | .sigwait f d a b cc sc =>
    some (crRaw 0x51 2 f d.bits a.bits b.bits zero10 ((0 : BitVec 16) ++ cc.code ++ sc.code))
  | .ticket f d a ex sc =>
    some (crRaw 0x52 0 f d.bits a.bits (optBits ex) zero10 ((0 : BitVec 18) ++ b1 ex.isSome ++ sc.code))
  | .tkserve f a sc => some (crRaw 0x52 1 f zero10 a.bits zero10 zero10 ((0 : BitVec 19) ++ sc.code))
  | .fadd f d a b ro => some (crRaw 0x60 0 f d.bits a.bits b.bits zero10 ((0 : BitVec 19) ++ ro.code))
  | .fsub f d a b ro => some (crRaw 0x60 1 f d.bits a.bits b.bits zero10 ((0 : BitVec 19) ++ ro.code))
  | .fmul f d a b ro => some (crRaw 0x60 2 f d.bits a.bits b.bits zero10 ((0 : BitVec 19) ++ ro.code))
  | .ffma f d a b e ro => some (crRaw 0x60 3 f d.bits a.bits b.bits e.bits ((0 : BitVec 19) ++ ro.code))
  | .fmin f d a b => some (crRaw 0x60 4 f d.bits a.bits b.bits zero10 0)
  | .fmax f d a b => some (crRaw 0x60 5 f d.bits a.bits b.bits zero10 0)
  | .fcmp f d a b cc cb =>
    some (crRaw 0x60 6 f d.bits a.bits b.bits cb.eBits ((0 : BitVec 14) ++ cb.code ++ cc.code ++ (0 : BitVec 2)))
  | .fclass f d a b => some (crRaw 0x60 7 f d.bits a.bits b.bits zero10 0)
  | .frcp f d a => some (crRaw 0x61 0 f d.bits a.bits zero10 zero10 0)
  | .frsq f d a => some (crRaw 0x61 1 f d.bits a.bits zero10 zero10 0)
  | .fsqrt f d a => some (crRaw 0x61 2 f d.bits a.bits zero10 zero10 0)
  | .fex2 f d a => some (crRaw 0x61 3 f d.bits a.bits zero10 zero10 0)
  | .flg2 f d a => some (crRaw 0x61 4 f d.bits a.bits zero10 zero10 0)
  | .fsin f d a => some (crRaw 0x61 5 f d.bits a.bits zero10 zero10 0)
  | .fcos f d a => some (crRaw 0x61 6 f d.bits a.bits zero10 zero10 0)
  | .hadd2 f d a b ht ro => some (crRaw 0x62 0 f d.bits a.bits b.bits zero10 ((0 : BitVec 18) ++ ht.code ++ ro.code))
  | .hmul2 f d a b ht ro => some (crRaw 0x62 1 f d.bits a.bits b.bits zero10 ((0 : BitVec 18) ++ ht.code ++ ro.code))
  | .hfma2 f d a b e ht ro => some (crRaw 0x62 2 f d.bits a.bits b.bits e.bits ((0 : BitVec 18) ++ ht.code ++ ro.code))
  | .dot4 f d a b e et ro =>
    some (crRaw 0x62 3 f d.bits a.bits b.bits e.bits ((0 : BitVec 16) ++ et.code ++ (0 : BitVec 1) ++ ro.code))
  | .cvt f d a pk dt sf ro sl =>
    some (crRaw 0x63 0 f d.bits a.bits (optBits pk) zero10
      ((0 : BitVec 8) ++ sl ++ b1 pk.isSome ++ sf.code ++ dt.code ++ ro.code))
  | .fmtset f x => some (ciRaw 0x64 0 f zero10 zero10 zero10 x)
  | .fmtget f d => some (crRaw 0x64 1 f d.bits zero10 zero10 zero10 0)
  | .rngu f d o => some (crRaw 0x65 0 f d.bits zero10 zero10 zero10 ((0 : BitVec 20) ++ o.code))
  | .rngn f d => some (crRaw 0x65 1 f d.bits zero10 zero10 zero10 0)
  | .spawn f b sh o => some (csRaw 0x80 0 f zero10 zero10 b.bits ((0 : BitVec 9) ++ sh) o)
  | .spawnr f a b sh => some (crRaw 0x80 1 f zero10 a.bits b.bits zero10 ((0 : BitVec 19) ++ sh))
  | .join f => some (crRaw 0x80 2 f zero10 zero10 zero10 zero10 0)
  | .pedget f d b => some (crRaw 0x81 0 f d.bits (Operand.sp .ped).bits b.bits zero10 0)
  | .pedcmp f d a b => some (crRaw 0x81 1 f d.bits a.bits b.bits zero10 0)
  | .vdecl f a b e kd => some (crRaw 0x82 0 f zero10 a.bits b.bits e.bits ((0 : BitVec 18) ++ kd.code))
  | .vptr f d a => some (crRaw 0x82 1 f d.bits a.bits zero10 zero10 0)
  | .vfin f a rw => some (crRaw 0x82 2 f zero10 a.bits zero10 zero10 (szMod rw))
  | .alloc f d a => some (crRaw 0x83 0 f d.bits a.bits zero10 zero10 0)
  | .barp f => some (crRaw 0x84 0 f zero10 zero10 zero10 zero10 0)
  | .barc f pk => some (crRaw 0x84 1 f zero10 zero10 zero10 zero10 (szMod pk))
  | .arriveInit f a b => some (crRaw 0x84 2 f zero10 a.bits b.bits zero10 (szMod true))
  | .arrive f d a b => some (crRaw 0x84 2 f d.bits a.bits b.bits zero10 0)
  | .await f a b => some (crRaw 0x84 3 f zero10 a.bits b.bits zero10 0)
  | .ringputGet f d a => some (crRaw 0x85 0 f d.bits a.bits zero10 zero10 0)
  | .ringputPub f a b => some (crRaw 0x85 0 f zero10 a.bits b.bits zero10 1)
  | .ringputInit f a b => some (crRaw 0x85 0 f zero10 a.bits b.bits zero10 2)
  | .ringgetGet f d a => some (crRaw 0x85 1 f d.bits a.bits zero10 zero10 0)
  | .ringgetRel f a b => some (crRaw 0x85 1 f zero10 a.bits b.bits zero10 1)
  | .trigger f => some (crRaw 0x86 0 f zero10 zero10 zero10 zero10 0)
  | .tmma f a b t => some (crRaw 0x90 0 f zero10 a.bits b.bits zero10 ((0 : BitVec 17) ++ t))
  | .tmmae f a b e t => some (crRaw 0x90 1 f zero10 a.bits b.bits e.bits ((0 : BitVec 17) ++ t))
  | .tmmag f a b t => some (crRaw 0x90 2 f zero10 a.bits b.bits zero10 ((0 : BitVec 17) ++ t))
  | .tzero f t => some (crRaw 0x91 0 f zero10 zero10 zero10 zero10 ((0 : BitVec 17) ++ t))
  | .tload f a b t => some (crRaw 0x91 1 f zero10 a.bits b.bits zero10 ((0 : BitVec 17) ++ t))
  | .tadd f t s => some (crRaw 0x91 2 f zero10 zero10 zero10 zero10 ((0 : BitVec 12) ++ s ++ t))
  | .tlink f a b => some (crRaw 0x91 3 f zero10 a.bits b.bits zero10 0)
  | .tdrain f a b t cl hh =>
    some (crRaw 0x92 0 f zero10 a.bits b.bits zero10 ((0 : BitVec 15) ++ b1 hh ++ b1 cl ++ t))
  | .tdrainl f a b e t hh =>
    some (crRaw 0x92 1 f zero10 a.bits b.bits e.bits ((0 : BitVec 15) ++ b1 hh ++ (0 : BitVec 1) ++ t))
  | .ommv f d a b k n xf wf z =>
    some (crRaw 0x93 0 f d.bits a.bits b.bits zero10
      ((0 : BitVec 2) ++ b1 z ++ wf.code ++ xf.code ++ n ++ k))
  | .ommve f d a b e k n xf wf z =>
    some (crRaw 0x93 1 f d.bits a.bits b.bits e.bits
      ((0 : BitVec 2) ++ b1 z ++ wf.code ++ xf.code ++ n ++ k))
  | .histrd f d a b => some (crRaw 0x94 0 f d.bits a.bits b.bits zero10 0)
  | .histclr f a b => some (crRaw 0x94 1 f zero10 a.bits b.bits zero10 0)
  | .tcopyx f a b e dd => some (crRaw 0xB0 0 f zero10 a.bits b.bits e.bits (szMod dd))
  | .cstart f d a b => some (crRaw 0xB0 1 f d.bits a.bits b.bits zero10 0)
  | .cstat f d a => some (crRaw 0xB0 2 f d.bits a.bits zero10 zero10 0)
  | .agate f a b k nr =>
    some (crRaw 0xB1 0 f zero10 a.bits b.bits zero10 ((0 : BitVec 18) ++ b1 nr ++ BitVec.ofNat 3 (k.val + 1)))
  | .amap f a b => some (crRaw 0xB1 1 f zero10 a.bits b.bits zero10 0)
  | .amapRd f a b => some (crRaw 0xB1 1 f zero10 a.bits b.bits zero10 1)
  | .aswap f a b q2 => some (crRaw 0xB1 2 f zero10 a.bits b.bits zero10 ((0 : BitVec 16) ++ q2))
  | .anorm f a b => some (crRaw 0xB1 3 f zero10 a.bits b.bits zero10 0)
  | .rdmer f d dr => some (crRaw 0xB2 0 f d.bits zero10 zero10 zero10 (szMod dr))
  | .rdclk f d dr => some (crRaw 0xB2 1 f d.bits zero10 zero10 zero10 (szMod dr))
  | .clk2mer f d a => some (crRaw 0xB2 2 f d.bits a.bits zero10 zero10 0)
  | .ctxsave f d a b => some (crRaw 0xC0 0 f d.bits a.bits b.bits zero10 0)
  | .ctxload f d a b => some (crRaw 0xC0 1 f d.bits a.bits b.bits zero10 0)
  | .tlbinv f d a b sc kd =>
    some (crRaw 0xC1 0 f d.bits a.bits b.bits zero10 ((0 : BitVec 18) ++ kd.code ++ sc.code))
  | .fret f d a b hw => some (crRaw 0xC2 0 f d.bits a.bits b.bits zero10 ((0 : BitVec 20) ++ hw.code))
  | .fwcall f x => some (ciRaw 0xC2 1 f zero10 zero10 zero10 x)
  | .sigraise f d a b e sc => some (crRaw 0xC2 2 f d.bits a.bits b.bits e.bits ((0 : BitVec 19) ++ sc.code))
  | .budset f d a b kd => some (crRaw 0xC3 0 f d.bits a.bits b.bits zero10 ((0 : BitVec 20) ++ kd.code))
  | .wakeset f d a b => some (crRaw 0xC3 1 f d.bits a.bits b.bits zero10 0)
  | .sleep f d => some (crRaw 0xC3 2 f d.bits zero10 zero10 zero10 0)
  | .commset f => some (ciRaw 0xC2 1 f zero10 zero10 zero10 0x10)
  | .commclr f => some (ciRaw 0xC2 1 f zero10 zero10 zero10 0x11)
  | .schedset f => some (ciRaw 0xC2 1 f zero10 zero10 zero10 0x12)
  | .schedclr f => some (ciRaw 0xC2 1 f zero10 zero10 zero10 0x13)
  | .telrd f => some (ciRaw 0xC2 1 f zero10 zero10 zero10 0x20)
  | .fstep f => some (ciRaw 0xC2 1 f zero10 zero10 zero10 0x21)
  | .repinv f => some (ciRaw 0xC2 1 f zero10 zero10 zero10 0x22)
  | .attest f => some (ciRaw 0xC2 1 f zero10 zero10 zero10 0x23)
  | _ => none

/-- The word of an instruction; none for an event. -/
def encode (i : Instr) : Option (BitVec 96) := (encodeRaw i).map Raw.pack

/-- The bytes of an instruction as memory holds them. -/
def encodeBytes (i : Instr) : Option (List Byte) := (encode i).map fun w => toBytesLE 12 w.toNat

/-- The instruction whose bits are `w`, in the numbering of the opcode table; bits above `nbits` are zero. An
instruction is one word of 96 bits, so bits above 95 name none. -/
def decodeTableWord (nbits w : Nat) : Option Instr :=
  match decodeBytes (toBytesLE 12 (w % 2 ^ nbits)) with
  | .ok (i, _) => some i
  | .error _ => none

end Sys2Proof
end

