-- ==== Sys2Proof/Machine/Control.lean ====
section
/-! DEFINITION. MAJ 0x20: the mask, the reconvergence stack and the control instructions (spec/04 R83-R93). -/
namespace Sys2Proof.Machine

/-- The active lanes of a crew (spec/04 R83). -/
def Crew.active (c : Crew) : Mask := c.mask &&& c.live &&& laneMask c.lanes

/-- The topmost join entry. -/
def topJoin : List StackEntry → Option StackEntry
  | [] => none
  | .join r m d f :: _ => some (.join r m d f)
  | .pending .. :: t => topJoin t

/-- Pops the top entry as rule 1 of R87 does. -/
def Crew.popEntry (c : Crew) : Crew :=
  match c.stack with
  | [] => c
  | .pending pc m fm :: t => { c with stack := t, pc := pc, mask := m &&& c.live, fmt := fm }
  | .join rpc m dv fm :: t =>
    { c with stack := t, pc := rpc, mask := m &&& c.live, fmt := if dv then fm else c.fmt }

/-- The rules that a crew applies before it issues, until neither holds (spec/04 R87). The fuel is above the depth of the
stack, which every rule that is applied lowers. -/
def Crew.settleWith : Nat → Crew → Crew
  | 0, c => c
  | n + 1, c =>
    if c.active = 0 then (if c.stack.isEmpty then c else Crew.settleWith n c.popEntry)
    else
      match topJoin c.stack with
      | some (.join rpc _ _ _) =>
        if c.pc = rpc then
          match c.stack with
          | .pending .. :: _ => Crew.settleWith n c.popEntry
          | .join _ m dv fm :: t =>
            Crew.settleWith n { c with stack := t, mask := m &&& c.live, fmt := if dv then fm else c.fmt }
          | [] => c
        else c
      | _ => c

def Crew.settle (c : Crew) : Crew := Crew.settleWith (c.stack.length + 1) c

/-- The first join entry of a divergence keeps %FMT (spec/04 R86). -/
def markJoin (fmt : Word) : List StackEntry → List StackEntry
  | [] => []
  | .join r m d f :: t => (if d then .join r m d f else .join r m true fmt) :: t
  | x :: t => x :: markJoin fmt t

/-- A divergence (spec/04 R86): the first part goes on, the others are pushed so that they run in the given order. -/
def Crew.diverge (c : Crew) (first : DWord × Mask) (rest : List (DWord × Mask)) : Crew :=
  { c with pc := first.1, mask := first.2,
           stack := (rest.map fun x => StackEntry.pending x.1 x.2 c.fmt) ++ markJoin c.fmt c.stack }

def stackOverflow : Report := { cause := 0x10, sub := 0 }

/-- The target of a control offset (spec/01 R11). -/
def Crew.target (c : Crew) (ofs : BitVec 20) : DWord := c.pc + 12 * ofs.signExtend 64

/-- BRA (spec/04 R88): uniform when every active lane takes it, else a divergence. R88 says E = M: lanes of M that have executed EXIT are
left out of M here (DESIGN CHOICE, log 82). `link` writes CALL's link first. -/
def branch (f : Ctl) (ofs : BitVec 20) (link : Crew → Crew) (s : State) (key : Nat) (c : Crew) : Issue :=
  let e := c.eff f
  let t := c.target ofs
  if e = 0 then .done s
  else if e = c.active then .jump (s.setCrew key { link c with pc := t })
  else if c.stack.length ≥ Config.stackDepth then .trap stackOverflow
  else .jump (s.setCrew key ((link c).diverge (c.pc + 12, c.active &&& ~~~e) [(t, e)]))

def execBra (f : Ctl) (ofs : BitVec 20) (s : State) : Host.Outcome State Fault Refusal :=
  issue (.bra f ofs) s (branch f ofs id)
def execCall (f : Ctl) (d : Operand) (ofs : BitVec 20) (s : State) : Host.Outcome State Fault Refusal :=
  issue (.call f d ofs) s fun s key c =>
    branch f ofs (fun c => c.writeDst true d (c.effLanes f) fun _ => c.pc + 12) s key c

/-- Puts a lane into the group of its target, the groups in rising order of target. -/
def addLane : List (DWord × Mask) → DWord → Mask → List (DWord × Mask)
  | [], t, m => [(t, m)]
  | (t', m') :: g, t, m =>
    if t = t' then (t, m ||| m') :: g
    else if t < t' then (t, m) :: (t', m') :: g
    else (t', m') :: addLane g t m

/-- BRX and RET (spec/04 R89): the lanes by target, guard-false lanes to PC + 12; with no lane left for a target the run goes on (spec/01
R12, R18). A misaligned target is reported before an
overflow, with the target of the lowest lane that has one (DESIGN CHOICE, log 53). -/
def transfer (f : Ctl) (a : Operand) (s : State) (key : Nat) (c : Crew) : Issue :=
  let lanes := c.effLanes f
  let tgt (l : Nat) : DWord := s.operand key c true a l
  match lanes.find? fun l => (tgt l).extractLsb' 0 2 != 0 with
  | some l =>
    let bad := lanes.filter fun l => (tgt l).extractLsb' 0 2 != 0
    let (m, more) := laneFields bad l
    .trap { cause := 0x04, addr := tgt l, lmask := m, more := more }
  | none =>
    let groups := lanes.foldl (fun g l => addLane g (tgt l) (BitVec.shiftLeft 1 l)) []
    let stay := c.active &&& ~~~(c.eff f)
    let groups := if stay = 0 then groups else addLane groups (c.pc + 12) stay
    match groups with
    | [] => .done s
    | [g] => if lanes.isEmpty then .done s else .jump (s.setCrew key { c with pc := g.1 })
    | g :: rest =>
      if c.stack.length + rest.length > Config.stackDepth then .trap stackOverflow
      else .jump (s.setCrew key (c.diverge g rest))

def execBrx (f : Ctl) (a : Operand) (s : State) : Host.Outcome State Fault Refusal :=
  issue (.brx f a) s (transfer f a)
def execRet (f : Ctl) (a : Operand) (s : State) : Host.Outcome State Fault Refusal :=
  issue (.ret f a) s (transfer f a)

/-- EXIT (spec/04 R91). The crew whose last lanes leave keeps the PC of its EXIT until it has ended. -/
def execExit (f : Ctl) (s : State) : Host.Outcome State Fault Refusal :=
  issue (.exit f) s fun s key c =>
    let e := c.eff f
    if e = 0 then .done s
    else
      let live := c.live &&& ~~~e
      if live = 0 then .jump ((s.setCrew key { c with live := 0 }).crewEnd key)
      else .jump (s.setCrew key { c with live := live, pc := c.pc + 12 })

def execReconv (f : Ctl) (ofs : BitVec 20) (s : State) : Host.Outcome State Fault Refusal :=
  issue (.reconv f ofs) s fun s key c =>
    if c.eff f = 0 then .done s
    else if c.stack.length ≥ Config.stackDepth then .trap stackOverflow
    else .done (s.setCrew key { c with stack := .join (c.target ofs) c.active false 0 :: c.stack })

/-- Removes lanes from every entry above the topmost join at `t`; none when there is no such join (spec/04 R90). -/
def removeAbove (t : DWord) (e : Mask) : List StackEntry → Option (List StackEntry)
  | [] => none
  | .pending pc m f :: r => (removeAbove t e r).map (.pending pc (m &&& ~~~e) f :: ·)
  | .join rpc m d f :: r =>
    if rpc = t then some (.join rpc m d f :: r) else (removeAbove t e r).map (.join rpc (m &&& ~~~e) d f :: ·)

/-- BRK and CONT (spec/04 R90). -/
def leaveTo (f : Ctl) (ofs : BitVec 20) (s : State) (key : Nat) (c : Crew) : Issue :=
  let e := c.eff f
  match removeAbove (c.target ofs) e c.stack with
  | none => .trap { cause := 0x10, sub := 1 }
  | some st =>
    if e = 0 then .done s
    else .jump (s.setCrew key { c with stack := st, mask := c.mask &&& ~~~e, pc := c.pc + 12 })

def execBrk (f : Ctl) (ofs : BitVec 20) (s : State) : Host.Outcome State Fault Refusal :=
  issue (.brk f ofs) s (leaveTo f ofs)
def execCont (f : Ctl) (ofs : BitVec 20) (s : State) : Host.Outcome State Fault Refusal :=
  issue (.cont f ofs) s (leaveTo f ofs)

/-- YIELD ends the run with the effect of YL, when its effective mask is not empty (spec/04 R92, spec/01 R12). -/
def execYield (f : Ctl) (s : State) : Host.Outcome State Fault Refusal :=
  once (.yield f) f s fun s key c => .jump (s.setCrew key { c with pc := c.pc + 12, yields := true })

def execNop (f : Ctl) (s : State) : Host.Outcome State Fault Refusal := issue (.nop f) s fun s _ _ => .done s

/-- TRAP (spec/04 R93): a precise software trap that names IMM and the effective mask. -/
def execTrap (f : Ctl) (imm : Word) (s : State) : Host.Outcome State Fault Refusal :=
  issue (.trap f imm) s fun s _ c =>
    match c.effLanes f with
    | [] => .done s
    | l :: ls =>
      let (m, more) := laneFields (l :: ls) l
      .trap { cause := 0x11, d1 := imm, lmask := m, more := more }

/-- A word that checks 1 to 5 reject (spec/01 R22, R23): the fault of the first check that fails. -/
def execIllegalInstruction (why : Reject) (s : State) : Host.Outcome State Fault Refusal :=
  issue (.illegalInstruction why) s fun _ _ _ =>
    match why with
    | .align t => .trap { cause := 0x04, addr := t }
    | .fetch cause sub addr d1 => .trap { cause := cause, sub := sub, addr := addr, d1 := d1, need := .exec }
    | .illegal cause => .trap { cause := 0x01, sub := cause }
    | .privilege => .trap { cause := 0x02 }
    | .role => .trap { cause := 0x03 }

end Sys2Proof.Machine
end

