-- ==== Sys2Proof/Machine/Vector.lean ====
section
/-! DEFINITION. MAJ 0x60 to 0x65: floating-point, packed, conversion and random-number instructions and the format
register (spec/07). -/
namespace Sys2Proof.Machine

/-- The next random index, with the sticky wrap flag (spec/03 R58). -/
def Crew.stepDix (c : Crew) : Crew :=
  { c with dix := c.dix + 1, wrapped := c.wrapped || c.dix = BitVec.allOnes 40 }

/-- The random block of a lane of a crew (spec/03 R57). -/
def Crew.block (c : Crew) (lane : Nat) : Block :=
  laneBlock c.dix.toNat lane c.seed.toNat (pedDigest c.ped c.task).toNat

/-- The random word of a stochastic result in an s register (log 10). -/
def Crew.scalarWord (c : Crew) : Nat := (Config.scalarRandom c.seed (pedDigest c.ped c.task) c.dix).toNat

/-- A scalar float source: an immediate is converted exactly to FP32 (spec/07 R129, R132); any other operand is a bit pattern, a
predicate's 0 or 1 (log 64). -/
def State.fpBits (s : State) (key : Nat) (c : Crew) (o : Operand) (lane : Nat) : Nat :=
  match o with
  | .imm i => fp32.round {} (Num.ofInt i.toInt)
  | _ => (s.operandNat key c false o lane) % 2 ^ 32

/-- The frame of a floating-point instruction: the lane results, the trap of R131 with no effect, and the random index
that a stochastic rounding consumes (spec/07 R130). A stochastic result in an s register takes a word of the crew's stream
that the spec does not fix: a free value, keyed as Table 16-1 says (log 10). -/
def floatOp (i : Instr) (f : Ctl) (d : Operand) (stoch : Word → Bool) (s : State)
    (val : State → Nat → Crew → Nat → Block → Nat × LaneTrap) : Host.Outcome State Fault Refusal :=
  issue i s fun s key c =>
    let lanes := c.effLanes f
    let draws := stoch c.fmt
    let block (l : Nat) : Block := if d.isS then ⟨c.scalarWord, 0, 0, 0⟩ else c.block l
    let res (l : Nat) : Nat × LaneTrap := val s key c l (if draws then block l else ⟨0, 0, 0, 0⟩)
    match numericTrap c.fmt c.ignoreTraps lanes (fun l => (res l).2) with
    | some r => .trap r
    | none =>
      let c := c.writeDst false d lanes fun l => BitVec.ofNat 64 (res l).1
      .done (s.setCrew key (if draws then c.stepDix else c))

/-- One rounding of an exact value, with what the traps see of it. -/
def roundTrap (fm : FFmt) (v : FEnv) (srcs : List Num) (x : Num) : Nat × LaneTrap :=
  let r := fm.round v x
  (r, .of srcs (fm.isNanBits r) (fm.isInfBits r))

def never : Word → Bool := fun _ => false

/-- Two and three FP32 sources under %FMT and RO (spec/07 R132). -/
def arith (i : Instr) (f : Ctl) (d : Operand) (srcs : List Operand) (ro : RO) (s : State)
    (g : Bool → List Num → Num) : Host.Outcome State Fault Refusal :=
  floatOp i f d (RO.stochastic ro) s fun s key c l b =>
    let v := fmtEnv c.fmt (RO.mode ro c.fmt (b.w0 % 2 ^ 16))
    let xs := srcs.map fun o => fp32.source v.fz (s.fpBits key c o l)
    roundTrap fp32 v xs (g (v.mode = Mode.rdn) xs)

def arg (xs : List Num) (i : Nat) : Num := xs.getD i (.fin false 0 0)

def execFadd (f : Ctl) (d a b : Operand) (ro : RO) (s : State) :=
  arith (.fadd f d a b ro) f d [a, b] ro s fun rdn xs => Num.add (arg xs 0) (arg xs 1) rdn
def execFsub (f : Ctl) (d a b : Operand) (ro : RO) (s : State) :=
  arith (.fsub f d a b ro) f d [a, b] ro s fun rdn xs => Num.add (arg xs 0) (arg xs 1).negate rdn
def execFmul (f : Ctl) (d a b : Operand) (ro : RO) (s : State) :=
  arith (.fmul f d a b ro) f d [a, b] ro s fun _ xs => Num.mul (arg xs 0) (arg xs 1)
def execFfma (f : Ctl) (d a b e : Operand) (ro : RO) (s : State) :=
  arith (.ffma f d a b e ro) f d [a, b, e] ro s fun rdn xs => Num.fma (arg xs 0) (arg xs 1) (arg xs 2) rdn

/-- FMIN and FMAX never round and never trap (spec/07 R133). -/
def pickOp (i : Instr) (f : Ctl) (d a b : Operand) (mx : Bool) (s : State) : Host.Outcome State Fault Refusal :=
  floatOp i f d never s fun s key c l _ =>
    let v := fmtEnv c.fmt .rne
    (fp32.round v (Num.pick mx (fp32.source v.fz (s.fpBits key c a l)) (fp32.source v.fz (s.fpBits key c b l))),
      ⟨false, false⟩)

def execFmin (f : Ctl) (d a b : Operand) (s : State) := pickOp (.fmin f d a b) f d a b false s
def execFmax (f : Ctl) (d a b : Operand) (s : State) := pickOp (.fmax f d a b) f d a b true s

def execFcmp (f : Ctl) (d a b : Operand) (cc : FCond) (cb : Comb) (s : State) :=
  lanewise (.fcmp f d a b cc cb) f false d s fun s key c l =>
    let fz := fmtFZ c.fmt
    let x := FCond.holds cc (fp32.source fz (s.fpBits key c a l)) (fp32.source fz (s.fpBits key c b l))
    if Comb.apply cb c l x then 1 else 0
def execFclass (f : Ctl) (d a b : Operand) (s : State) :=
  lanewise (.fclass f d a b) f false d s fun s key c l =>
    let w : DWord := BitVec.ofNat 64 (classWord (s.fpBits key c a l))
    if d.isP then w &&& s.operand key c false b l else w

/-- A correctly rounded function (spec/07 R136). -/
def function (i : Instr) (f : Ctl) (d a : Operand) (s : State) (g : Num → Num) : Host.Outcome State Fault Refusal :=
  floatOp i f d never s fun s key c l _ =>
    let v := fmtEnv c.fmt .rne
    let x := fp32.source v.fz (s.fpBits key c a l)
    roundTrap fp32 v [x] (g x)

def execFrcp (f : Ctl) (d a : Operand) (s : State) := function (.frcp f d a) f d a s Num.rcp
def execFrsq (f : Ctl) (d a : Operand) (s : State) := function (.frsq f d a) f d a s Num.rsq
def execFsqrt (f : Ctl) (d a : Operand) (s : State) := function (.fsqrt f d a) f d a s Num.sqrt
def execFex2 (f : Ctl) (d a : Operand) (s : State) := function (.fex2 f d a) f d a s Num.exp2
def execFlg2 (f : Ctl) (d a : Operand) (s : State) := function (.flg2 f d a) f d a s Num.log2
def execFsin (f : Ctl) (d a : Operand) (s : State) := function (.fsin f d a) f d a s Num.sin
def execFcos (f : Ctl) (d a : Operand) (s : State) := function (.fcos f d a) f d a s Num.cos

/-! ## Packed and dot-product instructions (spec/07 R137, R138) -/

def hfmt : HTy → FFmt | .bf16x2 => bf16 | .f16x2 => fp16

/-- The two halves of a packed instruction, each rounded once. -/
def packed (i : Instr) (f : Ctl) (d : Operand) (srcs : List Operand) (ht : HTy) (ro : RO) (s : State)
    (g : Bool → List Num → Num) : Host.Outcome State Fault Refusal :=
  floatOp i f d (RO.stochastic ro) s fun s key c l b =>
    let half (h : Nat) : Nat × LaneTrap :=
      let v := fmtEnv c.fmt (RO.mode ro c.fmt (b.w0 / 2 ^ (16 * h) % 2 ^ 16))
      let xs := srcs.map fun o => (hfmt ht).source v.fz (s.operandNat key c false o l / 2 ^ (16 * h) % 2 ^ 16)
      roundTrap (hfmt ht) v xs (g (v.mode = Mode.rdn) xs)
    let lo := half 0
    let hi := half 1
    (lo.1 + hi.1 * 2 ^ 16, ⟨lo.2.nan || hi.2.nan, lo.2.inf || hi.2.inf⟩)

def execHadd2 (f : Ctl) (d a b : Operand) (ht : HTy) (ro : RO) (s : State) :=
  packed (.hadd2 f d a b ht ro) f d [a, b] ht ro s fun rdn xs => Num.add (arg xs 0) (arg xs 1) rdn
def execHmul2 (f : Ctl) (d a b : Operand) (ht : HTy) (ro : RO) (s : State) :=
  packed (.hmul2 f d a b ht ro) f d [a, b] ht ro s fun _ xs => Num.mul (arg xs 0) (arg xs 1)
def execHfma2 (f : Ctl) (d a b e : Operand) (ht : HTy) (ro : RO) (s : State) :=
  packed (.hfma2 f d a b e ht ro) f d [a, b, e] ht ro s fun rdn xs => Num.fma (arg xs 0) (arg xs 1) (arg xs 2) rdn

/-- The exact sum E + Σ a b with its NaN rules (spec/07 R138); which NaN comes first is settled where R42 and R138 meet (log 64). -/
def dotSum (rdn : Bool) (as bs : List Num) (e : Num) : Num :=
  match (as ++ bs).find? Num.isNan with
  | some n => n
  | none =>
    let ps := (as.zip bs).map fun x => Num.mul x.1 x.2
    if ps.any Num.isNan then .canon else ps.foldl (fun acc p => Num.add acc p rdn) e

def execDot4 (f : Ctl) (d a b e : Operand) (et : DotTy) (ro : RO) (s : State) :=
  let byte (x i : Nat) : Nat := x / 2 ^ (8 * i) % 256
  match et with
  | .s8 | .u8 =>
    lanewise (.dot4 f d a b e et ro) f false d s fun s key c l =>
      let x := s.operandNat key c false a l
      let y := s.operandNat key c false b l
      let sum := [0, 1, 2, 3].foldl (fun acc i => acc + intOf (et = DotTy.u8) 8 (byte x i) * intOf (et = DotTy.u8) 8 (byte y i))
        ((s.operandNat key c false e l : Nat) : Int)
      BitVec.ofNat 64 (wrapInt 32 sum)
  | _ =>
    floatOp (.dot4 f d a b e et ro) f d (RO.stochastic ro) s fun s key c l bk =>
      let fm := if et = DotTy.e4m3 then e4m3 else e5m2
      let v := fmtEnv c.fmt (RO.mode ro c.fmt (bk.w0 % 2 ^ 16))
      let x := s.operandNat key c false a l
      let y := s.operandNat key c false b l
      let as := [0, 1, 2, 3].map fun i => fm.source v.fz (byte x i)
      let bs := [0, 1, 2, 3].map fun i => fm.source v.fz (byte y i)
      let z := fp32.source v.fz (s.operandNat key c false e l)
      roundTrap fp32 v (as ++ bs ++ [z]) (dotSum (v.mode = Mode.rdn) as bs z)

/-! ## Conversion (spec/07 R139) -/

def cvtFmt : CvtTy → Option FFmt
  | .f32 => some fp32 | .f16 => some fp16 | .bf16 => some bf16 | .e4m3 => some e4m3 | .e5m2 => some e5m2
  | .s8 | .s32 => none

/-- The exact source of a conversion. -/
def State.cvtSource (s : State) (key : Nat) (c : Crew) (sf : CvtTy) (sl : BitVec 2) (fz : Bool) (o : Operand)
    (l : Nat) : Num :=
  let x := s.operandNat key c false o l
  let h := x / 2 ^ (16 * sl.toNat) % 2 ^ 16
  let b := x / 2 ^ (8 * sl.toNat) % 2 ^ 8
  match sf with
  | .f32 => fp32.source fz (s.fpBits key c o l)
  | .f16 => fp16.source fz h
  | .bf16 => bf16.source fz h
  | .e4m3 => e4m3.source fz b
  | .e5m2 => e5m2.source fz b
  | .s8 => .ofInt (toSigned 8 b)
  | .s32 => .ofInt (toSigned 32 x)

/-- The mode of a conversion to an integer (spec/07 R139). -/
def intMode (ro : RO) (fmt : Word) : Mode :=
  match ro with
  | .fmt => if fmtSRE fmt then .rne else fmtRM fmt
  | _ => RO.mode ro fmt 0

/-- One conversion of a lane whose float sources are given: to an integer it saturates and never traps (spec/03 R46). -/
def convert (dt : CvtTy) (ro : RO) (fmt : Word) (u : Nat) (sources : List Num) (x : Num) : Nat × LaneTrap :=
  match dt with
  | .s8 => (wrapInt 32 (x.toInt (intMode ro fmt) (-128) 127), ⟨false, false⟩)
  | .s32 => (wrapInt 32 (x.toInt (intMode ro fmt) (-2147483648) 2147483647), ⟨false, false⟩)
  | _ => roundTrap ((cvtFmt dt).getD fp32) (fmtEnv fmt (RO.mode ro fmt u)) sources x

def isIntTy (t : CvtTy) : Bool := t = .s8 || t = .s32

/-- CVT (spec/07 R139): a float result under a stochastic mode takes a block and advances %DIX also where it is exact (logs 6 and 64). The
traps of R131 judge the lane's sources, both of a packing one. -/
def execCvt (f : Ctl) (d a : Operand) (pk : Option Operand) (dt sf : CvtTy) (ro : RO) (sl : BitVec 2) (s : State) :=
  floatOp (.cvt f d a pk dt sf ro sl) f d (fun w => RO.stochastic ro w && !isIntTy dt) s fun s key c l b =>
    let source (o : Operand) : Num := s.cvtSource key c sf sl (fmtFZ c.fmt) o l
    let sources : List Num := if isIntTy sf then [] else source a :: (pk.toList.map source)
    let one (o : Operand) (u : Nat) : Nat × LaneTrap := convert dt ro c.fmt u sources (source o)
    let lo := one a (b.w0 % 2 ^ 16)
    match pk with
    | none => lo
    | some o =>
      let hi := one o (b.w0 / 2 ^ 16)
      (lo.1 + hi.1 * 2 ^ 16, ⟨lo.2.nan || hi.2.nan, lo.2.inf || hi.2.inf⟩)

/-! ## %FMT and random numbers (spec/07 R140-R142) -/

def execFmtset (f : Ctl) (imm : Word) (s : State) : Host.Outcome State Fault Refusal :=
  once (.fmtset f imm) f s fun s key c => .done (s.setCrew key { c with fmt := imm })
def execFmtget (f : Ctl) (d : Operand) (s : State) :=
  uniform (.fmtget f d) f false d s fun _ _ c _ => c.fmt.setWidth 64

/-- Writes the first words of each lane's block to consecutive registers. -/
def Crew.writeBlock (c : Crew) (d : Operand) (lanes : List Nat) (n : Nat) (val : Nat → List Nat) : Crew :=
  match d with
  | .v i => lanes.foldl (fun c l =>
      (upto 0 n).foldl (fun c j => c.setV (i.toNat + j) l (BitVec.ofNat 32 ((val l).getD j 0))) c) c
  | _ => c

def execRngu (f : Ctl) (d : Operand) (out : RngOut) (s : State) : Host.Outcome State Fault Refusal :=
  issue (.rngu f d out) s fun s key c =>
    let val (l : Nat) : List Nat :=
      let b := c.block l
      match out with
      | .f32 => [fp32.round {} (.fin false (b.w0 / 256) (-24))]
      | _ => b.words
    .done (s.setCrew key (c.writeBlock d (c.effLanes f) out.regs val).stepDix)
def execRngn (f : Ctl) (d : Operand) (s : State) : Host.Outcome State Fault Refusal :=
  issue (.rngn f d) s fun s key c =>
    .done (s.setCrew key (c.writeBlock d (c.effLanes f) 1 fun l => [gaussian (c.block l)]).stepDix)

end Sys2Proof.Machine
end

