-- ==== Sys2Proof/Machine/Dispatch.lean ====
section
/-! DEFINITION. The dispatcher: one arm per instruction, each a call of its meaning. -/
namespace Sys2Proof.Machine

def exec (i : Instr) (s : State) : Host.Outcome State Fault Refusal :=
  match i with
  | .iadd f d a b sz => Sys2Proof.Machine.execIadd f d a b sz s
  | .isub f d a b sz => Sys2Proof.Machine.execIsub f d a b sz s
  | .iadd3 f d a b e sz => Sys2Proof.Machine.execIadd3 f d a b e sz s
  | .iaddsat f d a b sz u => Sys2Proof.Machine.execIaddsat f d a b sz u s
  | .isubsat f d a b sz u => Sys2Proof.Machine.execIsubsat f d a b sz u s
  | .ineg f d a sz => Sys2Proof.Machine.execIneg f d a sz s
  | .iabs f d a sz => Sys2Proof.Machine.execIabs f d a sz s
  | .imin f d a b sz u => Sys2Proof.Machine.execImin f d a b sz u s
  | .imax f d a b sz u => Sys2Proof.Machine.execImax f d a b sz u s
  | .imul f d a b sz u => Sys2Proof.Machine.execImul f d a b sz u s
  | .imulhi f d a b sz u => Sys2Proof.Machine.execImulhi f d a b sz u s
  | .imad f d a b e sz u => Sys2Proof.Machine.execImad f d a b e sz u s
  | .imadw f d a b e u => Sys2Proof.Machine.execImadw f d a b e u s
  | .idiv f d a b sz u => Sys2Proof.Machine.execIdiv f d a b sz u s
  | .irem f d a b sz u => Sys2Proof.Machine.execIrem f d a b sz u s
  | .and f d a b sz => Sys2Proof.Machine.execAnd f d a b sz s
  | .or f d a b sz => Sys2Proof.Machine.execOr f d a b sz s
  | .xor f d a b sz => Sys2Proof.Machine.execXor f d a b sz s
  | .andn f d a b sz => Sys2Proof.Machine.execAndn f d a b sz s
  | .orn f d a b sz => Sys2Proof.Machine.execOrn f d a b sz s
  | .not f d a sz => Sys2Proof.Machine.execNot f d a sz s
  | .shl f d a b sz => Sys2Proof.Machine.execShl f d a b sz s
  | .shr f d a b sz => Sys2Proof.Machine.execShr f d a b sz s
  | .sar f d a b sz => Sys2Proof.Machine.execSar f d a b sz s
  | .rotl f d a b sz => Sys2Proof.Machine.execRotl f d a b sz s
  | .shf f d a b e sz right => Sys2Proof.Machine.execShf f d a b e sz right s
  | .bfx f d a spec sz u => Sys2Proof.Machine.execBfx f d a spec sz u s
  | .bfi f d a b spec sz => Sys2Proof.Machine.execBfi f d a b spec sz s
  | .popc f d a sz => Sys2Proof.Machine.execPopc f d a sz s
  | .clz f d a sz => Sys2Proof.Machine.execClz f d a sz s
  | .ctz f d a sz => Sys2Proof.Machine.execCtz f d a sz s
  | .brev f d a sz => Sys2Proof.Machine.execBrev f d a sz s
  | .prmt f d a b sel => Sys2Proof.Machine.execPrmt f d a b sel s
  | .clmul f d a b sz => Sys2Proof.Machine.execClmul f d a b sz s
  | .clmulh f d a b sz => Sys2Proof.Machine.execClmulh f d a b sz s
  | .icmp f d a b cc cb sz u => Sys2Proof.Machine.execIcmp f d a b cc cb sz u s
  | .pand f d a b => Sys2Proof.Machine.execPand f d a b s
  | .por f d a b => Sys2Proof.Machine.execPor f d a b s
  | .pxor f d a b => Sys2Proof.Machine.execPxor f d a b s
  | .pnot f d a => Sys2Proof.Machine.execPnot f d a s
  | .sel f d a b e sz => Sys2Proof.Machine.execSel f d a b e sz s
  | .vote f d a mode => Sys2Proof.Machine.execVote f d a mode s
  | .bcast f d a b sz => Sys2Proof.Machine.execBcast f d a b sz s
  | .shfl f d a b mode seg sz => Sys2Proof.Machine.execShfl f d a b mode seg sz s
  | .redux f d a op sz u => Sys2Proof.Machine.execRedux f d a op sz u s
  | .mov f d a sz => Sys2Proof.Machine.execMov f d a sz s
  | .movi f d imm => Sys2Proof.Machine.execMovi f d imm s
  | .lea f d a b scale u ofs => Sys2Proof.Machine.execLea f d a b scale u ofs s
  | .i2i f d a dst src sat => Sys2Proof.Machine.execI2i f d a dst src sat s
  | .rdsp f d a wrap => Sys2Proof.Machine.execRdsp f d a wrap s
  | .wrsp f a clr => Sys2Proof.Machine.execWrsp f a clr s
  | .bra f ofs => Sys2Proof.Machine.execBra f ofs s
  | .brx f a => Sys2Proof.Machine.execBrx f a s
  | .call f d ofs => Sys2Proof.Machine.execCall f d ofs s
  | .ret f a => Sys2Proof.Machine.execRet f a s
  | .exit f => Sys2Proof.Machine.execExit f s
  | .reconv f ofs => Sys2Proof.Machine.execReconv f ofs s
  | .brk f ofs => Sys2Proof.Machine.execBrk f ofs s
  | .cont f ofs => Sys2Proof.Machine.execCont f ofs s
  | .yield f => Sys2Proof.Machine.execYield f s
  | .nop f => Sys2Proof.Machine.execNop f s
  | .trap f imm => Sys2Proof.Machine.execTrap f imm s
  | .illegalInstruction why => Sys2Proof.Machine.execIllegalInstruction why s
  | .ld f d a ofs ty acq sc fr hv hd => Sys2Proof.Machine.execLd f d a ofs ty acq sc fr hv hd s
  | .st f a b ofs ty rel sc => Sys2Proof.Machine.execSt f a b ofs ty rel sc s
  | .pref f a ofs l1 => Sys2Proof.Machine.execPref f a ofs l1 s
  | .lds f d a ofs ty peer => Sys2Proof.Machine.execLds f d a ofs ty peer s
  | .sts f a b ofs ty peer => Sys2Proof.Machine.execSts f a b ofs ty peer s
  | .ldr f d a ofs => Sys2Proof.Machine.execLdr f d a ofs s
  | .str f a b ofs => Sys2Proof.Machine.execStr f a b ofs s
  | .ldw f d a ofs ty => Sys2Proof.Machine.execLdw f d a ofs ty s
  | .fence f kind sc => Sys2Proof.Machine.execFence f kind sc s
  | .iinv f sc => Sys2Proof.Machine.execIinv f sc s
  | .cflush f a ofs sc inv => Sys2Proof.Machine.execCflush f a ofs sc inv s
  | .waitc f l s1 c t => Sys2Proof.Machine.execWaitc f l s1 c t s
  | .tshape f a b => Sys2Proof.Machine.execTshape f a b s
  | .tcopy f a b rf dd => Sys2Proof.Machine.execTcopy f a b rf dd s
  | .atom f d a b op sem sc sz u => Sys2Proof.Machine.execAtom f d a b op sem sc sz u s
  | .atoms f d a b op peer sz u => Sys2Proof.Machine.execAtoms f d a b op peer sz u s
  | .red f a b op rel sc sz u => Sys2Proof.Machine.execRed f a b op rel sc sz u s
  | .fred f a b ft op fz cn sat rel sc => Sys2Proof.Machine.execFred f a b ft op fz cn sat rel sc s
  | .sigset f a b sc => Sys2Proof.Machine.execSigset f a b sc s
  | .sigadd f d a b sc => Sys2Proof.Machine.execSigadd f d a b sc s
  | .sigwait f d a b cc sc => Sys2Proof.Machine.execSigwait f d a b cc sc s
  | .ticket f d a ex sc => Sys2Proof.Machine.execTicket f d a ex sc s
  | .tkserve f a sc => Sys2Proof.Machine.execTkserve f a sc s
  | .fadd f d a b ro => Sys2Proof.Machine.execFadd f d a b ro s
  | .fsub f d a b ro => Sys2Proof.Machine.execFsub f d a b ro s
  | .fmul f d a b ro => Sys2Proof.Machine.execFmul f d a b ro s
  | .ffma f d a b e ro => Sys2Proof.Machine.execFfma f d a b e ro s
  | .fmin f d a b => Sys2Proof.Machine.execFmin f d a b s
  | .fmax f d a b => Sys2Proof.Machine.execFmax f d a b s
  | .fcmp f d a b cc cb => Sys2Proof.Machine.execFcmp f d a b cc cb s
  | .fclass f d a b => Sys2Proof.Machine.execFclass f d a b s
  | .frcp f d a => Sys2Proof.Machine.execFrcp f d a s
  | .frsq f d a => Sys2Proof.Machine.execFrsq f d a s
  | .fsqrt f d a => Sys2Proof.Machine.execFsqrt f d a s
  | .fex2 f d a => Sys2Proof.Machine.execFex2 f d a s
  | .flg2 f d a => Sys2Proof.Machine.execFlg2 f d a s
  | .fsin f d a => Sys2Proof.Machine.execFsin f d a s
  | .fcos f d a => Sys2Proof.Machine.execFcos f d a s
  | .hadd2 f d a b ht ro => Sys2Proof.Machine.execHadd2 f d a b ht ro s
  | .hmul2 f d a b ht ro => Sys2Proof.Machine.execHmul2 f d a b ht ro s
  | .hfma2 f d a b e ht ro => Sys2Proof.Machine.execHfma2 f d a b e ht ro s
  | .dot4 f d a b e et ro => Sys2Proof.Machine.execDot4 f d a b e et ro s
  | .cvt f d a pk dt st ro sel => Sys2Proof.Machine.execCvt f d a pk dt st ro sel s
  | .fmtset f imm => Sys2Proof.Machine.execFmtset f imm s
  | .fmtget f d => Sys2Proof.Machine.execFmtget f d s
  | .rngu f d out => Sys2Proof.Machine.execRngu f d out s
  | .rngn f d => Sys2Proof.Machine.execRngn f d s
  | .spawn f b sh ofs => Sys2Proof.Machine.execSpawn f b sh ofs s
  | .spawnr f a b sh => Sys2Proof.Machine.execSpawnr f a b sh s
  | .join f => Sys2Proof.Machine.execJoin f s
  | .pedget f d b => Sys2Proof.Machine.execPedget f d b s
  | .pedcmp f d a b => Sys2Proof.Machine.execPedcmp f d a b s
  | .vdecl f a b e kind => Sys2Proof.Machine.execVdecl f a b e kind s
  | .vptr f d a => Sys2Proof.Machine.execVptr f d a s
  | .vfin f a raw => Sys2Proof.Machine.execVfin f a raw s
  | .alloc f d a => Sys2Proof.Machine.execAlloc f d a s
  | .barp f => Sys2Proof.Machine.execBarp f s
  | .barc f pk => Sys2Proof.Machine.execBarc f pk s
  | .arriveInit f a b => Sys2Proof.Machine.execArriveInit f a b s
  | .arrive f d a b => Sys2Proof.Machine.execArrive f d a b s
  | .await f a b => Sys2Proof.Machine.execAwait f a b s
  | .ringputGet f d a => Sys2Proof.Machine.execRingputGet f d a s
  | .ringputPub f a b => Sys2Proof.Machine.execRingputPub f a b s
  | .ringputInit f a b => Sys2Proof.Machine.execRingputInit f a b s
  | .ringgetGet f d a => Sys2Proof.Machine.execRinggetGet f d a s
  | .ringgetRel f a b => Sys2Proof.Machine.execRinggetRel f a b s
  | .trigger f => Sys2Proof.Machine.execTrigger f s
  | .tmma f a b t => Sys2Proof.Machine.execTmma f a b t s
  | .tmmae f a b e t => Sys2Proof.Machine.execTmmae f a b e t s
  | .tmmag f a b t => Sys2Proof.Machine.execTmmag f a b t s
  | .tzero f t => Sys2Proof.Machine.execTzero f t s
  | .tload f a b t => Sys2Proof.Machine.execTload f a b t s
  | .tadd f t s1 => Sys2Proof.Machine.execTadd f t s1 s
  | .tlink f a b => Sys2Proof.Machine.execTlink f a b s
  | .tdrain f a b t clr h => Sys2Proof.Machine.execTdrain f a b t clr h s
  | .tdrainl f a b e t h => Sys2Proof.Machine.execTdrainl f a b e t h s
  | .ommv f d a b k n xf wf z => Sys2Proof.Machine.execOmmv f d a b k n xf wf z s
  | .ommve f d a b e k n xf wf z => Sys2Proof.Machine.execOmmve f d a b e k n xf wf z s
  | .histrd f d a b => Sys2Proof.Machine.execHistrd f d a b s
  | .histclr f a b => Sys2Proof.Machine.execHistclr f a b s
  | .tcopyx f a b e dd => Sys2Proof.Machine.execTcopyx f a b e dd s
  | .cstart f d a b => Sys2Proof.Machine.execCstart f d a b s
  | .cstat f d a => Sys2Proof.Machine.execCstat f d a s
  | .agate f a b k nr => Sys2Proof.Machine.execAgate f a b k nr s
  | .amap f a b => Sys2Proof.Machine.execAmap f a b s
  | .amapRd f a b => Sys2Proof.Machine.execAmapRd f a b s
  | .aswap f a b q2 => Sys2Proof.Machine.execAswap f a b q2 s
  | .anorm f a b => Sys2Proof.Machine.execAnorm f a b s
  | .rdmer f d dr => Sys2Proof.Machine.execRdmer f d dr s
  | .rdclk f d dr => Sys2Proof.Machine.execRdclk f d dr s
  | .clk2mer f d a => Sys2Proof.Machine.execClk2mer f d a s
  | .ctxsave f d a b => Sys2Proof.Machine.execCtxsave f d a b s
  | .ctxload f d a b => Sys2Proof.Machine.execCtxload f d a b s
  | .tlbinv f d a b sc kind => Sys2Proof.Machine.execTlbinv f d a b sc kind s
  | .fret f d a b how => Sys2Proof.Machine.execFret f d a b how s
  | .fwcall f imm => Sys2Proof.Machine.execFwcall f imm s
  | .sigraise f d a b e sc => Sys2Proof.Machine.execSigraise f d a b e sc s
  | .budset f d a b kind => Sys2Proof.Machine.execBudset f d a b kind s
  | .wakeset f d a b => Sys2Proof.Machine.execWakeset f d a b s
  | .sleep f d => Sys2Proof.Machine.execSleep f d s
  | .agentWake core => Sys2Proof.Machine.execAgentWake core s
  | .wakeDeadline core => Sys2Proof.Machine.execWakeDeadline core s
  | .loadBind crew idx => Sys2Proof.Machine.execLoadBind crew idx s
  | .storeComplete crew idx => Sys2Proof.Machine.execStoreComplete crew idx s
  | .replacementWriteback die line => Sys2Proof.Machine.execReplacementWriteback die line s
  | .leaseExpiry die line => Sys2Proof.Machine.execLeaseExpiry die line s
  | .serviceCrewApply svc => Sys2Proof.Machine.execServiceCrewApply svc s
  | .waitAtHomeSatisfied svc idx => Sys2Proof.Machine.execWaitAtHomeSatisfied svc idx s
  | .accessRetry core => Sys2Proof.Machine.execAccessRetry core s
  | .pageWalkDone die idx => Sys2Proof.Machine.execPageWalkDone die idx s
  | .copyComplete crew => Sys2Proof.Machine.execCopyComplete crew s
  | .copyAbandon crew => Sys2Proof.Machine.execCopyAbandon crew s
  | .tileOpComplete crew => Sys2Proof.Machine.execTileOpComplete crew s
  | .drainComplete crew => Sys2Proof.Machine.execDrainComplete crew s
  | .fusionWindowClose core idx => Sys2Proof.Machine.execFusionWindowClose core idx s
  | .fusedPass core => Sys2Proof.Machine.execFusedPass core s
  | .collectiveComplete crew => Sys2Proof.Machine.execCollectiveComplete crew s
  | .collectiveTimeout crew => Sys2Proof.Machine.execCollectiveTimeout crew s
  | .scheduleEnd handle cause steps acts => Sys2Proof.Machine.execScheduleEnd handle cause steps acts s
  | .ampMatch die ctx slot => Sys2Proof.Machine.execAmpMatch die ctx slot s
  | .ampCommandComplete die ctx slot => Sys2Proof.Machine.execAmpCommandComplete die ctx slot s
  | .ampMatchTimeout die ctx slot => Sys2Proof.Machine.execAmpMatchTimeout die ctx slot s
  | .ampExchangeTimeout die ctx slot done => Sys2Proof.Machine.execAmpExchangeTimeout die ctx slot done s
  | .faultService core => Sys2Proof.Machine.execFaultService core s
  | .hostPageReply core granted => Sys2Proof.Machine.execHostPageReply core granted s
  | .handlerTaskStart core => Sys2Proof.Machine.execHandlerTaskStart core s
  | .handlerPlaceTimeout core => Sys2Proof.Machine.execHandlerPlaceTimeout core s
  | .handlerVerdict task => Sys2Proof.Machine.execHandlerVerdict task s
  | .taskFaultEnd core => Sys2Proof.Machine.execTaskFaultEnd core s
  | .coreFailure core => Sys2Proof.Machine.execCoreFailure core s
  | .linkLost crew => Sys2Proof.Machine.execLinkLost crew s
  | .preemptRequest party => Sys2Proof.Machine.execPreemptRequest party s
  | .taskComplete task => Sys2Proof.Machine.execTaskComplete task s
  | .joinSuspend task => Sys2Proof.Machine.execJoinSuspend task s
  | .taskResume task => Sys2Proof.Machine.execTaskResume task s
  | .admitNext core ctx queue => Sys2Proof.Machine.execAdmitNext core ctx queue s
  | .dependenceRelease launch => Sys2Proof.Machine.execDependenceRelease launch s
  | .batchDeal => Sys2Proof.Machine.execBatchDeal s
  | .coreTakeWork core => Sys2Proof.Machine.execCoreTakeWork core s
  | .gangStart launch => Sys2Proof.Machine.execGangStart launch s
  | .runArbitration core pipe => Sys2Proof.Machine.execRunArbitration core pipe s
  | .launchComplete launch => Sys2Proof.Machine.execLaunchComplete launch s
  | .triggerPoint launch => Sys2Proof.Machine.execTriggerPoint launch s
  | .coreGate core => Sys2Proof.Machine.execCoreGate core s
  | .coreWake core code => Sys2Proof.Machine.execCoreWake core code s
  | .budgetPeriodStart => Sys2Proof.Machine.execBudgetPeriodStart s
  | .budgetHold cls => Sys2Proof.Machine.execBudgetHold cls s
  | .spawnStallLimit crew => Sys2Proof.Machine.execSpawnStallLimit crew s
  | .relockStart die => Sys2Proof.Machine.execRelockStart die s
  | .relockEnd die => Sys2Proof.Machine.execRelockEnd die s
  | .powerStepDown die => Sys2Proof.Machine.execPowerStepDown die s
  | .powerStepUp die => Sys2Proof.Machine.execPowerStepUp die s
  | .thermalReset die => Sys2Proof.Machine.execThermalReset die s
  | .packageReset => Sys2Proof.Machine.execPackageReset s
  | .selfTestPass bit freq => Sys2Proof.Machine.execSelfTestPass bit freq s
  | .imageFetchRetry img => Sys2Proof.Machine.execImageFetchRetry img s
  | .firmwareUpdate img => Sys2Proof.Machine.execFirmwareUpdate img s
  | .functionRetire bit => Sys2Proof.Machine.execFunctionRetire bit s
  | .hbmSpareRepair stack => Sys2Proof.Machine.execHbmSpareRepair stack s
  | .laneSpare link => Sys2Proof.Machine.execLaneSpare link s
  | .rdmaWrite qp ctx key va data => Sys2Proof.Machine.execRdmaWrite qp ctx key va data s
  | .rdmaRead qp ctx key va n => Sys2Proof.Machine.execRdmaRead qp ctx key va n s
  | .atomicFetchAdd qp ctx key va x => Sys2Proof.Machine.execAtomicFetchAdd qp ctx key va x s
  | .atomicCmpSwap qp ctx key va cmp swap => Sys2Proof.Machine.execAtomicCmpSwap qp ctx key va cmp swap s
  | .unsupportedRequest qp => Sys2Proof.Machine.execUnsupportedRequest qp s
  | .regionInstall ctx idx base len r w atomic key => Sys2Proof.Machine.execRegionInstall ctx idx base len r w atomic key s
  | .mirroredPageInstall ctx idx page host key qp => Sys2Proof.Machine.execMirroredPageInstall ctx idx page host key qp s
  | .commset f => Sys2Proof.Machine.execCommset f s
  | .commclr f => Sys2Proof.Machine.execCommclr f s
  | .schedset f => Sys2Proof.Machine.execSchedset f s
  | .schedclr f => Sys2Proof.Machine.execSchedclr f s
  | .telrd f => Sys2Proof.Machine.execTelrd f s
  | .fstep f => Sys2Proof.Machine.execFstep f s
  | .repinv f => Sys2Proof.Machine.execRepinv f s
  | .attest f => Sys2Proof.Machine.execAttest f s
  | .contextTableUpdate ctx entry => Sys2Proof.Machine.execContextTableUpdate ctx entry s
  | .ualinkPortDown port => Sys2Proof.Machine.execUalinkPortDown port s
  | .crcErrorReplay port => Sys2Proof.Machine.execCrcErrorReplay port s
  | .retrainEnd link => Sys2Proof.Machine.execRetrainEnd link s

end Sys2Proof.Machine
end

