-- ==== Sys2Proof/Machine/Policy.lean ====
section
/-! DEFINITION. What a step of the package does next: fetching the next instruction of a crew (spec/01 R9, R10, R22), the
events that the package makes by itself, and the order in which the model takes them (DESIGN CHOICE, log 2). -/
namespace Sys2Proof.Machine

/-! ## Fetch -/

/-- What a fetch gives: a word, a wait, or the fault that is taken before the word is decoded (spec/01 R22). -/
inductive Fetched where
  | word (w : BitVec 96) (s : State)
  | wait (w : Wait) (s : State)
  | bad (why : Reject) (s : State)
deriving DecidableEq, Repr

/-- A line of the instruction cache; a miss fills it (spec/01 R19). A line without IINV stays old as a whole (DESIGN CHOICE, log 9). -/
def State.fetchLine (s : State) (core : Nat) (a : Attr) (ln : Nat) : Line × State :=
  match Tbl.get? (s.core core).icache ln with
  | some l => (l, s)
  | none =>
    let (l, s) := s.readLine core a true none ln
    (l, s.modCore core fun c => { c with icache := fillCache c.icache icacheLines ln l })

/-- The first `n` bytes of an instruction that lie in one line. -/
def State.fetchPart (s : State) (core : Nat) (a : Attr) (pa n : Nat) : List Byte × State :=
  let (l, s) := s.fetchLine core a (lineOf pa)
  ((upto (pa % 128) n).map (lineByte l), s)

/-- What holds a fetch that misses the instruction cache (spec/18 R287, spec/27 R364). -/
def State.fetchHeld (s : State) (core : Nat) (a : Attr) (pa : Nat) : Option Nat :=
  if (Tbl.get? (s.core core).icache (lineOf pa)).isSome then none else s.readHeld core a true none pa

/-- A line that misses the instruction cache is charged as the HBM bytes of the crew that fetches it (spec/15 R264, log 43). -/
def State.fetchCharge (s : State) (key : Nat) (a : Attr) (pa : Nat) : State :=
  if (Tbl.get? (s.core (coreOf key)).icache (lineOf pa)).isSome then s
  else s.charge key 3 (s.readBytes (coreOf key) true none [(a, lineOf pa * 128)])

/-- The pieces of the twelve bytes at an address, each within one line. -/
def fetchPieces (pc : Nat) : List (Nat × Nat) :=
  if pc % 128 ≤ 116 then [(pc, 12)] else [(pc, 128 - pc % 128), (pc + (128 - pc % 128), 12 - (128 - pc % 128))]

/-- The bytes of the pieces of an instruction, each translated for execution; a piece beyond address 2^56 - 1 wraps in the page table's
indices (DESIGN CHOICE, log 77). -/
def State.fetchAll (s : State) (key : Nat) : List (Nat × Nat) → List Byte → Fetched
  | [], bs => .word (wordOfBytes bs) s
  | (va, n) :: rest, bs =>
    match s.translate key .exec va with
    | (.walking, s) | (.behind, s) => .wait .walk s
    | (.rejected, s) => .wait .rejected (s.reject key)
    | (.fault sub hm, s) =>
      let r := transReport sub hm (BitVec.ofNat 64 va) 0 .exec
      .bad (.fetch r.cause r.sub r.addr r.d1) s
    | (.ok pa a, s) =>
      if s.badAt pa n then .bad (.fetch 0x1F 0 (BitVec.ofNat 64 va) 0) s
      else if s.cutOff pa then .bad (.fetch 0x1F 2 (BitVec.ofNat 64 va) 0) s
      else match s.fetchHeld (coreOf key) a pa with
        | some d => .wait .clock (s.modCrew key fun c => { c with heldDie := d })
        | none =>
          let s := s.fetchCharge key a pa
          let (part, s) := s.fetchPart (coreOf key) a pa n
          s.fetchAll key rest (bs ++ part)

/-- The fetch of a crew's next instruction: the alignment of the PC, then the translation of both pages (spec/01 R9, R10,
R22). A PC is a global address: one with bits [63:56] set raises the address fault (log 37). Where the last bytes lie beyond address
2^56 - 1, the walk of the second piece uses the index bits that it has: a DESIGN CHOICE (log 77). -/
def State.fetch (s : State) (key : Nat) : Fetched :=
  let pc := (s.crew key).pc
  if pc.toNat % 4 ≠ 0 then .bad (.align pc) s
  else if pc.extractLsb' 56 8 ≠ 0 then .bad (.fetch 0x06 0 pc 0) s
  else s.fetchAll key (fetchPieces pc.toNat) []

/-- A crew issues, unless an armed operation holds it as it stands (spec/09 R177): the joins that it has reached are popped (spec/04
R87), the word is fetched and decoded for the crew's register count (spec/01 R22), and the instruction runs. -/
def State.issueNext (s : State) (key : Nat) : Host.Outcome State Fault Refusal :=
  let s := { s with cur := some key, turn := key + 1 }
  if (s.crew key).armedHold then .next (s.stalled key .armed)
  else
  let s := s.modCrew key Crew.settle
  match s.fetch key with
  | .bad why t => exec (.illegalInstruction why) t
  | .wait w t => .next (t.stalled key w)
  | .word w t =>
    match decodeFor (t.crew key).regc w with
    | .ok i => exec i t
    | .error cause => exec (.illegalInstruction (.illegal cause)) t

/-! ## The events that the package makes by itself -/

/-- Whether a copy, TLOAD or drain of a crew has met a page that it could not reach: COPY_ABANDON finds out whether anyone will map
it. -/
def Crew.unmapped (c : Crew) : Bool :=
  (c.cops.any fun o => !o.done && !o.applied && CKind.isCopy o.kind && o.why = some .walk) ||
    c.tops.any fun o => !o.done && o.why = some .walk

/-- The events of a crew's operations. -/
def crewEvents (key : Nat) (c : Crew) : List Instr :=
  ((upto 0 c.loads.length).map fun i => Instr.loadBind key i) ++ ((upto 0 c.stores.length).map fun i => Instr.storeComplete key i) ++
    (if c.cops.isEmpty && c.tops.isEmpty then []
     else [.copyComplete key, .tileOpComplete key, .drainComplete key] ++ (if c.unmapped then [.copyAbandon key] else []) ++
       [.collectiveComplete key, .collectiveTimeout key]) ++
    (if c.phase = spawnPhase then [.spawnStallLimit key] else [])

def State.dieEvents (_s : State) (d : Nat) (x : Die) : List Instr :=
  ((upto 0 x.walks.length).map fun i => Instr.pageWalkDone d i) ++ [.relockEnd d, .relockStart d]

def State.coreEvents (_s : State) (k : Nat) (x : Core) : List Instr :=
  (if x.rejected.isEmpty then [] else [.accessRetry k]) ++
    ((upto 0 x.groups.length).map fun i => Instr.fusionWindowClose k i) ++ (if x.groups.isEmpty then [] else [.fusedPass k]) ++
    [.faultService k] ++
    (if x.reports.isEmpty && x.handlers.isEmpty then [] else [.handlerTaskStart k, .handlerPlaceTimeout k]) ++
    [.taskFaultEnd k, .wakeDeadline k, .agentWake k] ++ (if x.gated then (upto 1 8).map fun c => Instr.coreWake k c else []) ++
    [.coreTakeWork k]

def State.ampEvents (n : Nat) : List Instr :=
  [.ampMatch (n / 128) (n / 8 % 16) (n % 8), .ampCommandComplete (n / 128) (n / 8 % 16) (n % 8),
   .ampMatchTimeout (n / 128) (n / 8 % 16) (n % 8)]

def State.taskEvents (_s : State) (k : Nat) (t : Task) : List Instr :=
  (if t.handlerOf.isSome then [.handlerVerdict k] else []) ++ [.taskComplete k] ++
    (if t.joinFrom.isSome then [.joinSuspend k] else []) ++ (if t.status = .suspended then [.taskResume k] else [])

/-- The queues that the firmware agent of the first ready core looks at. -/
def State.admitEvents (s : State) : List Instr :=
  match (s.cores.map (·.1)).filter s.coreReady with
  | [] => []
  | k :: _ => (upto 0 16).flatMap fun ctx =>
    let e := s.ctxStored ctx
    if ctxValid e then (upto 0 (ctxQcnt e)).map fun q => Instr.admitNext k ctx q else []

/-- The grants of the vector pipes, last. -/
def State.arbitrationEvents (s : State) : List Instr :=
  (s.crews.filter fun x => s.isReady x.1).map fun x => Instr.runArbitration (coreOf x.1) (pipeOf s x.1)

/-- The events that may happen by themselves, in the order in which the model tries them. What only the outside decides
(requests, failures, timeouts of an exchange, replacement, pre-emption) is not among them. -/
def State.candidates (s : State) : List Instr :=
  (s.svcs.flatMap fun x => (if x.2.queue.isEmpty then [] else [Instr.serviceCrewApply x.1]) ++
      (upto 0 x.2.waiters.length).map fun i => Instr.waitAtHomeSatisfied x.1 i) ++
    (s.dies.flatMap fun x => s.dieEvents x.1 x.2) ++ (s.crews.flatMap fun x => crewEvents x.1 x.2) ++
    (s.amps.flatMap fun x => State.ampEvents x.1) ++ (s.cores.flatMap fun x => s.coreEvents x.1 x.2) ++
    (s.tasks.flatMap fun x => s.taskEvents x.1 x.2) ++
    (s.launches.flatMap fun x => [.dependenceRelease x.1, .triggerPoint x.1, .gangStart x.1, .launchComplete x.1]) ++
    [.batchDeal] ++ s.admitEvents ++ [.budgetPeriodStart] ++ ((upto 0 16).map fun c => Instr.budgetHold c) ++ s.arbitrationEvents

/-- The first event that does more than take free values and let the waiting crews be judged again, and the state it gives. -/
def State.autoEvent (s : State) : Option State :=
  let idle := s.wakeCrews
  s.candidates.findSome? fun i => match exec i s with
    | .next t =>
      let u := { t with freeIx := s.freeIx }
      if u = s || u = idle then none else some t
    | _ => none

/-! ## The order of a step -/

/-- The owners of the vector pipes that may issue, by crew. -/
def State.issuers (s : State) : List Nat :=
  (s.crews.map (·.1)).filter fun k => s.canIssue k && (s.core (coreOf k)).pipes.any fun p => p.2 = k

/-- The owners of the vector pipes that may not issue. -/
def State.idleOwners (s : State) : List Nat := (s.crews.map (·.1)).filter fun k => s.owner k && !s.canIssue k

/-- What becomes of an owner that does not issue and stands between runs: it leaves the slot to another ready crew, and a pre-empted
one keeps its position (spec/13 R240). A stall inside a run ends it when it has lasted for more than 256 core cycles, as time passes
(spec/01 R18). -/
def State.ownerWaits (s : State) (key : Nat) : State :=
  let others := (s.readyAgents (coreOf key) (pipeOf s key) ++ s.readyCrews (coreOf key) (pipeOf s key)).any fun j => j != key
  if s.offRun key && others then s.leavePipe key else s

/-- A round of the owners is over: those that wait give up their slots when it is time, and every crew that stalls inside its run is
judged again. -/
def State.newRound (s : State) : State :=
  { (s.idleOwners.foldl State.ownerWaits s).wakeCrews with cur := none, turn := 0 }

/-! ## The end of waits, and clock gating -/

/-- A crew whose wait makes it unready is judged by its instruction: when it would still wait, what it has done for that stands; else
its wait is over and it is ready (spec/15 R259), which is a source of wake for a gated core that nothing has woken (log 34). -/
def State.judgeWait (s : State) (key : Nat) (w : Wait) : State :=
  let go (s : State) : State :=
    (s.modCrew key fun c => c.ready (s.cycles key)).modCore (coreOf key) fun x =>
      { x with source := if x.gated then x.source <|> some (w.code, s.meridian) else x.source }
  match (s.modCrew key fun c => { c with wait := none }).issueNext key with
  | .next t =>
    if (t.crew key).wait.any fun w => !w.inside then { t with cur := s.cur, turn := s.turn } else go s
  | _ => go s

/-- Whether the stall that has ended the run of a crew would still hold its instruction: judged as it would issue now. -/
def State.stillStalls (s : State) (key : Nat) : Bool :=
  match (s.modCrew key fun c => { c with wait := none }).issueNext key with
  | .next t => (t.crew key).wait.isSome
  | _ => false

/-- A crew whose run a stall has ended stalls no more once its instruction could issue (spec/15 Table 15-5, line 0). -/
def State.judgeCut (s : State) (key : Nat) : State :=
  if s.stillStalls key then s else s.modCrew key fun c => { c with stall := none, cut := false }

/-- Every crew that waits outside its run is judged, unless something stops it, and so is one whose stall has ended its run. -/
def State.judgeWaits (s : State) : State :=
  (s.crews.map (·.1)).foldl (fun s k =>
    if s.barred k then s
    else match (s.crew k).wait with
      | some w => if w.inside then (if (s.crew k).cut then s.judgeCut k else s) else s.judgeWait k w
      | none => if (s.crew k).cut then s.judgeCut k else s) s

/-- The source of a gated core whose crews have become ready without another: a hold or a stall is over (log 34). -/
def State.wakeReady (s : State) : State :=
  s.crews.foldl (fun s x =>
    let k := coreOf x.1
    let y := s.core k
    if y.gated && y.source.isNone && !isAgentKey x.1 && State.isReady (s.setCore k { y with gated := false }) x.1 then
      s.setCore k { y with source := some (Wait.code .hold, s.meridian) }
    else s) s

/-- What the end of the time that has passed shows: waits that are over, and cores that are to be gated (spec/15 R259, R263). -/
def State.observe (s : State) : State :=
  let t := s.judgeWaits.wakeReady
  (t.cores.map (·.1)).foldl State.gate t

/-- Whether an instruction of the agenda is an event: an instruction that a crew issues is not. -/
def Instr.isEvent (i : Instr) : Bool := i.ctl?.isNone && match i with | .illegalInstruction _ => false | _ => true

/-- After time has passed: the event that the outside has decided; else the crew whose run is going on; else an event that
the package makes by itself; else the next owner of a pipe; else a new round begins. -/
def State.advanceOnce (s : State) : Host.Outcome State Fault Refusal :=
  match s.agenda with
  | i :: rest =>
    let s := { s with agenda := rest }
    if Instr.isEvent i then exec i s else .next s
  | [] =>
    match s.cur.filter s.canIssue with
    | some k => s.issueNext k
    | none =>
      match s.autoEvent with
      | some t => .next t
      | none =>
        match s.issuers.find? fun k => s.turn ≤ k with
        | some k => s.issueNext k
        | none => .next s.newRound

/-! ## Placing an instruction for the next step (log 38) -/

/-- The role of a crew that may issue an instruction; none is the firmware agent. A word that decodes to no instruction goes
to a VEC crew. -/
def roleFor (i : Option Instr) : Option Role :=
  match i with
  | none => some .vec
  | some i => if i.roles.vec then some .vec else if i.roles.tile then some .tile else if i.roles.copy then some .copy else none

/-- The slot of the crew that issues a placed instruction: the firmware agent's of core 0, or slot 0. -/
def placedKey (r : Option Role) : Nat := match r with | none => crewKey 0 agentSlot | some _ => crewKey 0 0

/-- Where a placed instruction stands: its PC, and the physical address of its page. -/
def placedPC : Nat := 65536

/-- The translation of the page of a placed instruction: executable, uncached below the instruction cache. -/
def placedEntry (ctx pa : Nat) : TlbEntry :=
  { ctx := ctx, vbase := placedPC, size := 65536, r := false, w := false, x := true, home := 0, lc := 0, rep := false, pa := pa }

/-- The crew that issues a placed instruction. -/
def placedCrew (r : Option Role) : Crew :=
  match r with
  | none => { Crew.agent with party := agentParty (placedKey none), asleep := false, pc := BitVec.ofNat 64 placedPC }
  | some r =>
    { role := some r, party := 0, lanes := 32, regc := 192, pc := BitVec.ofNat 64 placedPC, mask := laneMask 32, live := laneMask 32 }

/-- The state in which the next step issues a word of the opcode table: one launch, one task, one party and one crew on
core 0, whose next instruction's bytes are in memory under an executable page. -/
def State.place (s : State) (nbits w : Nat) : State :=
  let r := roleFor (decodeTableWord nbits w)
  let key := placedKey r
  let pa := match r with | none => placedPC | some _ => s.pkgId * 2 ^ 52 + placedPC
  let task : Task := { launch := s.nextLaunch, status := .resident, parties := [0] }
  let launch : Launch := { ctx := 0, packet := 0, released := true, nextRoot := 1, ran := [0], status := .running }
  let party : Party := { task := s.nextTask, crews := [key] }
  let s := match r with
    | none => s
    | some _ => { s with tasks := Tbl.set s.tasks s.nextTask task, nextTask := s.nextTask + 1
                         launches := Tbl.set s.launches s.nextLaunch launch, nextLaunch := s.nextLaunch + 1
                         parties := Tbl.set s.parties 0 party }
  let s := s.modCore 0 fun c =>
    { c with icache := [], gated := false, rejected := c.rejected.filter fun k => k != key, retired := false, stallers := [], tlb := placedEntry 0 pa :: c.tlb
             pipes := Tbl.set c.pipes 0 key }
  let s := s.modDie 0 fun x => { x with relock := none }
  let bytes := toBytesLE 12 (w % 2 ^ nbits)
  { (s.setCrew key (placedCrew r)).clearBad pa 12 with
    agenda := [], cur := some key, heldClasses := [], mem := s.mem.writeBytes pa bytes }

end Sys2Proof.Machine
end

