-- ==== Sys2Proof/Machine/Step.lean ====
section
/-! DEFINITION. One step of the package: time passes, the host link is served, waits end and cores are gated, and one thing happens: an
event, or one instruction of one crew. -/
namespace Sys2Proof.Machine

def step (s : State) : Host.Outcome State Fault Refusal := s.tick.serveQps.observe.advanceOnce

/-- The state in which the next step fetches and runs the instruction whose bits are `w` (log 38). -/
def State.withFetchWord (s : State) (nbits w : Nat) : State := s.place nbits w

end Sys2Proof.Machine
end

