-- ==== Sys2Proof/Safety.lean ====
section
/-! DEFINITION. The words in which the statements are made: when an instruction issues at once, what it may change, what
it writes, and what holds in every state of a run. -/
namespace Sys2Proof.Machine

/-! ## When an instruction issues -/

/-- An instruction issues without a wait and without a fault of its role: `key` is the issuing crew, nothing holds the
instruction (an armed operation, loads of a region that is over, a register still to be written, an older acquire), and no
uncorrectable word is consumed (spec/01 R22, spec/05 R98, R100, R115, spec/09 R177, spec/13 R228). -/
abbrev Issues (i : Instr) (s : State) (key : Nat) : Prop :=
  s.cur = some key ∧ ((Tbl.get? s.crews key).isSome || isAgentKey key) = true ∧ (s.crew key).lanes ≤ 1024 ∧
    roleFault i.roles (s.crew key).role = none ∧ (s.crew key).heldBy i = none ∧ (s.crew key).poisoned i = none

/-- The instruction completes with the effect that `s1` shows: the crew then stands at PC + 12, and its run goes on. -/
abbrev Runs (i : Instr) (s : State) (key : Nat) (s1 : State) : Prop :=
  exec i s = .next ((s1.advance key).retire key (Instr.hints i) false)

/-- The instruction completes with the effect that `s1` shows, its PC among it, and its run ends. -/
abbrev Moves (i : Instr) (s : State) (key : Nat) (s1 : State) : Prop :=
  exec i s = .next (s1.retire key (Instr.hints i) true)

/-- The instruction takes a fault. -/
abbrev Traps (i : Instr) (s : State) (key : Nat) (r : Report) : Prop :=
  exec i s = .next ((s.entered key (Instr.hints i)).takeFault key r)

/-- No load of the crew's region waits for its address, so a fault is taken at once (spec/13 R228). -/
abbrev NoRegionLoad (s : State) (key : Nat) : Prop := (s.crew key).walking = false

/-- The event happens with the effect that `s1` shows: crews that have left may then end, and waiting crews look again. -/
abbrev Happens (i : Instr) (s s1 : State) : Prop := exec i s = .next s1.crewsEnd.wakeCrews

/-! ## Frames -/

/-- Nothing of the package changes but what `t` says of crews and cores and of the issuing place; no other crew changes, and of the cores only who owns a pipe and the stall counters (spec/27 Table 27-3 counts stalls
outside R4). -/
def Quiet (s t : State) (key : Nat) : Prop :=
  t = { s with crews := t.crews, cores := t.cores, cur := t.cur } ∧ (∀ k, k ≠ key → t.crew k = s.crew k) ∧
    ∀ k, t.core k = { s.core k with pipes := (t.core k).pipes, stalls := (t.core k).stalls }

/-- Nothing of the crew changes but its PC, its registers and predicates, its region entry, what held the instruction and
the crew's place in the run. -/
def Crew.Keeps (c c' : Crew) : Prop :=
  c' = { c with pc := c'.pc, vregs := c'.vregs, sregs := c'.sregs, preds := c'.preds, phase := c'.phase, aux := c'.aux,
                reply := c'.reply, wait := c'.wait, ignoreTraps := c'.ignoreTraps, runPos := c'.runPos,
                inRegion := c'.inRegion, epc := c'.epc, epcDix := c'.epcDix, restart := c'.restart, stall := c'.stall,
                yields := c'.yields, cut := c'.cut, wonAt := c'.wonAt, readyAt := c'.readyAt, holdUntil := c'.holdUntil }

/-- No register and no predicate changes. -/
def Crew.SameRegs (c c' : Crew) : Prop := c'.vregs = c.vregs ∧ c'.sregs = c.sregs ∧ c'.preds = c.preds

/-- The destination takes its value in the given lanes, and every other register, lane and predicate keeps its own: a v
register or pair in each lane, an s register or pair from the first lane, a predicate from the values that are not
zero; a write of p7 is ignored (spec/01 R12, R13, R15, spec/04 R62). -/
def Crew.Writes (wide : Bool) (d : Operand) (lanes : List Nat) (val : Nat → DWord) (c c' : Crew) : Prop :=
  match d with
  | .v r =>
    (∀ l ∈ lanes, c'.v r.toNat l = (val l).extractLsb' 0 32 ∧
      (wide = true → c'.v (r.toNat + 1) l = (val l).extractLsb' 32 32)) ∧
    (∀ q l, l < 1024 → ¬(l ∈ lanes ∧ (q = r.toNat ∨ (wide = true ∧ q = r.toNat + 1))) → c'.v q l = c.v q l) ∧
    c'.sregs = c.sregs ∧ c'.preds = c.preds
  | .s r =>
    (∀ l, lanes.head? = some l → c'.s r.toNat = (val l).extractLsb' 0 32 ∧
      (wide = true → c'.s (r.toNat + 1) = (val l).extractLsb' 32 32)) ∧
    (∀ q, ¬(lanes ≠ [] ∧ (q = r.toNat ∨ (wide = true ∧ q = r.toNat + 1))) → c'.s q = c.s q) ∧
    c'.vregs = c.vregs ∧ c'.preds = c.preds
  | .p i =>
    (i ≠ 7 → ∀ l ∈ lanes, (c'.pred i).getLsbD l = (val l != 0)) ∧
    (∀ j l, ¬(l ∈ lanes ∧ j = i ∧ i ≠ 7) → (c'.pred j).getLsbD l = (c.pred j).getLsbD l) ∧
    c'.vregs = c.vregs ∧ c'.sregs = c.sregs
  | _ => Crew.SameRegs c c'

/-- An instruction that only writes its destination completes: the crew goes on at PC + 12, the destination is written in
the effective lanes, and nothing else changes. `c0` is the crew with what the instruction does to it besides. -/
def Computes (i : Instr) (f : Ctl) (wide : Bool) (d : Operand) (s : State) (key : Nat) (c0 : Crew)
    (val : Nat → DWord) : Prop :=
  ∃ t, exec i s = .next t ∧ Quiet s t key ∧ (t.crew key).pc = (s.crew key).pc + 12 ∧
    Crew.Keeps c0 (t.crew key) ∧ Crew.Writes wide d ((s.crew key).effLanes f) val (s.crew key) (t.crew key)

/-! ## Results by rule -/

/-- A lane result: guard, width, destination, and the value in a lane. -/
structure LaneResult where
  f : Ctl
  wide : Bool
  d : Operand
  val : State → Nat → Crew → Nat → DWord

/-- A function of one, two or three words of 32 or 64 bits, by the width flag. -/
def on1 (sz : Bool) (g : ∀ w, BitVec w → BitVec w) (x : DWord) : DWord :=
  if sz then g 64 x else (g 32 (x.setWidth 32)).setWidth 64
def on2 (sz : Bool) (g : ∀ w, BitVec w → BitVec w → BitVec w) (x y : DWord) : DWord :=
  if sz then g 64 x y else (g 32 (x.setWidth 32) (y.setWidth 32)).setWidth 64
def on3 (sz : Bool) (g : ∀ w, BitVec w → BitVec w → BitVec w → BitVec w) (x y z : DWord) : DWord :=
  if sz then g 64 x y z else (g 32 (x.setWidth 32) (y.setWidth 32) (z.setWidth 32)).setWidth 64

/-- The value of w bits as an integer, unsigned or signed (spec/04 R63). -/
def bvInt (u : Bool) {w : Nat} (x : BitVec w) : Int := if u then x.toNat else x.toInt
/-- The nearest value of w bits to an integer (spec/04 R64). -/
def bvClamp (u : Bool) (w : Nat) (x : Int) : BitVec w :=
  if u then BitVec.ofInt w (max 0 (min x (2 ^ w - 1))) else BitVec.ofInt w (max (-(2 ^ (w - 1))) (min x (2 ^ (w - 1) - 1)))

/-- The field of `len` bits at `pos`, cut at the top, zero- or sign-extended; an empty field is 0 (spec/04 R67). -/
def bvField (u : Bool) (pos len : Nat) {w : Nat} (x : BitVec w) : BitVec w :=
  if w ≤ pos || len = 0 then 0
  else if u then (x.extractLsb' pos (min len (w - pos))).setWidth w else (x.extractLsb' pos (min len (w - pos))).signExtend w
/-- `y` with the field of `len` bits at `pos` replaced by the low bits of `x`; an empty field replaces nothing (R67). -/
def bvInsert (pos len : Nat) {w : Nat} (x y : BitVec w) : BitVec w :=
  let m : BitVec w := if w ≤ pos || len = 0 then 0 else BitVec.ofNat w (2 ^ min len (w - pos) - 1) <<< pos
  (y &&& ~~~m) ||| ((x <<< pos) &&& m)

def res1 (f : Ctl) (sz : Bool) (d a : Operand) (g : ∀ w, BitVec w → BitVec w) : LaneResult :=
  { f := f, wide := sz, d := d, val := fun s key c l => on1 sz g (s.operand key c sz a l) }
def res2 (f : Ctl) (sz : Bool) (d a b : Operand) (g : ∀ w, BitVec w → BitVec w → BitVec w) : LaneResult :=
  { f := f, wide := sz, d := d, val := fun s key c l => on2 sz g (s.operand key c sz a l) (s.operand key c sz b l) }
def res3 (f : Ctl) (sz : Bool) (d a b e : Operand) (g : ∀ w, BitVec w → BitVec w → BitVec w → BitVec w) : LaneResult :=
  { f := f, wide := sz, d := d,
    val := fun s key c l => on3 sz g (s.operand key c sz a l) (s.operand key c sz b l) (s.operand key c sz e l) }

/-- Integer arithmetic by Table 4-1 and R64, R65. -/
def intResult : Instr → Option LaneResult
  | .iadd f d a b sz => some (res2 f sz d a b fun _ x y => x + y)
  | .isub f d a b sz => some (res2 f sz d a b fun _ x y => x - y)
  | .iadd3 f d a b e sz => some (res3 f sz d a b e fun _ x y z => x + y + z)
  | .iaddsat f d a b sz u => some (res2 f sz d a b fun w x y => bvClamp u w (bvInt u x + bvInt u y))
  | .isubsat f d a b sz u => some (res2 f sz d a b fun w x y => bvClamp u w (bvInt u x - bvInt u y))
  | .ineg f d a sz => some (res1 f sz d a fun _ x => -x)
  | .iabs f d a sz => some (res1 f sz d a fun _ x => if x.msb then -x else x)
  | .imin f d a b sz u => some (res2 f sz d a b fun _ x y => if bvInt u y < bvInt u x then y else x)
  | .imax f d a b sz u => some (res2 f sz d a b fun _ x y => if bvInt u x < bvInt u y then y else x)
  | .imul f d a b sz _ => some (res2 f sz d a b fun _ x y => x * y)
  | .imulhi f d a b sz u => some (res2 f sz d a b fun w x y => BitVec.ofInt w (bvInt u x * bvInt u y / 2 ^ w))
  | .imad f d a b e sz _ => some (res3 f sz d a b e fun _ x y z => x * y + z)
  | .imadw f d a b e u => some ⟨f, true, d, fun s key c l =>
      BitVec.ofInt 64 (bvInt u ((s.operand key c false a l).setWidth 32) * bvInt u ((s.operand key c false b l).setWidth 32)) +
        s.operand key c true e l⟩
  | .idiv f d a b sz u => some (res2 f sz d a b fun _ x y => if y = 0 then -1 else if u then x / y else x.sdiv y)
  | .irem f d a b sz u => some (res2 f sz d a b fun _ x y => if y = 0 then x else if u then x % y else x.srem y)
  | _ => none

/-- Logic, shifts and bit fields by Tables 4-2 and 4-3 and R66 to R70. -/
def bitResult : Instr → Option LaneResult
  | .and f d a b sz => some (res2 f sz d a b fun _ x y => x &&& y)
  | .or f d a b sz => some (res2 f sz d a b fun _ x y => x ||| y)
  | .xor f d a b sz => some (res2 f sz d a b fun _ x y => x ^^^ y)
  | .andn f d a b sz => some (res2 f sz d a b fun _ x y => x &&& ~~~y)
  | .orn f d a b sz => some (res2 f sz d a b fun _ x y => x ||| ~~~y)
  | .not f d a sz => some (res1 f sz d a fun _ x => ~~~x)
  | .shl f d a b sz => some (res2 f sz d a b fun w x y => if w ≤ y.toNat then 0 else x <<< y.toNat)
  | .shr f d a b sz => some (res2 f sz d a b fun _ x y => x >>> y)
  | .sar f d a b sz => some (res2 f sz d a b fun _ x y => x.sshiftRight y.toNat)
  | .rotl f d a b sz => some (res2 f sz d a b fun w x y => x.rotateLeft (y.toNat % w))
  | .shf f d a b e sz right => some (res3 f sz d a b e fun w x y z =>
      if right then ((x ++ y) >>> (z.toNat % w)).setWidth w else ((x ++ y) <<< (z.toNat % w) >>> w).setWidth w)
  | .bfx f d a p sz u => some ⟨f, sz, d, fun s key c l =>
      let q := FieldSpec.get p s key c l
      on1 sz (fun _ x => bvField u q.1 q.2 x) (s.operand key c sz a l)⟩
  | .bfi f d a b p sz => some ⟨f, sz, d, fun s key c l =>
      let q := FieldSpec.get p s key c l
      on2 sz (fun _ x y => bvInsert q.1 q.2 x y) (s.operand key c sz a l) (s.operand key c sz b l)⟩
  | .popc f d a sz => some (res1 f sz d a fun w x => BitVec.ofNat w ((upto 0 w).countP fun i => x.getLsbD i))
  | .clz f d a sz => some (res1 f sz d a fun w x => BitVec.ofNat w (((upto 0 w).find? fun i => x.getMsbD i).getD w))
  | .ctz f d a sz => some (res1 f sz d a fun w x => BitVec.ofNat w (((upto 0 w).find? fun i => x.getLsbD i).getD w))
  | .brev f d a sz => some (res1 f sz d a fun _ x => x.reverse)
  | .prmt f d a b q => some ⟨f, false, d, fun s key c l =>
      let y : DWord := (s.operand key c false b l).setWidth 32 ++ (s.operand key c false a l).setWidth 32
      let sel : BitVec 16 := match q with | .reg e => (s.operand key c false e l).setWidth 16 | .imm x => x
      let byte (i : Nat) : Byte :=
        let n := sel.extractLsb' (4 * i) 4
        let v : Byte := y.extractLsb' (8 * (n.toNat % 8)) 8
        if n.getLsbD 3 then (if v.msb then 0xFF else 0) else v
      (byte 3 ++ byte 2 ++ byte 1 ++ byte 0).setWidth 64⟩
  | .clmul f d a b sz => some (res2 f sz d a b fun w x y => BitVec.ofNat w (clmulNat w x.toNat y.toNat))
  | .clmulh f d a b sz => some (res2 f sz d a b fun w x y => BitVec.ofNat w (clmulNat w x.toNat y.toNat / 2 ^ w))
  | _ => none

/-- Predicates, selection, lane exchange and moves by R71 to R80: comparisons set 1 or 0. -/
def moveResult : Instr → Option LaneResult
  | .icmp f d a b cc cb sz u => some ⟨f, false, d, fun s key c l =>
      let cmp (w : Nat) (x y : BitVec w) : Bool :=
        match cc with
        | .eq => x = y | .ne => x ≠ y
        | .lt => if u then x.ult y else x.slt y | .le => if u then x.ule y else x.sle y
        | .gt => if u then y.ult x else y.slt x | .ge => if u then y.ule x else y.sle x
      let x := s.operand key c sz a l
      let y := s.operand key c sz b l
      let r := if sz then cmp 64 x y else cmp 32 (x.setWidth 32) (y.setWidth 32)
      let e (o : Operand) : Bool := match o with | .p i => (c.pred i).getLsbD l | _ => false
      let r := match cb with | .none => r | .and o => r && e o | .or o => r || e o | .xor o => r ^^ e o
      if r then 1 else 0⟩
  | .pand f d a b => some ⟨f, false, d, fun s key c l =>
      if s.operand key c false a l = 1 ∧ s.operand key c false b l = 1 then 1 else 0⟩
  | .por f d a b => some ⟨f, false, d, fun s key c l =>
      if s.operand key c false a l = 1 ∨ s.operand key c false b l = 1 then 1 else 0⟩
  | .pxor f d a b => some ⟨f, false, d, fun s key c l =>
      if s.operand key c false a l = s.operand key c false b l then 0 else 1⟩
  | .pnot f d a => some ⟨f, false, d, fun s key c l =>
      if s.operand key c false a l = 1 then 0 else 1⟩
  | .sel f d a b e sz => some ⟨f, sz, d, fun s key c l =>
      if s.operand key c false e l = 1 then s.operand key c sz a l else s.operand key c sz b l⟩
  | .vote f d a m => some ⟨f, false, d, fun s key c _ =>
      let ls := c.effLanes f
      let p (l : Nat) : Bool := s.operand key c false a l = 1
      match m with
      | .all => if ∀ l ∈ ls, p l then 1 else 0
      | .any => if ∃ l ∈ ls, p l then 1 else 0
      | .uni => if (∀ l ∈ ls, p l) ∨ ¬∃ l ∈ ls, p l then 1 else 0
      | .ballot b => ((upto 0 32).foldl (fun (w : DWord) i =>
          if (s.operand key c false b 0).toNat * 32 + i ∈ ls ∧ p ((s.operand key c false b 0).toNat * 32 + i) then
            w ||| BitVec.shiftLeft 1 i else w) 0)⟩
  | .bcast f d a b sz => some ⟨f, sz, d, fun s key c _ =>
      let l := (s.operand key c sz b 0).toNat
      if l < c.lanes && (upto (l / 32 * 32) 32).any fun j => c.live.getLsbD j then s.operand key c sz a l else 0⟩
  | .shfl f d a b m sg sz => some ⟨f, sz, d, fun s key c l =>
      let w := Seg.width sg
      let n := (s.operand key c sz b l).toNat
      let src : Option Nat := match m with
        | .idx => some (l / w * w + n % w)
        | .up => if n ≤ l % w then some (l - n) else none
        | .down => if l % w + n < w then some (l + n) else none
        | .xor => some (l / w * w + ((l % w) ^^^ (n % w)))
      match src with
      | some k => if k ∈ c.effLanes f then s.operand key c sz a k else s.operand key c sz a l
      | none => s.operand key c sz a l⟩
  | .redux f d a op sz u => some ⟨f, sz, d, fun s key c _ =>
      match (c.effLanes f).map fun l => s.operand key c sz a l with
      | [] => 0
      | x :: xs => xs.foldl (on2 sz fun _ x y => match op with
          | .add => x + y
          | .min => if bvInt u y < bvInt u x then y else x
          | .max => if bvInt u x < bvInt u y then y else x
          | .and => x &&& y
          | .or => x ||| y
          | .xor => x ^^^ y) x⟩
  | .mov f d a sz => some ⟨f, sz, d, fun s key c l => s.operand key c sz a l⟩
  | .movi f d imm => some ⟨f, false, d, fun _ _ _ _ => imm.setWidth 64⟩
  | .lea f d a b sc u ofs => some ⟨f, true, d, fun s key c l =>
      let x : Word := (s.operand key c false b l).setWidth 32
      s.operand key c true a l + (if u then x.setWidth 64 else x.signExtend 64) * BitVec.ofNat 64 (2 ^ sc.val) + ofs.signExtend 64⟩
  | .i2i f d a dst src sat => some ⟨f, IntTy.bits dst = 64, d, fun s key c l =>
      let v := bvInt (!IntTy.signed src) ((s.operand key c (IntTy.bits src = 64) a l).setWidth (IntTy.bits src))
      let r : BitVec (IntTy.bits dst) :=
        if sat then bvClamp (!IntTy.signed dst) (IntTy.bits dst) v else BitVec.ofInt (IntTy.bits dst) v
      if IntTy.signed dst then r.signExtend 64 else r.setWidth 64⟩
  | .rdsp f d a wrap => some ⟨f, match a with | .sp x => x.wide && !wrap | _ => false, d, fun s key c l =>
      if wrap then (if c.wrapped then 1 else 0) else match a with | .sp x => s.special key c x l | _ => s.operand key c true a l⟩
  | .fcmp f d a b cc cb => some ⟨f, false, d, fun s key c l =>
      let x := fp32.source (fmtFZ c.fmt) (s.fpBits key c a l)
      let y := fp32.source (fmtFZ c.fmt) (s.fpBits key c b l)
      if Comb.apply cb c l (FCond.holds cc x y) then 1 else 0⟩
  | .fclass f d a b => some ⟨f, false, d, fun s key c l =>
      let w : DWord := BitVec.ofNat 64 (classWord (s.fpBits key c a l))
      match d with | .p _ => w &&& s.operand key c false b l | _ => w⟩
  | .fmtget f d => some ⟨f, false, d, fun _ _ c _ => c.fmt.setWidth 64⟩
  | .pedget f d b => some ⟨f, false, d, fun s key c _ =>
      let w := (s.operand key c false b 0).toNat
      if w < 16 then (c.ped.extractLsb' (32 * w) 32).setWidth 64 else 0⟩
  | _ => none

end Sys2Proof.Machine

namespace Sys2Proof.Machine

/-! ## Results of floating-point instructions -/

/-- A float result: guard, destination, whether %FMT makes the instruction consume a random block, and the bits of a lane
from its random word (spec/07 R130). -/
structure FloatResult where
  f : Ctl
  d : Operand
  draws : Word → Bool
  val : State → Nat → Crew → Nat → Nat → Nat

/-- One rounding to FP32 under %FMT and RO of an exact value of FP32 sources. -/
def fpRes (f : Ctl) (d : Operand) (srcs : List Operand) (ro : RO) (g : Bool → List Num → Num) : FloatResult :=
  ⟨f, d, RO.stochastic ro, fun s key c l u =>
    let v := fmtEnv c.fmt (RO.mode ro c.fmt (u % 2 ^ 16))
    fp32.round v (g (v.mode = Mode.rdn) (srcs.map fun o => fp32.source v.fz (s.fpBits key c o l)))⟩

/-- A correctly rounded function of one FP32 source, RNE. -/
def fpFun (f : Ctl) (d a : Operand) (g : Num → Num) : FloatResult :=
  ⟨f, d, fun _ => false, fun s key c l _ =>
    let v := fmtEnv c.fmt .rne
    fp32.round v (g (fp32.source v.fz (s.fpBits key c a l)))⟩

/-- The sources of one half of a packed word. -/
def halfSources (srcs : List Operand) (ht : HTy) (h : Nat) (s : State) (key : Nat) (c : Crew) (l : Nat) : List Num :=
  srcs.map fun o => (hfmt ht).source (fmtFZ c.fmt) (s.operandNat key c false o l / 2 ^ (16 * h) % 2 ^ 16)

/-- One half of a packed word, rounded once with its half of the random word. -/
def halfBits (srcs : List Operand) (ht : HTy) (ro : RO) (g : Bool → List Num → Num) (h : Nat) (s : State) (key : Nat) (c : Crew)
    (l u : Nat) : Nat :=
  let v := fmtEnv c.fmt (RO.mode ro c.fmt (u / 2 ^ (16 * h) % 2 ^ 16))
  (hfmt ht).round v (g (v.mode = Mode.rdn) (halfSources srcs ht h s key c l))

/-- Both halves of a packed word. -/
def halfRes (f : Ctl) (d : Operand) (srcs : List Operand) (ht : HTy) (ro : RO) (g : Bool → List Num → Num) : FloatResult :=
  ⟨f, d, RO.stochastic ro, fun s key c l u =>
    halfBits srcs ht ro g 0 s key c l u + 2 ^ 16 * halfBits srcs ht ro g 1 s key c l u⟩

/-- The exact operation of FADD, FSUB, FMUL and FFMA, and of their packed forms. -/
def sumOf (rdn : Bool) (xs : List Num) : Num := Num.add (arg xs 0) (arg xs 1) rdn
def differenceOf (rdn : Bool) (xs : List Num) : Num := Num.add (arg xs 0) (arg xs 1).negate rdn
def productOf (_rdn : Bool) (xs : List Num) : Num := Num.mul (arg xs 0) (arg xs 1)
def fusedOf (rdn : Bool) (xs : List Num) : Num := Num.fma (arg xs 0) (arg xs 1) (arg xs 2) rdn

/-- Floating-point results by R132 to R139. -/
def floatResult : Instr → Option FloatResult
  | .fadd f d a b ro => some (fpRes f d [a, b] ro sumOf)
  | .fsub f d a b ro => some (fpRes f d [a, b] ro differenceOf)
  | .fmul f d a b ro => some (fpRes f d [a, b] ro productOf)
  | .ffma f d a b e ro => some (fpRes f d [a, b, e] ro fusedOf)
  | .fmin f d a b => some ⟨f, d, fun _ => false, fun s key c l _ =>
      let v := fmtEnv c.fmt .rne
      fp32.round v (Num.pick false (fp32.source v.fz (s.fpBits key c a l)) (fp32.source v.fz (s.fpBits key c b l)))⟩
  | .fmax f d a b => some ⟨f, d, fun _ => false, fun s key c l _ =>
      let v := fmtEnv c.fmt .rne
      fp32.round v (Num.pick true (fp32.source v.fz (s.fpBits key c a l)) (fp32.source v.fz (s.fpBits key c b l)))⟩
  | .frcp f d a => some (fpFun f d a Num.rcp)
  | .frsq f d a => some (fpFun f d a Num.rsq)
  | .fsqrt f d a => some (fpFun f d a Num.sqrt)
  | .fex2 f d a => some (fpFun f d a Num.exp2)
  | .flg2 f d a => some (fpFun f d a Num.log2)
  | .fsin f d a => some (fpFun f d a Num.sin)
  | .fcos f d a => some (fpFun f d a Num.cos)
  | .hadd2 f d a b ht ro => some (halfRes f d [a, b] ht ro sumOf)
  | .hmul2 f d a b ht ro => some (halfRes f d [a, b] ht ro productOf)
  | .hfma2 f d a b e ht ro => some (halfRes f d [a, b, e] ht ro fusedOf)
  | .dot4 f d a b e et ro => some ⟨f, d, fun w => (et = .e4m3 || et = .e5m2) && RO.stochastic ro w, fun s key c l u =>
      let byte (o : Operand) (i : Nat) : Nat := s.operandNat key c false o l / 2 ^ (8 * i) % 256
      let v := fmtEnv c.fmt (RO.mode ro c.fmt (u % 2 ^ 16))
      let float (fm : FFmt) : Nat :=
        fp32.round v (dotSum (v.mode = Mode.rdn) ([0, 1, 2, 3].map fun i => fm.source v.fz (byte a i))
          ([0, 1, 2, 3].map fun i => fm.source v.fz (byte b i)) (fp32.source v.fz (s.operandNat key c false e l)))
      let int (sg : Bool) : Nat :=
        let x (o : Operand) (i : Nat) : Int := bvInt (!sg) (BitVec.ofNat 8 (byte o i))
        (BitVec.ofInt 32 (x a 0 * x b 0 + x a 1 * x b 1 + x a 2 * x b 2 + x a 3 * x b 3 + s.operandNat key c false e l)).toNat
      match et with | .e4m3 => float e4m3 | .e5m2 => float e5m2 | .s8 => int true | .u8 => int false⟩
  | .cvt f d a pk dt sf ro sl => some ⟨f, d, fun w => RO.stochastic ro w && !isIntTy dt, fun s key c l u =>
      let one (o : Operand) (u : Nat) : Nat :=
        (convert dt ro c.fmt u [] (s.cvtSource key c sf sl (fmtFZ c.fmt) o l)).1
      match pk with
      | none => one a (u % 2 ^ 16)
      | some o => one a (u % 2 ^ 16) + 2 ^ 16 * one o (u / 2 ^ 16)⟩
  | _ => none

/-- A value that the non-finite traps judge: its format, its bits in a lane from the random word, and its sources there. -/
structure TrapPart where
  fm : FFmt
  bits : State → Nat → Crew → Nat → Nat → Nat
  srcs : State → Nat → Crew → Nat → List Num

/-- The values of a floating-point instruction that R131 judges: the result; each half of a packed one (spec/07 R137), and both
halves of a packed conversion by the lane's two sources (log 64); none of an integer result, and an integer source is neither a NaN nor infinite. -/
def trapParts (i : Instr) (q : FloatResult) : List TrapPart :=
  let scalar (srcs : List Operand) : List TrapPart :=
    [⟨fp32, q.val, fun s key c l => srcs.map fun o => fp32.source (fmtFZ c.fmt) (s.fpBits key c o l)⟩]
  let halves (srcs : List Operand) (ht : HTy) (ro : RO) (g : Bool → List Num → Num) : List TrapPart :=
    [0, 1].map fun h => ⟨hfmt ht, halfBits srcs ht ro g h, halfSources srcs ht h⟩
  match i with
  | .fadd _ _ a b _ | .fsub _ _ a b _ | .fmul _ _ a b _ => scalar [a, b]
  | .ffma _ _ a b e _ => scalar [a, b, e]
  | .frcp _ _ a | .frsq _ _ a | .fsqrt _ _ a | .fex2 _ _ a | .flg2 _ _ a | .fsin _ _ a | .fcos _ _ a => scalar [a]
  | .hadd2 _ _ a b ht ro => halves [a, b] ht ro sumOf
  | .hmul2 _ _ a b ht ro => halves [a, b] ht ro productOf
  | .hfma2 _ _ a b e ht ro => halves [a, b, e] ht ro fusedOf
  | .dot4 _ _ a b e et _ =>
    let fm := if et = .e4m3 then e4m3 else e5m2
    let byte (s : State) (key : Nat) (c : Crew) (l : Nat) (o : Operand) (i : Nat) : Num :=
      fm.source (fmtFZ c.fmt) (s.operandNat key c false o l / 2 ^ (8 * i) % 256)
    if et = .s8 ∨ et = .u8 then []
    else [⟨fp32, q.val, fun s key c l => ([0, 1, 2, 3].map (byte s key c l a)) ++ ([0, 1, 2, 3].map (byte s key c l b)) ++
      [fp32.source (fmtFZ c.fmt) (s.operandNat key c false e l)]⟩]
  | .cvt _ _ a pk dt sf ro sl =>
    let part (o : Operand) (word : Nat → Nat) : TrapPart :=
      ⟨(cvtFmt dt).getD fp32,
       fun s key c l u => (convert dt ro c.fmt (word u) [] (s.cvtSource key c sf sl (fmtFZ c.fmt) o l)).1,
       fun s key c l => if isIntTy sf then [] else (a :: pk.toList).map fun o => s.cvtSource key c sf sl (fmtFZ c.fmt) o l⟩
    if isIntTy dt then []
    else part a (· % 2 ^ 16) :: (match pk with | some o => [part o (· / 2 ^ 16)] | none => [])
  | _ => []

/-- Whether a lane meets the condition of a trap: some value of it is of the kind, and none of that value's sources is. -/
def meets (ps : List TrapPart) (bitsAre : FFmt → Nat → Bool) (srcIs : Num → Bool) (s : State) (key : Nat) (c : Crew) (l u : Nat) : Bool :=
  ps.any fun p => bitsAre p.fm (p.bits s key c l u) && !(p.srcs s key c l).any srcIs

/-- The random word of a lane: none is drawn by a result that is not stochastic; an s register takes a free value (log
10). -/
def randomWord (draws : Bool) (d : Operand) (c : Crew) (l : Nat) : Nat :=
  if !draws then 0 else if d.isS then c.scalarWord else (c.block l).w0

end Sys2Proof.Machine
end

