-- ==== Sys2Proof/Certificates/Slice0/Obligations.lean ====
section
/-! DEFINITION. The statements about the model. -/

section

open Sys2Proof Sys2Proof.Machine

/-! ## Encoding -/

/-- Every well-formed instruction word decodes to the instruction it encodes (spec/01 R8, R13-R17, R20). -/
def Obligations.DecodeEncode : Prop :=
  ∀ i : Instr, i.WellFormed → i.ctl?.isSome = true → ∃ w, encode i = some w ∧ decodeWord w = .ok i

/-- MAJ 0x00 and MAJ 0xFF name no instruction, so all zeros and all ones are illegal with cause 0x01 (spec/01 R20). -/
def Obligations.ReservedMajRejected : Prop :=
  ∀ w : BitVec 96, w.extractLsb' 88 8 = 0x00 ∨ w.extractLsb' 88 8 = 0xFF → ∀ n, decodeFor n w = .error 1

/-- Words written out from Tables 1-1 to 1-6 decode to the instructions they stand for. -/
def Obligations.DecodedWords : Prop :=
  decodeWord (0x20#8 ++ 9#4 ++ 0#1 ++ 7#3 ++ 0#80) = .ok (.nop ⟨false, 7, false, false, 0, false, 0⟩) ∧
  -- iadd.b64 v6, v2, -1, guarded by !p1, run end
  decodeWord (0x01#8 ++ 0#4 ++ 1#1 ++ 1#3 ++ 6#10 ++ 2#10 ++ (3#2 ++ 0xFF#8) ++ (0#10 ++ 1#22) ++ (1#1 ++ 0#17)) =
    .ok (.iadd ⟨true, 1, true, false, 0, false, 0⟩ (.v 6) (.v 2) (.imm 0xFF) true) ∧
  -- movi s3, 77
  decodeWord (0x0A#8 ++ 1#4 ++ 0#1 ++ 7#3 ++ (4#4 ++ 3#6) ++ 0#10 ++ 0#10 ++ 77#32 ++ 0#18) =
    .ok (.movi ⟨false, 7, false, false, 0, false, 0⟩ (.s 3) 77) ∧
  -- rdsp v4, %LANE
  decodeWord (0x0B#8 ++ 0#4 ++ 0#1 ++ 7#3 ++ 4#10 ++ (2#2 ++ 0x80#8) ++ 0#10 ++ 0#32 ++ 0#18) =
    .ok (.rdsp ⟨false, 7, false, false, 0, false, 0⟩ (.v 4) (.sp .lane) false) ∧
  -- sleep s5
  decodeWord (0xC3#8 ++ 2#4 ++ 0#1 ++ 7#3 ++ (4#4 ++ 5#6) ++ 0#10 ++ 0#10 ++ 0#32 ++ 0#18) =
    .ok (.sleep ⟨false, 7, false, false, 0, false, 0⟩ (.s 5)) ∧
  -- a predicate as the destination of iadd: cause 0x05; an odd register of a pair: cause 0x06
  decodeWord (0x01#8 ++ 0#4 ++ 0#1 ++ 7#3 ++ (0x40#7 ++ 1#3) ++ 2#10 ++ 4#10 ++ 0#32 ++ 0#18) = .error 5 ∧
  decodeWord (0x01#8 ++ 0#4 ++ 0#1 ++ 7#3 ++ 7#10 ++ 2#10 ++ 4#10 ++ 1#32 ++ 0#18) = .error 6

/-! ## The step -/

/-- The state from which a step goes on, once time has passed, the host link has been served, and the waits that are over have
ended. -/
def started (s : State) : State := s.tick.serveQps.observe

/-- The state in which a crew is about to issue. -/
def issuing (s : State) (key : Nat) : State := { s with cur := some key, turn := key + 1 }

/-- The state in which a crew fetches: the joins that it has reached are popped (R87). -/
def fetching (s : State) (key : Nat) : State := (issuing s key).modCrew key Crew.settle

/-- When the crew whose run goes on may issue and the word at its PC is fetched, a step is the execution of the instruction
that the word decodes to for the crew's register count; a word that decodes to none is the illegal instruction with its
cause (spec/01 R22, spec/04 R87). A crew that an armed operation holds waits as it stands, its joins untouched (spec/09 R177). The
order of a step is the model's choice (log 2). -/
def Obligations.StepRunsDecoded : Prop :=
  ∀ s key, (started s).agenda = [] → (started s).cur = some key → (started s).canIssue key = true →
    (((started s).crew key).armedHold = true → step s = .next ((issuing (started s) key).stalled key .armed)) ∧
    (((started s).crew key).armedHold = false → ∀ w t, (fetching (started s) key).fetch key = .word w t →
      step s = match decodeFor (t.crew key).regc w with
        | .ok i => exec i t
        | .error cause => exec (.illegalInstruction (.illegal cause)) t)

/-- The fetch of a crew with a role reads the twelve bytes at its PC, least significant byte first, when they lie in one
line of an executable page whose lines are not leased, the instruction cache does not hold the line, no die relocks and no link
retrains, the line's home can be reached, and no word of it is uncorrectable (spec/01 R9, R19, spec/13 R224); the line is charged to
the crew (spec/15 R264, log 43), and only the core's instruction cache changes besides. An instruction
whose PC is not a multiple of 4 is not fetched: the alignment fault comes first (spec/01 R10, R22). -/
def Obligations.FetchReadsMemory : Prop :=
  (∀ (s : State) (key : Nat) (e : TlbEntry), Memory.wf s.mem = true → (s.crew key).role.isSome = true →
    (s.crew key).pc.toNat % 4 = 0 → (s.crew key).pc.toNat % 128 ≤ 116 → (s.crew key).pc.toNat < 2 ^ 56 →
    s.tlbFind (coreOf key) (s.ctxOf key) (s.crew key).pc.toNat = some e → e.x = true → e.lc = 0 → e.rep = false →
    e.vbase % 128 = 0 → e.pa % 128 = 0 → e.vbase ≤ (s.crew key).pc.toNat →
    Tbl.get? (s.core (coreOf key)).icache (lineOf (e.pa + ((s.crew key).pc.toNat - e.vbase))) = none →
    s.badAt (e.pa + ((s.crew key).pc.toNat - e.vbase)) 12 = false →
    s.cutOff (e.pa + ((s.crew key).pc.toNat - e.vbase)) = false → (∀ d, s.relocking d = false) → s.retraining = [] →
    ∃ t, s.fetch key = .word (wordOfBytes (s.mem.readBytes (e.pa + ((s.crew key).pc.toNat - e.vbase)) 12)) t ∧
      t = { s.fetchCharge key e.attr (e.pa + ((s.crew key).pc.toNat - e.vbase)) with cores := t.cores } ∧ ∀ k, t.core k = { s.core k with icache := (t.core k).icache }) ∧
  (∀ (s : State) (key : Nat), (s.crew key).pc.toNat % 4 ≠ 0 → s.fetch key = .bad (.align (s.crew key).pc) s)

/-- What completing an instruction does besides its effect: the crew stands at PC + 12, no register, predicate or other
state of the crew, no other crew, no memory and no table of the package changes (spec/01 R10, R17, R18). An instruction that moves
the PC itself leaves it where it put it, and ends the run of its crew: no pipe is its own any more (spec/01 R18). -/
def Obligations.CompletionFrame : Prop :=
  (∀ (s : State) (key : Nat) (f : Ctl), ((Tbl.get? s.crews key).isSome || isAgentKey key) = true →
    let t := (s.advance key).retire key f false
    Quiet s t key ∧ (t.crew key).pc = (s.crew key).pc + 12 ∧ Crew.Keeps (s.crew key) (t.crew key) ∧
      Crew.SameRegs (s.crew key) (t.crew key) ∧ (∀ a, t.mem.read a = s.mem.read a) ∧
      (t.crew key).inRegion = ((s.crew key).inRegion && !(f.re && !f.ie))) ∧
  (∀ (s : State) (key : Nat) (f : Ctl), ((Tbl.get? s.crews key).isSome || isAgentKey key) = true →
    let t := s.retire key f true
    Quiet s t key ∧ (t.crew key).pc = (s.crew key).pc ∧ Crew.Keeps (s.crew key) (t.crew key) ∧
      Crew.SameRegs (s.crew key) (t.crew key) ∧ (∀ a, t.mem.read a = s.mem.read a) ∧ (t.crew key).runPos = 0 ∧
      ∀ p, p ∈ (t.core (coreOf key)).pipes → p.2 ≠ key)

/-! ## Reset and invariants -/

/-- The package as reset leaves it: Meridian counts from zero (spec/18 R283), no ready bit is set (spec/27 R360), every
budget limit is unlimited (spec/15 R264), no crew is resident, and memory is in its canonical form. The spec gives few reset values:
the others are the model's (log 1), and that nothing is resident and memory lists nothing is how the model starts (log 38). -/
def Obligations.ResetState : Prop :=
  State.reset.meridian = 0 ∧ State.reset.ready = 0 ∧ State.reset.crews = [] ∧ State.reset.parties = [] ∧
    (∀ k, ((Tbl.get? State.reset.budgets k).getD {}).limit = BitVec.allOnes 64) ∧ (∀ d, State.reset.mer d = 0) ∧
    Memory.wf State.reset.mem = true

/-- A byte that has been written reads back, and every other byte reads as before; the canonical form is kept. -/
def Obligations.MemoryWriteRead : Prop :=
  ∀ (m : Memory) (a : Nat) (bs : List Byte), Memory.wf m = true →
    Memory.wf (m.writeBytes a bs) = true ∧ (m.writeBytes a bs).readBytes a bs.length = bs ∧
      ∀ x, x < a ∨ a + bs.length ≤ x → (m.writeBytes a bs).read x = m.read x

/-- Every step keeps memory in its canonical form: rising addresses, and no listed byte that is zero. -/
def Obligations.StepKeepsMemory : Prop :=
  ∀ s t, Memory.wf s.mem = true → step s = .next t → Memory.wf t.mem = true

/-! ## Faults -/

/-- Taking a fault: the crew keeps its PC and holds the report, the report is queued to the core's firmware agent behind
the others and its wake source 6 is pending, every crew of the party stops, a translation fault of a crew stalls the core,
and no register and no byte of memory changes (spec/13 R231, R232, R234). -/
def Obligations.TakeFault : Prop :=
  ∀ (s : State) (key : Nat) (r : Report), (Tbl.get? s.crews key).isSome = true → (s.crew key).role.isSome = true →
    let t := s.takeFault key r
    ∃ q : Report, (t.crew key).report = some q ∧ q.cause = r.cause ∧ q.sub = r.sub ∧ q.addr = r.addr ∧ q.d1 = r.d1 ∧
      q.pc = (s.crew key).pc ∧ q.epc = (if (s.crew key).inRegion then (s.crew key).epc else (s.crew key).pc) ∧
      q.rg = (s.crew key).inRegion ∧ q.ped = (s.crew key).ped ∧
      (t.core (coreOf key)).reports = (s.core (coreOf key)).reports ++ [(key, q)] ∧
      (t.core (coreOf key)).fw.pending.getLsbD 6 = true ∧
      (t.core (coreOf key)).stallers =
        (if r.cause = 0x05 ∧ r.eng = 0 then (s.core (coreOf key)).stallers ++ [key] else (s.core (coreOf key)).stallers) ∧
      (t.crew key).pc = (s.crew key).pc ∧ (t.crew key).halted = true ∧ Crew.SameRegs (s.crew key) (t.crew key) ∧
      t.mem = s.mem ∧ t.canIssue key = false ∧
      ∀ k, (s.crew k).party = (s.crew key).party → (s.crew k).role.isSome = true → (Tbl.get? s.crews k).isSome = true →
        (t.crew k).halted = true ∧ Crew.SameRegs (s.crew k) (t.crew k)

/-- ILLEGAL_INSTRUCTION: a rejected word takes the fault of the first check that fails, with no other effect; in a privileged
agent it is a machine check of its core (spec/01 R22). -/
def Obligations.RejectedWordFaults : Prop :=
  ∀ (why : Reject) (s : State) (key : Nat), Issues (.illegalInstruction why) s key → NoRegionLoad s key →
    let r : Report := match why with
      | .align a => { cause := 0x04, addr := a }
      | .fetch cause sub addr d1 => { cause := cause, sub := sub, addr := addr, d1 := d1, need := .exec }
      | .illegal cause => { cause := 0x01, sub := cause }
      | .privilege => { cause := 0x02 }
      | .role => { cause := 0x03 }
    ((s.crew key).role.isSome = true → Traps (.illegalInstruction why) s key r) ∧
    ((s.crew key).role = none → exec (.illegalInstruction why) s = .next (s.agentCheck key r) ∧
      ((s.agentCheck key r).crew key).report = some { r with cause := 0x1F, sub := 3, pc := (s.crew key).pc })

/-- A user crew that issues an instruction of MAJ 0xC0 to 0xC3 takes a privilege fault; one whose Roles column does not
include its role takes a role fault; an agent that issues what it may not raises a machine check of its core (spec/01 R21,
R22). While an armed operation may still trap, or a load of the region may still fault, the fault waits for it (spec/09 R177,
spec/13 R228). -/
def Obligations.RoleChecked : Prop :=
  ∀ (i : Instr) (s : State) (key : Nat), s.cur = some key →
    ((s.crew key).armedHold = true → (∃ r, (s.crew key).role = some r) → i.roles = Roles.privOnly →
      exec i s = .next (s.stalled key .armed)) ∧
    ((s.crew key).armedHold = false → (s.crew key).walking = true → (∃ r, (s.crew key).role = some r) →
      i.roles = Roles.privOnly → exec i s = .next (s.stalled key .region)) ∧
    ((s.crew key).armedHold = false → NoRegionLoad s key →
    ((∃ r, (s.crew key).role = some r) → i.roles = Roles.privOnly → exec i s = .next (s.takeFault key { cause := 0x02 })) ∧
    (∀ r, (s.crew key).role = some r → i.ctl?.isSome = true → i.roles ≠ Roles.privOnly →
      (match r with | .copy => i.roles.copy | .tile => i.roles.tile | .vec => i.roles.vec) = false →
      exec i s = .next (s.takeFault key { cause := 0x03 })) ∧
    ((s.crew key).role = none → i.ctl?.isSome = true → i.roles.priv = false →
      exec i s = .next (s.agentCheck key { cause := 0x03 })))

/-! ## Results in registers -/

/-- Integer arithmetic writes the results of Table 4-1 and R65 and nothing else (spec/04 R62-R65). -/
def Obligations.IntegerResults : Prop :=
  ∀ (i : Instr) (q : LaneResult), intResult i = some q → i.WellFormed → ∀ (s : State) (key : Nat), Issues i s key →
    Computes i q.f q.wide q.d s key (s.crew key) (q.val s key (s.crew key))

/-- Logic, shift and bit-field instructions write the results of R66 to R70 and nothing else. -/
def Obligations.BitResults : Prop :=
  ∀ (i : Instr) (q : LaneResult), bitResult i = some q → i.WellFormed → ∀ (s : State) (key : Nat), Issues i s key →
    Computes i q.f q.wide q.d s key (s.crew key) (q.val s key (s.crew key))

/-- Comparison, predicate, selection, lane-exchange and move instructions, the reads of special registers, of %FMT and of
pedigree words, FCMP and FCLASS write the results of their rules and nothing else (spec/04 R71-R81, spec/07 R134, R135,
R141, spec/08 R148; the offset of SHFL is read unsigned, log 81). -/
def Obligations.MoveResults : Prop :=
  ∀ (i : Instr) (q : LaneResult), moveResult i = some q → i.WellFormed → ∀ (s : State) (key : Nat), Issues i s key →
    Computes i q.f q.wide q.d s key (s.crew key) (q.val s key (s.crew key))

/-- Floating-point, packed, dot-product and conversion instructions, with the non-finite traps off or ignored, write the
exact result rounded once and nothing else; a stochastic result consumes one random index, and in an s register takes
random bits that follow from %SEED, %PEDDIG and %DIX and that the model leaves free (spec/07 R130-R139; the free bits are the
model's choice, log 10; so are the half of the random word that each half of CVT.pk takes, log 6, and that an exact conversion
consumes a block, which NaN DOT4 gives, and a predicate's value as a source, log 64). -/
def Obligations.FloatResults : Prop :=
  ∀ (i : Instr) (q : FloatResult), floatResult i = some q → i.WellFormed → ∀ (s : State) (key : Nat), Issues i s key →
    ((s.crew key).ignoreTraps = true ∨ (fmtNTE (s.crew key).fmt = false ∧ fmtITE (s.crew key).fmt = false)) →
    let draws := q.draws (s.crew key).fmt
    Computes i q.f false q.d s key (if draws then (s.crew key).stepDix else s.crew key) 
      fun l => BitVec.ofNat 64 (q.val s key (s.crew key) l (randomWord draws q.d (s.crew key) l))

/-- The non-finite traps of floating-point, packed, dot-product and conversion instructions: when %FMT arms the NaN trap and some
effective lane produces a NaN from sources that are none, the crew takes the numeric trap of kind NaN that names the lowest such
lane; when no lane does so, %FMT arms the infinity trap and some effective lane produces an infinity from sources that are none, it
takes the trap of kind infinity that names the lowest such lane; nothing is written (spec/07 R131, R137; each half of CVT.pk is
judged by the lane's two sources, log 64). -/
def Obligations.FloatNanTrap : Prop :=
  ∀ (i : Instr) (q : FloatResult) (s : State) (key l : Nat), floatResult i = some q → i.WellFormed →
    Issues i s key → NoRegionLoad s key → (s.crew key).ignoreTraps = false →
    let c := s.crew key
    let word (l : Nat) : Nat := randomWord (q.draws c.fmt) q.d c l
    let nan (l : Nat) : Bool := fmtNTE c.fmt && meets (trapParts i q) FFmt.isNanBits Num.isNan s key c l (word l)
    let inf (l : Nat) : Bool := fmtITE c.fmt && meets (trapParts i q) FFmt.isInfBits Num.isInf s key c l (word l)
    l ∈ c.effLanes q.f →
    (nan l = true → (∀ k ∈ c.effLanes q.f, k < l → nan k = false) →
      ∃ r : Report, r.cause = 0x13 ∧ r.sub = 0 ∧ r.d1 = BitVec.ofNat 32 l ∧ Traps i s key r) ∧
    ((∀ k ∈ c.effLanes q.f, nan k = false) → inf l = true → (∀ k ∈ c.effLanes q.f, k < l → inf k = false) →
      ∃ r : Report, r.cause = 0x13 ∧ r.sub = 1 ∧ r.d1 = BitVec.ofNat 32 l ∧ Traps i s key r)

/-- WRSP sets %DIX from A[39:0], and with `.clr` clears the index-wrap flag; FMTSET sets %FMT; neither changes a register
(spec/04 R82, spec/07 R140). With no effective lane they change nothing. -/
def Obligations.CrewRegisterWrites : Prop :=
  (∀ f a clr s key, Issues (.wrsp f a clr) s key → (s.crew key).eff f ≠ 0 →
    Runs (.wrsp f a clr) s key (let s0 := s.entered key f; s0.setCrew key
      { s0.crew key with dix := (s0.operand key (s0.crew key) true a 0).extractLsb' 0 40, wrapped := (s0.crew key).wrapped && !clr })) ∧
  (∀ f imm s key, Issues (.fmtset f imm) s key → (s.crew key).eff f ≠ 0 →
    Runs (.fmtset f imm) s key (let s0 := s.entered key f; s0.setCrew key { s0.crew key with fmt := imm })) ∧
  (∀ f a clr s key, Issues (.wrsp f a clr) s key → (s.crew key).eff f = 0 → Runs (.wrsp f a clr) s key (s.entered key f)) ∧
  (∀ f imm s key, Issues (.fmtset f imm) s key → (s.crew key).eff f = 0 → Runs (.fmtset f imm) s key (s.entered key f))

/-- RNGU and RNGN write words of the lane's random block at index %DIX, or the uniform or Gaussian value that they give, and
advance %DIX by one, with its sticky wrap flag (spec/07 R142, spec/03 R57, R58). -/
def Obligations.RandomResults : Prop :=
  (∀ f r out s key, Issues (.rngu f (.v r) out) s key → r.toNat + out.regs ≤ 192 →
    ∃ t, exec (.rngu f (.v r) out) s = .next t ∧ Quiet s t key ∧ (t.crew key).pc = (s.crew key).pc + 12 ∧
      Crew.Keeps (s.crew key).stepDix (t.crew key) ∧
      (∀ l ∈ (s.crew key).effLanes f, ∀ j, j < out.regs → (t.crew key).v (r.toNat + j) l =
        BitVec.ofNat 32 (if out = .f32 then fp32.round {} (.fin false (((s.crew key).block l).w0 / 256) (-24))
          else ((s.crew key).block l).words.getD j 0)) ∧
      (∀ q l, l < 1024 → ¬(l ∈ (s.crew key).effLanes f ∧ r.toNat ≤ q ∧ q < r.toNat + out.regs) →
        (t.crew key).v q l = (s.crew key).v q l) ∧
      (t.crew key).sregs = (s.crew key).sregs ∧ (t.crew key).preds = (s.crew key).preds) ∧
  (∀ f r s key, Issues (.rngn f (.v r)) s key →
    Computes (.rngn f (.v r)) f false (.v r) s key (s.crew key).stepDix
      fun l => BitVec.ofNat 64 (gaussian ((s.crew key).block l)))

/-! ## Control flow -/

/-- BRA: with no effective lane the crew goes on; with every active lane it goes to PC + 12 x OFS; otherwise the crew
diverges, the fall-through lanes first and the others pending with %FMT, or the control stack overflows at 32 entries
(spec/01 R11, spec/04 R84, R86, R88). CALL writes PC + 12 into its pair in the effective lanes, and then branches as BRA does; when
its stack overflows it writes nothing (R88). -/
def Obligations.Branch : Prop :=
  (∀ (f : Ctl) (ofs : BitVec 20) (s : State) (key : Nat), Issues (.bra f ofs) s key →
    let s0 := s.entered key f
    let c := s0.crew key
    let e := c.eff f
    let tgt := c.pc + 12 * ofs.signExtend 64
    (e = 0 → Runs (.bra f ofs) s key s0) ∧
    (e ≠ 0 → e = c.active → Moves (.bra f ofs) s key (s0.setCrew key { c with pc := tgt })) ∧
    (e ≠ 0 → e ≠ c.active → c.stack.length < 32 → Moves (.bra f ofs) s key (s0.setCrew key
      { c with pc := c.pc + 12, mask := c.active &&& ~~~e, stack := .pending tgt e c.fmt :: markJoin c.fmt c.stack })) ∧
    (e ≠ 0 → e ≠ c.active → 32 ≤ c.stack.length → NoRegionLoad s key → Traps (.bra f ofs) s key { cause := 0x10, sub := 0 })) ∧
  (∀ (f : Ctl) (d : Operand) (ofs : BitVec 20) (s : State) (key : Nat), Issues (.call f d ofs) s key →
    let s0 := s.entered key f
    let c := s0.crew key
    let e := c.eff f
    let tgt := c.pc + 12 * ofs.signExtend 64
    let linked := c.writeDst true d (c.effLanes f) fun _ => c.pc + 12
    (e = 0 → Runs (.call f d ofs) s key s0) ∧
    (e ≠ 0 → e = c.active → Moves (.call f d ofs) s key (s0.setCrew key { linked with pc := tgt })) ∧
    (e ≠ 0 → e ≠ c.active → c.stack.length < 32 → Moves (.call f d ofs) s key (s0.setCrew key
      { linked with pc := c.pc + 12, mask := c.active &&& ~~~e, stack := .pending tgt e c.fmt :: markJoin c.fmt c.stack })) ∧
    (e ≠ 0 → e ≠ c.active → 32 ≤ c.stack.length → NoRegionLoad s key →
      Traps (.call f d ofs) s key { cause := 0x10, sub := 0 }))

/-- The lanes of BRX or RET by target, in rising order; lanes that are active but not effective go to PC + 12. -/
def targetGroups (s : State) (key : Nat) (c : Crew) (f : Ctl) (a : Operand) : List (DWord × Mask) :=
  let groups := (c.effLanes f).foldl (fun g l => addLane g (s.operand key c true a l) (BitVec.shiftLeft 1 l)) []
  if c.active &&& ~~~(c.eff f) = 0 then groups else addLane groups (c.pc + 12) (c.active &&& ~~~(c.eff f))

/-- BRX and RET: when an effective lane's target is not a multiple of 4, the alignment fault names the lowest such lane's
target before any lane moves (that it is the lowest lane's, and comes before an overflow, is the model's choice, log 53); otherwise
the lanes of the lowest target go on and the others are pending in rising order of target, or the control stack overflows; with no
effective lane the crew goes on at PC + 12 (spec/01 R10, R12, spec/04 R86, R89). -/
def Obligations.IndexedBranch : Prop :=
  ∀ (i : Instr) (f : Ctl) (a : Operand), (i = .brx f a ∨ i = .ret f a) → ∀ (s : State) (key : Nat), Issues i s key →
    let s0 := s.entered key f
    let c := s0.crew key
    let bad (l : Nat) : Bool := (s0.operand key c true a l).extractLsb' 0 2 != 0
    (∀ l, (c.effLanes f).find? bad = some l → NoRegionLoad s key →
      ∃ r : Report, r.cause = 0x04 ∧ r.addr = s0.operand key c true a l ∧ Traps i s key r) ∧
    (c.effLanes f = [] → Runs i s key s0) ∧
    (∀ g, c.effLanes f ≠ [] → (c.effLanes f).find? bad = none → targetGroups s0 key c f a = [g] →
      Moves i s key (s0.setCrew key { c with pc := g.1 })) ∧
    (∀ g h rest, (c.effLanes f).find? bad = none → targetGroups s0 key c f a = g :: h :: rest →
      32 < c.stack.length + (h :: rest).length → NoRegionLoad s key → Traps i s key { cause := 0x10, sub := 0 }) ∧
    (∀ g h rest, (c.effLanes f).find? bad = none → targetGroups s0 key c f a = g :: h :: rest →
      c.stack.length + (h :: rest).length ≤ 32 → Moves i s key (s0.setCrew key
        { c with pc := g.1, mask := g.2,
                 stack := ((h :: rest).map fun x => .pending x.1 x.2 c.fmt) ++ markJoin c.fmt c.stack }))

/-- EXIT ends its effective lanes: the others go on at PC + 12; when none is left, the crew ends once its counters are zero
(spec/04 R91). RECONV pushes a join at its target (R85). BRK and CONT remove their lanes from the entries above the join at
their target and wait there, and fault when there is none (R90). YIELD with an effective lane ends the run as YL does (R92,
spec/01 R12), NOP does nothing, TRAP takes the
software trap with IMM when a lane is effective (R93). -/
def Obligations.Control : Prop :=
  (∀ f s key, Issues (.exit f) s key →
    let s0 := s.entered key f
    let c := s0.crew key
    (c.eff f = 0 → Runs (.exit f) s key s0) ∧
    (c.eff f ≠ 0 → c.live &&& ~~~(c.eff f) ≠ 0 →
      Moves (.exit f) s key (s0.setCrew key { c with live := c.live &&& ~~~(c.eff f), pc := c.pc + 12 })) ∧
    (c.eff f ≠ 0 → c.live &&& ~~~(c.eff f) = 0 → Moves (.exit f) s key ((s0.setCrew key { c with live := 0 }).crewEnd key))) ∧
  (∀ f ofs s key, Issues (.reconv f ofs) s key →
    let s0 := s.entered key f
    let c := s0.crew key
    (c.eff f ≠ 0 → c.stack.length < 32 → Runs (.reconv f ofs) s key (s0.setCrew key
      { c with stack := .join (c.pc + 12 * ofs.signExtend 64) c.active false 0 :: c.stack })) ∧
    (c.eff f ≠ 0 → 32 ≤ c.stack.length → NoRegionLoad s key → Traps (.reconv f ofs) s key { cause := 0x10, sub := 0 }) ∧
    (c.eff f = 0 → Runs (.reconv f ofs) s key s0)) ∧
  (∀ i f ofs, (i = .brk f ofs ∨ i = .cont f ofs) → ∀ s key, Issues i s key →
    let s0 := s.entered key f
    let c := s0.crew key
    (∀ st, removeAbove (c.pc + 12 * ofs.signExtend 64) (c.eff f) c.stack = some st → c.eff f ≠ 0 →
      Moves i s key (s0.setCrew key { c with stack := st, mask := c.mask &&& ~~~(c.eff f), pc := c.pc + 12 })) ∧
    (∀ st, removeAbove (c.pc + 12 * ofs.signExtend 64) (c.eff f) c.stack = some st → c.eff f = 0 → Runs i s key s0) ∧
    (removeAbove (c.pc + 12 * ofs.signExtend 64) (c.eff f) c.stack = none → NoRegionLoad s key →
      Traps i s key { cause := 0x10, sub := 1 })) ∧
  (∀ f s key, Issues (.yield f) s key →
    let s0 := s.entered key f
    ((s.crew key).eff f ≠ 0 →
      Moves (.yield f) s key (s0.setCrew key { s0.crew key with pc := (s0.crew key).pc + 12, yields := true })) ∧
    ((s.crew key).eff f = 0 → Runs (.yield f) s key s0)) ∧
  (∀ f s key, Issues (.nop f) s key → Runs (.nop f) s key (s.entered key f)) ∧
  (∀ f imm s key, Issues (.trap f imm) s key → (s.crew key).effLanes f ≠ [] → NoRegionLoad s key →
    ∃ r : Report, r.cause = 0x11 ∧ r.d1 = imm ∧ Traps (.trap f imm) s key r) ∧
  (∀ f imm s key, Issues (.trap f imm) s key → (s.crew key).effLanes f = [] → Runs (.trap f imm) s key (s.entered key f))

/-- A crew whose lanes have all left ends when its counters are zero and no fault is deferred: it counts as ended, and its
pending link arrives at its barrier object: PENDING falls by the count, or, when the count is all of it, the phase turns and PENDING is
EXPECT again; no other barrier object of the party changes (spec/04 R91, spec/08 R157, spec/09 R172). -/
def Obligations.CrewEnds : Prop :=
  ∀ (s : State) (key : Nat), (Tbl.get? s.crews key).isSome = true → (s.crew key).role.isSome = true → (s.crew key).live = 0 →
    (s.crew key).report = none → (s.crew key).deferred = [] → (s.crew key).poison = [] → (s.crew key).loads = [] →
    (s.crew key).stores = [] → (s.crew key).cops = [] → (s.crew key).tops = [] → (s.crew key).ended = false →
    (∀ id n, (s.crew key).tlink = some (id, n) → ∃ b, Tbl.get? (s.party (s.crew key).party).bars id = some b ∧ n ≤ b.pending) →
    let bars := (s.party (s.crew key).party).bars
    let bars' := ((s.crewEnd key).party (s.crew key).party).bars
    ((s.crewEnd key).crew key).ended = true ∧ ((s.crewEnd key).crew key).tlink = none ∧
      (∀ id n b, (s.crew key).tlink = some (id, n) → Tbl.get? bars id = some b → Tbl.get? bars' id = some
        (if n = b.pending then { b with pending := b.expect, phase := !b.phase } else { b with pending := b.pending - n })) ∧
      (∀ j, (∀ n, (s.crew key).tlink ≠ some (j, n)) → Tbl.get? bars' j = Tbl.get? bars j) ∧
      ((s.crewEnd key).crew key).vregs = (s.crew key).vregs ∧ (s.crewEnd key).mem = s.mem

/-! ## Loads and stores -/

/-- A counter that is not at its limit of 63 (spec/05 R113). -/
abbrev Room {α : Type} (l : List α) : Prop := l.length < 63

/-- The addresses of a global access: A plus the sign-extended offset in each lane (spec/05 R97). -/
def globalAddrs (s : State) (key : Nat) (c : Crew) (a : Operand) (ofs : BitVec 20) (lanes : List Nat) : List (Nat × DWord) :=
  lanes.map fun l => (l, s.operand key c true a l + ofs.signExtend 64)
/-- The offsets of a local access: A plus the sign-extended offset, modulo 2^32 (spec/05 R101). -/
def localAddrs (s : State) (key : Nat) (c : Crew) (a : Operand) (ofs : BitVec 20) (lanes : List Nat) : List (Nat × Nat) :=
  lanes.map fun l => (l, (s.operand key c false a l + ofs.signExtend 64).toNat % 2 ^ 32)

/-- LD whose lanes translate, and reach no relocking die, is counted in L, with the values that its lines hold for the core now (that
the value is taken at issue is the model's choice, log 9); inside a region one whose walk still runs is counted with what it asks for
(spec/13 R228). LDS and LDW take their bytes from a scratchpad or the weight store, LDR its words from the register window; an
uncorrectable word that one meets goes with it (R115). A uniform destination makes one access (log 26). The crew goes on at PC + 12
(spec/05 R97, R98, R101-R103, R113). -/
def Obligations.Loads : Prop :=
  (∀ f d a ofs ty acq sc fr hv hd s key lanes t, Issues (.ld f d a ofs ty acq sc fr hv hd) s key →
    let s0 := s.entered key f
    let c := s0.crew key
    Room c.loads →
    s0.access key .read (MemTy.bytes ty) (globalAddrs s0 key c a ofs (accessLanes d (c.effLanes f))) = .ok lanes t →
    c.atService (LaneAcc.ranges lanes (MemTy.bytes ty)) = false →
    (∀ a ∈ lanes, t.readHeld (coreOf key) a.attr (fr || acq) (if hv then some hd else none) a.pa = none) →
    let x := t.load key ty (fr || acq) (if hv then some hd else none) d lanes
    Runs (.ld f d a ofs ty acq sc fr hv hd) s key (x.2.2.modCrew key fun c => c.addLoad
      { id := 0, pc := c.pc, dsts := [d], wide := ty.regs, writes := x.1, acq := acq, bad := x.2.1,
        ack := lanes.any fun a => x.2.2.foreign a.pa, cut := x.2.2.anyCut lanes, va := x.2.2.foreignVa lanes })) ∧
  (∀ f d a ofs ty acq sc fr hv hd s key t, Issues (.ld f d a ofs ty acq sc fr hv hd) s key →
    let s0 := s.entered key f
    let c := s0.crew key
    let addrs := globalAddrs s0 key c a ofs (accessLanes d (c.effLanes f))
    Room c.loads → c.inRegion = true → s0.access key .read (MemTy.bytes ty) addrs = .walk t →
    Runs (.ld f d a ofs ty acq sc fr hv hd) s key (t.modCrew key fun c => c.addLoad
      { id := 0, pc := c.pc, dsts := [d], wide := ty.regs, acq := acq, region := true,
        req := some { ty := ty, acq := acq, sc := sc, fr := fr || acq, home := if hv then some hd else none, dst := d, addrs := addrs } })) ∧
  (∀ f d a ofs ty peer s key k, Issues (.lds f d a ofs ty peer) s key →
    let s0 := s.entered key f
    let c := s0.crew key
    let at_ := localAddrs s0 key c a ofs (accessLanes d (c.effLanes f))
    Room c.loads → s0.peerAway c peer = false → s0.peerParty c peer = some k →
    (∀ x ∈ at_, x.2 % MemTy.bytes ty = 0 ∧ x.2 + MemTy.bytes ty ≤ (s0.party k).scratchLen) →
    Runs (.lds f d a ofs ty peer) s key (s0.modCrew key fun c => c.addLoad
      { id := 0, pc := c.pc, dsts := [d], wide := ty.regs,
        bad := firstBad (s0.party k).scratchBad (MemTy.bytes ty) (at_.map (·.2)), writes := at_.flatMap fun x => destWrites d ty.regs x.1
          (extendElem ty (fromBytesLE (Memory.readBytes (s0.party k).scratch x.2 (MemTy.bytes ty)))) })) ∧
  (∀ f d a ofs ty s key, Issues (.ldw f d a ofs ty) s key →
    let s0 := s.entered key f
    let c := s0.crew key
    let at_ := localAddrs s0 key c a ofs (accessLanes d (c.effLanes f))
    Room c.loads → (∀ x ∈ at_, x.2 % MemTy.bytes ty = 0 ∧ x.2 + MemTy.bytes ty ≤ (s0.party c.party).weightLen) →
    Runs (.ldw f d a ofs ty) s key (s0.modCrew key fun c => c.addLoad
      { id := 0, pc := c.pc, dsts := [d], wide := ty.regs,
        bad := firstBad (s0.party c.party).weightBad (MemTy.bytes ty) (at_.map (·.2)), writes := at_.flatMap fun x => destWrites d ty.regs x.1
          (extendElem ty (fromBytesLE (Memory.readBytes (s0.party c.party).weight x.2 (MemTy.bytes ty)))) })) ∧
  (∀ f d a ofs s key, Issues (.ldr f d a ofs) s key →
    let s0 := s.entered key f
    let c := s0.crew key
    let at_ := localAddrs s0 key c a ofs (accessLanes d (c.effLanes f))
    Room c.loads → s0.windowHeld key at_ = none →
    (∀ x ∈ at_, x.2 % 4 = 0 ∧ (s0.window (s0.windowCtx c) x.2).isSome = true) →
    Runs (.ldr f d a ofs) s key (s0.modCrew key fun c => c.addLoad
      { id := 0, pc := c.pc, dsts := [d], bad := firstBad s0.badWindow 4 (at_.map (·.2)), writes := at_.flatMap fun x => match s0.window (s0.windowCtx c) x.2 with
          | some r => destWrites d 1 x.1 (s0.windowRead r).toNat
          | none => [] }))

/-- A load's value: an LDS of 32 bits into a v register, alone in L and bound, leaves in each effective lane the word whose
bytes stand in the scratchpad at its offset, least significant first; every other lane and register keeps its value, and
the scratchpad and memory do not change (spec/00 R7, spec/05 R96, R98, R101). -/
def Obligations.LocalLoadValue : Prop :=
  ∀ (f : Ctl) (r : BitVec 8) (a : Operand) (ofs : BitVec 20) (s : State) (key : Nat), Issues (.lds f (.v r) a ofs .b32 none) s key →
    let c := s.crew key
    let at_ := localAddrs s key c a ofs (c.effLanes f)
    c.loads = [] → c.poison = [] → (s.party c.party).scratchBad = [] → (c.role.isSome → c.live ≠ 0) → s.relocking (dieOfCore (coreOf key)) = false →
    (∀ x ∈ at_, x.2 % 4 = 0 ∧ x.2 + 4 ≤ (s.party c.party).scratchLen) →
    ∃ t u, exec (.lds f (.v r) a ofs .b32 none) s = .next t ∧ exec (.loadBind key 0) t = .next u ∧
      (∀ x ∈ at_, (u.crew key).v r.toNat x.1 =
        BitVec.ofNat 32 (fromBytesLE (Memory.readBytes (s.party c.party).scratch x.2 4))) ∧
      (∀ q l, l < 1024 → ¬(q = r.toNat ∧ l ∈ c.effLanes f) → (u.crew key).v q l = c.v q l) ∧
      (u.crew key).sregs = c.sregs ∧ (u.crew key).loads = [] ∧ u.mem = s.mem ∧
      (u.party c.party).scratch = (s.party c.party).scratch

/-- ST whose lanes translate, reach no relocking die and pass the race filter is charged, stored in ascending lane order and
counted in S; with `.rel` its release comes first, and it waits while the release does (R100). STS writes the bytes of its lanes into
a scratchpad, STR its words through the register window, and what they write
is whole again (spec/05 R97-R101, R103, R115, spec/15 R264, spec/16 R269; which bytes are charged is the model's choice, log 43). -/
def Obligations.Stores : Prop :=
  (∀ f a b ofs ty rel sc s key lanes s1 t u, Issues (.st f a b ofs ty rel sc) s key →
    let s0 := s.entered key f
    let c := s0.crew key
    let addrs := globalAddrs s0 key c a ofs (c.effLanes f)
    Room c.stores → c.behindLoad (StTy.bytes ty) (addrs.map (·.2)) = false →
    (rel = false ∧ s1 = s0 ∨ rel = true ∧ s0.fence key .rel sc = .pass s1) →
    (addrs = [] ∨ c.role = none ∨ ∃ x ∈ addrs, isViewAddr x.2.toNat = false) →
    s1.access key .write (StTy.bytes ty) addrs = .ok lanes t → c.atService (LaneAcc.ranges lanes (StTy.bytes ty)) = false →
    (∀ a ∈ lanes, t.storeHeld (coreOf key) a.attr sc a.pa c.role.isSome = none) →
    (c.role = none ∧ u = t ∨ c.role.isSome = true ∧
      t.checkStore (t.task (t.party c.party).task).launch (t.party c.party).task c.task c.ped
        (t.sectors (StTy.bytes ty) lanes) = .ok u) →
    let v := u.charge key 3 (u.storeBytes (coreOf key) sc (StTy.bytes ty) lanes)
    let x := v.storeLanes (coreOf key) sc (StTy.bytes ty) (fun l => s0.storeElem key c b ty l) lanes
    Runs (.st f a b ofs ty rel sc) s key (x.1.modCrew key fun c =>
      { c with ct := max c.ct x.2.1 }.addStore
        { id := 0, pc := c.pc, ct := x.2.2.1, ack := x.2.2.2, cut := x.1.anyCut lanes, va := x.1.foreignVa lanes })) ∧
  (∀ f a b ofs ty sc s key t, Issues (.st f a b ofs ty true sc) s key →
    let s0 := s.entered key f
    let c := s0.crew key
    Room c.stores → c.behindLoad (StTy.bytes ty) ((globalAddrs s0 key c a ofs (c.effLanes f)).map (·.2)) = false →
    s0.fence key .rel sc = .wait t →
    exec (.st f a b ofs ty true sc) s = .next ((t.modCrew key fun x => x.notEntered (s.crew key)).stalled key .fence)) ∧
  (∀ f a b ofs ty peer s key k, Issues (.sts f a b ofs ty peer) s key →
    let s0 := s.entered key f
    let c := s0.crew key
    let at_ := localAddrs s0 key c a ofs (c.effLanes f)
    Room c.stores → s0.peerAway c peer = false → s0.peerParty c peer = some k →
    (∀ x ∈ at_, x.2 % StTy.bytes ty = 0 ∧ x.2 + StTy.bytes ty ≤ (s0.party k).scratchLen) →
    Runs (.sts f a b ofs ty peer) s key ((at_.foldl (fun t x => t.modParty k fun p =>
      { p with scratch := Memory.writeBytes p.scratch x.2 (toBytesLE (StTy.bytes ty) (s0.storeElem key c b ty x.1))
               scratchBad := p.scratchBad.filter fun a => !(x.2 ≤ a && a < x.2 + StTy.bytes ty) }) s0).modCrew
        key fun c => c.addStore { id := 0, pc := c.pc })) ∧
  (∀ f a b ofs s key, Issues (.str f a b ofs) s key →
    let s0 := s.entered key f
    let c := s0.crew key
    let at_ := localAddrs s0 key c a ofs (c.effLanes f)
    Room c.stores → s0.windowHeld key at_ = none →
    (∀ x ∈ at_, x.2 % 4 = 0 ∧ (s0.window (s0.windowCtx c) x.2).isSome = true) →
    let s1 := { s0 with badWindow := s0.badWindow.filter fun a => !(at_.any fun x => x.2 ≤ a && a < x.2 + 4) }
    Runs (.str f a b ofs) s key ((at_.foldl (fun t x => match s0.window (s0.windowCtx c) x.2 with
      | some r => t.windowWrite r ((s0.operand key c false b x.1).extractLsb' 0 32)
      | none => t) s1).modCrew key fun c => c.addStore { id := 0, pc := c.pc }))

/-- A store to a line whose home is the core's own die, and one to an unleased line, is in memory at once: its bytes read
back, every byte outside them is as before, and the core's L1 no longer holds the line (spec/05 R99, spec/12 R206, R208). -/
def Obligations.StoreAtHome : Prop :=
  ∀ (s : State) (core : Nat) (a : Attr) (sc : Scope) (pa : Nat) (bs : List Byte), Memory.wf s.mem = true →
    (a.die pa = dieOfCore core ∨ a.lc = 0) →
    let t := (s.storeLine core a sc pa bs).1
    t.mem.readBytes pa bs.length = bs ∧ (∀ x, x < pa ∨ pa + bs.length ≤ x → t.mem.read x = s.mem.read x) ∧
      Tbl.get? (t.core core).l1 (lineOf pa) = none ∧ t.crews = s.crews ∧ t.parties = s.parties

/-- The state in which the request of an instruction is made: a release, when it has one, has passed first (spec/05 R100). -/
def Released (s : State) (key : Nat) (rel : Bool) (sc : Scope) (t : State) : Prop :=
  rel = false ∧ t = s ∨ rel = true ∧ s.fence key .rel sc = .pass t

/-- Of the addresses of a global access, that of lane `l` is the lowest lane's at fault: it has bits [63:56] set or is no multiple of
the element's size, those of the lanes before it are sound, none is a view address, and every sound one translates. -/
def FaultyLane (s : State) (key : Nat) (need : Need) (n : Nat) (addrs : List (Nat × DWord)) (l : Nat) (va : DWord) : Prop :=
  (2 ^ 56 ≤ va.toNat ∨ va.toNat % n ≠ 0) ∧
  (∀ x ∈ addrs, s.viewAccess key x.2.toNat = none ∧
    (2 ^ 56 ≤ x.2.toNat ∨ x.2.toNat % n ≠ 0 ∨ ∃ pa a, s.translate key need x.2.toNat = (.ok pa a, s))) ∧
  ∃ low high, addrs = low ++ (l, va) :: high ∧ ∀ x ∈ low, x.2.toNat < 2 ^ 56 ∧ x.2.toNat % n = 0

/-- The report of such a lane: the address fault, or the alignment fault, with the address and the lane. -/
def AddressReport (va : DWord) (l : Nat) (r : Report) : Prop :=
  r.cause = (if 2 ^ 56 ≤ va.toNat then 0x06 else 0x07) ∧ r.addr = va ∧ r.d2 = BitVec.ofNat 32 l

/-- The report of a lane of a local access: the offset that is not aligned, or `cause` for one that is. -/
def OffsetReport (n : Nat) (cause : BitVec 8) (x : Nat × Nat) (r : Report) : Prop :=
  r.cause = (if x.2 % n ≠ 0 then 0x07 else cause) ∧ r.addr = BitVec.ofNat 64 x.2 ∧ r.d2 = BitVec.ofNat 32 x.1

/-- An access is judged before anything happens, and the lowest lane at fault is reported: the instruction takes its fault and has no
other effect (spec/05 R115, Table 5-8). A global address of LD, ST, ATOM, RED, FRED or CFLUSH with bits [63:56] set gives the address
fault, and one that is no multiple of the element's size the alignment fault. An offset of LDS, STS, LDW or ATOMS gives the alignment
fault, or the bound fault when its bytes do not lie in the allotment; a peer beyond the convoy gives the peer fault, in no lane none; an
address of LDR or STR gives the alignment fault, or the window fault when it names no allotted unit. A view address is judged as an access
to a view is (spec/08 R153). -/
def Obligations.AddressFaults : Prop :=
  (∀ (n : Nat) (va : DWord),
    (2 ^ 56 ≤ va.toNat → addressFault n va = some { cause := 0x06, addr := va }) ∧
    (va.toNat < 2 ^ 56 → va.toNat % n ≠ 0 → addressFault n va = some { cause := 0x07, addr := va }) ∧
    (va.toNat < 2 ^ 56 → va.toNat % n = 0 → addressFault n va = none)) ∧
  (∀ s key need n addrs l va, FaultyLane s key need n addrs l va →
    ∃ r, AddressReport va l r ∧ s.access key need n addrs = .fault r) ∧
  (∀ f d a ofs ty acq sc fr hv hd s key l va, Issues (.ld f d a ofs ty acq sc fr hv hd) s key → NoRegionLoad s key →
    let s0 := s.entered key f
    let c := s0.crew key
    Room c.loads → FaultyLane s0 key .read (MemTy.bytes ty) (globalAddrs s0 key c a ofs (accessLanes d (c.effLanes f))) l va →
    ∃ r, AddressReport va l r ∧ Traps (.ld f d a ofs ty acq sc fr hv hd) s key r) ∧
  (∀ f a b ofs ty rel sc s key s1 l va, Issues (.st f a b ofs ty rel sc) s key → NoRegionLoad s key →
    let s0 := s.entered key f
    let c := s0.crew key
    let addrs := globalAddrs s0 key c a ofs (c.effLanes f)
    Room c.stores → c.behindLoad (StTy.bytes ty) (addrs.map (·.2)) = false → Released s0 key rel sc s1 →
    FaultyLane s1 key .write (StTy.bytes ty) addrs l va →
    ∃ r, AddressReport va l r ∧ Traps (.st f a b ofs ty rel sc) s key r) ∧
  (∀ i f a d sc rel store lanes n s key s1 l va, Issues i s key → NoRegionLoad s key →
    let s0 := s.entered key f
    let c := s0.crew key
    ((∃ b op sem sz u, i = .atom f d a b op sem sc sz u ∧ rel = (sem = .rel || sem = .ar) ∧ store = false ∧
        lanes = accessLanes d (c.effLanes f) ∧ n = if sz then 8 else 4) ∨
      (∃ b op sz u, i = .red f a b op rel sc sz u ∧ store = true ∧ lanes = c.effLanes f ∧ n = if sz then 8 else 4) ∨
      (∃ b ft op fz cn sat, i = .fred f a b ft op fz cn sat rel sc ∧ store = true ∧ lanes = c.effLanes f ∧ n = 4)) →
    (if store then Room c.stores else Room c.loads) → Released s0 key rel sc s1 →
    let addrs := lanes.map fun l => (l, s1.operand key c true a l)
    (s1.crew key).behindLoad n (addrs.map (·.2)) = false → FaultyLane s1 key .both n addrs l va →
    ∃ r, AddressReport va l r ∧ Traps i s key r) ∧
  (∀ f a ofs sc inv s key l va, Issues (.cflush f a ofs sc inv) s key → NoRegionLoad s key →
    let s0 := s.entered key f
    let c := s0.crew key
    Room c.stores → FaultyLane s0 key .write 1 (globalAddrs s0 key c a ofs (c.effLanes f)) l va →
    ∃ r, AddressReport va l r ∧ Traps (.cflush f a ofs sc inv) s key r) ∧
  (∀ i f a ofs lanes store n peer s key, Issues i s key → NoRegionLoad s key →
    let s0 := s.entered key f
    let c := s0.crew key
    ((∃ d ty, i = .lds f d a ofs ty peer ∧ store = false ∧ lanes = accessLanes d (c.effLanes f) ∧ n = MemTy.bytes ty) ∨
      (∃ b ty, i = .sts f a b ofs ty peer ∧ store = true ∧ lanes = c.effLanes f ∧ n = StTy.bytes ty) ∨
      (∃ d b op sz u, i = .atoms f d a b op peer sz u ∧ ofs = 0 ∧ store = false ∧ lanes = accessLanes d (c.effLanes f) ∧
        n = if sz then 8 else 4)) →
    (if store then Room c.stores else Room c.loads) → s0.peerAway c peer = false →
    (∀ k low x high, s0.peerParty c peer = some k → localAddrs s0 key c a ofs lanes = low ++ x :: high →
      (∀ y ∈ low, y.2 % n = 0 ∧ y.2 + n ≤ (s0.party k).scratchLen) → (x.2 % n ≠ 0 ∨ (s0.party k).scratchLen < x.2 + n) →
      ∃ r, OffsetReport n 0x08 x r ∧ Traps i s key r) ∧
    (∀ x rest, s0.peerParty c peer = none → localAddrs s0 key c a ofs lanes = x :: rest →
      ∃ r : Report, r.cause = 0x0A ∧ r.addr = BitVec.ofNat 64 x.2 ∧ r.d2 = BitVec.ofNat 32 x.1 ∧ Traps i s key r) ∧
    (s0.peerParty c peer = none → lanes = [] → ∃ m : MemPend, m.writes = [] ∧
      Runs i s key (s0.modCrew key fun c => if store then c.addStore m else c.addLoad m))) ∧
  (∀ f d a ofs ty s key low x high, Issues (.ldw f d a ofs ty) s key → NoRegionLoad s key →
    let s0 := s.entered key f
    let c := s0.crew key
    let len := (s0.party c.party).weightLen
    Room c.loads → localAddrs s0 key c a ofs (accessLanes d (c.effLanes f)) = low ++ x :: high →
    (∀ y ∈ low, y.2 % MemTy.bytes ty = 0 ∧ y.2 + MemTy.bytes ty ≤ len) →
    (x.2 % MemTy.bytes ty ≠ 0 ∨ len < x.2 + MemTy.bytes ty) →
    ∃ r, OffsetReport (MemTy.bytes ty) 0x09 x r ∧ Traps (.ldw f d a ofs ty) s key r) ∧
  (∀ i f a ofs lanes store s key low x high, Issues i s key → NoRegionLoad s key →
    let s0 := s.entered key f
    let c := s0.crew key
    let at_ := localAddrs s0 key c a ofs lanes
    ((∃ d, i = .ldr f d a ofs ∧ store = false ∧ lanes = accessLanes d (c.effLanes f)) ∨
      (∃ b, i = .str f a b ofs ∧ store = true ∧ lanes = c.effLanes f)) →
    (if store then Room c.stores else Room c.loads) → s0.windowHeld key at_ = none → at_ = low ++ x :: high →
    (∀ y ∈ low, y.2 % 4 = 0 ∧ (s0.window (s0.windowCtx c) y.2).isSome = true) →
    (x.2 % 4 ≠ 0 ∨ s0.window (s0.windowCtx c) x.2 = none) →
    ∃ r, OffsetReport 4 0x0B x r ∧ Traps i s key r)

/-- PREF, IINV and WAITC complete. PREF changes no register, counts nothing and writes nothing, and memory stays as it is while
the die's L2 has room (spec/05 R104). IINV with an effective lane empties the instruction caches that its scope covers, none of
which is on a die that relocks or whose link retrains (R107, spec/18 R287, spec/27 R365), and with none does nothing. WAITC goes on
when each counter that it names is low enough and no fault is deferred, or when no lane is effective; a deferred fault that it
covers is raised at it, with DF set, and is no longer deferred (R112, R114, R115, spec/01 R12). -/
def Obligations.HintsAndWaits : Prop :=
  (∀ f a ofs l1 s key, Issues (.pref f a ofs l1) s key → ∃ t, exec (.pref f a ofs l1) s = .next t ∧
    (t.crew key).pc = (s.crew key).pc + 12 ∧ Crew.SameRegs (s.crew key) (t.crew key) ∧ (t.crew key).loads = (s.crew key).loads ∧
    (t.crew key).stores = (s.crew key).stores ∧ t.parties = s.parties ∧
    ((s.die (dieOfCore (coreOf key))).l2.length + 1024 ≤ 786432 → t.mem = s.mem)) ∧
  (∀ f sc s key, Issues (.iinv f sc) s key → let s0 := s.entered key f
    ((s.crew key).eff f = 0 → Runs (.iinv f sc) s key s0) ∧
    ((s.crew key).eff f ≠ 0 → (sc = .pkg → ∀ d, d < 4 → s.wayHeld (coreOf key) d = none) →
      Runs (.iinv f sc) s key { s0 with cores := s0.cores.map fun x =>
        if (match sc with | .core => decide (x.1 = coreOf key) | .die => decide (x.1 / 16 = coreOf key / 16) | .pkg => true) then
          (x.1, { x.2 with icache := [] }) else x })) ∧
  (∀ f l st cc t s key, Issues (.waitc f l st cc t) s key →
    let c := s.crew key
    (c.eff f = 0 → Runs (.waitc f l st cc t) s key (s.entered key f)) ∧
    ((l = 63 ∨ c.loads.length ≤ l.toNat) → (st = 63 ∨ c.stores.length ≤ st.toNat) → (cc = 63 ∨ c.cops.length ≤ cc.toNat) →
      (t = 63 ∨ c.tops.length ≤ t.toNat) → c.deferred = [] → c.poison = [] →
      Runs (.waitc f l st cc t) s key (s.entered key f)) ∧
    (∀ r c', c.eff f ≠ 0 → (l = 63 ∨ c.loads.length ≤ l.toNat) → (st = 63 ∨ c.stores.length ≤ st.toNat) →
      (cc = 63 ∨ c.cops.length ≤ cc.toNat) → (t = 63 ∨ c.tops.length ≤ t.toNat) → NoRegionLoad s key →
      ((s.entered key f).crew key).takeDeferred (l ≠ 63) (st ≠ 63) (cc ≠ 63) (t ≠ 63) = some (r, c') →
      exec (.waitc f l st cc t) s = .next (((s.entered key f).setCrew key c').takeFault key { r with df := true })))

/-- FENCE completes when the crew's loads are bound and its stores performed at the die: a release at pkg or sys scope first sends
the core's dirty bytes to homes that neither relock nor lie behind a retraining link, and Meridian has then passed the crew's completion time, and at sys scope every
store to another package is acknowledged; an acquire empties the core's L1; with no effective lane nothing is done (spec/05 R100,
R105, spec/12 R207, spec/01 R12). CFLUSH completes: it is counted in S with the writeback of its lines, which it is charged for
(R106, spec/15 R264; which bytes are charged is the model's choice, log 43). -/
def Obligations.OrderingInstructions : Prop :=
  (∀ f kind sc s key, Issues (.fence f kind sc) s key →
    let s0 := s.entered key f
    let c := s0.crew key
    let core := coreOf key
    let rel : Bool := kind = .rel || kind = .ar
    let goes : Bool := rel && Scope.wide sc && decide (c.phase = 0)
    let r := (s0.charge key 3 ((s0.dirtyOf core).map fun x => x.2.dirtyBytes).sum).releaseCore core
    let u := if goes then r.1.modCrew key fun c => { c with ct := max c.ct r.2, phase := 1 } else s0
    (c.eff f = 0 → Runs (.fence f kind sc) s key s0) ∧
    (c.eff f ≠ 0 → c.loadsBound = true → c.storesAtDie = true →
      (goes = true → ∀ x ∈ s0.dirtyOf core, s0.wayHeld core x.2.home = none) →
      (Scope.wide sc = true → (u.crew key).ct < u.mer (dieOfCore core)) → (sc = .sys → c.acked = true) →
      Runs (.fence f kind sc) s key (if kind = .acq ∨ kind = .ar then u.invalidateL1 core else u))) ∧
  (∀ f a ofs sc inv s key lanes t, Issues (.cflush f a ofs sc inv) s key →
    let s0 := s.entered key f
    let c := s0.crew key
    Room c.stores → s0.access key .write 1 (globalAddrs s0 key c a ofs (c.effLanes f)) = .ok lanes t →
    t.flushHeld (coreOf key) sc inv lanes = none →
    let x := lanes.foldl (fun (acc : State × Option Nat) a =>
      let r := acc.1.flushLine (coreOf key) sc inv a
      (r.1, match r.2 with | some x => some (max x (acc.2.getD 0)) | none => acc.2))
        (t.charge key 3 (t.flushBytes (coreOf key) sc inv lanes), none)
    Runs (.cflush f a ofs sc inv) s key (x.1.modCrew key fun c =>
      { c with ct := max c.ct (x.2.getD 0) }.addStore { id := 0, pc := c.pc, ct := x.2 })) ∧
  (∀ f a ofs sc inv s key, Issues (.cflush f a ofs sc inv) s key → (s.crew key).effLanes f = [] → Room (s.crew key).stores →
    Runs (.cflush f a ofs sc inv) s key ((s.entered key f).modCrew key fun c => c.addStore { id := 0, pc := c.pc }))

/-! ## Atomics, signals and tickets -/

/-- What a request of a crew makes of the state `s`, in which its release has passed: its lanes translate, none of its bytes wait for
an older region load, the lines' dirty bytes go home, to no die that relocks, and are charged, and its packets `ps` find room in the
queues; `done` is the state with the operation counted. -/
def Requests (s : State) (key : Nat) (pc : DWord) (q : Request) (done : State) : Prop :=
  ∃ lanes t u, (s.crew key).behindLoad q.align (q.addrs.map (·.2)) = false ∧
    s.access key .both q.align q.addrs = .ok lanes t ∧ t.flushHeld (coreOf key) .die true lanes = none ∧
    let t1 := (t.charge key 3 (t.flushBytes (coreOf key) .die true lanes)).preAtomic (coreOf key) lanes
    let p : Packet := { crew := key, opId := (t1.crew key).nextId, store := q.store, wide := q.wide, ctx := t1.ctxOf key,
                        signal := q.signal, dst := q.dst, ops := [] }
    let ps := packPackets p (t1.laneOps q.op q.bytes q.b q.e lanes)
    t1.sendPackets ps = some u ∧
    let m : MemPend := { id := 0, pc := pc, dsts := q.dst.toList, wide := q.bytes / 4, acq := q.acq, svc := ps.length,
                         ack := lanes.any (fun a => u.foreign a.pa), cut := u.anyCut lanes, bytes := lanes.map (fun a => (a.pa, q.bytes)),
                         va := u.foreignVa lanes }
    done = u.modCrew key fun c => if q.store then c.addStore m else c.addLoad m

/-- ATOM, RED and FRED whose lanes translate leave as request packets to the service crews of their lines, each lane with
its operands, and are counted in L or S; a release passes first, and an acquire holds the crew's later accesses; the lines' dirty
bytes go home first, to no die that relocks, and are charged (spec/06
R117-R119, R122, R124, spec/05 R100, spec/15 R264, spec/18 R287). A uniform D makes one operation (log 26), and which bytes are charged
is the model's choice (log 43). -/
def Obligations.AtomicRequests : Prop :=
  (∀ f d a b op sem sc sz uns s key s1 u, Issues (.atom f d a b op sem sc sz uns) s key →
    let s0 := s.entered key f
    let c := s0.crew key
    Room c.loads → Released s0 key (sem = .rel || sem = .ar) sc s1 →
    Requests s1 key c.pc
      { op := AtomOp.memOp op uns, bytes := if sz then 8 else 4, align := if sz then 8 else 4, store := false
        wide := Scope.wide sc, dst := some d, acq := sem = .acq || sem = .ar
        addrs := (accessLanes d (c.effLanes f)).map fun l => (l, s1.operand key c true a l)
        b := fun l => s1.operand key c sz b l, e := fun l => s1.operand key c sz (AtomOp.compare op) l } u →
    Runs (.atom f d a b op sem sc sz uns) s key u) ∧
  (∀ f a b op rel sc sz uns s key s1 u, Issues (.red f a b op rel sc sz uns) s key →
    let s0 := s.entered key f
    let c := s0.crew key
    let addrs := (c.effLanes f).map fun l => (l, s1.operand key c true a l)
    Room c.stores → Released s0 key rel sc s1 → (addrs = [] ∨ c.role = none ∨ ∃ x ∈ addrs, isViewAddr x.2.toNat = false) →
    Requests s1 key c.pc
      { op := RedOp.memOp op uns, bytes := if sz then 8 else 4, align := if sz then 8 else 4, store := true
        wide := Scope.wide sc, addrs := addrs, b := fun l => s1.operand key c sz b l } u →
    Runs (.red f a b op rel sc sz uns) s key u) ∧
  (∀ f a b ft op fz cn sat rel sc s key s1 u, Issues (.fred f a b ft op fz cn sat rel sc) s key →
    let s0 := s.entered key f
    let c := s0.crew key
    let addrs := (c.effLanes f).map fun l => (l, s1.operand key c true a l)
    Room c.stores → Released s0 key rel sc s1 → (addrs = [] ∨ c.role = none ∨ ∃ x ∈ addrs, isViewAddr x.2.toNat = false) →
    Requests s1 key c.pc
      { op := .fred ft op fz cn sat, bytes := 4, align := 4, store := true, wide := Scope.wide sc, addrs := addrs
        b := fun l => s1.operand key c false b l } u →
    Runs (.fred f a b ft op fz cn sat rel sc) s key u) ∧
  (∀ i f sc s key t, ((∃ d a b op sem sz uns, i = .atom f d a b op sem sc sz uns ∧ (sem = .rel ∨ sem = .ar) ∧
        Room ((s.entered key f).crew key).loads) ∨
      ((∃ a b op sz uns, i = .red f a b op true sc sz uns) ∨ (∃ a b ft op fz cn sat, i = .fred f a b ft op fz cn sat true sc)) ∧
        Room ((s.entered key f).crew key).stores) →
    Issues i s key → (s.entered key f).fence key .rel sc = .wait t →
    exec i s = .next ((t.modCrew key fun x => x.notEntered (s.crew key)).stalled key .fence))

/-- ATOMS applies its operation to the scratchpad lane by lane in ascending order, each lane seeing what the one before
left, and is counted in L with the old values; a uniform destination makes one operation (log 26); a lane that meets an uncorrectable byte changes nothing, and the first such offset
goes with the operation (spec/06 R119, R120, spec/05 R115). -/
def Obligations.ScratchAtomic : Prop :=
  ∀ (f : Ctl) (d a b : Operand) (op : AtomOp) (peer : Option (BitVec 3)) (sz u : Bool) (s : State) (key k : Nat),
    Issues (.atoms f d a b op peer sz u) s key →
    let s0 := s.entered key f
    let c := s0.crew key
    let n := if sz then 8 else 4
    let at_ := localAddrs s0 key c a 0 (accessLanes d (c.effLanes f))
    Room c.loads → s0.peerAway c peer = false → s0.peerParty c peer = some k →
    (∀ x ∈ at_, x.2 % n = 0 ∧ x.2 + n ≤ (s0.party k).scratchLen) →
    let r := at_.foldl (fun (acc : State × List RegWrite × Option DWord) x =>
      match firstBad (acc.1.party k).scratchBad n [x.2] with
      | some b => (acc.1, acc.2.1, some (acc.2.2.getD b))
      | none =>
        let old := fromBytesLE (Memory.readBytes (acc.1.party k).scratch x.2 n)
        let new := MemOp.apply (AtomOp.memOp op u) (8 * n) old (s0.operandNat key c sz b x.1)
          (s0.operandNat key c sz (AtomOp.compare op) x.1)
        (acc.1.modParty k fun p => p.putScratch x.2 (toBytesLE n new), acc.2.1 ++ destWrites d (n / 4) x.1 old, acc.2.2))
      (s0, [], none)
    Runs (.atoms f d a b op peer sz u) s key (r.1.modCrew key fun c =>
      c.addLoad { id := 0, pc := c.pc, dsts := [d], wide := n / 4, writes := r.2.1, bad := r.2.2 })

/-- What an integer atomic makes of the old value of w bits and its operands: the wrapped sum, the smaller or larger under
its signedness, the bitwise results, the exchange, and the swap when the old value equals the compare operand (spec/06
R120). -/
def Obligations.AtomicValues : Prop :=
  ∀ (w : Nat) (x b e : BitVec w), 0 < w →
    MemOp.apply .add w x.toNat b.toNat e.toNat = (x + b).toNat ∧
    (∀ u, MemOp.apply (.min u) w x.toNat b.toNat e.toNat = (if bvInt u b < bvInt u x then b else x).toNat) ∧
    (∀ u, MemOp.apply (.max u) w x.toNat b.toNat e.toNat = (if bvInt u x < bvInt u b then b else x).toNat) ∧
    MemOp.apply .and w x.toNat b.toNat e.toNat = (x &&& b).toNat ∧ MemOp.apply .or w x.toNat b.toNat e.toNat = (x ||| b).toNat ∧
    MemOp.apply .xor w x.toNat b.toNat e.toNat = (x ^^^ b).toNat ∧ MemOp.apply .exch w x.toNat b.toNat e.toNat = b.toNat ∧
    MemOp.apply .cas w x.toNat b.toNat e.toNat = (if x = e then b else x).toNat

/-- SIGSET, SIGADD and TKSERVE with an effective lane and an aligned address release, leave as one request to the word's
service crew, and are counted in S; with no effective lane they are only counted (spec/01 R12, spec/06 R125, R127). SIGWAIT that has
been answered acquires and writes the value; TICKET whose turn has come acquires, writes its ticket and holds it no more. SIGWAIT that
is not there yet, and TICKET that holds its ticket, are registered at the home of their word and wait; TICKET without a ticket asks for
one and waits (spec/06 R125-R127). Which bytes are charged is the model's choice (log 43). -/
def Obligations.Signals : Prop :=
  (∀ (i : Instr) (f : Ctl) (sc : SigScope) (a : Operand) (b : DWord) (dst : Option Operand) (op : MemOp) (align skip : Nat)
    (sg : Bool) (s : State) (key : Nat),
    let s0 := s.entered key f
    let c := s0.crew key
    ((∃ o, i = .sigset f a o sc ∧ op = .exch ∧ b = s0.operand key c true o 0 ∧ dst = none ∧ align = 8 ∧ skip = 0 ∧ sg = true) ∨
      (∃ o, i = .sigadd f dst a o sc ∧ op = .add ∧ b = s0.operand key c true o 0 ∧ align = 8 ∧ skip = 0 ∧ sg = true) ∨
      (i = .tkserve f a sc ∧ op = .add ∧ b = 1 ∧ dst = none ∧ align = 16 ∧ skip = 8 ∧ sg = false)) →
    Issues i s key → Room c.stores →
    (c.eff f = 0 → Runs i s key (s0.modCrew key fun c => c.addStore { id := 0, pc := c.pc })) ∧
    (∀ t u, c.eff f ≠ 0 → addressFault align (s0.operand key c true a 0) = none →
      s0.fence key .rel (SigScope.scope sc) = .pass t →
      Requests t key c.pc { op := op, bytes := 8, align := 8, store := true, wide := Scope.wide (SigScope.scope sc), signal := sg
                            dst := dst, addrs := [((c.effLanes f).headD 0, s0.operand key c true a 0 + BitVec.ofNat 64 skip)]
                            b := fun _ => b } u →
      Runs i s key u)) ∧
  ((∀ f d a b cc sc s key v t, Issues (.sigwait f d a b cc sc) s key →
    let s0 := s.entered key f
    (s0.crew key).eff f ≠ 0 → (s0.crew key).reply = some v → (s0.crew key).phase ≠ badPhase → (s0.crew key).phase ≠ lostPhase →
    s0.fence key .acq (SigScope.scope sc) = .pass t →
    Runs (.sigwait f d a b cc sc) s key (t.modCrew key fun c => c.writeUni f d v)) ∧
  (∀ f d a ex sc s key v n t, Issues (.ticket f d a ex sc) s key →
    let s0 := s.entered key f
    (s0.crew key).eff f ≠ 0 → addressFault 16 (s0.operand key (s0.crew key) true a 0) = none →
    (s0.crew key).reply = some v → (s0.crew key).phase ≠ badPhase → (s0.crew key).phase ≠ lostPhase →
    (match ex with | some b => some (s0.operand key (s0.crew key) true b 0) | none => (s0.crew key).ticket) = some n →
    s0.fence key .acq (SigScope.scope sc) = .pass t →
    Runs (.ticket f d a ex sc) s key (t.modCrew key fun c => { c.writeUni f d n with ticket := none })) ∧
  (∀ i f sc va vw cc w wt s key x lanes t,
    let s0 := s.entered key f
    let c := s0.crew key
    ((∃ d a b, i = .sigwait f d a b cc sc ∧ va = s0.operand key c true a 0 ∧ vw = va ∧ w = s0.operand key c true b 0 ∧ wt = .sigwait) ∨
      (∃ d a ex, i = .ticket f d a ex sc ∧ va = s0.operand key c true a 0 ∧ vw = va + 8 ∧ cc = .eq ∧ wt = .ticket ∧
        addressFault 16 va = none ∧
        (match ex with | some b => some (s0.operand key c true b 0) | none => c.ticket) = some w)) →
    Issues i s key → c.eff f ≠ 0 → c.reply = none → s0.waitsAtHome key = false → c.behindLoad 8 [vw] = false →
    s0.access key .both 8 [((c.effLanes f).headD 0, vw)] = .ok (x :: lanes) t → t.flushHeld (coreOf key) .die true (x :: lanes) = none →
    let t1 := (t.charge key 3 (t.flushBytes (coreOf key) .die true (x :: lanes))).preAtomic (coreOf key) (x :: lanes)
    (t1.crew key).atService [(x.pa, 8)] = false → t1.cutOff x.pa = false → t1.homeHeld (coreOf key) x.attr x.pa = none →
    exec i s = .next (((t1.modSvc (t1.svcOf x.attr x.pa) fun q =>
      { q with waiters := q.waiters ++ [{ crew := key, pa := x.pa, va := vw, cc := cc, val := w }] }).modCrew key
        fun x => x.notEntered (s.crew key)).stalled key wt)) ∧
  (∀ f d a sc s key lanes t u, Issues (.ticket f d a none sc) s key →
    let s0 := s.entered key f
    let c := s0.crew key
    let va := s0.operand key c true a 0
    c.eff f ≠ 0 → addressFault 16 va = none → c.reply = none → c.ticket = none → c.drawing = false → c.behindLoad 8 [va] = false →
    s0.access key .both 8 [((c.effLanes f).headD 0, va)] = .ok lanes t → t.flushHeld (coreOf key) .die true lanes = none →
    let t1 := (t.charge key 3 (t.flushBytes (coreOf key) .die true lanes)).preAtomic (coreOf key) lanes
    let p : Packet := { crew := key, opId := (t1.crew key).nextId, store := false, wide := Scope.wide (SigScope.scope sc),
                        ctx := t1.ctxOf key, signal := false, dst := none, ops := [] }
    t1.sendPackets (packPackets p (t1.laneOps .add 8 (fun _ => 1) (fun _ => 0) lanes)) = some u →
    exec (.ticket f d a none sc) s = .next (((u.modCrew key fun c => { c with drawing := true }).modCrew key
      fun x => x.notEntered (s.crew key)).stalled key .ticket)))

/-! ## Shapes and copies -/

/-- TSHAPE reads 64 bytes of scratchpad and puts the record into the slot when it is well formed; one that is not gives the
shape fault, and the slot is empty (spec/05 R108, R109). TCOPY of a full slot whose rows lie in their spaces is counted in C
with the record as it stands, one of the accumulator store also with its place in the order of the die's tile operations (spec/20 R303);
with `.rf` its ring slot becomes PEND (spec/05 R111, R113, spec/08 R159). With no effective lane TCOPY is only counted (spec/01 R12). -/
def Obligations.ShapesAndCopies : Prop :=
  (∀ f a b s key, Issues (.tshape f a b) s key →
    let s0 := s.entered key f
    let c := s0.crew key
    let p := s0.party c.party
    let slot := (s0.uni key c false a).toNat
    let ofs := (s0.uni key c false b).toNat % 2 ^ 32
    let r : BitVec 512 := BitVec.ofNat 512 (fromBytesLE (Memory.readBytes p.scratch ofs 64))
    let ok := shapeOk r c.role ((s0.task p.task).parties.length + (s0.task p.task).away.length)
    c.eff f ≠ 0 → slot < 16 → ofs % 64 = 0 → ofs + 64 ≤ p.scratchLen →
    (ok = true → Runs (.tshape f a b) s key (s0.setParty c.party { p with shapes := Tbl.set p.shapes slot r })) ∧
    (ok = false → NoRegionLoad s key → exec (.tshape f a b) s = .next ((s0.setParty c.party { p with shapes := Tbl.del p.shapes slot }).takeFault key
      { cause := 0x0C, d1 := BitVec.ofNat 32 slot }))) ∧
  (∀ f a b rf dd s key r, Issues (.tcopy f a b rf dd) s key →
    let s0 := s.entered key f
    let c := s0.crew key
    let p := s0.party c.party
    let slot := (s0.uni key c false a).toNat
    let disp := s0.uni key c true b
    let plan := copyPlan r disp dd
    Room c.cops → c.eff f ≠ 0 → Tbl.get? p.shapes slot = some r →
    s0.rowsFault key plan.src plan.srcLen plan.srcRows = none → s0.rowsFault key plan.dst plan.dstLen plan.dstRows = none →
    (rf = none → Runs (.tcopy f a b rf dd) s key (s0.addCopy key (.copy slot r disp dd none))) ∧
    (∀ e g, rf = some e → Tbl.get? p.rings ((s0.uni key c false e).toNat / 256) = some g →
      (s0.uni key c false e).toNat % 256 < g.slots.length →
      (g.slots.getD ((s0.uni key c false e).toNat % 256) {}).st = .held →
      let at_ := ((s0.uni key c false e).toNat / 256, (s0.uni key c false e).toNat % 256)
      Runs (.tcopy f a b rf dd) s key ((s0.setParty c.party (p.setSlot at_.1 at_.2 fun x => { x with st := .pend })).modCrew
        key fun c => c.addC (.copy slot r disp dd (some at_))))) ∧
  (∀ f a b rf dd s key, Issues (.tcopy f a b rf dd) s key → Room (s.crew key).cops → (s.crew key).eff f = 0 →
    Runs (.tcopy f a b rf dd) s key ((s.entered key f).modCrew key fun c => c.addC .empty))

/-- COPY_COMPLETE moves some units of the oldest copy of a crew, a free number (log 67), each charged as it is written: the crew takes
the completion times of its writes, and the copy leaves C once all its units are written and Meridian has passed its own, and another
package has acknowledged; one that cannot go on keeps what it has written, and waits, and one of the accumulator store waits its turn
behind tile operations (spec/05 R99, R111, R113, spec/15 R264, spec/20 R303).
COPY_ABANDON of a copy at a page that nobody will map leaves what the copy reached and its slot, and defers a copy
fault (spec/05 R112, spec/08 R159). -/
def Obligations.CopyEvents : Prop :=
  ∀ (s : State) (crew : Nat) (o : CPend) (slot : Nat) (r : BitVec 512) (disp : DWord) (dd : Bool) (ring : Option (Nat × Nat)),
    s.relocking (dieOfCore (coreOf crew)) = false → (s.crew crew).oldestC CKind.isCopy = some o →
    o.kind = .copy slot r disp dd ring →
    let n := (copyAll r disp dd).length
    let whole := (copyPlan r disp dd).overlapping
    let after (x : CopyRun) (why : Option Wait) (die : Nat) : State :=
      (x.s.modCrew crew fun c => { c with ct := max c.ct x.w.ct }).modC crew o.id fun o =>
        { o with rows := x.rows, buf := x.buf, todo := x.todo, first := x.first, ct := maxOpt o.ct x.w.wait,
                 applied := x.err.isNone && n ≤ x.rows, why := why, heldDie := die }
    (s.classHeld crew = false → o.applied = false → s.engineRejected crew = false → s.accHeld crew o = false →
      s.accBehind crew o = false →
      let k := s.engineSteps (if whole then 1 else n - o.rows)
      let x := k.2.runCopy crew r disp dd o k.1
      let t := after x none 4
      (x.err = none → n ≤ x.rows → x.w.ack = false → t.passed crew (maxOpt o.ct x.w.wait) = true →
        Happens (.copyComplete crew) s (t.finishCopy crew o)) ∧
      (x.err = none → ¬(n ≤ x.rows ∧ x.w.ack = false ∧ t.passed crew (maxOpt o.ct x.w.wait) = true) →
        Happens (.copyComplete crew) s t) ∧
      (∀ d, x.err = some (.held d) → Happens (.copyComplete crew) s (after x (some .clock) d))) ∧
    (s.classHeld crew = false → o.applied = true → s.passed crew o.ct = true →
      Happens (.copyComplete crew) s (s.finishCopy crew o)) ∧
    (let x := s.runCopy crew r disp dd o n
     ∀ va hm, o.applied = false → s.accHeld crew o = false → x.err = some (.trans va hm) → s.engineWaits crew (.trans va hm) = false →
      Happens (.copyAbandon crew) s (((((after x (some .walk) 4).endAsk crew).modCrew crew fun c =>
        { c with stuckSlots := c.stuckSlots ++ ring.toList
                 cops := c.cops.map fun (y : CPend) => if y.id = o.id then { y with
                   done := true, fault := some { cause := 0x0D, eng := 1, d1 := BitVec.ofNat 32 slot, d2 := 3 } } else y }).dropOps crew)))

/-- A copy of one row of bytes from scratchpad to the weight store, moved whole while the class has budget left, leaves the row there,
byte for byte, and costs nothing; every other byte of
the weight store, the scratchpad and memory are as before (spec/05 R108, R111, spec/15 R264). -/
def Obligations.CopyMovesRow : Prop :=
  ∀ (s : State) (key : Nat) (r : BitVec 512) (o : CPend), o.rows = 0 → o.buf = [] → (shapeSrc r).space = 1 → (shapeDst r).space = 3 → (shapeSrc r).pl = false →
    (shapeDst r).pl = false → shapeFmt r = 5 → shapeExt r 1 = 1 → shapeExt r 2 = 1 →
    let n := shapeExt r 0
    let a := (shapeSrc r).base
    let b := (shapeDst r).base
    let p := s.party (s.crew key).party
    let k := (copyAll r 0 false).length
    let x := s.runCopy key r 0 false o k
    let q := x.s.party (s.crew key).party
    Sparse.wf p.weight = true → p.scratchBad = [] → s.spent key = false →
    x.err = none ∧ x.rows = k ∧ x.w = {} ∧ x.s.budgets = s.budgets ∧
      Memory.readBytes q.weight b n = Memory.readBytes p.scratch a n ∧
      (∀ x, x < b ∨ b + n ≤ x → Memory.read q.weight x = Memory.read p.weight x) ∧ q.scratch = p.scratch ∧ x.s.mem = s.mem

/-! ## Tasks -/

/-- SPAWN and SPAWNR by the lead crew, its fence passed, with room in its deque and its arena: a child task begins at the
entry with the next pedigree, takes its arena from the top of the parent's and s48 to s63, and stands at the bottom of the
core's deque; the parent's strand is the next one (spec/08 R145, R148, R151, spec/15 R258). -/
def Obligations.Spawns : Prop :=
  ∀ (i : Instr) (f : Ctl) (b : Operand) (sh : BitVec 3) (entry : DWord) (s : State) (key : Nat),
    let s0 := s.entered key f
    let c := s0.crew key
    ((∃ ofs, i = .spawn f b sh ofs ∧ entry = c.pc + BitVec.ofInt 64 (12 * ofs.toInt)) ∨
      (∃ a, i = .spawnr f a b sh ∧ entry = s0.uni key c true a ∧ entry.toNat % 4 = 0)) →
    Issues i s key →
    let ti := (s0.party c.party).task
    let t := s0.task ti
    let d := pedDepth c.ped
    let e := pedElem c.ped (d + 1)
    let n : Nat := (s0.uni key c false b).toNat % 2 ^ 32
    s0.mayLead c false = true → c.eff f ≠ 0 → d ≠ 31 → elemK e ≠ 1023 → sh.toNat ≤ packetNsh (s0.launch t.launch).packet →
    n % 64 = 0 → n ≤ t.arenaEnd.toNat - t.arenaNext.toNat → ∀ u, s0.fence key .rel .pkg = .pass u →
    256 ≤ 65536 - u.sweepPeds.pedTable.length → (u.core (coreOf key)).deque.length < 256 → ti < u.nextTask →
    ∃ v, Runs i s key v ∧ v.nextTask = u.nextTask + 1 ∧
      (v.core (coreOf key)).deque = (u.core (coreOf key)).deque ++ [u.nextTask] ∧
      (let k := v.task u.nextTask
       k.entry = entry ∧ k.shape = sh.toNat ∧ k.launch = t.launch ∧ k.parent = some ti ∧ k.root = t.root ∧ k.fmt = c.fmt ∧
        k.args = (upto 48 16).map c.s ∧ k.arenaEnd = t.arenaEnd ∧ k.arenaBase = t.arenaEnd - BitVec.ofNat 64 n ∧
        k.status = .queued ∧ k.ped = (if d + 1 < 31 then setElem (setDepth c.ped (d + 1)) (d + 2) 0 else setDepth c.ped (d + 1))) ∧
      (v.task ti).arenaEnd = t.arenaEnd - BitVec.ofNat 64 n ∧ (v.task ti).children = (u.task ti).children ++ [u.nextTask] ∧
      (v.crew key).ped = setElem c.ped (d + 1) (elemJ e * 1024 + elemK e + 1) ∧ v.mem = u.mem

/-- JOIN whose children are all over merges their views in order, makes its strand the next section, and acquires; ALLOC
gives the arena's next address and moves it by A rounded up to 64 bytes, or takes the arena fault (spec/08 R146, R151, spec/16
R270, R273). A crew that may not lead takes the lead fault, whose D1 is 0 (spec/08 R143; log 14). -/
def Obligations.JoinAlloc : Prop :=
  (∀ f s key, Issues (.join f) s key →
    let s0 := s.entered key f
    let c := s0.crew key
    let ti := (s0.party c.party).task
    let d := pedDepth c.ped
    let e := pedElem c.ped (d + 1)
    let mine := if d < 31 then setElem c.ped (d + 1) ((elemJ e + 1) * 1024 + elemK e) else c.ped
    let s1 := ((s0.sweepPeds.absorb ti mine).modTask ti fun t => { t with joinFrom := none }).setPed key ti mine
    let s2 := (if d < 31 then s1.beginStrand ti mine else s1).modCrew key fun c => { c with phase := 2 }
    s0.mayLead c false = true → c.eff f ≠ 0 → ¬(d < 31 ∧ elemJ e = 63) → s0.childrenDone (s0.task ti) = true →
    (c.phase < 2 → ∀ u, s2.fence key .acq .pkg = .pass u → Runs (.join f) s key u) ∧
    (2 ≤ c.phase → ∀ u, s0.fence key .acq .pkg = .pass u → Runs (.join f) s key u)) ∧
  (∀ f d a s key, Issues (.alloc f d a) s key →
    let s0 := s.entered key f
    let c := s0.crew key
    let ti := (s0.party c.party).task
    let t := s0.task ti
    let n := ((s0.uni key c false a).toNat + 63) / 64 * 64
    s0.mayLead c true = true → c.eff f ≠ 0 →
    (t.arenaNext.toNat + n ≤ t.arenaEnd.toNat → Runs (.alloc f d a) s key
      ((s0.modTask ti fun t => { t with arenaNext := t.arenaNext + BitVec.ofNat 64 n }).modCrew key
        fun c => c.writeUni f d t.arenaNext)) ∧
    (t.arenaEnd.toNat < t.arenaNext.toNat + n → NoRegionLoad s key → Traps (.alloc f d a) s key
      { cause := 0x17, d1 := (s0.uni key c false a).extractLsb' 0 32 })) ∧
  (∀ i f s key, ((∃ b sh ofs, i = .spawn f b sh ofs) ∨ (∃ a b sh, i = .spawnr f a b sh) ∨ i = .join f ∨
      (∃ a b e kind, i = .vdecl f a b e kind) ∨ (∃ a raw, i = .vfin f a raw) ∨ i = .trigger f) →
    Issues i s key → NoRegionLoad s key → (s.entered key f).mayLead ((s.entered key f).crew key) false = false →
    Traps i s key { cause := 0x15 }) ∧
  (∀ f d a s key, Issues (.alloc f d a) s key → NoRegionLoad s key →
    (s.entered key f).mayLead ((s.entered key f).crew key) true = false → Traps (.alloc f d a) s key { cause := 0x15 })

/-- What Table 8-3 makes of a view when a contribution `x` of serial key `key` reaches offset `ofs` in it (spec/08 R153). -/
def Contributes (v : View) (d : Decl) (ofs key : Nat) (x : Contribution) (v' : View) : Prop :=
  let i := ofs / RedKind.step d.kind
  let e := v.elem d.kind i
  let old : DWord := e.val.extractLsb' 0 64
  match d.kind, x with
  | .addf32, .fred .f32 .add true w => v' = v.setElem i { e with acc := la320Add e.acc (fp32.decode w.toNat) }
  | .adds64, .red .add true _ w => v' = v.setElem i { e with val := (old + w).setWidth 128 }
  | .mins64, .red .min true false w => v' = v.setElem i { e with val := (if w.toInt < old.toInt then w else old).setWidth 128 }
  | .maxs64, .red .max true false w => v' = v.setElem i { e with val := (if old.toInt < w.toInt then w else old).setWidth 128 }
  | .minf32, .fred .f32 .min true w => v' = v.setElem i { e with val := BitVec.ofNat 128 (viewPick false (e.val.toNat % 2 ^ 32) w.toNat) }
  | .maxf32, .fred .f32 .max true w => v' = v.setElem i { e with val := BitVec.ofNat 128 (viewPick true (e.val.toNat % 2 ^ 32) w.toNat) }
  | .amin, .store w true => e.key ≤ key ∧
      v' = v.setElem i (if (w.extractLsb' 0 64).toInt < old.toInt then { acc := 0, val := w, key := key } else e)
  | .amax, .store w true => e.key ≤ key ∧
      v' = v.setElem i (if old.toInt < (w.extractLsb' 0 64).toInt then { acc := 0, val := w, key := key } else e)
  | .log, .store w true => i = 0 ∧ (∀ y ∈ v.log, y.1 ≤ key) ∧
      v' = { v with log := (v.log ++ [(key, w)]).take d.count, beyond := v.beyond || decide (d.count < v.log.length + 1) }
  | _, _ => False

/-- VDECL with room in the core's pool of 256 KiB makes a declaration and a view of the core, and the identifier names them; VPTR
gives the address of its reducer's view, which follows from the reducer's id alone (spec/00 R4); VFIN stores the final values at the target as a store at pkg scope, in a store's order, and frees the
declaration (spec/08 R152, R154, R155, spec/05 R98; where views stand, and what a pool without room does, are the model's choice,
logs 13 and 28). ST, RED and FRED of view addresses alone apply their contributions to the views lane by lane, after their release, and
write no memory; each contribution does to its element what Table 8-3 says, and one that it does not list, or beyond the view, is the
view fault of its lane, with no other effect; an access that names a view address among others is the view fault of the lowest lane
that does (R153). -/
def Obligations.Reducers : Prop :=
  (∀ f a b e kind s key, Issues (.vdecl f a b e kind) s key →
    let s0 := s.entered key f
    let c := s0.crew key
    let ti := (s0.party c.party).task
    let id := (s0.uni key c false a).toNat
    let target := s0.uni key c true b
    let n := (s0.uni key c false e).toNat
    let d : Decl := { task := ti, id := id, kind := kind, target := target, count := n }
    s0.mayLead c false = true → c.eff f ≠ 0 → id < 16 → Tbl.get? (s0.task ti).decls id = none → 0 < n → n ≤ 65536 →
    d.viewBytes ≤ 65536 → target.toNat % RedKind.targetSize kind = 0 → s0.poolOwn ti (coreOf key) + d.viewBytes ≤ 262144 →
    s0.poolUsed (coreOf key) + d.viewBytes ≤ 262144 →
    Runs (.vdecl f a b e kind) s key ({ s0 with
      decls := Tbl.set s0.decls s0.nextDecl d, nextDecl := s0.nextDecl + 1
      views := Tbl.set s0.views s0.nextView { decl := s0.nextDecl, core := coreOf key }, nextView := s0.nextView + 1 }.modTask ti
        fun t => { t with decls := Tbl.set t.decls id s0.nextDecl, views := Tbl.set t.views s0.nextDecl s0.nextView })) ∧
  (∀ f d a s key di vi, Issues (.vptr f d a) s key →
    let t := s.task (s.party (s.crew key).party).task
    Tbl.get? t.decls (s.uni key (s.crew key) false a).toNat = some di → Tbl.get? t.views di = some vi →
    Computes (.vptr f d a) f true d s key (s.crew key) fun _ => BitVec.ofNat 64 (viewAddr (s.uni key (s.crew key) false a).toNat)) ∧
  (∀ f a raw s key di d vi v lanes u, Issues (.vfin f a raw) s key →
    let s0 := s.entered key f
    let c := s0.crew key
    let ti := (s0.party c.party).task
    let t := s0.task ti
    let id := (s0.uni key c false a).toNat
    s0.mayLead c false = true → Room c.stores → c.eff f ≠ 0 → Tbl.get? t.decls id = some di → Tbl.get? s0.decls di = some d →
    d.task = ti → t.children = [] → (raw = true → d.kind = .addf32 ∨ d.kind = .addbf16) → Tbl.get? t.views di = some vi →
    Tbl.get? s0.views vi = some v →
    let bs := v.finalBytes d raw
    let ps := linePieces d.target.toNat bs.length
    s0.access key .write 1 (ps.map fun p => (0, BitVec.ofNat 64 p.1)) = .ok lanes u →
    c.behindLoad 128 (ps.map fun p => BitVec.ofNat 64 p.1) = false → c.atService ((lanes.zip ps).map fun x => (x.1.pa, x.2.2)) = false →
    (∀ a ∈ lanes, u.storeHeld (coreOf key) a.attr .pkg a.pa = none) →
    let x := u.storePieces key .pkg lanes ps bs
    Runs (.vfin f a raw) s key (((({ x.1 with
      decls := Tbl.del x.1.decls di, views := x.1.views.filter fun y => y.2.decl != di }).modTask ti
        fun t => { t with decls := Tbl.del t.decls id, views := Tbl.del t.views di }).modCrew key fun c =>
          { c with ct := max c.ct x.2.ct }).modCrew key fun c =>
            c.addStore { id := 0, pc := c.pc, ct := x.2.wait, ack := x.2.ack, cut := x.1.anyCut lanes, va := d.target })) ∧
  (∀ i f rel sc addrs (x : Nat → Contribution) s key s1, Issues i s key →
    let s0 := s.entered key f
    let c := s0.crew key
    ((∃ a b ofs ty, i = .st f a b ofs ty rel sc ∧ addrs = globalAddrs s0 key c a ofs (c.effLanes f) ∧
        c.behindLoad (StTy.bytes ty) (addrs.map (·.2)) = false ∧
        x = fun l => if ty = .b128 then .store (BitVec.ofNat 128 (s0.storeElem key c b ty l)) (s1.isLead c) else .other) ∨
      (∃ a b op sz u, i = .red f a b op rel sc sz u ∧ addrs = (c.effLanes f).map (fun l => (l, s1.operand key c true a l)) ∧
        x = fun l => .red op sz u (s1.operand key c sz b l)) ∨
      (∃ a b ft op fz cn sat, i = .fred f a b ft op fz cn sat rel sc ∧
        addrs = (c.effLanes f).map (fun l => (l, s1.operand key c true a l)) ∧
        x = fun l => .fred ft op (!(fz || cn || sat)) ((s1.operand key c false b l).extractLsb' 0 32))) →
    Room c.stores → Released s0 key rel sc s1 → c.role.isSome = true → addrs ≠ [] →
    (∀ y ∈ addrs, isViewAddr y.2.toNat = true) →
    let views := addrs.map fun y => (y.1, y.2.toNat)
    (∀ t, s1.contributeAll key x views = .ok t → t = { s1 with views := t.views } ∧
      Runs i s key (t.modCrew key fun c => c.addStore { id := 0, pc := c.pc })) ∧
    (∀ l, s1.contributeAll key x views = .error l → NoRegionLoad s key → ∃ r : Report, r.cause = 0x19 ∧
      (∃ va, (l, va) ∈ views ∧ r.d1 = BitVec.ofNat 32 (viewNumber va)) ∧ Traps i s key r)) ∧
  (∀ (s : State) (key va : Nat) (x : Contribution) vi v d, s.viewOf (s.taskOf key) (viewNumber va) = some (vi, v, d) →
    let k := contribKey (s.crew key).task (s.crew key).ped
    let ofs := viewOffset va
    (∀ v', Contributes v d ofs k x v' → ofs % RedKind.step d.kind = 0 → ofs / RedKind.step d.kind < d.count →
      s.contribute key va x = some { s with views := Tbl.set s.views vi v' }) ∧
    (ofs % RedKind.step d.kind ≠ 0 ∨ d.count ≤ ofs / RedKind.step d.kind ∨ x = .other ∨ (∃ w, x = .store w false) ∨
      (∃ ft op w, x = .fred ft op false w) → s.contribute key va x = none)) ∧
  (∀ (s : State) (key : Nat) (need : Need) (n : Nat) (low : List (Nat × DWord)) (l : Nat) (va : DWord) (high : List (Nat × DWord)),
    (s.crew key).role.isSome = true → isViewAddr va.toNat = true →
    (∀ x ∈ low, isViewAddr x.2.toNat = false) →
    (∀ x ∈ low ++ high, isViewAddr x.2.toNat = true ∨
      addressFault n x.2 = none ∧ ∃ pa a, s.translate key need x.2.toNat = (.ok pa a, s)) →
    ∃ r : Report, r.cause = 0x19 ∧ r.d1 = BitVec.ofNat 32 (viewNumber va.toNat) ∧
      s.access key need n (low ++ (l, va) :: high) = .fault r)

/-- BARP and BARC release, arrive once, and pass when their generation is over; BARC then acquires (spec/08 R156). ARRIVE.init
sets EXPECT and PENDING, ARRIVE gives the phase and counts down, AWAIT passes when the phase is not B (R157) and the crew's older
operations at home points have been performed (spec/12 R218). TRIGGER counts
its root once (R160). PEDCMP orders two pedigrees (R149). -/
def Obligations.Barriers : Prop :=
  (∀ f s key, Issues (.barp f) s key →
    let s0 := s.entered key f
    let c := s0.crew key
    (2 ≤ c.phase → BitVec.ofNat 64 (s0.party c.party).gen ≠ c.aux → Runs (.barp f) s key s0.wakeCrews) ∧
    (c.phase < 2 → ∀ u, s0.fence key .rel .party = .pass u →
      let s1 := (u.modCrew key fun c => { c with phase := 2, aux := BitVec.ofNat 64 (u.party c.party).gen }).modParty c.party
        fun p => { p with arrived := p.arrived ++ [key]
                          arrivedPed := if (u.modCrew key fun c => { c with phase := 2, aux := BitVec.ofNat 64 (u.party c.party).gen }).isLead c then
                            some c.ped else p.arrivedPed }
      let s2 := s1.barpCheck c.party
      BitVec.ofNat 64 (s2.party c.party).gen ≠ (s2.crew key).aux →
      Runs (.barp f) s key s2.wakeCrews)) ∧
  (∀ f pk s key, Issues (.barc f pk) s key →
    let s0 := s.entered key f
    let c := s0.crew key
    let ti := (s0.party c.party).task
    let sc : Scope := if pk then .pkg else .die
    (2 ≤ c.phase → BitVec.ofNat 64 (s0.task ti).gen ≠ c.aux → ∀ u, s0.wakeCrews.fence key .acq sc = .pass u →
      Runs (.barc f pk) s key u) ∧
    (c.phase < 2 → ∀ u v, s0.fence key .rel sc = .pass u →
      let s1 := u.modCrew key fun c => { c with phase := 2, aux := BitVec.ofNat 64 (u.task ti).gen }
      let s2 := (s1.modTask ti fun t => { t with arrived := t.arrived ++ [key]
                                                 arrivedPed := if s1.isLead c then some c.ped else t.arrivedPed }).barcCheck ti
      BitVec.ofNat 64 (s2.task ti).gen ≠ (s2.crew key).aux → s2.wakeCrews.fence key .acq sc = .pass v →
      Runs (.barc f pk) s key v)) ∧
  (∀ f a b s key, Issues (.arriveInit f a b) s key →
    let s0 := s.entered key f
    let c := s0.crew key
    let p := s0.party c.party
    let id := (s0.uni key c false a).toNat
    let n := (s0.uni key c false b).toNat
    c.eff f ≠ 0 → id < 16 → 1 ≤ n → n ≤ 64 → (∀ x, Tbl.get? p.bars id = some x → x.pending = x.expect) →
    Runs (.arriveInit f a b) s key
      (s0.setParty c.party { p with bars := Tbl.set p.bars id { expect := n, pending := n, phase := false } }).wakeCrews) ∧
  (∀ f d a b s key u x, Issues (.arrive f d a b) s key →
    let s0 := s.entered key f
    let c := s0.crew key
    let id := (s0.uni key c false a).toNat
    let n := (s0.uni key c false b).toNat
    c.eff f ≠ 0 → id < 16 → 1 ≤ n → n ≤ 64 → s0.fence key .rel .party = .pass u →
    Tbl.get? (u.party c.party).bars id = some x → n ≤ x.pending →
    let last := n = x.pending
    let x' : Barrier := { x with pending := if last then x.expect else x.pending - n, phase := if last then !x.phase else x.phase }
    let s1 := (u.setParty c.party { u.party c.party with bars := Tbl.set (u.party c.party).bars id x' }).modCrew key fun c' =>
      if d = .v 0 then c' else c'.writeDst false d (c'.effLanes f) fun _ => if x.phase then 1 else 0
    Runs (.arrive f d a b) s key (if last then s1.signalWake (coreOf key) 2 else s1).wakeCrews) ∧
  (∀ f a b s key x, Issues (.await f a b) s key →
    let s0 := s.entered key f
    let c := s0.crew key
    c.eff f ≠ 0 → (s0.uni key c false a).toNat < 16 → (s0.uni key c false b).toNat ≤ 1 →
    Tbl.get? (s0.party c.party).bars (s0.uni key c false a).toNat = some x →
    x.phase ≠ decide ((s0.uni key c false b).toNat = 1) → c.olderPerformed c.nextId = true → Runs (.await f a b) s key s0) ∧
  (∀ f s key u, Issues (.trigger f) s key →
    let s0 := s.entered key f
    let c := s0.crew key
    s0.mayLead c false = true → c.eff f ≠ 0 → s0.fence key .rel .pkg = .pass u →
    let ti := (u.party c.party).task
    let t := u.task ti
    Runs (.trigger f) s key
      (if t.parent = none ∧ t.handlerOf = none ∧ t.triggered = false ∧ packetTrig (u.launch t.launch).packet = true then
        (u.modTask ti fun t => { t with triggered := true }).modLaunch t.launch fun l => { l with triggered := l.triggered + 1 }
      else u)) ∧
  (∀ f d a b s key x y, Issues (.pedcmp f d a b) s key →
    let p := s.party (s.crew key).party
    let at_ (o : Operand) : Nat := (s.uni key (s.crew key) false o).toNat
    let image (o : Operand) : BitVec 512 := BitVec.ofNat 512 (fromBytesLE (Memory.readBytes p.scratch (at_ o) 64))
    (a = .sp .ped ∧ x = (s.crew key).ped ∨ a ≠ .sp .ped ∧ at_ a % 64 = 0 ∧ at_ a + 64 ≤ p.scratchLen ∧ x = image a) →
    at_ b % 64 = 0 → at_ b + 64 ≤ p.scratchLen → y = image b →
    Computes (.pedcmp f d a b) f false d s key (s.crew key) fun _ => BitVec.ofNat 64 (pedOrder x y))

/-- Stage rings: RINGPUT.init makes N free slots; RINGPUT.get takes the producer's slot when its empty phase is the lap, and
RINGPUT.pub makes it full; RINGGET.get takes the consumer's slot when it is full, and RINGGET.rel frees it; both releases come after the
crew's older accesses (spec/12 R214); each get answers
the index and turns the lap at the end, in the order in which the crews came (spec/08 R158), once the crew's older operations at home
points have been performed (spec/12 R218). -/
def Obligations.Rings : Prop :=
  (∀ f a b s key, Issues (.ringputInit f a b) s key →
    let s0 := s.entered key f
    let c := s0.crew key
    let id := (s0.uni key c false a).toNat
    let n := (s0.uni key c false b).toNat
    c.eff f ≠ 0 → id < 8 → 2 ≤ n → n ≤ 64 →
    (∀ g, Tbl.get? (s0.party c.party).rings id = some g → ∀ x ∈ g.slots, x.st = .free ∨ x.st = .full) →
    let old : Ring := (Tbl.get? (s0.party c.party).rings id).getD { slots := [] }
    Runs (.ringputInit f a b) s key (s0.modParty c.party fun p =>
      { p with rings := Tbl.set p.rings id { slots := List.replicate n {}, prodQ := old.prodQ, consQ := old.consQ } }).wakeCrews) ∧
  (∀ f d a s key g, Issues (.ringputGet f d a) s key →
    let s0 := s.entered key f
    let c := s0.crew key
    let id := (s0.uni key c false a).toNat
    c.eff f ≠ 0 → id < 8 → Tbl.get? (s0.party c.party).rings id = some g → (g.slots.getD g.prod {}).e = g.pl →
    (∀ x, g.prodQ.head? = some x → x = c.idx) → c.olderPerformed c.nextId = true →
    let wrap := g.prod + 1 = g.slots.length
    let g' : Ring := { g with slots := g.slots.set g.prod { g.slots.getD g.prod {} with st := .held }
                              prod := if wrap then 0 else g.prod + 1, pl := if wrap then !g.pl else g.pl
                              prodQ := g.prodQ.filter fun x => x != c.idx }
    Runs (.ringputGet f d a) s key ((s0.modParty c.party fun p => { p with rings := Tbl.set p.rings id g' }).modCrew key
      fun c => c.writeDst false d (c.effLanes f) fun _ => BitVec.ofNat 64 g.prod).wakeCrews) ∧
  (∀ f a b s key g u, Issues (.ringputPub f a b) s key →
    let s0 := s.entered key f
    let c := s0.crew key
    c.eff f ≠ 0 → s0.fence key .rel .party = .pass u →
    let id := (u.uni key c false a).toNat
    let j := (u.uni key c false b).toNat
    id < 8 → Tbl.get? (u.party c.party).rings id = some g → j < g.slots.length →
    (g.slots.getD j {}).st = .held →
    let x := g.slots.getD j {}
    Runs (.ringputPub f a b) s key (((u.modParty c.party fun p =>
      { p with rings := Tbl.set p.rings id { g with slots := g.slots.set j { x with f := !x.f, st := .full } } }).signalWake
        (coreOf key) 2).wakeCrews)) ∧
  (∀ f d a s key g, Issues (.ringgetGet f d a) s key →
    let s0 := s.entered key f
    let c := s0.crew key
    let id := (s0.uni key c false a).toNat
    let x := g.slots.getD g.cons {}
    c.eff f ≠ 0 → id < 8 → Tbl.get? (s0.party c.party).rings id = some g → x.f ≠ g.cl → x.st = .full →
    (∀ y, g.consQ.head? = some y → y = c.idx) → c.olderPerformed c.nextId = true →
    let wrap := g.cons + 1 = g.slots.length
    let g' : Ring := { g with slots := g.slots.set g.cons { x with st := .taken }
                              cons := if wrap then 0 else g.cons + 1, cl := if wrap then !g.cl else g.cl
                              consQ := g.consQ.filter fun x => x != c.idx }
    Runs (.ringgetGet f d a) s key ((s0.modParty c.party fun p => { p with rings := Tbl.set p.rings id g' }).modCrew key
      fun c => c.writeDst false d (c.effLanes f) fun _ => BitVec.ofNat 64 g.cons).wakeCrews) ∧
  (∀ f a b s key g, Issues (.ringgetRel f a b) s key →
    let s0 := s.entered key f
    let c := s0.crew key
    let id := (s0.uni key c false a).toNat
    let j := (s0.uni key c false b).toNat
    let x := g.slots.getD j {}
    c.eff f ≠ 0 → c.loadsBound = true → c.storesAtDie = true → id < 8 → Tbl.get? (s0.party c.party).rings id = some g →
    j < g.slots.length → x.st = .taken →
    Runs (.ringgetRel f a b) s key (((s0.modParty c.party fun p =>
      { p with rings := Tbl.set p.rings id { g with slots := g.slots.set j { x with e := !x.e, st := .free } } }).signalWake
        (coreOf key) 2).wakeCrews))

/-! ## The matrix array -/

/-- The tile products, TZERO, TLOAD, TADD, TDRAIN and TDRAINL whose tile, slots, requirements and formats are in order are
counted in T with the records as they stand (spec/09 R163, R164, R168-R170, R173); TLINK names the barrier of the next
operation (R172). Each of them, OMMV and OMMVE too, is only counted when no lane is effective (R162, spec/01 R12). -/
def Obligations.TileIssue : Prop :=
  (∀ i f a b e t grad s key ra rb,
    ((i = .tmma f a b t ∧ e = none ∧ grad = false) ∨ (∃ o, i = .tmmae f a b o t ∧ e = some o ∧ grad = false) ∨
      (i = .tmmag f a b t ∧ e = none ∧ grad = true)) → Issues i s key →
    let s0 := s.entered key f
    let c := s0.crew key
    let p := s0.party c.party
    Room c.tops → c.eff f ≠ 0 → t.toNat < p.tiles → Tbl.get? p.shapes (s0.uni key c false a).toNat = some ra →
    Tbl.get? p.shapes (s0.uni key c false b).toNat = some rb → isA ra = true → isB rb (shapeExt ra 0) grad = true →
    productFormats c.fmt ra rb e.isSome grad = none → s0.operandFault key ra 0 false = none →
    s0.operandFault key rb 0 e.isSome = none →
    Runs i s key (s0.addT key (.mma ra rb (e.map fun o => s0.uni key c true o) t.toNat 0) true)) ∧
  (∀ f t s key, Issues (.tzero f t) s key →
    let s0 := s.entered key f
    let c := s0.crew key
    Room c.tops → c.eff f ≠ 0 → t.toNat < (s0.party c.party).tiles →
    Runs (.tzero f t) s key (s0.addT key (.zero t.toNat) false)) ∧
  (∀ f t src s key, Issues (.tadd f t src) s key →
    let s0 := s.entered key f
    let c := s0.crew key
    Room c.tops → c.eff f ≠ 0 → t.toNat < (s0.party c.party).tiles → src.toNat < (s0.party c.party).tiles →
    Runs (.tadd f t src) s key (s0.addT key (.add t.toNat src.toNat) false)) ∧
  (∀ f a b t s key r, Issues (.tload f a b t) s key →
    let s0 := s.entered key f
    let c := s0.crew key
    let p := s0.party c.party
    let disp := s0.uni key c true b
    Room c.tops → c.eff f ≠ 0 → t.toNat < p.tiles → Tbl.get? p.shapes (s0.uni key c false a).toNat = some r →
    isPlane r false = true → planeFormat (shapeFmt r) = true → s0.operandFault key r disp.toNat false = none →
    Runs (.tload f a b t) s key (s0.addT key (.load (s0.uni key c false a).toNat r disp t.toNat) false)) ∧
  (∀ f a b t clr h s key r, Issues (.tdrain f a b t clr h) s key →
    let s0 := s.entered key f
    let c := s0.crew key
    let p := s0.party c.party
    let disp := s0.uni key c true b
    Room c.tops → c.eff f ≠ 0 → t.toNat < p.tiles → Tbl.get? p.shapes (s0.uni key c false a).toNat = some r →
    isPlane r true = true → shapeFmt r = fmtOF c.fmt → planeFormat (shapeFmt r) = true →
    s0.operandFault key r disp.toNat false = none →
    Runs (.tdrain f a b t clr h) s key (s0.addT key (.drain (s0.uni key c false a).toNat r disp t.toNat clr h) true)) ∧
  (∀ f a b e t h s key r l, Issues (.tdrainl f a b e t h) s key →
    let s0 := s.entered key f
    let c := s0.crew key
    let p := s0.party c.party
    Room c.tops → c.eff f ≠ 0 → t.toNat < p.tiles → Tbl.get? p.shapes (s0.uni key c false a).toNat = some r →
    Tbl.get? p.shapes (s0.uni key c false b).toNat = some l → isPlane r true = true → isMld l r = true →
    shapeFmt r = fmtOF c.fmt → shapeFmt r ≤ 4 → (shapeFmt l = 8 ∨ shapeFmt l = 9) → s0.operandFault key r 0 false = none →
    s0.sideFault key (shapeDst l) (auxBase l 0) (shapeExt l 0 * shapeExt l 1) = none →
    Runs (.tdrainl f a b e t h) s key (s0.addT key (.drainl (s0.uni key c false a).toNat r l
      (s0.uni key c true e) t.toNat h) true)) ∧
  (∀ f a b s key, Issues (.tlink f a b) s key →
    let s0 := s.entered key f
    let c := s0.crew key
    let id := (s0.uni key c false a).toNat
    let n := (s0.uni key c false b).toNat
    c.eff f ≠ 0 → id < 16 → 1 ≤ n → n ≤ 64 → c.tlink = none →
    Runs (.tlink f a b) s key (s0.modCrew key fun c => { c with tlink := some (id, n) })) ∧
  (∀ i f s key,
    ((∃ a b t, i = .tmma f a b t) ∨ (∃ a b e t, i = .tmmae f a b e t) ∨ (∃ a b t, i = .tmmag f a b t) ∨ (∃ t, i = .tzero f t) ∨
      (∃ t src, i = .tadd f t src) ∨ (∃ a b t, i = .tload f a b t) ∨ (∃ a b t clr h, i = .tdrain f a b t clr h) ∨
      (∃ a b e t h, i = .tdrainl f a b e t h) ∨ (∃ d a b k n xf wf z, i = .ommv f d a b k n xf wf z) ∨
      (∃ d a b e k n xf wf z, i = .ommve f d a b e k n xf wf z)) →
    Issues i s key → Room (s.crew key).tops → (s.crew key).eff f = 0 → Runs i s key ((s.entered key f).addT key .empty false))

/-- A tile operation is counted in T once, behind the others of the crew, with %FMT as it stands; it is armed when the
NaN or the infinity trap is on and traps are not ignored, and it takes the pending link; no register and no memory changes
(spec/09 R163, R172, R177). -/
def Obligations.TileCounted : Prop :=
  ∀ (s : State) (key : Nat) (k : TKind) (arms : Bool), ((Tbl.get? s.crews key).isSome || isAgentKey key) = true →
    let c := s.crew key
    let t := s.addT key k arms
    ∃ o : TPend, (t.crew key).tops = c.tops ++ [o] ∧ o.kind = k ∧ o.fmt = c.fmt ∧ o.pc = c.pc ∧ o.link = c.tlink ∧
      o.armed = (arms && (fmtNTE c.fmt || fmtITE c.fmt) && !c.ignoreTraps) ∧ o.done = false ∧ o.applied = false ∧
      o.fault = none ∧ o.order = (s.die (dieOfCore (coreOf key))).tileOrder ∧
      (t.die (dieOfCore (coreOf key))).tileOrder = (s.die (dieOfCore (coreOf key))).tileOrder + 1 ∧
      (t.crew key).tlink = none ∧ (t.crew key).pc = c.pc ∧ Crew.SameRegs c (t.crew key) ∧ t.mem = s.mem ∧
      t.parties = s.parties

/-- HISTRD reads a counter of a Hypsometer slot or, for bin 32, its base; HISTCLR clears the slot and sets its base, which
lies between -1074 and 1023 (spec/09 R171). OMMV and OMMVE read x and y, send a request for every octet with an effective
lane, and are counted in T (spec/09 R175, spec/22 R316-R318). -/
def Obligations.HypsometerOctet : Prop :=
  (∀ f d a b s key, Issues (.histrd f d a b) s key →
    let slot := (s.uni key (s.crew key) false a).toNat
    let bin := (s.uni key (s.crew key) false b).toNat
    let h := (s.core (coreOf key)).hypsSlot (64 * s.ctxOf key + slot)
    slot < 64 → bin ≤ 32 →
    Computes (.histrd f d a b) f false d s key (s.crew key) fun _ =>
      if bin = 32 then ((BitVec.ofInt 32 h.base).setWidth 64) else (Sparse.get h.bins bin).setWidth 64) ∧
  (∀ f a b s key, Issues (.histclr f a b) s key →
    let s0 := s.entered key f
    let c := s0.crew key
    let slot := (s0.uni key c false a).toNat
    let base := toSigned 32 (s0.uni key c false b).toNat
    c.eff f ≠ 0 → slot < 64 → -1074 ≤ base → base ≤ 1023 →
    Runs (.histclr f a b) s key (s0.modCore (coreOf key) fun x =>
      { x with hyps := Tbl.set x.hyps (64 * s0.ctxOf key + slot) { base := base, bins := [] } })) ∧
  (∀ i f dr ar b e k n xf wf z s key,
    ((i = .ommv f (.v dr) (.v ar) b k n xf wf z ∧ e = none) ∨
      (∃ o, i = .ommve f (.v dr) (.v ar) b o k n xf wf z ∧ e = some o)) → Issues i s key →
    let s0 := s.entered key f
    let c := s0.crew key
    let base := (s0.uni key c false b).toNat
    let kk := k.toNat + 1
    let nn := n.toNat + 1
    Room c.tops → c.eff f ≠ 0 →
    base + (kk * nn * WFmt.size wf + (if e.isSome then kk * nn else 0)) ≤ (s0.party c.party).weightLen →
    let octets := ((c.effLanes f).map fun l => l / 8).eraseDups
    let relief := e.map fun o => s0.uni key c true o
    let g : Group := { party := c.party, base := base, k := kk, n := nn, wf := wf, relief := relief.map fun x => (x, c.seed)
                       closes := s0.clk (coreOf key / 16) + 16, reqs := [] }
    let data : List OctetLane := (c.effLanes f).map fun l =>
      { lane := l, x := (upto ar.toNat (octetRegs k xf)).map fun r => c.v r l, y := (upto dr.toNat nn).map fun r => c.v r l }
    Runs i s key ((s0.addT key (.octet dr.toNat base kk nn xf wf z relief data octets [] []) true).modCore (coreOf key) fun x =>
      { x with groups := octets.foldl (fun gs o => joinGroup g gs (key, c.nextId, o)) x.groups }))

/-- TILE_OP_COMPLETE performs the oldest tile operation of a crew: TZERO clears the tile, TADD adds one tile to another with
one RTO rounding for each element, TLOAD rounds its elements into the tile, each unit charged, and waits where a die holds it, a
product whose bytes are
whole runs its k-steps (spec/09 R165-R168, R173, spec/15 R264, spec/18 R287); a held class keeps only a TLOAD or a drain. DRAIN_COMPLETE writes a drain's rows; a drain that has
completed at its scope counts in the Hypsometer when it has H (R169-R171, spec/20 R305). FUSION_WINDOW_CLOSE makes a group whose 16 cycles are over ready,
and FUSED_PASS serves the oldest group that is ready or whose cycles are over (spec/22 R318, R319). -/
def Obligations.TileEvents : Prop :=
  (∀ s crew o, s.relocking (dieOfCore (coreOf crew)) = false → s.nextTile crew = some o →
    (o.kind.isMem = true → s.classHeld crew = false) →
    let k := (s.crew crew).party
    (∀ t, o.kind = .zero t → Happens (.tileOpComplete crew) s
      ((s.modParty k fun p => (cells 128 128).foldl (fun p x => p.setTile t x.1 x.2 0) p).finishT crew o)) ∧
    (∀ t src, o.kind = .add t src → Happens (.tileOpComplete crew) s
      ((s.modParty k fun p => (cells 128 128).foldl (fun q x => q.setTile t x.1 x.2
        (BitVec.ofNat 64 (acc64.round { mode := .rto, cn := fmtCN o.fmt }
          (Sys2Proof.Machine.Num.add (acc64.decode (p.tile t x.1 x.2).toNat) (acc64.decode (p.tile src x.1 x.2).toNat))))) p).finishT crew o)) ∧
    (∀ sl r disp t, o.kind = .load sl r disp t →
      let x := s.runLoad crew o r disp t
      let after (why : Option Wait) (die : Nat) : State := (x.s.modCrew crew fun c => { c with ct := max c.ct x.w.ct }).modT crew o.id
        fun o => { o with rows := o.rows ++ x.rows, bits := o.bits ++ x.bits, ct := maxOpt o.ct x.w.wait, why := why, heldDie := die }
      (x.err = none → Happens (.tileOpComplete crew) s ((after none 4).finishT crew o)) ∧
      (∀ d, x.err = some (.held d) → Happens (.tileOpComplete crew) s (after (some .clock) d))) ∧
    (∀ a b e t q, o.kind = .mma a b e t q → s.localErr crew a false = none → s.localErr crew b false = none →
      (e.isSome = true → s.localErr crew b true = none) →
      Happens (.tileOpComplete crew) s (s.runProduct crew o a b e t q)) ∧
    (∀ sl r disp t clr h, o.kind = .drain sl r disp t clr h → o.applied = false →
      Happens (.drainComplete crew) s (s.runDrain crew o r disp t clr false fun _ _ x => x)) ∧
    (∀ sl r l e t h, o.kind = .drainl sl r l e t h → o.applied = false → s.localErr crew l true = none →
      Happens (.drainComplete crew) s (s.runDrain crew o r 0 t false false (s.drainScale crew l e))) ∧
    (∀ r h, ((∃ sl disp t clr, o.kind = .drain sl r disp t clr h) ∨ (∃ sl l e t, o.kind = .drainl sl r l e t h)) →
      o.applied = true → s.passed crew o.ct = true →
      Happens (.drainComplete crew) s ((if h then s.modCore (coreOf crew) fun x =>
        let i := 64 * s.ctxOf crew + shapeTid r % 64
        { x with hyps := Tbl.set x.hyps i ((x.hypsSlot i).count (o.bits.map (codeNum (shapeFmt r) false))) } else s).finishT crew o))) ∧
  (∀ s core idx g, s.relocking (dieOfCore core) = false → (s.core core).groups[idx]? = some g → g.closes ≤ s.clk (core / 16) →
    Happens (.fusionWindowClose core idx) s (s.modCore core fun x => { x with groups := x.groups.set idx { g with ready := true } })) ∧
  (∀ s core g, s.relocking (dieOfCore core) = false →
    (s.core core).groups.find? (fun g => g.ready || decide (g.closes ≤ s.clk (core / 16))) = some g →
    Happens (.fusedPass core) s (g.reqs.foldl (fun s r => s.serveOctet r.1 r.2.1 r.2.2)
      (s.modCore core fun x => { x with groups := x.groups.erase g })))

/-! ## Collectives, schedules, amplitude states and clocks -/

/-- TCOPYX that passes its checks is counted in C with its record, and a reduce is numbered on its communicator (spec/10
R180-R183). CSTART makes a queued handle, which names its schedule and the argument block, and answers its number, which follows from
the strand and the crew alone (spec/26 R346, spec/00 R4, log 68); CSTAT reads the state, the cause and the step count of a handle of its
own context, and 0 of every other number; how far a schedule that has not ended has come is free (R184, spec/12 R223, log 29). AMAP, AMAP.rd, AGATE, ASWAP and ANORM
that pass theirs are counted in C and numbered on their slot (R185-R188). A reduce whose match's timeout has passed takes the fault at its
issue (R183). Each of them is only counted when no lane is effective (spec/01 R12). -/
def Obligations.EngineIssue : Prop :=
  (∀ f a b e dd s key r m, Issues (.tcopyx f a b e dd) s key →
    let s0 := s.entered key f
    let c := s0.crew key
    let p := s0.party c.party
    let slot := (s0.uni key c false a).toNat
    let ofs := (s0.uni key c false e).toNat
    let disp := s0.uni key c true b
    let x : BitVec 256 := BitVec.ofNat 256 (fromBytesLE (Memory.readBytes p.scratch ofs 32))
    let plan := copyPlan r disp dd
    let rank := (s0.rankOf m (dieOfCore (coreOf key))).getD 0
    let nth := (Tbl.get? m.counts rank).getD 0
    Room c.cops → c.eff f ≠ 0 → Tbl.get? p.shapes slot = some r → ofs % 32 = 0 → ofs + 32 ≤ p.scratchLen →
    s0.collCheck key p.ctx r x = some m → s0.rowsFault key plan.src plan.srcLen plan.srcRows = none →
    s0.rowsFault key plan.dst plan.dstLen plan.dstRows = none → isViewAddr (extSig x).toNat = false → m.broken = false →
    (extOp x ≠ 0 → s0.collLate p.ctx m x nth false = false) →
    let m' := if extOp x ≠ 0 then { m with counts := Tbl.set m.counts rank (nth + 1) } else m
    let comms := Tbl.set s0.comms (commKey p.ctx (extComm x)) m'
    let late : CPend := { id := c.nextId, pc := c.pc, kind := .coll slot r disp dd x nth s0.meridian, done := true,
                          fault := some { cause := 0x0E, d1 := BitVec.ofNat 32 slot, eng := 5, d2 := 2 } }
    ((extOp x ≠ 0 → m.dead.contains (nth, rank) = false) →
      Runs (.tcopyx f a b e dd) s key ({ s0 with comms := comms }.modCrew key fun c =>
        c.addC (.coll slot r disp dd x nth s0.meridian))) ∧
    (extOp x ≠ 0 → m.dead.contains (nth, rank) = true →
      Runs (.tcopyx f a b e dd) s key (({ s0 with comms := comms }.modCrew key fun c =>
        { c with nextId := c.nextId + 1, cops := c.cops ++ [late] }).dropOps key))) ∧
  (∀ i f s key,
    ((∃ a b e dd, i = .tcopyx f a b e dd) ∨ (∃ d a b, i = .cstart f d a b) ∨ (∃ a b k nr, i = .agate f a b k nr) ∨
      (∃ a b, i = .amap f a b) ∨ (∃ a b, i = .amapRd f a b) ∨ (∃ a b q, i = .aswap f a b q) ∨ (∃ a b, i = .anorm f a b)) →
    Issues i s key → Room (s.crew key).cops → (s.crew key).eff f = 0 →
    Runs i s key ((s.entered key f).modCrew key fun c => c.addC .empty)) ∧
  (∀ f d a b s key, Issues (.cstart f d a b) s key →
    let s0 := s.entered key f
    let c := s0.crew key
    let id := (s0.uni key c false a).toNat
    Room c.cops → c.eff f ≠ 0 → (s0.sched (s0.ctxOf key) id).isSome = true → 16 ≤ id → (s0.uni key c true b).toNat % 64 = 0 →
    let h := s0.newHandle c
    let k := s0.handleKey
    Tbl.get? s0.handles k = none ∧ h ≠ 0 ∧ Runs (.cstart f d a b) s key ({ s0 with
      handles := Tbl.set s0.handles k
        { num := h, task := (s0.party c.party).task, crew := s0.maker c, key := key, ctx := s0.ctxOf key, sched := id
          block := s0.uni key c true b, state := 1 } }.modCrew key fun c => (c.addC (.sched k)).writeUni f d h)) ∧
  (∀ f d a s key, Issues (.cstat f d a) s key →
    let num := s.uni key (s.crew key) true a
    let word (h : Handle) : DWord := BitVec.ofNat 64 (h.state.toNat + h.cause.toNat * 2 ^ 8 + min h.steps 65535 * 2 ^ 16)
    (∀ k h, s.handleFor key num = some (k, h) → (k, h) ∈ s.handles ∧ h.num = num ∧ h.ctx = s.ctxOf key) ∧
    ((∀ h ∈ s.handles, h.2.num = num → h.2.ctx ≠ s.ctxOf key) → s.handleFor key num = none) ∧
    ((∀ k h, s.handleFor key num = some (k, h) → h.state ≠ 1 ∧ h.state ≠ 2) →
      Computes (.cstat f d a) f false d s key (s.crew key) fun _ =>
        match s.handleFor key num with
        | some (_, h) => word h
        | none => 0) ∧
    (∀ k h, s.handleFor key num = some (k, h) → h.state = 1 ∨ h.state = 2 → (s.crew key).eff f ≠ 0 →
      let s0 := s.entered key f
      ∃ h' : Handle, (h'.state = h.state ∨ h'.state = 2) ∧ h.steps ≤ h'.steps ∧ (h'.state = 1 → h'.steps = h.steps) ∧
        h' = { h with state := h'.state, steps := h'.steps } ∧
        Runs (.cstat f d a) s key ({ s0 with freeIx := s0.freeIx + 1, handles := Tbl.set s0.handles k h' }.modCrew key fun c =>
          c.writeDst false d (c.effLanes f) fun _ => word h'))) ∧
  (∀ i f a s key cmd, Issues i s key →
    let s0 := s.entered key f
    let c := s0.crew key
    let p := s0.party c.party
    let slot := (s0.uni key c false a).toNat
    let nq := mapNq (s0.issueMap key slot)
    Room c.cops → c.eff f ≠ 0 → slot < 8 →
    ((∃ b r, i = .amap f a b ∧ cmd = .map r ∧ r = BitVec.ofNat 512 (fromBytesLE (Memory.readBytes p.scratch (s0.uni key c false b).toNat 64)) ∧
        (s0.uni key c false b).toNat % 64 = 0 ∧ (s0.uni key c false b).toNat + 64 ≤ p.scratchLen ∧
        (mapNq r = 0 ∨ mapOk r (dieOfCore (coreOf key)) (s0.comm p.ctx (mapComm r)).isSome = true)) ∨
      (∃ b, i = .amapRd f a b ∧ cmd = .read (s0.uni key c false b).toNat ∧ (s0.uni key c false b).toNat % 64 = 0 ∧
        (s0.uni key c false b).toNat + 64 ≤ p.scratchLen) ∨
      s0.sliceFault key slot = none ∧ ((∃ b k nr g, i = .agate f a b k nr ∧
        cmd = .gate (k.val + 1) nr (s0.uni key c false b).toNat g ∧ nq ≠ 0 ∧
        (s0.uni key c false b).toNat + (32 + 8 * 4 ^ (k.val + 1)) ≤ p.scratchLen ∧
        g = Memory.readBytes p.scratch (s0.uni key c false b).toNat (32 + 8 * 4 ^ (k.val + 1)) ∧ gateOk g (k.val + 1) nq = true) ∨
      (∃ b q2, i = .aswap f a b q2 ∧ cmd = .swap (s0.uni key c false b).toNat q2.toNat ∧ (s0.uni key c false b).toNat < nq ∧
        q2.toNat < nq) ∨
      (∃ b q, i = .anorm f a b ∧ cmd = .norm (s0.uni key c false b).toNat (BitVec.ofNat 64 q) ∧ nq ≠ 0 ∧
        q = fromBytesLE (Memory.readBytes p.scratch (s0.uni key c false b).toNat 8) ∧ q < 2 ^ nq ∧ popcount q ≤ 8 ∧
        fromBytesLE (Memory.readBytes p.scratch ((s0.uni key c false b).toNat + 8) 8) = 0 ∧
        (s0.uni key c false b).toNat + (16 + 8 * 2 ^ popcount q) ≤ p.scratchLen))) →
    Runs i s key (s0.ampIssue key slot cmd))

/-- RDMER and RDCLK give the die's Meridian and its cycle count, with `.dr` once all counters are zero; CLK2MER gives the tick of
a cycle count by the newest frequency entry that is not later, or all ones (spec/10 R189, R190, spec/18 R283, R284). The count of a
die that does not relock is its newest entry's and F / 10 cycles for every tick since, rounded down (log 59), and never goes back
(spec/18 R284, R288); a die that has never locked counts nothing (log 1). -/
def Obligations.Clocks : Prop :=
  ((∀ f d dr s key, Issues (.rdmer f d dr) s key → (dr = true → (s.crew key).countersZero = true) →
    Computes (.rdmer f d dr) f true d s key (s.crew key) fun _ =>
      BitVec.ofNat 64 (s.meridian - (s.die (dieOfCore (coreOf key))).lag.val)) ∧
  (∀ f d dr s key, Issues (.rdclk f d dr) s key → (dr = true → (s.crew key).countersZero = true) →
    Computes (.rdclk f d dr) f true d s key (s.crew key) fun _ => BitVec.ofNat 64 (s.clk (dieOfCore (coreOf key)))) ∧
  (∀ f d a s key, Issues (.clk2mer f d a) s key →
    Computes (.clk2mer f d a) f true d s key (s.crew key) fun l =>
      let n := (s.operand key (s.crew key) true a l).toNat
      match (s.die (dieOfCore (coreOf key))).freqs.find? fun e => e.clk ≤ n with
      | some e => BitVec.ofNat 64 (e.mer + (n - e.clk) * 10 / e.freq)
      | none => BitVec.allOnes 64)) ∧
  (∀ (s : State) (d : Nat), (s.die d).relock = none →
    ((s.die d).freqs = [] → s.clk d = 0) ∧
    (∀ e rest, (s.die d).freqs = e :: rest → s.clk d = e.clk + (s.meridian - e.mer) * e.freq / 10) ∧
    (∀ e rest n, (s.die d).freqs = e :: rest → e.mer ≤ s.meridian → s.clk d ≤ ({ s with meridian := s.meridian + n }).clk d))

/-- Whether two operations are the same amplitude command for the same dies (spec/10 R186). -/
def SameCommand (o o' : CPend) : Prop :=
  ∃ sl c n i m p sl' c' n' i' m' p' d, o.kind = .amp sl c n i m d p ∧ o'.kind = .amp sl' c' n' i' m' d p' ∧ ampAgrees c c' = true

/-- Whether the match of an operation of a slot at a die has been given up: it was passed over there, or it is incomplete and the timeout
has passed since its earliest issue (spec/10 R186). -/
def ampPast (s : State) (die ctx slot : Nat) (o : CPend) : Bool :=
  match o.kind with
  | .amp _ cmd nth _ false dies np =>
    decide (nth < (s.amp die ctx slot).performed) || (s.amp die ctx slot).dead.contains nth ||
      s.ampLate ctx slot nth (s.ampRecord die ctx slot nth cmd) dies np
  | _ => false

/-- AMP_MATCH begins a command that every die of this package has issued, as its next one, when none relocks and their records agree, and
fails it everywhere when they do not. AMP_COMMAND_COMPLETE performs the oldest command of a slot at one die: its engine stops where it cannot read
its own slice, begins once the dies that it depends on are there and free, then works off its amplitudes in steps of its own, waits for a partner that is stopped, and the
command is over at the die once nothing is left. AMP_MATCH_TIMEOUT fails the oldest command of a slot that some die has not issued in
time, for every die that does not relock and for those that issue it later, and
AMP_EXCHANGE_TIMEOUT one whose exchange has moved no data (spec/10 R186, spec/24 R326-R334; which amplitudes an engine takes next, and
what comes from another package, are free values, logs 29 and 67; a gate record is read between issue and start, log 70). -/
def AmplitudeEvents : Prop :=
  ∀ s die ctx slot key o sl cmd nth iss mt dies np, s.ampHead die ctx slot = some (key, o) →
    o.kind = .amp sl cmd nth iss mt dies np →
    (∀ xs, s.relocking die = false → mt = false → s.ampCrews ctx slot nth dies = some xs →
      (∀ x ∈ xs, (s.amp x.1 ctx slot).performed = nth ∧ s.relocking x.1 = false) →
      let t := xs.foldl (fun s x => s.ampSample x.2.1 x.2.2) s
      let ys := (t.ampCrews ctx slot nth dies).getD xs
      (¬(∀ x ∈ ys, ∀ y ∈ ys, SameCommand x.2.2 y.2.2) →
        Happens (.ampMatch die ctx slot) s (t.ampEnd ctx slot ys (some 1) fun m _ => m)) ∧
      ((∀ x ∈ ys, ∀ y ∈ ys, SameCommand x.2.2 y.2.2) →
        Happens (.ampMatch die ctx slot) s (ys.foldl (fun s x => s.modC x.2.1 x.2.2.id fun o => { o with
          kind := match o.kind with | .amp a b c _ _ e f => .amp a b c t.meridian true e f | k => k }) t))) ∧
    (∀ t o' cmd', s.relocking die = false → (∀ k ∈ s.crews, ∀ o ∈ k.2.cops, o.applied = false) →
      t = (if o.todo.isSome || mt then s else s.ampSample key o) → t.copOf key o.id = some o' →
      o'.kind = .amp sl cmd' nth iss mt dies np →
      let m := (t.amp die ctx slot).map
      let v := dies.idxOf die
      let group := (ampGroup cmd' m v).filterMap fun w => dies[w]?.bind fun d => (t.ampOp d ctx slot nth).map fun y => (d, y.1, y.2)
      let shares := decide (1 < (ampGroup cmd' m v).length)
      let more (u : State) : State :=
        if (u.copOf key o.id).any fun o => o.todo.isSome then u.ampGo ctx slot nth cmd' m np dies (die, key, o') group else u
      t.engineRejected key = false → (mt = true ∨ dies.length ≤ 1 ∧ np = 0) → t.ampStopped shares (die, key, o') = false →
      (ampAbroad cmd' m np = true → t.ampCut ctx m np = true → Happens (.ampCommandComplete die ctx slot) s
        (t.ampEnd ctx slot [(die, key, o')] (some 4) fun m _ => m)) ∧
      ((ampAbroad cmd' m np = true → t.ampCut ctx m np = false) →
        (o'.todo.isSome = true → t.ampFree cmd' m np v dies group = false →
          Happens (.ampCommandComplete die ctx slot) s (t.ampWait (die, key, o'))) ∧
        (o'.todo.isSome = true → t.ampFree cmd' m np v dies group = true →
          let y := t.ampMove ctx slot cmd' m np v (t.ampRoom cmd' m v dies (die, key, o') group) (die, key, o')
          (∀ e, y.2 = some e → Happens (.ampCommandComplete die ctx slot) s (y.1.ampStop ctx slot [(die, key, o')] key e)) ∧
          (y.2 = none → Happens (.ampCommandComplete die ctx slot) s
            (if y.1.todoOf key o'.id ≠ [] then y.1
             else match cmd' with
               | .norm .. => y.1.ampSum ctx slot nth cmd' m np dies (die, key, o')
               | _ => y.1.ampEnd ctx slot [(die, key, o')] none fun m c => ampMap c m))) ∧
        (∀ e, o'.todo = none → t.ampOwnError ctx slot cmd' m (die, key, o') = some e →
          Happens (.ampCommandComplete die ctx slot) s (t.ampStop ctx slot [(die, key, o')] key e)) ∧
        (o'.todo = none → t.ampOwnError ctx slot cmd' m (die, key, o') = none → group.length = (ampGroup cmd' m v).length → (∀ y ∈ group, y.2.2.todo = none) →
          ((∃ y ∈ group, t.ampStopped shares y = true) ∨ ampAbroad cmd' m np = true ∧ t.portsBusy = true) →
          Happens (.ampCommandComplete die ctx slot) s (t.ampWait (die, key, o'))) ∧
        (o'.todo = none → t.ampOwnError ctx slot cmd' m (die, key, o') = none → group.length = (ampGroup cmd' m v).length → (∀ y ∈ group, y.2.2.todo = none) →
          (∀ y ∈ group, t.ampStopped shares y = false) → (ampAbroad cmd' m np = true → t.portsBusy = false) →
          (∀ u, (∀ ofs q, cmd' ≠ .norm ofs q) → t.ampRun ctx slot cmd' m np dies group = .ok (u, none) →
            Happens (.ampCommandComplete die ctx slot) s (more (u.ampEnd ctx slot group none fun m c => ampMap c m))) ∧
          (∀ u new, (∀ ofs q, cmd' ≠ .norm ofs q) → t.ampRun ctx slot cmd' m np dies group = .ok (u, some new) →
            Happens (.ampCommandComplete die ctx slot) s (more (u.ampShare new group))) ∧
          (∀ ofs q, cmd' = .norm ofs q → Happens (.ampCommandComplete die ctx slot) s
            (more (t.ampShare (group.map fun _ => (upto 0 (2 ^ mapNl m)).map fun _ => 0) group)))))) ∧
    (mt = false → dies.contains die = true → np = 0 → iss + 4294967296 < s.meridian →
      (dies.filterMap fun d => s.ampOp d ctx slot nth).length ≠ dies.length → ampPast s die ctx slot o = true) ∧
    (∀ k y sl' cmd' n i ds np', s.relocking die = false →
      (s.ampOpen die ctx slot).find? (fun y => ampPast s die ctx slot y.2) = some (k, y) → y.kind = .amp sl' cmd' n i false ds np' →
      (n < (s.amp die ctx slot).performed ∨ (s.amp die ctx slot).dead.contains n = true →
        Happens (.ampMatchTimeout die ctx slot) s (s.ampEnd ctx slot [(die, k, y)] (some 2) fun m _ => m)) ∧
      ((s.amp die ctx slot).performed ≤ n → (s.amp die ctx slot).dead.contains n = false →
        let xs := (ds.filterMap fun d => (s.ampOp d ctx slot n).map fun x => (d, x.1, x.2)).filter fun x => !s.relocking x.1
        Happens (.ampMatchTimeout die ctx slot) s (ds.foldl (fun t d =>
          if xs.any fun x => x.1 = d then t else t.ampOver d ctx slot n) (s.ampEnd ctx slot xs (some 2) fun m _ => m)))) ∧
    (mt = true → s.relocking die = false →
      let m := (s.amp die ctx slot).map
      let v := dies.idxOf die
      let group := (ampGroup cmd m v).filterMap fun w => dies[w]?.bind fun d => (s.ampOp d ctx slot nth).map fun y => (d, y.1, y.2)
      (ampPartners cmd m v ≠ [] ∨ ampAbroad cmd m np = true) → iss + s.ampTimeout ctx m np < s.meridian →
      (∀ y ∈ group, (ampPartners cmd m v).contains (dies.idxOf y.1) = true → ∀ a c n t b ds p, y.2.2.kind = .amp a c n t b ds p →
        t + s.ampTimeout ctx m np < s.meridian) →
      Happens (.ampExchangeTimeout die ctx slot false) s (s.ampEnd ctx slot [(die, key, o)] (some 2) fun m _ => m))

/-- COLLECTIVE_COMPLETE moves data of a crew's oldest collective, a put or a reduce; once it has completed it adds to its signal words,
after which it is over at its scope, unless a rank of another package fails it, which is free (log 29); one of a communicator that does
not exist is abandoned with cause 4 (spec/10 R182, R183). COLLECTIVE_TIMEOUT fails a crew's oldest collective whose timeout has passed: a
reduce whose match is incomplete, counted from the earliest issue, for every member that has issued it, but for one whose die relocks,
and for every member that issues it later, and a put that is late (R183, spec/26 R347). SCHEDULE_END makes a schedule's accesses and ends
it: its CSTART completes, or its fault is deferred; one that has written to another package ends later, and an access that has to wait
leaves it running (spec/26 R345-R347, R354; what a schedule does is an input, log 69). LINK_LOST abandons the oldest engine operation, or, where C
holds none, the oldest store, load, TLOAD or drain, with a machine check or a collective fault (spec/13 R239, spec/26 Table 26-4; the
order is the model's choice, log 60). The amplitude events go as AmplitudeEvents says (spec/10 R186, spec/24 R326-R334; logs 29, 67 and
70). -/
def Obligations.EngineEvents : Prop :=
  (∀ s crew o slot r disp dd x nth iss, s.relocking (dieOfCore (coreOf crew)) = false → s.classHeld crew = false →
    (s.crew crew).oldestC CKind.isColl = some o → o.kind = .coll slot r disp dd x nth iss →
    s.collHeld crew x = false → s.engineRejected crew = false →
    (∀ m, o.applied = false → s.comm (s.ctxOf crew) (extComm x) = some m → extOp x = 0 →
      Happens (.collectiveComplete crew) s (s.runPut crew o slot r disp dd x m)) ∧
    (∀ m, o.applied = false → s.comm (s.ctxOf crew) (extComm x) = some m → extOp x ≠ 0 →
      Happens (.collectiveComplete crew) s (s.runReduce crew slot r disp dd x nth m)) ∧
    (o.applied = true → s.passed crew o.ct = true → (copyAll r disp dd).length < o.rows →
      Happens (.collectiveComplete crew) s ((s.modC crew o.id fun o => { o with done := true }).dropOps crew)) ∧
    (∀ m, o.applied = true → s.passed crew o.ct = true → o.rows ≤ (copyAll r disp dd).length →
      s.comm (s.ctxOf crew) (extComm x) = some m →
      let z := if s.collFar m x then s.farCause else (0, s)
      (1 < z.1 → Happens (.collectiveComplete crew) s
        (z.2.failC crew o.id { cause := 0x0E, d1 := BitVec.ofNat 32 slot, eng := 5, d2 := z.1 })) ∧
      (¬1 < z.1 → extSig x = 0 →
        Happens (.collectiveComplete crew) s ((z.2.modC crew o.id fun o => { o with done := true }).dropOps crew)) ∧
      (∀ t w, ¬1 < z.1 → extSig x ≠ 0 → z.2.collSignal crew (scopeOf (shapeSc r)) (extSig x)
          (if extOp x = 0 then ((m.members x).filter fun k => (m.place k).1 = z.2.pkgId).length else 1) = .ok (t, w) →
        Happens (.collectiveComplete crew) s ((t.modC crew o.id fun o => { o with rows := o.rows + 1 }).applyC crew o.id w))) ∧
    (o.applied = false → s.comm (s.ctxOf crew) (extComm x) = none → Happens (.collectiveComplete crew) s
      (s.failC crew o.id { cause := 0x0E, d1 := BitVec.ofNat 32 slot, eng := 5, d2 := 4 }))) ∧
  (∀ s crew o slot r disp dd x nth iss m, s.relocking (dieOfCore (coreOf crew)) = false →
    o.kind = .coll slot r disp dd x nth iss → s.comm (s.ctxOf crew) (extComm x) = some m →
    let peers := s.collPeers (s.ctxOf crew) m x nth
    (o.done = false → o.applied = false → extOp x = 0 → iss + m.tmo < s.meridian → s.collTimedOut crew o = true) ∧
    (o.done = false → o.applied = false → extOp x ≠ 0 → peers.length < (m.members x).length →
      (∃ y ∈ peers, ∃ a b c d e n i, y.2.2.kind = .coll a b c d e n i ∧ i + m.tmo < s.meridian) → s.collTimedOut crew o = true) ∧
    ((s.crew crew).cops.find? (s.collTimedOut crew) = some o →
      let fails (s : State) : State := s.failC crew o.id { cause := 0x0E, d1 := BitVec.ofNat 32 slot, eng := 5, d2 := 2 }
      (extOp x = 0 → Happens (.collectiveTimeout crew) s (fails s)) ∧
      (extOp x ≠ 0 →
        let t := (peers.filter fun y => !s.relocking (m.place y.1).2).foldl (fun s y => s.failC y.2.1 y.2.2.id
          { cause := 0x0E, d1 := BitVec.ofNat 32 (match y.2.2.kind with | .coll sl .. => sl | _ => 0), eng := 5, d2 := 2 }) s
        let dead := m.dead ++ ((m.members x).map fun k => (nth, k)).filter fun k => !m.dead.contains k
        Happens (.collectiveTimeout crew) s
          (fails { t with comms := Tbl.set t.comms (commKey (s.ctxOf crew) (extComm x)) { m with dead := dead } })))) ∧
  (∀ (s : State) k cause steps acts h, Tbl.get? s.handles k = some h → (h.state = 1 ∨ h.state = 2) → cause.toNat ≤ 7 →
    s.ready.extractLsb' 96 16 ≠ 0 → s.relocking (dieOfCore (coreOf h.key)) = false →
    s.heldClasses.contains (s.taskClass (s.task h.task)) = false →
    let ends (t : State) (cause : BitVec 8) : State :=
      let done : Handle := { h with state := if cause = 0 then 3 else 4, cause := cause, steps := h.steps + steps }
      let u : State := { t with handles := Tbl.set t.handles k done }
      match t.schedOp k with
      | none => u
      | some (key, o) => if cause = 0 then ((u.endAsk key).modC key o.id fun o => { o with done := true }).dropOps key
          else u.failC key o.id { cause := 0x0E, d1 := BitVec.ofNat 32 h.sched, eng := 5, d2 := cause.setWidth 32 }
    (∀ t, s.schedActs k h false acts = .made t false → Happens (.scheduleEnd k cause steps acts) s (ends t cause)) ∧
    (∀ t, s.schedActs k h false acts = .made t true → Happens (.scheduleEnd k cause steps acts) s
      { t with handles := Tbl.set t.handles k { h with state := 2, steps := h.steps + steps } }) ∧
    (∀ t c, s.schedActs k h false acts = .ends t c → Happens (.scheduleEnd k cause steps acts) s (ends t c)) ∧
    (∀ t va e, s.schedActs k h false acts = .waits t va e → Happens (.scheduleEnd k cause steps acts) s
      (let u : State := { t with handles := Tbl.set t.handles k { h with state := 2 } }
       match u.schedOp k with
       | none => u
       | some (key, o) => u.modC key o.id fun o => { o with why := some e.why, heldDie := e.heldDie, todo := some [(va.toNat, 0)] }))) ∧
  (∀ (s : State) k (h : Handle) va b pa a, s.classSpent (s.taskClass (s.task h.task)) = false → s.lookup h.ctx va.toNat .write = .ok (pa, a) →
    s.cutOff pa = false → s.engineHeld h.key pa 1 (s.hubHeld a pa) = .ok () →
    ∃ t, s.schedActs k h false [(va, some b)] = .made t (s.foreign pa) ∧ t.mem.read pa = b) ∧
  (∀ s crew o, s.relocking (dieOfCore (coreOf crew)) = false → (s.crew crew).cops.find? (fun o => !o.done) = some o →
    Happens (.linkLost crew) s (match o.kind with
      | .coll slot .. => s.failC crew o.id { cause := 0x0E, d1 := BitVec.ofNat 32 slot, eng := 5, d2 := 4 }
      | .copy _ r disp dd _ => copyGivesUp crew o (copyAll r disp dd).length { s := s, rows := o.rows }
          { cause := 0x1F, sub := 2, eng := 1, addr := shapeLost r }
      | .amp slot _ nth .. => (s.ampOver (dieOfCore (coreOf crew)) (s.ctxOf crew) slot nth).failC crew o.id
          { cause := 0x1F, sub := 2, eng := 6, addr := (s.amp (dieOfCore (coreOf crew)) (s.ctxOf crew) slot).map.extractLsb' 0 64 }
      | .sched h => match Tbl.get? s.handles h with
        | some x => State.failC { s with handles := Tbl.set s.handles h { x with state := 4, cause := 4 } } crew o.id
            { cause := 0x0E, d1 := BitVec.ofNat 32 x.sched, eng := 5, d2 := 4 }
        | none => s.failC crew o.id { cause := 0x0E, d1 := 0, eng := 5, d2 := 4 }
      | .empty => s)) ∧
  (∀ s crew, s.relocking (dieOfCore (coreOf crew)) = false → (s.crew crew).cops.find? (fun o => !o.done) = none →
    (∀ m, (s.crew crew).stores.find? (fun m => !m.done) = some m → Happens (.linkLost crew) s (s.loseMem crew m.id)) ∧
    (∀ m, (s.crew crew).stores.find? (fun m => !m.done) = none → (s.crew crew).loads.find? (fun m => !m.done) = some m →
      Happens (.linkLost crew) s (s.loseMem crew m.id)) ∧
    (∀ o, (s.crew crew).stores.find? (fun m => !m.done) = none → (s.crew crew).loads.find? (fun m => !m.done) = none →
      (s.crew crew).headT = some o → o.kind.isMem = true → Happens (.linkLost crew) s (s.abandonT crew o
        { cause := 0x1F, sub := 2, eng := if o.kind.isDrain then 3 else 2, addr := o.kind.lostAt }))) ∧
  AmplitudeEvents

/-! ## Events of memory -/

/-- LOAD_BIND writes the registers of a load whose packets have been served and drops what is complete, an acquire once the
older operations have been performed; STORE_COMPLETE completes a store whose packets have been served once Meridian has passed its
time (spec/05 R98-R100, R113, spec/12 R218); one that no port reaches any more ends with a machine check that names its data and is
deferred once it has left its counter (spec/13 R239, spec/26 R353). ACCESS_RETRY makes the oldest rejected access of a core again (spec/13 R226); PAGE_WALK_DONE of one of the die's 64
walkers puts a translation into the TLBs of the die and of every core that missed it, or, where the page denies the access, keeps the
failure for the crew that asked (R224). A replacement sends dirty bytes home,
or drops clean ones before their lease ends, and a lease that has run out leaves nothing clean (spec/12 R205, R207). -/
def Obligations.MemoryEvents : Prop :=
  (∀ s crew idx m, s.relocking (dieOfCore (coreOf crew)) = false → (s.crew crew).loads[idx]? = some m → m.done = false →
    m.svc = 0 → m.req = none → (m.acq = true → (s.crew crew).olderPerformed m.id = true) →
    Happens (.loadBind crew idx) s (s.bindLoad crew m)) ∧
  (∀ s crew idx m, s.relocking (dieOfCore (coreOf crew)) = false → (s.crew crew).stores[idx]? = some m → m.done = false →
    m.svc = 0 → m.dsts = [] → (∀ t, m.ct = some t → t < s.mer (dieOfCore (coreOf crew))) →
    (m.ack = false ∨ m.cut = false ∧ s.unlinked = false →
      Happens (.storeComplete crew idx) s ((s.modCrew crew fun c => { c with stores := c.stores.map fun (x : MemPend) =>
        if x.id = m.id then { m with done := true } else x }).dropOps crew)) ∧
    (m.ack = true → m.cut = true ∨ s.unlinked = true → Happens (.storeComplete crew idx) s (s.modCrew crew fun c =>
      let lose (l : List MemPend) : List MemPend := l.map fun (x : MemPend) =>
        if x.id = m.id then { x with done := true, fault := some { cause := 0x1F, sub := 2, addr := x.va } } else x
      Crew.dropOps { c with loads := lose c.loads, stores := lose c.stores }))) ∧
  (∀ s svc idx, s.relocking (svcDie svc) = false → idx < (s.svc svc).waiters.length →
    Happens (.waitAtHomeSatisfied svc idx) s (s.notify svc)) ∧
  (∀ s core k rest, s.relocking (dieOfCore core) = false → (s.core core).rejected = k :: rest → (Tbl.get? s.crews k).isSome = true →
    Happens (.accessRetry core) s ((s.modCore core fun c => { c with rejected := rest }).modCrew k fun c => { c with wait := none })) ∧
  (∀ s die idx w e, s.relocking die = false → (s.die die).walks[idx]? = some w → w.failed = none →
    s.pageWalk w.ctx w.va = .ok e → (((s.die die).walks.take idx).filter fun y => y.failed.isNone).length < 64 →
    (e.denies w.need = none →
      Happens (.pageWalkDone die idx) s (w.cores.foldl (fun t k => t.modCore k fun c => { c with tlb := tlbInsert c.tlb 256 e })
        (s.setDie die { s.die die with walks := (s.die die).walks.eraseIdx idx, tlb := tlbInsert (s.die die).tlb 32768 e }))) ∧
    (∀ sub, e.denies w.need = some sub → (Tbl.get? s.crews (askedFor w.crew)).isSome = true →
      Happens (.pageWalkDone die idx) s
        (s.setDie die { s.die die with walks := (s.die die).walks.set idx { w with failed := some (sub, e.hm) } }))) ∧
  (∀ s die line, s.relocking die = false →
    ((s.l2 die line).dirtyMask = 0 → Happens (.replacementWriteback die line) s (s.setL2 die line {})) ∧
    ((s.l2 die line).dirtyMask ≠ 0 → s.wayHeld (16 * die) (s.l2 die line).home = none →
      let r := s.writeBack die line
      Happens (.replacementWriteback die line) s (((upto 0 16).foldl (fun t i =>
        if (s.l2 die line).writers.getLsbD i then t.modCore (16 * die + i) fun c => { c with replCT := max c.replCT r.2 } else t)
          r.1).setL2 die line {}))) ∧
  (∀ s die line exp l, (s.l2 die line).clean = some (exp, l) → exp ≤ s.mer die + 2 →
    Happens (.leaseExpiry die line) s (s.setL2 die line { s.l2 die line with clean := none }))

/-- SERVICE_CREW_APPLY on a queue of one packet with one lane operation on reachable memory: the element takes the new value, every other byte
of memory is as before, and the packet has left the queue (spec/06 R116, R118, R120, R121). -/
def Obligations.ServiceCrewApplies : Prop :=
  ∀ (s : State) (svc : Nat) (p : Packet) (o : LaneOp), s.relocking (svcDie svc) = false → (s.svc svc).queue = [p] → s.svcBusy svc p.crew = false →
    p.ops = [o] → s.badAt o.pa o.bytes = false → s.cutOff o.pa = false →
    ∃ t, exec (.serviceCrewApply svc) s = .next t ∧
      t.mem.readBytes o.pa o.bytes = toBytesLE o.bytes (MemOp.apply o.op (8 * o.bytes) (fromBytesLE (s.mem.readBytes o.pa o.bytes))
        o.b.toNat o.e.toNat) ∧
      (∀ x, x < o.pa ∨ o.pa + o.bytes ≤ x → t.mem.read x = s.mem.read x) ∧ (t.svc svc).queue = []

/-! ## Privileged instructions and services -/

/-- The privileged instructions of a firmware agent: each gives a status code, 0 with its effect (spec/10 R191-R195): CTXSAVE and
CTXLOAD (where the task and the party stand in the area, at bytes 3,840 and 3,848, is the model's choice, log 30), TLBINV, FRET,
SIGRAISE, with a machine check where no port reaches its word (spec/26 R353), BUDSET, WAKESET, SLEEP with a pending source; and FWCALL
of a number that names no service gives all ones in s0. A crew of a task that is to end resumes no more: FRET gives status 1 (spec/13
R238). -/
def Obligations.Privileged : Prop :=
  (∀ f d a b s key p, Issues (.ctxsave f d a b) s key →
    let s0 := s.entered key f
    let c := s0.crew key
    let slot := (s0.uni key c false a).toNat
    let pa := (s0.uni key c true b).toNat
    let pk := 16 * coreOf key + slot
    c.eff f ≠ 0 → slot < 16 → pa % 4096 = 0 → pa + 4096 ≤ 2 ^ 60 → s0.exists? pa = true → Tbl.get? s0.parties pk = some p →
    (p.stopped = false → Runs (.ctxsave f d a b) s key (s0.status key f d 1)) ∧
    (p.stopped = true → (∀ k ∈ p.crews, (s0.crew k).drained = true) →
      s0.cutOff pa = false → s0.backHeldBy (coreOf key) = none → s0.areaHeld (coreOf key) pa (s0.areaBytes pk) = none →
      Runs (.ctxsave f d a b) s key ((s0.saveParty pk pa).status key f d 0))) ∧
  (∀ f d a b s key r, Issues (.ctxload f d a b) s key →
    let s0 := s.entered key f
    let c := s0.crew key
    let slot := (s0.uni key c false a).toNat
    let pa := (s0.uni key c true b).toNat
    let pk := 16 * coreOf key + slot
    let ti := s0.mem.field (pa + 3840) 8
    let num := s0.mem.field (pa + 3848) 8
    let t := s0.task ti
    let shape := s0.mem.field (pa + 8) 8
    let crews := areaCrews s0.mem pa
    let scratch := shape / 2 ^ 16 % 2 ^ 16 * 128
    let weight := shape / 2 ^ 32 % 2 ^ 16 * 128
    let tiles := shape / 2 ^ 7 % 64
    let m := areaMap (crews.map (·.2)) scratch weight tiles
    let kept := Tbl.get? t.away num
    let cs := ((crews.zip (regBases m.regs (crews.map (·.2)))).zip (upto 0 crews.length)).map fun x =>
      let c := ((kept.map (·.2)).bind fun l => l[x.2]?).getD (t.freshCrew num x.2)
      Crew.ofArea { c with role := some x.1.1.1, lanes := x.1.1.2.1, regc := x.1.1.2.2 } s0.mem (pa + m.crews + 8192 * x.2) (pa + x.1.2)
    let p := ((kept.map (·.1)).getD (t.freshParty ti num)).ofArea s0.mem pa m scratch weight tiles
    c.eff f ≠ 0 → slot < 16 → pa % 4096 = 0 → pa + 4096 ≤ 2 ^ 60 → s0.exists? pa = true → Tbl.get? s0.parties pk = none →
    s0.mem.field pa 4 = 1 → t.status = .resident → t.faulted = none → s0.mem.field (pa + 4) 4 = t.ctx → num ≤ shape % 2 ^ 3 →
    s0.partyNumbered ti num = none → s0.unreadable pa m.total = false → s0.areaHeld (coreOf key) pa m.total = none → s0.roomAt (coreOf key) pk (p.demand cs) = some r →
    Runs (.ctxload f d a b) s key (((s0.restoreParty ti (coreOf key) r p cs true).modTask ti
      fun t => { t with away := Tbl.del t.away num }).status key f d 0)) ∧
  (∀ f d a b sc kind s key, Issues (.tlbinv f d a b sc kind) s key →
    let s0 := s.entered key f
    let c := s0.crew key
    let ctx := (s0.uni key c false a).toNat
    let core := coreOf key
    let kept (e : TlbEntry) : Bool := match kind with
      | .ctx => e.ctx != ctx | .page => !e.covers ctx (s0.uni key c true b).toNat | _ => false
    c.eff f ≠ 0 → sc ≠ .bad → kind ≠ .bad → (kind ≠ .all → ctx < 16) → (sc = .pkg → ∀ d, d < 4 → s0.wayHeld core d = none) →
    (∀ x ∈ s0.dies, ∀ w ∈ x.2.walks, w.failed.isSome = true) →
    ∃ t : State, Runs (.tlbinv f d a b sc kind) s key (t.status key f d 0) ∧
      (∀ k, (t.core k).tlb = if sc = .pkg ∨ (sc = .die ∧ k / 16 = core / 16) ∨ k = core then (s0.core k).tlb.filter kept
        else (s0.core k).tlb) ∧
      (∀ k, (t.die k).tlb = if sc = .pkg ∨ (sc = .die ∧ k = core / 16) then (s0.die k).tlb.filter kept else (s0.die k).tlb) ∧
      t.mem = s0.mem ∧ t.crews = s0.crews ∧ t.parties = s0.parties) ∧
  (∀ f d a b how s key, Issues (.fret f d a b how) s key →
    let s0 := s.entered key f
    let c := s0.crew key
    let slot := (s0.uni key c false a).toNat
    let pc := s0.uni key c true b
    let k := 128 * coreOf key + slot
    c.eff f ≠ 0 → slot < 64 → (s0.crew k).role.isSome = true → (s0.crew k).report.isSome = true →
    (how = .pc → pc.toNat % 4 = 0) → (s0.crew k).refuses how pc = false →
    (how ≠ .endTask → (s0.taskOf k).faulted = none → Runs (.fret f d a b how) s key ((s0.resumeCrew k how pc).status key f d 0)) ∧
    (how ≠ .endTask → (s0.taskOf k).faulted.isSome = true → Runs (.fret f d a b how) s key (s0.status key f d 1)) ∧
    (∀ r, how = .endTask → (s0.crew k).report = some r → Runs (.fret f d a b how) s key
      ((s0.doomCrew k r (s0.tasks.any fun t => t.2.handlerOf = some (k, r))).status key f d 0))) ∧
  (∀ f d a b e sc s key y, Issues (.sigraise f d a b e sc) s key →
    let s0 := s.entered key f
    let c := s0.crew key
    let va := (s0.uni key c true a).toNat
    let ctx := (s0.uni key c false e).toNat
    c.eff f ≠ 0 → ctx < 16 → va % 8 = 0 → s0.lookup ctx va .write = .ok y →
    (s0.cutOff y.1 = true → NoRegionLoad s key → Traps (.sigraise f d a b e sc) s key { cause := 0x1F, sub := 2, addr := s0.uni key c true a }) ∧
    (∀ u pa x, s0.cutOff y.1 = false → s0.fence key .rel (SigScope.scope sc) = .pass u → u.lookup ctx va .write = .ok (pa, x) →
      u.signalHeld key x pa = none →
      Runs (.sigraise f d a b e sc) s key ((u.signalFrom key x pa (s0.uni key c true b)).1.status key f d 0))) ∧
  (∀ f d a b kind s key, Issues (.budset f d a b kind) s key →
    let s0 := s.entered key f
    let c := s0.crew key
    let k := 4 * (s0.uni key c false a).toNat + Machine.BudKind.code kind
    c.eff f ≠ 0 → (s0.uni key c false a).toNat < 16 →
    let x := { (Tbl.get? s0.budgets k).getD {} with next := some (s0.uni key c true b) }
    Runs (.budset f d a b kind) s key ({ s0 with budgets := Tbl.set s0.budgets k x }.status key f d 0)) ∧
  (∀ f d a b s key, Issues (.wakeset f d a b) s key →
    let s0 := s.entered key f
    let c := s0.crew key
    let mask := (s0.uni key c false a).toNat
    c.eff f ≠ 0 → mask < 512 →
    Runs (.wakeset f d a b) s key ((s0.modCore (coreOf key) fun x =>
      x.setAlarm key { x.alarm key with armed := BitVec.ofNat 9 mask, deadline := (s0.uni key c true b).toNat }).status key f d 0)) ∧
  (∀ f d s key code, Issues (.sleep f d) s key →
    let s0 := s.entered key f
    let x := (s0.core (coreOf key)).alarm key
    (s0.crew key).eff f ≠ 0 → 1 ≤ code → code ≤ 8 → (x.pending &&& x.armed).getLsbD code = true →
    (∀ j, 1 ≤ j → j < code → (x.pending &&& x.armed).getLsbD j = false) →
    Runs (.sleep f d) s key ((s0.modCore (coreOf key) fun y => { y.setAlarm key
      { x with pending := x.pending &&& ~~~((1 : BitVec 9) <<< code) } with wake := BitVec.ofNat 32 code }).status key f d code)) ∧
  (∀ f imm s key, Issues (.fwcall f imm) s key →
    let s0 := s.entered key f
    (s0.crew key).eff f ≠ 0 → Runs (.fwcall f imm) s key (s0.modCrew key fun c => c.setS 0 0xFFFFFFFF))

/-- The return from a fault or trap of a crew without stopped engine operations: the crew holds no report and is halted no
more, and its party goes on with every crew that holds none; it stands at the given PC, at its own PC with the traps of its
next instruction ignored, or at its region's entry with the region's index restored; no register and no memory changes, and the
wrap flag stays (spec/10 R193, spec/13 R230, R234, spec/03 R58). -/
def Obligations.FaultReturn : Prop :=
  ∀ (s : State) (key : Nat) (how : FretHow) (pc : DWord), (Tbl.get? s.crews key).isSome = true → (s.crew key).role.isSome = true →
    (s.crew key).cops = [] → (s.crew key).tops = [] →
    let t := s.resumeCrew key how pc
    (t.crew key).report = none ∧ (t.crew key).halted = false ∧ (t.crew key).wait = none ∧ Crew.SameRegs (s.crew key) (t.crew key) ∧
      t.mem = s.mem ∧ (t.party (s.crew key).party).stopped = false ∧
      (∀ k, (s.crew k).party = (s.crew key).party → (s.crew k).role.isSome = true → (s.crew k).report = none →
        (t.crew k).halted = false) ∧ (t.crew key).wrapped = (s.crew key).wrapped ∧ (∀ x ∈ (t.core (coreOf key)).reports, x.1 ≠ key) ∧ (∀ x ∈ (t.core (coreOf key)).stallers, x ≠ key) ∧
      (how = .pc → (t.crew key).pc = pc ∧ (t.crew key).ignoreTraps = false ∧ (t.crew key).dix = (s.crew key).dix) ∧
      (how = .retry → (t.crew key).pc = (s.crew key).pc ∧ (t.crew key).ignoreTraps = true ∧ (t.crew key).dix = (s.crew key).dix) ∧
      (how = .region → (t.crew key).pc = (s.crew key).epc ∧ (t.crew key).dix = (s.crew key).epcDix ∧
        (t.crew key).inRegion = true)

/-- The services of the hub firmware give status 0 in s0 with their effect, in the cases that their rules accept (spec/10 R194,
spec/18 R285, spec/26 R343-R346, spec/27 R367-R369): COMMSET, COMMCLR, SCHEDSET, SCHEDCLR, TELRD, FSTEP, REPINV and ATTEST.
TELRD answers the package's own counts and stamps as they stand, after the corrections that have come where it tells of those, and
what it measures outside as a free value (log 62). Which digest a schedule's signature and an attestation are taken of (log 20), and
that REPINV finds a page whose V is cleared (log 23), are the model's reading. -/
def Obligations.Services : Prop :=
  (∀ f s key, Issues (.commset f) s key →
    let s0 := s.entered key f
    let c := s0.crew key
    let pa := c.argPair 2
    let h := s0.mem.field pa 8
    let x := h / 2 ^ 16 % 2 ^ 16
    let y := h / 2 ^ 32 % 2 ^ 16
    let z := h / 2 ^ 48
    let ranks := (commRanks s0.mem pa (x * y * z)).map fun r => (r.1, r.2.1)
    c.eff f ≠ 0 → c.arg 0 < 16 → pa % 64 = 0 → pa + 64 + 4 * (x * y * z) ≤ 2 ^ 60 → s0.unreadable pa (64 + 4 * (x * y * z)) = false →
    commOk s0 (c.arg 0) pa = true → s0.comm (c.arg 0) (h % 2 ^ 8) = none → (∀ r ∈ ranks, r.1 = s0.pkgId) →
    let m : Comm := { x := x, y := y, z := z, tmo := s0.mem.field (pa + 8) 8, ranks := ranks }
    Runs (.commset f) s key ({ s0 with comms := Tbl.set s0.comms (64 * c.arg 0 + h % 2 ^ 8) m }.modCrew key
      fun c => c.setS 0 0)) ∧
  (∀ f s key m, Issues (.commclr f) s key →
    let s0 := s.entered key f
    let c := s0.crew key
    c.eff f ≠ 0 → c.arg 0 < 16 → c.arg 1 < 64 → s0.comm (c.arg 0) (c.arg 1) = some m →
    (s0.collBusy (c.arg 0) (c.arg 1) = false → Runs (.commclr f) s key
      ({ s0 with comms := Tbl.del s0.comms (64 * c.arg 0 + c.arg 1) }.modCrew key fun c => c.setS 0 0)) ∧
    (s0.collBusy (c.arg 0) (c.arg 1) = true → Runs (.commclr f) s key (s0.modCrew key fun c => c.setS 0 5))) ∧
  (∀ f s key, Issues (.schedset f) s key →
    let s0 := s.entered key f
    let c := s0.crew key
    let pa := c.argPair 2
    let size := s0.mem.field (pa + 4) 4
    c.eff f ≠ 0 → c.arg 0 < 16 → 16 ≤ c.arg 1 → c.arg 1 < 256 → pa + 64 + size + 132 ≤ 2 ^ 60 → s0.mem.field pa 4 = 1 → 0 < size →
    s0.mem.field (pa + 8) 8 < size → s0.mem.field (pa + 16) 48 = 0 → 64 + size + 132 ≤ 262144 →
    s0.unreadable pa (64 + size + 132) = false → Config.scheduleSigned ((s0.firmware.running.map (·.hash)).getD 0) (sha512 (s0.mem.readBytes pa (64 + size))) (s0.mem.readBytes (pa + 64 + size) 132) = true →
    let x : Schedule := { entry := s0.mem.field (pa + 8) 8, code := s0.mem.readBytes (pa + 64) size }
    Runs (.schedset f) s key ({ s0 with scheds := Tbl.set s0.scheds (256 * c.arg 0 + c.arg 1) x }.modCrew key fun c => c.setS 0 0)) ∧
  (∀ f s key, Issues (.schedclr f) s key →
    let s0 := s.entered key f
    let c := s0.crew key
    c.eff f ≠ 0 → c.arg 0 < 16 → 16 ≤ c.arg 1 → c.arg 1 < 256 → (s0.sched (c.arg 0) (c.arg 1)).isSome = true →
    (∀ h ∈ s0.handles, h.2.ctx = c.arg 0 → h.2.sched = c.arg 1 → h.2.state ≠ 1 ∧ h.2.state ≠ 2) →
    Runs (.schedclr f) s key ({ s0 with scheds := Tbl.del s0.scheds (256 * c.arg 0 + c.arg 1) }.modCrew key
      fun c => c.setS 0 0)) ∧
  (∀ f s key v t, Issues (.telrd f) s key →
    let s0 := s.entered key f
    let c := s0.crew key
    let late : Bool := (1056 ≤ c.arg 1 && c.arg 1 < 1068) || (2047 ≤ c.arg 1 && c.arg 1 < 2560)
    c.eff f ≠ 0 → s0.telemetryRead (c.arg 1) = some (v, t) →
    (∀ w, s0.telemetryEntry (c.arg 1) = some w →
      (late = false → v = w ∧ t = s0) ∧ (late = true → t = s0.corrected ∧ t.telemetryEntry (c.arg 1) = some v)) ∧
    Runs (.telrd f) s key ((t.modCrew key fun c => c.setSPair 2 v).modCrew key fun c => c.setS 0 0)) ∧
  (∀ f s key, Issues (.fstep f) s key →
    let s0 := s.entered key f
    let c := s0.crew key
    c.eff f ≠ 0 → c.arg 1 < 4 → 8 ≤ c.arg 2 → c.arg 2 ≤ 18 →
    Runs (.fstep f) s key ((s0.modDie (c.arg 1) fun x => { x with wantF := some (c.arg 2), capFrom := none }).modCrew key fun c => c.setS 0 0)) ∧
  (∀ f s key pa size, Issues (.repinv f) s key →
    let s0 := s.entered key f
    let c := s0.crew key
    c.eff f ≠ 0 → c.arg 1 < 16 → c.argPair 2 < 2 ^ 56 →
    rawPage s0 (c.argPair 2) 5 0 ((s0.ctxEntry (c.arg 1)).extractLsb' 64 64).toNat = .ok (pa, size) → (∀ d, d < 4 → s0.wayHeld (coreOf key) d = none) →
    let drop (x : Die) : Die := { x with replicas := x.replicas.filter fun y => !(pa / 128 ≤ y.1 && y.1 < (pa + size) / 128) }
    Runs (.repinv f) s key ({ s0 with dies := s0.dies.map fun (x : Nat × Die) => (x.1, drop x.2) }.modCrew key fun c => c.setS 0 0)) ∧
  (∀ f s key img, Issues (.attest f) s key →
    let s0 := s.entered key f
    let c := s0.crew key
    let buf := c.argPair 2
    let nonce := c.argPair 4
    c.eff f ≠ 0 → c.arg 1 < 16 → buf + 320 ≤ 2 ^ 60 → nonce + 64 ≤ 2 ^ 60 → s0.unreadable nonce 64 = false → s0.cutOff buf = false →
    s0.firmware.running = some img →
    let head := s0.attested (s0.mem.readBytes nonce 64) img
    let mem := ((s0.mem.clear buf 320).writeBytes buf head).writeBytes (buf + 152) ((Config.attestSignature (sha512 (head.take 152))).take 132)
    Runs (.attest f) s key (({ s0 with mem := mem }.clearBad buf 320).modCrew key fun c => c.setS 0 0))

/-! ## Faults and pre-emption -/

/-- What the firmware agent does with the oldest report of a user crew of its core: the crew of a mapped page resumes, the host is asked for a
host-managed one and its answer resumes the crew or hands the report on (spec/13 R231); a report that goes to a handler stands
in the fault ring and makes a handler task, which is placed (R236); the verdict resumes the crew or ends its task (R236); a
report that nobody handles ends its task (R237); a party to be pre-empted stops, its waits at service crews are cancelled and its core's open groups are ready (R240). A core that fails without its agent's
fault: its tasks end with a machine check, its agents and its caches are as after reset, and its die's spare takes its number,
or it is retired and its ready bit clears (spec/13 R239, spec/27 R364; the code in the error log is the model's choice,
log 33). -/
def Obligations.FaultEvents : Prop :=
  ((∀ s core key r, s.relocking (dieOfCore core) = false → s.headReport core = some (key, r) →
    (s.service core key r = Service.mapped → Happens (.faultService core) s (s.resumeServiced key r)) ∧
    (s.service core key r = Service.ask → (s.core core).hostAsk = none → s.asking core = false → s.ready.getLsbD 112 = true → Happens (.faultService core) s
      ({ s with outbox := s.outbox ++ [HostMsg.pageAsk core (s.ctxOf key) r.addr] }.modCore core
        fun x => { x with hostAsk := some (key, false) })) ∧
    (∀ u va, s.service core key r = Service.hand → s.handleable key r = true → s.ringPut (s.ctxOf key) r = .wrote u va →
      Happens (.handlerTaskStart core) s ((u.makeHandler core key r va).placeHandler core)) ∧
    (s.service core key r = Service.hand → s.handleable key r = true → (s.core core).handlers = [] →
      r.tick + 1000000000 ≤ s.meridian → Happens (.handlerPlaceTimeout core) s (s.doomCrew key r false)) ∧
    (s.service core key r = Service.hand → s.handleable key r = false → Happens (.taskFaultEnd core) s
      (((s.doomCrew key r false).tasks.filter fun t =>
          t.2.faulted.isSome && (t.2.parties.isEmpty || t.2.parties.any fun p => p / 16 = core)).foldl
        (fun s t => s.finishDoomed t.1) (s.doomCrew key r false)))) ∧
  (∀ s core granted key, s.ready.getLsbD 112 = true → s.relocking (dieOfCore core) = false → (s.core core).hostAsk = some (key, false) →
    (granted = false → Happens (.hostPageReply core granted) s (s.modCore core fun x => { x with hostAsk := some (key, true) })) ∧
    (∀ r, granted = true → (s.core core).reports.find? (fun y => y.1 = key) = some (key, r) →
      let t := s.modCore core fun x => { x with hostAsk := none }
      t.service core key r = Service.mapped → Happens (.hostPageReply core granted) s (t.resumeServiced key r))) ∧
  (∀ s core h rest key r, s.relocking (dieOfCore core) = false → (s.core core).handlers = h :: rest →
    (s.task h).handlerOf = some (key, r) → r.tick + 1000000000 ≤ s.meridian →
    Happens (.handlerPlaceTimeout core) s (({ s with tasks := Tbl.del s.tasks h }.modCore core
      fun x => { x with handlers := rest }).doomCrew key r true)) ∧
  (∀ s task key r pa a, s.relocking (s.task task).die = false → (s.task task).handlerOf = some (key, r) → (s.task task).status = .complete →
    (s.partyOf key).task ≠ noTask → (s.crew key).report = some r →
    let h := s.task task
    s.lookup h.ctx ((h.args.getD 0 0).toNat + (h.args.getD 1 0).toNat * 2 ^ 32 + 56) .read = .ok (pa, a) →
    s.cutOff pa = false → s.verdictHeld h.die a pa = false →
    let t := { s with tasks := Tbl.del s.tasks task }
    (t.taskOf key).faulted = none →
    let go (how : FretHow) (pc : DWord) : State := if (s.crew key).refuses how pc then t.doomCrew key r true else t.resumeCrew key how pc
    let v := (s.agentByte h.die pa).toNat
    (v = 0 → Happens (.handlerVerdict task) s (go .pc ((s.crew key).pc + 12))) ∧
    (v = 1 → Happens (.handlerVerdict task) s (go .retry 0)) ∧
    (v = 2 → Happens (.handlerVerdict task) s (go .region 0)) ∧
    (2 < v → Happens (.handlerVerdict task) s (t.doomCrew key r true))) ∧
  (∀ s party p, s.relocking (dieOfCore (party / 16)) = false → Tbl.get? s.parties party = some p →
    let u := ((s.haltParty party).signalWake (party / 16) 7).modParty party fun p => { p with preempted := true }
    let t := p.crews.foldl (fun t k => (t.discardStall k).cancelWait k) u
    Happens (.preemptRequest party) s (t.modCore (party / 16) fun x =>
      { x with groups := x.groups.map fun (g : Group) => { g with ready := true } }))) ∧
  (∀ (s : State) (core : Nat), (∀ k, coreOf k = core → isAgentKey k = true → (s.crew k).report = none) →
    let t := s.coreTasksEnd core 1
    let gone (k : Nat) : Bool := coreOf k = core && isAgentKey k
    let u : State := { t with
      crews := t.crews.filter fun x => !gone x.1
      svcs := t.svcs.map fun (x : Nat × Svc) => (x.1,
        { x.2 with waiters := x.2.waiters.filter fun w => !gone w.crew
                   queue := x.2.queue.map fun (p : Packet) => if gone p.crew then { p with live := false } else p
                   replies := x.2.replies.filter fun y => !gone y.packet.crew })
      cur := match t.cur with | some k => if coreOf k = core then none else some k | none => none }
    let v := u.modCore core fun x =>
      { x with l1 := [], icache := [], tlb := [], groups := [], wake := 0, fw := {}, sc := {}, source := none, gated := false }
    ((v.die (dieOfCore core)).spareUsed = false → Happens (.coreFailure core) s
      ((v.modDie (dieOfCore core) fun x => { x with spareUsed := true }).logError (logSpare core))) ∧
    ((v.die (dieOfCore core)).spareUsed = true → Happens (.coreFailure core) s
      (((v.modCore core fun x => { x with retired := true }).clearReady core).logError (logRetire core))))

/-! ## Tasks and launches -/

/-- The life of tasks and launches: a resident task whose crews have ended and whose children are over releases and is
complete (spec/08 R147); a JOIN that waits beyond 4,096 cycles stops its task and saves it once it is drained, of one whose children end
meanwhile each stopped party without a report goes on where it is, and a suspended task whose children are over is placed again (R146); a launch whose roots are over sets its completion word, and one whose
roots have all triggered sets it early, and closes only after (spec/15 R261, R262); a dependence that a value has satisfied releases its launch, or cancels it
when the value's top bit is set (R253); Compass deals
batches (R254); a core with room takes its waiting task, the newest task of its deque, or a root (R255; what does not fit stays where it
is, log 46, and the waiting task goes first, log 47); a pipe without an owner is granted (R259). -/
def Obligations.SchedulerEvents : Prop :=
  (∀ s task, s.relocking (s.task task).die = false → (s.task task).status = .resident → s.childrenDone (s.task task) = true → (s.task task).faulted = none →
    (s.task task).away = [] → (∀ k ∈ s.taskCrews (s.task task), (s.crew k).ended = true) →
    let sc := if (s.task task).parent.isNone then packetRel (s.launch (s.task task).launch).packet else .pkg
    let r := s.taskRelease (s.task task) sc
    let t := r.1.modTask task fun t => { t with relCt := some r.2 }
    (∀ ct, (s.task task).relCt = some ct → ct < s.mer (s.task task).die → Happens (.taskComplete task) s (s.taskOver task .complete)) ∧
    ((s.task task).relCt = none → (Scope.wide sc = true → ∀ p ∈ (s.task task).parties, s.backHeld (p / 16) = false) → (Scope.wide sc = false ∨ r.2 < t.mer (s.task task).die) →
      Happens (.taskComplete task) s (t.taskOver task .complete))) ∧
  (∀ s task c0, s.relocking (s.task task).die = false → (s.task task).joinFrom = some c0 → (s.task task).status = .resident → (s.task task).faulted = none →
    (s.task task).away = [] → s.childrenDone (s.task task) = false → c0 + 4096 < s.clk (s.task task).die →
    (∀ p ∈ (s.task task).parties, (s.party p).stopped = true ∧ s.backHeld (p / 16) = false) →
    (∀ k ∈ s.taskCrews (s.task task), (s.crew k).drained = true ∧ (s.crew k).report = none) →
    Happens (.joinSuspend task) s (s.saveTask task)) ∧
  (∀ s task c0, s.relocking (s.task task).die = false → (s.task task).joinFrom = some c0 → (s.task task).status = .resident → (s.task task).faulted = none →
    (s.task task).away = [] → s.childrenDone (s.task task) = true →
    let idle := (s.task task).parties.filter fun p =>
      (s.party p).stopped && !(s.party p).preempted && (s.party p).crews.all fun k => (s.crew k).report.isNone
    idle ≠ [] → Happens (.joinSuspend task) s ((idle.foldl State.resumeParty s).modTask task fun t => { t with joinFrom := none })) ∧
  (∀ s task u, s.relocking (s.task task).die = false → (s.task task).status = .suspended → s.childrenDone (s.task task) = true →
    s.restoreAll task (s.task task).die (s.task task).saved [] = some u →
    Happens (.taskResume task) s (u.modTask task fun t => { t with saved := [], status := .resident })) ∧
  (∀ s launch, (s.launch launch).status = .running → packetRoots (s.launch launch).packet ≤ (s.launch launch).finished →
    (∀ t ∈ s.tasks, t.2.launch = launch → TaskStatus.beyond t.2.status = true) → packetRel (s.launch launch).packet = .die →
    (packetTrig (s.launch launch).packet = true → (s.launch launch).triggerSet = true) →
    (s.launch launch).relCt = none → s.completionHeld (s.launch launch).ctx (s.launch launch).packet = false →
    let l := s.launch launch
    let v := packetCmpval l.packet + (if packetTrig l.packet then 1 else 0)
    Happens (.launchComplete launch) s ((s.setCompletion l (if l.faulted then v ||| 0x8000000000000000 else v)).closeLaunch launch)) ∧
  (∀ s launch ct, (s.launch launch).status = .running → packetRoots (s.launch launch).packet ≤ (s.launch launch).finished →
    (∀ t ∈ s.tasks, t.2.launch = launch → TaskStatus.beyond t.2.status = true) → (s.launch launch).relCt = some ct →
    (packetTrig (s.launch launch).packet = true → (s.launch launch).triggerSet = true) → ct + 2 < s.meridian →
    s.completionHeld (s.launch launch).ctx (s.launch launch).packet = false →
    let l := s.launch launch
    let v := packetCmpval l.packet + (if packetTrig l.packet then 1 else 0)
    Happens (.launchComplete launch) s ((s.setCompletion l (if l.faulted then v ||| 0x8000000000000000 else v)).closeLaunch launch)) ∧
  (∀ s launch, (s.launch launch).status = .running → packetTrig (s.launch launch).packet = true →
    (s.launch launch).triggerSet = false → packetRoots (s.launch launch).packet ≤ (s.launch launch).triggered →
    s.completionHeld (s.launch launch).ctx (s.launch launch).packet = false →
    Happens (.triggerPoint launch) s ((s.setCompletion (s.launch launch) (packetCmpval (s.launch launch).packet)).modLaunch launch
      fun l => { l with triggerSet := true })) ∧
  (∀ s launch pa a, (s.launch launch).status = .running → (s.launch launch).released = false →
    s.completionHeld (s.launch launch).ctx (s.launch launch).packet = false → s.wordHeld a pa = false →
    s.lookup (s.launch launch).ctx (packetDepaddr (s.launch launch).packet).toNat .read = .ok (pa, a) → s.cutOff pa = false →
    (s.launch launch).dep = none → packetDepaddr (s.launch launch).packet ≠ 0 → s.mem.field pa 8 < 2 ^ 63 → (packetDepval (s.launch launch).packet).toNat ≤ s.mem.field pa 8 →
    Happens (.dependenceRelease launch) s (s.modLaunch launch fun l => { l with released := true })) ∧
  (∀ s launch v, (s.launch launch).status = .running → (s.launch launch).released = false → (s.launch launch).dep = some v →
    s.completionHeld (s.launch launch).ctx (s.launch launch).packet = false →
    let l := s.launch launch
    (v.getLsbD 63 = false → Happens (.dependenceRelease launch) s (s.modLaunch launch fun l => { l with released := true })) ∧
    (v.getLsbD 63 = true → Happens (.dependenceRelease launch) s
      ((s.setCompletion l (packetCmpval l.packet ||| 0x8000000000000000)).closeLaunch launch))) ∧
  (∀ s li l rest d, s.launches = (li, l) :: rest → l.status = .running → l.released = true → l.det = false → l.back = [] →
    l.nextRoot < packetRoots l.packet →
    let n := min 64 (packetRoots l.packet - l.nextRoot)
    s.batchDie (s.launchDies l) n = some d →
    Happens .batchDeal s ({ s with launches := Tbl.set s.launches li { l with nextRoot := l.nextRoot + n } }.modDie d
      fun x => { x with roots := x.roots ++ (upto l.nextRoot n).map fun t => (li, t) })) ∧
  (∀ s core, s.relocking (dieOfCore core) = false → s.coreReady core = true → s.freeParties core ≠ [] →
    (∀ w u, (s.die (dieOfCore core)).waiting = some w → (s.task w).pin = none → s.handlerAhead core = false →
      (s.core core).reserved = none → s.placeTask false w core = some u →
      Happens (.coreTakeWork core) s (u.modDie (dieOfCore core) fun x => { x with waiting := none })) ∧
    (∀ t q u, (s.die (dieOfCore core)).waiting = none → (s.core core).deque = q ++ [t] →
      (s.launch (s.task t).launch).det = false → s.fits core (entryNeed (s.shapeOf (s.task t))) = true →
      ((s.modCore core fun c => { c with deque := q }).modTask t fun x => { x with pin := none }).placeTask true t core = some u →
      Happens (.coreTakeWork core) s u) ∧
    (∀ li t rest n, (s.die (dieOfCore core)).waiting = none → (s.core core).deque = [] → (s.core core).spilled = [] →
      s.handlerAhead core = false → (s.core core).reserved = none → s.rootChoices core = (li, t, false) :: rest →
      n = entryNeed (packetShape (s.launch li).packet 0) → s.bestCore (s.openCores li (dieOfCore core)) n = some core →
      Happens (.coreTakeWork core) s (s.startRoot li t core false))) ∧
  (∀ s core pipe k, s.relocking (dieOfCore core) = false → pipe < 8 → Tbl.get? (s.core core).pipes pipe = none →
    s.winner core pipe = some k →
    Happens (.runArbitration core pipe) s ((s.modCrew k fun c => { c with stall := none, stallAt := s.cycles k, cut := false }).modCore core
      fun x => { x with pipes := Tbl.set x.pipes pipe k }))

/-- GANG_START places every root of a reserved gang in one step when every reserved core has room and no die of the launch relocks
or has a waiting task that goes first (spec/15 R255, R257; log 47). ADMIT_NEXT takes the packet at the queue's ticket, admits it with
the dies that are ready, or refuses it under the number of the first condition of 1 to 13 that it fails, and passes the ticket on
(spec/15 R250, R252, R253; the package's own order of the tests, log 39). -/
def Obligations.Admission : Prop :=
  (∀ s launch u, s.reserveGang = s → (∀ d ∈ launchMask (s.launch launch), s.relocking d = false ∧ s.waitingFirst d = false) →
    let mine := s.cores.filterMap fun c => match c.2.reserved with
      | some (li, t) => if li = launch then some (c.1, t) else none
      | none => none
    (s.launch launch).status = .running → (s.launch launch).gang = true → (s.launch launch).gangStarted = false →
    (s.launch launch).released = true → mine.length = packetRoots (s.launch launch).packet → s.placeGang launch mine = some u →
    let v := u.modLaunch launch fun l => { l with gangStarted := true }
    let free (c : Core) : Core := match c.reserved with
      | some (li, _) => if li = launch then { c with reserved := none } else c
      | none => c
    Happens (.gangStart launch) s ({ v with cores := v.cores.map fun (c : Nat × Core) => (c.1, free c.2) }.reserveGang)) ∧
  (∀ s core ctx queue q qa tail ta tk a pa pb, s.relocking (dieOfCore core) = false → ctx < 16 →
    let s1 := s.readCtx ctx
    let e := s1.ctxEntry ctx
    let m := s.mem
    ctxValid e = true → queue < ctxQcnt e → s1.lookup ctx (ctxQtab e + 32 * queue) .read = .ok (q, qa) →
    s1.lookup ctx (m.field (q + 16) 8) .read = .ok (tail, ta) → s1.lookup ctx (m.field (q + 24) 8) .write = .ok (tk, a) →
    let next := m.field tk 8
    let va := m.field q 8 + 512 * (next % 2 ^ m.field (q + 8) 1)
    m.field (tk + 8) 8 = next → next < m.field tail 8 → s1.lookup ctx va .read = .ok (pa, pb) →
    let p : BitVec 4096 := BitVec.ofNat 4096 (m.field pa 512)
    let passed (u : State) : State := (u.bumpWord a tk |>.bumpWord a (tk + 8)).modCore core
      fun c => { c with hostAsk := c.hostAsk.filter fun x => x.1 != 128 * core + 64 }
    (∀ x ∈ [(qa, q), (ta, tail), (a, tk), (pb, pa)], s1.cutOff x.2 = false ∧ s1.homeHeld core x.1 x.2 = none) →
    s1.wordHeld a tk = false → s1.refusalHeld ctx p = false → (s1.core core).hostAsk = none →
    (packetFails p (ctxBmask e) = none → (s1.lookup ctx (packetCmpaddr p).toNat .write).isOk = true →
      (packetDepaddr p = 0 ∨ (s1.lookup ctx (packetDepaddr p).toNat .read).isOk = true) → s1.admitDies p ≠ [] →
      Happens (.admitNext core ctx queue) s (passed (s1.admitPacket ctx p))) ∧
    (∀ n, packetFails p (ctxBmask e) = some n →
      Happens (.admitNext core ctx queue) s (passed (s1.refuse ctx p n (BitVec.ofNat 64 va)))))

/-! ## The life of the package -/

/-- Gating, budgets, relocks and wakes: a core that is gateable is gated, and wakes 50 ticks after the first source since with that
source's code (spec/15 R263, spec/10 R195); a period starts with its new limits and deducts the excess, and a class at its limit is held (spec/15 R264); a
relock begins with the next tick (log 59), no sooner than 5,000 ticks after the last, and ends 1,500 ticks later with a new entry, when the answers that have
waited reach the die: time does not pass that tick before it has (spec/18 R285-R287); a spawn that has stalled 10^6 ticks faults (spec/16 R268); an agent that sleeps takes its code, and each agent has its own deadline (spec/10 R195). -/
def Obligations.TimedEvents : Prop :=
  (∀ s core, s.relocking (dieOfCore core) = false → s.gateable core = true →
    Happens (.coreGate core) s (s.modCore core fun x => { x with gated := true, source := none })) ∧
  (∀ (s : State) core code, (s.core core).gated = true →
    ((s.signalWake core code).core core).source = some ((s.core core).source.getD (code, s.meridian))) ∧
  (∀ s core code at_, s.relocking (dieOfCore core) = false → (s.core core).gated = true →
    (s.core core).source = some (code, at_) → at_ + 50 ≤ s.meridian →
    ∃ t, Happens (.coreWake core code) s t ∧
      t.core core = { s.core core with gated := false, wake := BitVec.ofNat 32 code, source := none } ∧
      (∀ k, k ≠ core → t.core k = s.core k) ∧ t.crews = s.crews ∧ t.mem = s.mem) ∧
  (∀ s, s.period < s.meridian / 100000 →
    ∃ t, Happens .budgetPeriodStart s t ∧ t.period = s.meridian / 100000 ∧ t.heldClasses = [] ∧
      ∀ k b, Tbl.get? s.budgets k = some b → ∃ b', Tbl.get? t.budgets k = some b' ∧ b'.limit = b.next.getD b.limit ∧
        b'.next = none ∧ b'.used = (if b.limit = BitVec.allOnes 64 then 0 else b.used - b.limit.toNat) ∧ b'.excess = b'.used) ∧
  (∀ s cls k, k < 4 → s.heldClasses.contains cls = false →
    let b := (Tbl.get? s.budgets (4 * cls + k)).getD {}
    b.limit ≠ BitVec.allOnes 64 → b.limit.toNat ≤ b.used →
    Happens (.budgetHold cls) s { s with heldClasses := s.heldClasses ++ [cls] }) ∧
  (∀ s crew, s.relocking (dieOfCore (coreOf crew)) = false → (s.crew crew).phase = spawnPhase → (s.crew crew).report = none →
    (s.crew crew).aux.toNat + 1000000 ≤ s.meridian →
    Happens (.spawnStallLimit crew) s (s.takeFault crew { cause := 0x16, sub := 1, d1 := BitVec.ofNat 32 s.pedTable.length })) ∧
  (∀ s die fr, (s.die die).wantF = some fr → (s.die die).relock = none →
    (∀ t, (s.die die).lastRelock = some t → t + 5000 ≤ s.meridian + 1) →
    Happens (.relockStart die) s (s.setDie die { s.die die with relock := some (s.meridian + 1, fr), wantF := none })) ∧
  (∀ s die ms fr, (s.die die).relock = some (ms, fr) → ms + 1500 ≤ s.meridian →
    let x := s.die die
    let e : FreqEntry := { mer := ms + 1500, clk := match x.freqs with | y :: _ => y.cycleFrom ms | [] => 0, freq := fr }
    Happens (.relockEnd die) s (s.setDie die
      { x with freqs := (e :: x.freqs).take 8, relock := none, lastRelock := some (ms + 1500) } |>.deliver die)) ∧
  (∀ (s : State) die ms fr, die < 4 → (s.die die).relock = some (ms, fr) → s.meridian ≤ ms + 1500 →
    s.tick.meridian ≤ ms + 1500 ∧ (s.tick.meridian = ms + 1500 → (s.tick.die die).relock = none)) ∧
  (∀ s core code k, s.relocking (dieOfCore core) = false → ((s.core core).alarm k).code = some code →
    (k = 128 * core + 64 ∨ k = 128 * core + 63 ∧ core % 16 ≥ 12) →
    (s.crew k).asleep = true → (s.crew k).phase = 1 → ((s.core core).alarm k).fired + 50 ≤ s.meridian →
    ∃ t, Happens (.agentWake core) s t ∧ (s.wakeable core = [(k, code)] → (t.core core).wake = BitVec.ofNat 32 code) ∧
      ((t.core core).alarm k).pending.getLsbD code = false ∧ (t.crew k).asleep = false ∧ (t.crew k).pc = (s.crew k).pc + 12 ∧
      (t.crew k).s (s.crew k).aux.toNat = BitVec.ofNat 32 code ∧ (t.crew k).vregs = (s.crew k).vregs ∧ t.mem = s.mem) ∧
  (∀ s core, let x := s.core core
    let due (y : Alarm) : Prop := y.deadline ≠ 0 ∧ y.deadline ≤ s.mer (dieOfCore core)
    due x.fw ∨ due x.sc → ∃ t, Happens (.wakeDeadline core) s t ∧ t.crews = s.crews ∧ t.mem = s.mem ∧
      (due x.fw → (t.core core).fw.pending = x.fw.pending ||| 32 ∧ (t.core core).fw.deadline = 0) ∧
      (¬due x.fw → (t.core core).fw = x.fw) ∧
      (due x.sc → (t.core core).sc.pending = x.sc.pending ||| 32 ∧ (t.core core).sc.deadline = 0) ∧
      (¬due x.sc → (t.core core).sc = x.sc))

/-- Power, reset, self test, firmware, retirement, spares and links (spec/27 R360-R367, spec/26 R353): a power step down takes the
frequency one step below F, in place of a higher step that waits, and a power step up raises it by one, only as far as it was lowered; a reset leaves what is not volatile; a self test sets a ready bit; in recovery
an image is asked for every 10^9 ticks, and one that the loader accepts and that comes over a ready Ethernet port is taken; an update is
written to the flash, which has it after some steps (log 35); a retired function loses its ready bit; spares and replays are counted in
the telemetry, whose counts of corrections come as they may (log 62; the codes of the error log are the model's choice, log 33; what a
reset keeps, log 35). -/
def Obligations.LifeEvents : Prop :=
  (∀ (s : State) die, die < 4 →
    let u : State := { s with powerOver := true, powerSince := s.meridian }
    let f := s.running die
    (8 < f → Happens (.powerStepDown die) s (u.modDie die fun x =>
      { x with wantF := some (match x.wantF with | some w => min w (f - 1) | none => f - 1)
               capFrom := x.capFrom <|> some (max f (s.target die)) })) ∧
    (f ≤ 8 → Happens (.powerStepDown die) s (u.modDie die fun x => { x with wantF := none, capFrom := x.capFrom <|> x.wantF }))) ∧
  (∀ s die top, s.powerOver = true → s.powerSince + 10000000 ≤ s.meridian → (s.die die).capFrom = some top → s.target die < top →
    Happens (.powerStepUp die) s (s.modDie die fun x =>
      { x with wantF := some (s.target die + 1), capFrom := if s.target die + 1 < top then some top else none })) ∧
  (∀ s die, (s.die die).capFrom = none → Happens (.powerStepUp die) s s) ∧
  (∀ s, ∃ t, exec .packageReset s = .next t ∧ t = s.restart ∧ t.meridian = 0 ∧ t.crews = [] ∧ t.tasks = [] ∧ t.launches = [] ∧
    t.budgets = [] ∧ t.mem = s.mem ∧ (∀ i, s.firmware.writing = none → s.firmware.image = some i → s.firmware.accepts i = true →
      t.firmware.running = some i ∧ t.ready = 0)) ∧
  (∀ s die, ∃ t, exec (.thermalReset die) s = .next t ∧ t.meridian = 0 ∧ t.crews = [] ∧ t.tasks = [] ∧ t.ready.extractLsb' 0 112 = 0) ∧
  (∀ s bit freq, s.firmware.running.isSome = true → bit < 113 → ¬(64 ≤ bit ∧ bit < 68) → s.retiredBits.getLsbD bit = false →
    s.ready.getLsbD bit = false →
    ∃ t, Happens (.selfTestPass bit freq) s t ∧ t.ready = s.ready ||| BitVec.shiftLeft 1 bit ∧ t.crews = s.crews ∧ t.mem = s.mem) ∧
  (∀ s img, s.ready.getLsbD 112 = true → s.firmware.running = none → s.firmware.fetching = true →
    (s.firmware.accepts img = true →
      Happens (.imageFetchRetry img) s { s with firmware := { s.firmware with image := some img } }.restart) ∧
    (s.firmware.accepts img = false →
      Happens (.imageFetchRetry img) s { s with firmware := { s.firmware with fetching := false } })) ∧
  (∀ (s : State) at_, s.ready.getLsbD 112 = true → s.firmware.running = none → s.firmware.lastFetch = some at_ →
    s.refetch = if s.meridian < at_ + 1000000000 then s else
      { s with firmware := { s.firmware with lastFetch := some s.meridian, fetching := true }, outbox := s.outbox ++ [.fetchImage] }) ∧
  (∀ s img r, s.ready.getLsbD 112 = true → s.firmware.running = some r → s.firmware.accepts img = true → r.seq ≤ img.seq →
    Happens (.firmwareUpdate img) s { s with firmware := { s.firmware with writing := some img } } ∧
    ∀ t : State, t.firmware.writing = some img → t.flash.firmware = t.firmware ∨
      t.flash.firmware = { t.firmware with image := some img, writing := none, started := false }) ∧
  (∀ s bit, bit < 113 →
    let cores := if bit < 64 then [bit] else if 64 ≤ bit ∧ bit < 68 then dieCores (bit - 64)
      else if 76 ≤ bit ∧ bit < 80 then dieCores (bit - 76) else []
    let t := cores.foldl (fun t k => t.coreTasksEnd k 1) s
    let u := if bit < 64 then t.modCore bit fun x => { x with retired := true } else t
    Happens (.functionRetire bit) s ((u.clearReady bit).logError (logRetire bit)) ∧
    (u.clearReady bit).ready.getLsbD bit = false ∧ (u.clearReady bit).retiredBits.getLsbD bit = true) ∧
  (∀ s stack, stack < 8 → Happens (.hbmSpareRepair stack) s (s.logError (logSpare (68 + stack)))) ∧
  (∀ s link, link < 20 → s.retraining.contains link = false →
    ∃ t, Happens (.laneSpare link) s t ∧ t.retraining = s.retraining ++ [link] ∧
      (link < 16 → Sparse.get t.telemetry (1088 + link) = Sparse.get s.telemetry (1088 + link) + BitVec.shiftLeft 1 48) ∧
      ∀ k, (16 ≤ link ∨ k ≠ 1088 + link) → (k < 1056 ∨ 1068 ≤ k) → Sparse.get t.telemetry k = Sparse.get s.telemetry k) ∧
  (∀ s link, Happens (.retrainEnd link) s { s with retraining := s.retraining.filter fun x => x != link }) ∧
  (∀ s port, port < 16 → Happens (.ualinkPortDown port) s { s with portsDown := s.portsDown ||| BitVec.shiftLeft 1 port }) ∧
  (∀ s port, port < 16 → ∃ t, Happens (.crcErrorReplay port) s t ∧
    (Sparse.get t.telemetry (1088 + port)).extractLsb' 0 48 = (Sparse.get s.telemetry (1088 + port)).extractLsb' 0 48 + 1 ∧
    (Sparse.get t.telemetry (1088 + port)).extractLsb' 48 16 = (Sparse.get s.telemetry (1088 + port)).extractLsb' 48 16)

/-! ## The host link -/

/-- While the Ethernet port is ready, a request on a queue pair that holds none is carried out at once when Meridian has passed the completion
time of the one before and no write to another package waits for its acknowledgement: a READ answers the bytes of its pages, a WRITE puts its bytes at their home points, an atomic answers the old value and
applies the new one (a compare that fails, none), and a request that the part does not support, or that is no SEND on the management
queue pair, whose number is the model's choice (log 36), is answered with a NAK (spec/26 R355-R357, R359); a region, a
mirrored page and a context-table entry are installed by the host (spec/26 R356, R358, R359). -/
def Obligations.HostEvents : Prop :=
  (∀ i s qp q u, s.ready.getLsbD 112 = true → qp < 1024 → q.ctx < 16 →
    ((∃ d, i = .rdmaWrite qp q.ctx q.key q.va d ∧ q.op = .write d) ∨ (∃ n, i = .rdmaRead qp q.ctx q.key q.va n ∧ q.op = .read n) ∨
      (∃ x, i = .atomicFetchAdd qp q.ctx q.key q.va x ∧ q.op = .fetchAdd x) ∨
      (∃ x y, i = .atomicCmpSwap qp q.ctx q.key q.va x y ∧ q.op = .cmpSwap x y)) →
    let x := (Tbl.get? s.qps qp).getD {}
    x.held = [] → x.ackDue = false → x.away = false → (x.ct = 0 ∨ x.ct + 2 < s.meridian) → (s.modQp qp fun x => { x with held := [q] }).hostHeld q = false →
    (s.modQp qp fun x => { x with held := [q] }).hostDo qp q = some u →
    ∃ t, Happens i s t ∧ t.mem = u.mem ∧ t.crews = u.crews ∧ ((Tbl.get? t.qps qp).getD {}).held = []) ∧
  (∀ (s : State) (qp : Nat) (q : HostReq) (n : Nat) (a : Attr) (pa : Nat), q.op = .read n → qp ≠ 1023 → s.cutOff pa = false →
    0 < n → q.va.toNat % 128 + n ≤ 128 →
    s.regionFor q.ctx q.key q.va n (fun r => r.r) = true → s.lookup q.ctx q.va.toNat .read = .ok (pa, a) →
    s.hostDo qp q = some { s with outbox := s.outbox ++ [.data qp (s.mem.readBytes pa n)] }) ∧
  (∀ (s : State) (qp : Nat) (q : HostReq) (d : List Byte) (a : Attr) (pa : Nat), q.op = .write d → qp ≠ 1023 → s.cutOff pa = false →
    d ≠ [] → q.va.toNat % 128 + d.length ≤ 128 →
    s.regionFor q.ctx q.key q.va d.length (fun r => r.w) = true → s.lookup q.ctx q.va.toNat .write = .ok (pa, a) →
    ∃ u : State, s.hostDo qp q = some u ∧ u.mem = s.mem.writeBytes pa d ∧ u.crews = s.crews) ∧
  (∀ (s : State) (qp : Nat) (q : HostReq) (a : Attr) (pa : Nat), qp ≠ 1023 → s.cutOff pa = false → q.va.toNat % 8 = 0 →
    s.regionFor q.ctx q.key q.va 8 (fun r => r.atomic) = true → s.lookup q.ctx q.va.toNat .both = .ok (pa, a) →
    let old : DWord := BitVec.ofNat 64 (s.mem.field pa 8)
    let answers (v : DWord) : Prop := ∃ u : State, s.hostDo qp q = some u ∧ u.mem = s.mem.writeBytes pa (toBytesLE 8 v.toNat) ∧
      u.outbox = s.outbox ++ [.old qp old]
    (∀ x, q.op = .fetchAdd x → answers (old + x)) ∧
    (∀ cmp x, q.op = .cmpSwap cmp x → (old = cmp → answers x) ∧
      (old ≠ cmp → s.hostDo qp q = some { s with outbox := s.outbox ++ [.old qp old] }))) ∧
  (∀ (s : State) (q : HostReq), s.hostDo 1023 q = some { s with outbox := s.outbox ++ [.nakInvalid 1023] }) ∧
  (∀ s qp, s.ready.getLsbD 112 = true → qp < 1024 → let x := (Tbl.get? s.qps qp).getD {}
    x.held = [] → x.ackDue = false → x.away = false → (x.ct = 0 ∨ x.ct + 2 < s.meridian) →
    ∃ t, Happens (.unsupportedRequest qp) s t ∧ t.mem = s.mem ∧ t.crews = s.crews ∧
      t.outbox = s.outbox ++ [.nakInvalid qp]) ∧
  (∀ s ctx idx base len r w at_ key, s.ready.getLsbD 112 = true → ctx < 16 → idx < 64 → Happens (.regionInstall ctx idx base len r w at_ key) s
    { s with regions := Tbl.set s.regions (64 * ctx + idx) { base := base, len := len, r := r, w := w, atomic := at_, key := key } }) ∧
  (∀ s ctx idx (page host : DWord) key qp, s.ready.getLsbD 112 = true → ctx < 16 → idx < 16 → page.toNat % 65536 = 0 → qp < 1023 →
    Happens (.mirroredPageInstall ctx idx page host key qp) s
      { s with mirrors := Tbl.set s.mirrors (16 * ctx + idx) { page := page, host := host, key := key, qp := qp } }) ∧
  (∀ s ctx entry, s.ready.getLsbD 112 = true → ctx < 16 → ∃ t, Happens (.contextTableUpdate ctx entry) s t ∧ t.ctxStored ctx = entry ∧
    (∀ x, x < s.ctxTable + 64 * ctx ∨ s.ctxTable + 64 * ctx + 64 ≤ x → t.mem.read x = s.mem.read x) ∧ t.crews = s.crews)

end
end

