-- ==== Sys2Proof/Laws/Tables.lean ====
section
/-! SUPPORT. Reading and writing tables, sparse tables and memory: what a write leaves, and that it keeps the canonical form. -/
namespace Sys2Proof.Machine

variable {α : Type} {w : Nat}

@[simp] theorem Tbl.get?_nil (k : Nat) : Tbl.get? ([] : Tbl α) k = none := rfl

theorem Tbl.get?_cons (x : Nat × α) (t : Tbl α) (k : Nat) :
    Tbl.get? (x :: t) k = if k = x.1 then some x.2 else Tbl.get? t k := by
  obtain ⟨a, b⟩ := x
  by_cases h : k = a
  · subst h; simp [Tbl.get?, List.lookup]
  · simp [Tbl.get?, List.lookup, h, beq_false_of_ne h]

@[simp] theorem Tbl.get?_set_self (t : Tbl α) (k : Nat) (v : α) : Tbl.get? (Tbl.set t k v) k = some v := by
  induction t with
  | nil => simp [Tbl.set, Tbl.get?_cons]
  | cons x t ih =>
    obtain ⟨a, b⟩ := x
    simp only [Tbl.set]
    split
    · simp [Tbl.get?_cons]
    · split
      · simp [Tbl.get?_cons]
      · rename_i h _; simp [Tbl.get?_cons, h, ih]

theorem Tbl.get?_set_ne (t : Tbl α) {k j : Nat} (v : α) (h : j ≠ k) : Tbl.get? (Tbl.set t k v) j = Tbl.get? t j := by
  induction t with
  | nil => simp [Tbl.set, Tbl.get?_cons, h]
  | cons x t ih =>
    obtain ⟨a, b⟩ := x
    simp only [Tbl.set]
    split
    · rename_i e; subst e; simp [Tbl.get?_cons, h]
    · split
      · simp [Tbl.get?_cons, h]
      · simp [Tbl.get?_cons, ih]

theorem Tbl.get?_set (t : Tbl α) (k j : Nat) (v : α) :
    Tbl.get? (Tbl.set t k v) j = if j = k then some v else Tbl.get? t j := by
  split
  · rename_i h; subst h; simp
  · rename_i h; exact Tbl.get?_set_ne t v h

@[simp] theorem Tbl.get?_del_self (t : Tbl α) (k : Nat) : Tbl.get? (Tbl.del t k) k = none := by
  induction t with
  | nil => rfl
  | cons x t ih =>
    unfold Tbl.del at *
    by_cases h : x.1 = k
    · simpa [List.filter_cons, h] using ih
    · have : ¬k = x.1 := fun e => h e.symm
      simpa [List.filter_cons, h, Tbl.get?_cons, this] using ih

theorem Tbl.get?_del_ne (t : Tbl α) {k j : Nat} (h : j ≠ k) : Tbl.get? (Tbl.del t k) j = Tbl.get? t j := by
  induction t with
  | nil => rfl
  | cons x t ih =>
    unfold Tbl.del at *
    by_cases e : x.1 = k
    · have : ¬j = x.1 := fun e' => h (e'.trans e)
      rw [List.filter_cons_of_neg (by simp [e]), ih, Tbl.get?_cons, if_neg this]
    · rw [List.filter_cons_of_pos (by simpa using e), Tbl.get?_cons, Tbl.get?_cons, ih]

/-- A table whose values are changed one by one. -/
theorem Tbl.get?_map (t : Tbl α) (f : Nat → α → α) (k : Nat) :
    Tbl.get? (t.map fun x => (x.1, f x.1 x.2)) k = (Tbl.get? t k).map (f k) := by
  induction t with
  | nil => rfl
  | cons x t ih =>
    by_cases h : k = x.1
    · subst h; simp [Tbl.get?_cons]
    · simp [Tbl.get?_cons, h, ih]

/-! ## Sparse tables -/

@[simp] theorem Sparse.get_nil (k : Nat) : Sparse.get ([] : Sparse w) k = 0 := rfl

theorem Sparse.get_cons (x : Nat × BitVec w) (t : Sparse w) (k : Nat) :
    Sparse.get (x :: t) k = if k = x.1 then x.2 else Sparse.get t k := by
  obtain ⟨a, b⟩ := x
  by_cases h : k = a
  · subst h; simp [Sparse.get, List.lookup]
  · simp [Sparse.get, List.lookup, h, beq_false_of_ne h]

theorem Sparse.get_filter_self (t : Sparse w) (k : Nat) : Sparse.get (t.filter fun x => x.1 != k) k = 0 := by
  induction t with
  | nil => rfl
  | cons x t ih =>
    by_cases h : x.1 = k
    · simpa [List.filter_cons, h] using ih
    · have : ¬k = x.1 := fun e => h e.symm
      simpa [List.filter_cons, h, Sparse.get_cons, this] using ih

theorem Sparse.get_filter_ne (t : Sparse w) {k j : Nat} (h : j ≠ k) :
    Sparse.get (t.filter fun x => x.1 != k) j = Sparse.get t j := by
  induction t with
  | nil => rfl
  | cons x t ih =>
    by_cases e : x.1 = k
    · have : ¬j = x.1 := fun e' => h (e'.trans e)
      rw [List.filter_cons_of_neg (by simp [e]), ih, Sparse.get_cons, if_neg this]
    · rw [List.filter_cons_of_pos (by simpa using e), Sparse.get_cons, Sparse.get_cons, ih]

theorem Sparse.get_put_self (t : Sparse w) (k : Nat) (v : BitVec w) (h : ∀ x ∈ t, x.1 ≠ k) :
    Sparse.get (Sparse.put t k v) k = v := by
  induction t with
  | nil => simp [Sparse.put, Sparse.get_cons]
  | cons x t ih =>
    simp only [Sparse.put]
    split
    · simp [Sparse.get_cons]
    · have : ¬k = x.1 := fun e => h x (by simp) e.symm
      simp [Sparse.get_cons, this, ih fun y hy => h y (by simp [hy])]

theorem Sparse.get_put_ne (t : Sparse w) {k j : Nat} (v : BitVec w) (h : j ≠ k) :
    Sparse.get (Sparse.put t k v) j = Sparse.get t j := by
  induction t with
  | nil => simp [Sparse.put, Sparse.get_cons, h]
  | cons x t ih =>
    simp only [Sparse.put]
    split
    · simp [Sparse.get_cons, h]
    · simp [Sparse.get_cons, ih]

@[simp] theorem Sparse.get_set_self (t : Sparse w) (k : Nat) (v : BitVec w) : Sparse.get (Sparse.set t k v) k = v := by
  unfold Sparse.set
  simp only
  split
  · rename_i h; subst h; exact Sparse.get_filter_self t k
  · exact Sparse.get_put_self _ k v (by simp)

theorem Sparse.get_set_ne (t : Sparse w) {k j : Nat} (v : BitVec w) (h : j ≠ k) :
    Sparse.get (Sparse.set t k v) j = Sparse.get t j := by
  unfold Sparse.set
  simp only
  split
  · exact Sparse.get_filter_ne t h
  · rw [Sparse.get_put_ne _ v h, Sparse.get_filter_ne t h]

theorem Sparse.get_set (t : Sparse w) (k j : Nat) (v : BitVec w) :
    Sparse.get (Sparse.set t k v) j = if j = k then v else Sparse.get t j := by
  split
  · rename_i h; subst h; simp
  · rename_i h; exact Sparse.get_set_ne t v h

/-! ## The canonical form -/

theorem Sparse.wfFrom_mono {lo hi : Nat} {t : Sparse w} (h : Sparse.wfFrom hi t = true) (hl : lo ≤ hi) :
    Sparse.wfFrom lo t = true := by
  cases t with
  | nil => rfl
  | cons x t =>
    obtain ⟨a, b⟩ := x
    simp only [Sparse.wfFrom, Bool.and_eq_true, decide_eq_true_eq] at *
    exact ⟨⟨Nat.le_trans hl h.1.1, h.1.2⟩, h.2⟩

theorem Sparse.wfFrom_filter {lo : Nat} {t : Sparse w} (p : Nat × BitVec w → Bool) (h : Sparse.wfFrom lo t = true) :
    Sparse.wfFrom lo (t.filter p) = true := by
  induction t generalizing lo with
  | nil => rfl
  | cons x t ih =>
    obtain ⟨a, b⟩ := x
    simp only [Sparse.wfFrom, Bool.and_eq_true, decide_eq_true_eq] at h
    simp only [List.filter_cons]
    split
    · simp only [Sparse.wfFrom, Bool.and_eq_true, decide_eq_true_eq]
      exact ⟨h.1, ih h.2⟩
    · exact Sparse.wfFrom_mono (ih h.2) (by omega)

theorem Sparse.wfFrom_put {lo k : Nat} {t : Sparse w} {v : BitVec w} (h : Sparse.wfFrom lo t = true) (hk : lo ≤ k)
    (hv : v ≠ 0) (hn : ∀ x ∈ t, x.1 ≠ k) : Sparse.wfFrom lo (Sparse.put t k v) = true := by
  induction t generalizing lo with
  | nil => simpa [Sparse.put, Sparse.wfFrom, hk] using hv
  | cons x t ih =>
    obtain ⟨a, b⟩ := x
    have hne : a ≠ k := hn (a, b) (by simp)
    simp only [Sparse.wfFrom, Bool.and_eq_true, decide_eq_true_eq] at h
    simp only [Sparse.put]
    split
    · rename_i hlt
      simp only [Sparse.wfFrom, Bool.and_eq_true, decide_eq_true_eq, bne_iff_ne]
      exact ⟨⟨hk, hv⟩, ⟨by omega, by simpa using h.1.2⟩, h.2⟩
    · simp only [Sparse.wfFrom, Bool.and_eq_true, decide_eq_true_eq]
      exact ⟨h.1, ih h.2 (by omega) fun y hy => hn y (by simp [hy])⟩

/-- Setting a value keeps the canonical form. -/
theorem Sparse.wf_set {t : Sparse w} (k : Nat) (v : BitVec w) (h : Sparse.wf t = true) : Sparse.wf (Sparse.set t k v) = true := by
  unfold Sparse.wf Sparse.set at *
  simp only
  split
  · exact Sparse.wfFrom_filter _ h
  · rename_i hv; exact Sparse.wfFrom_put (Sparse.wfFrom_filter _ h) (Nat.zero_le _) hv (by simp)

/-- Dropping entries keeps the canonical form. -/
theorem Sparse.wf_filter {t : Sparse w} (p : Nat × BitVec w → Bool) (h : Sparse.wf t = true) : Sparse.wf (t.filter p) = true :=
  Sparse.wfFrom_filter p h

/-! ## Memory -/

theorem Memory.wf_write {m : Memory} (a : Nat) (b : Byte) (h : Memory.wf m = true) : Memory.wf (m.write a b) = true :=
  Sparse.wf_set (w := 8) a b h

theorem Memory.wf_writeBytes {m : Memory} (a : Nat) (bs : List Byte) (h : Memory.wf m = true) :
    Memory.wf (m.writeBytes a bs) = true := by
  induction bs generalizing m a with
  | nil => exact h
  | cons b bs ih => exact ih (a + 1) (Memory.wf_write a b h)

theorem Memory.read_write (m : Memory) (a x : Nat) (b : Byte) : (m.write a b).read x = if x = a then b else m.read x :=
  Sparse.get_set (w := 8) m a x b

theorem Memory.read_writeBytes_out (m : Memory) (a x : Nat) (bs : List Byte) (h : x < a ∨ a + bs.length ≤ x) :
    (m.writeBytes a bs).read x = m.read x := by
  induction bs generalizing m a with
  | nil => rfl
  | cons b bs ih =>
    simp only [List.length_cons] at h
    have hx : x ≠ a := by omega
    rw [Memory.writeBytes, ih (m.write a b) (a + 1) (by omega), Memory.read_write, if_neg hx]

theorem Memory.readBytes_length (m : Memory) (a n : Nat) : (m.readBytes a n).length = n := by
  induction n generalizing a with
  | zero => rfl
  | succ n ih => simp [Memory.readBytes, ih]

/-- Bytes that lie outside a write read as before. -/
theorem Memory.readBytes_writeBytes_out (m : Memory) (a x n : Nat) (bs : List Byte) (h : x + n ≤ a ∨ a + bs.length ≤ x) :
    (m.writeBytes a bs).readBytes x n = m.readBytes x n := by
  induction n generalizing x with
  | zero => rfl
  | succ n ih =>
    rw [Memory.readBytes, Memory.readBytes, ih (x + 1) (by omega), Memory.read_writeBytes_out m a x bs (by omega)]

/-- Written bytes read back. -/
theorem Memory.readBytes_writeBytes (m : Memory) (a : Nat) (bs : List Byte) :
    (m.writeBytes a bs).readBytes a bs.length = bs := by
  induction bs generalizing m a with
  | nil => rfl
  | cons b bs ih =>
    rw [List.length_cons, Memory.readBytes, Memory.writeBytes, ih]
    congr 1
    rw [Memory.read_writeBytes_out _ _ _ _ (by omega), Memory.read_write, if_pos rfl]

/-- Memory reads alike in two states of bytes that agree. -/
theorem Memory.readBytes_congr {m m' : Memory} {a n : Nat} (h : ∀ x, a ≤ x → x < a + n → m.read x = m'.read x) :
    m.readBytes a n = m'.readBytes a n := by
  induction n generalizing a with
  | zero => rfl
  | succ n ih =>
    rw [Memory.readBytes, Memory.readBytes, h a (Nat.le_refl a) (by omega), ih fun x h1 h2 => h x (by omega) (by omega)]

/-- The first numbers from a place. -/
@[simp] theorem upto_length (a n : Nat) : (upto a n).length = n := by
  induction n generalizing a with
  | zero => rfl
  | succ n ih => simp [upto, ih]

theorem mem_upto {a n x : Nat} : x ∈ upto a n ↔ a ≤ x ∧ x < a + n := by
  induction n generalizing a with
  | zero => simp only [upto, List.not_mem_nil, false_iff]; omega
  | succ n ih => simp only [upto, List.mem_cons, ih]; omega

end Sys2Proof.Machine
end

