-- ==== Sys2Proof/Laws/State.lean ====
section
/-! SUPPORT. What each update of the state leaves in each field, and how the tables of the state read after it. -/
namespace Sys2Proof.Machine.State

variable (s : State)

/-! ## setCrew -/

@[simp] theorem setCrew_meridian (k : Nat) (x : Crew) : (s.setCrew k x).meridian = s.meridian := rfl
@[simp] theorem setCrew_badWindow (k : Nat) (x : Crew) : (s.setCrew k x).badWindow = s.badWindow := rfl
@[simp] theorem setCrew_posts (k : Nat) (x : Crew) : (s.setCrew k x).posts = s.posts := rfl
@[simp] theorem setCrew_pace (k : Nat) (x : Crew) : (s.setCrew k x).pace = s.pace := rfl
@[simp] theorem setCrew_freeIx (k : Nat) (x : Crew) : (s.setCrew k x).freeIx = s.freeIx := rfl
@[simp] theorem setCrew_agenda (k : Nat) (x : Crew) : (s.setCrew k x).agenda = s.agenda := rfl
@[simp] theorem setCrew_cur (k : Nat) (x : Crew) : (s.setCrew k x).cur = s.cur := rfl
@[simp] theorem setCrew_turn (k : Nat) (x : Crew) : (s.setCrew k x).turn = s.turn := rfl
@[simp] theorem setCrew_mem (k : Nat) (x : Crew) : (s.setCrew k x).mem = s.mem := rfl
@[simp] theorem setCrew_xmax (k : Nat) (x : Crew) : (s.setCrew k x).xmax = s.xmax := rfl
@[simp] theorem setCrew_bad (k : Nat) (x : Crew) : (s.setCrew k x).bad = s.bad := rfl
@[simp] theorem setCrew_dies (k : Nat) (x : Crew) : (s.setCrew k x).dies = s.dies := rfl
@[simp] theorem setCrew_cores (k : Nat) (x : Crew) : (s.setCrew k x).cores = s.cores := rfl
@[simp] theorem setCrew_crews (k : Nat) (x : Crew) : (s.setCrew k x).crews = Tbl.set s.crews k x := rfl
@[simp] theorem setCrew_parties (k : Nat) (x : Crew) : (s.setCrew k x).parties = s.parties := rfl
@[simp] theorem setCrew_tasks (k : Nat) (x : Crew) : (s.setCrew k x).tasks = s.tasks := rfl
@[simp] theorem setCrew_nextTask (k : Nat) (x : Crew) : (s.setCrew k x).nextTask = s.nextTask := rfl
@[simp] theorem setCrew_launches (k : Nat) (x : Crew) : (s.setCrew k x).launches = s.launches := rfl
@[simp] theorem setCrew_nextLaunch (k : Nat) (x : Crew) : (s.setCrew k x).nextLaunch = s.nextLaunch := rfl
@[simp] theorem setCrew_decls (k : Nat) (x : Crew) : (s.setCrew k x).decls = s.decls := rfl
@[simp] theorem setCrew_nextDecl (k : Nat) (x : Crew) : (s.setCrew k x).nextDecl = s.nextDecl := rfl
@[simp] theorem setCrew_views (k : Nat) (x : Crew) : (s.setCrew k x).views = s.views := rfl
@[simp] theorem setCrew_nextView (k : Nat) (x : Crew) : (s.setCrew k x).nextView = s.nextView := rfl
@[simp] theorem setCrew_pedTable (k : Nat) (x : Crew) : (s.setCrew k x).pedTable = s.pedTable := rfl
@[simp] theorem setCrew_nextPed (k : Nat) (x : Crew) : (s.setCrew k x).nextPed = s.nextPed := rfl
@[simp] theorem setCrew_records (k : Nat) (x : Crew) : (s.setCrew k x).records = s.records := rfl
@[simp] theorem setCrew_svcs (k : Nat) (x : Crew) : (s.setCrew k x).svcs = s.svcs := rfl
@[simp] theorem setCrew_claims (k : Nat) (x : Crew) : (s.setCrew k x).claims = s.claims := rfl
@[simp] theorem setCrew_comms (k : Nat) (x : Crew) : (s.setCrew k x).comms = s.comms := rfl
@[simp] theorem setCrew_scheds (k : Nat) (x : Crew) : (s.setCrew k x).scheds = s.scheds := rfl
@[simp] theorem setCrew_handles (k : Nat) (x : Crew) : (s.setCrew k x).handles = s.handles := rfl
@[simp] theorem setCrew_amps (k : Nat) (x : Crew) : (s.setCrew k x).amps = s.amps := rfl
@[simp] theorem setCrew_budgets (k : Nat) (x : Crew) : (s.setCrew k x).budgets = s.budgets := rfl
@[simp] theorem setCrew_heldClasses (k : Nat) (x : Crew) : (s.setCrew k x).heldClasses = s.heldClasses := rfl
@[simp] theorem setCrew_period (k : Nat) (x : Crew) : (s.setCrew k x).period = s.period := rfl
@[simp] theorem setCrew_ctxTable (k : Nat) (x : Crew) : (s.setCrew k x).ctxTable = s.ctxTable := rfl
@[simp] theorem setCrew_ctxLive (k : Nat) (x : Crew) : (s.setCrew k x).ctxLive = s.ctxLive := rfl
@[simp] theorem setCrew_regions (k : Nat) (x : Crew) : (s.setCrew k x).regions = s.regions := rfl
@[simp] theorem setCrew_mirrors (k : Nat) (x : Crew) : (s.setCrew k x).mirrors = s.mirrors := rfl
@[simp] theorem setCrew_mirrorsDue (k : Nat) (x : Crew) : (s.setCrew k x).mirrorsDue = s.mirrorsDue := rfl
@[simp] theorem setCrew_qps (k : Nat) (x : Crew) : (s.setCrew k x).qps = s.qps := rfl
@[simp] theorem setCrew_outbox (k : Nat) (x : Crew) : (s.setCrew k x).outbox = s.outbox := rfl
@[simp] theorem setCrew_ready (k : Nat) (x : Crew) : (s.setCrew k x).ready = s.ready := rfl
@[simp] theorem setCrew_retiredBits (k : Nat) (x : Crew) : (s.setCrew k x).retiredBits = s.retiredBits := rfl
@[simp] theorem setCrew_firmware (k : Nat) (x : Crew) : (s.setCrew k x).firmware = s.firmware := rfl
@[simp] theorem setCrew_telemetry (k : Nat) (x : Crew) : (s.setCrew k x).telemetry = s.telemetry := rfl
@[simp] theorem setCrew_elog (k : Nat) (x : Crew) : (s.setCrew k x).elog = s.elog := rfl
@[simp] theorem setCrew_powerOver (k : Nat) (x : Crew) : (s.setCrew k x).powerOver = s.powerOver := rfl
@[simp] theorem setCrew_powerSince (k : Nat) (x : Crew) : (s.setCrew k x).powerSince = s.powerSince := rfl
@[simp] theorem setCrew_pkgId (k : Nat) (x : Crew) : (s.setCrew k x).pkgId = s.pkgId := rfl
@[simp] theorem setCrew_domain (k : Nat) (x : Crew) : (s.setCrew k x).domain = s.domain := rfl
@[simp] theorem setCrew_retraining (k : Nat) (x : Crew) : (s.setCrew k x).retraining = s.retraining := rfl
@[simp] theorem setCrew_portsDown (k : Nat) (x : Crew) : (s.setCrew k x).portsDown = s.portsDown := rfl

/-! ## setCore -/

@[simp] theorem setCore_meridian (k : Nat) (x : Core) : (s.setCore k x).meridian = s.meridian := rfl
@[simp] theorem setCore_badWindow (k : Nat) (x : Core) : (s.setCore k x).badWindow = s.badWindow := rfl
@[simp] theorem setCore_posts (k : Nat) (x : Core) : (s.setCore k x).posts = s.posts := rfl
@[simp] theorem setCore_pace (k : Nat) (x : Core) : (s.setCore k x).pace = s.pace := rfl
@[simp] theorem setCore_freeIx (k : Nat) (x : Core) : (s.setCore k x).freeIx = s.freeIx := rfl
@[simp] theorem setCore_agenda (k : Nat) (x : Core) : (s.setCore k x).agenda = s.agenda := rfl
@[simp] theorem setCore_cur (k : Nat) (x : Core) : (s.setCore k x).cur = s.cur := rfl
@[simp] theorem setCore_turn (k : Nat) (x : Core) : (s.setCore k x).turn = s.turn := rfl
@[simp] theorem setCore_mem (k : Nat) (x : Core) : (s.setCore k x).mem = s.mem := rfl
@[simp] theorem setCore_xmax (k : Nat) (x : Core) : (s.setCore k x).xmax = s.xmax := rfl
@[simp] theorem setCore_bad (k : Nat) (x : Core) : (s.setCore k x).bad = s.bad := rfl
@[simp] theorem setCore_dies (k : Nat) (x : Core) : (s.setCore k x).dies = s.dies := rfl
@[simp] theorem setCore_cores (k : Nat) (x : Core) : (s.setCore k x).cores = Tbl.set s.cores k x := rfl
@[simp] theorem setCore_crews (k : Nat) (x : Core) : (s.setCore k x).crews = s.crews := rfl
@[simp] theorem setCore_parties (k : Nat) (x : Core) : (s.setCore k x).parties = s.parties := rfl
@[simp] theorem setCore_tasks (k : Nat) (x : Core) : (s.setCore k x).tasks = s.tasks := rfl
@[simp] theorem setCore_nextTask (k : Nat) (x : Core) : (s.setCore k x).nextTask = s.nextTask := rfl
@[simp] theorem setCore_launches (k : Nat) (x : Core) : (s.setCore k x).launches = s.launches := rfl
@[simp] theorem setCore_nextLaunch (k : Nat) (x : Core) : (s.setCore k x).nextLaunch = s.nextLaunch := rfl
@[simp] theorem setCore_decls (k : Nat) (x : Core) : (s.setCore k x).decls = s.decls := rfl
@[simp] theorem setCore_nextDecl (k : Nat) (x : Core) : (s.setCore k x).nextDecl = s.nextDecl := rfl
@[simp] theorem setCore_views (k : Nat) (x : Core) : (s.setCore k x).views = s.views := rfl
@[simp] theorem setCore_nextView (k : Nat) (x : Core) : (s.setCore k x).nextView = s.nextView := rfl
@[simp] theorem setCore_pedTable (k : Nat) (x : Core) : (s.setCore k x).pedTable = s.pedTable := rfl
@[simp] theorem setCore_nextPed (k : Nat) (x : Core) : (s.setCore k x).nextPed = s.nextPed := rfl
@[simp] theorem setCore_records (k : Nat) (x : Core) : (s.setCore k x).records = s.records := rfl
@[simp] theorem setCore_svcs (k : Nat) (x : Core) : (s.setCore k x).svcs = s.svcs := rfl
@[simp] theorem setCore_claims (k : Nat) (x : Core) : (s.setCore k x).claims = s.claims := rfl
@[simp] theorem setCore_comms (k : Nat) (x : Core) : (s.setCore k x).comms = s.comms := rfl
@[simp] theorem setCore_scheds (k : Nat) (x : Core) : (s.setCore k x).scheds = s.scheds := rfl
@[simp] theorem setCore_handles (k : Nat) (x : Core) : (s.setCore k x).handles = s.handles := rfl
@[simp] theorem setCore_amps (k : Nat) (x : Core) : (s.setCore k x).amps = s.amps := rfl
@[simp] theorem setCore_budgets (k : Nat) (x : Core) : (s.setCore k x).budgets = s.budgets := rfl
@[simp] theorem setCore_heldClasses (k : Nat) (x : Core) : (s.setCore k x).heldClasses = s.heldClasses := rfl
@[simp] theorem setCore_period (k : Nat) (x : Core) : (s.setCore k x).period = s.period := rfl
@[simp] theorem setCore_ctxTable (k : Nat) (x : Core) : (s.setCore k x).ctxTable = s.ctxTable := rfl
@[simp] theorem setCore_ctxLive (k : Nat) (x : Core) : (s.setCore k x).ctxLive = s.ctxLive := rfl
@[simp] theorem setCore_regions (k : Nat) (x : Core) : (s.setCore k x).regions = s.regions := rfl
@[simp] theorem setCore_mirrors (k : Nat) (x : Core) : (s.setCore k x).mirrors = s.mirrors := rfl
@[simp] theorem setCore_mirrorsDue (k : Nat) (x : Core) : (s.setCore k x).mirrorsDue = s.mirrorsDue := rfl
@[simp] theorem setCore_qps (k : Nat) (x : Core) : (s.setCore k x).qps = s.qps := rfl
@[simp] theorem setCore_outbox (k : Nat) (x : Core) : (s.setCore k x).outbox = s.outbox := rfl
@[simp] theorem setCore_ready (k : Nat) (x : Core) : (s.setCore k x).ready = s.ready := rfl
@[simp] theorem setCore_retiredBits (k : Nat) (x : Core) : (s.setCore k x).retiredBits = s.retiredBits := rfl
@[simp] theorem setCore_firmware (k : Nat) (x : Core) : (s.setCore k x).firmware = s.firmware := rfl
@[simp] theorem setCore_telemetry (k : Nat) (x : Core) : (s.setCore k x).telemetry = s.telemetry := rfl
@[simp] theorem setCore_elog (k : Nat) (x : Core) : (s.setCore k x).elog = s.elog := rfl
@[simp] theorem setCore_powerOver (k : Nat) (x : Core) : (s.setCore k x).powerOver = s.powerOver := rfl
@[simp] theorem setCore_powerSince (k : Nat) (x : Core) : (s.setCore k x).powerSince = s.powerSince := rfl
@[simp] theorem setCore_pkgId (k : Nat) (x : Core) : (s.setCore k x).pkgId = s.pkgId := rfl
@[simp] theorem setCore_domain (k : Nat) (x : Core) : (s.setCore k x).domain = s.domain := rfl
@[simp] theorem setCore_retraining (k : Nat) (x : Core) : (s.setCore k x).retraining = s.retraining := rfl
@[simp] theorem setCore_portsDown (k : Nat) (x : Core) : (s.setCore k x).portsDown = s.portsDown := rfl

/-! ## setDie -/

@[simp] theorem setDie_meridian (k : Nat) (x : Die) : (s.setDie k x).meridian = s.meridian := rfl
@[simp] theorem setDie_badWindow (k : Nat) (x : Die) : (s.setDie k x).badWindow = s.badWindow := rfl
@[simp] theorem setDie_posts (k : Nat) (x : Die) : (s.setDie k x).posts = s.posts := rfl
@[simp] theorem setDie_pace (k : Nat) (x : Die) : (s.setDie k x).pace = s.pace := rfl
@[simp] theorem setDie_freeIx (k : Nat) (x : Die) : (s.setDie k x).freeIx = s.freeIx := rfl
@[simp] theorem setDie_agenda (k : Nat) (x : Die) : (s.setDie k x).agenda = s.agenda := rfl
@[simp] theorem setDie_cur (k : Nat) (x : Die) : (s.setDie k x).cur = s.cur := rfl
@[simp] theorem setDie_turn (k : Nat) (x : Die) : (s.setDie k x).turn = s.turn := rfl
@[simp] theorem setDie_mem (k : Nat) (x : Die) : (s.setDie k x).mem = s.mem := rfl
@[simp] theorem setDie_xmax (k : Nat) (x : Die) : (s.setDie k x).xmax = s.xmax := rfl
@[simp] theorem setDie_bad (k : Nat) (x : Die) : (s.setDie k x).bad = s.bad := rfl
@[simp] theorem setDie_dies (k : Nat) (x : Die) : (s.setDie k x).dies = Tbl.set s.dies k x := rfl
@[simp] theorem setDie_cores (k : Nat) (x : Die) : (s.setDie k x).cores = s.cores := rfl
@[simp] theorem setDie_crews (k : Nat) (x : Die) : (s.setDie k x).crews = s.crews := rfl
@[simp] theorem setDie_parties (k : Nat) (x : Die) : (s.setDie k x).parties = s.parties := rfl
@[simp] theorem setDie_tasks (k : Nat) (x : Die) : (s.setDie k x).tasks = s.tasks := rfl
@[simp] theorem setDie_nextTask (k : Nat) (x : Die) : (s.setDie k x).nextTask = s.nextTask := rfl
@[simp] theorem setDie_launches (k : Nat) (x : Die) : (s.setDie k x).launches = s.launches := rfl
@[simp] theorem setDie_nextLaunch (k : Nat) (x : Die) : (s.setDie k x).nextLaunch = s.nextLaunch := rfl
@[simp] theorem setDie_decls (k : Nat) (x : Die) : (s.setDie k x).decls = s.decls := rfl
@[simp] theorem setDie_nextDecl (k : Nat) (x : Die) : (s.setDie k x).nextDecl = s.nextDecl := rfl
@[simp] theorem setDie_views (k : Nat) (x : Die) : (s.setDie k x).views = s.views := rfl
@[simp] theorem setDie_nextView (k : Nat) (x : Die) : (s.setDie k x).nextView = s.nextView := rfl
@[simp] theorem setDie_pedTable (k : Nat) (x : Die) : (s.setDie k x).pedTable = s.pedTable := rfl
@[simp] theorem setDie_nextPed (k : Nat) (x : Die) : (s.setDie k x).nextPed = s.nextPed := rfl
@[simp] theorem setDie_records (k : Nat) (x : Die) : (s.setDie k x).records = s.records := rfl
@[simp] theorem setDie_svcs (k : Nat) (x : Die) : (s.setDie k x).svcs = s.svcs := rfl
@[simp] theorem setDie_claims (k : Nat) (x : Die) : (s.setDie k x).claims = s.claims := rfl
@[simp] theorem setDie_comms (k : Nat) (x : Die) : (s.setDie k x).comms = s.comms := rfl
@[simp] theorem setDie_scheds (k : Nat) (x : Die) : (s.setDie k x).scheds = s.scheds := rfl
@[simp] theorem setDie_handles (k : Nat) (x : Die) : (s.setDie k x).handles = s.handles := rfl
@[simp] theorem setDie_amps (k : Nat) (x : Die) : (s.setDie k x).amps = s.amps := rfl
@[simp] theorem setDie_budgets (k : Nat) (x : Die) : (s.setDie k x).budgets = s.budgets := rfl
@[simp] theorem setDie_heldClasses (k : Nat) (x : Die) : (s.setDie k x).heldClasses = s.heldClasses := rfl
@[simp] theorem setDie_period (k : Nat) (x : Die) : (s.setDie k x).period = s.period := rfl
@[simp] theorem setDie_ctxTable (k : Nat) (x : Die) : (s.setDie k x).ctxTable = s.ctxTable := rfl
@[simp] theorem setDie_ctxLive (k : Nat) (x : Die) : (s.setDie k x).ctxLive = s.ctxLive := rfl
@[simp] theorem setDie_regions (k : Nat) (x : Die) : (s.setDie k x).regions = s.regions := rfl
@[simp] theorem setDie_mirrors (k : Nat) (x : Die) : (s.setDie k x).mirrors = s.mirrors := rfl
@[simp] theorem setDie_mirrorsDue (k : Nat) (x : Die) : (s.setDie k x).mirrorsDue = s.mirrorsDue := rfl
@[simp] theorem setDie_qps (k : Nat) (x : Die) : (s.setDie k x).qps = s.qps := rfl
@[simp] theorem setDie_outbox (k : Nat) (x : Die) : (s.setDie k x).outbox = s.outbox := rfl
@[simp] theorem setDie_ready (k : Nat) (x : Die) : (s.setDie k x).ready = s.ready := rfl
@[simp] theorem setDie_retiredBits (k : Nat) (x : Die) : (s.setDie k x).retiredBits = s.retiredBits := rfl
@[simp] theorem setDie_firmware (k : Nat) (x : Die) : (s.setDie k x).firmware = s.firmware := rfl
@[simp] theorem setDie_telemetry (k : Nat) (x : Die) : (s.setDie k x).telemetry = s.telemetry := rfl
@[simp] theorem setDie_elog (k : Nat) (x : Die) : (s.setDie k x).elog = s.elog := rfl
@[simp] theorem setDie_powerOver (k : Nat) (x : Die) : (s.setDie k x).powerOver = s.powerOver := rfl
@[simp] theorem setDie_powerSince (k : Nat) (x : Die) : (s.setDie k x).powerSince = s.powerSince := rfl
@[simp] theorem setDie_pkgId (k : Nat) (x : Die) : (s.setDie k x).pkgId = s.pkgId := rfl
@[simp] theorem setDie_domain (k : Nat) (x : Die) : (s.setDie k x).domain = s.domain := rfl
@[simp] theorem setDie_retraining (k : Nat) (x : Die) : (s.setDie k x).retraining = s.retraining := rfl
@[simp] theorem setDie_portsDown (k : Nat) (x : Die) : (s.setDie k x).portsDown = s.portsDown := rfl

/-! ## setParty -/

@[simp] theorem setParty_meridian (k : Nat) (x : Party) : (s.setParty k x).meridian = s.meridian := rfl
@[simp] theorem setParty_badWindow (k : Nat) (x : Party) : (s.setParty k x).badWindow = s.badWindow := rfl
@[simp] theorem setParty_posts (k : Nat) (x : Party) : (s.setParty k x).posts = s.posts := rfl
@[simp] theorem setParty_pace (k : Nat) (x : Party) : (s.setParty k x).pace = s.pace := rfl
@[simp] theorem setParty_freeIx (k : Nat) (x : Party) : (s.setParty k x).freeIx = s.freeIx := rfl
@[simp] theorem setParty_agenda (k : Nat) (x : Party) : (s.setParty k x).agenda = s.agenda := rfl
@[simp] theorem setParty_cur (k : Nat) (x : Party) : (s.setParty k x).cur = s.cur := rfl
@[simp] theorem setParty_turn (k : Nat) (x : Party) : (s.setParty k x).turn = s.turn := rfl
@[simp] theorem setParty_mem (k : Nat) (x : Party) : (s.setParty k x).mem = s.mem := rfl
@[simp] theorem setParty_xmax (k : Nat) (x : Party) : (s.setParty k x).xmax = s.xmax := rfl
@[simp] theorem setParty_bad (k : Nat) (x : Party) : (s.setParty k x).bad = s.bad := rfl
@[simp] theorem setParty_dies (k : Nat) (x : Party) : (s.setParty k x).dies = s.dies := rfl
@[simp] theorem setParty_cores (k : Nat) (x : Party) : (s.setParty k x).cores = s.cores := rfl
@[simp] theorem setParty_crews (k : Nat) (x : Party) : (s.setParty k x).crews = s.crews := rfl
@[simp] theorem setParty_parties (k : Nat) (x : Party) : (s.setParty k x).parties = Tbl.set s.parties k x := rfl
@[simp] theorem setParty_tasks (k : Nat) (x : Party) : (s.setParty k x).tasks = s.tasks := rfl
@[simp] theorem setParty_nextTask (k : Nat) (x : Party) : (s.setParty k x).nextTask = s.nextTask := rfl
@[simp] theorem setParty_launches (k : Nat) (x : Party) : (s.setParty k x).launches = s.launches := rfl
@[simp] theorem setParty_nextLaunch (k : Nat) (x : Party) : (s.setParty k x).nextLaunch = s.nextLaunch := rfl
@[simp] theorem setParty_decls (k : Nat) (x : Party) : (s.setParty k x).decls = s.decls := rfl
@[simp] theorem setParty_nextDecl (k : Nat) (x : Party) : (s.setParty k x).nextDecl = s.nextDecl := rfl
@[simp] theorem setParty_views (k : Nat) (x : Party) : (s.setParty k x).views = s.views := rfl
@[simp] theorem setParty_nextView (k : Nat) (x : Party) : (s.setParty k x).nextView = s.nextView := rfl
@[simp] theorem setParty_pedTable (k : Nat) (x : Party) : (s.setParty k x).pedTable = s.pedTable := rfl
@[simp] theorem setParty_nextPed (k : Nat) (x : Party) : (s.setParty k x).nextPed = s.nextPed := rfl
@[simp] theorem setParty_records (k : Nat) (x : Party) : (s.setParty k x).records = s.records := rfl
@[simp] theorem setParty_svcs (k : Nat) (x : Party) : (s.setParty k x).svcs = s.svcs := rfl
@[simp] theorem setParty_claims (k : Nat) (x : Party) : (s.setParty k x).claims = s.claims := rfl
@[simp] theorem setParty_comms (k : Nat) (x : Party) : (s.setParty k x).comms = s.comms := rfl
@[simp] theorem setParty_scheds (k : Nat) (x : Party) : (s.setParty k x).scheds = s.scheds := rfl
@[simp] theorem setParty_handles (k : Nat) (x : Party) : (s.setParty k x).handles = s.handles := rfl
@[simp] theorem setParty_amps (k : Nat) (x : Party) : (s.setParty k x).amps = s.amps := rfl
@[simp] theorem setParty_budgets (k : Nat) (x : Party) : (s.setParty k x).budgets = s.budgets := rfl
@[simp] theorem setParty_heldClasses (k : Nat) (x : Party) : (s.setParty k x).heldClasses = s.heldClasses := rfl
@[simp] theorem setParty_period (k : Nat) (x : Party) : (s.setParty k x).period = s.period := rfl
@[simp] theorem setParty_ctxTable (k : Nat) (x : Party) : (s.setParty k x).ctxTable = s.ctxTable := rfl
@[simp] theorem setParty_ctxLive (k : Nat) (x : Party) : (s.setParty k x).ctxLive = s.ctxLive := rfl
@[simp] theorem setParty_regions (k : Nat) (x : Party) : (s.setParty k x).regions = s.regions := rfl
@[simp] theorem setParty_mirrors (k : Nat) (x : Party) : (s.setParty k x).mirrors = s.mirrors := rfl
@[simp] theorem setParty_mirrorsDue (k : Nat) (x : Party) : (s.setParty k x).mirrorsDue = s.mirrorsDue := rfl
@[simp] theorem setParty_qps (k : Nat) (x : Party) : (s.setParty k x).qps = s.qps := rfl
@[simp] theorem setParty_outbox (k : Nat) (x : Party) : (s.setParty k x).outbox = s.outbox := rfl
@[simp] theorem setParty_ready (k : Nat) (x : Party) : (s.setParty k x).ready = s.ready := rfl
@[simp] theorem setParty_retiredBits (k : Nat) (x : Party) : (s.setParty k x).retiredBits = s.retiredBits := rfl
@[simp] theorem setParty_firmware (k : Nat) (x : Party) : (s.setParty k x).firmware = s.firmware := rfl
@[simp] theorem setParty_telemetry (k : Nat) (x : Party) : (s.setParty k x).telemetry = s.telemetry := rfl
@[simp] theorem setParty_elog (k : Nat) (x : Party) : (s.setParty k x).elog = s.elog := rfl
@[simp] theorem setParty_powerOver (k : Nat) (x : Party) : (s.setParty k x).powerOver = s.powerOver := rfl
@[simp] theorem setParty_powerSince (k : Nat) (x : Party) : (s.setParty k x).powerSince = s.powerSince := rfl
@[simp] theorem setParty_pkgId (k : Nat) (x : Party) : (s.setParty k x).pkgId = s.pkgId := rfl
@[simp] theorem setParty_domain (k : Nat) (x : Party) : (s.setParty k x).domain = s.domain := rfl
@[simp] theorem setParty_retraining (k : Nat) (x : Party) : (s.setParty k x).retraining = s.retraining := rfl
@[simp] theorem setParty_portsDown (k : Nat) (x : Party) : (s.setParty k x).portsDown = s.portsDown := rfl

/-! ## setTask -/

@[simp] theorem setTask_meridian (k : Nat) (x : Task) : (s.setTask k x).meridian = s.meridian := rfl
@[simp] theorem setTask_badWindow (k : Nat) (x : Task) : (s.setTask k x).badWindow = s.badWindow := rfl
@[simp] theorem setTask_posts (k : Nat) (x : Task) : (s.setTask k x).posts = s.posts := rfl
@[simp] theorem setTask_pace (k : Nat) (x : Task) : (s.setTask k x).pace = s.pace := rfl
@[simp] theorem setTask_freeIx (k : Nat) (x : Task) : (s.setTask k x).freeIx = s.freeIx := rfl
@[simp] theorem setTask_agenda (k : Nat) (x : Task) : (s.setTask k x).agenda = s.agenda := rfl
@[simp] theorem setTask_cur (k : Nat) (x : Task) : (s.setTask k x).cur = s.cur := rfl
@[simp] theorem setTask_turn (k : Nat) (x : Task) : (s.setTask k x).turn = s.turn := rfl
@[simp] theorem setTask_mem (k : Nat) (x : Task) : (s.setTask k x).mem = s.mem := rfl
@[simp] theorem setTask_xmax (k : Nat) (x : Task) : (s.setTask k x).xmax = s.xmax := rfl
@[simp] theorem setTask_bad (k : Nat) (x : Task) : (s.setTask k x).bad = s.bad := rfl
@[simp] theorem setTask_dies (k : Nat) (x : Task) : (s.setTask k x).dies = s.dies := rfl
@[simp] theorem setTask_cores (k : Nat) (x : Task) : (s.setTask k x).cores = s.cores := rfl
@[simp] theorem setTask_crews (k : Nat) (x : Task) : (s.setTask k x).crews = s.crews := rfl
@[simp] theorem setTask_parties (k : Nat) (x : Task) : (s.setTask k x).parties = s.parties := rfl
@[simp] theorem setTask_tasks (k : Nat) (x : Task) : (s.setTask k x).tasks = Tbl.set s.tasks k x := rfl
@[simp] theorem setTask_nextTask (k : Nat) (x : Task) : (s.setTask k x).nextTask = s.nextTask := rfl
@[simp] theorem setTask_launches (k : Nat) (x : Task) : (s.setTask k x).launches = s.launches := rfl
@[simp] theorem setTask_nextLaunch (k : Nat) (x : Task) : (s.setTask k x).nextLaunch = s.nextLaunch := rfl
@[simp] theorem setTask_decls (k : Nat) (x : Task) : (s.setTask k x).decls = s.decls := rfl
@[simp] theorem setTask_nextDecl (k : Nat) (x : Task) : (s.setTask k x).nextDecl = s.nextDecl := rfl
@[simp] theorem setTask_views (k : Nat) (x : Task) : (s.setTask k x).views = s.views := rfl
@[simp] theorem setTask_nextView (k : Nat) (x : Task) : (s.setTask k x).nextView = s.nextView := rfl
@[simp] theorem setTask_pedTable (k : Nat) (x : Task) : (s.setTask k x).pedTable = s.pedTable := rfl
@[simp] theorem setTask_nextPed (k : Nat) (x : Task) : (s.setTask k x).nextPed = s.nextPed := rfl
@[simp] theorem setTask_records (k : Nat) (x : Task) : (s.setTask k x).records = s.records := rfl
@[simp] theorem setTask_svcs (k : Nat) (x : Task) : (s.setTask k x).svcs = s.svcs := rfl
@[simp] theorem setTask_claims (k : Nat) (x : Task) : (s.setTask k x).claims = s.claims := rfl
@[simp] theorem setTask_comms (k : Nat) (x : Task) : (s.setTask k x).comms = s.comms := rfl
@[simp] theorem setTask_scheds (k : Nat) (x : Task) : (s.setTask k x).scheds = s.scheds := rfl
@[simp] theorem setTask_handles (k : Nat) (x : Task) : (s.setTask k x).handles = s.handles := rfl
@[simp] theorem setTask_amps (k : Nat) (x : Task) : (s.setTask k x).amps = s.amps := rfl
@[simp] theorem setTask_budgets (k : Nat) (x : Task) : (s.setTask k x).budgets = s.budgets := rfl
@[simp] theorem setTask_heldClasses (k : Nat) (x : Task) : (s.setTask k x).heldClasses = s.heldClasses := rfl
@[simp] theorem setTask_period (k : Nat) (x : Task) : (s.setTask k x).period = s.period := rfl
@[simp] theorem setTask_ctxTable (k : Nat) (x : Task) : (s.setTask k x).ctxTable = s.ctxTable := rfl
@[simp] theorem setTask_ctxLive (k : Nat) (x : Task) : (s.setTask k x).ctxLive = s.ctxLive := rfl
@[simp] theorem setTask_regions (k : Nat) (x : Task) : (s.setTask k x).regions = s.regions := rfl
@[simp] theorem setTask_mirrors (k : Nat) (x : Task) : (s.setTask k x).mirrors = s.mirrors := rfl
@[simp] theorem setTask_mirrorsDue (k : Nat) (x : Task) : (s.setTask k x).mirrorsDue = s.mirrorsDue := rfl
@[simp] theorem setTask_qps (k : Nat) (x : Task) : (s.setTask k x).qps = s.qps := rfl
@[simp] theorem setTask_outbox (k : Nat) (x : Task) : (s.setTask k x).outbox = s.outbox := rfl
@[simp] theorem setTask_ready (k : Nat) (x : Task) : (s.setTask k x).ready = s.ready := rfl
@[simp] theorem setTask_retiredBits (k : Nat) (x : Task) : (s.setTask k x).retiredBits = s.retiredBits := rfl
@[simp] theorem setTask_firmware (k : Nat) (x : Task) : (s.setTask k x).firmware = s.firmware := rfl
@[simp] theorem setTask_telemetry (k : Nat) (x : Task) : (s.setTask k x).telemetry = s.telemetry := rfl
@[simp] theorem setTask_elog (k : Nat) (x : Task) : (s.setTask k x).elog = s.elog := rfl
@[simp] theorem setTask_powerOver (k : Nat) (x : Task) : (s.setTask k x).powerOver = s.powerOver := rfl
@[simp] theorem setTask_powerSince (k : Nat) (x : Task) : (s.setTask k x).powerSince = s.powerSince := rfl
@[simp] theorem setTask_pkgId (k : Nat) (x : Task) : (s.setTask k x).pkgId = s.pkgId := rfl
@[simp] theorem setTask_domain (k : Nat) (x : Task) : (s.setTask k x).domain = s.domain := rfl
@[simp] theorem setTask_retraining (k : Nat) (x : Task) : (s.setTask k x).retraining = s.retraining := rfl
@[simp] theorem setTask_portsDown (k : Nat) (x : Task) : (s.setTask k x).portsDown = s.portsDown := rfl

/-! ## modLaunch -/

@[simp] theorem modLaunch_meridian (k : Nat) (f : Launch → Launch) : (s.modLaunch k f).meridian = s.meridian := rfl
@[simp] theorem modLaunch_badWindow (k : Nat) (f : Launch → Launch) : (s.modLaunch k f).badWindow = s.badWindow := rfl
@[simp] theorem modLaunch_posts (k : Nat) (f : Launch → Launch) : (s.modLaunch k f).posts = s.posts := rfl
@[simp] theorem modLaunch_pace (k : Nat) (f : Launch → Launch) : (s.modLaunch k f).pace = s.pace := rfl
@[simp] theorem modLaunch_freeIx (k : Nat) (f : Launch → Launch) : (s.modLaunch k f).freeIx = s.freeIx := rfl
@[simp] theorem modLaunch_agenda (k : Nat) (f : Launch → Launch) : (s.modLaunch k f).agenda = s.agenda := rfl
@[simp] theorem modLaunch_cur (k : Nat) (f : Launch → Launch) : (s.modLaunch k f).cur = s.cur := rfl
@[simp] theorem modLaunch_turn (k : Nat) (f : Launch → Launch) : (s.modLaunch k f).turn = s.turn := rfl
@[simp] theorem modLaunch_mem (k : Nat) (f : Launch → Launch) : (s.modLaunch k f).mem = s.mem := rfl
@[simp] theorem modLaunch_xmax (k : Nat) (f : Launch → Launch) : (s.modLaunch k f).xmax = s.xmax := rfl
@[simp] theorem modLaunch_bad (k : Nat) (f : Launch → Launch) : (s.modLaunch k f).bad = s.bad := rfl
@[simp] theorem modLaunch_dies (k : Nat) (f : Launch → Launch) : (s.modLaunch k f).dies = s.dies := rfl
@[simp] theorem modLaunch_cores (k : Nat) (f : Launch → Launch) : (s.modLaunch k f).cores = s.cores := rfl
@[simp] theorem modLaunch_crews (k : Nat) (f : Launch → Launch) : (s.modLaunch k f).crews = s.crews := rfl
@[simp] theorem modLaunch_parties (k : Nat) (f : Launch → Launch) : (s.modLaunch k f).parties = s.parties := rfl
@[simp] theorem modLaunch_tasks (k : Nat) (f : Launch → Launch) : (s.modLaunch k f).tasks = s.tasks := rfl
@[simp] theorem modLaunch_nextTask (k : Nat) (f : Launch → Launch) : (s.modLaunch k f).nextTask = s.nextTask := rfl
@[simp] theorem modLaunch_launches (k : Nat) (f : Launch → Launch) : (s.modLaunch k f).launches = Tbl.set s.launches k (f (s.launch k)) := rfl
@[simp] theorem modLaunch_nextLaunch (k : Nat) (f : Launch → Launch) : (s.modLaunch k f).nextLaunch = s.nextLaunch := rfl
@[simp] theorem modLaunch_decls (k : Nat) (f : Launch → Launch) : (s.modLaunch k f).decls = s.decls := rfl
@[simp] theorem modLaunch_nextDecl (k : Nat) (f : Launch → Launch) : (s.modLaunch k f).nextDecl = s.nextDecl := rfl
@[simp] theorem modLaunch_views (k : Nat) (f : Launch → Launch) : (s.modLaunch k f).views = s.views := rfl
@[simp] theorem modLaunch_nextView (k : Nat) (f : Launch → Launch) : (s.modLaunch k f).nextView = s.nextView := rfl
@[simp] theorem modLaunch_pedTable (k : Nat) (f : Launch → Launch) : (s.modLaunch k f).pedTable = s.pedTable := rfl
@[simp] theorem modLaunch_nextPed (k : Nat) (f : Launch → Launch) : (s.modLaunch k f).nextPed = s.nextPed := rfl
@[simp] theorem modLaunch_records (k : Nat) (f : Launch → Launch) : (s.modLaunch k f).records = s.records := rfl
@[simp] theorem modLaunch_svcs (k : Nat) (f : Launch → Launch) : (s.modLaunch k f).svcs = s.svcs := rfl
@[simp] theorem modLaunch_claims (k : Nat) (f : Launch → Launch) : (s.modLaunch k f).claims = s.claims := rfl
@[simp] theorem modLaunch_comms (k : Nat) (f : Launch → Launch) : (s.modLaunch k f).comms = s.comms := rfl
@[simp] theorem modLaunch_scheds (k : Nat) (f : Launch → Launch) : (s.modLaunch k f).scheds = s.scheds := rfl
@[simp] theorem modLaunch_handles (k : Nat) (f : Launch → Launch) : (s.modLaunch k f).handles = s.handles := rfl
@[simp] theorem modLaunch_amps (k : Nat) (f : Launch → Launch) : (s.modLaunch k f).amps = s.amps := rfl
@[simp] theorem modLaunch_budgets (k : Nat) (f : Launch → Launch) : (s.modLaunch k f).budgets = s.budgets := rfl
@[simp] theorem modLaunch_heldClasses (k : Nat) (f : Launch → Launch) : (s.modLaunch k f).heldClasses = s.heldClasses := rfl
@[simp] theorem modLaunch_period (k : Nat) (f : Launch → Launch) : (s.modLaunch k f).period = s.period := rfl
@[simp] theorem modLaunch_ctxTable (k : Nat) (f : Launch → Launch) : (s.modLaunch k f).ctxTable = s.ctxTable := rfl
@[simp] theorem modLaunch_ctxLive (k : Nat) (f : Launch → Launch) : (s.modLaunch k f).ctxLive = s.ctxLive := rfl
@[simp] theorem modLaunch_regions (k : Nat) (f : Launch → Launch) : (s.modLaunch k f).regions = s.regions := rfl
@[simp] theorem modLaunch_mirrors (k : Nat) (f : Launch → Launch) : (s.modLaunch k f).mirrors = s.mirrors := rfl
@[simp] theorem modLaunch_mirrorsDue (k : Nat) (f : Launch → Launch) : (s.modLaunch k f).mirrorsDue = s.mirrorsDue := rfl
@[simp] theorem modLaunch_qps (k : Nat) (f : Launch → Launch) : (s.modLaunch k f).qps = s.qps := rfl
@[simp] theorem modLaunch_outbox (k : Nat) (f : Launch → Launch) : (s.modLaunch k f).outbox = s.outbox := rfl
@[simp] theorem modLaunch_ready (k : Nat) (f : Launch → Launch) : (s.modLaunch k f).ready = s.ready := rfl
@[simp] theorem modLaunch_retiredBits (k : Nat) (f : Launch → Launch) : (s.modLaunch k f).retiredBits = s.retiredBits := rfl
@[simp] theorem modLaunch_firmware (k : Nat) (f : Launch → Launch) : (s.modLaunch k f).firmware = s.firmware := rfl
@[simp] theorem modLaunch_telemetry (k : Nat) (f : Launch → Launch) : (s.modLaunch k f).telemetry = s.telemetry := rfl
@[simp] theorem modLaunch_elog (k : Nat) (f : Launch → Launch) : (s.modLaunch k f).elog = s.elog := rfl
@[simp] theorem modLaunch_powerOver (k : Nat) (f : Launch → Launch) : (s.modLaunch k f).powerOver = s.powerOver := rfl
@[simp] theorem modLaunch_powerSince (k : Nat) (f : Launch → Launch) : (s.modLaunch k f).powerSince = s.powerSince := rfl
@[simp] theorem modLaunch_pkgId (k : Nat) (f : Launch → Launch) : (s.modLaunch k f).pkgId = s.pkgId := rfl
@[simp] theorem modLaunch_domain (k : Nat) (f : Launch → Launch) : (s.modLaunch k f).domain = s.domain := rfl
@[simp] theorem modLaunch_retraining (k : Nat) (f : Launch → Launch) : (s.modLaunch k f).retraining = s.retraining := rfl
@[simp] theorem modLaunch_portsDown (k : Nat) (f : Launch → Launch) : (s.modLaunch k f).portsDown = s.portsDown := rfl

/-! ## modSvc -/

@[simp] theorem modSvc_meridian (k : Nat) (f : Svc → Svc) : (s.modSvc k f).meridian = s.meridian := rfl
@[simp] theorem modSvc_badWindow (k : Nat) (f : Svc → Svc) : (s.modSvc k f).badWindow = s.badWindow := rfl
@[simp] theorem modSvc_posts (k : Nat) (f : Svc → Svc) : (s.modSvc k f).posts = s.posts := rfl
@[simp] theorem modSvc_pace (k : Nat) (f : Svc → Svc) : (s.modSvc k f).pace = s.pace := rfl
@[simp] theorem modSvc_freeIx (k : Nat) (f : Svc → Svc) : (s.modSvc k f).freeIx = s.freeIx := rfl
@[simp] theorem modSvc_agenda (k : Nat) (f : Svc → Svc) : (s.modSvc k f).agenda = s.agenda := rfl
@[simp] theorem modSvc_cur (k : Nat) (f : Svc → Svc) : (s.modSvc k f).cur = s.cur := rfl
@[simp] theorem modSvc_turn (k : Nat) (f : Svc → Svc) : (s.modSvc k f).turn = s.turn := rfl
@[simp] theorem modSvc_mem (k : Nat) (f : Svc → Svc) : (s.modSvc k f).mem = s.mem := rfl
@[simp] theorem modSvc_xmax (k : Nat) (f : Svc → Svc) : (s.modSvc k f).xmax = s.xmax := rfl
@[simp] theorem modSvc_bad (k : Nat) (f : Svc → Svc) : (s.modSvc k f).bad = s.bad := rfl
@[simp] theorem modSvc_dies (k : Nat) (f : Svc → Svc) : (s.modSvc k f).dies = s.dies := rfl
@[simp] theorem modSvc_cores (k : Nat) (f : Svc → Svc) : (s.modSvc k f).cores = s.cores := rfl
@[simp] theorem modSvc_crews (k : Nat) (f : Svc → Svc) : (s.modSvc k f).crews = s.crews := rfl
@[simp] theorem modSvc_parties (k : Nat) (f : Svc → Svc) : (s.modSvc k f).parties = s.parties := rfl
@[simp] theorem modSvc_tasks (k : Nat) (f : Svc → Svc) : (s.modSvc k f).tasks = s.tasks := rfl
@[simp] theorem modSvc_nextTask (k : Nat) (f : Svc → Svc) : (s.modSvc k f).nextTask = s.nextTask := rfl
@[simp] theorem modSvc_launches (k : Nat) (f : Svc → Svc) : (s.modSvc k f).launches = s.launches := rfl
@[simp] theorem modSvc_nextLaunch (k : Nat) (f : Svc → Svc) : (s.modSvc k f).nextLaunch = s.nextLaunch := rfl
@[simp] theorem modSvc_decls (k : Nat) (f : Svc → Svc) : (s.modSvc k f).decls = s.decls := rfl
@[simp] theorem modSvc_nextDecl (k : Nat) (f : Svc → Svc) : (s.modSvc k f).nextDecl = s.nextDecl := rfl
@[simp] theorem modSvc_views (k : Nat) (f : Svc → Svc) : (s.modSvc k f).views = s.views := rfl
@[simp] theorem modSvc_nextView (k : Nat) (f : Svc → Svc) : (s.modSvc k f).nextView = s.nextView := rfl
@[simp] theorem modSvc_pedTable (k : Nat) (f : Svc → Svc) : (s.modSvc k f).pedTable = s.pedTable := rfl
@[simp] theorem modSvc_nextPed (k : Nat) (f : Svc → Svc) : (s.modSvc k f).nextPed = s.nextPed := rfl
@[simp] theorem modSvc_records (k : Nat) (f : Svc → Svc) : (s.modSvc k f).records = s.records := rfl
@[simp] theorem modSvc_svcs (k : Nat) (f : Svc → Svc) : (s.modSvc k f).svcs = Tbl.set s.svcs k (f (s.svc k)) := rfl
@[simp] theorem modSvc_claims (k : Nat) (f : Svc → Svc) : (s.modSvc k f).claims = s.claims := rfl
@[simp] theorem modSvc_comms (k : Nat) (f : Svc → Svc) : (s.modSvc k f).comms = s.comms := rfl
@[simp] theorem modSvc_scheds (k : Nat) (f : Svc → Svc) : (s.modSvc k f).scheds = s.scheds := rfl
@[simp] theorem modSvc_handles (k : Nat) (f : Svc → Svc) : (s.modSvc k f).handles = s.handles := rfl
@[simp] theorem modSvc_amps (k : Nat) (f : Svc → Svc) : (s.modSvc k f).amps = s.amps := rfl
@[simp] theorem modSvc_budgets (k : Nat) (f : Svc → Svc) : (s.modSvc k f).budgets = s.budgets := rfl
@[simp] theorem modSvc_heldClasses (k : Nat) (f : Svc → Svc) : (s.modSvc k f).heldClasses = s.heldClasses := rfl
@[simp] theorem modSvc_period (k : Nat) (f : Svc → Svc) : (s.modSvc k f).period = s.period := rfl
@[simp] theorem modSvc_ctxTable (k : Nat) (f : Svc → Svc) : (s.modSvc k f).ctxTable = s.ctxTable := rfl
@[simp] theorem modSvc_ctxLive (k : Nat) (f : Svc → Svc) : (s.modSvc k f).ctxLive = s.ctxLive := rfl
@[simp] theorem modSvc_regions (k : Nat) (f : Svc → Svc) : (s.modSvc k f).regions = s.regions := rfl
@[simp] theorem modSvc_mirrors (k : Nat) (f : Svc → Svc) : (s.modSvc k f).mirrors = s.mirrors := rfl
@[simp] theorem modSvc_mirrorsDue (k : Nat) (f : Svc → Svc) : (s.modSvc k f).mirrorsDue = s.mirrorsDue := rfl
@[simp] theorem modSvc_qps (k : Nat) (f : Svc → Svc) : (s.modSvc k f).qps = s.qps := rfl
@[simp] theorem modSvc_outbox (k : Nat) (f : Svc → Svc) : (s.modSvc k f).outbox = s.outbox := rfl
@[simp] theorem modSvc_ready (k : Nat) (f : Svc → Svc) : (s.modSvc k f).ready = s.ready := rfl
@[simp] theorem modSvc_retiredBits (k : Nat) (f : Svc → Svc) : (s.modSvc k f).retiredBits = s.retiredBits := rfl
@[simp] theorem modSvc_firmware (k : Nat) (f : Svc → Svc) : (s.modSvc k f).firmware = s.firmware := rfl
@[simp] theorem modSvc_telemetry (k : Nat) (f : Svc → Svc) : (s.modSvc k f).telemetry = s.telemetry := rfl
@[simp] theorem modSvc_elog (k : Nat) (f : Svc → Svc) : (s.modSvc k f).elog = s.elog := rfl
@[simp] theorem modSvc_powerOver (k : Nat) (f : Svc → Svc) : (s.modSvc k f).powerOver = s.powerOver := rfl
@[simp] theorem modSvc_powerSince (k : Nat) (f : Svc → Svc) : (s.modSvc k f).powerSince = s.powerSince := rfl
@[simp] theorem modSvc_pkgId (k : Nat) (f : Svc → Svc) : (s.modSvc k f).pkgId = s.pkgId := rfl
@[simp] theorem modSvc_domain (k : Nat) (f : Svc → Svc) : (s.modSvc k f).domain = s.domain := rfl
@[simp] theorem modSvc_retraining (k : Nat) (f : Svc → Svc) : (s.modSvc k f).retraining = s.retraining := rfl
@[simp] theorem modSvc_portsDown (k : Nat) (f : Svc → Svc) : (s.modSvc k f).portsDown = s.portsDown := rfl

/-! ## modCore -/

@[simp] theorem modCore_meridian (k : Nat) (f : Core → Core) : (s.modCore k f).meridian = s.meridian := rfl
@[simp] theorem modCore_badWindow (k : Nat) (f : Core → Core) : (s.modCore k f).badWindow = s.badWindow := rfl
@[simp] theorem modCore_posts (k : Nat) (f : Core → Core) : (s.modCore k f).posts = s.posts := rfl
@[simp] theorem modCore_pace (k : Nat) (f : Core → Core) : (s.modCore k f).pace = s.pace := rfl
@[simp] theorem modCore_freeIx (k : Nat) (f : Core → Core) : (s.modCore k f).freeIx = s.freeIx := rfl
@[simp] theorem modCore_agenda (k : Nat) (f : Core → Core) : (s.modCore k f).agenda = s.agenda := rfl
@[simp] theorem modCore_cur (k : Nat) (f : Core → Core) : (s.modCore k f).cur = s.cur := rfl
@[simp] theorem modCore_turn (k : Nat) (f : Core → Core) : (s.modCore k f).turn = s.turn := rfl
@[simp] theorem modCore_mem (k : Nat) (f : Core → Core) : (s.modCore k f).mem = s.mem := rfl
@[simp] theorem modCore_xmax (k : Nat) (f : Core → Core) : (s.modCore k f).xmax = s.xmax := rfl
@[simp] theorem modCore_bad (k : Nat) (f : Core → Core) : (s.modCore k f).bad = s.bad := rfl
@[simp] theorem modCore_dies (k : Nat) (f : Core → Core) : (s.modCore k f).dies = s.dies := rfl
@[simp] theorem modCore_cores (k : Nat) (f : Core → Core) : (s.modCore k f).cores = Tbl.set s.cores k (f (s.core k)) := rfl
@[simp] theorem modCore_crews (k : Nat) (f : Core → Core) : (s.modCore k f).crews = s.crews := rfl
@[simp] theorem modCore_parties (k : Nat) (f : Core → Core) : (s.modCore k f).parties = s.parties := rfl
@[simp] theorem modCore_tasks (k : Nat) (f : Core → Core) : (s.modCore k f).tasks = s.tasks := rfl
@[simp] theorem modCore_nextTask (k : Nat) (f : Core → Core) : (s.modCore k f).nextTask = s.nextTask := rfl
@[simp] theorem modCore_launches (k : Nat) (f : Core → Core) : (s.modCore k f).launches = s.launches := rfl
@[simp] theorem modCore_nextLaunch (k : Nat) (f : Core → Core) : (s.modCore k f).nextLaunch = s.nextLaunch := rfl
@[simp] theorem modCore_decls (k : Nat) (f : Core → Core) : (s.modCore k f).decls = s.decls := rfl
@[simp] theorem modCore_nextDecl (k : Nat) (f : Core → Core) : (s.modCore k f).nextDecl = s.nextDecl := rfl
@[simp] theorem modCore_views (k : Nat) (f : Core → Core) : (s.modCore k f).views = s.views := rfl
@[simp] theorem modCore_nextView (k : Nat) (f : Core → Core) : (s.modCore k f).nextView = s.nextView := rfl
@[simp] theorem modCore_pedTable (k : Nat) (f : Core → Core) : (s.modCore k f).pedTable = s.pedTable := rfl
@[simp] theorem modCore_nextPed (k : Nat) (f : Core → Core) : (s.modCore k f).nextPed = s.nextPed := rfl
@[simp] theorem modCore_records (k : Nat) (f : Core → Core) : (s.modCore k f).records = s.records := rfl
@[simp] theorem modCore_svcs (k : Nat) (f : Core → Core) : (s.modCore k f).svcs = s.svcs := rfl
@[simp] theorem modCore_claims (k : Nat) (f : Core → Core) : (s.modCore k f).claims = s.claims := rfl
@[simp] theorem modCore_comms (k : Nat) (f : Core → Core) : (s.modCore k f).comms = s.comms := rfl
@[simp] theorem modCore_scheds (k : Nat) (f : Core → Core) : (s.modCore k f).scheds = s.scheds := rfl
@[simp] theorem modCore_handles (k : Nat) (f : Core → Core) : (s.modCore k f).handles = s.handles := rfl
@[simp] theorem modCore_amps (k : Nat) (f : Core → Core) : (s.modCore k f).amps = s.amps := rfl
@[simp] theorem modCore_budgets (k : Nat) (f : Core → Core) : (s.modCore k f).budgets = s.budgets := rfl
@[simp] theorem modCore_heldClasses (k : Nat) (f : Core → Core) : (s.modCore k f).heldClasses = s.heldClasses := rfl
@[simp] theorem modCore_period (k : Nat) (f : Core → Core) : (s.modCore k f).period = s.period := rfl
@[simp] theorem modCore_ctxTable (k : Nat) (f : Core → Core) : (s.modCore k f).ctxTable = s.ctxTable := rfl
@[simp] theorem modCore_ctxLive (k : Nat) (f : Core → Core) : (s.modCore k f).ctxLive = s.ctxLive := rfl
@[simp] theorem modCore_regions (k : Nat) (f : Core → Core) : (s.modCore k f).regions = s.regions := rfl
@[simp] theorem modCore_mirrors (k : Nat) (f : Core → Core) : (s.modCore k f).mirrors = s.mirrors := rfl
@[simp] theorem modCore_mirrorsDue (k : Nat) (f : Core → Core) : (s.modCore k f).mirrorsDue = s.mirrorsDue := rfl
@[simp] theorem modCore_qps (k : Nat) (f : Core → Core) : (s.modCore k f).qps = s.qps := rfl
@[simp] theorem modCore_outbox (k : Nat) (f : Core → Core) : (s.modCore k f).outbox = s.outbox := rfl
@[simp] theorem modCore_ready (k : Nat) (f : Core → Core) : (s.modCore k f).ready = s.ready := rfl
@[simp] theorem modCore_retiredBits (k : Nat) (f : Core → Core) : (s.modCore k f).retiredBits = s.retiredBits := rfl
@[simp] theorem modCore_firmware (k : Nat) (f : Core → Core) : (s.modCore k f).firmware = s.firmware := rfl
@[simp] theorem modCore_telemetry (k : Nat) (f : Core → Core) : (s.modCore k f).telemetry = s.telemetry := rfl
@[simp] theorem modCore_elog (k : Nat) (f : Core → Core) : (s.modCore k f).elog = s.elog := rfl
@[simp] theorem modCore_powerOver (k : Nat) (f : Core → Core) : (s.modCore k f).powerOver = s.powerOver := rfl
@[simp] theorem modCore_powerSince (k : Nat) (f : Core → Core) : (s.modCore k f).powerSince = s.powerSince := rfl
@[simp] theorem modCore_pkgId (k : Nat) (f : Core → Core) : (s.modCore k f).pkgId = s.pkgId := rfl
@[simp] theorem modCore_domain (k : Nat) (f : Core → Core) : (s.modCore k f).domain = s.domain := rfl
@[simp] theorem modCore_retraining (k : Nat) (f : Core → Core) : (s.modCore k f).retraining = s.retraining := rfl
@[simp] theorem modCore_portsDown (k : Nat) (f : Core → Core) : (s.modCore k f).portsDown = s.portsDown := rfl

/-! ## modDie -/

@[simp] theorem modDie_meridian (k : Nat) (f : Die → Die) : (s.modDie k f).meridian = s.meridian := rfl
@[simp] theorem modDie_badWindow (k : Nat) (f : Die → Die) : (s.modDie k f).badWindow = s.badWindow := rfl
@[simp] theorem modDie_posts (k : Nat) (f : Die → Die) : (s.modDie k f).posts = s.posts := rfl
@[simp] theorem modDie_pace (k : Nat) (f : Die → Die) : (s.modDie k f).pace = s.pace := rfl
@[simp] theorem modDie_freeIx (k : Nat) (f : Die → Die) : (s.modDie k f).freeIx = s.freeIx := rfl
@[simp] theorem modDie_agenda (k : Nat) (f : Die → Die) : (s.modDie k f).agenda = s.agenda := rfl
@[simp] theorem modDie_cur (k : Nat) (f : Die → Die) : (s.modDie k f).cur = s.cur := rfl
@[simp] theorem modDie_turn (k : Nat) (f : Die → Die) : (s.modDie k f).turn = s.turn := rfl
@[simp] theorem modDie_mem (k : Nat) (f : Die → Die) : (s.modDie k f).mem = s.mem := rfl
@[simp] theorem modDie_xmax (k : Nat) (f : Die → Die) : (s.modDie k f).xmax = s.xmax := rfl
@[simp] theorem modDie_bad (k : Nat) (f : Die → Die) : (s.modDie k f).bad = s.bad := rfl
@[simp] theorem modDie_dies (k : Nat) (f : Die → Die) : (s.modDie k f).dies = Tbl.set s.dies k (f (s.die k)) := rfl
@[simp] theorem modDie_cores (k : Nat) (f : Die → Die) : (s.modDie k f).cores = s.cores := rfl
@[simp] theorem modDie_crews (k : Nat) (f : Die → Die) : (s.modDie k f).crews = s.crews := rfl
@[simp] theorem modDie_parties (k : Nat) (f : Die → Die) : (s.modDie k f).parties = s.parties := rfl
@[simp] theorem modDie_tasks (k : Nat) (f : Die → Die) : (s.modDie k f).tasks = s.tasks := rfl
@[simp] theorem modDie_nextTask (k : Nat) (f : Die → Die) : (s.modDie k f).nextTask = s.nextTask := rfl
@[simp] theorem modDie_launches (k : Nat) (f : Die → Die) : (s.modDie k f).launches = s.launches := rfl
@[simp] theorem modDie_nextLaunch (k : Nat) (f : Die → Die) : (s.modDie k f).nextLaunch = s.nextLaunch := rfl
@[simp] theorem modDie_decls (k : Nat) (f : Die → Die) : (s.modDie k f).decls = s.decls := rfl
@[simp] theorem modDie_nextDecl (k : Nat) (f : Die → Die) : (s.modDie k f).nextDecl = s.nextDecl := rfl
@[simp] theorem modDie_views (k : Nat) (f : Die → Die) : (s.modDie k f).views = s.views := rfl
@[simp] theorem modDie_nextView (k : Nat) (f : Die → Die) : (s.modDie k f).nextView = s.nextView := rfl
@[simp] theorem modDie_pedTable (k : Nat) (f : Die → Die) : (s.modDie k f).pedTable = s.pedTable := rfl
@[simp] theorem modDie_nextPed (k : Nat) (f : Die → Die) : (s.modDie k f).nextPed = s.nextPed := rfl
@[simp] theorem modDie_records (k : Nat) (f : Die → Die) : (s.modDie k f).records = s.records := rfl
@[simp] theorem modDie_svcs (k : Nat) (f : Die → Die) : (s.modDie k f).svcs = s.svcs := rfl
@[simp] theorem modDie_claims (k : Nat) (f : Die → Die) : (s.modDie k f).claims = s.claims := rfl
@[simp] theorem modDie_comms (k : Nat) (f : Die → Die) : (s.modDie k f).comms = s.comms := rfl
@[simp] theorem modDie_scheds (k : Nat) (f : Die → Die) : (s.modDie k f).scheds = s.scheds := rfl
@[simp] theorem modDie_handles (k : Nat) (f : Die → Die) : (s.modDie k f).handles = s.handles := rfl
@[simp] theorem modDie_amps (k : Nat) (f : Die → Die) : (s.modDie k f).amps = s.amps := rfl
@[simp] theorem modDie_budgets (k : Nat) (f : Die → Die) : (s.modDie k f).budgets = s.budgets := rfl
@[simp] theorem modDie_heldClasses (k : Nat) (f : Die → Die) : (s.modDie k f).heldClasses = s.heldClasses := rfl
@[simp] theorem modDie_period (k : Nat) (f : Die → Die) : (s.modDie k f).period = s.period := rfl
@[simp] theorem modDie_ctxTable (k : Nat) (f : Die → Die) : (s.modDie k f).ctxTable = s.ctxTable := rfl
@[simp] theorem modDie_ctxLive (k : Nat) (f : Die → Die) : (s.modDie k f).ctxLive = s.ctxLive := rfl
@[simp] theorem modDie_regions (k : Nat) (f : Die → Die) : (s.modDie k f).regions = s.regions := rfl
@[simp] theorem modDie_mirrors (k : Nat) (f : Die → Die) : (s.modDie k f).mirrors = s.mirrors := rfl
@[simp] theorem modDie_mirrorsDue (k : Nat) (f : Die → Die) : (s.modDie k f).mirrorsDue = s.mirrorsDue := rfl
@[simp] theorem modDie_qps (k : Nat) (f : Die → Die) : (s.modDie k f).qps = s.qps := rfl
@[simp] theorem modDie_outbox (k : Nat) (f : Die → Die) : (s.modDie k f).outbox = s.outbox := rfl
@[simp] theorem modDie_ready (k : Nat) (f : Die → Die) : (s.modDie k f).ready = s.ready := rfl
@[simp] theorem modDie_retiredBits (k : Nat) (f : Die → Die) : (s.modDie k f).retiredBits = s.retiredBits := rfl
@[simp] theorem modDie_firmware (k : Nat) (f : Die → Die) : (s.modDie k f).firmware = s.firmware := rfl
@[simp] theorem modDie_telemetry (k : Nat) (f : Die → Die) : (s.modDie k f).telemetry = s.telemetry := rfl
@[simp] theorem modDie_elog (k : Nat) (f : Die → Die) : (s.modDie k f).elog = s.elog := rfl
@[simp] theorem modDie_powerOver (k : Nat) (f : Die → Die) : (s.modDie k f).powerOver = s.powerOver := rfl
@[simp] theorem modDie_powerSince (k : Nat) (f : Die → Die) : (s.modDie k f).powerSince = s.powerSince := rfl
@[simp] theorem modDie_pkgId (k : Nat) (f : Die → Die) : (s.modDie k f).pkgId = s.pkgId := rfl
@[simp] theorem modDie_domain (k : Nat) (f : Die → Die) : (s.modDie k f).domain = s.domain := rfl
@[simp] theorem modDie_retraining (k : Nat) (f : Die → Die) : (s.modDie k f).retraining = s.retraining := rfl
@[simp] theorem modDie_portsDown (k : Nat) (f : Die → Die) : (s.modDie k f).portsDown = s.portsDown := rfl

/-! ## modParty -/

@[simp] theorem modParty_meridian (k : Nat) (f : Party → Party) : (s.modParty k f).meridian = s.meridian := rfl
@[simp] theorem modParty_badWindow (k : Nat) (f : Party → Party) : (s.modParty k f).badWindow = s.badWindow := rfl
@[simp] theorem modParty_posts (k : Nat) (f : Party → Party) : (s.modParty k f).posts = s.posts := rfl
@[simp] theorem modParty_pace (k : Nat) (f : Party → Party) : (s.modParty k f).pace = s.pace := rfl
@[simp] theorem modParty_freeIx (k : Nat) (f : Party → Party) : (s.modParty k f).freeIx = s.freeIx := rfl
@[simp] theorem modParty_agenda (k : Nat) (f : Party → Party) : (s.modParty k f).agenda = s.agenda := rfl
@[simp] theorem modParty_cur (k : Nat) (f : Party → Party) : (s.modParty k f).cur = s.cur := rfl
@[simp] theorem modParty_turn (k : Nat) (f : Party → Party) : (s.modParty k f).turn = s.turn := rfl
@[simp] theorem modParty_mem (k : Nat) (f : Party → Party) : (s.modParty k f).mem = s.mem := rfl
@[simp] theorem modParty_xmax (k : Nat) (f : Party → Party) : (s.modParty k f).xmax = s.xmax := rfl
@[simp] theorem modParty_bad (k : Nat) (f : Party → Party) : (s.modParty k f).bad = s.bad := rfl
@[simp] theorem modParty_dies (k : Nat) (f : Party → Party) : (s.modParty k f).dies = s.dies := rfl
@[simp] theorem modParty_cores (k : Nat) (f : Party → Party) : (s.modParty k f).cores = s.cores := rfl
@[simp] theorem modParty_crews (k : Nat) (f : Party → Party) : (s.modParty k f).crews = s.crews := rfl
@[simp] theorem modParty_parties (k : Nat) (f : Party → Party) : (s.modParty k f).parties = Tbl.set s.parties k (f (s.party k)) := rfl
@[simp] theorem modParty_tasks (k : Nat) (f : Party → Party) : (s.modParty k f).tasks = s.tasks := rfl
@[simp] theorem modParty_nextTask (k : Nat) (f : Party → Party) : (s.modParty k f).nextTask = s.nextTask := rfl
@[simp] theorem modParty_launches (k : Nat) (f : Party → Party) : (s.modParty k f).launches = s.launches := rfl
@[simp] theorem modParty_nextLaunch (k : Nat) (f : Party → Party) : (s.modParty k f).nextLaunch = s.nextLaunch := rfl
@[simp] theorem modParty_decls (k : Nat) (f : Party → Party) : (s.modParty k f).decls = s.decls := rfl
@[simp] theorem modParty_nextDecl (k : Nat) (f : Party → Party) : (s.modParty k f).nextDecl = s.nextDecl := rfl
@[simp] theorem modParty_views (k : Nat) (f : Party → Party) : (s.modParty k f).views = s.views := rfl
@[simp] theorem modParty_nextView (k : Nat) (f : Party → Party) : (s.modParty k f).nextView = s.nextView := rfl
@[simp] theorem modParty_pedTable (k : Nat) (f : Party → Party) : (s.modParty k f).pedTable = s.pedTable := rfl
@[simp] theorem modParty_nextPed (k : Nat) (f : Party → Party) : (s.modParty k f).nextPed = s.nextPed := rfl
@[simp] theorem modParty_records (k : Nat) (f : Party → Party) : (s.modParty k f).records = s.records := rfl
@[simp] theorem modParty_svcs (k : Nat) (f : Party → Party) : (s.modParty k f).svcs = s.svcs := rfl
@[simp] theorem modParty_claims (k : Nat) (f : Party → Party) : (s.modParty k f).claims = s.claims := rfl
@[simp] theorem modParty_comms (k : Nat) (f : Party → Party) : (s.modParty k f).comms = s.comms := rfl
@[simp] theorem modParty_scheds (k : Nat) (f : Party → Party) : (s.modParty k f).scheds = s.scheds := rfl
@[simp] theorem modParty_handles (k : Nat) (f : Party → Party) : (s.modParty k f).handles = s.handles := rfl
@[simp] theorem modParty_amps (k : Nat) (f : Party → Party) : (s.modParty k f).amps = s.amps := rfl
@[simp] theorem modParty_budgets (k : Nat) (f : Party → Party) : (s.modParty k f).budgets = s.budgets := rfl
@[simp] theorem modParty_heldClasses (k : Nat) (f : Party → Party) : (s.modParty k f).heldClasses = s.heldClasses := rfl
@[simp] theorem modParty_period (k : Nat) (f : Party → Party) : (s.modParty k f).period = s.period := rfl
@[simp] theorem modParty_ctxTable (k : Nat) (f : Party → Party) : (s.modParty k f).ctxTable = s.ctxTable := rfl
@[simp] theorem modParty_ctxLive (k : Nat) (f : Party → Party) : (s.modParty k f).ctxLive = s.ctxLive := rfl
@[simp] theorem modParty_regions (k : Nat) (f : Party → Party) : (s.modParty k f).regions = s.regions := rfl
@[simp] theorem modParty_mirrors (k : Nat) (f : Party → Party) : (s.modParty k f).mirrors = s.mirrors := rfl
@[simp] theorem modParty_mirrorsDue (k : Nat) (f : Party → Party) : (s.modParty k f).mirrorsDue = s.mirrorsDue := rfl
@[simp] theorem modParty_qps (k : Nat) (f : Party → Party) : (s.modParty k f).qps = s.qps := rfl
@[simp] theorem modParty_outbox (k : Nat) (f : Party → Party) : (s.modParty k f).outbox = s.outbox := rfl
@[simp] theorem modParty_ready (k : Nat) (f : Party → Party) : (s.modParty k f).ready = s.ready := rfl
@[simp] theorem modParty_retiredBits (k : Nat) (f : Party → Party) : (s.modParty k f).retiredBits = s.retiredBits := rfl
@[simp] theorem modParty_firmware (k : Nat) (f : Party → Party) : (s.modParty k f).firmware = s.firmware := rfl
@[simp] theorem modParty_telemetry (k : Nat) (f : Party → Party) : (s.modParty k f).telemetry = s.telemetry := rfl
@[simp] theorem modParty_elog (k : Nat) (f : Party → Party) : (s.modParty k f).elog = s.elog := rfl
@[simp] theorem modParty_powerOver (k : Nat) (f : Party → Party) : (s.modParty k f).powerOver = s.powerOver := rfl
@[simp] theorem modParty_powerSince (k : Nat) (f : Party → Party) : (s.modParty k f).powerSince = s.powerSince := rfl
@[simp] theorem modParty_pkgId (k : Nat) (f : Party → Party) : (s.modParty k f).pkgId = s.pkgId := rfl
@[simp] theorem modParty_domain (k : Nat) (f : Party → Party) : (s.modParty k f).domain = s.domain := rfl
@[simp] theorem modParty_retraining (k : Nat) (f : Party → Party) : (s.modParty k f).retraining = s.retraining := rfl
@[simp] theorem modParty_portsDown (k : Nat) (f : Party → Party) : (s.modParty k f).portsDown = s.portsDown := rfl

/-! ## modTask -/

@[simp] theorem modTask_meridian (k : Nat) (f : Task → Task) : (s.modTask k f).meridian = s.meridian := rfl
@[simp] theorem modTask_badWindow (k : Nat) (f : Task → Task) : (s.modTask k f).badWindow = s.badWindow := rfl
@[simp] theorem modTask_posts (k : Nat) (f : Task → Task) : (s.modTask k f).posts = s.posts := rfl
@[simp] theorem modTask_pace (k : Nat) (f : Task → Task) : (s.modTask k f).pace = s.pace := rfl
@[simp] theorem modTask_freeIx (k : Nat) (f : Task → Task) : (s.modTask k f).freeIx = s.freeIx := rfl
@[simp] theorem modTask_agenda (k : Nat) (f : Task → Task) : (s.modTask k f).agenda = s.agenda := rfl
@[simp] theorem modTask_cur (k : Nat) (f : Task → Task) : (s.modTask k f).cur = s.cur := rfl
@[simp] theorem modTask_turn (k : Nat) (f : Task → Task) : (s.modTask k f).turn = s.turn := rfl
@[simp] theorem modTask_mem (k : Nat) (f : Task → Task) : (s.modTask k f).mem = s.mem := rfl
@[simp] theorem modTask_xmax (k : Nat) (f : Task → Task) : (s.modTask k f).xmax = s.xmax := rfl
@[simp] theorem modTask_bad (k : Nat) (f : Task → Task) : (s.modTask k f).bad = s.bad := rfl
@[simp] theorem modTask_dies (k : Nat) (f : Task → Task) : (s.modTask k f).dies = s.dies := rfl
@[simp] theorem modTask_cores (k : Nat) (f : Task → Task) : (s.modTask k f).cores = s.cores := rfl
@[simp] theorem modTask_crews (k : Nat) (f : Task → Task) : (s.modTask k f).crews = s.crews := rfl
@[simp] theorem modTask_parties (k : Nat) (f : Task → Task) : (s.modTask k f).parties = s.parties := rfl
@[simp] theorem modTask_tasks (k : Nat) (f : Task → Task) : (s.modTask k f).tasks = Tbl.set s.tasks k (f (s.task k)) := rfl
@[simp] theorem modTask_nextTask (k : Nat) (f : Task → Task) : (s.modTask k f).nextTask = s.nextTask := rfl
@[simp] theorem modTask_launches (k : Nat) (f : Task → Task) : (s.modTask k f).launches = s.launches := rfl
@[simp] theorem modTask_nextLaunch (k : Nat) (f : Task → Task) : (s.modTask k f).nextLaunch = s.nextLaunch := rfl
@[simp] theorem modTask_decls (k : Nat) (f : Task → Task) : (s.modTask k f).decls = s.decls := rfl
@[simp] theorem modTask_nextDecl (k : Nat) (f : Task → Task) : (s.modTask k f).nextDecl = s.nextDecl := rfl
@[simp] theorem modTask_views (k : Nat) (f : Task → Task) : (s.modTask k f).views = s.views := rfl
@[simp] theorem modTask_nextView (k : Nat) (f : Task → Task) : (s.modTask k f).nextView = s.nextView := rfl
@[simp] theorem modTask_pedTable (k : Nat) (f : Task → Task) : (s.modTask k f).pedTable = s.pedTable := rfl
@[simp] theorem modTask_nextPed (k : Nat) (f : Task → Task) : (s.modTask k f).nextPed = s.nextPed := rfl
@[simp] theorem modTask_records (k : Nat) (f : Task → Task) : (s.modTask k f).records = s.records := rfl
@[simp] theorem modTask_svcs (k : Nat) (f : Task → Task) : (s.modTask k f).svcs = s.svcs := rfl
@[simp] theorem modTask_claims (k : Nat) (f : Task → Task) : (s.modTask k f).claims = s.claims := rfl
@[simp] theorem modTask_comms (k : Nat) (f : Task → Task) : (s.modTask k f).comms = s.comms := rfl
@[simp] theorem modTask_scheds (k : Nat) (f : Task → Task) : (s.modTask k f).scheds = s.scheds := rfl
@[simp] theorem modTask_handles (k : Nat) (f : Task → Task) : (s.modTask k f).handles = s.handles := rfl
@[simp] theorem modTask_amps (k : Nat) (f : Task → Task) : (s.modTask k f).amps = s.amps := rfl
@[simp] theorem modTask_budgets (k : Nat) (f : Task → Task) : (s.modTask k f).budgets = s.budgets := rfl
@[simp] theorem modTask_heldClasses (k : Nat) (f : Task → Task) : (s.modTask k f).heldClasses = s.heldClasses := rfl
@[simp] theorem modTask_period (k : Nat) (f : Task → Task) : (s.modTask k f).period = s.period := rfl
@[simp] theorem modTask_ctxTable (k : Nat) (f : Task → Task) : (s.modTask k f).ctxTable = s.ctxTable := rfl
@[simp] theorem modTask_ctxLive (k : Nat) (f : Task → Task) : (s.modTask k f).ctxLive = s.ctxLive := rfl
@[simp] theorem modTask_regions (k : Nat) (f : Task → Task) : (s.modTask k f).regions = s.regions := rfl
@[simp] theorem modTask_mirrors (k : Nat) (f : Task → Task) : (s.modTask k f).mirrors = s.mirrors := rfl
@[simp] theorem modTask_mirrorsDue (k : Nat) (f : Task → Task) : (s.modTask k f).mirrorsDue = s.mirrorsDue := rfl
@[simp] theorem modTask_qps (k : Nat) (f : Task → Task) : (s.modTask k f).qps = s.qps := rfl
@[simp] theorem modTask_outbox (k : Nat) (f : Task → Task) : (s.modTask k f).outbox = s.outbox := rfl
@[simp] theorem modTask_ready (k : Nat) (f : Task → Task) : (s.modTask k f).ready = s.ready := rfl
@[simp] theorem modTask_retiredBits (k : Nat) (f : Task → Task) : (s.modTask k f).retiredBits = s.retiredBits := rfl
@[simp] theorem modTask_firmware (k : Nat) (f : Task → Task) : (s.modTask k f).firmware = s.firmware := rfl
@[simp] theorem modTask_telemetry (k : Nat) (f : Task → Task) : (s.modTask k f).telemetry = s.telemetry := rfl
@[simp] theorem modTask_elog (k : Nat) (f : Task → Task) : (s.modTask k f).elog = s.elog := rfl
@[simp] theorem modTask_powerOver (k : Nat) (f : Task → Task) : (s.modTask k f).powerOver = s.powerOver := rfl
@[simp] theorem modTask_powerSince (k : Nat) (f : Task → Task) : (s.modTask k f).powerSince = s.powerSince := rfl
@[simp] theorem modTask_pkgId (k : Nat) (f : Task → Task) : (s.modTask k f).pkgId = s.pkgId := rfl
@[simp] theorem modTask_domain (k : Nat) (f : Task → Task) : (s.modTask k f).domain = s.domain := rfl
@[simp] theorem modTask_retraining (k : Nat) (f : Task → Task) : (s.modTask k f).retraining = s.retraining := rfl
@[simp] theorem modTask_portsDown (k : Nat) (f : Task → Task) : (s.modTask k f).portsDown = s.portsDown := rfl

/-! ## modCrew -/

@[simp] theorem modCrew_meridian (k : Nat) (f : Crew → Crew) : (s.modCrew k f).meridian = s.meridian := by unfold modCrew; split <;> rfl
@[simp] theorem modCrew_badWindow (k : Nat) (f : Crew → Crew) : (s.modCrew k f).badWindow = s.badWindow := by unfold modCrew; split <;> rfl
@[simp] theorem modCrew_posts (k : Nat) (f : Crew → Crew) : (s.modCrew k f).posts = s.posts := by unfold modCrew; split <;> rfl
@[simp] theorem modCrew_pace (k : Nat) (f : Crew → Crew) : (s.modCrew k f).pace = s.pace := by unfold modCrew; split <;> rfl
@[simp] theorem modCrew_freeIx (k : Nat) (f : Crew → Crew) : (s.modCrew k f).freeIx = s.freeIx := by unfold modCrew; split <;> rfl
@[simp] theorem modCrew_agenda (k : Nat) (f : Crew → Crew) : (s.modCrew k f).agenda = s.agenda := by unfold modCrew; split <;> rfl
@[simp] theorem modCrew_cur (k : Nat) (f : Crew → Crew) : (s.modCrew k f).cur = s.cur := by unfold modCrew; split <;> rfl
@[simp] theorem modCrew_turn (k : Nat) (f : Crew → Crew) : (s.modCrew k f).turn = s.turn := by unfold modCrew; split <;> rfl
@[simp] theorem modCrew_mem (k : Nat) (f : Crew → Crew) : (s.modCrew k f).mem = s.mem := by unfold modCrew; split <;> rfl
@[simp] theorem modCrew_xmax (k : Nat) (f : Crew → Crew) : (s.modCrew k f).xmax = s.xmax := by unfold modCrew; split <;> rfl
@[simp] theorem modCrew_bad (k : Nat) (f : Crew → Crew) : (s.modCrew k f).bad = s.bad := by unfold modCrew; split <;> rfl
@[simp] theorem modCrew_dies (k : Nat) (f : Crew → Crew) : (s.modCrew k f).dies = s.dies := by unfold modCrew; split <;> rfl
@[simp] theorem modCrew_cores (k : Nat) (f : Crew → Crew) : (s.modCrew k f).cores = s.cores := by unfold modCrew; split <;> rfl
@[simp] theorem modCrew_parties (k : Nat) (f : Crew → Crew) : (s.modCrew k f).parties = s.parties := by unfold modCrew; split <;> rfl
@[simp] theorem modCrew_tasks (k : Nat) (f : Crew → Crew) : (s.modCrew k f).tasks = s.tasks := by unfold modCrew; split <;> rfl
@[simp] theorem modCrew_nextTask (k : Nat) (f : Crew → Crew) : (s.modCrew k f).nextTask = s.nextTask := by unfold modCrew; split <;> rfl
@[simp] theorem modCrew_launches (k : Nat) (f : Crew → Crew) : (s.modCrew k f).launches = s.launches := by unfold modCrew; split <;> rfl
@[simp] theorem modCrew_nextLaunch (k : Nat) (f : Crew → Crew) : (s.modCrew k f).nextLaunch = s.nextLaunch := by unfold modCrew; split <;> rfl
@[simp] theorem modCrew_decls (k : Nat) (f : Crew → Crew) : (s.modCrew k f).decls = s.decls := by unfold modCrew; split <;> rfl
@[simp] theorem modCrew_nextDecl (k : Nat) (f : Crew → Crew) : (s.modCrew k f).nextDecl = s.nextDecl := by unfold modCrew; split <;> rfl
@[simp] theorem modCrew_views (k : Nat) (f : Crew → Crew) : (s.modCrew k f).views = s.views := by unfold modCrew; split <;> rfl
@[simp] theorem modCrew_nextView (k : Nat) (f : Crew → Crew) : (s.modCrew k f).nextView = s.nextView := by unfold modCrew; split <;> rfl
@[simp] theorem modCrew_pedTable (k : Nat) (f : Crew → Crew) : (s.modCrew k f).pedTable = s.pedTable := by unfold modCrew; split <;> rfl
@[simp] theorem modCrew_nextPed (k : Nat) (f : Crew → Crew) : (s.modCrew k f).nextPed = s.nextPed := by unfold modCrew; split <;> rfl
@[simp] theorem modCrew_records (k : Nat) (f : Crew → Crew) : (s.modCrew k f).records = s.records := by unfold modCrew; split <;> rfl
@[simp] theorem modCrew_svcs (k : Nat) (f : Crew → Crew) : (s.modCrew k f).svcs = s.svcs := by unfold modCrew; split <;> rfl
@[simp] theorem modCrew_claims (k : Nat) (f : Crew → Crew) : (s.modCrew k f).claims = s.claims := by unfold modCrew; split <;> rfl
@[simp] theorem modCrew_comms (k : Nat) (f : Crew → Crew) : (s.modCrew k f).comms = s.comms := by unfold modCrew; split <;> rfl
@[simp] theorem modCrew_scheds (k : Nat) (f : Crew → Crew) : (s.modCrew k f).scheds = s.scheds := by unfold modCrew; split <;> rfl
@[simp] theorem modCrew_handles (k : Nat) (f : Crew → Crew) : (s.modCrew k f).handles = s.handles := by unfold modCrew; split <;> rfl
@[simp] theorem modCrew_amps (k : Nat) (f : Crew → Crew) : (s.modCrew k f).amps = s.amps := by unfold modCrew; split <;> rfl
@[simp] theorem modCrew_budgets (k : Nat) (f : Crew → Crew) : (s.modCrew k f).budgets = s.budgets := by unfold modCrew; split <;> rfl
@[simp] theorem modCrew_heldClasses (k : Nat) (f : Crew → Crew) : (s.modCrew k f).heldClasses = s.heldClasses := by unfold modCrew; split <;> rfl
@[simp] theorem modCrew_period (k : Nat) (f : Crew → Crew) : (s.modCrew k f).period = s.period := by unfold modCrew; split <;> rfl
@[simp] theorem modCrew_ctxTable (k : Nat) (f : Crew → Crew) : (s.modCrew k f).ctxTable = s.ctxTable := by unfold modCrew; split <;> rfl
@[simp] theorem modCrew_ctxLive (k : Nat) (f : Crew → Crew) : (s.modCrew k f).ctxLive = s.ctxLive := by unfold modCrew; split <;> rfl
@[simp] theorem modCrew_regions (k : Nat) (f : Crew → Crew) : (s.modCrew k f).regions = s.regions := by unfold modCrew; split <;> rfl
@[simp] theorem modCrew_mirrors (k : Nat) (f : Crew → Crew) : (s.modCrew k f).mirrors = s.mirrors := by unfold modCrew; split <;> rfl
@[simp] theorem modCrew_mirrorsDue (k : Nat) (f : Crew → Crew) : (s.modCrew k f).mirrorsDue = s.mirrorsDue := by unfold modCrew; split <;> rfl
@[simp] theorem modCrew_qps (k : Nat) (f : Crew → Crew) : (s.modCrew k f).qps = s.qps := by unfold modCrew; split <;> rfl
@[simp] theorem modCrew_outbox (k : Nat) (f : Crew → Crew) : (s.modCrew k f).outbox = s.outbox := by unfold modCrew; split <;> rfl
@[simp] theorem modCrew_ready (k : Nat) (f : Crew → Crew) : (s.modCrew k f).ready = s.ready := by unfold modCrew; split <;> rfl
@[simp] theorem modCrew_retiredBits (k : Nat) (f : Crew → Crew) : (s.modCrew k f).retiredBits = s.retiredBits := by unfold modCrew; split <;> rfl
@[simp] theorem modCrew_firmware (k : Nat) (f : Crew → Crew) : (s.modCrew k f).firmware = s.firmware := by unfold modCrew; split <;> rfl
@[simp] theorem modCrew_telemetry (k : Nat) (f : Crew → Crew) : (s.modCrew k f).telemetry = s.telemetry := by unfold modCrew; split <;> rfl
@[simp] theorem modCrew_elog (k : Nat) (f : Crew → Crew) : (s.modCrew k f).elog = s.elog := by unfold modCrew; split <;> rfl
@[simp] theorem modCrew_powerOver (k : Nat) (f : Crew → Crew) : (s.modCrew k f).powerOver = s.powerOver := by unfold modCrew; split <;> rfl
@[simp] theorem modCrew_powerSince (k : Nat) (f : Crew → Crew) : (s.modCrew k f).powerSince = s.powerSince := by unfold modCrew; split <;> rfl
@[simp] theorem modCrew_pkgId (k : Nat) (f : Crew → Crew) : (s.modCrew k f).pkgId = s.pkgId := by unfold modCrew; split <;> rfl
@[simp] theorem modCrew_domain (k : Nat) (f : Crew → Crew) : (s.modCrew k f).domain = s.domain := by unfold modCrew; split <;> rfl
@[simp] theorem modCrew_retraining (k : Nat) (f : Crew → Crew) : (s.modCrew k f).retraining = s.retraining := by unfold modCrew; split <;> rfl
@[simp] theorem modCrew_portsDown (k : Nat) (f : Crew → Crew) : (s.modCrew k f).portsDown = s.portsDown := by unfold modCrew; split <;> rfl

/-! ## Reading the tables -/

theorem crew_setCrew (k j : Nat) (x : Crew) : (s.setCrew k x).crew j = if j = k then x else s.crew j := by
  unfold crew; rw [setCrew_crews, Tbl.get?_set]; split <;> rfl
@[simp] theorem crew_setCrew_self (k : Nat) (x : Crew) : (s.setCrew k x).crew k = x := by rw [crew_setCrew, if_pos rfl]

/-- A crew that is listed, or an agent, takes its change; no other crew does. -/
theorem crew_modCrew (k j : Nat) (f : Crew → Crew) (h : ((Tbl.get? s.crews k).isSome || isAgentKey k) = true) :
    (s.modCrew k f).crew j = if j = k then f (s.crew k) else s.crew j := by
  unfold modCrew; rw [if_pos h, crew_setCrew]
theorem crew_modCrew_ne {k j : Nat} (f : Crew → Crew) (h : j ≠ k) : (s.modCrew k f).crew j = s.crew j := by
  unfold modCrew; split
  · rw [crew_setCrew, if_neg h]
  · rfl

theorem core_setCore (k j : Nat) (x : Core) : (s.setCore k x).core j = if j = k then x else s.core j := by
  unfold core; rw [setCore_cores, Tbl.get?_set]; split <;> rfl
theorem core_modCore (k j : Nat) (f : Core → Core) : (s.modCore k f).core j = if j = k then f (s.core k) else s.core j :=
  core_setCore s k j _
theorem die_setDie (k j : Nat) (x : Die) : (s.setDie k x).die j = if j = k then x else s.die j := by
  unfold die; rw [setDie_dies, Tbl.get?_set]; split <;> rfl
theorem die_modDie (k j : Nat) (f : Die → Die) : (s.modDie k f).die j = if j = k then f (s.die k) else s.die j :=
  die_setDie s k j _
theorem party_setParty (k j : Nat) (x : Party) : (s.setParty k x).party j = if j = k then x else s.party j := by
  unfold party; rw [setParty_parties, Tbl.get?_set]; split <;> rfl
theorem party_modParty (k j : Nat) (f : Party → Party) :
    (s.modParty k f).party j = if j = k then f (s.party k) else s.party j := party_setParty s k j _
theorem task_setTask (k j : Nat) (x : Task) : (s.setTask k x).task j = if j = k then x else s.task j := by
  unfold task; rw [setTask_tasks, Tbl.get?_set]; split <;> rfl
theorem task_modTask (k j : Nat) (f : Task → Task) : (s.modTask k f).task j = if j = k then f (s.task k) else s.task j :=
  task_setTask s k j _

@[simp] theorem core_modCore_self (k : Nat) (f : Core → Core) : (s.modCore k f).core k = f (s.core k) := by
  rw [core_modCore, if_pos rfl]
@[simp] theorem die_modDie_self (k : Nat) (f : Die → Die) : (s.modDie k f).die k = f (s.die k) := by
  rw [die_modDie, if_pos rfl]
@[simp] theorem party_modParty_self (k : Nat) (f : Party → Party) : (s.modParty k f).party k = f (s.party k) := by
  rw [party_modParty, if_pos rfl]
@[simp] theorem task_modTask_self (k : Nat) (f : Task → Task) : (s.modTask k f).task k = f (s.task k) := by
  rw [task_modTask, if_pos rfl]

/-- An update of one table leaves the reading of the others. -/
@[simp] theorem crew_setCore (k j : Nat) (x : Core) : (s.setCore k x).crew j = s.crew j := rfl
@[simp] theorem crew_modCore (k j : Nat) (f : Core → Core) : (s.modCore k f).crew j = s.crew j := rfl
@[simp] theorem crew_modDie (k j : Nat) (f : Die → Die) : (s.modDie k f).crew j = s.crew j := rfl
@[simp] theorem crew_setParty (k j : Nat) (x : Party) : (s.setParty k x).crew j = s.crew j := rfl
@[simp] theorem crew_modParty (k j : Nat) (f : Party → Party) : (s.modParty k f).crew j = s.crew j := rfl
@[simp] theorem crew_modTask (k j : Nat) (f : Task → Task) : (s.modTask k f).crew j = s.crew j := rfl
@[simp] theorem party_setCrew (k j : Nat) (x : Crew) : (s.setCrew k x).party j = s.party j := rfl
@[simp] theorem task_setCrew (k j : Nat) (x : Crew) : (s.setCrew k x).task j = s.task j := rfl
@[simp] theorem core_setCrew (k j : Nat) (x : Crew) : (s.setCrew k x).core j = s.core j := rfl
@[simp] theorem die_setCrew (k j : Nat) (x : Crew) : (s.setCrew k x).die j = s.die j := rfl
@[simp] theorem party_modCrew (k j : Nat) (f : Crew → Crew) : (s.modCrew k f).party j = s.party j := by
  simp [party]
@[simp] theorem task_modCrew (k j : Nat) (f : Crew → Crew) : (s.modCrew k f).task j = s.task j := by
  simp [task]
@[simp] theorem core_modCrew (k j : Nat) (f : Crew → Crew) : (s.modCrew k f).core j = s.core j := by
  simp [core]
@[simp] theorem die_modCrew (k j : Nat) (f : Crew → Crew) : (s.modCrew k f).die j = s.die j := by
  simp [die]

/-- A crew that has been set is listed. -/
@[simp] theorem listed_setCrew (k : Nat) (x : Crew) : (Tbl.get? (s.setCrew k x).crews k).isSome = true := by simp

end Sys2Proof.Machine.State
end

