-- ==== Sys2Proof/Laws/Issue.lean ====
section
/-! SUPPORT. What the frames of instructions and events answer. -/
namespace Sys2Proof.Machine

/-- The state in which an issued instruction acts, as its frame makes it. -/
theorem entered_eq (s : State) (key : Nat) (f : Ctl) :
    s.entered key f = if f.ie then s.setCrew key { s.crew key with
      inRegion := true, epc := (s.crew key).pc, epcDix := (s.crew key).dix } else s := rfl

@[simp] theorem entered_mem (s : State) (key : Nat) (f : Ctl) : (s.entered key f).mem = s.mem := by
  unfold State.entered; split <;> rfl
@[simp] theorem entered_party (s : State) (key j : Nat) (f : Ctl) : (s.entered key f).party j = s.party j := by
  unfold State.entered; split <;> rfl
@[simp] theorem entered_task (s : State) (key j : Nat) (f : Ctl) : (s.entered key f).task j = s.task j := by
  unfold State.entered; split <;> rfl
@[simp] theorem entered_core (s : State) (key j : Nat) (f : Ctl) : (s.entered key f).core j = s.core j := by
  unfold State.entered; split <;> rfl
@[simp] theorem entered_die (s : State) (key j : Nat) (f : Ctl) : (s.entered key f).die j = s.die j := by
  unfold State.entered; split <;> rfl

/-- The crew that issues keeps everything but its region's entry. -/
theorem entered_crew (s : State) (key : Nat) (f : Ctl) : (s.entered key f).crew key =
    if f.ie then { s.crew key with inRegion := true, epc := (s.crew key).pc, epcDix := (s.crew key).dix } else s.crew key := by
  unfold State.entered; split <;> simp

/-- The entry of a region changes no operation in flight. -/
@[simp] theorem entered_walking (s : State) (key : Nat) (f : Ctl) :
    ((s.entered key f).crew key).walking = (s.crew key).walking := by
  rw [entered_crew]; split <;> rfl

/-- The entry of a region arms no operation. -/
@[simp] theorem entered_armedHold (s : State) (key : Nat) (f : Ctl) :
    ((s.entered key f).crew key).armedHold = (s.crew key).armedHold := by
  rw [entered_crew]; split <;> rfl

/-- An instruction that nothing holds has no armed operation before it (spec/09 R177). -/
theorem armedHold_of_heldBy {c : Crew} {i : Instr} (h : c.heldBy i = none) : c.armedHold = false := by
  cases ha : c.armedHold
  · rfl
  · simp [Crew.heldBy, ha] at h

/-- Every answer of the frame of an instruction that issues: what its body answers decides (spec/01 R22). -/
theorem issue_of_Issues {i : Instr} {s : State} {key : Nat} (body : State → Nat → Crew → Issue) (h : Issues i s key) :
    let f := Instr.hints i
    let u := s.entered key f
    issue i s body = match body u key (u.crew key) with
      | .done t => .next ((t.advance key).retire key f false)
      | .jump t => .next (t.retire key f true)
      | .wait w t => .next ((t.modCrew key fun x => x.notEntered (s.crew key)).stalled key w)
      | .trap r => .next (u.raise key r (Instr.isRejected i))
      | .trapAt t r => .next (if (s.crew key).walking then s.stalled key .region else t.takeFault key r) := by
  obtain ⟨hc, -, -, hr, hh, hp⟩ := h
  simp only [issue, hc, hr, hh, hp] <;> rfl

/-- An instruction whose body is done runs on with that effect. -/
theorem issue_done {i : Instr} {s : State} {key : Nat} {body : State → Nat → Crew → Issue} {t : State} (h : Issues i s key)
    (hb : body (s.entered key (Instr.hints i)) key ((s.entered key (Instr.hints i)).crew key) = .done t) :
    issue i s body = .next ((t.advance key).retire key (Instr.hints i) false) := by
  rw [issue_of_Issues body h, hb]

/-- An instruction whose body has moved the PC ends its run. -/
theorem issue_jump {i : Instr} {s : State} {key : Nat} {body : State → Nat → Crew → Issue} {t : State} (h : Issues i s key)
    (hb : body (s.entered key (Instr.hints i)) key ((s.entered key (Instr.hints i)).crew key) = .jump t) :
    issue i s body = .next (t.retire key (Instr.hints i) true) := by
  rw [issue_of_Issues body h, hb]

/-- An instruction that waits leaves its crew outside the region that it would have entered (spec/13 R230). -/
theorem issue_wait {i : Instr} {s : State} {key : Nat} {body : State → Nat → Crew → Issue} {w : Wait} {t : State}
    (h : Issues i s key)
    (hb : body (s.entered key (Instr.hints i)) key ((s.entered key (Instr.hints i)).crew key) = .wait w t) :
    issue i s body = .next ((t.modCrew key fun x => x.notEntered (s.crew key)).stalled key w) := by
  rw [issue_of_Issues body h, hb]

/-- An instruction whose body traps takes its fault, when no load of its region waits. -/
theorem issue_trap {i : Instr} {s : State} {key : Nat} {body : State → Nat → Crew → Issue} {r : Report} (h : Issues i s key)
    (hn : NoRegionLoad s key) (hi : Instr.isRejected i = false)
    (hb : body (s.entered key (Instr.hints i)) key ((s.entered key (Instr.hints i)).crew key) = .trap r) :
    issue i s body = .next ((s.entered key (Instr.hints i)).takeFault key r) := by
  rw [issue_of_Issues body h, hb]
  obtain ⟨-, -, -, -, hh, -⟩ := h
  simp [State.raise, armedHold_of_heldBy hh, show (s.crew key).walking = false from hn, hi]

/-- The frame of an instruction that acts once, with an effective lane. -/
theorem once_done {i : Instr} {f : Ctl} {s : State} {key : Nat} {body : State → Nat → Crew → Issue} {t : State}
    (h : Issues i s key) (hf : Instr.hints i = f) (he : ((s.entered key f).crew key).eff f ≠ 0)
    (hb : body (s.entered key f) key ((s.entered key f).crew key) = .done t) :
    once i f s body = .next ((t.advance key).retire key f false) := by
  subst hf
  exact issue_done h (by simp only [if_neg he, hb])

/-- An event of a die that does not relock happens. -/
theorem eventOn_of {die : Nat} {s : State} {g : State → State} (h : s.relocking die = false) :
    eventOn die s g = .next (g s).crewsEnd.wakeCrews := by
  simp [eventOn, h, event]

/-- An event of the host link happens while the Ethernet port is ready (spec/00 R1). -/
theorem eventHost_of {s : State} {g : State → State} (h : s.ready.getLsbD 112 = true) :
    eventHost s g = .next (g s).crewsEnd.wakeCrews := by
  simp [eventHost, h, event]

end Sys2Proof.Machine
end

