-- ==== Sys2Proof/Laws/Memory.lean ====
section
/-! SUPPORT. Every operation that changes memory keeps its canonical form, and the operations of the issue frame leave memory
as it is. -/
namespace Sys2Proof.Machine

theorem reset_mem_wf : Memory.wf State.reset.mem = true := rfl

theorem Memory.wf_clear {m : Memory} (a n : Nat) (h : Memory.wf m = true) : Memory.wf (m.clear a n) = true :=
  Sparse.wf_filter (w := 8) _ h

theorem Memory.wf_putFields {m : Memory} (a : Nat) (fs : List Field) (h : Memory.wf m = true) :
    Memory.wf (m.putFields a fs) = true := by
  unfold Memory.putFields
  induction fs generalizing m with
  | nil => exact h
  | cons f fs ih => exact ih (Memory.wf_writeBytes _ _ h)

@[simp] theorem clearBad_mem (s : State) (pa n : Nat) : (s.clearBad pa n).mem = s.mem := rfl
@[simp] theorem dropL1_mem (s : State) (core ln : Nat) : (s.dropL1 core ln).mem = s.mem := rfl
@[simp] theorem invalidateL1_mem (s : State) (core : Nat) : (s.invalidateL1 core).mem = s.mem := rfl
@[simp] theorem setL2_mem (s : State) (d ln : Nat) (x : L2Line) : (s.setL2 d ln x).mem = s.mem := by
  unfold State.setL2; split <;> rfl

/-- A fold of updates that leave memory as it is leaves it as it is. -/
theorem foldl_mem {β : Type} (g : State → β → State) (hg : ∀ s x, (g s x).mem = s.mem) (l : List β) (s : State) :
    (l.foldl g s).mem = s.mem := by
  induction l generalizing s with
  | nil => rfl
  | cons x l ih => exact (ih _).trans (hg s x)

/-- A fold of updates that keep the canonical form keeps it. -/
theorem foldl_wf {β : Type} (g : State → β → State) (hg : ∀ s x, Memory.wf s.mem = true → Memory.wf (g s x).mem = true)
    (l : List β) (s : State) (h : Memory.wf s.mem = true) : Memory.wf (l.foldl g s).mem = true := by
  induction l generalizing s with
  | nil => exact h
  | cons x l ih => exact ih _ (hg s x h)

theorem writeBack_wf {s : State} (d ln : Nat) (h : Memory.wf s.mem = true) :
    Memory.wf (s.writeBack d ln).1.mem = true := by
  unfold State.writeBack
  simp only [setL2_mem]
  generalize upto 0 128 = l
  generalize hm : s.mem = m at h ⊢
  clear hm
  induction l generalizing m with
  | nil => exact h
  | cons i l ih =>
    refine ih _ ?_
    dsimp only
    split
    · exact Memory.wf_write _ _ h
    · exact h

theorem replaceLine_wf {s : State} (d ln : Nat) (h : Memory.wf s.mem = true) : Memory.wf (s.replaceLine d ln).mem = true := by
  unfold State.replaceLine
  simp only [setL2_mem]
  split
  · exact h
  · refine foldl_wf _ (fun t i ht => ?_) _ _ (writeBack_wf d ln h)
    split <;> simpa using ht

theorem roomL2_wf {s : State} (d ln : Nat) (h : Memory.wf s.mem = true) : Memory.wf (s.roomL2 d ln).mem = true := by
  unfold State.roomL2
  dsimp only
  split
  · exact h
  · split
    · exact replaceLine_wf d _ h
    · exact h

@[simp] theorem keepCt_mem (s : State) (d : Nat) (w : BitVec 16) (ct : Nat) : (s.keepCt d w ct).mem = s.mem := by
  unfold State.keepCt
  exact foldl_mem _ (fun s i => by split <;> simp) _ _

theorem storeLine_wf {s : State} (core : Nat) (a : Attr) (sc : Scope) (pa : Nat) (bytes : List Byte) (h : Memory.wf s.mem = true) :
    Memory.wf (s.storeLine core a sc pa bytes).1.mem = true := by
  have hw : Memory.wf (s.mem.writeBytes pa bytes) = true := Memory.wf_writeBytes _ _ h
  unfold State.storeLine
  dsimp only
  repeat' split
  all_goals first | exact h | (simpa using hw) | (simpa using roomL2_wf _ _ (by simpa using h))

@[simp] theorem signalWake_mem (s : State) (core code : Nat) : (s.signalWake core code).mem = s.mem := rfl

@[simp] theorem testDeps_mem (s : State) : s.testDeps.mem = s.mem := by
  unfold State.testDeps; split <;> rfl

@[simp] theorem notify_mem (s : State) (svc : Nat) : (s.notify svc).mem = s.mem := by
  unfold State.notify
  rw [foldl_mem _ (fun s w => ?_)]
  · simp
  · unfold State.answerWaiter
    dsimp only
    repeat' split
    all_goals simp

@[simp] theorem mirrorWrite_mem (s : State) (pa ct : Nat) : (s.mirrorWrite pa ct).mem = s.mem := by
  unfold State.mirrorWrite
  refine foldl_mem _ (fun s m => ?_) _ _
  repeat' split
  all_goals rfl

theorem signalPut_wf {s : State} (a : Attr) (pa : Nat) (x : DWord) (h : Memory.wf s.mem = true) :
    Memory.wf (s.signalPut a pa x).1.mem = true := by
  unfold State.signalPut State.homePut
  split
  · exact h
  · simpa using Memory.wf_writeBytes _ _ h

@[simp] theorem sendMirrors_mem (s : State) : s.sendMirrors.mem = s.mem := rfl

theorem bumpWord_wf {s : State} (a : Attr) (pa : Nat) (h : Memory.wf s.mem = true) : Memory.wf (s.bumpWord a pa).mem = true := by
  unfold State.bumpWord
  exact signalPut_wf a pa _ h

/-! ## The frame of an instruction leaves memory as it is -/

@[simp] theorem countCycles_mem (s : State) (core k n : Nat) : (s.countCycles core k n).mem = s.mem := by
  unfold State.countCycles; split <;> simp
@[simp] theorem leavePipe_mem (s : State) (key : Nat) : (s.leavePipe key).mem = s.mem := by
  unfold State.leavePipe; dsimp only; split <;> simp
@[simp] theorem endRun_mem (s : State) (key : Nat) (re : Bool) : (s.endRun key re).mem = s.mem := by
  unfold State.endRun; dsimp only; split <;> simp
@[simp] theorem stalled_mem (s : State) (key : Nat) (w : Wait) : (s.stalled key w).mem = s.mem := by
  unfold State.stalled; simp
@[simp] theorem advance_mem (s : State) (key : Nat) : (s.advance key).mem = s.mem := by
  unfold State.advance; simp
@[simp] theorem retire_mem (s : State) (key : Nat) (f : Ctl) (moved : Bool) : (s.retire key f moved).mem = s.mem := by
  unfold State.retire; dsimp only; repeat' split
  all_goals simp
@[simp] theorem haltParty_mem (s : State) (party : Nat) : (s.haltParty party).mem = s.mem := by
  unfold State.haltParty; simp
@[simp] theorem leaveRings_mem (s : State) (key : Nat) : (s.leaveRings key).mem = s.mem := by
  unfold State.leaveRings; dsimp only; split <;> simp
@[simp] theorem takeFault_mem (s : State) (key : Nat) (r : Report) : (s.takeFault key r).mem = s.mem := by
  unfold State.takeFault; simp
@[simp] theorem agentCheck_mem (s : State) (key : Nat) (r : Report) : (s.agentCheck key r).mem = s.mem := by
  unfold State.agentCheck; simp
@[simp] theorem raise_mem (s : State) (key : Nat) (r : Report) (checked : Bool) : (s.raise key r checked).mem = s.mem := by
  unfold State.raise
  repeat' split
  all_goals simp
@[simp] theorem dropWalks_mem (s : State) (key : Nat) : (s.dropWalks key).mem = s.mem := rfl
@[simp] theorem wakeCrews_mem (s : State) : s.wakeCrews.mem = s.mem := rfl
@[simp] theorem resumeParty_mem (s : State) (party : Nat) : (s.resumeParty party).mem = s.mem := by
  unfold State.resumeParty; simp
@[simp] theorem stallOver_mem (s : State) (core : Nat) : (s.stallOver core).mem = s.mem := by
  unfold State.stallOver; split <;> rfl
@[simp] theorem resumeCrew_mem (s : State) (key : Nat) (how : FretHow) (pc : DWord) : (s.resumeCrew key how pc).mem = s.mem := by
  unfold State.resumeCrew; simp only [wakeCrews_mem, resumeParty_mem, stallOver_mem, dropWalks_mem]; split <;> simp

/-! ## Time passes: only a report that is published writes -/

@[simp] theorem countCores_mem (s : State) (n : Nat) : (s.countCores n).mem = s.mem := by
  unfold State.countCores
  refine foldl_mem _ (fun t c => ?_) _ _
  dsimp only
  split
  · rfl
  · exact foldl_mem _ (fun t i => countCycles_mem t _ _ _) _ _
@[simp] theorem countHeld_mem (s : State) (n : Nat) : (s.countHeld n).mem = s.mem := by
  unfold State.countHeld
  exact foldl_mem _ (fun t d => foldl_mem _ (fun t e => by simp) _ t) _ s
@[simp] theorem chargeTime_mem (s : State) (n : Nat) : (s.chargeTime n).mem = s.mem := by
  unfold State.chargeTime
  refine foldl_mem _ (fun s x => ?_) _ _
  rfl
@[simp] theorem dropOps_mem (s : State) (key : Nat) : (s.dropOps key).mem = s.mem := by
  unfold State.dropOps; dsimp only; split <;> simp
@[simp] theorem loseMem_mem (s : State) (key id : Nat) : (s.loseMem key id).mem = s.mem := by
  unfold State.loseMem; simp
@[simp] theorem bindLoad_mem (s : State) (key : Nat) (m : MemPend) : (s.bindLoad key m).mem = s.mem := by
  unfold State.bindLoad; dsimp only; repeat' split
  all_goals simp
@[simp] theorem packetDone_mem (s : State) (p : Packet) (x : Applied) : (s.packetDone p x).mem = s.mem := by
  unfold State.packetDone; dsimp only; repeat' split
  all_goals simp
@[simp] theorem deliver_mem (s : State) (die : Nat) : (s.deliver die).mem = s.mem := by
  unfold State.deliver
  refine foldl_mem _ (fun s x => ?_) _ _
  rw [foldl_mem _ (fun s y => packetDone_mem s _ _)]
  split <;> simp
@[simp] theorem relockOver_mem (s : State) (die : Nat) : (s.relockOver die).mem = s.mem := by
  unfold State.relockOver; dsimp only; split
  · split
    · rfl
    · simp
  · rfl
@[simp] theorem markStalls_mem (s : State) : s.markStalls.mem = s.mem := by
  unfold State.markStalls
  exact foldl_mem _ (fun s k => by simp) _ _
@[simp] theorem startPeriod_mem (s : State) : s.startPeriod.mem = s.mem := by
  unfold State.startPeriod; dsimp only; split <;> rfl
@[simp] theorem holdSpent_mem (s : State) : s.holdSpent.mem = s.mem := by
  unfold State.holdSpent; split <;> rfl
@[simp] theorem cutRuns_mem (s : State) : s.cutRuns.mem = s.mem := by
  unfold State.cutRuns
  exact foldl_mem _ (fun s k => by simp) _ _
theorem countLost_wf {s u : State} {ctx : Nat} (h : Memory.wf s.mem = true) (hu : s.countLost ctx = some u) :
    Memory.wf u.mem = true := by
  unfold State.countLost at hu
  split at hu
  · cases hu; exact h
  · split at hu
    · cases hu
    · cases hu; exact bumpWord_wf _ _ h
theorem countPost_wf {s u : State} {ctx : Nat} (h : Memory.wf s.mem = true) (hu : s.countPost ctx = some u) :
    Memory.wf u.mem = true := by
  unfold State.countPost at hu
  split at hu
  · cases hu; exact h
  · dsimp only at hu
    split at hu
    · cases hu
    · cases hn : s.noteWord ctx ‹_› with
      | none => rw [hn] at hu; cases hu; exact bumpWord_wf _ _ h
      | some n => rw [hn] at hu; cases hu; exact bumpWord_wf _ _ (bumpWord_wf _ _ h)

theorem postStep_wf {s : State} (p : Post) (first : Bool) (h : Memory.wf s.mem = true) :
    Memory.wf (s.postStep p first).1.mem = true := by
  unfold State.postStep
  split
  · split
    · exact countLost_wf h ‹_›
    · exact h
  · split
    · split
      · exact h
      · split
        · exact h
        · exact Memory.wf_putFields _ _ (Memory.wf_clear _ _ h)
    · split
      · exact h
      · split
        · exact countPost_wf h ‹_›
        · exact h

theorem publish_wf {s : State} (h : Memory.wf s.mem = true) : Memory.wf s.publish.mem = true := by
  have key : ∀ (l : List Post) (acc : State × List Post), Memory.wf acc.1.mem = true →
      Memory.wf (l.foldl (fun (acc : State × List Post) p =>
        let x := acc.1.postStep p (acc.2.all fun q => q.ctx ≠ p.ctx)
        (x.1, acc.2 ++ x.2.toList)) acc).1.mem = true := by
    intro l
    induction l with
    | nil => exact fun _ h => h
    | cons p l ih => exact fun acc ha => ih _ (postStep_wf _ _ ha)
  unfold State.publish
  dsimp only
  split
  · exact h
  · exact key s.posts (s, []) h
@[simp] theorem refetch_mem (s : State) : s.refetch.mem = s.mem := by
  unfold State.refetch; dsimp only; repeat' split
  all_goals rfl
@[simp] theorem flash_mem (s : State) : s.flash.mem = s.mem := by
  unfold State.flash; split
  · rfl
  · dsimp only; split <;> rfl
theorem tick_wf {s : State} (h : Memory.wf s.mem = true) : Memory.wf s.tick.mem = true := by
  unfold State.tick
  rw [flash_mem, refetch_mem, sendMirrors_mem]
  refine publish_wf ?_
  rw [cutRuns_mem, holdSpent_mem, startPeriod_mem, foldl_mem _ relockOver_mem]
  simpa using h

end Sys2Proof.Machine
end

