-- ==== Sys2Proof/Laws/PerInstr.lean ====
section
/-! SUPPORT. The per-instruction family `Encoding`: an instruction has a word exactly when it carries a guard and hints, and
an event or a rejected word has none (spec/01 R8, R20). -/
namespace Sys2Proof.Laws.Encoding

def Statement (i : Instr) : Prop := (encode i).isSome = i.ctl?.isSome

theorem iadd (x0 : Ctl) (x1 : Operand) (x2 : Operand) (x3 : Operand) (x4 : Bool) : Statement (.iadd x0 x1 x2 x3 x4) := rfl
theorem isub (x0 : Ctl) (x1 : Operand) (x2 : Operand) (x3 : Operand) (x4 : Bool) : Statement (.isub x0 x1 x2 x3 x4) := rfl
theorem iadd3 (x0 : Ctl) (x1 : Operand) (x2 : Operand) (x3 : Operand) (x4 : Operand) (x5 : Bool) : Statement (.iadd3 x0 x1 x2 x3 x4 x5) := rfl
theorem iaddsat (x0 : Ctl) (x1 : Operand) (x2 : Operand) (x3 : Operand) (x4 : Bool) (x5 : Bool) : Statement (.iaddsat x0 x1 x2 x3 x4 x5) := rfl
theorem isubsat (x0 : Ctl) (x1 : Operand) (x2 : Operand) (x3 : Operand) (x4 : Bool) (x5 : Bool) : Statement (.isubsat x0 x1 x2 x3 x4 x5) := rfl
theorem ineg (x0 : Ctl) (x1 : Operand) (x2 : Operand) (x3 : Bool) : Statement (.ineg x0 x1 x2 x3) := rfl
theorem iabs (x0 : Ctl) (x1 : Operand) (x2 : Operand) (x3 : Bool) : Statement (.iabs x0 x1 x2 x3) := rfl
theorem imin (x0 : Ctl) (x1 : Operand) (x2 : Operand) (x3 : Operand) (x4 : Bool) (x5 : Bool) : Statement (.imin x0 x1 x2 x3 x4 x5) := rfl
theorem imax (x0 : Ctl) (x1 : Operand) (x2 : Operand) (x3 : Operand) (x4 : Bool) (x5 : Bool) : Statement (.imax x0 x1 x2 x3 x4 x5) := rfl
theorem imul (x0 : Ctl) (x1 : Operand) (x2 : Operand) (x3 : Operand) (x4 : Bool) (x5 : Bool) : Statement (.imul x0 x1 x2 x3 x4 x5) := rfl
theorem imulhi (x0 : Ctl) (x1 : Operand) (x2 : Operand) (x3 : Operand) (x4 : Bool) (x5 : Bool) : Statement (.imulhi x0 x1 x2 x3 x4 x5) := rfl
theorem imad (x0 : Ctl) (x1 : Operand) (x2 : Operand) (x3 : Operand) (x4 : Operand) (x5 : Bool) (x6 : Bool) : Statement (.imad x0 x1 x2 x3 x4 x5 x6) := rfl
theorem imadw (x0 : Ctl) (x1 : Operand) (x2 : Operand) (x3 : Operand) (x4 : Operand) (x5 : Bool) : Statement (.imadw x0 x1 x2 x3 x4 x5) := rfl
theorem idiv (x0 : Ctl) (x1 : Operand) (x2 : Operand) (x3 : Operand) (x4 : Bool) (x5 : Bool) : Statement (.idiv x0 x1 x2 x3 x4 x5) := rfl
theorem irem (x0 : Ctl) (x1 : Operand) (x2 : Operand) (x3 : Operand) (x4 : Bool) (x5 : Bool) : Statement (.irem x0 x1 x2 x3 x4 x5) := rfl
theorem and (x0 : Ctl) (x1 : Operand) (x2 : Operand) (x3 : Operand) (x4 : Bool) : Statement (.and x0 x1 x2 x3 x4) := rfl
theorem or (x0 : Ctl) (x1 : Operand) (x2 : Operand) (x3 : Operand) (x4 : Bool) : Statement (.or x0 x1 x2 x3 x4) := rfl
theorem xor (x0 : Ctl) (x1 : Operand) (x2 : Operand) (x3 : Operand) (x4 : Bool) : Statement (.xor x0 x1 x2 x3 x4) := rfl
theorem andn (x0 : Ctl) (x1 : Operand) (x2 : Operand) (x3 : Operand) (x4 : Bool) : Statement (.andn x0 x1 x2 x3 x4) := rfl
theorem orn (x0 : Ctl) (x1 : Operand) (x2 : Operand) (x3 : Operand) (x4 : Bool) : Statement (.orn x0 x1 x2 x3 x4) := rfl
theorem not (x0 : Ctl) (x1 : Operand) (x2 : Operand) (x3 : Bool) : Statement (.not x0 x1 x2 x3) := rfl
theorem shl (x0 : Ctl) (x1 : Operand) (x2 : Operand) (x3 : Operand) (x4 : Bool) : Statement (.shl x0 x1 x2 x3 x4) := rfl
theorem shr (x0 : Ctl) (x1 : Operand) (x2 : Operand) (x3 : Operand) (x4 : Bool) : Statement (.shr x0 x1 x2 x3 x4) := rfl
theorem sar (x0 : Ctl) (x1 : Operand) (x2 : Operand) (x3 : Operand) (x4 : Bool) : Statement (.sar x0 x1 x2 x3 x4) := rfl
theorem rotl (x0 : Ctl) (x1 : Operand) (x2 : Operand) (x3 : Operand) (x4 : Bool) : Statement (.rotl x0 x1 x2 x3 x4) := rfl
theorem shf (x0 : Ctl) (x1 : Operand) (x2 : Operand) (x3 : Operand) (x4 : Operand) (x5 : Bool) (x6 : Bool) : Statement (.shf x0 x1 x2 x3 x4 x5 x6) := rfl
theorem bfx (x0 : Ctl) (x1 : Operand) (x2 : Operand) (x3 : FieldSpec) (x4 : Bool) (x5 : Bool) : Statement (.bfx x0 x1 x2 x3 x4 x5) := rfl
theorem bfi (x0 : Ctl) (x1 : Operand) (x2 : Operand) (x3 : Operand) (x4 : FieldSpec) (x5 : Bool) : Statement (.bfi x0 x1 x2 x3 x4 x5) := rfl
theorem popc (x0 : Ctl) (x1 : Operand) (x2 : Operand) (x3 : Bool) : Statement (.popc x0 x1 x2 x3) := rfl
theorem clz (x0 : Ctl) (x1 : Operand) (x2 : Operand) (x3 : Bool) : Statement (.clz x0 x1 x2 x3) := rfl
theorem ctz (x0 : Ctl) (x1 : Operand) (x2 : Operand) (x3 : Bool) : Statement (.ctz x0 x1 x2 x3) := rfl
theorem brev (x0 : Ctl) (x1 : Operand) (x2 : Operand) (x3 : Bool) : Statement (.brev x0 x1 x2 x3) := rfl
theorem prmt (x0 : Ctl) (x1 : Operand) (x2 : Operand) (x3 : Operand) (x4 : PrmtSel) : Statement (.prmt x0 x1 x2 x3 x4) := rfl
theorem clmul (x0 : Ctl) (x1 : Operand) (x2 : Operand) (x3 : Operand) (x4 : Bool) : Statement (.clmul x0 x1 x2 x3 x4) := rfl
theorem clmulh (x0 : Ctl) (x1 : Operand) (x2 : Operand) (x3 : Operand) (x4 : Bool) : Statement (.clmulh x0 x1 x2 x3 x4) := rfl
theorem icmp (x0 : Ctl) (x1 : Operand) (x2 : Operand) (x3 : Operand) (x4 : ICond) (x5 : Comb) (x6 : Bool) (x7 : Bool) : Statement (.icmp x0 x1 x2 x3 x4 x5 x6 x7) := rfl
theorem pand (x0 : Ctl) (x1 : Operand) (x2 : Operand) (x3 : Operand) : Statement (.pand x0 x1 x2 x3) := rfl
theorem por (x0 : Ctl) (x1 : Operand) (x2 : Operand) (x3 : Operand) : Statement (.por x0 x1 x2 x3) := rfl
theorem pxor (x0 : Ctl) (x1 : Operand) (x2 : Operand) (x3 : Operand) : Statement (.pxor x0 x1 x2 x3) := rfl
theorem pnot (x0 : Ctl) (x1 : Operand) (x2 : Operand) : Statement (.pnot x0 x1 x2) := rfl
theorem sel (x0 : Ctl) (x1 : Operand) (x2 : Operand) (x3 : Operand) (x4 : Operand) (x5 : Bool) : Statement (.sel x0 x1 x2 x3 x4 x5) := rfl
theorem vote (x0 : Ctl) (x1 : Operand) (x2 : Operand) (x3 : VoteMode) : Statement (.vote x0 x1 x2 x3) := rfl
theorem bcast (x0 : Ctl) (x1 : Operand) (x2 : Operand) (x3 : Operand) (x4 : Bool) : Statement (.bcast x0 x1 x2 x3 x4) := rfl
theorem shfl (x0 : Ctl) (x1 : Operand) (x2 : Operand) (x3 : Operand) (x4 : ShflMode) (x5 : Seg) (x6 : Bool) : Statement (.shfl x0 x1 x2 x3 x4 x5 x6) := rfl
theorem redux (x0 : Ctl) (x1 : Operand) (x2 : Operand) (x3 : RedOp) (x4 : Bool) (x5 : Bool) : Statement (.redux x0 x1 x2 x3 x4 x5) := rfl
theorem mov (x0 : Ctl) (x1 : Operand) (x2 : Operand) (x3 : Bool) : Statement (.mov x0 x1 x2 x3) := rfl
theorem movi (x0 : Ctl) (x1 : Operand) (x2 : Word) : Statement (.movi x0 x1 x2) := rfl
theorem lea (x0 : Ctl) (x1 : Operand) (x2 : Operand) (x3 : Operand) (x4 : Fin 5) (x5 : Bool) (x6 : BitVec 20) : Statement (.lea x0 x1 x2 x3 x4 x5 x6) := rfl
theorem i2i (x0 : Ctl) (x1 : Operand) (x2 : Operand) (x3 : IntTy) (x4 : IntTy) (x5 : Bool) : Statement (.i2i x0 x1 x2 x3 x4 x5) := rfl
theorem rdsp (x0 : Ctl) (x1 : Operand) (x2 : Operand) (x3 : Bool) : Statement (.rdsp x0 x1 x2 x3) := rfl
theorem wrsp (x0 : Ctl) (x1 : Operand) (x2 : Bool) : Statement (.wrsp x0 x1 x2) := rfl
theorem bra (x0 : Ctl) (x1 : BitVec 20) : Statement (.bra x0 x1) := rfl
theorem brx (x0 : Ctl) (x1 : Operand) : Statement (.brx x0 x1) := rfl
theorem call (x0 : Ctl) (x1 : Operand) (x2 : BitVec 20) : Statement (.call x0 x1 x2) := rfl
theorem ret (x0 : Ctl) (x1 : Operand) : Statement (.ret x0 x1) := rfl
theorem exit (x0 : Ctl) : Statement (.exit x0) := rfl
theorem reconv (x0 : Ctl) (x1 : BitVec 20) : Statement (.reconv x0 x1) := rfl
theorem brk (x0 : Ctl) (x1 : BitVec 20) : Statement (.brk x0 x1) := rfl
theorem cont (x0 : Ctl) (x1 : BitVec 20) : Statement (.cont x0 x1) := rfl
theorem yield (x0 : Ctl) : Statement (.yield x0) := rfl
theorem nop (x0 : Ctl) : Statement (.nop x0) := rfl
theorem trap (x0 : Ctl) (x1 : Word) : Statement (.trap x0 x1) := rfl
theorem illegalInstruction (x0 : Reject) : Statement (.illegalInstruction x0) := rfl
theorem ld (x0 : Ctl) (x1 : Operand) (x2 : Operand) (x3 : BitVec 20) (x4 : MemTy) (x5 : Bool) (x6 : Scope) (x7 : Bool) (x8 : Bool) (x9 : BitVec 2) : Statement (.ld x0 x1 x2 x3 x4 x5 x6 x7 x8 x9) := rfl
theorem st (x0 : Ctl) (x1 : Operand) (x2 : Operand) (x3 : BitVec 20) (x4 : StTy) (x5 : Bool) (x6 : Scope) : Statement (.st x0 x1 x2 x3 x4 x5 x6) := rfl
theorem pref (x0 : Ctl) (x1 : Operand) (x2 : BitVec 20) (x3 : Bool) : Statement (.pref x0 x1 x2 x3) := rfl
theorem lds (x0 : Ctl) (x1 : Operand) (x2 : Operand) (x3 : BitVec 20) (x4 : MemTy) (x5 : Option (BitVec 3)) : Statement (.lds x0 x1 x2 x3 x4 x5) := rfl
theorem sts (x0 : Ctl) (x1 : Operand) (x2 : Operand) (x3 : BitVec 20) (x4 : StTy) (x5 : Option (BitVec 3)) : Statement (.sts x0 x1 x2 x3 x4 x5) := rfl
theorem ldr (x0 : Ctl) (x1 : Operand) (x2 : Operand) (x3 : BitVec 20) : Statement (.ldr x0 x1 x2 x3) := rfl
theorem str (x0 : Ctl) (x1 : Operand) (x2 : Operand) (x3 : BitVec 20) : Statement (.str x0 x1 x2 x3) := rfl
theorem ldw (x0 : Ctl) (x1 : Operand) (x2 : Operand) (x3 : BitVec 20) (x4 : MemTy) : Statement (.ldw x0 x1 x2 x3 x4) := rfl
theorem fence (x0 : Ctl) (x1 : Order) (x2 : Scope) : Statement (.fence x0 x1 x2) := rfl
theorem iinv (x0 : Ctl) (x1 : IScope) : Statement (.iinv x0 x1) := rfl
theorem cflush (x0 : Ctl) (x1 : Operand) (x2 : BitVec 20) (x3 : Scope) (x4 : Bool) : Statement (.cflush x0 x1 x2 x3 x4) := rfl
theorem waitc (x0 : Ctl) (x1 : BitVec 6) (x2 : BitVec 6) (x3 : BitVec 6) (x4 : BitVec 6) : Statement (.waitc x0 x1 x2 x3 x4) := rfl
theorem tshape (x0 : Ctl) (x1 : Operand) (x2 : Operand) : Statement (.tshape x0 x1 x2) := rfl
theorem tcopy (x0 : Ctl) (x1 : Operand) (x2 : Operand) (x3 : Option Operand) (x4 : Bool) : Statement (.tcopy x0 x1 x2 x3 x4) := rfl
theorem atom (x0 : Ctl) (x1 : Operand) (x2 : Operand) (x3 : Operand) (x4 : AtomOp) (x5 : Order) (x6 : Scope) (x7 : Bool) (x8 : Bool) : Statement (.atom x0 x1 x2 x3 x4 x5 x6 x7 x8) := rfl
theorem atoms (x0 : Ctl) (x1 : Operand) (x2 : Operand) (x3 : Operand) (x4 : AtomOp) (x5 : Option (BitVec 3)) (x6 : Bool) (x7 : Bool) : Statement (.atoms x0 x1 x2 x3 x4 x5 x6 x7) := rfl
theorem red (x0 : Ctl) (x1 : Operand) (x2 : Operand) (x3 : RedOp) (x4 : Bool) (x5 : Scope) (x6 : Bool) (x7 : Bool) : Statement (.red x0 x1 x2 x3 x4 x5 x6 x7) := rfl
theorem fred (x0 : Ctl) (x1 : Operand) (x2 : Operand) (x3 : FredTy) (x4 : MinMaxAdd) (x5 : Bool) (x6 : Bool) (x7 : Bool) (x8 : Bool) (x9 : Scope) : Statement (.fred x0 x1 x2 x3 x4 x5 x6 x7 x8 x9) := rfl
theorem sigset (x0 : Ctl) (x1 : Operand) (x2 : Operand) (x3 : SigScope) : Statement (.sigset x0 x1 x2 x3) := rfl
theorem sigadd (x0 : Ctl) (x1 : Option Operand) (x2 : Operand) (x3 : Operand) (x4 : SigScope) : Statement (.sigadd x0 x1 x2 x3 x4) := rfl
theorem sigwait (x0 : Ctl) (x1 : Operand) (x2 : Operand) (x3 : Operand) (x4 : SigCond) (x5 : SigScope) : Statement (.sigwait x0 x1 x2 x3 x4 x5) := rfl
theorem ticket (x0 : Ctl) (x1 : Operand) (x2 : Operand) (x3 : Option Operand) (x4 : SigScope) : Statement (.ticket x0 x1 x2 x3 x4) := rfl
theorem tkserve (x0 : Ctl) (x1 : Operand) (x2 : SigScope) : Statement (.tkserve x0 x1 x2) := rfl
theorem fadd (x0 : Ctl) (x1 : Operand) (x2 : Operand) (x3 : Operand) (x4 : RO) : Statement (.fadd x0 x1 x2 x3 x4) := rfl
theorem fsub (x0 : Ctl) (x1 : Operand) (x2 : Operand) (x3 : Operand) (x4 : RO) : Statement (.fsub x0 x1 x2 x3 x4) := rfl
theorem fmul (x0 : Ctl) (x1 : Operand) (x2 : Operand) (x3 : Operand) (x4 : RO) : Statement (.fmul x0 x1 x2 x3 x4) := rfl
theorem ffma (x0 : Ctl) (x1 : Operand) (x2 : Operand) (x3 : Operand) (x4 : Operand) (x5 : RO) : Statement (.ffma x0 x1 x2 x3 x4 x5) := rfl
theorem fmin (x0 : Ctl) (x1 : Operand) (x2 : Operand) (x3 : Operand) : Statement (.fmin x0 x1 x2 x3) := rfl
theorem fmax (x0 : Ctl) (x1 : Operand) (x2 : Operand) (x3 : Operand) : Statement (.fmax x0 x1 x2 x3) := rfl
theorem fcmp (x0 : Ctl) (x1 : Operand) (x2 : Operand) (x3 : Operand) (x4 : FCond) (x5 : Comb) : Statement (.fcmp x0 x1 x2 x3 x4 x5) := rfl
theorem fclass (x0 : Ctl) (x1 : Operand) (x2 : Operand) (x3 : Operand) : Statement (.fclass x0 x1 x2 x3) := rfl
theorem frcp (x0 : Ctl) (x1 : Operand) (x2 : Operand) : Statement (.frcp x0 x1 x2) := rfl
theorem frsq (x0 : Ctl) (x1 : Operand) (x2 : Operand) : Statement (.frsq x0 x1 x2) := rfl
theorem fsqrt (x0 : Ctl) (x1 : Operand) (x2 : Operand) : Statement (.fsqrt x0 x1 x2) := rfl
theorem fex2 (x0 : Ctl) (x1 : Operand) (x2 : Operand) : Statement (.fex2 x0 x1 x2) := rfl
theorem flg2 (x0 : Ctl) (x1 : Operand) (x2 : Operand) : Statement (.flg2 x0 x1 x2) := rfl
theorem fsin (x0 : Ctl) (x1 : Operand) (x2 : Operand) : Statement (.fsin x0 x1 x2) := rfl
theorem fcos (x0 : Ctl) (x1 : Operand) (x2 : Operand) : Statement (.fcos x0 x1 x2) := rfl
theorem hadd2 (x0 : Ctl) (x1 : Operand) (x2 : Operand) (x3 : Operand) (x4 : HTy) (x5 : RO) : Statement (.hadd2 x0 x1 x2 x3 x4 x5) := rfl
theorem hmul2 (x0 : Ctl) (x1 : Operand) (x2 : Operand) (x3 : Operand) (x4 : HTy) (x5 : RO) : Statement (.hmul2 x0 x1 x2 x3 x4 x5) := rfl
theorem hfma2 (x0 : Ctl) (x1 : Operand) (x2 : Operand) (x3 : Operand) (x4 : Operand) (x5 : HTy) (x6 : RO) : Statement (.hfma2 x0 x1 x2 x3 x4 x5 x6) := rfl
theorem dot4 (x0 : Ctl) (x1 : Operand) (x2 : Operand) (x3 : Operand) (x4 : Operand) (x5 : DotTy) (x6 : RO) : Statement (.dot4 x0 x1 x2 x3 x4 x5 x6) := rfl
theorem cvt (x0 : Ctl) (x1 : Operand) (x2 : Operand) (x3 : Option Operand) (x4 : CvtTy) (x5 : CvtTy) (x6 : RO) (x7 : BitVec 2) : Statement (.cvt x0 x1 x2 x3 x4 x5 x6 x7) := rfl
theorem fmtset (x0 : Ctl) (x1 : Word) : Statement (.fmtset x0 x1) := rfl
theorem fmtget (x0 : Ctl) (x1 : Operand) : Statement (.fmtget x0 x1) := rfl
theorem rngu (x0 : Ctl) (x1 : Operand) (x2 : RngOut) : Statement (.rngu x0 x1 x2) := rfl
theorem rngn (x0 : Ctl) (x1 : Operand) : Statement (.rngn x0 x1) := rfl
theorem spawn (x0 : Ctl) (x1 : Operand) (x2 : BitVec 3) (x3 : BitVec 20) : Statement (.spawn x0 x1 x2 x3) := rfl
theorem spawnr (x0 : Ctl) (x1 : Operand) (x2 : Operand) (x3 : BitVec 3) : Statement (.spawnr x0 x1 x2 x3) := rfl
theorem join (x0 : Ctl) : Statement (.join x0) := rfl
theorem pedget (x0 : Ctl) (x1 : Operand) (x2 : Operand) : Statement (.pedget x0 x1 x2) := rfl
theorem pedcmp (x0 : Ctl) (x1 : Operand) (x2 : Operand) (x3 : Operand) : Statement (.pedcmp x0 x1 x2 x3) := rfl
theorem vdecl (x0 : Ctl) (x1 : Operand) (x2 : Operand) (x3 : Operand) (x4 : RedKind) : Statement (.vdecl x0 x1 x2 x3 x4) := rfl
theorem vptr (x0 : Ctl) (x1 : Operand) (x2 : Operand) : Statement (.vptr x0 x1 x2) := rfl
theorem vfin (x0 : Ctl) (x1 : Operand) (x2 : Bool) : Statement (.vfin x0 x1 x2) := rfl
theorem alloc (x0 : Ctl) (x1 : Operand) (x2 : Operand) : Statement (.alloc x0 x1 x2) := rfl
theorem barp (x0 : Ctl) : Statement (.barp x0) := rfl
theorem barc (x0 : Ctl) (x1 : Bool) : Statement (.barc x0 x1) := rfl
theorem arriveInit (x0 : Ctl) (x1 : Operand) (x2 : Operand) : Statement (.arriveInit x0 x1 x2) := rfl
theorem arrive (x0 : Ctl) (x1 : Operand) (x2 : Operand) (x3 : Operand) : Statement (.arrive x0 x1 x2 x3) := rfl
theorem await (x0 : Ctl) (x1 : Operand) (x2 : Operand) : Statement (.await x0 x1 x2) := rfl
theorem ringputGet (x0 : Ctl) (x1 : Operand) (x2 : Operand) : Statement (.ringputGet x0 x1 x2) := rfl
theorem ringputPub (x0 : Ctl) (x1 : Operand) (x2 : Operand) : Statement (.ringputPub x0 x1 x2) := rfl
theorem ringputInit (x0 : Ctl) (x1 : Operand) (x2 : Operand) : Statement (.ringputInit x0 x1 x2) := rfl
theorem ringgetGet (x0 : Ctl) (x1 : Operand) (x2 : Operand) : Statement (.ringgetGet x0 x1 x2) := rfl
theorem ringgetRel (x0 : Ctl) (x1 : Operand) (x2 : Operand) : Statement (.ringgetRel x0 x1 x2) := rfl
theorem trigger (x0 : Ctl) : Statement (.trigger x0) := rfl
theorem tmma (x0 : Ctl) (x1 : Operand) (x2 : Operand) (x3 : BitVec 5) : Statement (.tmma x0 x1 x2 x3) := rfl
theorem tmmae (x0 : Ctl) (x1 : Operand) (x2 : Operand) (x3 : Operand) (x4 : BitVec 5) : Statement (.tmmae x0 x1 x2 x3 x4) := rfl
theorem tmmag (x0 : Ctl) (x1 : Operand) (x2 : Operand) (x3 : BitVec 5) : Statement (.tmmag x0 x1 x2 x3) := rfl
theorem tzero (x0 : Ctl) (x1 : BitVec 5) : Statement (.tzero x0 x1) := rfl
theorem tload (x0 : Ctl) (x1 : Operand) (x2 : Operand) (x3 : BitVec 5) : Statement (.tload x0 x1 x2 x3) := rfl
theorem tadd (x0 : Ctl) (x1 : BitVec 5) (x2 : BitVec 5) : Statement (.tadd x0 x1 x2) := rfl
theorem tlink (x0 : Ctl) (x1 : Operand) (x2 : Operand) : Statement (.tlink x0 x1 x2) := rfl
theorem tdrain (x0 : Ctl) (x1 : Operand) (x2 : Operand) (x3 : BitVec 5) (x4 : Bool) (x5 : Bool) : Statement (.tdrain x0 x1 x2 x3 x4 x5) := rfl
theorem tdrainl (x0 : Ctl) (x1 : Operand) (x2 : Operand) (x3 : Operand) (x4 : BitVec 5) (x5 : Bool) : Statement (.tdrainl x0 x1 x2 x3 x4 x5) := rfl
theorem ommv (x0 : Ctl) (x1 : Operand) (x2 : Operand) (x3 : Operand) (x4 : BitVec 6) (x5 : BitVec 6) (x6 : XFmt) (x7 : WFmt) (x8 : Bool) : Statement (.ommv x0 x1 x2 x3 x4 x5 x6 x7 x8) := rfl
theorem ommve (x0 : Ctl) (x1 : Operand) (x2 : Operand) (x3 : Operand) (x4 : Operand) (x5 : BitVec 6) (x6 : BitVec 6) (x7 : XFmt) (x8 : WFmt) (x9 : Bool) : Statement (.ommve x0 x1 x2 x3 x4 x5 x6 x7 x8 x9) := rfl
theorem histrd (x0 : Ctl) (x1 : Operand) (x2 : Operand) (x3 : Operand) : Statement (.histrd x0 x1 x2 x3) := rfl
theorem histclr (x0 : Ctl) (x1 : Operand) (x2 : Operand) : Statement (.histclr x0 x1 x2) := rfl
theorem tcopyx (x0 : Ctl) (x1 : Operand) (x2 : Operand) (x3 : Operand) (x4 : Bool) : Statement (.tcopyx x0 x1 x2 x3 x4) := rfl
theorem cstart (x0 : Ctl) (x1 : Operand) (x2 : Operand) (x3 : Operand) : Statement (.cstart x0 x1 x2 x3) := rfl
theorem cstat (x0 : Ctl) (x1 : Operand) (x2 : Operand) : Statement (.cstat x0 x1 x2) := rfl
theorem agate (x0 : Ctl) (x1 : Operand) (x2 : Operand) (x3 : Fin 5) (x4 : Bool) : Statement (.agate x0 x1 x2 x3 x4) := rfl
theorem amap (x0 : Ctl) (x1 : Operand) (x2 : Operand) : Statement (.amap x0 x1 x2) := rfl
theorem amapRd (x0 : Ctl) (x1 : Operand) (x2 : Operand) : Statement (.amapRd x0 x1 x2) := rfl
theorem aswap (x0 : Ctl) (x1 : Operand) (x2 : Operand) (x3 : BitVec 6) : Statement (.aswap x0 x1 x2 x3) := rfl
theorem anorm (x0 : Ctl) (x1 : Operand) (x2 : Operand) : Statement (.anorm x0 x1 x2) := rfl
theorem rdmer (x0 : Ctl) (x1 : Operand) (x2 : Bool) : Statement (.rdmer x0 x1 x2) := rfl
theorem rdclk (x0 : Ctl) (x1 : Operand) (x2 : Bool) : Statement (.rdclk x0 x1 x2) := rfl
theorem clk2mer (x0 : Ctl) (x1 : Operand) (x2 : Operand) : Statement (.clk2mer x0 x1 x2) := rfl
theorem ctxsave (x0 : Ctl) (x1 : Operand) (x2 : Operand) (x3 : Operand) : Statement (.ctxsave x0 x1 x2 x3) := rfl
theorem ctxload (x0 : Ctl) (x1 : Operand) (x2 : Operand) (x3 : Operand) : Statement (.ctxload x0 x1 x2 x3) := rfl
theorem tlbinv (x0 : Ctl) (x1 : Operand) (x2 : Operand) (x3 : Operand) (x4 : TlbScope) (x5 : TlbKind) : Statement (.tlbinv x0 x1 x2 x3 x4 x5) := rfl
theorem fret (x0 : Ctl) (x1 : Operand) (x2 : Operand) (x3 : Operand) (x4 : FretHow) : Statement (.fret x0 x1 x2 x3 x4) := rfl
theorem fwcall (x0 : Ctl) (x1 : Word) : Statement (.fwcall x0 x1) := rfl
theorem sigraise (x0 : Ctl) (x1 : Operand) (x2 : Operand) (x3 : Operand) (x4 : Operand) (x5 : SigScope) : Statement (.sigraise x0 x1 x2 x3 x4 x5) := rfl
theorem budset (x0 : Ctl) (x1 : Operand) (x2 : Operand) (x3 : Operand) (x4 : BudKind) : Statement (.budset x0 x1 x2 x3 x4) := rfl
theorem wakeset (x0 : Ctl) (x1 : Operand) (x2 : Operand) (x3 : Operand) : Statement (.wakeset x0 x1 x2 x3) := rfl
theorem sleep (x0 : Ctl) (x1 : Operand) : Statement (.sleep x0 x1) := rfl
theorem agentWake (x0 : Nat) : Statement (.agentWake x0) := rfl
theorem wakeDeadline (x0 : Nat) : Statement (.wakeDeadline x0) := rfl
theorem loadBind (x0 : Nat) (x1 : Nat) : Statement (.loadBind x0 x1) := rfl
theorem storeComplete (x0 : Nat) (x1 : Nat) : Statement (.storeComplete x0 x1) := rfl
theorem replacementWriteback (x0 : Nat) (x1 : Nat) : Statement (.replacementWriteback x0 x1) := rfl
theorem leaseExpiry (x0 : Nat) (x1 : Nat) : Statement (.leaseExpiry x0 x1) := rfl
theorem serviceCrewApply (x0 : Nat) : Statement (.serviceCrewApply x0) := rfl
theorem waitAtHomeSatisfied (x0 : Nat) (x1 : Nat) : Statement (.waitAtHomeSatisfied x0 x1) := rfl
theorem accessRetry (x0 : Nat) : Statement (.accessRetry x0) := rfl
theorem pageWalkDone (x0 : Nat) (x1 : Nat) : Statement (.pageWalkDone x0 x1) := rfl
theorem copyComplete (x0 : Nat) : Statement (.copyComplete x0) := rfl
theorem copyAbandon (x0 : Nat) : Statement (.copyAbandon x0) := rfl
theorem tileOpComplete (x0 : Nat) : Statement (.tileOpComplete x0) := rfl
theorem drainComplete (x0 : Nat) : Statement (.drainComplete x0) := rfl
theorem fusionWindowClose (x0 : Nat) (x1 : Nat) : Statement (.fusionWindowClose x0 x1) := rfl
theorem fusedPass (x0 : Nat) : Statement (.fusedPass x0) := rfl
theorem collectiveComplete (x0 : Nat) : Statement (.collectiveComplete x0) := rfl
theorem collectiveTimeout (x0 : Nat) : Statement (.collectiveTimeout x0) := rfl
theorem scheduleEnd (x0 : Nat) (x1 : BitVec 8) (x2 : Nat) (x3 : List (DWord × Option Byte)) : Statement (.scheduleEnd x0 x1 x2 x3) := rfl
theorem ampMatch (x0 : Nat) (x1 : Nat) (x2 : Nat) : Statement (.ampMatch x0 x1 x2) := rfl
theorem ampCommandComplete (x0 : Nat) (x1 : Nat) (x2 : Nat) : Statement (.ampCommandComplete x0 x1 x2) := rfl
theorem ampMatchTimeout (x0 : Nat) (x1 : Nat) (x2 : Nat) : Statement (.ampMatchTimeout x0 x1 x2) := rfl
theorem ampExchangeTimeout (x0 : Nat) (x1 : Nat) (x2 : Nat) (x3 : Bool) : Statement (.ampExchangeTimeout x0 x1 x2 x3) := rfl
theorem faultService (x0 : Nat) : Statement (.faultService x0) := rfl
theorem hostPageReply (x0 : Nat) (x1 : Bool) : Statement (.hostPageReply x0 x1) := rfl
theorem handlerTaskStart (x0 : Nat) : Statement (.handlerTaskStart x0) := rfl
theorem handlerPlaceTimeout (x0 : Nat) : Statement (.handlerPlaceTimeout x0) := rfl
theorem handlerVerdict (x0 : Nat) : Statement (.handlerVerdict x0) := rfl
theorem taskFaultEnd (x0 : Nat) : Statement (.taskFaultEnd x0) := rfl
theorem coreFailure (x0 : Nat) : Statement (.coreFailure x0) := rfl
theorem linkLost (x0 : Nat) : Statement (.linkLost x0) := rfl
theorem preemptRequest (x0 : Nat) : Statement (.preemptRequest x0) := rfl
theorem taskComplete (x0 : Nat) : Statement (.taskComplete x0) := rfl
theorem joinSuspend (x0 : Nat) : Statement (.joinSuspend x0) := rfl
theorem taskResume (x0 : Nat) : Statement (.taskResume x0) := rfl
theorem admitNext (x0 : Nat) (x1 : Nat) (x2 : Nat) : Statement (.admitNext x0 x1 x2) := rfl
theorem dependenceRelease (x0 : Nat) : Statement (.dependenceRelease x0) := rfl
theorem batchDeal : Statement (.batchDeal) := rfl
theorem coreTakeWork (x0 : Nat) : Statement (.coreTakeWork x0) := rfl
theorem gangStart (x0 : Nat) : Statement (.gangStart x0) := rfl
theorem runArbitration (x0 : Nat) (x1 : Nat) : Statement (.runArbitration x0 x1) := rfl
theorem launchComplete (x0 : Nat) : Statement (.launchComplete x0) := rfl
theorem triggerPoint (x0 : Nat) : Statement (.triggerPoint x0) := rfl
theorem coreGate (x0 : Nat) : Statement (.coreGate x0) := rfl
theorem coreWake (x0 : Nat) (x1 : Nat) : Statement (.coreWake x0 x1) := rfl
theorem budgetPeriodStart : Statement (.budgetPeriodStart) := rfl
theorem budgetHold (x0 : Nat) : Statement (.budgetHold x0) := rfl
theorem spawnStallLimit (x0 : Nat) : Statement (.spawnStallLimit x0) := rfl
theorem relockStart (x0 : Nat) : Statement (.relockStart x0) := rfl
theorem relockEnd (x0 : Nat) : Statement (.relockEnd x0) := rfl
theorem powerStepDown (x0 : Nat) : Statement (.powerStepDown x0) := rfl
theorem powerStepUp (x0 : Nat) : Statement (.powerStepUp x0) := rfl
theorem thermalReset (x0 : Nat) : Statement (.thermalReset x0) := rfl
theorem packageReset : Statement (.packageReset) := rfl
theorem selfTestPass (x0 : Nat) (x1 : Nat) : Statement (.selfTestPass x0 x1) := rfl
theorem imageFetchRetry (x0 : Image) : Statement (.imageFetchRetry x0) := rfl
theorem firmwareUpdate (x0 : Image) : Statement (.firmwareUpdate x0) := rfl
theorem functionRetire (x0 : Nat) : Statement (.functionRetire x0) := rfl
theorem hbmSpareRepair (x0 : Nat) : Statement (.hbmSpareRepair x0) := rfl
theorem laneSpare (x0 : Nat) : Statement (.laneSpare x0) := rfl
theorem rdmaWrite (x0 : Nat) (x1 : Nat) (x2 : Word) (x3 : DWord) (x4 : List Byte) : Statement (.rdmaWrite x0 x1 x2 x3 x4) := rfl
theorem rdmaRead (x0 : Nat) (x1 : Nat) (x2 : Word) (x3 : DWord) (x4 : Nat) : Statement (.rdmaRead x0 x1 x2 x3 x4) := rfl
theorem atomicFetchAdd (x0 : Nat) (x1 : Nat) (x2 : Word) (x3 : DWord) (x4 : DWord) : Statement (.atomicFetchAdd x0 x1 x2 x3 x4) := rfl
theorem atomicCmpSwap (x0 : Nat) (x1 : Nat) (x2 : Word) (x3 : DWord) (x4 : DWord) (x5 : DWord) : Statement (.atomicCmpSwap x0 x1 x2 x3 x4 x5) := rfl
theorem unsupportedRequest (x0 : Nat) : Statement (.unsupportedRequest x0) := rfl
theorem regionInstall (x0 : Nat) (x1 : Nat) (x2 : DWord) (x3 : DWord) (x4 : Bool) (x5 : Bool) (x6 : Bool) (x7 : Word) : Statement (.regionInstall x0 x1 x2 x3 x4 x5 x6 x7) := rfl
theorem mirroredPageInstall (x0 : Nat) (x1 : Nat) (x2 : DWord) (x3 : DWord) (x4 : Word) (x5 : Nat) : Statement (.mirroredPageInstall x0 x1 x2 x3 x4 x5) := rfl
theorem commset (x0 : Ctl) : Statement (.commset x0) := rfl
theorem commclr (x0 : Ctl) : Statement (.commclr x0) := rfl
theorem schedset (x0 : Ctl) : Statement (.schedset x0) := rfl
theorem schedclr (x0 : Ctl) : Statement (.schedclr x0) := rfl
theorem telrd (x0 : Ctl) : Statement (.telrd x0) := rfl
theorem fstep (x0 : Ctl) : Statement (.fstep x0) := rfl
theorem repinv (x0 : Ctl) : Statement (.repinv x0) := rfl
theorem attest (x0 : Ctl) : Statement (.attest x0) := rfl
theorem contextTableUpdate (x0 : Nat) (x1 : BitVec 512) : Statement (.contextTableUpdate x0 x1) := rfl
theorem ualinkPortDown (x0 : Nat) : Statement (.ualinkPortDown x0) := rfl
theorem crcErrorReplay (x0 : Nat) : Statement (.crcErrorReplay x0) := rfl
theorem retrainEnd (x0 : Nat) : Statement (.retrainEnd x0) := rfl

end Sys2Proof.Laws.Encoding
end

