-- ==== Sys2Proof/Tests/Slice0.lean ====
section
/-! SUPPORT. Tests of the model against hand-made words and states, and for every statement concrete states and operands
that meet its hypotheses. -/
set_option Elab.async false

namespace Sys2Proof.Tests
open Sys2Proof Sys2Proof.Machine

/-! ## Small states -/

/-- No guard and no hint. -/
def g : Ctl := ⟨false, 7, false, false, 0, false, 0⟩
/-- A guard that is true in no lane. -/
def gFalse : Ctl := ⟨true, 7, false, false, 0, false, 0⟩
/-- Guarded by p0, which is false in every lane of a fresh crew. -/
def g0 : Ctl := ⟨false, 0, false, false, 0, false, 0⟩

/-- A crew of 32 lanes in slot 0 of core 0, at 0x10000. -/
def crew0 (role : Role) : Crew :=
  { role := some role, regc := 16, pc := 0x10000, mask := laneMask 32, live := laneMask 32, runPos := 1 }

/-- A page at 0x10000 whose bytes stand at 0x20000. -/
def page0 : TlbEntry :=
  { ctx := 0, vbase := 0x10000, size := 0x10000, r := true, w := true, x := true, home := 0, lc := 0, rep := false, pa := 0x20000 }

/-- One resident task with one party of one crew, which is the crew that issues; one page of its context is in the TLB. -/
def lab (c : Crew) : State :=
  { State.reset with
    meridian := 1000
    cur := some 0
    crews := [(0, c)]
    parties := [(0, { task := 0, crews := [0], scratchLen := 4096, weightLen := 4096, tiles := 2 })]
    tasks := [(0, { launch := 0, status := .resident, parties := [0], arenaNext := 0x100000, arenaEnd := 0x110000 })]
    nextTask := 1
    launches := [(0, { ctx := 0, packet := 0, status := .running })]
    nextLaunch := 1
    cores := [(0, { pipes := [(0, 0)], tlb := [page0] })]
    dies := [(0, { freqs := [{ mer := 0, clk := 0, freq := 18 }] })] }

/-- A fact about concrete data, by evaluation. -/
theorem ok {p : Prop} [Decidable p] (h : p := by decide +kernel) : p := h
/-- No die of `lab` relocks. -/
theorem calm (s : State) (h : (s.dies.all fun x => x.2.relock.isNone) = true := by decide +kernel) (d : Nat) :
    s.relocking d = false := by
  have h' : ∀ x ∈ s.dies, x.2.relock = none := fun x hx => by simpa using List.all_eq_true.mp h x hx
  unfold State.relocking State.die
  cases e : Tbl.get? s.dies d with
  | none => rfl
  | some y =>
    obtain ⟨u, v, hd, -⟩ := List.lookup_eq_some_iff.mp e
    simpa using h' (d, y) (by simp [hd])

/-- The instruction answers a next state. -/
abbrev Completes (i : Instr) (s : State) : Prop := ∃ t, exec i s = .next t

theorem ran {i : Instr} {s t : State} (h : exec i s = .next t) : Completes i s := ⟨t, h⟩
theorem did {i : Instr} {s : State} {P : State → Prop} (h : ∃ t, exec i s = .next t ∧ P t) : Completes i s :=
  h.elim fun t h => ⟨t, h.1⟩
theorem comp {i : Instr} {s : State} {P : State → Prop} (h : ∃ t, exec i s = .next t ∧ P t) : Completes i s := did h
theorem did2 {i : Instr} {s : State} {f : State → State} {P : State → Prop} (h : ∃ t, exec i s = .next (f t) ∧ P t) :
    Completes i s := h.elim fun t h => ⟨f t, h.1⟩

def nextState : Host.Outcome State Fault Refusal → Option State
  | .next t => some t
  | _ => none
theorem of_nextState {o : Host.Outcome State Fault Refusal} {t : State} (h : nextState o = some t) : o = .next t := by
  cases o <;> simp_all [nextState]
def fetchedState : Fetched → State
  | .word _ t => t
  | .wait _ t => t
  | .bad _ t => t
def accessLanesOf : Access → List LaneAcc
  | .ok l _ => l
  | _ => []
def accessState : Access → State
  | .ok _ t => t
  | _ => State.reset
def passed : Passage → State
  | .pass t => t
  | .wait t => t

def isOk : Access → Bool
  | .ok .. => true
  | _ => false
theorem of_ok {a : Access} (h : isOk a = true) : a = .ok (accessLanesOf a) (accessState a) := by
  cases a <;> simp_all [isOk, accessLanesOf, accessState]
/-- The first of the lanes of an access. -/
def laneOf (a : Access) : LaneAcc := (accessLanesOf a).headD { lane := 0, va := 0, pa := 0, attr := .agent }
theorem of_ok1 {a : Access} (h : (isOk a && !(accessLanesOf a).isEmpty) = true) :
    a = .ok (laneOf a :: (accessLanesOf a).tail) (accessState a) := by
  cases a with
  | ok l t => cases l <;> simp_all [isOk, laneOf, accessLanesOf, accessState]
  | _ => simp_all [isOk]
def isPass : Passage → Bool
  | .pass _ => true
  | _ => false
theorem of_pass {p : Passage} (h : isPass p = true) : p = .pass (passed p) := by cases p <;> simp_all [isPass, passed]
theorem of_wait {p : Passage} (h : isPass p = false) : p = .wait (passed p) := by cases p <;> simp_all [isPass, passed]
theorem of_some {o : Option α} (h : o.isSome = true) : o = some (o.get h) := by simp

def exState : Except ε State → State
  | .ok t => t
  | .error _ => State.reset
theorem of_exOk {e : Except ε State} (h : e.isOk = true) : e = .ok (exState e) := by cases e <;> simp_all [Except.isOk, Except.toBool, exState]

/-- A shape record: spaces, format, PL32, bases and extents. -/
def shape (src dst fmt : Nat) (pl : Bool) (a b e0 e1 : Nat) (aux : Nat := 0) : BitVec 512 :=
  BitVec.ofNat 512 (src + dst * 2 ^ 4 + fmt * 2 ^ 8 + (if pl then 3 * 2 ^ 12 else 0) + (if e1 = 1 then 0 else 2 ^ 14) + a * 2 ^ 64 +
    b * 2 ^ 128 + e0 * 2 ^ 192 + e1 * 2 ^ 224 + 2 ^ 256 + 128 * 2 ^ 288 + 128 * 2 ^ 352 + aux * 2 ^ 416)
theorem of_okEx {e : Except ε β} (h : e.isOk = true) : ∃ x, e = .ok x := by
  cases e <;> simp_all [Except.isOk, Except.toBool]
theorem of_okIs [DecidableEq β] {e : Except ε β} {x : β} (h : (match e with | .ok y => decide (y = x) | .error _ => false) = true) :
    e = .ok x := by cases e <;> simp_all
theorem all8 {P : Nat → Prop} (h : ∀ j, j < 8 → 1 ≤ j → P j) (j : Nat) (h1 : 1 ≤ j) (h2 : j < 8) : P j := h j h2 h1

/-! ## Every statement has states and operands that meet its hypotheses -/

theorem witness_DecodeEncode (H : Obligations.DecodeEncode) :
    (∃ w, encode (.iadd3 g (.v 190) (.v 0) (.imm 0x80) (.s 46) true) = some w ∧
      decodeWord w = .ok (.iadd3 g (.v 190) (.v 0) (.imm 0x80) (.s 46) true)) ∧
    (∃ w, encode (.fwcall g 0xFFFFFFFF) = some w ∧ decodeWord w = .ok (.fwcall g 0xFFFFFFFF)) :=
  ⟨H _ ok ok, H _ ok ok⟩

theorem witness_ReservedMajRejected (H : Obligations.ReservedMajRejected) :
    decodeFor 192 0 = .error 1 ∧ decodeFor 192 (BitVec.allOnes 96) = .error 1 :=
  ⟨H _ ok _, H _ ok _⟩

/-- The bytes of NOP at the page's first address. -/
def nopLab : State := { lab (crew0 .vec) with mem := (State.reset.mem.writeBytes 0x20000 [0, 0, 0, 0, 0, 0, 0, 0, 0, 0, 0x97, 0x20]) }
/-- An OMMV that can trap is the crew's newest operation. -/
def armedCrew : Crew := { crew0 .vec with tops := [{ id := 0, pc := 0xFFF4, epc := 0, kind := .zero 1, fmt := 1 <<< 18, armed := true }] }
def armedLab : State := lab armedCrew
def nopFetched : Fetched := (fetching (started nopLab) 0).fetch 0
def zeroFetched : Fetched := (fetching (started (lab (crew0 .vec))) 0).fetch 0

theorem witness_StepRunsDecoded (H : Obligations.StepRunsDecoded) :
    step nopLab = exec (.nop g) (fetchedState nopFetched) ∧
    step (lab (crew0 .vec)) = exec (.illegalInstruction (.illegal 1)) (fetchedState zeroFetched) ∧
    step armedLab = .next ((issuing (started armedLab) 0).stalled 0 .armed) :=
  ⟨(H nopLab 0 ok ok ok).2 ok (0x20#8 ++ 9#4 ++ 0#1 ++ 7#3 ++ 0#80) (fetchedState nopFetched) ok,
    (H (lab (crew0 .vec)) 0 ok ok ok).2 ok 0 (fetchedState zeroFetched) ok, (H armedLab 0 ok ok ok).1 ok⟩

theorem witness_FetchReadsMemory (H : Obligations.FetchReadsMemory) :
    (∃ w t, (lab { crew0 .vec with pc := 0x10074 }).fetch 0 = .word w t) ∧
    (lab { crew0 .vec with pc := 0x10003 }).fetch 0 = .bad (.align 0x10003) (lab { crew0 .vec with pc := 0x10003 }) :=
  ⟨(H.1 (lab { crew0 .vec with pc := 0x10074 }) 0 page0 ok ok ok ok ok ok ok ok ok ok ok ok ok ok ok (calm _) ok).elim
        fun t h => ⟨_, t, h.1⟩,
    H.2 (lab { crew0 .vec with pc := 0x10003 }) 0 ok⟩

theorem witness_CompletionFrame (H : Obligations.CompletionFrame) :
    ((((lab (crew0 .vec)).advance 0).retire 0 g false).crew 0).pc = 0x1000C ∧
    (((lab (crew0 .vec)).retire 0 g true).crew 0).runPos = 0 :=
  ⟨(H.1 (lab (crew0 .vec)) 0 g ok).2.1, (H.2 (lab (crew0 .vec)) 0 g ok).2.2.2.2.2.1⟩

theorem witness_MemoryWriteRead (H : Obligations.MemoryWriteRead) :
    (Memory.writeBytes [(5, 1), (7, 2)] 4 [9, 0, 8]).readBytes 4 3 = [9, 0, 8] ∧
    (Memory.writeBytes [(5, 1), (7, 2)] 4 [9, 0, 8]).read 7 = 2 :=
  ⟨(H [(5, 1), (7, 2)] 4 [9, 0, 8] ok).2.1,
    (H [(5, 1), (7, 2)] 4 [9, 0, 8] ok).2.2 7 ok⟩

theorem witness_StepKeepsMemory (H : Obligations.StepKeepsMemory) :
    ∃ t, step nopLab = .next t ∧ Memory.wf t.mem = true :=
  have h : step nopLab = .next ((nextState (step nopLab)).getD State.reset) := of_nextState ok
  ⟨_, h, H _ _ ok h⟩

theorem witness_TakeFault (H : Obligations.TakeFault) :
    ∃ q : Report, (((lab (crew0 .vec)).takeFault 0 { cause := 0x05 }).crew 0).report = some q ∧ q.cause = 0x05 :=
  (H (lab (crew0 .vec)) 0 { cause := 0x05 } ok ok).elim fun q h => ⟨q, h.1, h.2.1⟩

/-- The firmware agent of core 0, awake. -/
def agentLab (c : Crew) : State :=
  { lab (crew0 .vec) with cur := some 64, crews := [(0, crew0 .vec), (64, { c with party := agentParty 64, asleep := false })] }

theorem witness_RejectedWordFaults (H : Obligations.RejectedWordFaults) :
    Completes (.illegalInstruction (.align 3)) (lab (crew0 .tile)) ∧
    Completes (.illegalInstruction (.illegal 6)) (lab (crew0 .copy)) ∧
    Completes (.illegalInstruction .role) (agentLab Crew.agent) :=
  ⟨ran ((H _ _ 0 ok ok).1 ok), ran ((H _ _ 0 ok ok).1 ok), ran ((H _ _ 64 ok ok).2 ok).1⟩

/-- A region load of the crew walks. -/
def walkReq : LoadReq :=
  { ty := .b32, acq := false, sc := .die, fr := false, home := none, dst := .v 4, addrs := [(0, 0x10000)] }
def walkCrew : Crew := { crew0 .vec with inRegion := true, loads := [{ id := 0, pc := 0, region := true, req := some walkReq }] }

theorem witness_RoleChecked (H : Obligations.RoleChecked) :
    Completes (.sleep g (.s 0)) (lab (crew0 .vec)) ∧ Completes (.tmma g (.s 0) (.s 1) 0) (lab (crew0 .vec)) ∧
    Completes (.tmma g (.s 0) (.s 1) 0) (agentLab Crew.agent) ∧ Completes (.sleep g (.s 0)) armedLab ∧
    Completes (.sleep g (.s 0)) (lab walkCrew) :=
  ⟨ran (((H _ _ 0 ok).2.2 ok ok).1 ⟨.vec, by decide +kernel⟩ ok),
    ran (((H _ _ 0 ok).2.2 ok ok).2.1 .vec ok ok ok ok),
    ran (((H _ _ 64 ok).2.2 ok ok).2.2 ok ok ok),
    ran ((H _ _ 0 ok).1 ok ⟨.vec, by decide +kernel⟩ ok), ran ((H _ _ 0 ok).2.1 ok ok ⟨.vec, by decide +kernel⟩ ok)⟩

theorem witness_IntegerResults (H : Obligations.IntegerResults) :
    Completes (.idiv g (.v 6) (.v 2) (.imm 0) true false) (lab (crew0 .vec)) ∧
    Completes (.iadd g0 (.s 47) (.s 2) (.imm 0x80) false) (lab (crew0 .vec)) :=
  ⟨comp (H _ _ rfl ok _ 0 ok), comp (H _ _ rfl ok _ 0 ok)⟩

theorem witness_BitResults (H : Obligations.BitResults) :
    Completes (.bfx g (.v 6) (.v 2) (.imm 63 64) true true) (lab (crew0 .vec)) :=
  comp (H _ _ rfl ok _ 0 ok)

theorem witness_MoveResults (H : Obligations.MoveResults) :
    Completes (.icmp g (.p 6) (.v 2) (.imm 0) .le (.and (.p 7)) false false) (lab (crew0 .vec)) :=
  comp (H _ _ rfl ok _ 0 ok)

theorem witness_FloatResults (H : Obligations.FloatResults) :
    Completes (.fadd g (.v 6) (.v 2) (.imm 0) .rs) (lab (crew0 .vec)) ∧
    Completes (.ffma g (.s 6) (.s 2) (.s 3) (.s 4) .fmt) (lab { crew0 .vec with fmt := 0x40000, ignoreTraps := true }) :=
  ⟨comp (H _ _ rfl ok _ 0 ok ok),
    comp (H _ _ rfl ok _ 0 ok ok)⟩

/-- A crew whose v2 is plus infinity and whose v3 is minus infinity in lane 31, with the NaN trap armed. -/
def infCrew (fmt : Word) : Crew := { crew0 .vec with fmt := fmt, vregs := [(2079, 0x7F800000), (3103, 0xFF800000)] }

theorem witness_FloatNanTrap (H : Obligations.FloatNanTrap) :
    Completes (.fadd g (.v 6) (.v 2) (.v 3) .fmt) (lab (infCrew (1 <<< 18))) ∧
    Completes (.fmul g (.v 6) (.v 2) (.v 2) .fmt) (lab { infCrew (3 <<< 18) with vregs := [(2079, 0x7F7FFFFF)] }) ∧
    Completes (.cvt g (.v 6) (.v 2) none .f16 .f32 .fmt 0) (lab { infCrew (3 <<< 18) with vregs := [(2079, 0x47800000)] }) := by
  obtain ⟨r, -, -, -, h⟩ := (H (.fadd g (.v 6) (.v 2) (.v 3) .fmt) _ (lab (infCrew (1 <<< 18))) 0 31 rfl
    ok ok ok ok ok).1 ok ok
  obtain ⟨r, -, -, -, h'⟩ := (H (.fmul g (.v 6) (.v 2) (.v 2) .fmt) _ (lab { infCrew (3 <<< 18) with vregs := [(2079, 0x7F7FFFFF)] }) 0 31 rfl
    ok ok ok ok ok).2 ok ok ok
  obtain ⟨r, -, -, -, h2⟩ := (H (.cvt g (.v 6) (.v 2) none .f16 .f32 .fmt 0) _
    (lab { infCrew (3 <<< 18) with vregs := [(2079, 0x47800000)] }) 0 31 rfl ok ok ok ok ok).2 ok ok ok
  exact ⟨ran h, ran h', ran h2⟩

theorem witness_CrewRegisterWrites (H : Obligations.CrewRegisterWrites) :
    Completes (.wrsp g (.s 2) true) (lab (crew0 .vec)) ∧ Completes (.fmtset g 1) (lab (crew0 .vec)) ∧
    Completes (.wrsp g0 (.s 2) true) (lab (crew0 .vec)) ∧ Completes (.fmtset g0 1) (lab (crew0 .vec)) :=
  ⟨ran (H.1 _ _ _ _ 0 ok ok), ran (H.2.1 _ _ _ 0 ok ok),
    ran (H.2.2.1 _ _ _ _ 0 ok ok),
    ran (H.2.2.2 _ _ _ 0 ok ok)⟩

theorem witness_RandomResults (H : Obligations.RandomResults) :
    Completes (.rngu g (.v 188) .u128) (lab { crew0 .vec with regc := 192 }) ∧
    Completes (.rngn g (.v 191)) (lab { crew0 .vec with regc := 192 }) :=
  ⟨comp (H.1 _ _ _ _ 0 ok ok), comp (H.2 _ _ _ 0 ok)⟩

/-- A full control stack. -/
def fullStack : List StackEntry := List.replicate 32 (.pending 0 0 0)
/-- p0 true in lane 0 only. -/
def split0 : Crew := { crew0 .vec with preds := [(0, 1)] }

theorem witness_Branch (H : Obligations.Branch) :
    Completes (.bra g0 5) (lab (crew0 .vec)) ∧ Completes (.bra g 0x80000) (lab (crew0 .vec)) ∧
    Completes (.bra g0 5) (lab { split0 with stack := fullStack.drop 1 }) ∧
    Completes (.bra g0 5) (lab { split0 with stack := fullStack }) ∧
    Completes (.call g0 (.v 2) 5) (lab (crew0 .vec)) ∧ Completes (.call g (.s 2) 5) (lab (crew0 .vec)) ∧
    Completes (.call g0 (.v 2) 5) (lab { split0 with stack := fullStack.drop 1 }) ∧
    Completes (.call g0 (.v 2) 5) (lab { split0 with stack := fullStack }) :=
  ⟨ran ((H.1 _ _ _ 0 ok).1 ok),
    ran ((H.1 _ _ _ 0 ok).2.1 ok ok),
    ran ((H.1 _ _ _ 0 ok).2.2.1 ok ok ok),
    ran ((H.1 _ _ _ 0 ok).2.2.2 ok ok ok ok),
    ran ((H.2 _ _ _ _ 0 ok).1 ok),
    ran ((H.2 _ _ _ _ 0 ok).2.1 ok ok),
    ran ((H.2 _ _ _ _ 0 ok).2.2.1 ok ok ok), ran ((H.2 _ _ _ _ 0 ok).2.2.2 ok ok ok ok)⟩

theorem witness_IndexedBranch (H : Obligations.IndexedBranch) :
    Completes (.brx g (.imm 3)) (lab (crew0 .vec)) ∧ Completes (.ret g (.s 2)) (lab (crew0 .vec)) ∧
    Completes (.brx g0 (.s 2)) (lab { split0 with stack := fullStack.drop 1 }) ∧ Completes (.ret g0 (.s 2)) (lab (crew0 .vec)) ∧
    Completes (.brx g0 (.s 2)) (lab { split0 with stack := fullStack }) := by
  refine ⟨?_, ran ((H _ _ _ (.inr rfl) _ 0 ok).2.2.1 (0, laneMask 32) ok ok ok),
    ran ((H _ _ _ (.inl rfl) _ 0 ok).2.2.2.2 (0, 1) (0x1000C, laneMask 32 - 1) [] ok
      ok ok), ran ((H _ _ _ (.inr rfl) _ 0 ok).2.1 ok),
    ran ((H _ _ _ (.inl rfl) _ 0 ok).2.2.2.1 (0, 1) (0x1000C, laneMask 32 - 1) [] ok ok ok ok)⟩
  obtain ⟨r, -, -, h⟩ := (H _ g (.imm 3) (.inl rfl) (lab (crew0 .vec)) 0 ok).1 0 ok ok
  exact ran h

theorem witness_Control (H : Obligations.Control) :
    Completes (.exit g0) (lab (crew0 .vec)) ∧ Completes (.exit g0) (lab split0) ∧ Completes (.exit g) (lab (crew0 .vec)) ∧
    Completes (.reconv g 1) (lab { crew0 .vec with stack := fullStack.drop 1 }) ∧
    Completes (.reconv g 1) (lab { crew0 .vec with stack := fullStack }) ∧
    Completes (.brk g0 1) (lab { split0 with stack := [.join 0x1000C 3 false 0] }) ∧
    Completes (.cont g0 1) (lab split0) ∧ Completes (.yield g) (lab (crew0 .vec)) ∧ Completes (.yield g0) (lab (crew0 .vec)) ∧ Completes (.nop g) (lab (crew0 .vec)) ∧
    Completes (.trap g 0xFFFFFFFF) (lab (crew0 .vec)) ∧ Completes (.trap gFalse 1) (lab (crew0 .vec)) ∧
    Completes (.reconv gFalse 0) (lab { crew0 .vec with stack := fullStack }) ∧
    Completes (.brk gFalse 1) (lab { split0 with stack := [.join 0x1000C 3 false 0] }) := by
  obtain ⟨h1, h2, h3, h4, h5, h6, h7⟩ := H
  refine ⟨ran ((h1 _ _ 0 ok).1 ok),
    ran ((h1 _ _ 0 ok).2.1 ok ok),
    ran ((h1 _ _ 0 ok).2.2 ok ok),
    ran ((h2 _ _ _ 0 ok).1 ok ok),
    ran ((h2 _ _ _ 0 ok).2.1 ok ok ok),
    ran ((h3 _ _ _ (.inl rfl) _ 0 ok).1 [.join 0x1000C 3 false 0] ok ok),
    ran ((h3 _ _ _ (.inr rfl) _ 0 ok).2.2 ok ok),
    ran ((h4 _ _ 0 ok).1 ok), ran ((h4 _ _ 0 ok).2 ok), ran (h5 _ _ 0 ok), ?_, ran (h7 _ _ _ 0 ok ok),
    ran ((h2 _ _ _ 0 ok).2.2 ok),
    ran ((h3 _ _ _ (.inl rfl) _ 0 ok).2.1 [.join 0x1000C 3 false 0] ok ok)⟩
  obtain ⟨r, -, -, h⟩ := h6 g 0xFFFFFFFF (lab (crew0 .vec)) 0 ok ok ok
  exact ran h

/-- A crew whose lanes have left, with a pending link of one arrival to object 0. -/
def linked : State :=
  (lab { crew0 .vec with live := 0, tlink := some (0, 1) }).modParty 0 fun p =>
    { p with bars := [(0, { expect := 2, pending := 1, phase := false })] }

/-- The same with one of two arrivals missing, and another object. -/
def linkedTwo : State :=
  (lab { crew0 .vec with live := 0, tlink := some (0, 1) }).modParty 0 fun p =>
    { p with bars := [(0, { expect := 2, pending := 2, phase := false }), (15, { expect := 3, pending := 3, phase := true })] }

theorem witness_CrewEnds (H : Obligations.CrewEnds) :
    ((linked.crewEnd 0).crew 0).ended = true ∧
    Tbl.get? ((linked.crewEnd 0).party 0).bars 0 = some { expect := 2, pending := 2, phase := true } ∧
    Tbl.get? ((linkedTwo.crewEnd 0).party 0).bars 0 = some { expect := 2, pending := 1, phase := false } ∧
    Tbl.get? ((linkedTwo.crewEnd 0).party 0).bars 15 = some { expect := 3, pending := 3, phase := true } ∧
    (((lab { crew0 .vec with live := 0 }).crewEnd 0).crew 0).ended = true := by
  have a := H linked 0 ok ok ok ok ok ok ok ok ok ok ok (by
      intro id n h; cases (Option.some.inj h : (0, 1) = (id, n)); exact ⟨_, rfl, ok⟩)
  have b := H linkedTwo 0 ok ok ok ok ok ok ok ok ok ok ok (by
      intro id n h; cases (Option.some.inj h : (0, 1) = (id, n)); exact ⟨_, rfl, ok⟩)
  exact ⟨a.1, (a.2.2.1 0 1 _ ok rfl).trans ok, (b.2.2.1 0 1 _ ok rfl).trans ok,
    (b.2.2.2.1 15 (fun n h => by cases Option.some.inj h)).trans ok,
    (H _ 0 ok ok ok ok ok ok ok ok ok ok ok (by intro id n h; cases h)).1⟩

/-- s2:s3 hold 0x10000, s4 holds 0. -/
def addrCrew (role : Role) : Crew := { crew0 role with sregs := [(2, 0x10000)] }
def vecA : State := lab (addrCrew .vec)
/-- 62 operations, the most that leave room for one more. -/
def ops62 : List MemPend := List.replicate 62 { id := 0, pc := 0 }

/-- A crew in a restart region, whose page is not in the TLB. -/
def regionLab : State := { vecA with cores := [(0, { pipes := [(0, 0)] })] }.modCrew 0 fun c => { c with inRegion := true, epc := 0x10000 }
def walkedState : Access → State
  | .walk t => t
  | _ => State.reset
def isWalk : Access → Bool
  | .walk _ => true
  | _ => false
theorem of_walk {a : Access} (h : isWalk a = true) : a = .walk (walkedState a) := by cases a <;> simp_all [isWalk, walkedState]

theorem witness_Loads (H : Obligations.Loads) :
    Completes (.ld g (.v 4) (.s 2) 0 .b32 false .die false true 3) vecA ∧
    Completes (.lds g (.v 4) (.imm 127) 0xF79 .b64 none) (lab { crew0 .vec with loads := ops62.map fun m => { m with done := true } }) ∧
    Completes (.ldw g (.s 4) (.imm 0) 0xFFC .b32) (lab (crew0 .vec)) ∧
    Completes (.ldr g (.v 4) (.imm 0) 4) (lab (crew0 .vec)) ∧
    Completes (.ld g (.v 4) (.s 2) 0 .b32 false .die false false 3) (regionLab) := by
  obtain ⟨h1, hw, h2, h3, h4⟩ := H
  have a := h1 g (.v 4) (.s 2) 0 .b32 false .die false true 3 vecA 0 _
    _ ok ok (of_ok ok) ok ok
  refine ⟨ran a, ran (h2 _ _ _ _ _ _ _ 0 0 ok ok ok ok ok),
    ran (h3 _ _ _ _ _ _ 0 ok ok ok),
    ran (h4 _ _ _ _ _ 0 ok ok ok ok),
    ran (hw g (.v 4) (.s 2) 0 .b32 false .die false false 3 regionLab 0 _ ok ok ok (of_walk ok))⟩

theorem witness_LocalLoadValue (H : Obligations.LocalLoadValue) :
    Completes (.lds g (.v 4) (.imm 127) 0xF7D .b32 none) (lab (crew0 .vec)) := by
  obtain ⟨t, u, h, -⟩ := H g 4 (.imm 127) 0xF7D (lab (crew0 .vec)) 0 ok ok ok
    ok ok ok ok
  exact ran h

/-- s2:s3 hold 2^56; v2 holds 0x10000 in lane 1 and 0 elsewhere. -/
def hiCrew (role : Role) : Crew := { crew0 role with sregs := [(3, 0x1000000)], vregs := [(2049, 0x10000)] }
/-- A sound lane, a lane that is not aligned, and one with bit 56 set. -/
def mixA : List (Nat × DWord) := [(0, 0x10000), (1, 0x10002), (2, 2 ^ 56)]
theorem faultyMix : FaultyLane (lab (crew0 .vec)) 0 .read 4 mixA 1 0x10002 := by
  refine ⟨.inr ok, ?_, [(0, 0x10000)], [(2, 2 ^ 56)], rfl, ok⟩
  intro x hx
  simp only [mixA, List.mem_cons, List.not_mem_nil, or_false] at hx
  rcases hx with rfl | rfl | rfl
  · exact ⟨ok, .inr (.inr ⟨0x20000, { home := 0, lc := 0, rep := false }, ok⟩)⟩
  · exact ⟨ok, .inr (.inl ok)⟩
  · exact ⟨ok, .inl ok⟩
theorem faultyHigh {s : State} {key : Nat} {need : Need} {n : Nat} {addrs : List (Nat × DWord)} {l : Nat} {va : DWord}
    (h : 2 ^ 56 ≤ va.toNat ∧ addrs = (l, va) :: addrs.tail ∧ ∀ x ∈ addrs, s.viewAccess key x.2.toNat = none ∧ 2 ^ 56 ≤ x.2.toNat) :
    FaultyLane s key need n addrs l va :=
  ⟨.inl h.1, fun x hx => ⟨(h.2.2 x hx).1, .inl (h.2.2 x hx).2⟩, [], _, h.2.1, by simp⟩
/-- The same offset in `n` lanes from `a` on. -/
def rest (a n x : Nat) : List (Nat × Nat) := (upto a n).map fun l => (l, x)
theorem trapped {i : Instr} {s : State} {key : Nat} {P : Report → Prop} (h : ∃ r, P r ∧ Traps i s key r) : Completes i s :=
  h.elim fun _ h => ran h.2

theorem witness_AddressFaults (H : Obligations.AddressFaults) :
    (addressFault 4 (2 ^ 56) = some { cause := 0x06, addr := 2 ^ 56 } ∧
      addressFault 4 (2 ^ 56 - 1) = some { cause := 0x07, addr := 2 ^ 56 - 1 } ∧ addressFault 4 (2 ^ 56 - 4) = none) ∧
    (∃ r : Report, r.cause = 0x07 ∧ (lab (crew0 .vec)).access 0 .read 4 mixA = .fault r) ∧
    (Completes (.ld g (.s 4) (.s 2) 0 .b32 false .die false false 3) (lab (hiCrew .vec)) ∧
      Completes (.st g (.s 2) (.s 4) 0 .b32 true .pkg) (lab (hiCrew .vec)) ∧
      Completes (.atom g (.v 4) (.s 2) (.imm 1) .add .plain .pkg false false) (lab (hiCrew .vec)) ∧
      Completes (.red g (.s 2) (.imm 1) .max false .die true true) (lab (hiCrew .vec)) ∧
      Completes (.fred g (.s 2) (.imm 1) .f32 .add false false false true .die) (lab (hiCrew .vec)) ∧
      Completes (.cflush g (.s 2) 0 .die true) (lab (hiCrew .vec))) ∧
    (Completes (.lds g (.v 4) (.v 2) 0 .b32 none) (lab (hiCrew .vec)) ∧
      Completes (.sts g (.imm 0) (.v 4) 4094 .b64 none) (lab (hiCrew .vec)) ∧
      Completes (.atoms g (.v 4) (.v 2) (.imm 1) .add none false false) (lab (hiCrew .vec)) ∧
      Completes (.lds g (.v 4) (.imm 0) 0 .b32 (some 1)) (lab (hiCrew .vec)) ∧
      Completes (.sts gFalse (.imm 0) (.v 4) 0 .b32 (some 1)) (lab (hiCrew .vec))) ∧
    (Completes (.ldw g (.v 4) (.v 2) 0 .b32) (lab (hiCrew .vec)) ∧ Completes (.ldr g (.v 4) (.imm 2) 0) (lab (hiCrew .vec)) ∧
      Completes (.str g (.v 2) (.v 4) 0) (lab (hiCrew .vec))) := by
  obtain ⟨h1, h2, h3, h4, h5, h6, h7, h8, h9⟩ := H
  refine ⟨⟨(h1 _ _).1 ok, (h1 _ _).2.1 ok ok, (h1 _ _).2.2 ok ok⟩,
    (h2 _ _ _ _ _ _ _ faultyMix).elim fun r h => ⟨r, h.1.1.trans ok, h.2⟩,
    ⟨trapped (h3 _ _ _ _ _ _ _ _ _ _ _ 0 0 (2 ^ 56) ok ok ok (faultyHigh ok)),
      trapped (h4 _ _ _ _ _ _ _ _ 0 _ 0 (2 ^ 56) ok ok ok ok (.inr ⟨ok, of_pass ok⟩) (faultyHigh ok)),
      trapped (h5 _ g _ _ _ _ false _ _ _ 0 _ 0 (2 ^ 56) ok ok (.inl ⟨_, _, _, _, _, rfl, rfl, rfl, rfl, rfl⟩) ok (.inl ⟨ok, rfl⟩) ok (faultyHigh ok)),
      trapped (h5 _ g _ (.imm 0) _ _ true _ _ _ 0 _ 0 (2 ^ 56) ok ok (.inr (.inl ⟨_, _, _, _, rfl, rfl, rfl, rfl⟩)) ok (.inl ⟨ok, rfl⟩) ok (faultyHigh ok)),
      trapped (h5 _ g _ (.imm 0) _ _ true _ _ _ 0 _ 0 (2 ^ 56) ok ok (.inr (.inr ⟨_, _, _, _, _, _, rfl, rfl, rfl, rfl⟩)) ok (.inr ⟨ok, of_pass ok⟩) ok (faultyHigh ok)),
      trapped (h6 _ _ _ _ _ _ 0 0 (2 ^ 56) ok ok ok (faultyHigh ok))⟩,
    ⟨trapped ((h7 _ g (.v 2) 0 _ false 4 none (lab (hiCrew .vec)) 0 ok ok (.inl ⟨_, _, rfl, rfl, rfl, rfl⟩) ok ok).1 0 [(0, 0)] (1, 0x10000) (rest 2 30 0) ok ok ok ok),
      trapped ((h7 _ g (.imm 0) 4094 _ true 8 none (lab (hiCrew .vec)) 0 ok ok (.inr (.inl ⟨_, _, rfl, rfl, rfl, rfl⟩)) ok ok).1 0 [] (0, 4094) (rest 1 31 4094) ok ok ok ok),
      trapped ((h7 _ g (.v 2) 0 _ false 4 none (lab (hiCrew .vec)) 0 ok ok (.inr (.inr ⟨_, _, _, _, _, rfl, rfl, rfl, rfl, rfl⟩)) ok ok).1 0 [(0, 0)] (1, 0x10000) (rest 2 30 0) ok ok ok ok),
      ?_, ?_⟩,
    trapped (h8 _ _ _ _ _ _ 0 [(0, 0)] (1, 0x10000) (rest 2 30 0) ok ok ok ok ok ok),
    trapped (h9 _ g (.imm 2) 0 _ false _ 0 [] (0, 2) (rest 1 31 2) ok ok (.inl ⟨_, rfl, rfl, rfl⟩) ok ok ok ok ok),
    trapped (h9 _ g (.v 2) 0 _ true _ 0 [(0, 0)] (1, 0x10000) (rest 2 30 0) ok ok (.inr ⟨_, rfl, rfl, rfl⟩) ok ok ok ok ok)⟩
  · obtain ⟨r, -, -, -, h⟩ := (h7 _ g (.imm 0) 0 _ false 4 (some 1) (lab (hiCrew .vec)) 0 ok ok (.inl ⟨.v 4, .b32, rfl, rfl, rfl, rfl⟩) ok ok).2.1 (0, 0) (rest 1 31 0) ok ok
    exact ran h
  · obtain ⟨m, -, h⟩ := (h7 _ gFalse (.imm 0) 0 _ true 4 (some 1) (lab (hiCrew .vec)) 0 ok ok (.inr (.inl ⟨.v 4, .b32, rfl, rfl, rfl, rfl⟩)) ok ok).2.2 ok ok
    exact ran h

theorem witness_Stores (H : Obligations.Stores) :
    Completes (.st g (.s 2) (.s 4) 0 .b32 false .pkg) vecA ∧
    Completes (.sts g (.imm 127) (.v 4) 0xF79 .b64 none) (lab (crew0 .vec)) ∧
    Completes (.str g (.imm 0) (.v 4) 4) (lab (crew0 .vec)) ∧
    Completes (.st g (.s 2) (.imm 1) 0 .u8 false .die) (agentLab { Crew.agent with sregs := [(2, 0x10000)] }) ∧
    Completes (.st g (.s 2) (.s 4) 0 .b32 true .pkg) vecA ∧
    Completes (.st g (.s 2) (.s 4) 0 .b32 true .pkg) (lab { addrCrew .vec with stores := [{ id := 0, pc := 0, svc := 1 }] }) := by
  obtain ⟨h1, hw, h2, h3⟩ := H
  refine ⟨ran (h1 _ _ _ _ _ _ _ _ 0 _ _ _ _ ok ok ok (.inl ⟨ok, rfl⟩) ok (of_ok ok) ok ok (.inr ⟨ok, of_exOk ok⟩)),
    ran (h2 _ _ _ _ _ _ _ 0 0 ok ok ok ok ok),
    ran (h3 _ _ _ _ _ 0 ok ok ok ok),
    ran (h1 _ _ _ _ _ _ _ _ 64 _ _ _ _ ok ok ok (.inl ⟨ok, rfl⟩) ok (of_ok ok) ok ok (.inl ⟨ok, rfl⟩)),
    ran (h1 _ _ _ _ _ _ _ _ 0 _ _ _ _ ok ok ok (.inr ⟨ok, of_pass ok⟩) ok (of_ok ok) ok ok (.inr ⟨ok, of_exOk ok⟩)),
    ran (hw _ _ _ _ _ _ _ 0 _ ok ok ok (of_wait ok))⟩

theorem witness_StoreAtHome (H : Obligations.StoreAtHome) :
    ((lab (crew0 .vec)).storeLine 0 { home := 0, lc := 3, rep := false } .pkg 0x2007E [1, 2]).1.mem.readBytes 0x2007E 2 = [1, 2] ∧
    ((lab (crew0 .vec)).storeLine 0 { home := 3, lc := 0, rep := false } .pkg 0x2007E [1, 2]).1.mem.readBytes 0x2007E 2 = [1, 2] :=
  ⟨(H _ _ _ _ _ _ ok ok).1, (H _ _ _ _ _ _ ok ok).1⟩

/-- A store of the crew that has reached its die. -/
def stored : MemPend := { id := 0, pc := 0, ct := some 7 }

theorem witness_HintsAndWaits (H : Obligations.HintsAndWaits) :
    Completes (.pref g (.s 2) 0 true) vecA ∧ Completes (.iinv g0 .pkg) (lab (crew0 .tile)) ∧
    Completes (.iinv g .pkg) (lab (crew0 .tile)) ∧ Completes (.waitc gFalse 0 0 0 0) (lab { crew0 .vec with loads := ops62 }) ∧
    Completes (.waitc g 62 63 0 0) (lab { crew0 .vec with loads := ops62, stores := ops62 ++ ops62 }) ∧
    Completes (.waitc g 0 63 63 63) (lab { crew0 .vec with deferred := [(.s, { cause := 0x1F }), (.l, { cause := 0x1F, sub := 2 })] }) :=
  ⟨did (H.1 _ _ _ _ _ 0 ok), ran ((H.2.1 _ _ _ 0 ok).1 ok), ran ((H.2.1 _ _ _ 0 ok).2 ok ok), ran ((H.2.2 _ _ _ _ _ _ 0 ok).1 ok),
    ran ((H.2.2 _ _ _ _ _ _ 0 ok).2.1 ok ok ok ok ok ok), ran ((H.2.2 _ _ _ _ _ _ 0 ok).2.2 _ _ ok ok ok ok ok ok (of_some ok))⟩

theorem witness_OrderingInstructions (H : Obligations.OrderingInstructions) :
    Completes (.fence g0 .ar .sys) (lab { crew0 .copy with stores := ops62 }) ∧
    Completes (.fence g .ar .pkg) (lab { crew0 .copy with stores := [stored] }) ∧
    Completes (.fence g .rel .sys) (lab { crew0 .copy with stores := [stored] }) ∧
    Completes (.fence g .acq .die) (lab { crew0 .copy with stores := [stored] }) ∧
    Completes (.cflush g (.s 2) 0 .die true) (lab { addrCrew .vec with stores := ops62 }) ∧
    Completes (.cflush g0 (.s 2) 0 .pkg false) (lab (crew0 .vec)) :=
  ⟨ran ((H.1 _ _ _ _ 0 ok).1 ok), ran ((H.1 _ _ _ _ 0 ok).2 ok ok ok ok ok ok), ran ((H.1 _ _ _ _ 0 ok).2 ok ok ok ok ok ok),
    ran ((H.1 _ _ _ _ 0 ok).2 ok ok ok ok ok ok), ran (H.2.1 _ _ _ _ _ _ 0 _ _ ok ok (of_ok ok) ok), ran (H.2.2 _ _ _ _ _ _ 0 ok ok ok)⟩

/-- A store that a service crew has yet to answer. -/
def unanswered : MemPend := { id := 0, pc := 0, svc := 1 }

theorem witness_AtomicRequests (H : Obligations.AtomicRequests) :
    Completes (.atom g (.v 4) (.s 2) (.imm 1) .add .plain .pkg false false) vecA ∧
    Completes (.atom g (.v 4) (.s 2) (.imm 1) .add .ar .pkg false false) vecA ∧
    Completes (.red g (.s 2) (.imm 1) .max false .die true true) vecA ∧
    Completes (.red g (.s 2) (.imm 1) .max true .die true true) vecA ∧
    Completes (.fred g (.s 2) (.imm 1) .f32 .add false false false true .die) vecA ∧
    Completes (.atom g (.v 4) (.s 2) (.imm 1) .add .rel .pkg false false) (lab { addrCrew .vec with stores := [unanswered] }) ∧
    Completes (.red g (.s 2) (.imm 1) .max true .die true true) (lab { addrCrew .vec with stores := [unanswered] }) :=
  ⟨ran (H.1 _ _ _ _ _ _ _ _ _ _ 0 _ _ ok ok (.inl ⟨ok, rfl⟩) ⟨_, _, _, ok, of_ok ok, ok, of_some ok, rfl⟩),
    ran (H.1 _ _ _ _ _ _ _ _ _ _ 0 _ _ ok ok (.inr ⟨ok, of_pass ok⟩) ⟨_, _, _, ok, of_ok ok, ok, of_some ok, rfl⟩),
    ran (H.2.1 _ _ _ _ _ _ _ _ _ 0 _ _ ok ok (.inl ⟨ok, rfl⟩) ok ⟨_, _, _, ok, of_ok ok, ok, of_some ok, rfl⟩),
    ran (H.2.1 _ _ _ _ _ _ _ _ _ 0 _ _ ok ok (.inr ⟨ok, of_pass ok⟩) ok ⟨_, _, _, ok, of_ok ok, ok, of_some ok, rfl⟩),
    ran (H.2.2.1 _ _ _ _ _ _ _ _ _ _ _ 0 _ _ ok ok (.inr ⟨ok, of_pass ok⟩) ok ⟨_, _, _, ok, of_ok ok, ok, of_some ok, rfl⟩),
    ran (H.2.2.2 _ g .pkg _ 0 _ (.inl ⟨_, _, _, _, _, _, _, rfl, ok, ok⟩) ok (of_wait ok)),
    ran (H.2.2.2 _ g .die _ 0 _ (.inr ⟨.inl ⟨_, _, _, _, _, rfl⟩, ok⟩) ok (of_wait ok))⟩

theorem witness_ScratchAtomic (H : Obligations.ScratchAtomic) :
    Completes (.atoms g (.v 4) (.imm 8) (.imm 1) (.cas (.imm 0)) none true false) (lab (crew0 .vec)) :=
  ran (H _ _ _ _ _ _ _ _ _ 0 0 ok ok ok ok ok)

theorem witness_AtomicValues (H : Obligations.AtomicValues) :
    MemOp.apply .add 8 0xFF 1 0 = 0 ∧ MemOp.apply (.min false) 8 0xFF 1 0 = 0xFF ∧ MemOp.apply .cas 8 5 7 5 = 7 := by
  have h := H 8 0xFF 1 0 (by decide)
  have k := H 8 5 7 5 (by decide)
  exact ⟨h.1.trans rfl, (h.2.1 false).trans rfl, k.2.2.2.2.2.2.2.trans rfl⟩

theorem witness_Signals (H : Obligations.Signals) :
    Completes (.sigset g0 (.s 2) (.imm 1) .die) vecA ∧ Completes (.sigset g (.s 2) (.imm 1) .die) vecA ∧
    Completes (.sigadd g (some (.s 6)) (.s 2) (.imm 1) .pkg) vecA ∧ Completes (.tkserve g (.s 2) .sys) vecA ∧
    Completes (.sigwait g (.s 6) (.s 2) (.imm 1) .ge .die) (lab { addrCrew .vec with reply := some 5 }) ∧
    Completes (.ticket g (.s 6) (.s 2) none .die) (lab { addrCrew .vec with reply := some 5, ticket := some 4 }) ∧
    Completes (.ticket g (.s 6) (.s 2) (some (.imm 4)) .die) (lab { addrCrew .vec with reply := some 5 }) ∧
    Completes (.sigwait g (.s 6) (.s 2) (.imm 1) .ge .die) vecA ∧
    Completes (.ticket g (.s 6) (.s 2) (some (.imm 4)) .die) vecA ∧ Completes (.ticket g (.s 6) (.s 2) none .die) vecA := by
  obtain ⟨h1, h2, h3, h4, h5⟩ := H
  refine ⟨
    ran ((h1 _ g0 .die (.s 2) _ none .exch 8 0 true vecA 0 (.inl ⟨.imm 1, rfl, rfl, rfl, rfl, rfl, rfl, rfl⟩)
      ok ok).1 ok),
    ran ((h1 _ g .die (.s 2) _ none .exch 8 0 true vecA 0 (.inl ⟨.imm 1, rfl, rfl, rfl, rfl, rfl, rfl, rfl⟩)
      ok ok).2 _ _ ok ok (of_pass ok) ⟨_, _, _, ok, of_ok ok, ok, of_some ok, rfl⟩),
    ran ((h1 _ g .pkg (.s 2) _ (some (.s 6)) .add 8 0 true vecA 0 (.inr (.inl ⟨.imm 1, rfl, rfl, rfl, rfl, rfl, rfl⟩))
      ok ok).2 _ _ ok ok (of_pass ok) ⟨_, _, _, ok, of_ok ok, ok, of_some ok, rfl⟩),
    ran ((h1 _ g .sys (.s 2) _ none .add 16 8 false vecA 0 (.inr (.inr ⟨rfl, rfl, rfl, rfl, rfl, rfl, rfl⟩))
      ok ok).2 _ _ ok ok (of_pass ok) ⟨_, _, _, ok, of_ok ok, ok, of_some ok, rfl⟩),
    ran (h2 _ _ _ _ _ _ _ 0 5 _ ok ok ok ok ok (of_pass ok)),
    ran (h3 _ _ _ _ _ _ 0 5 4 _ ok ok ok ok ok ok ok (of_pass ok)),
    ran (h3 _ _ _ _ _ _ 0 5 4 _ ok ok ok ok ok ok ok (of_pass ok)),
    ran (h4 _ g .die _ _ .ge _ _ vecA 0 _ _ _ (.inl ⟨.s 6, .s 2, .imm 1, rfl, rfl, rfl, rfl, rfl⟩) ok ok ok ok ok
      (of_ok1 ok) ok ok ok ok),
    ran (h4 _ g .die _ _ .eq 4 _ vecA 0 _ _ _ (.inr ⟨.s 6, .s 2, some (.imm 4), rfl, rfl, rfl, rfl, rfl, ok, ok⟩) ok ok ok ok ok
      (of_ok1 ok) ok ok ok ok),
    ran (h5 _ _ _ _ _ 0 _ _ _ ok ok ok ok ok ok ok (of_ok ok) ok (of_some ok))⟩

/-- A row of 16 bytes from the scratchpad's start to the weight store's last 16 bytes. -/
def rowShape : BitVec 512 := shape 1 3 5 false 0 4080 16 1
/-- A ring of two slots whose first is held. -/
def heldRing : Ring := { slots := [{ st := .held }, {}], prod := 1 }
def copyLab : State :=
  (lab (crew0 .copy)).modParty 0 fun p =>
    { p with scratch := Memory.writeBytes [] 4032 (toBytesLE 64 rowShape.toNat), shapes := [(3, rowShape)], rings := [(1, heldRing)] }
/-- s4 holds 4032, s5 holds 256. -/
def slotCrew (role : Role) : Crew := { crew0 role with sregs := [(4, 4032), (5, 256)] }

theorem witness_ShapesAndCopies (H : Obligations.ShapesAndCopies) :
    Completes (.tshape g (.imm 15) (.s 4)) { copyLab with crews := [(0, slotCrew .copy)] } ∧
    Completes (.tshape g (.imm 15) (.imm 64)) copyLab ∧
    Completes (.tcopy g (.imm 3) (.imm 0) none true) copyLab ∧
    Completes (.tcopy g (.imm 3) (.imm 0) (some (.s 5)) false) { copyLab with crews := [(0, slotCrew .copy)] } ∧
    Completes (.tcopy gFalse (.imm 3) (.imm 0) none true) copyLab := by
  obtain ⟨h1, h2, h3⟩ := H
  refine ⟨ran ((h1 _ _ _ _ 0 ok ok ok ok
      ok).1 ok),
    ran ((h1 _ _ _ _ 0 ok ok ok ok
      ok).2 ok ok),
    ran ((h2 _ _ _ _ _ _ 0 rowShape ok ok ok ok
      ok ok).1 rfl),
    ran ((h2 _ _ _ _ _ _ 0 rowShape ok ok ok ok
      ok ok).2 _ heldRing rfl ok ok ok),
    ran (h3 _ _ _ _ _ _ 0 ok ok ok)⟩

/-- A copy that is counted in C. -/
def copyOp (r : BitVec 512) (applied : Bool) (ct : Option Nat) : CPend :=
  { id := 0, pc := 0x10000, kind := .copy 3 r 0 false none, applied := applied, ct := ct }
def copying (r : BitVec 512) (applied : Bool) (ct : Option Nat) : State :=
  { copyLab with crews := [(0, { crew0 .copy with cops := [copyOp r applied ct], nextId := 1 })] }

/-- A copy to memory whose line is leased until tick 5000, and one whose source page its engine has failed to find. -/
def copyOut : BitVec 512 := shape 1 0 5 false 0 0x10000 16 1 ||| BitVec.shiftLeft 4 22
def leased : State := { copying copyOut false none with
  xmax := [(1024, 5000)], cores := [(0, { pipes := [(0, 0)], tlb := [{ page0 with lc := 3 }] })] }
def copyHole : BitVec 512 := shape 0 3 5 false 0 4080 16 1
def unmapped : State :=
  (copying copyHole false none).modDie 0 fun x => { x with walks := [{ ctx := 0, va := 0, crew := engineAsk 0, core := 0, failed := some (0, false) }] }

/-- A copy to memory whose home die relocks. -/
def heldCopy : State := { copying copyOut false none with
  cores := [(0, { pipes := [(0, 0)], tlb := [{ page0 with home := 1 }] })]
  dies := [(0, { freqs := [{ mer := 0, clk := 0, freq := 18 }] }), (1, { relock := some (900, 8) })] }

theorem witness_CopyEvents (H : Obligations.CopyEvents) :
    Completes (.copyComplete 0) (copying rowShape false none) ∧ Completes (.copyComplete 0) leased ∧
    Completes (.copyComplete 0) (copying rowShape true (some 999)) ∧ Completes (.copyAbandon 0) unmapped ∧
    Completes (.copyComplete 0) heldCopy :=
  ⟨ran (((H (copying rowShape false none) 0 (copyOp rowShape false none) 3 rowShape 0 false none ok ok rfl).1 ok rfl ok ok ok).1 ok ok ok ok),
    ran (((H leased 0 (copyOp copyOut false none) 3 copyOut 0 false none ok ok rfl).1 ok rfl ok ok ok).2.1 ok ok),
    ran ((H _ 0 (copyOp rowShape true (some 999)) 3 rowShape 0 false none ok ok rfl).2.1 ok rfl ok),
    ran ((H unmapped 0 (copyOp copyHole false none) 3 copyHole 0 false none ok ok rfl).2.2 0 false rfl ok ok ok),
    ran (((H heldCopy 0 (copyOp copyOut false none) 3 copyOut 0 false none ok ok rfl).1 ok rfl ok ok ok).2.2 1 ok)⟩

theorem witness_CopyMovesRow (H : Obligations.CopyMovesRow) : (copyLab.runCopy 0 rowShape 0 false (copyOp rowShape false none) 1).err = none :=
  (H copyLab 0 rowShape _ ok ok ok ok ok ok ok ok ok ok ok ok).1

theorem witness_Spawns (H : Obligations.Spawns) :
    Completes (.spawn g (.imm 64) 0 0x80000) (lab (crew0 .vec)) ∧ Completes (.spawnr g (.s 2) (.imm 0) 0) (lab (addrCrew .tile)) := by
  obtain ⟨v, h, -⟩ := H _ g (.imm 64) 0 _ (lab (crew0 .vec)) 0 (.inl ⟨0x80000, rfl, rfl⟩) ok ok
    ok ok ok ok ok ok
    _ (of_pass ok) ok ok ok
  obtain ⟨w, h', -⟩ := H _ g (.imm 0) 0 _ (lab (addrCrew .tile)) 0 (.inr ⟨.s 2, rfl, rfl, by decide +kernel⟩) ok
    ok ok ok ok ok ok
    ok _ (of_pass ok) ok ok ok
  exact ⟨ran h, ran h'⟩

theorem witness_JoinAlloc (H : Obligations.JoinAlloc) :
    Completes (.join g) (lab (crew0 .vec)) ∧ Completes (.join g) (lab { crew0 .vec with phase := 2 }) ∧
    Completes (.alloc g (.s 6) (.s 4)) (lab { crew0 .copy with sregs := [(4, 0x10000)] }) ∧
    Completes (.alloc g (.s 6) (.s 4)) (lab { crew0 .copy with sregs := [(4, 0x10001)] }) ∧
    Completes (.trigger g) (lab { crew0 .copy with idx := 1 }) ∧ Completes (.alloc g (.s 6) (.s 4)) (lab { crew0 .copy with idx := 1 }) := by
  obtain ⟨h1, h2, h3, h4⟩ := H
  exact ⟨ran ((h1 _ _ 0 ok ok ok ok ok).1
      ok _ (of_pass ok)),
    ran ((h1 _ _ 0 ok ok ok ok ok).2
      ok _ (of_pass ok)),
    ran ((h2 _ _ _ _ 0 ok ok ok).1 ok),
    ran ((h2 _ _ _ _ 0 ok ok ok).2 ok ok),
    ran (h3 _ g _ 0 (by simp) ok ok ok), ran (h4 _ _ _ _ 0 ok ok ok)⟩

/-- A declaration of one FP32 sum at 0x10000 with its view. -/
def viewLab : State :=
  let s := lab (addrCrew .vec)
  let s := { s with decls := [(0, { task := 0, id := 15, kind := .addf32, target := 0x10000, count := 1 })], nextDecl := 1
                    views := [(0, { decl := 0, core := 0 })], nextView := 1 }
  s.modTask 0 fun t => { t with decls := [(15, 0)], views := [(0, 0)] }

/-- The same with another kind and count, and a crew whose s2:s3 hold the view's first address. -/
def viewOfKind (k : RedKind) : State :=
  { viewLab with crews := [(0, { crew0 .vec with sregs := [(2, 0x1E00000), (3, 0xFF0000)] })]
                 decls := [(0, { task := 0, id := 15, kind := k, target := 0x10000, count := 40 })] }

theorem witness_Reducers (H : Obligations.Reducers) :
    Completes (.vdecl g (.imm 15) (.s 2) (.imm 1) .adds64) vecA ∧ Completes (.vptr g (.s 6) (.imm 15)) viewLab ∧
    Completes (.vfin g (.imm 15) true) viewLab ∧
    Completes (.fred g (.s 2) (.imm 0) .f32 .add false false false false .die) (viewOfKind .addf32) ∧
    Completes (.red g (.s 2) (.imm 1) .add false .die true false) (viewOfKind .adds64) ∧
    Completes (.st g (.s 2) (.v 4) 0 .b128 false .die) (viewOfKind .log) ∧
    Completes (.st g (.s 2) (.v 4) 0 .b32 false .die) (viewOfKind .log) ∧
    ((viewOfKind .log).contribute 0 (viewAddr 15) (.store 7 true)).isSome = true ∧
    ((viewOfKind .adds64).contribute 0 (viewAddr 15 + 8 * 39) (.red .add true false 5)).isSome = true ∧
    (viewOfKind .adds64).contribute 0 (viewAddr 15 + 8 * 40) (.red .add true false 5) = none ∧
    (∃ r : Report, (lab (crew0 .vec)).access 0 .read 4 ([(0, 0x10000)] ++ (1, 0xFF000000000000) :: [(2, 0x10004)]) = .fault r) := by
  obtain ⟨h1, h2, h3, h4, h5, h6⟩ := H
  refine ⟨ran (h1 _ _ _ _ _ _ 0 ok ok ok ok ok
      ok ok ok ok ok ok),
    comp (h2 _ _ _ _ 0 0 0 ok ok ok),
    ran (h3 _ _ _ _ 0 0 { task := 0, id := 15, kind := .addf32, target := 0x10000, count := 1 } 0 { decl := 0, core := 0 } _ _
      ok ok ok ok ok ok
      ok ok ok ok ok
      (of_ok ok) ok ok ok),
    ran ((h4 _ g false .die _ _ _ 0 _ ok (.inr (.inr ⟨_, _, _, _, _, _, _, rfl, rfl, rfl⟩)) ok (.inl ⟨ok, rfl⟩) ok ok ok).1 _ (of_exOk ok)).2,
    ran ((h4 _ g false .die _ _ _ 0 _ ok (.inr (.inl ⟨_, _, _, _, _, rfl, rfl, rfl⟩)) ok (.inl ⟨ok, rfl⟩) ok ok ok).1 _ (of_exOk ok)).2,
    ran ((h4 _ g false .die _ _ _ 0 _ ok (.inl ⟨_, _, _, _, rfl, rfl, ok, rfl⟩) ok (.inl ⟨ok, rfl⟩) ok ok ok).1 _ (of_exOk ok)).2,
    ?_, ?_, ?_, ?_, ?_⟩
  · obtain ⟨r, -, -, h⟩ := (h4 _ g false .die _ _ (viewOfKind .log) 0 _ ok (.inl ⟨.s 2, .v 4, 0, .b32, rfl, rfl, ok, rfl⟩) ok (.inl ⟨ok, rfl⟩) ok ok ok).2 0 ok ok
    exact ran h
  · have e := (h5 (viewOfKind .log) 0 (viewAddr 15) (.store 7 true) 0 _ _ rfl).1 _ ⟨rfl, by simp, rfl⟩ ok ok
    rw [e]; rfl
  · have e := (h5 (viewOfKind .adds64) 0 (viewAddr 15 + 8 * 39) (.red .add true false 5) 0 { decl := 0, core := 0 }
      { task := 0, id := 15, kind := .adds64, target := 0x10000, count := 40 } ok).1 _ (Eq.refl _) ok ok
    rw [e]; rfl
  · exact (h5 (viewOfKind .adds64) 0 (viewAddr 15 + 8 * 40) (.red .add true false 5) 0 _ _ rfl).2 (.inr (.inl ok))
  · obtain ⟨r, -, -, h⟩ := h6 (lab (crew0 .vec)) 0 .read 4 [(0, 0x10000)] 1 0xFF000000000000 [(2, 0x10004)] ok ok ok (by
      intro x hx
      simp only [List.cons_append, List.nil_append, List.mem_cons, List.not_mem_nil, or_false] at hx
      rcases hx with rfl | rfl
      · exact .inr ⟨ok, 0x20000, { home := 0, lc := 0, rep := false }, ok⟩
      · exact .inr ⟨ok, 0x20004, { home := 0, lc := 0, rep := false }, ok⟩)
    exact ⟨r, h⟩

/-- Barrier object 15 expects 64 and waits for 64; object 0 for one. -/
def barLab (c : Crew) : State :=
  (lab c).modParty 0 fun p => { p with bars := [(0, { expect := 64, pending := 1, phase := false }), (15, { expect := 64, pending := 64, phase := true })] }

theorem witness_Barriers (H : Obligations.Barriers) :
    Completes (.barp g) (lab { crew0 .vec with phase := 2, aux := 1 }) ∧ Completes (.barp g0) (lab (crew0 .tile)) ∧
    Completes (.barc g true) (lab { crew0 .vec with phase := 2, aux := 1 }) ∧ Completes (.barc g true) (lab (crew0 .copy)) ∧
    Completes (.arriveInit g (.imm 15) (.imm 64)) (barLab (crew0 .vec)) ∧
    Completes (.arrive g (.s 6) (.imm 0) (.imm 1)) (barLab (crew0 .vec)) ∧
    Completes (.arrive g (.v 0) (.imm 15) (.imm 63)) (barLab (crew0 .vec)) ∧
    Completes (.await g (.imm 15) (.imm 0)) (barLab (crew0 .vec)) ∧ Completes (.trigger g) (lab (crew0 .vec)) ∧
    Completes (.pedcmp g (.s 6) (.sp .ped) (.imm 64)) (lab (crew0 .vec)) ∧
    Completes (.pedcmp g (.v 6) (.s 4) (.imm 0)) (lab (slotCrew .vec)) := by
  obtain ⟨h1, h2, h3, h4, h5, h6, h7⟩ := H
  exact ⟨ran ((h1 _ _ 0 ok).1 ok ok),
    ran ((h1 _ _ 0 ok).2 ok _ (of_pass ok) ok),
    ran ((h2 _ _ _ 0 ok).1 ok ok _ (of_pass ok)),
    ran ((h2 _ _ _ 0 ok).2 ok _ _ (of_pass ok) ok
      (of_pass ok)),
    ran (h3 _ _ _ _ 0 ok ok ok ok ok
      (by intro x h; cases h; rfl)),
    ran (h4 _ _ _ _ _ 0 _ { expect := 64, pending := 1, phase := false } ok ok
      ok ok ok (of_pass ok) ok
      ok),
    ran (h4 _ _ _ _ _ 0 _ { expect := 64, pending := 64, phase := true } ok ok
      ok ok ok (of_pass ok) ok
      ok),
    ran (h5 _ _ _ _ 0 { expect := 64, pending := 64, phase := true } ok ok
      ok ok ok ok ok),
    ran (h6 _ _ 0 _ ok ok ok (of_pass ok)),
    comp (h7 _ _ _ _ _ 0 _ _ ok (.inl ⟨rfl, rfl⟩) ok ok rfl),
    comp (h7 _ _ _ _ _ 0 _ _ ok (.inr ⟨by decide +kernel, by decide +kernel, by decide +kernel, rfl⟩)
      ok ok rfl)⟩

/-- Ring 7: slot 0 held, slot 1 full, slot 2 taken, slot 3 free; the consumer at slot 1, the producer at the last slot. -/
def ring7 : Ring := { prodQ := [0, 3], consQ := [0], slots := [{ st := .held }, { f := true, st := .full }, { st := .taken }, {}], prod := 3, cons := 1 }
def ringLab : State := (lab (crew0 .vec)).modParty 0 fun p => { p with rings := [(7, ring7)] }

theorem witness_Rings (H : Obligations.Rings) :
    Completes (.ringputInit g (.imm 7) (.imm 64)) (lab (crew0 .vec)) ∧ Completes (.ringputGet g (.s 6) (.imm 7)) ringLab ∧
    Completes (.ringputPub g (.imm 7) (.imm 0)) ringLab ∧ Completes (.ringgetGet g (.v 6) (.imm 7)) ringLab ∧
    Completes (.ringgetRel g (.imm 7) (.imm 2)) ringLab := by
  obtain ⟨h1, h2, h3, h4, h5⟩ := H
  exact ⟨ran (h1 _ _ _ _ 0 ok ok ok ok ok
      (by intro x h; cases h)),
    ran (h2 _ _ _ _ 0 ring7 ok ok ok ok ok ok ok),
    ran (h3 _ _ _ _ 0 ring7 _ ok ok (of_pass ok) ok
      ok ok ok),
    ran (h4 _ _ _ _ 0 ring7 ok ok ok ok ok
      ok ok ok),
    ran (h5 _ _ _ _ 0 ring7 ok ok ok ok ok
      ok ok ok)⟩

/-- Shapes of a 4 x 1 product of FP8 planes, of MLD weights, and of output planes. -/
def tileLab (fmt : Word) : State :=
  (lab { crew0 .tile with fmt := fmt }).modParty 0 fun p => { p with shapes := [
    (0, shape 0 1 3 true 0 0 4 1), (1, shape 0 1 3 true 0 32 4 1), (2, shape 0 3 9 true 0 64 4 1 128),
    (3, shape 0 1 3 false 0 4092 4 1), (5, shape 0 3 9 true 0 64 1 4 128)] }

theorem witness_TileIssue (H : Obligations.TileIssue) :
    Completes (.tmma g (.imm 0) (.imm 1) 1) (tileLab 0x333) ∧ Completes (.tmmae g (.imm 0) (.imm 2) (.s 4) 1) (tileLab 0x393) ∧
    Completes (.tmmag g (.imm 0) (.imm 1) 1) (tileLab 0x333) ∧ Completes (.tzero g 1) (tileLab 0) ∧
    Completes (.tadd g 0 1) (tileLab 0) ∧ Completes (.tload g (.imm 3) (.imm 0) 1) (tileLab 0) ∧
    Completes (.tdrain g (.imm 3) (.imm 0) 1 true true) (tileLab 0x333) ∧
    Completes (.tdrainl g (.imm 3) (.imm 5) (.s 4) 1 false) (tileLab 0x333) ∧
    Completes (.tlink g (.imm 15) (.imm 64)) (tileLab 0) ∧ Completes (.tmma gFalse (.imm 0) (.imm 1) 1) (tileLab 0x333) ∧
    Completes (.ommv gFalse (.v 8) (.v 4) (.s 4) 3 1 .f32 .f32 true) (lab (crew0 .vec)) := by
  obtain ⟨h1, h2, h3, h4, h5, h6, h7, h8⟩ := H
  exact ⟨
    ran (h1 _ _ _ _ none 1 false _ 0 (shape 0 1 3 true 0 0 4 1) (shape 0 1 3 true 0 32 4 1) (.inl ⟨rfl, rfl, rfl⟩)
      ok ok ok ok ok ok
      ok ok ok ok ok),
    ran (h1 _ _ _ _ (some (.s 4)) 1 false _ 0 (shape 0 1 3 true 0 0 4 1) (shape 0 3 9 true 0 64 4 1 128)
      (.inr (.inl ⟨_, rfl, rfl, rfl⟩))
      ok ok ok ok ok ok
      ok ok ok ok ok),
    ran (h1 _ _ _ _ none 1 true _ 0 (shape 0 1 3 true 0 0 4 1) (shape 0 1 3 true 0 32 4 1) (.inr (.inr ⟨rfl, rfl, rfl⟩))
      ok ok ok ok ok ok
      ok ok ok ok ok),
    ran (h2 _ _ _ 0 ok ok ok ok),
    ran (h3 _ _ _ _ 0 ok ok ok ok ok),
    ran (h4 _ _ _ _ _ 0 (shape 0 1 3 false 0 4092 4 1) ok ok ok
      ok ok ok ok ok),
    ran (h5 _ _ _ _ _ _ _ 0 (shape 0 1 3 false 0 4092 4 1) ok ok ok
      ok ok ok ok ok ok),
    ran (h6 _ _ _ _ _ _ _ 0 (shape 0 1 3 false 0 4092 4 1) (shape 0 3 9 true 0 64 1 4 128) ok
      ok ok ok ok ok ok
      ok ok ok ok ok ok),
    ran (h7 _ _ _ _ 0 ok ok ok ok ok
      ok), ran (h8 _ gFalse _ 0 (by simp) ok ok ok), ran (h8 _ gFalse _ 0 (by simp) ok ok ok)⟩

theorem witness_TileCounted (H : Obligations.TileCounted) : (((tileLab 0).addT 0 (.zero 1) false).crew 0).pc = 0x10000 := by
  obtain ⟨o, h⟩ := H (tileLab 0) 0 (.zero 1) false ok
  exact h.2.2.2.2.2.2.2.2.2.2.2.2.1

theorem witness_HypsometerOctet (H : Obligations.HypsometerOctet) :
    Completes (.histrd g (.s 6) (.imm 63) (.imm 32)) (lab (crew0 .tile)) ∧
    Completes (.histclr g (.imm 63) (.s 4)) (lab { crew0 .tile with sregs := [(4, 0xFFFFFBCE)] }) ∧
    Completes (.ommv g (.v 8) (.v 4) (.s 4) 3 1 .f32 .f32 true) (lab { crew0 .vec with sregs := [(4, 4064)] }) ∧
    Completes (.ommve g (.v 8) (.v 4) (.imm 0) (.s 4) 0 0 .f32 .mldb false) (lab (crew0 .vec)) := by
  obtain ⟨h1, h2, h3⟩ := H
  exact ⟨comp (h1 _ _ _ _ _ 0 ok ok ok),
    ran (h2 _ _ _ _ 0 ok ok ok ok ok),
    ran (h3 _ g 8 4 (.s 4) none 3 1 .f32 .f32 true _ 0 (.inl ⟨rfl, rfl⟩) ok ok
      ok ok),
    ran (h3 _ g 8 4 (.imm 0) (some (.s 4)) 0 0 .f32 .mldb false _ 0 (.inr ⟨_, rfl, rfl⟩) ok ok
      ok ok)⟩

/-- A crew with one operation in T. -/
def tileOp (k : TKind) (applied : Bool) : TPend := { id := 0, pc := 0x10000, epc := 0, kind := k, fmt := 0x333, applied := applied }
def tiling (k : TKind) (applied : Bool) : State :=
  (tileLab 0x333).modCrew 0 fun c => { c with tops := [tileOp k applied], nextId := 1 }
def outShape : BitVec 512 := shape 0 1 3 false 0 4092 4 1

/-- A tile load from memory whose home die relocks. -/
def memShape : BitVec 512 := shape 1 0 3 false 0 0x10000 4 1
def heldLoad : State := { tiling (.load 3 memShape 0 1) false with
  cores := [(0, { pipes := [(0, 0)], tlb := [{ page0 with home := 1 }] })]
  dies := [(0, { freqs := [{ mer := 0, clk := 0, freq := 18 }] }), (1, { relock := some (900, 8) })] }

theorem witness_TileEvents (H : Obligations.TileEvents) :
    Completes (.tileOpComplete 0) (tiling (.zero 1) false) ∧ Completes (.tileOpComplete 0) (tiling (.add 0 1) false) ∧
    Completes (.tileOpComplete 0) (tiling (.load 3 outShape 0 1) false) ∧
    Completes (.tileOpComplete 0) (tiling (.mma (shape 0 1 3 true 0 0 4 1) (shape 0 1 3 true 0 32 4 1) none 1 0) false) ∧
    Completes (.drainComplete 0) (tiling (.drain 3 outShape 0 1 true false) false) ∧
    Completes (.drainComplete 0) (tiling (.drainl 3 outShape (shape 0 3 9 true 0 64 1 4 128) 0 1 false) false) ∧
    Completes (.drainComplete 0) (tiling (.drain 3 outShape 0 1 true false) true) ∧
    Completes (.fusionWindowClose 0 0) ((lab (crew0 .vec)).modCore 0 fun x =>
      { x with groups := [{ party := 0, base := 0, k := 1, n := 1, wf := .f32, relief := none, closes := 1800, reqs := [] }] }) ∧
    Completes (.fusedPass 0) ((lab (crew0 .vec)).modCore 0 fun x => { x with groups :=
      [{ party := 0, base := 0, k := 1, n := 1, wf := .f32, relief := none, closes := 0, ready := true, reqs := [] }] }) ∧
    Completes (.tileOpComplete 0) heldLoad ∧
    Completes (.drainComplete 0) (tiling (.drainl 3 outShape (shape 0 3 9 true 0 64 1 4 128) 0 1 true) true) := by
  obtain ⟨h1, h2, h3⟩ := H
  refine ⟨ran ((h1 _ 0 (tileOp (.zero 1) false) ok ok ok).1 1 rfl),
    ran ((h1 _ 0 (tileOp (.add 0 1) false) ok ok ok).2.1 0 1 rfl),
    ran (((h1 (tiling (.load 3 outShape 0 1) false) 0 (tileOp (.load 3 outShape 0 1) false) ok ok ok).2.2.1 3 outShape 0 1 rfl).1 ok),
    ran ((h1 _ 0 (tileOp (.mma (shape 0 1 3 true 0 0 4 1) (shape 0 1 3 true 0 32 4 1) none 1 0) false) ok
      ok ok).2.2.2.1 _ _ none 1 0 rfl ok ok ok),
    ran ((h1 _ 0 (tileOp (.drain 3 outShape 0 1 true false) false) ok
      ok ok).2.2.2.2.1 3 outShape 0 1 true false rfl rfl),
    ran ((h1 _ 0 (tileOp (.drainl 3 outShape (shape 0 3 9 true 0 64 1 4 128) 0 1 false) false) ok
      ok ok).2.2.2.2.2.1 3 outShape _ 0 1 false rfl rfl ok),
    ran ((h1 _ 0 (tileOp (.drain 3 outShape 0 1 true false) true) ok
      ok ok).2.2.2.2.2.2 outShape false (.inl ⟨3, 0, 1, true, rfl⟩) rfl ok),
    ran (h2 _ 0 0 { party := 0, base := 0, k := 1, n := 1, wf := .f32, relief := none, closes := 1800, reqs := [] }
      ok ok ok),
    ran (h3 _ 0 { party := 0, base := 0, k := 1, n := 1, wf := .f32, relief := none, closes := 0, ready := true, reqs := [] }
      ok ok),
    ran (((h1 heldLoad 0 (tileOp (.load 3 memShape 0 1) false) ok ok ok).2.2.1 3 memShape 0 1 rfl).2 1 ok),
    ran ((h1 (tiling (.drainl 3 outShape (shape 0 3 9 true 0 64 1 4 128) 0 1 true) true) 0
      (tileOp (.drainl 3 outShape (shape 0 3 9 true 0 64 1 4 128) 0 1 true) true) ok ok ok).2.2.2.2.2.2 outShape true
      (.inr ⟨3, _, 0, 1, rfl⟩) rfl ok)⟩

/-- A context entry: valid, every budget class, one queue at 0x40000, page table at 0x1000, heap, fault ring at 0x30000. -/
def entry0 : BitVec 512 :=
  BitVec.ofNat 512 (1 + 0xFFFF * 2 ^ 8 + 2 ^ 24 + 0x1000 * 2 ^ 64 + 0x100000 * 2 ^ 128 + 0x1000 * 2 ^ 192 + 0x30000 * 2 ^ 256 +
    2 * 2 ^ 320 + 0x40000 * 2 ^ 384)
/-- A page table that maps the lowest gigabyte to itself, and the context table at 0x8000. -/
def table0 : Memory :=
  Memory.writeBytes [(0x1000, 1), (0x1001, 0x20), (0x2000, 1), (0x2001, 0x30), (0x3000, 0x1F)] 0x8000 (toBytesLE 64 entry0.toNat)
/-- A packet of one root: one VEC crew of 32 lanes and 16 registers; the completion word at 0x20000. -/
def packet0 : BitVec 4096 :=
  BitVec.ofNat 4096 (1 + 2 ^ 16 + 2 ^ 64 + 0x20000 * 2 ^ 448 + (2 * 2 ^ 64 + 16 * 2 ^ 71) * 2 ^ 1536)
def launch0 : Launch := { ctx := 0, packet := packet0, dies := 1, released := true, status := .running }
/-- The small state with core 0 and die 0 ready, its context mapped, and a launch of one root. -/
def mapLab (c : Crew) : State :=
  { lab c with mem := table0, ctxTable := 0x8000, ctxLive := [(0, entry0)], ready := 1 + BitVec.shiftLeft 1 64 + BitVec.shiftLeft 0x1FFFFFFFF 80, launches := [(0, launch0)] }
def mapAgent (c : Crew) : State :=
  { mapLab (crew0 .vec) with
    cur := some 64, crews := [(0, crew0 .vec), (64, { c with party := agentParty 64, asleep := false })] }

/-- Collective and amplitude records: an FP32 row in scratchpad for 0x10000, the extension records of a put and of an add,
and a map of five qubits at 0x20000. -/
def collShape : BitVec 512 := shape 1 0 0 false 0 0x10000 4 1
def putExt : BitVec 256 := 0
def addExt : BitVec 256 := 256
def ampRec : BitVec 512 :=
  BitVec.ofNat 512 (0x20000 + 5 * 2 ^ 64 + 5 * 2 ^ 72 + 2 ^ 136 + 2 * 2 ^ 144 + 3 * 2 ^ 152 + 4 * 2 ^ 160)
def comm0 : Comm := { x := 1, y := 1, z := 1, tmo := 10000, ranks := [(0, 0)] }
def engLab (cops : List CPend) (amp : AmpSlot) : State :=
  let s := { mapLab { crew0 .copy with cops := cops, nextId := 1 } with
    comms := [(0, comm0)], scheds := [(16, { entry := 0, code := [0] })], amps := [(0, amp)]
    handles := [(1, { task := 0, ctx := 0, sched := 16, state := 2 }), (2, { num := 2, task := 0, ctx := 1, sched := 16, state := 3 })] }
  s.modParty 0 fun p => { p with shapes := [(3, collShape)], scratch := Memory.writeBytes [(33, 1)] 64 (toBytesLE 64 ampRec.toNat) }
def amp0 : AmpSlot := { map := ampRec, issueMap := ampRec }

theorem witness_EngineIssue (H : Obligations.EngineIssue) :
    Completes (.tcopyx g (.imm 3) (.imm 0) (.imm 0) false) (engLab [] {}) ∧
    Completes (.tcopyx g (.imm 3) (.imm 0) (.imm 32) true) (engLab [] {}) ∧
    Completes (.cstart g (.s 6) (.imm 16) (.imm 64)) (engLab [] {}) ∧ Completes (.cstat g (.s 6) (.imm 2)) (engLab [] {}) ∧
    Completes (.cstat g (.s 6) (.imm 1)) (engLab [] {}) ∧
    Completes (.amap g (.imm 7) (.imm 64)) (engLab [] {}) ∧ Completes (.amapRd g (.imm 0) (.imm 64)) (engLab [] amp0) ∧
    Completes (.agate g (.imm 0) (.imm 1) 0 true) (engLab [] amp0 |>.modParty 0 fun p => { p with scratch := [] }) ∧
    Completes (.aswap g (.imm 0) (.imm 4) 0) (engLab [] amp0) ∧ Completes (.anorm g (.imm 0) (.imm 0)) (engLab [] amp0) ∧
    Completes (.tcopyx g (.imm 3) (.imm 0) (.imm 32) true) { engLab [] {} with comms := [(0, { comm0 with dead := [(0, 0)] })] } ∧
    Completes (.tcopyx gFalse (.imm 3) (.imm 0) (.imm 32) true) (engLab [] {}) ∧
    Completes (.cstart gFalse (.s 6) (.imm 16) (.imm 64)) (engLab [] {}) ∧ Completes (.anorm gFalse (.imm 0) (.imm 0)) (engLab [] amp0) := by
  obtain ⟨h1, h0, h2, h3, h4⟩ := H
  refine ⟨
    ran ((h1 _ _ _ _ _ _ 0 collShape comm0 ok ok ok ok ok ok ok ok ok ok ok ok).1 ok),
    ran ((h1 _ _ _ _ _ _ 0 collShape comm0 ok ok ok ok ok ok ok ok ok ok ok ok).1 ok),
    ran (h2 _ _ _ _ _ 0 ok ok ok ok ok ok).2.2,
    comp ((h3 _ _ _ _ 0 ok).2.2.1 (by intro k h e; cases e)),
    ((h3 g (.s 6) (.imm 1) (engLab [] {}) 0 ok).2.2.2 _ _ rfl ok ok).elim fun _ h => ran h.2.2.2.2,
    ran (h4 (.amap g (.imm 7) (.imm 64)) g (.imm 7) (engLab [] {}) 0 (.map _) ok ok
      ok ok (.inl ⟨_, _, rfl, rfl, rfl, by decide +kernel, by decide +kernel, by decide +kernel⟩)),
    ran (h4 (.amapRd g (.imm 0) (.imm 64)) g (.imm 0) (engLab [] amp0) 0 (.read _) ok ok
      ok ok (.inr (.inl ⟨_, rfl, rfl, by decide +kernel, by decide +kernel⟩))),
    ran (h4 (.agate g (.imm 0) (.imm 1) 0 true) g (.imm 0) _ 0 (.gate 1 true _ _) ok ok
      ok ok
      (.inr (.inr ⟨ok, .inl ⟨_, 0, _, _, rfl, rfl, ok, ok, rfl, ok⟩⟩))),
    ran (h4 (.aswap g (.imm 0) (.imm 4) 0) g (.imm 0) (engLab [] amp0) 0 (.swap _ _) ok ok
      ok ok (.inr (.inr ⟨ok, .inr (.inl ⟨_, 0, rfl, rfl, ok, ok⟩)⟩))),
    ran (h4 (.anorm g (.imm 0) (.imm 0)) g (.imm 0) (engLab [] amp0) 0 (.norm _ _) ok ok
      ok ok
      (.inr (.inr ⟨ok, .inr (.inr ⟨_, 0, rfl, rfl, ok, ok, ok, ok, ok, ok⟩)⟩))),
    ran ((h1 _ _ _ _ _ _ 0 collShape { comm0 with dead := [(0, 0)] } ok ok ok ok ok ok ok ok ok ok ok ok).2 ok ok),
    ran (h0 _ gFalse _ 0 (by simp) ok ok ok), ran (h0 _ gFalse _ 0 (by simp) ok ok ok), ran (h0 _ gFalse _ 0 (by simp) ok ok ok)⟩

theorem witness_Clocks (H : Obligations.Clocks) :
    Completes (.rdmer g (.s 6) true) (lab (crew0 .vec)) ∧ Completes (.rdclk g (.v 6) false) (lab (crew0 .vec)) ∧
    Completes (.clk2mer g (.v 6) (.imm 9)) (lab (crew0 .vec)) ∧ (lab (crew0 .vec)).clk 1 = 0 ∧ (lab (crew0 .vec)).clk 0 = 1800 ∧
    (lab (crew0 .vec)).clk 0 ≤ ({ lab (crew0 .vec) with meridian := (lab (crew0 .vec)).meridian + 1 }).clk 0 := by
  obtain ⟨⟨h1, h2, h3⟩, h4⟩ := H
  exact ⟨comp (h1 _ _ _ _ 0 ok ok), comp (h2 _ _ _ _ 0 ok ok),
    comp (h3 _ _ _ _ 0 ok), (h4 _ 1 ok).1 ok,
    ((h4 _ 0 ok).2.1 { mer := 0, clk := 0, freq := 18 } [] ok).trans rfl,
    (h4 _ 0 ok).2.2 { mer := 0, clk := 0, freq := 18 } [] 1 ok ok⟩

def collOp (x : BitVec 256) (applied : Bool) : CPend :=
  { id := 0, pc := 0x10000, kind := .coll 3 collShape 0 false x 0 0, applied := applied }
def ampOp (cmd : AmpCmd) (matched : Bool) (dies : List Nat) : CPend :=
  { id := 0, pc := 0x10000, kind := .amp 0 cmd 0 0 matched dies 0 }
def schedOp : CPend := { id := 0, pc := 0x10000, kind := .sched 7 }
/-- The engines' state after 2^33 ticks. -/
def lateLab (cops : List CPend) (amp : AmpSlot) : State := { engLab cops amp with meridian := 8589934592 }

/-- Two crews on dies 0 and 1 with one command each. -/
def twoDies (a b : CPend) : State :=
  { engLab [] amp0 with
    crews := [(0, { crew0 .copy with cops := [a] }), (2048, { crew0 .copy with party := 256, cops := [b] })]
    parties := [(0, { task := 0, crews := [0] }), (256, { task := 0, number := 1, crews := [2048] })]
    amps := [(0, amp0), (128, amp0)] }

def sigExt : BitVec 256 := addExt + BitVec.shiftLeft 0x10008 128
def copyRec : CPend := { id := 0, pc := 0x10000, kind := .copy 3 collShape 0 false none }
/-- A store and a load whose die or link is lost. -/
def lostLab (st : List MemPend) : State := lab { crew0 .vec with stores := st, loads := [{ id := 7, pc := 0 }] }

def ampTodo (e : Except (Nat × EngErr) (State × Option (List (List DWord)))) : State × List (List DWord) :=
  match e with | .ok (t, some l) => (t, l) | _ => (State.reset, [])
theorem of_ampTodo {e : Except (Nat × EngErr) (State × Option (List (List DWord)))}
    (h : (match e with | .ok (_, some _) => true | _ => false) = true) : e = .ok ((ampTodo e).1, some (ampTodo e).2) := by
  rcases e with _ | ⟨_, _ | _⟩ <;> simp_all [ampTodo]
def ampNone (e : Except (Nat × EngErr) (State × Option (List (List DWord)))) : State :=
  match e with | .ok (t, _) => t | _ => State.reset
theorem of_ampNone {e : Except (Nat × EngErr) (State × Option (List (List DWord)))}
    (h : (match e with | .ok (_, none) => true | _ => false) = true) : e = .ok (ampNone e, none) := by
  rcases e with _ | ⟨_, _ | _⟩ <;> simp_all [ampNone]
/-- An exchange of q0 with q1 on a slice of two amplitudes, at 0x10000, which has not begun, and which has one amplitude left. -/
def ampRec1 : BitVec 512 := BitVec.ofNat 512 (0x10000 + 1 * 2 ^ 64 + 1 * 2 ^ 72)
def ampBegun : State := engLab [ampOp (.swap 0 0) false [0]] { map := ampRec1, issueMap := ampRec1 }
/-- The same exchange on a slice whose page no entry maps. -/
def ampRecFar : BitVec 512 := BitVec.ofNat 512 (0x8000000000 + 1 * 2 ^ 64 + 1 * 2 ^ 72)
def ampFar : State := engLab [ampOp (.swap 0 0) false [0]] { map := ampRecFar, issueMap := ampRecFar }
def ampLeftOp : CPend := { ampOp (.swap 0 0) true [0] with todo := some [(1, 7)] }
def ampLeft : State := engLab [ampLeftOp] { map := ampRec1, issueMap := ampRec1 }
def ampPicked (s : State) (y : Nat × DWord) : State := { s with freeIx := s.freeIx + max 0 (y.1 + 1) }
/-- Of one amplitude an engine works off that one, whatever it picks. -/
theorem ampPick_one (s : State) (y : Nat × DWord) : ∃ go, s.ampPick [y] = (go, ampPicked s y) ∧ go y = true := by
  unfold State.ampPick
  cases e : (Config.freeBits (s.freeIx + y.1)).getLsbD 0
  · exact ⟨_, by simp only [List.any_cons, List.any_nil, e]; rfl, by show (!_) = true; rw [e]; rfl⟩
  · exact ⟨fun _ => true, by simp only [List.any_cons, List.any_nil, e]; rfl, rfl⟩
theorem ampWork_one {s : State} {ctx slot : Nat} {cmd : AmpCmd} {m : BitVec 512} {np v : Nat} {x : Nat × Nat × CPend} {y : Nat × DWord}
    {go : Nat × DWord → Bool} (h : go y = true) :
    s.ampWork ctx slot cmd m np v x go [y] [y] = s.ampWork ctx slot cmd m np v x (fun _ => true) [y] [y] := by
  unfold State.ampWork
  simp only [List.filter_cons, List.filter_nil, h]
theorem ampMove_one {s : State} {ctx slot : Nat} {cmd : AmpCmd} {m : BitVec 512} {np v room : Nat} {x : Nat × Nat × CPend} (y : Nat × DWord)
    (h : s.todoOf x.2.1 x.2.2.id = [y]) (r : room = 1)
    (w : ((ampPicked s y).ampWork ctx slot cmd m np v x (fun _ => true) [y] [y]).2.isNone = true) :
    s.ampMove ctx slot cmd m np v room x = (((ampPicked s y).ampWork ctx slot cmd m np v x (fun _ => true) [y] [y]).1, none) := by
  obtain ⟨go, hp, hg⟩ := ampPick_one s y
  unfold State.ampMove
  have e := Option.isNone_iff_eq_none.1 w
  simp only [h, hp, r, List.filter_cons, List.filter_nil, hg, if_true, List.take_succ_cons, List.take_zero, List.isEmpty_cons, Bool.false_eq_true,
    if_false, ampWork_one hg, e, Option.isSome_none, Bool.false_and]
  exact Prod.ext rfl e
/-- An exchange of q0 with q1, a die bit, between dies 0 and 1, matched, with one amplitude left at each; and while die 1 relocks. -/
def ampRec2 : BitVec 512 := BitVec.ofNat 512 (0x10000 + 2 * 2 ^ 64 + 2 ^ 72 + 2 ^ 80 + 2 ^ 136)
def pairOp : CPend := { ampOp (.swap 0 1) true [0, 1] with todo := some [(0, 7)] }
def pairLab : State := { twoDies pairOp pairOp with amps := [(0, { map := ampRec2 }), (128, { map := ampRec2 })] }
def pairHeld : State := pairLab.modDie 1 fun x => { x with relock := some (900, 8) }
/-- The same before it has begun, while die 1 relocks. -/
def pairStopped : State :=
  { twoDies { pairOp with todo := none } { pairOp with todo := none } with amps := [(0, { map := ampRec2 }), (128, { map := ampRec2 })] }.modDie 1
    fun x => { x with relock := some (900, 8) }
/-- A command that die 1 has not issued in time, and one that has been given up while its die relocked. -/
def oneIssued : State :=
  { twoDies (ampOp (.swap 0 1) false [0, 1]) (ampOp (.swap 0 1) false [0, 1]) with
    meridian := 8589934592, crews := [(0, { crew0 .copy with cops := [ampOp (.swap 0 1) false [0, 1]] })] }
def passedOver : State :=
  { twoDies (ampOp (.swap 0 1) false [0, 1]) (ampOp (.swap 0 1) false [0, 1]) with amps := [(0, { amp0 with dead := [0] }), (128, amp0)] }
/-- An exchange of q0 with q1, a package bit, when no port is up. -/
def ampRec3 : BitVec 512 := BitVec.ofNat 512 (0x10000 + 2 * 2 ^ 64 + 2 ^ 72 + 2 ^ 88 + 2 ^ 136)
def abroadOp : CPend := { id := 0, pc := 0x10000, kind := .amp 0 (.swap 0 1) 0 0 true [0] 1 }
def abroadLab : State := { engLab [abroadOp] { map := ampRec3 } with
  portsDown := BitVec.allOnes 16, comms := [(0, { comm0 with x := 2, ranks := [(0, 0), (1, 0)] })] }

def sameB (o o' : CPend) : Bool :=
  match o.kind, o'.kind with
  | .amp _ c _ _ _ d _, .amp _ c' _ _ _ d' _ => ampAgrees c c' && decide (d = d')
  | _, _ => false
theorem same_iff (o o' : CPend) : SameCommand o o' ↔ sameB o o' = true := by
  constructor
  · rintro ⟨sl, c, n, i, m, p, sl', c', n', i', m', p', d, h, h', e⟩
    simp [sameB, h, h', e]
  · intro h
    unfold sameB at h
    split at h
    · rename_i a c e i m d f a' c' e' i' m' d' f' k k'
      simp only [Bool.and_eq_true, decide_eq_true_eq] at h
      obtain ⟨h1, rfl⟩ := h
      exact ⟨_, _, _, _, _, _, _, _, _, _, _, _, _, k, k', h1⟩
    · cases h
theorem same_all {l : List (Nat × Nat × CPend)} (h : (l.all fun x => l.all fun y => sameB x.2.2 y.2.2) = true) :
    ∀ x ∈ l, ∀ y ∈ l, SameCommand x.2.2 y.2.2 :=
  fun x hx y hy => (same_iff _ _).2 (List.all_eq_true.1 (List.all_eq_true.1 h x hx) y hy)
theorem differ {l : List (Nat × Nat × CPend)} (h : (l.all fun x => l.all fun y => sameB x.2.2 y.2.2) = false) :
    ¬∀ x ∈ l, ∀ y ∈ l, SameCommand x.2.2 y.2.2 := fun k => by
  rw [List.all_eq_true.2 fun x hx => List.all_eq_true.2 fun y hy => (same_iff _ _).1 (k x hx y hy)] at h
  cases h
theorem moved_all {l : List (Nat × Nat × CPend)} {c : Nat × Nat × CPend → Prop} {w now : Nat}
    (h : (l.all fun y => match y.2.2.kind with | .amp _ _ _ t _ _ _ => decide (t + w < now) | _ => true) = true) :
    ∀ y ∈ l, c y → ∀ a e n t b ds p, y.2.2.kind = .amp a e n t b ds p → t + w < now := by
  intro y hy _ a e n t b ds p k
  have := List.all_eq_true.1 h y hy
  rw [k] at this
  simpa using this

/-- A running schedule with the CSTART that waits for it. -/
def schedRun : Handle := { task := 0, ctx := 0, sched := 16, state := 2 }
def schedLab : State := { engLab [schedOp] {} with handles := [(7, schedRun)] }
def runOf : SchedRun → State
  | .made s _ => s
  | .waits s .. => s
  | .ends s _ => s
def madeFar : SchedRun → Option Bool
  | .made _ b => some b
  | _ => none
theorem of_made {r : SchedRun} {b : Bool} (h : madeFar r = some b) : r = .made (runOf r) b := by cases r <;> simp_all [madeFar, runOf]
def endCause : SchedRun → Option (BitVec 8)
  | .ends _ c => some c
  | _ => none
theorem of_ends {r : SchedRun} {c : BitVec 8} (h : endCause r = some c) : r = .ends (runOf r) c := by
  cases r <;> simp_all [endCause, runOf]
def waitsFor : SchedRun → Option (DWord × EngErr)
  | .waits _ va e => some (va, e)
  | _ => none
theorem of_waits {r : SchedRun} {va : DWord} {e : EngErr} (h : waitsFor r = some (va, e)) : r = .waits (runOf r) va e := by
  cases r <;> simp_all [waitsFor, runOf]
/-- Its crew stands on die 1, while die 0 relocks. -/
def schedFar : Handle := { schedRun with key := 2048 }
def schedHeld : State := { schedLab with
  handles := [(7, schedFar)]
  dies := [(0, { relock := some (900, 8) })]
  crews := [(2048, { crew0 .copy with party := 256, cops := [schedOp] })]
  parties := [(256, { task := 0, number := 1, crews := [2048] })] }
/-- A crew whose oldest operation is a TLOAD of its array. -/
def lostTile : State := lab { crew0 .tile with tops := [tileOp (.load 3 memShape 0 1) false] }

/-- A communicator of two dies of this package, of which one has issued an add over both; and one whose second rank is another package's. -/
def comm2 : Comm := { comm0 with x := 2, ranks := [(0, 0), (0, 1)] }
def addAll : BitVec 256 := addExt + BitVec.shiftLeft 1 48
def halfLab : State := { lateLab [collOp addAll false] {} with comms := [(0, comm2)] }
def commFar : Comm := { comm0 with x := 2, ranks := [(0, 0), (1, 1)] }
def farLab : State := { engLab [collOp addAll true] {} with comms := [(0, commFar)], domain := [0, 1] }

theorem witness_EngineEvents (H : Obligations.EngineEvents) :
    (Completes (.collectiveComplete 0) (engLab [collOp putExt false] {}) ∧
      Completes (.collectiveComplete 0) (engLab [collOp addExt false] {}) ∧
      Completes (.collectiveComplete 0) (engLab [collOp addExt true] {}) ∧
      Completes (.collectiveComplete 0) (engLab [collOp sigExt true] {}) ∧
      Completes (.collectiveComplete 0) { engLab [collOp addExt false] {} with comms := [] }) ∧
    (Completes (.collectiveTimeout 0) halfLab ∧ Completes (.collectiveTimeout 0) (lateLab [collOp putExt false] {}) ∧
      Completes (.collectiveComplete 0) farLab) ∧
    (Completes (.scheduleEnd 1 0 5 []) (engLab [schedOp] {}) ∧ Completes (.scheduleEnd 7 0 5 [(0x20000, some 1)]) schedLab ∧
      Completes (.scheduleEnd 7 0 5 [(0x40000000, none)]) schedLab ∧ Completes (.scheduleEnd 7 0 5 [(0x20000, some 1)]) schedHeld ∧
      ∃ t, schedLab.schedActs 7 schedRun false [(0x20000, some 1)] = .made t (schedLab.foreign 0x20000) ∧ t.mem.read 0x20000 = 1) ∧
    (Completes (.linkLost 0) (engLab [schedOp] {}) ∧ Completes (.linkLost 0) (engLab [copyRec] {}) ∧
      Completes (.linkLost 0) (engLab [collOp addExt false] {}) ∧
      Completes (.linkLost 0) (engLab [ampOp (.map ampRec) false [0]] amp0)) ∧
    (Completes (.linkLost 0) (lostLab [{ id := 6, pc := 0 }]) ∧ Completes (.linkLost 0) (lostLab []) ∧ Completes (.linkLost 0) lostTile) := by
  obtain ⟨h1, h2, h3, h3b, h4, h5, -⟩ := H
  obtain ⟨⟨t, w⟩, e⟩ := of_okEx (e := (engLab [collOp sigExt true] {}).collSignal 0 (scopeOf (shapeSc collShape)) (extSig sigExt) 1) ok
  exact ⟨
    ⟨ran ((h1 _ 0 (collOp putExt false) _ _ _ _ _ _ _ ok ok ok rfl ok ok).1 comm0 rfl ok ok),
      ran ((h1 _ 0 (collOp addExt false) _ _ _ _ _ _ _ ok ok ok rfl ok ok).2.1 comm0 rfl ok ok),
      ran (((h1 _ 0 (collOp addExt true) _ _ _ _ _ _ _ ok ok ok rfl ok ok).2.2.2.1 comm0 rfl ok ok ok).2.1 ok ok),
      ran (((h1 _ 0 (collOp sigExt true) _ _ _ _ _ _ _ ok ok ok rfl ok ok).2.2.2.1 comm0 rfl ok ok ok).2.2 t w ok ok e),
      ran ((h1 _ 0 (collOp addExt false) _ _ _ _ _ _ _ ok ok ok rfl ok ok).2.2.2.2 rfl ok)⟩,
    ⟨ran (((h2 halfLab 0 (collOp addAll false) _ _ _ _ _ _ _ comm2 ok rfl ok).2.2 ok).2 ok),
      ran (((h2 (lateLab [collOp putExt false] {}) 0 (collOp putExt false) _ _ _ _ _ _ _ comm0 ok rfl ok).2.2 ok).1 ok), by
      have f := (h1 farLab 0 (collOp addAll true) _ _ _ _ _ _ _ ok ok ok rfl ok ok).2.2.2.1 commFar rfl ok ok ok
      exact (Classical.em _).elim (fun c => ran (f.1 c)) fun c => ran (f.2.1 c ok)⟩,
    ⟨ran ((h3 _ 1 0 5 _ schedRun ok ok ok ok ok ok).1 _ (of_made ok)),
      ran ((h3 _ 7 0 5 _ schedRun ok ok ok ok ok ok).1 _ (of_made ok)),
      ran ((h3 _ 7 0 5 _ schedRun ok ok ok ok ok ok).2.2.1 _ 3 (of_ends ok)),
      ran ((h3 _ 7 0 5 _ schedFar ok ok ok ok ok ok).2.2.2 _ 0x20000 (.held 0) (of_waits ok)),
      (h3b schedLab 7 schedRun 0x20000 1 0x20000 { home := 0, lc := 0, rep := false } ok (of_okIs ok) ok (of_okIs ok)).elim
        fun t h => ⟨t, h⟩⟩,
    ⟨ran (h4 _ 0 schedOp ok ok), ran (h4 _ 0 copyRec ok ok), ran (h4 _ 0 (collOp addExt false) ok ok),
      ran (h4 _ 0 (ampOp (.map ampRec) false [0]) ok ok)⟩,
    ⟨ran ((h5 (lostLab [{ id := 6, pc := 0 }]) 0 ok ok).1 _ rfl), ran ((h5 (lostLab []) 0 ok ok).2.1 _ ok rfl),
      ran ((h5 lostTile 0 ok ok).2.2 _ ok ok rfl ok)⟩⟩

theorem witness_EngineEvents_amplitudes (H : Obligations.EngineEvents) :
    (Completes (.ampMatch 0 0 0) (twoDies (ampOp (.swap 0 1) false [0, 1]) (ampOp (.swap 0 2) false [0, 1])) ∧
      Completes (.ampMatch 0 0 0) (twoDies (ampOp (.swap 0 1) false [0, 1]) (ampOp (.swap 0 1) false [0, 1]))) ∧
    (Completes (.ampCommandComplete 0 0 0) abroadLab ∧ Completes (.ampCommandComplete 0 0 0) pairHeld ∧
      Completes (.ampCommandComplete 0 0 0) ampLeft ∧ Completes (.ampCommandComplete 0 0 0) (engLab [ampOp (.map ampRec) false [0]] amp0) ∧
      Completes (.ampCommandComplete 0 0 0) ampFar ∧ Completes (.ampCommandComplete 0 0 0) ampBegun ∧ Completes (.ampCommandComplete 0 0 0) (engLab [ampOp (.norm 0 0) false [0]] amp0)) ∧
    (ampPast oneIssued 0 0 0 (ampOp (.swap 0 1) false [0, 1]) = true ∧ Completes (.ampMatchTimeout 0 0 0) oneIssued ∧
      Completes (.ampMatchTimeout 0 0 0) passedOver ∧ Completes (.ampCommandComplete 0 0 0) pairStopped) ∧
    Completes (.ampExchangeTimeout 0 0 0 false) { pairLab with meridian := 8589934592 } := by
  obtain ⟨-, -, -, -, -, -, h⟩ := H
  exact ⟨
    ⟨ran (((h _ 0 0 0 0 (ampOp (.swap 0 1) false [0, 1]) _ _ _ _ _ _ _ ok rfl).1
        [(0, 0, ampOp (.swap 0 1) false [0, 1]), (1, 2048, ampOp (.swap 0 2) false [0, 1])] ok rfl ok ok).1 (differ ok)),
      ran (((h _ 0 0 0 0 (ampOp (.swap 0 1) false [0, 1]) _ _ _ _ _ _ _ ok rfl).1
        [(0, 0, ampOp (.swap 0 1) false [0, 1]), (1, 2048, ampOp (.swap 0 1) false [0, 1])] ok rfl ok ok).2 (same_all ok))⟩,
    ⟨ran (((h abroadLab 0 0 0 0 abroadOp _ _ _ _ _ _ _ ok rfl).2.1 _ _ _ ok ok rfl rfl rfl ok ok ok).1 ok ok),
      ran ((((h pairHeld 0 0 0 0 pairOp _ _ _ _ _ _ _ ok rfl).2.1 _ _ _ ok ok rfl rfl rfl ok ok ok).2 ok).1 ok ok),
      ran (((((h ampLeft 0 0 0 0 ampLeftOp _ _ _ _ _ _ _ ok rfl).2.1 _ _ _ ok ok rfl rfl rfl ok ok ok).2 ok).2.1 ok ok).2
        (congrArg Prod.snd (ampMove_one (1, 7) ok ok ok))),
      ran (((((h _ 0 0 0 0 (ampOp (.map ampRec) false [0]) _ _ _ _ _ _ _ ok rfl).2.1 _ _ _ ok ok rfl rfl rfl ok ok ok).2 ok).2.2.2.2
        rfl ok ok ok ok ok).1 _ (fun _ _ e => by cases e) (of_ampNone ok)),
      ran ((((h ampFar 0 0 0 0 (ampOp (.swap 0 0) false [0]) _ _ _ _ _ _ _ ok rfl).2.1 _ _ _ ok ok rfl rfl rfl ok ok ok).2 ok).2.2.1
        _ rfl (of_some ok)),
      ran (((((h ampBegun 0 0 0 0 (ampOp (.swap 0 0) false [0]) _ _ _ _ _ _ _ ok rfl).2.1 _ _ _ ok ok rfl rfl rfl ok ok ok).2 ok).2.2.2.2
        rfl ok ok ok ok ok).2.1 _ _ (fun _ _ e => by cases e) (of_ampTodo ok)),
      ran (((((h _ 0 0 0 0 (ampOp (.norm 0 0) false [0]) _ _ _ _ _ _ _ ok rfl).2.1 _ _ _ ok ok rfl rfl rfl ok ok ok).2 ok).2.2.2.2
        rfl ok ok ok ok ok).2.2 0 0 rfl)⟩,
    ⟨(h oneIssued 0 0 0 0 (ampOp (.swap 0 1) false [0, 1]) _ _ _ _ _ _ _ ok rfl).2.2.1 rfl ok rfl ok ok,
      ran (((h oneIssued 0 0 0 0 (ampOp (.swap 0 1) false [0, 1]) _ _ _ _ _ _ _ ok rfl).2.2.2.1 0 (ampOp (.swap 0 1) false [0, 1]) _ _ _ _ _ _
        ok ok rfl).2 ok ok),
      ran (((h passedOver 0 0 0 0 (ampOp (.swap 0 1) false [0, 1]) _ _ _ _ _ _ _ ok rfl).2.2.2.1 0 (ampOp (.swap 0 1) false [0, 1]) _ _ _ _ _ _
        ok ok rfl).1 ok),
      ran ((((h pairStopped 0 0 0 0 { pairOp with todo := none } _ _ _ _ _ _ _ ok rfl).2.1 _ _ _ ok ok rfl rfl rfl ok ok ok).2 ok).2.2.2.1
        rfl ok ok ok ok)⟩,
    ran ((h { pairLab with meridian := 8589934592 } 0 0 0 0 pairOp _ _ _ _ _ _ _ ok rfl).2.2.2.2 rfl ok ok ok (moved_all ok))⟩

def gigPage : TlbEntry :=
  { ctx := 0, vbase := 0, size := 0x40000000, r := true, w := true, x := true, home := 0, lc := 0, rep := false, pa := 0 }
/-- A load that is answered, a store that waits for tick 999, and a rejected crew. -/
def memLab : State :=
  let s := lab { crew0 .vec with
    loads := [{ id := 1, pc := 0, dsts := [.v 4], writes := [⟨true, 4, 31, 9⟩] }], stores := [{ id := 2, pc := 0, ct := some 999 }] }
  let s := s.modCore 0 fun x => { x with rejected := [0] }
  let s := s.modDie 0 fun x => { x with l2 := [(9, { dirtyMask := 1, dirty := 5, writers := 3 }), (8, { clean := some (1002, 7) })] }
  { s with svcs := [(3, { waiters := [{ crew := 0, pa := 64, va := 64, cc := .ge, val := 0 }] })] }

/-- A store to a package that no port reaches any more. -/
def cutLab : State :=
  { lab { crew0 .vec with stores := [{ id := 2, pc := 0, ct := some 999, ack := true }] } with portsDown := BitVec.allOnes 16 }
def walk0 : Walk := { ctx := 0, va := 0x20000, crew := 0, core := 0, cores := [0] }
def walkLab : State := (mapLab (crew0 .vec)).modDie 0 fun x => { x with walks := [walk0] }

/-- A walk for a store to a page that may not be written. -/
def denyLab : State :=
  { mapLab (crew0 .vec) with mem := table0.write 0x3000 0x17 }.modDie 0 fun x => { x with walks := [{ walk0 with need := .write }] }

theorem witness_MemoryEvents (H : Obligations.MemoryEvents) :
    Completes (.loadBind 0 0) memLab ∧ Completes (.storeComplete 0 0) memLab ∧ Completes (.storeComplete 0 0) cutLab ∧
    Completes (.waitAtHomeSatisfied 3 0) memLab ∧ Completes (.accessRetry 0) memLab ∧ Completes (.pageWalkDone 0 0) walkLab ∧
    Completes (.replacementWriteback 0 9) memLab ∧ Completes (.replacementWriteback 0 8) memLab ∧
    Completes (.leaseExpiry 0 8) memLab ∧ Completes (.pageWalkDone 0 0) denyLab := by
  obtain ⟨h1, h2, h3, h4, h5, h6, h7⟩ := H
  exact ⟨ran (h1 _ 0 0 { id := 1, pc := 0, dsts := [.v 4], writes := [⟨true, 4, 31, 9⟩] } ok ok rfl rfl rfl ok),
    ran ((h2 _ 0 0 { id := 2, pc := 0, ct := some 999 } ok ok rfl rfl rfl (by intro t h; cases h; decide +kernel)).1 ok),
    ran ((h2 _ 0 0 { id := 2, pc := 0, ct := some 999, ack := true } ok ok rfl rfl rfl
      (by intro t h; cases h; decide +kernel)).2 ok ok),
    ran (h3 _ 3 0 ok ok), ran (h4 _ 0 0 [] ok ok ok),
    ran ((h5 walkLab 0 0 walk0 gigPage ok ok rfl (of_okIs ok) ok).1 ok),
    ran ((h6 _ 0 9 ok).2 ok ok), ran ((h6 _ 0 8 ok).1 ok), ran (h7 _ 0 8 1002 7 ok ok),
    ran ((h5 denyLab 0 0 { walk0 with need := .write } { gigPage with w := false } ok ok rfl (of_okIs ok) ok).2 2 ok ok)⟩

def oneOp : LaneOp := { pa := 64, va := 64, bytes := 4, op := .add, b := 1, e := 0, lane := 0 }
def onePacket : Packet := { crew := 0, opId := 0, store := true, wide := false, ctx := 0, signal := false, dst := none, ops := [oneOp] }

theorem witness_ServiceCrewApplies (H : Obligations.ServiceCrewApplies) :
    Completes (.serviceCrewApply 3) { lab (crew0 .vec) with mem := [(64, 0xFF), (68, 7)], svcs := [(3, { queue := [onePacket] })] } :=
  comp (H _ 3 onePacket oneOp ok ok ok rfl ok ok)

/-- The agent with a party that has stopped, and with a saved party whose area stands at 0x80000. -/
def stoppedLab : State := (mapAgent { Crew.agent with sregs := [(2, 0x80000)] }).modParty 0 fun p => { p with stopped := true }
def savedParty : Party := { task := 0, crews := [0] }
def savedLab : State :=
  let s := mapAgent { Crew.agent with sregs := [(2, 0x80000)] }
  ({ s with parties := [], crews := Tbl.del s.crews 0, mem := (s.mem.writeBytes 0x80000 [1]).writeBytes 0x80040 [2, 0, 0, 0, 32, 0, 0, 0, 16] }).modTask 0 fun t =>
    { t with parties := [], away := [(0, (savedParty, [crew0 .vec]))] }
/-- The agent of a core whose crew 0 holds a report, in a region. -/
def reportedLab : State :=
  (mapAgent Crew.agent).modCrew 0 fun c => { c with report := some { cause := 0x11, rg := true }, halted := true, inRegion := true }

/-- The same when the crew's task is to end. -/
def doomedLab : State := reportedLab.modTask 0 fun t => { t with faulted := some { cause := 0x11 } }
/-- An agent with the address of a page that lies in a package which no port reaches. -/
def farAgent : State := { mapAgent { Crew.agent with sregs := [(2, 0x3FFFFFF8)] } with mem := table0.write 0x3006 0x10 }

theorem witness_Privileged (H : Obligations.Privileged) :
    Completes (.ctxsave g (.s 6) (.imm 0) (.s 2)) (mapAgent { Crew.agent with sregs := [(2, 0x80000)] }) ∧
    Completes (.ctxsave g (.s 6) (.imm 0) (.s 2)) stoppedLab ∧ Completes (.ctxload g (.s 6) (.imm 15) (.s 2)) savedLab ∧
    Completes (.tlbinv g (.s 6) (.imm 15) (.imm 0) .pkg .page) (mapAgent Crew.agent) ∧
    Completes (.tlbinv g (.s 6) (.imm 16) (.imm 0) .core .all) (mapAgent Crew.agent) ∧
    Completes (.fret g (.s 6) (.imm 0) (.imm 4) .pc) reportedLab ∧ Completes (.fret g (.s 6) (.imm 0) (.imm 0) .region) reportedLab ∧
    Completes (.fret g (.s 6) (.imm 0) (.imm 0) .endTask) reportedLab ∧
    Completes (.fret g (.s 6) (.imm 0) (.imm 0) .region) doomedLab ∧
    Completes (.sigraise g (.s 6) (.s 2) (.imm 5) (.imm 0) .sys) (mapAgent { Crew.agent with sregs := [(2, 0x3FFFFFF8)] }) ∧
    Completes (.sigraise g (.s 6) (.s 2) (.imm 5) (.imm 0) .sys) farAgent ∧
    Completes (.budset g (.s 6) (.imm 15) (.imm 0) .hbm) (mapAgent Crew.agent) ∧
    Completes (.wakeset g (.s 6) (.s 2) (.imm 9)) (mapAgent { Crew.agent with sregs := [(2, 511)] }) ∧
    Completes (.sleep g (.s 6)) ((mapAgent Crew.agent).modCore 0 fun x => { x with fw := { pending := 0x1FF, armed := 0x100, fired := 950 } }) ∧
    Completes (.fwcall g 0xFFFFFFFF) (mapAgent Crew.agent) := by
  obtain ⟨h1, h2, h3, h4, h5, h6, h7, h8, h9⟩ := H
  exact ⟨
    ran ((h1 _ _ _ _ _ 64 _ ok ok ok ok ok ok
      (of_some ok)).1 ok),
    ran ((h1 _ _ _ _ _ 64 _ ok ok ok ok ok ok
      (of_some ok)).2 ok ok ok ok ok),
    ran (h2 _ _ _ _ _ 64 _ ok ok ok ok ok ok ok ok ok ok ok ok ok ok ok (of_some ok)),
    (h3 _ _ _ _ _ _ _ 64 ok ok ok ok ok ok ok).elim fun _ h => ran h.1,
    (h3 _ _ _ _ _ _ _ 64 ok ok ok ok ok ok ok).elim fun _ h => ran h.1,
    ran ((h4 _ _ _ _ _ _ 64 ok ok ok ok ok
      ok ok).1 ok ok),
    ran ((h4 _ _ _ _ _ _ 64 ok ok ok ok ok
      ok ok).1 ok ok),
    ran ((h4 _ _ _ _ _ _ 64 ok ok ok ok ok
      ok ok).2.2 { cause := 0x11, rg := true } rfl ok),
    ran ((h4 _ _ _ _ _ _ 64 ok ok ok ok ok
      ok ok).2.1 ok ok),
    ran ((h5 _ _ _ _ _ _ _ 64 (0x3FFFFFF8, { home := 0, lc := 0, rep := false }) ok
      ok ok ok (of_okIs ok)).2 _ 0x3FFFFFF8 { home := 0, lc := 0, rep := false } ok (of_pass ok) (of_okIs ok) ok),
    ran ((h5 _ _ _ _ _ _ _ 64 (0x1000003FFFFFF8, { home := 0, lc := 0, rep := false }) ok
      ok ok ok (of_okIs ok)).1 ok ok),
    ran (h6 _ _ _ _ _ _ 64 ok ok ok),
    ran (h7 _ _ _ _ _ 64 ok ok ok),
    ran (h8 _ _ _ 64 8 ok ok ok ok ok
      (all8 ok)),
    ran (h9 _ _ _ 64 ok ok)⟩

theorem witness_FaultReturn (H : Obligations.FaultReturn) :
    ((reportedLab.resumeCrew 0 .retry 0).crew 0).ignoreTraps = true ∧ ((reportedLab.resumeCrew 0 .pc 4).crew 0).pc = 4 ∧
    ((reportedLab.resumeCrew 0 .region 0).crew 0).inRegion = true :=
  ⟨((H _ 0 .retry 0 ok ok ok ok).2.2.2.2.2.2.2.2.2.2.2.1 rfl).2.1, ((H _ 0 .pc 4 ok ok ok ok).2.2.2.2.2.2.2.2.2.2.1 rfl).1,
    ((H _ 0 .region 0 ok ok ok ok).2.2.2.2.2.2.2.2.2.2.2.2 rfl).2.2⟩

/-- The agent with its operands in s0 to s5. -/
def argAgent (a0 a1 a2 a4 : Word) : State := mapAgent { Crew.agent with sregs := Sparse.set (Sparse.set (Sparse.set (Sparse.set [] 0 a0) 1 a1) 2 a2) 4 a4 }
/-- A communicator record of one rank, and a schedule image of one byte. -/
def commBytes (ctx : Nat) : List Byte := toBytesLE 8 (ctx * 2 ^ 8 + 2 ^ 16 + 2 ^ 32 + 2 ^ 48) ++ toBytesLE 8 10000
def schedBytes : List Byte := toBytesLE 4 1 ++ toBytesLE 4 1
def img0 : Image := { seq := 1, hash := 0, signed := true, whole := true }

theorem witness_Services (H : Obligations.Services) (signed : ∀ r h bs, Config.scheduleSigned r h bs = true) :
    (let s := argAgent 15 0 0x80000 0
     Completes (.commset g) { s with mem := s.mem.writeBytes 0x80000 (commBytes 15) }) ∧
    Completes (.commclr g) { argAgent 15 63 0 0 with comms := [(1023, comm0)] } ∧
    (let s := { argAgent 0 0 0 0 with comms := [(0, comm0)] }; Completes (.commclr g) (s.modCrew 0 fun c => { c with cops := [collOp addExt false] })) ∧
    (let s := argAgent 15 255 0x80000 0; Completes (.schedset g) { s with mem := s.mem.writeBytes 0x80000 schedBytes }) ∧
    Completes (.schedclr g) { argAgent 15 16 0 0 with scheds := [(15 * 256 + 16, { entry := 0, code := [0] })] } ∧ Completes (.telrd g) (argAgent 0 3 0 0) ∧ Completes (.telrd g) (argAgent 0 2047 0 0) ∧
    Completes (.fstep g) (argAgent 0 3 18 0) ∧ Completes (.repinv g) (argAgent 0 0 0x20000 0) ∧
    Completes (.attest g) { argAgent 0 15 0x80000 0x81000 with firmware := { running := some img0 } } := by
  obtain ⟨h1, h2, h3, h4, h5, h6, h7, h8⟩ := H
  exact ⟨
    ran (h1 _ _ 64 ok ok ok ok ok
      ok ok ok ok),
    ran ((h2 _ _ 64 comm0 ok ok ok ok ok).1
      ok),
    ran ((h2 _ _ 64 comm0 ok ok ok ok ok).2
      ok),
    ran (h3 _ _ 64 ok ok ok ok ok
      ok ok ok ok ok ok ok
      (signed _ _ _)),
    ran (h4 _ _ 64 ok ok ok ok ok
      ok ok),
    ran (h5 g (argAgent 0 3 0 0) 64 0 ((argAgent 0 3 0 0).entered 64 g) ok ok ok).2,
    ran (h5 g (argAgent 0 2047 0 0) 64 _ ((argAgent 0 2047 0 0).entered 64 g).corrected ok ok rfl).2,
    ran (h6 _ _ 64 ok ok ok ok ok),
    ran (h7 _ _ 64 0 0x40000000 ok ok ok ok ok ok),
    ran (h8 _ _ 64 img0 ok ok ok ok ok
      ok ok ok)⟩

/-- Core 0 with a report of crew 0 in its agent's queue. -/
def faulted (r : Report) (packet : BitVec 4096) : State :=
  let s := { mapLab { crew0 .vec with report := some r, halted := true } with launches := [(0, { launch0 with packet := packet })] }
  s.modCore 0 fun x => { x with reports := [(0, r)] }
/-- The same launch with a handler. -/
def packetH : BitVec 4096 := packet0 ||| BitVec.shiftLeft 1 37
def transFault (va : DWord) : Report := { cause := 0x05, sub := 1, addr := va }
def trapReport : Report := { cause := 0x11 }
/-- A handler task of crew 0's report, whose verdict stands at 0x60038. -/
def handled (status : TaskStatus) (verdict : Byte) : State :=
  let s := faulted trapReport packetH
  let s := { s with mem := s.mem.write 0x60038 verdict, meridian := 1000000000
                    tasks := Tbl.set s.tasks 1 { launch := 0, status := status, args := [0x60000, 0], handlerOf := some (0, trapReport) } }
  s.modCore 0 fun x => { x with reports := [], handlers := [1] }
def wrote : RingPut → Bool
  | .wrote .. => true
  | _ => false
theorem of_wrote {e : RingPut} (h : wrote e = true) : ∃ u va, e = .wrote u va := by cases e <;> simp_all [wrote]
theorem witness_FaultEvents (H : Obligations.FaultEvents) :
    Completes (.faultService 0) (faulted (transFault 0x20000) packet0) ∧
    (let s := faulted (transFault 0x40000000) packet0; Completes (.faultService 0) { s with mem := s.mem.write 0x3008 0x20 }) ∧
    Completes (.handlerTaskStart 0) (faulted trapReport packetH) ∧
    Completes (.handlerPlaceTimeout 0) { faulted trapReport packetH with meridian := 1000000000 } ∧
    Completes (.taskFaultEnd 0) (faulted trapReport packet0) ∧
    Completes (.hostPageReply 0 false) ((faulted (transFault 0x20000) packet0).modCore 0 fun x => { x with hostAsk := some (0, false) }) ∧
    Completes (.hostPageReply 0 true) ((faulted (transFault 0x20000) packet0).modCore 0 fun x => { x with hostAsk := some (0, false) }) ∧
    Completes (.handlerPlaceTimeout 0) (handled .queued 0) ∧ Completes (.handlerVerdict 1) (handled .complete 0) ∧
    Completes (.handlerVerdict 1) (handled .complete 1) ∧ Completes (.handlerVerdict 1) (handled .complete 2) ∧
    Completes (.handlerVerdict 1) (handled .complete 3) ∧ Completes (.preemptRequest 0) (lab (crew0 .vec)) ∧
    Completes (.coreFailure 0) (lab (crew0 .vec)) ∧
    Completes (.coreFailure 0) ((lab (crew0 .vec)).modDie 0 fun x => { x with spareUsed := true }) := by
  obtain ⟨⟨h1, h2, h3, h4, h5⟩, h6⟩ := H
  obtain ⟨u, va, hp⟩ : ∃ u va, (faulted trapReport packetH).ringPut ((faulted trapReport packetH).ctxOf 0) trapReport = .wrote u va := of_wrote ok
  have v (n : Byte) := h4 (handled .complete n) 1 0 trapReport 0x60038 { home := 0, lc := 0, rep := false }
  have agents (s : State) (hs : ∀ x ∈ s.crews, x.2.report = none) (k : Nat) (hk : isAgentKey k = true) : (s.crew k).report = none := by
    unfold State.crew Tbl.get?
    cases h : s.crews.lookup k with
    | none => simp [hk, Crew.agent]
    | some c => simpa using hs (k, c) (by
        clear hs
        generalize s.crews = l at h ⊢
        induction l with
        | nil => cases h
        | cons y l ih =>
          obtain ⟨a, b⟩ := y
          rw [List.lookup_cons] at h
          by_cases e : k == a
          · simp_all
          · simp_all)
  exact ⟨
    ran ((h1 _ 0 0 (transFault 0x20000) ok ok).1 ok),
    ran ((h1 _ 0 0 (transFault 0x40000000) ok ok).2.1 ok ok ok ok),
    ran ((h1 _ 0 0 trapReport ok ok).2.2.1 u va ok ok hp),
    ran ((h1 _ 0 0 trapReport ok ok).2.2.2.1 ok ok ok
      ok),
    ran ((h1 _ 0 0 trapReport ok ok).2.2.2.2 ok ok),
    ran ((h2 _ 0 _ 0 ok ok ok).1 rfl),
    ran ((h2 _ 0 _ 0 ok ok ok).2 (transFault 0x20000) rfl ok ok),
    ran (h3 _ 0 1 [] 0 trapReport ok ok ok ok),
    ran ((v 0 ok ok ok ok ok (of_okIs ok) ok ok ok).1 ok), ran ((v 1 ok ok ok ok ok (of_okIs ok) ok ok ok).2.1 ok), ran ((v 2 ok ok ok ok ok (of_okIs ok) ok ok ok).2.2.1 ok),
    ran ((v 3 ok ok ok ok ok (of_okIs ok) ok ok ok).2.2.2 ok),
    ran (h5 _ 0 _ ok (of_some ok)),
    ran ((h6 _ 0 fun k _ hk => agents _ ok k hk).1 ok),
    ran ((h6 _ 0 fun k _ hk => agents _ ok k hk).2 ok)⟩

/-- A task whose crews have all ended. -/
def endedLab (relCt : Option Nat) : State :=
  (mapLab { crew0 .vec with live := 0, ended := true }).modTask 0 fun t => { t with relCt := relCt }
/-- Task 0 waits in JOIN for task 1 and is stopped. -/
def joiningLab : State :=
  let s := { lab (crew0 .vec) with meridian := 10000, tasks := [(0, { launch := 0, status := .resident, parties := [0], children := [1], joinFrom := some 13903 }),
      (1, { launch := 0, parent := some 0 })] }
  s.modParty 0 fun p => { p with stopped := true }
/-- Task 0 has left its core. -/
def suspendedLab : State :=
  { mapLab (crew0 .vec) with cur := none, crews := [], parties := [],
                             tasks := [(0, { launch := 0, status := .suspended, saved := [(savedParty, [crew0 .vec])] })] }
/-- The launch with every root over, with the packet's other bits. -/
def overLab (bits : BitVec 4096) (l : Launch) : State :=
  { mapLab (crew0 .vec) with tasks := [], launches := [(0, { l with packet := packet0 ||| bits })] }
def trigBit : BitVec 4096 := BitVec.shiftLeft 1 21
def depBits : BitVec 4096 := BitVec.shiftLeft 0x10000 320
/-- No task is resident; one is queued on core 0. -/
def idleLab (waiting : Option Nat) (deque : List Nat) (roots : List (Nat × Nat)) : State :=
  let s := { mapLab (crew0 .vec) with cur := none, crews := [], parties := [], tasks := [(0, { launch := 0 })] }
  (s.modDie 0 fun x => { x with waiting := waiting, roots := roots }).modCore 0 fun x => { x with deque := deque, pipes := [] }

theorem witness_SchedulerEvents (H : Obligations.SchedulerEvents) :
    Completes (.taskComplete 0) (endedLab (some 999)) ∧ Completes (.taskComplete 0) (endedLab none) ∧
    Completes (.joinSuspend 0) joiningLab ∧ Completes (.joinSuspend 0) (joiningLab.modTask 0 fun t => { t with children := [] }) ∧
    Completes (.taskResume 0) suspendedLab ∧
    Completes (.launchComplete 0) (overLab 0 { launch0 with finished := 1 }) ∧
    Completes (.launchComplete 0) (overLab (BitVec.shiftLeft 4 27) { launch0 with finished := 1, relCt := some 997 }) ∧
    Completes (.triggerPoint 0) (overLab trigBit { launch0 with triggered := 1 }) ∧
    Completes (.dependenceRelease 0) (overLab depBits { launch0 with released := false }) ∧
    Completes (.dependenceRelease 0) (overLab depBits { launch0 with released := false, dep := some 1 }) ∧
    Completes (.dependenceRelease 0) (overLab depBits { launch0 with released := false, dep := some (BitVec.allOnes 64) }) ∧
    Completes .batchDeal (overLab 0 launch0) ∧ Completes (.coreTakeWork 0) (idleLab (some 0) [] []) ∧
    Completes (.coreTakeWork 0) (idleLab none [0] []) ∧ Completes (.coreTakeWork 0) (idleLab none [] [(0, 0)]) ∧
    Completes (.runArbitration 0 7) (lab { crew0 .vec with pipe := 7 }) := by
  obtain ⟨h1, h2, h2b, h3, h4, h5, h6, h7, h7b, h8, h9, h10⟩ := H
  exact ⟨
    ran ((h1 _ 0 ok ok ok ok ok ok).1 999
      ok ok),
    ran ((h1 _ 0 ok ok ok ok ok ok).2 ok ok ok),
    ran (h2 _ 0 13903 ok ok ok ok ok ok ok ok ok),
    ran (h2b _ 0 13903 ok ok ok ok ok ok ok),
    ran (h3 _ 0 _ ok ok ok (of_some ok)),
    ran (h4 _ 0 ok ok ok ok ok ok ok),
    ran (h5 _ 0 997 ok ok ok ok ok ok ok),
    ran (h6 _ 0 ok ok ok ok ok),
    ran (h7 _ 0 0x10000 { home := 0, lc := 0, rep := false } ok ok ok ok (of_okIs ok) ok ok ok ok ok),
    ran ((h7b _ 0 1 ok ok ok ok).1 ok), ran ((h7b _ 0 (BitVec.allOnes 64) ok ok ok ok).2 ok),
    ran (h8 _ 0 _ [] 0 (by rfl) ok ok ok ok ok
      ok),
    ran ((h9 _ 0 ok ok ok).1 0 _ ok ok
      ok ok (of_some ok)),
    ran ((h9 _ 0 ok ok ok).2.1 0 [] _ ok ok
      ok ok (of_some ok)),
    ran ((h9 _ 0 ok ok ok).2.2 0 0 [] _ ok ok
      ok ok ok ok rfl ok),
    ran (h10 _ 0 7 0 ok ok ok ok)⟩

/-- A gang of one root whose core is reserved. -/
def gangLab : State :=
  let s := { idleLab none [] [] with launches := [(0, { launch0 with gang := true, det := true })] }
  s.modCore 0 fun x => { x with reserved := some (0, 0) }
/-- A queue at 0x40000 with one packet at 0x50000, its tail at 0x41000 and its ticket at 0x41040. -/
def queueLab : State :=
  let s := mapLab (crew0 .vec)
  let m := s.mem.writeBytes 0x40000 (toBytesLE 8 0x50000)
  let m := (m.writeBytes 0x40010 (toBytesLE 8 0x41000)).writeBytes 0x40018 (toBytesLE 8 0x41040)
  { s with mem := (((m.writeBytes 0x41000 [1]).writeBytes 0x50000 [1, 0, 1, 0, 0, 0, 0, 0, 1]).write 0x5003A 2).writeBytes 0x500C8 [2, 8] }
/-- The same with a packet of version 2. -/
def refusedLab : State := { queueLab with mem := queueLab.mem.write 0x50000 2 }
theorem witness_Admission (H : Obligations.Admission) :
    Completes (.gangStart 0) gangLab ∧ Completes (.admitNext 0 0 0) queueLab ∧ Completes (.admitNext 0 0 0) refusedLab := by
  obtain ⟨h1, h2⟩ := H
  refine ⟨ran (h1 _ 0 _ ok ok ok ok ok ok ok (of_some ok)), ?_⟩
  have hp : BitVec.ofNat 4096 (queueLab.mem.field 0x50000 512) = packet0 := by decide +kernel
  have h := h2 queueLab 0 0 0 0x40000 ⟨0, 0, false⟩ 0x41000 ⟨0, 0, false⟩ 0x41040 ⟨0, 0, false⟩ 0x50000 ⟨0, 0, false⟩ ok
    ok ok ok (of_okIs ok) (of_okIs ok) (of_okIs ok) ok ok (of_okIs ok)
  simp only [hp] at h
  have hp' : BitVec.ofNat 4096 (refusedLab.mem.field 0x50000 512) = packet0 + 1 := by decide +kernel
  have h' := h2 refusedLab 0 0 0 0x40000 ⟨0, 0, false⟩ 0x41000 ⟨0, 0, false⟩ 0x41040 ⟨0, 0, false⟩ 0x50000 ⟨0, 0, false⟩ ok
    ok ok ok (of_okIs ok) (of_okIs ok) (of_okIs ok) ok ok (of_okIs ok)
  simp only [hp'] at h'
  exact ⟨ran ((h ok ok ok ok).1 ok ok ok ok), ran ((h' ok ok ok ok).2 2 ok)⟩

/-- Core 0 gated, with all sources pending and source 8 armed. -/
def gatedLab : State := (lab { crew0 .vec with wait := some .waitc }).modCore 0 fun x =>
  { x with gated := true, source := some (8, 950), fw := { pending := 0x1FF, armed := 0x100, fired := 950 } }
/-- Die 0 whose relock is over. -/
def relockLab : State := { lab (crew0 .vec) with meridian := 2000 }.modDie 0 fun x => { x with relock := some (500, 8) }
theorem witness_TimedEvents (H : Obligations.TimedEvents) :
    Completes (.coreGate 0) (lab { crew0 .vec with wait := some .waitc }) ∧
    ((gatedLab.signalWake 0 6).core 0).source = some (8, 950) ∧ Completes (.coreWake 0 8) gatedLab ∧
    Completes .budgetPeriodStart { lab (crew0 .vec) with meridian := 100000, budgets := [(3, { limit := 5, used := 7 })] } ∧
    Completes (.budgetHold 15) { lab (crew0 .vec) with budgets := [(63, { limit := 7, used := 7 })] } ∧
    Completes (.spawnStallLimit 0) { lab { crew0 .vec with phase := spawnPhase } with meridian := 1000000 } ∧
    Completes (.relockStart 0) ((lab (crew0 .vec)).modDie 0 fun x => { x with wantF := some 8 }) ∧
    Completes (.relockEnd 0) relockLab ∧ (relockLab.tick.die 0).relock = none ∧
    Completes (.agentWake 0) ({ agentLab { Crew.agent with phase := 1, aux := 6 } with
      crews := [(64, { Crew.agent with party := agentParty 64, phase := 1, aux := 6 })] }.modCore 0 fun x =>
        { x with fw := { pending := 0x1FF, armed := 0x100, fired := 950 } }) ∧
    Completes (.wakeDeadline 0) ((lab (crew0 .vec)).modCore 0 fun x => { x with fw := { deadline := 1000 } }) ∧
    Completes (.wakeDeadline 12) ((lab (crew0 .vec)).modCore 12 fun x => { x with sc := { deadline := 1000 } }) := by
  obtain ⟨h1, h2, h3, h4, h5, h6, h7, h8, h9, h10, h11⟩ := H
  exact ⟨ran (h1 _ 0 ok ok), h2 gatedLab 0 6 ok,
    (h3 gatedLab 0 8 950 ok ok ok ok).elim fun _ h => ran h.1,
    (h4 _ ok).elim fun _ h => ran h.1,
    ran (h5 _ 15 3 ok ok ok ok),
    ran (h6 _ 0 ok ok ok ok),
    ran (h7 _ 0 8 ok ok (by intro t h; cases h)),
    ran (h8 _ 0 500 8 ok ok), (h9 relockLab 0 500 8 ok ok ok).2 ok,
    (h10 _ 0 8 64 ok ok ok ok ok
      ok).elim fun _ h => ran h.1,
    (h11 _ 0 (.inl ok)).elim fun _ h => ran h.1,
    (h11 _ 12 (.inr ok)).elim fun _ h => ran h.1⟩

def fwLab (w : Firmware) : State := { lab (crew0 .vec) with firmware := w, ready := BitVec.shiftLeft 1 112 }
/-- Die 0 at its lowest frequency, with a request for a higher one. -/
def slowLab : State := (lab (crew0 .vec)).modDie 0 fun x => { x with freqs := [{ mer := 0, clk := 0, freq := 8 }], wantF := some 12 }
theorem witness_LifeEvents (H : Obligations.LifeEvents) :
    Completes (.powerStepDown 0) (lab (crew0 .vec)) ∧ Completes (.powerStepDown 0) slowLab ∧
    Completes (.powerStepUp 0) ({ lab (crew0 .vec) with powerOver := true, meridian := 10000000 }.modDie 0 fun x => { x with wantF := some 17, capFrom := some 18 }) ∧
    Completes (.powerStepUp 0) (lab (crew0 .vec)) ∧ (fwLab { lastFetch := some 0 }).refetch = fwLab { lastFetch := some 0 } ∧
    Completes .packageReset (fwLab { image := some img0 }) ∧ Completes (.thermalReset 3) (lab (crew0 .vec)) ∧
    Completes (.selfTestPass 111 0) (fwLab { running := some img0 }) ∧ Completes (.imageFetchRetry img0) (fwLab { fetching := true }) ∧
    Completes (.imageFetchRetry { img0 with signed := false }) (fwLab { fetching := true }) ∧
    Completes (.firmwareUpdate img0) (fwLab { running := some img0 }) ∧ Completes (.functionRetire 112) (lab (crew0 .vec)) ∧
    Completes (.functionRetire 0) (lab (crew0 .vec)) ∧ Completes (.hbmSpareRepair 7) (lab (crew0 .vec)) ∧
    Completes (.laneSpare 19) (lab (crew0 .vec)) ∧ Completes (.retrainEnd 19) (lab (crew0 .vec)) ∧
    Completes (.ualinkPortDown 15) (lab (crew0 .vec)) ∧ Completes (.crcErrorReplay 15) (lab (crew0 .vec)) := by
  obtain ⟨h1, h2, h2b, h3, h4, h5, h6, h6b, h7, h8, h9, h10, h11, h12, h13⟩ := H
  exact ⟨ran ((h1 (lab (crew0 .vec)) 0 ok).1 ok), ran ((h1 slowLab 0 ok).2 ok),
    ran (h2 _ 0 18 ok ok ok ok), ran (h2b _ 0 ok), (h6b (fwLab { lastFetch := some 0 }) 0 ok ok ok).trans (if_pos ok), comp (h3 _), comp (h4 _ 3),
    (h5 _ 111 0 ok ok ok ok ok).elim fun _ h => ran h.1,
    ran ((h6 _ img0 ok ok ok).1 ok), ran ((h6 _ { img0 with signed := false } ok ok ok).2 ok),
    ran (h7 _ img0 img0 ok ok ok ok).1,
    ran (h8 _ 112 ok).1, ran (h8 _ 0 ok).1, ran (h9 _ 7 ok),
    (h10 _ 19 ok ok).elim fun _ h => ran h.1, ran (h11 _ 19), ran (h12 _ 15 ok),
    (h13 _ 15 ok).elim fun _ h => ran h.1⟩

/-- A region of every right over the lowest gigabyte, with a request that covers the last bytes of a line. -/
def hostLab : State :=
  { mapLab (crew0 .vec) with regions := [(0, { base := 0, len := 0x40000000, r := true, w := true, atomic := true, key := 9 })] }
theorem witness_HostEvents (H : Obligations.HostEvents) :
    Completes (.rdmaWrite 1022 0 9 0x2007E [1, 2]) hostLab ∧ Completes (.rdmaRead 0 0 9 0x2007E 2) hostLab ∧
    Completes (.atomicFetchAdd 0 0 9 0x20078 1) hostLab ∧ Completes (.atomicCmpSwap 0 0 9 0x20078 0 1) hostLab ∧
    (∃ u, hostLab.hostDo 0 { ctx := 0, key := 9, va := 0x2007E, op := .read 2 } = some u) ∧
    (∃ u, hostLab.hostDo 0 { ctx := 0, key := 9, va := 0x2007E, op := .write [1, 2] } = some u) ∧
    ((∃ u, hostLab.hostDo 0 { ctx := 0, key := 9, va := 0x20078, op := .fetchAdd 1 } = some u) ∧
      (∃ u, hostLab.hostDo 0 { ctx := 0, key := 9, va := 0x20078, op := .cmpSwap 0 1 } = some u) ∧
      (∃ u, hostLab.hostDo 0 { ctx := 0, key := 9, va := 0x20078, op := .cmpSwap 5 1 } = some u) ∧
      (∃ u, hostLab.hostDo 1023 { ctx := 0, key := 9, va := 0x20078, op := .cmpSwap 5 1 } = some u)) ∧
    Completes (.unsupportedRequest 1023) hostLab ∧
    Completes (.regionInstall 15 63 0 0 true true true 0) hostLab ∧
    Completes (.mirroredPageInstall 15 15 0x10000 0 0 0) hostLab ∧
    Completes (.contextTableUpdate 15 1) hostLab := by
  obtain ⟨h1, h2, h3, hA, hM, h4, h5, h6, h7⟩ := H
  have at_ (q : HostReq) := hA hostLab 0 q { home := 0, lc := 0, rep := false } 0x20078
  exact ⟨
    (h1 _ _ 1022 { ctx := 0, key := 9, va := 0x2007E, op := .write [1, 2] } _ ok ok ok
      (.inl ⟨_, rfl, rfl⟩) ok ok ok ok ok (of_some ok)).elim fun _ h => ran h.1,
    (h1 _ _ 0 { ctx := 0, key := 9, va := 0x2007E, op := .read 2 } _ ok ok ok
      (.inr (.inl ⟨_, rfl, rfl⟩)) ok ok ok ok ok (of_some ok)).elim fun _ h => ran h.1,
    (h1 _ _ 0 { ctx := 0, key := 9, va := 0x20078, op := .fetchAdd 1 } _ ok ok ok
      (.inr (.inr (.inl ⟨_, rfl, rfl⟩))) ok ok ok ok ok (of_some ok)).elim fun _ h => ran h.1,
    (h1 _ _ 0 { ctx := 0, key := 9, va := 0x20078, op := .cmpSwap 0 1 } _ ok ok ok
      (.inr (.inr (.inr ⟨_, _, rfl, rfl⟩))) ok ok ok ok ok (of_some ok)).elim fun _ h => ran h.1,
    ⟨_, h2 _ 0 _ 2 { home := 0, lc := 0, rep := false } 0x2007E rfl ok ok ok ok ok (of_okIs ok)⟩,
    (h3 _ 0 _ [1, 2] { home := 0, lc := 0, rep := false } 0x2007E rfl ok ok ok ok ok
      (of_okIs ok)).elim fun u h => ⟨u, h.1⟩,
    ⟨((at_ { ctx := 0, key := 9, va := 0x20078, op := .fetchAdd 1 } ok ok ok ok (of_okIs ok)).1 1 rfl).elim fun u h => ⟨u, h.1⟩,
      (((at_ { ctx := 0, key := 9, va := 0x20078, op := .cmpSwap 0 1 } ok ok ok ok (of_okIs ok)).2 0 1 rfl).1 ok).elim fun u h => ⟨u, h.1⟩,
      ⟨_, ((at_ { ctx := 0, key := 9, va := 0x20078, op := .cmpSwap 5 1 } ok ok ok ok (of_okIs ok)).2 5 1 rfl).2 ok⟩, ⟨_, hM _ _⟩⟩,
    (h4 _ 1023 ok ok ok ok ok ok).elim fun _ h => ran h.1,
    ran (h5 _ 15 63 0 0 true true true 0 ok ok ok),
    ran (h6 _ 15 15 0x10000 0 0 0 ok ok ok ok ok),
    (h7 _ 15 1 ok ok).elim fun _ h => ran h.1⟩

/-! ## Words of the spec

The words printed in the spec decode to the instructions that it prints beside them; their three 32-bit words are written
with word 2 first. -/

/-- The instruction of a word, and the cause of a word that is none. -/
def dec (w : BitVec 96) : Option Instr := (decodeWord w).toOption
def cause (w : BitVec 96) : Option (BitVec 8) := match decodeWord w with | .ok _ => none | .error c => some c

/-- The worked words of spec/01, spec/04, spec/05, spec/06 and spec/07. -/
theorem test_printed_words_1 :
    dec (0x20090000#32 ++ 0x0000003F#32 ++ 0xFFF60000#32) = some (.bra ⟨true, 1, true, false, 0, false, 0⟩ 0xFFFFD) ∧
    dec (0x0A120100#32 ++ 0x00000007#32 ++ 0xD0001000#32) = some (.movi ⟨false, 2, false, false, 1, false, 0⟩ (.v 4) 0x1F400) ∧
    dec (0x07078040#32 ++ 0x3C400000#32 ++ 0x00280000#32) = some (.icmp g (.p 1) (.v 3) (.imm 16) .lt .none false true) ∧
    dec (0x30170000#32 ++ 0x80082400#32 ++ 0x01000000#32) = some (.st g (.v 8) (.v 2) 64 .b32 true .pkg) ∧
    dec (0x50070180#32 ++ 0x80080000#32 ++ 0x12000000#32) =
      some (.atom g (.v 6) (.v 8) (.v 2) .add .rel .pkg false false) ∧
    dec (0x500702C0#32 ++ 0x20280000#32 ++ 0x00480000#32) =
      some (.atom g (.v 11) (.v 2) (.v 10) .or .plain .die false true) ∧
    dec (0x60370140#32 ++ 0x10080300#32 ++ 0x00040000#32) = some (.ffma g (.v 5) (.v 1) (.v 2) (.v 3) .rne) ∧
    dec (0x0A270300#32 ++ 0x2C000000#32 ++ 0x00210000#32) =
      some (.lea ⟨false, 7, false, true, 0, false, 0⟩ (.v 12) (.v 2) (.imm 0) 0 false 8) := by decide +kernel

/-- The worked words of spec/08 (the constructor of AGATE holds K - 1), spec/09, spec/10, spec/14, spec/19, spec/21, spec/23 and spec/25. -/
theorem test_printed_words_2 :
    dec (0x80070000#32 ++ 0x04500040#32 ++ 0x00140000#32) = some (.spawn g (.s 20) 1 5) ∧
    dec (0x90170010#32 ++ 0x44150800#32 ++ 0x000C0000#32) = some (.tmmae g (.s 4) (.s 5) (.s 8) 3) ∧
    dec (0xB1070030#32 ++ 0x14180000#32 ++ 0x00080000#32) = some (.agate g (.imm 1) (.s 6) 1 false) ∧
    dec (0x810741E8#32 ++ 0x44180000#32 ++ 0#32) = some (.pedget g (.s 7) (.s 6)) ∧
    dec (0x92170030#32 ++ 0x7C050800#32 ++ 0x00040000#32) = some (.tdrainl g (.imm 7) (.imm 1) (.s 8) 1 false) ∧
    dec (0x93070600#32 ++ 0x842C0020#32 ++ 0x0F3C0000#32) =
      some (.ommv g (.v 24) (.v 8) (.s 11) 15 15 .f32 .f32 true) ∧
    dec (0xB1070030#32 ++ 0x04240000#32 ++ 0x00280000#32) = some (.agate g (.imm 0) (.s 9) 1 true) ∧
    dec (0xB0070010#32 ++ 0x24193C00#32 ++ 0x00040000#32) = some (.tcopyx g (.s 2) (.s 6) (.s 60) true) := by decide +kernel

/-- The changes to those words that the spec says raise a cause: CC 6, RED with EXCH, RO 7, K 6, TDRAINL with CLR, XF 5. -/
theorem test_printed_causes :
    cause (0x07078040#32 ++ 0x3C400000#32 ++ 0x00680000#32) = some 3 ∧
    cause (0x50270180#32 ++ 0x80080000#32 ++ 0x12600000#32) = some 3 ∧
    cause (0x60370140#32 ++ 0x10080300#32 ++ 0x001C0000#32) = some 3 ∧
    cause (0xB1070030#32 ++ 0x14180000#32 ++ 0x00180000#32) = some 3 ∧
    cause (0x92170030#32 ++ 0x7C050800#32 ++ 0x00840000#32) = some 3 ∧
    cause (0x93070600#32 ++ 0x842C0021#32 ++ 0x4F3C0000#32) = some 3 := by decide +kernel

/-! ## Words of every family, from Tables 1-1 to 1-6 -/

/-- The fields of a word in form CR, unguarded and without hints. -/
def cr (maj : BitVec 8) (min : BitVec 4) (d a b e : BitVec 10) (mod : BitVec 22) : BitVec 96 :=
  maj ++ min ++ 0#1 ++ 7#3 ++ d ++ a ++ b ++ e ++ mod ++ 0#18
/-- The fields of a word in form CS. -/
def cs (maj : BitVec 8) (min : BitVec 4) (d a b : BitVec 10) (mod : BitVec 12) (ofs : BitVec 20) : BitVec 96 :=
  maj ++ min ++ 0#1 ++ 7#3 ++ d ++ a ++ b ++ mod ++ ofs ++ 0#18
/-- The fields of a word in form CI. -/
def ci (maj : BitVec 8) (min : BitVec 4) (d : BitVec 10) (imm : BitVec 32) : BitVec 96 :=
  maj ++ min ++ 0#1 ++ 7#3 ++ d ++ 0#10 ++ 0#10 ++ imm ++ 0#18

/-- MAJ 0x01 to 0x06 (spec/04 R64-R70). -/
theorem test_decode_integer :
    dec (cr 0x01 2 4 2 0x3FF 6 1) = some (.iadd3 g (.v 4) (.v 2) (.imm 255) (.v 6) true) ∧
    dec (cr 0x02 3 4 1 2 6 2) = some (.imadw g (.v 4) (.v 1) (.v 2) (.v 6) true) ∧
    dec (cr 0x02 4 0x104 0x101 0x102 0 0) = some (.idiv g (.s 4) (.s 1) (.s 2) false false) ∧
    dec (cr 0x03 3 4 1 2 0 0) = some (.andn g (.v 4) (.v 1) (.v 2) false) ∧
    dec (cr 0x04 4 4 1 2 3 4) = some (.shf g (.v 4) (.v 1) (.v 2) (.v 3) false true) ∧
    dec (cr 0x05 0 4 1 0 0 (0#6 ++ 9#7 ++ 5#6 ++ 1#1 ++ 0#2)) = some (.bfx g (.v 4) (.v 1) (.imm 5 9) false false) ∧
    dec (cr 0x05 1 4 1 2 3 0) = some (.bfi g (.v 4) (.v 1) (.v 2) (.reg (.v 3)) false) ∧
    dec (cr 0x05 6 4 1 2 0 (0#5 ++ 1#1 ++ 0x3210#16)) = some (.prmt g (.v 4) (.v 1) (.v 2) (.imm 0x3210)) ∧
    dec (cr 0x06 1 4 1 2 0 0) = some (.clmulh g (.v 4) (.v 1) (.v 2) false) := by decide +kernel

/-- MAJ 0x07 to 0x0B and 0x20 (spec/04 R71-R93). -/
theorem test_decode_moves_and_control :
    dec (cr 0x08 0 0x201 0x202 0x203 0 0) = some (.pand g (.p 1) (.p 2) (.p 3)) ∧
    dec (cr 0x08 4 4 1 2 0x203 0) = some (.sel g (.v 4) (.v 1) (.v 2) (.p 3) false) ∧
    dec (cr 0x09 2 4 1 2 0 (0#15 ++ 1#3 ++ 3#2 ++ 0#2)) = some (.shfl g (.v 4) (.v 1) (.v 2) .xor .w16 false) ∧
    dec (cr 0x09 3 0x104 1 0 0 (0#17 ++ 1#3 ++ 1#1 ++ 0#1)) = some (.redux g (.s 4) (.v 1) .min false true) ∧
    dec (cr 0x0A 3 4 2 0 0 (0#13 ++ 1#1 ++ 2#3 ++ 0#3 ++ 0#2)) = some (.i2i g (.v 4) (.v 2) .s8 .s32 true) ∧
    dec (cr 0x0B 1 0x286 0x102 0 0 1) = some (.wrsp g (.s 2) true) ∧
    dec (cr 0x20 1 0 2 0 0 0) = some (.brx g (.v 2)) ∧
    dec (cs 0x20 2 0x104 0 0 0 0xFFFFF) = some (.call g (.s 4) 0xFFFFF) ∧
    dec (ci 0x20 10 0 0x80000001) = some (.trap g 0x80000001) := by decide +kernel

/-- MAJ 0x30 to 0x35 (spec/05). -/
theorem test_decode_memory :
    dec (cs 0x30 0 4 8 0 (1#1 ++ 2#2 ++ 1#1 ++ 4#3 ++ 1#2 ++ 1#3) 0xFFFFC) =
      some (.ld g (.v 4) (.v 8) 0xFFFFC .b64 true .pkg true true 2) ∧
    dec (cs 0x30 2 0 8 0 1 4) = some (.pref g (.v 8) 4 true) ∧
    dec (cs 0x31 0 4 2 0 (0#5 ++ 3#3 ++ 1#1 ++ 4#3) 0) = some (.lds g (.v 4) (.v 2) 0 .s8 (some 3)) ∧
    dec (cs 0x32 1 0 2 4 0 8) = some (.str g (.v 2) (.v 4) 8) ∧
    dec (cs 0x33 0 4 0x102 0 0 8) = some (.ldw g (.v 4) (.s 2) 8 .b32) ∧
    dec (cr 0x34 0 0 0 0 0 (0#17 ++ 2#2 ++ 4#3)) = some (.fence g .rel .pkg) ∧
    dec (cs 0x34 2 0 8 0 (0#8 ++ 1#1 ++ 4#3) 0) = some (.cflush g (.v 8) 0 .pkg true) ∧
    dec (cr 0x35 0 0 0x301 0x106 0 0) = some (.tshape g (.imm 1) (.s 6)) ∧
    dec (cr 0x35 1 0 0x301 0x106 0x108 3) = some (.tcopy g (.imm 1) (.s 6) (some (.s 8)) true) := by decide +kernel

/-- MAJ 0x50 to 0x52 and 0x60 to 0x65 (spec/06, spec/07). -/
theorem test_decode_atomics_and_floats :
    dec (cr 0x50 1 4 8 2 0 (0#12 ++ 5#3 ++ 1#1 ++ 3#4 ++ 0#2)) =
      some (.atoms g (.v 4) (.v 8) (.v 2) .and (some 5) false false) ∧
    dec (cr 0x50 3 0 8 2 0 (0#11 ++ 5#3 ++ 1#1 ++ 1#1 ++ 0#1 ++ 1#1 ++ 2#2 ++ 1#2)) =
      some (.fred g (.v 8) (.v 2) .bf16x2 .max true false true true .sys) ∧
    dec (cr 0x51 2 0x104 0x106 0x301 0 (0#16 ++ 2#3 ++ 4#3)) = some (.sigwait g (.s 4) (.s 6) (.imm 1) .ge .pkg) ∧
    dec (cr 0x52 0 0x104 0x106 0x108 0 8) = some (.ticket g (.s 4) (.s 6) (some (.s 8)) .die) ∧
    dec (cr 0x61 3 4 1 0 0 0) = some (.fex2 g (.v 4) (.v 1)) ∧
    dec (cr 0x62 3 4 1 2 3 (0#16 ++ 1#2 ++ 0#1 ++ 2#3)) = some (.dot4 g (.v 4) (.v 1) (.v 2) (.v 3) .e5m2 .rtz) ∧
    dec (ci 0x64 0 0 0x20000) = some (.fmtset g 0x20000) ∧
    dec (cr 0x65 0 4 0 0 0 3) = some (.rngu g (.v 4) .u128) := by decide +kernel

/-- MAJ 0x80 to 0x86, 0x90 to 0x94, 0xB0 to 0xB2 and 0xC0 to 0xC3 (spec/08, spec/09, spec/10). -/
theorem test_decode_tasks_tiles_engines :
    dec (cr 0x82 2 0 0x301 0 0 1) = some (.vfin g (.imm 1) true) ∧
    dec (cr 0x83 0 0x104 0x340 0 0 0) = some (.alloc g (.s 4) (.imm 0x40)) ∧
    dec (cr 0x84 2 0x104 0x301 0x302 0 0) = some (.arrive g (.s 4) (.imm 1) (.imm 2)) ∧
    dec (cr 0x85 0 0 0x301 0x102 0 1) = some (.ringputPub g (.imm 1) (.s 2)) ∧
    dec (cr 0x86 0 0 0 0 0 0) = some (.trigger g) ∧
    dec (cr 0x91 2 0 0 0 0 (0#12 ++ 4#5 ++ 3#5)) = some (.tadd g 3 4) ∧
    dec (cr 0x94 0 4 0x301 0x302 0 0) = some (.histrd g (.v 4) (.imm 1) (.imm 2)) ∧
    dec (cr 0xB1 2 0 0x301 0x302 0 6) = some (.aswap g (.imm 1) (.imm 2) 6) ∧
    dec (cr 0xB2 0 0x104 0 0 0 1) = some (.rdmer g (.s 4) true) ∧
    dec (cr 0xC0 1 0x104 0x301 0x106 0 0) = some (.ctxload g (.s 4) (.imm 1) (.s 6)) ∧
    dec (cr 0xC1 0 0x104 0x301 0x106 0 (0#18 ++ 1#2 ++ 2#2)) = some (.tlbinv g (.s 4) (.imm 1) (.s 6) .pkg .page) ∧
    dec (ci 0xC2 1 0 0x11) = some (.commclr g) := by decide +kernel

/-! ## Ill-formed terms: one for each check -/

/-- The reserved guard, a LEN above 64, a scope without acquire, RO of an integer DOT4, CVT between integers, reserved bits
of FMTSET, `.wrap` off %DIX, the B of FCLASS, the weights of OMMVE, and a FWCALL number with its own constructor. -/
theorem test_ill_formed_modifiers :
    ¬(Instr.nop ⟨true, 7, false, false, 0, false, 0⟩).WellFormed ∧
    ¬(Instr.bfx g (.v 4) (.v 1) (.imm 0 65) false false).WellFormed ∧
    ¬(Instr.ld g (.v 4) (.v 8) 0 .b32 false .pkg false false 0).WellFormed ∧
    ¬(Instr.dot4 g (.v 4) (.v 1) (.v 2) (.v 3) .s8 .rne).WellFormed ∧
    ¬(Instr.cvt g (.v 4) (.v 1) none .s8 .s32 .fmt 0).WellFormed ∧
    ¬(Instr.fmtset g 0x200000).WellFormed ∧ ¬(Instr.rdsp g (.s 4) (.sp .seed) true).WellFormed ∧
    ¬(Instr.fclass g (.v 4) (.v 1) (.v 2)).WellFormed ∧
    ¬(Instr.ommve g (.v 24) (.v 8) (.s 11) (.s 12) 15 15 .f32 .f32 true).WellFormed ∧
    ¬(Instr.fwcall g 0x10).WellFormed := by decide +kernel

/-- An index out of range, a class that is not accepted, and an odd pair; and the same instruction without the flaw. -/
theorem test_ill_formed_operands :
    ¬(Instr.iadd g (.v 192) (.v 2) (.v 3) false).WellFormed ∧ ¬(Instr.iadd g (.p 1) (.v 2) (.v 3) false).WellFormed ∧
    ¬(Instr.iadd g (.s 4) (.v 2) (.v 3) false).WellFormed ∧ ¬(Instr.iadd g (.v 5) (.v 2) (.v 4) true).WellFormed ∧
    ¬(Instr.iadd g (.v 4) (.sp .ped) (.v 2) false).WellFormed ∧ (Instr.iadd g (.v 4) (.v 2) (.v 6) true).WellFormed := by
  decide +kernel

/-! ## Worked results of the spec -/

/-- The check value of Philox (spec/03 R56). -/
theorem test_philox : philox ⟨0, 0, 0, 0⟩ 0 10 = ⟨0x6627E8D5, 0xE169C58D, 0xBC57AC4C, 0x9B00DBD8⟩ := by decide +kernel
/-- The GQ4 scales (spec/03 R53) and the PL32 group (R55). -/
theorem test_scale_and_planes :
    blockScale 0x3F000000 51 = 0x3DCCCCCD ∧ blockScale 0x3F000000 255 = 0x3F000000 ∧
    toPlanes 8 [0x38, 0xB3] = [2, 0, 3, 3, 1, 0, 2, 2].flatMap (toBytesLE 4) := by decide +kernel
/-- The Relief example of spec/03 R59 and the weights of Table 19-2 from their ε. -/
theorem test_relief :
    fp32.round {} (Sys2Proof.Machine.Num.mul (Sys2Proof.Machine.Num.ofInt 37860) (fp32.decode 0x379CC471)) = 0x3F3520D8 ∧
    reliefWeight bf16 {} 0x3F3520D8 0x3E80 0xC8 = 0x3EA0 ∧ reliefWeight bf16 {} 0x3F3F5DCC 0x3F40 0xD8 = 0x3F62 ∧
    reliefWeight bf16 {} 0xBF8F8659 0x3F40 0xD8 = 0x3F0D ∧ reliefWeight bf16 {} 0xBFE5A3C2 0x3F40 0xD8 = 0x3EDE := by
  decide +kernel
/-- Table 19-2: the ε of its four sums S, 302,140, 202,140, 287,140 and 166,140, from words with these sums (log 56). -/
theorem test_deviates :
    gaussian ⟨0xFFFFFFFF, 0xFFFFFFFF, 40000, 0⟩ = 0x3F3F5DCC ∧ gaussian ⟨0xFFFFFFFF, 0xFFFF159F, 0, 0⟩ = 0xBF8F8659 ∧
    gaussian ⟨0xFFFFFFFF, 0xFFFFFFFF, 25000, 0⟩ = 0x3EEF353F ∧ gaussian ⟨0xFFFFFFFF, 35070, 0, 0⟩ = 0xBFE5A3C2 := by decide +kernel
/-- The high carry-less product of spec/11. -/
theorem test_clmulh : clmulNat 32 0x41000000 0xDB710641 / 2 ^ 32 = 0x36073096 := by decide +kernel
/-- Table 7-4: FP32 to E4M3, plain, with SAT and with FZ; 500 under `.rtz`. -/
theorem test_cvt :
    (([0x3F880000, 0x43FA0000, 0x3A83126F, 0x80000000, 0x7F800000].map fun x => e4m3.round {} (fp32.decode x)) =
      [0x38, 0x7F, 0x01, 0x80, 0x7F]) ∧
    (([0x3F880000, 0x43FA0000, 0x3A83126F, 0x80000000, 0x7F800000].map fun x => e4m3.round { sat := true } (fp32.decode x)) =
      [0x38, 0x7E, 0x01, 0x80, 0x7E]) ∧
    (([0x3F880000, 0x43FA0000, 0x3A83126F, 0x80000000, 0x7F800000].map fun x => e4m3.round { fz := true } (fp32.decode x)) =
      [0x38, 0x7F, 0x00, 0x80, 0x7F]) ∧ e4m3.round { mode := .rtz } (fp32.decode 0x43FA0000) = 0x7E := by decide +kernel
/-- The k-step of spec/09 R165 whose result is 384. -/
theorem test_pass_sum :
    acc64.round { mode := .rto } (passSum false [(.ofInt (2 ^ 30), .ofInt (2 ^ 30)), (.ofInt 1, .ofInt 1),
      (.ofInt (-2 ^ 30), .ofInt (2 ^ 30)), (.ofInt 1, .ofInt 1)]).1 = acc64.round {} (.ofInt 384) := by decide +kernel
/-- The five members of spec/26: canonical, ring from 0, and all -0. -/
theorem test_reduce :
    reduceElem 0x500 0 [0x3F800000, 0x33800000, 0x33800000, 0x33800000, 0x33800000] = 0x3F800002 ∧
    reduceElem 0x100 0 [0x3F800000, 0x33800000, 0x33800000, 0x33800000, 0x33800000] = 0x3F800000 ∧
    reduceElem 0x500 0 (List.replicate 5 0x80000000) = 0x80000000 := by decide +kernel
/-- The pedigree orders of Table 8-2: A after its spawn against B, the root after JOIN against A1, C against B, the root at
start against B, the root after spawning C against C. -/
theorem test_ped_order :
    pedOrder 0x100000001 0x10001 = 3 ∧ pedOrder 0x4020000 0x2 = 2 ∧ pedOrder 0x4020001 0x10001 = 2 ∧
    pedOrder 0 0x10001 = 1 ∧ pedOrder 0x4030000 0x4020001 = 3 := by decide +kernel
/-- The localisation of spec/10: q6 moves to bit 4 and q4 to bit 6. -/
theorem test_localise :
    let m : BitVec 512 := BitVec.ofNat 512 (7 * 2 ^ 64 + 5 * 2 ^ 72 + 2 * 2 ^ 80 + 0xE4 * 2 ^ 104 +
      2 ^ 136 + 2 * 2 ^ 144 + 3 * 2 ^ 152 + 4 * 2 ^ 160 + 5 * 2 ^ 168 + 6 * 2 ^ 176)
    (upto 0 7).map (mapBit (localise m [6])) = [0, 1, 2, 3, 6, 5, 4] := by decide +kernel

/-! ## Single instructions -/

/-- The state that an instruction leaves, or the state before it. -/
def after (i : Instr) (s : State) : State := (nextState (exec i s)).getD s
/-- A crew with v2 and v3 in lane 0, and s2. -/
def regsCrew (a b : Word) : Crew :=
  { crew0 .vec with vregs := Sparse.set (Sparse.set [] 2048 a) 3072 b, sregs := Sparse.set [] 2 a }
/-- Lane 0 of v4 after an instruction. -/
def v4 (i : Instr) (a b : Word) : Word := (((after i (lab (regsCrew a b))).crew 0).v 4 0)

/-- Sums wrap, a product keeps its low word, the high word of -1 x -1 is 0, division truncates, and the remainder takes
the dividend's sign (spec/04 R64, R65). -/
theorem test_integer :
    v4 (.iadd g (.v 4) (.v 2) (.v 3) false) 0xFFFFFFFF 2 = 1 ∧ v4 (.isub g (.v 4) (.v 2) (.v 3) false) 1 2 = 0xFFFFFFFF ∧
    v4 (.imulhi g (.v 4) (.v 2) (.v 3) false false) 0xFFFFFFFF 0xFFFFFFFF = 0 ∧
    v4 (.imulhi g (.v 4) (.v 2) (.v 3) false true) 0xFFFFFFFF 0xFFFFFFFF = 0xFFFFFFFE ∧
    v4 (.idiv g (.v 4) (.v 2) (.v 3) false false) 0xFFFFFFF9 2 = 0xFFFFFFFD ∧
    v4 (.irem g (.v 4) (.v 2) (.v 3) false false) 0xFFFFFFF9 2 = 0xFFFFFFFF ∧
    v4 (.idiv g (.v 4) (.v 2) (.v 3) false true) 7 0 = 0xFFFFFFFF ∧ v4 (.irem g (.v 4) (.v 2) (.v 3) false true) 7 0 = 7 := by
  decide +kernel
/-- A source that is also the destination; the sign of a shifted value; a bit field with its sign (spec/04 R66, R67). -/
theorem test_bits :
    (((after (.ineg g (.v 2) (.v 2) false) (lab (regsCrew 1 0))).crew 0).v 2 0) = 0xFFFFFFFF ∧
    v4 (.sar g (.v 4) (.v 2) (.v 3) false) 0x80000000 4 = 0xF8000000 ∧
    v4 (.bfx g (.v 4) (.v 2) (.imm 4 4) false false) 0x80 0 = 0xFFFFFFF8 ∧
    v4 (.prmt g (.v 4) (.v 2) (.v 3) (.imm 0x0123)) 0x44332211 0 = 0x11223344 := by decide +kernel
/-- 1.5 + 0.25, and the canonical NaN of 0 x infinity with a quiet NaN as addend (spec/07 R130, Table 7-2). -/
theorem test_float :
    v4 (.fadd g (.v 4) (.v 2) (.v 3) .fmt) 0x3FC00000 0x3E800000 = 0x3FE00000 ∧
    v4 (.ffma g (.v 4) (.v 2) (.v 3) (.v 2) .fmt) 0x7F800000 0 = 0x7FC00000 := by decide +kernel
/-- Divergence (Table 4-3, step 3): the fall-through lanes go on and the taken lanes are pending. -/
theorem test_divergence :
    let c := { crew0 .vec with preds := Sparse.set [] 1 1 }
    let s := after (.bra ⟨false, 1, false, false, 0, false, 0⟩ 3) (lab c)
    (s.crew 0).mask = laneMask 32 - 1 ∧ (s.crew 0).pc = 0x1000C ∧ (s.crew 0).stack = [.pending 0x10024 1 0] := by decide +kernel
/-- The first step after reset runs the instruction that is placed at the PC (log 38). -/
theorem test_first_step :
    (nextState (step (State.reset.withFetchWord 96 (cr 0x01 0 4 0x301 0x302 0 0).toNat))).isSome = true := by decide +kernel
/-- SHA-512 of the bytes of "abc", the example of FIPS 180-4 (log 20). -/
theorem test_sha512 : sha512 [0x61, 0x62, 0x63] =
    0xDDAF35A193617ABACC417349AE20413112E6FA4E89A97EA20A9EEEE64B55D39A2192992A274FC1A836BA3C23A3FEEBBD454D4423643CE80E2A9AC94FA54CA49F := by
  decide +kernel

end Sys2Proof.Tests
end

/-! What the end of an instruction leaves of the state and of its crew, and the writing of destinations (spec/01 R12, R13,
R15, spec/04 R62). -/
namespace Sys2Proof.Machine

/-! ## States that differ in the crew that issues -/

theorem Quiet.refl (s : State) (key : Nat) : Quiet s s key := ⟨rfl, fun _ _ => rfl, fun _ => rfl⟩

theorem Quiet.trans {s t u : State} {key : Nat} (h : Quiet s t key) (h' : Quiet t u key) : Quiet s u key := by
  obtain ⟨hs, hc, hk⟩ := h
  obtain ⟨hs', hc', hk'⟩ := h'
  refine ⟨hs'.trans (congrArg (fun x : State => { x with crews := u.crews, cores := u.cores, cur := u.cur }) hs),
    fun k hn => (hc' k hn).trans (hc k hn), fun k => (hk' k).trans
      (congrArg (fun x : Core => { x with pipes := (u.core k).pipes, stalls := (u.core k).stalls }) (hk k))⟩

theorem quiet_setCrew (s : State) (key : Nat) (c : Crew) : Quiet s (s.setCrew key c) key :=
  ⟨rfl, fun k hk => by rw [State.crew_setCrew, if_neg hk], fun _ => rfl⟩

theorem quiet_modCrew (s : State) (key : Nat) (g : Crew → Crew) : Quiet s (s.modCrew key g) key := by
  unfold State.modCrew
  split
  · exact quiet_setCrew s key _
  · exact Quiet.refl s key

theorem quiet_entered (s : State) (key : Nat) (f : Ctl) : Quiet s (s.entered key f) key := by
  unfold State.entered
  split
  · exact quiet_setCrew s key _
  · exact Quiet.refl s key

/-- A core whose pipes and stall counters alone change. -/
theorem quiet_modCore (s : State) (key core : Nat) (g : Core → Core)
    (hg : ∀ c, g c = { c with pipes := (g c).pipes, stalls := (g c).stalls }) : Quiet s (s.modCore core g) key := by
  refine ⟨rfl, fun _ _ => rfl, fun k => ?_⟩
  rw [State.core_modCore]
  split
  · next h => subst h; exact hg _
  · rfl

theorem quiet_countCycles (s : State) (key core i n : Nat) : Quiet s (s.countCycles core i n) key := by
  unfold State.countCycles
  split
  · exact Quiet.refl s key
  · exact quiet_modCore s key core _ fun _ => rfl

theorem quiet_leavePipe (s : State) (key : Nat) : Quiet s (s.leavePipe key) key := by
  have hq (t : State) : Quiet t { t with cur := none } key := ⟨rfl, fun _ _ => rfl, fun _ => rfl⟩
  unfold State.leavePipe
  dsimp only
  split
  · refine Quiet.trans ?_ (hq _)
    exact quiet_modCore s key _ _ fun _ => rfl
  · exact quiet_modCore s key _ _ fun _ => rfl

theorem quiet_endRun (s : State) (key : Nat) (re : Bool) : Quiet s (s.endRun key re) key := by
  unfold State.endRun
  refine Quiet.trans ?_ ((quiet_modCrew _ key _).trans (quiet_leavePipe _ key))
  split
  · exact Quiet.refl s key
  · exact quiet_countCycles s key _ _ _

theorem quiet_advance (s : State) (key : Nat) : Quiet s (s.advance key) key := quiet_modCrew s key _

theorem quiet_retire (s : State) (key : Nat) (f : Ctl) (moved : Bool) : Quiet s (s.retire key f moved) key := by
  unfold State.retire
  extract_lets hold u
  have hu : Quiet s u key := quiet_modCrew s key _
  split
  · exact hu.trans (quiet_endRun u key _)
  · exact hu

/-! ## What the end of an instruction changes in its crew -/

theorem Crew.Keeps.trans {a b c : Crew} (h : Crew.Keeps a b) (h' : Crew.Keeps b c) : Crew.Keeps a c :=
  Eq.trans h' (congrArg (fun x : Crew => { x with
    pc := c.pc, vregs := c.vregs, sregs := c.sregs, preds := c.preds, phase := c.phase, aux := c.aux,
    reply := c.reply, wait := c.wait, ignoreTraps := c.ignoreTraps, runPos := c.runPos,
    inRegion := c.inRegion, epc := c.epc, epcDix := c.epcDix, restart := c.restart, stall := c.stall,
    yields := c.yields, cut := c.cut, wonAt := c.wonAt, readyAt := c.readyAt, holdUntil := c.holdUntil }) h)

/-- The crew's place in its run and what held its instruction may differ; its PC, registers and predicates do not. -/
def Crew.Settles (c c' : Crew) : Prop := Crew.Keeps c c' ∧ Crew.SameRegs c c' ∧ c'.pc = c.pc

theorem Crew.Settles.refl (c : Crew) : Crew.Settles c c := ⟨rfl, ⟨rfl, rfl, rfl⟩, rfl⟩

theorem Crew.Settles.trans {a b c : Crew} (h : Crew.Settles a b) (h' : Crew.Settles b c) : Crew.Settles a c := by
  obtain ⟨hk, ⟨hv, hs, hp⟩, hpc⟩ := h
  obtain ⟨hk', ⟨hv', hs', hp'⟩, hpc'⟩ := h'
  exact ⟨hk.trans hk', ⟨hv'.trans hv, hs'.trans hs, hp'.trans hp⟩, hpc'.trans hpc⟩

theorem settles_modCrew (s : State) (key : Nat) (g : Crew → Crew) (hg : ∀ c, Crew.Settles c (g c)) :
    Crew.Settles (s.crew key) ((s.modCrew key g).crew key) := by
  unfold State.modCrew
  split
  · rw [State.crew_setCrew_self]; exact hg _
  · exact Crew.Settles.refl _

theorem settles_entered (s : State) (key : Nat) (f : Ctl) :
    Crew.Settles (s.crew key) ((s.entered key f).crew key) := by
  rw [entered_crew]
  split
  · exact ⟨rfl, ⟨rfl, rfl, rfl⟩, rfl⟩
  · exact Crew.Settles.refl _

@[simp] theorem crew_countCycles (s : State) (core i n j : Nat) : (s.countCycles core i n).crew j = s.crew j := by
  unfold State.countCycles; split <;> rfl

@[simp] theorem crew_leavePipe (s : State) (key j : Nat) : (s.leavePipe key).crew j = s.crew j := by
  unfold State.leavePipe; dsimp only; split <;> rfl

theorem settles_endRun (s : State) (key : Nat) (re : Bool) :
    Crew.Settles (s.crew key) ((s.endRun key re).crew key) := by
  unfold State.endRun
  dsimp only
  rw [crew_leavePipe]
  refine Crew.Settles.trans ?_ (settles_modCrew _ key _ fun _ => ⟨rfl, ⟨rfl, rfl, rfl⟩, rfl⟩)
  split
  · exact Crew.Settles.refl _
  · rw [crew_countCycles]; exact Crew.Settles.refl _

theorem settles_retire (s : State) (key : Nat) (f : Ctl) (moved : Bool) :
    Crew.Settles (s.crew key) ((s.retire key f moved).crew key) := by
  unfold State.retire
  extract_lets hold u
  have hu : Crew.Settles (s.crew key) (u.crew key) := settles_modCrew s key _ fun _ => ⟨rfl, ⟨rfl, rfl, rfl⟩, rfl⟩
  split
  · exact hu.trans (settles_endRun u key _)
  · exact hu

/-- A crew that is listed, or an agent, takes its change. -/
theorem crew_modCrew_self {s : State} {key : Nat} (g : Crew → Crew)
    (h : ((Tbl.get? s.crews key).isSome || isAgentKey key) = true) : (s.modCrew key g).crew key = g (s.crew key) := by
  rw [State.crew_modCrew s key key g h, if_pos rfl]

/-- A crew that is listed stays listed when it changes. -/
theorem listed_modCrew {s : State} {key : Nat} (g : Crew → Crew)
    (h : ((Tbl.get? s.crews key).isSome || isAgentKey key) = true) :
    ((Tbl.get? (s.modCrew key g).crews key).isSome || isAgentKey key) = true := by
  unfold State.modCrew
  rw [if_pos h, State.listed_setCrew, Bool.true_or]

theorem listed_entered {s : State} {key : Nat} (f : Ctl)
    (h : ((Tbl.get? s.crews key).isSome || isAgentKey key) = true) :
    ((Tbl.get? (s.entered key f).crews key).isSome || isAgentKey key) = true := by
  unfold State.entered
  split
  · rw [State.listed_setCrew, Bool.true_or]
  · exact h

/-- The crew after an instruction that is done: it stands at PC + 12, and keeps its registers. -/
theorem crew_advance_retire {s : State} {key : Nat} (f : Ctl)
    (h : ((Tbl.get? s.crews key).isSome || isAgentKey key) = true) :
    Crew.Settles { s.crew key with pc := (s.crew key).pc + 12 } (((s.advance key).retire key f false).crew key) := by
  have e : (s.advance key).crew key = { s.crew key with pc := (s.crew key).pc + 12 } := crew_modCrew_self _ h
  exact e ▸ settles_retire (s.advance key) key f false

/-! ## Reading operands in the entered state -/

/-- The entry of a region changes no operand (spec/13 R230). -/
@[simp] theorem operand_entered (s : State) (key : Nat) (f : Ctl) (wide : Bool) (o : Operand) (l : Nat) :
    (s.entered key f).operand key ((s.entered key f).crew key) wide o l = s.operand key (s.crew key) wide o l := by
  rw [entered_crew]
  unfold State.entered
  split <;> rfl

/-- Nor does it change the effective mask. -/
@[simp] theorem effLanes_entered (s : State) (key : Nat) (f g : Ctl) :
    ((s.entered key f).crew key).effLanes g = (s.crew key).effLanes g := by
  rw [entered_crew]; split <;> rfl

@[simp] theorem eff_entered (s : State) (key : Nat) (f g : Ctl) :
    ((s.entered key f).crew key).eff g = (s.crew key).eff g := by
  rw [entered_crew]; split <;> rfl

theorem mem_effLanes_lt {c : Crew} {f : Ctl} {l : Nat} (h : l ∈ c.effLanes f) : l < c.lanes := by
  have := mem_upto.mp (List.mem_filter.mp h).1
  omega

/-- An empty effective mask has no lane (spec/01 R12). -/
theorem effLanes_of_eff_zero {c : Crew} {f : Ctl} (h : c.eff f = 0) : c.effLanes f = [] := by
  simp [Crew.effLanes, lanesOf, h]

/-! ## Writing a destination -/

theorem v_setV (c : Crew) {r q l k : Nat} (x : Word) (hl : l < 1024) (hk : k < 1024) :
    (c.setV r l x).v q k = if q = r ∧ k = l then x else c.v q k := by
  have : 1024 * q + k = 1024 * r + l ↔ q = r ∧ k = l := by omega
  simp only [Crew.v, Crew.setV, Sparse.get_set, this]

theorem s_setS (c : Crew) (r q : Nat) (x : Word) : (c.setS r x).s q = if q = r then x else c.s q :=
  Sparse.get_set _ _ _ _

theorem v_writeV (c : Crew) (wide : Bool) {r q l k : Nat} (x : DWord) (hl : l < 1024) (hk : k < 1024) :
    (c.writeV wide r l x).v q k =
      if k = l ∧ q = r then x.extractLsb' 0 32
      else if k = l ∧ wide = true ∧ q = r + 1 then x.extractLsb' 32 32 else c.v q k := by
  cases wide
  · simp [Crew.writeV, v_setV _ _ hl hk, and_comm]
  · simp only [Crew.writeV, if_true, v_setV _ _ hl hk]
    by_cases hq : q = r
    · subst hq; simp [and_comm]
    · by_cases hk' : k = l <;> simp [hq, hk']

/-- Lane registers after a write in some lanes: each of them holds its value, all others keep theirs. -/
theorem v_foldl_writeV (wide : Bool) {r q k : Nat} (val : Nat → DWord) (lanes : List Nat) (c : Crew)
    (hl : ∀ l ∈ lanes, l < 1024) (hk : k < 1024) :
    (lanes.foldl (fun c l => c.writeV wide r l (val l)) c).v q k =
      if k ∈ lanes ∧ q = r then (val k).extractLsb' 0 32
      else if k ∈ lanes ∧ wide = true ∧ q = r + 1 then (val k).extractLsb' 32 32 else c.v q k := by
  induction lanes generalizing c with
  | nil => simp
  | cons l lanes ih =>
    rw [List.foldl_cons, ih _ fun x hx => hl x (List.mem_cons_of_mem _ hx),
      v_writeV c wide (val l) (hl l List.mem_cons_self) hk]
    by_cases hm : k = l
    · subst hm
      by_cases hq : q = r <;> by_cases hw : wide = true ∧ q = r + 1 <;> simp [hq, hw]
    · simp [hm]

theorem writeV_sregs_preds (c : Crew) (wide : Bool) (r l : Nat) (x : DWord) :
    c.writeV wide r l x = { c with vregs := (c.writeV wide r l x).vregs } := by
  cases wide <;> rfl

theorem foldl_writeV_eq (wide : Bool) (r : Nat) (val : Nat → DWord) (lanes : List Nat) (c : Crew) :
    ∃ v, lanes.foldl (fun c l => c.writeV wide r l (val l)) c = { c with vregs := v } := by
  induction lanes generalizing c with
  | nil => exact ⟨c.vregs, rfl⟩
  | cons l lanes ih =>
    obtain ⟨v, h⟩ := ih (c.writeV wide r l (val l))
    rw [writeV_sregs_preds] at h
    exact ⟨v, by rw [List.foldl_cons, writeV_sregs_preds]; exact h⟩

theorem s_writeS (c : Crew) (wide : Bool) (r q : Nat) (x : DWord) :
    (c.writeS wide r x).s q =
      if q = r then x.extractLsb' 0 32 else if wide = true ∧ q = r + 1 then x.extractLsb' 32 32 else c.s q := by
  cases wide
  · simp [Crew.writeS, s_setS]
  · simp only [Crew.writeS, Crew.setSPair, if_true, s_setS]
    by_cases hq : q = r
    · subst hq; simp
    · simp [hq]

theorem getLsbD_shiftLeft_one (l k : Nat) :
    (BitVec.shiftLeft (1 : Mask) l).getLsbD k = (decide (k < 1024) && decide (k = l)) := by
  rw [show BitVec.shiftLeft (1 : Mask) l = 1#1024 <<< l from rfl, BitVec.getLsbD_shiftLeft, BitVec.getLsbD_one]
  rcases Nat.lt_trichotomy k l with h | h | h
  · have : ¬k = l := by omega
    simp [h, this]
  · simp [h]
  · have : ¬k = l := by omega
    have h0 : ¬k - l = 0 := by omega
    simp [this, h0]

theorem getLsbD_maskOf (lanes : List Nat) (p : Nat → Bool) (k : Nat) :
    (maskOf lanes p).getLsbD k = (decide (k < 1024) && (decide (k ∈ lanes) && p k)) := by
  suffices ∀ m : Mask, (lanes.foldl (fun m l => if p l then m ||| BitVec.shiftLeft 1 l else m) m).getLsbD k =
      (m.getLsbD k || (decide (k < 1024) && (decide (k ∈ lanes) && p k))) by
    simpa [maskOf] using this 0
  induction lanes with
  | nil => simp
  | cons l lanes ih =>
    intro m
    have hm : (if p l then m ||| BitVec.shiftLeft 1 l else m).getLsbD k =
        (m.getLsbD k || (decide (k < 1024) && (decide (k = l) && p k))) := by
      by_cases hk : k = l
      · subst hk
        cases p k
        · simp
        · rw [if_pos rfl, BitVec.getLsbD_or, getLsbD_shiftLeft_one, Bool.and_true]
      · split
        · rw [BitVec.getLsbD_or, getLsbD_shiftLeft_one, decide_eq_false hk]; simp
        · simp [hk]
    rw [List.foldl_cons, ih, hm, Bool.or_assoc, ← Bool.and_or_distrib_left, ← Bool.and_or_distrib_right,
      ← Bool.decide_or]
    simp only [List.mem_cons]

theorem pred_setPred (c : Crew) (i j : BitVec 3) (m x : Mask) :
    (c.setPred i m x).pred j = if j = i ∧ i ≠ 7 then (c.pred i &&& ~~~m) ||| (x &&& m) else c.pred j := by
  unfold Crew.setPred
  by_cases hi : i = 7
  · rw [if_pos hi, if_neg fun h => h.2 hi]
  · rw [if_neg hi]
    by_cases hj : j = i
    · subst hj
      rw [if_pos ⟨rfl, hi⟩, Crew.pred, if_neg hi, Sparse.get_set_self]
    · rw [if_neg fun h => hj h.1, Crew.pred, Sparse.get_set_ne _ _ fun e => hj (BitVec.eq_of_toNat_eq e), Crew.pred]

/-- A destination is written in the lanes that are named, and nothing else of the registers changes (spec/01 R12, R13,
R15, spec/04 R62). -/
theorem writes_writeDst (c : Crew) (wide : Bool) (d : Operand) (lanes : List Nat) (val : Nat → DWord)
    (hl : ∀ l ∈ lanes, l < 1024) : Crew.Writes wide d lanes val c (c.writeDst wide d lanes val) := by
  cases d with
  | v r =>
    obtain ⟨vr, h⟩ := foldl_writeV_eq wide r.toNat val lanes c
    refine ⟨fun l hm => ⟨?_, fun hw => ?_⟩, fun q l hlt hn => ?_, ?_, ?_⟩
    · rw [Crew.writeDst, v_foldl_writeV wide val lanes c hl (hl l hm), if_pos ⟨hm, rfl⟩]
    · rw [Crew.writeDst, v_foldl_writeV wide val lanes c hl (hl l hm), if_neg (by simp), if_pos ⟨hm, hw, rfl⟩]
    · simp only [Crew.writeDst, v_foldl_writeV wide val lanes c hl hlt]
      rw [if_neg fun h => hn ⟨h.1, .inl h.2⟩, if_neg fun h => hn ⟨h.1, .inr h.2⟩]
    · simp [Crew.writeDst, h]
    · simp [Crew.writeDst, h]
  | s r =>
    cases lanes with
    | nil => simp [Crew.writeDst, Crew.Writes]
    | cons l lanes =>
      refine ⟨fun k hk => ?_, fun q hn => ?_, ?_, ?_⟩
      · obtain rfl : l = k := by simpa using hk
        exact ⟨by simp [Crew.writeDst, s_writeS], fun hw => by simp [Crew.writeDst, s_writeS, hw]⟩
      · simp only [Crew.writeDst, s_writeS]
        rw [if_neg fun h => hn ⟨by simp, .inl h⟩, if_neg fun h => hn ⟨by simp, .inr h⟩]
      · cases wide <;> rfl
      · cases wide <;> rfl
  | p i =>
    refine ⟨fun hi l hm => ?_, fun j l hn => ?_, ?_, ?_⟩
    · rw [Crew.writeDst, pred_setPred, if_pos ⟨rfl, hi⟩, BitVec.getLsbD_or, BitVec.getLsbD_and, BitVec.getLsbD_and,
        BitVec.getLsbD_not, getLsbD_maskOf, getLsbD_maskOf, decide_eq_true hm, decide_eq_true (hl l hm)]
      simp
    · simp only [Crew.writeDst, pred_setPred]
      split
      · next h =>
        have hm : l ∉ lanes := fun hm => hn ⟨hm, h⟩
        obtain ⟨rfl, -⟩ := h
        by_cases hlt : l < 1024
        · rw [BitVec.getLsbD_or, BitVec.getLsbD_and, BitVec.getLsbD_and, BitVec.getLsbD_not, getLsbD_maskOf,
            decide_eq_false hm, decide_eq_true hlt]
          simp
        · rw [BitVec.getLsbD_of_ge _ _ (by omega), BitVec.getLsbD_of_ge _ _ (by omega)]
      · rfl
    · simp only [Crew.writeDst, Crew.setPred]; split <;> rfl
    · simp only [Crew.writeDst, Crew.setPred]; split <;> rfl
  | sp _ => exact ⟨rfl, rfl, rfl⟩
  | imm _ => exact ⟨rfl, rfl, rfl⟩

/-- With no lane nothing is written. -/
theorem writes_nil (c : Crew) (wide : Bool) (d : Operand) (val : Nat → DWord) : Crew.Writes wide d [] val c c := by
  cases d <;> simp [Crew.Writes, Crew.SameRegs]

/-- What a crew's registers are decides whether a destination is written. -/
theorem Crew.Writes.congr {wide : Bool} {d : Operand} {lanes : List Nat} {val : Nat → DWord} {a b a' b' : Crew}
    (h : Crew.Writes wide d lanes val a b) (ha : Crew.SameRegs a' a) (hb : Crew.SameRegs b b') :
    Crew.Writes wide d lanes val a' b' := by
  obtain ⟨hv, hs, hp⟩ := ha
  obtain ⟨hv', hs', hp'⟩ := hb
  cases d <;>
    simpa only [Crew.Writes, Crew.SameRegs, Crew.v, Crew.s, Crew.pred, hv, hs, hp, hv', hs', hp'] using h

theorem keeps_writeDst (c : Crew) (wide : Bool) (d : Operand) (lanes : List Nat) (val : Nat → DWord) :
    Crew.Keeps c (c.writeDst wide d lanes val) ∧ (c.writeDst wide d lanes val).pc = c.pc := by
  cases d with
  | v r =>
    obtain ⟨vr, h⟩ := foldl_writeV_eq wide r.toNat val lanes c
    rw [Crew.writeDst, h]
    exact ⟨rfl, rfl⟩
  | s r => cases lanes <;> cases wide <;> exact ⟨rfl, rfl⟩
  | p i => simp only [Crew.writeDst, Crew.setPred]; split <;> exact ⟨rfl, rfl⟩
  | sp _ => exact ⟨rfl, rfl⟩
  | imm _ => exact ⟨rfl, rfl⟩

/-- An instruction that is done with its destination written, and nothing else, computes it. `u` is the state that its
body leaves. -/
theorem computes_of_done {i : Instr} {f g : Ctl} {wide : Bool} {d : Operand} {s u : State} {key : Nat} {c0 : Crew}
    {val : Nat → DWord} (he : exec i s = .next ((u.advance key).retire key g false)) (hq : Quiet s u key)
    (hl : ((Tbl.get? u.crews key).isSome || isAgentKey key) = true) (hk : Crew.Keeps c0 (u.crew key))
    (hpc : (u.crew key).pc = (s.crew key).pc)
    (hw : Crew.Writes wide d ((s.crew key).effLanes f) val (s.crew key) (u.crew key)) :
    Computes i f wide d s key c0 val := by
  obtain ⟨hsk, ⟨hv, hs, hp⟩, hspc⟩ := crew_advance_retire g hl
  have hadv : Crew.Keeps (u.crew key) { u.crew key with pc := (u.crew key).pc + 12 } := rfl
  refine ⟨_, he, hq.trans ((quiet_advance u key).trans (quiet_retire _ key g false)), ?_,
    (hk.trans hadv).trans hsk, hw.congr ⟨rfl, rfl, rfl⟩ ⟨hv, hs, hp⟩⟩
  rw [hspc, hpc]

/-- An instruction that is done with its destination written in the effective lanes computes it. -/
theorem computes_of_writeDst {i : Instr} {f : Ctl} {wide : Bool} {d : Operand} {s u : State} {key : Nat} {val : Nat → DWord}
    (hlanes : (s.crew key).lanes ≤ 1024) (hl : ((Tbl.get? u.crews key).isSome || isAgentKey key) = true)
    (hq : Quiet (s.entered key f) u key)
    (hu : u.crew key = ((s.entered key f).crew key).writeDst wide d (((s.entered key f).crew key).effLanes f) val)
    (he : exec i s = .next ((u.advance key).retire key f false)) : Computes i f wide d s key (s.crew key) val := by
  obtain ⟨hek, her, hep⟩ := settles_entered s key f
  obtain ⟨hwk, hwp⟩ := keeps_writeDst ((s.entered key f).crew key) wide d (((s.entered key f).crew key).effLanes f) val
  rw [← hu] at hwk hwp
  refine computes_of_done he ((quiet_entered s key f).trans hq) hl (hek.trans hwk) (hwp.trans hep) ?_
  rw [hu, effLanes_entered]
  exact (writes_writeDst _ wide d _ val fun l hm => Nat.lt_of_lt_of_le (mem_effLanes_lt hm) hlanes).congr her ⟨rfl, rfl, rfl⟩

/-- One that writes a uniform result of 64 bits computes it. -/
theorem computes_of_writeUni {i : Instr} {f : Ctl} {d : Operand} {s : State} {key : Nat} {x : DWord}
    (hlanes : (s.crew key).lanes ≤ 1024) (hl : ((Tbl.get? s.crews key).isSome || isAgentKey key) = true)
    (he : exec i s = .next ((((s.entered key f).modCrew key fun c => c.writeUni f d x).advance key).retire key f false)) :
    Computes i f true d s key (s.crew key) fun _ => x :=
  computes_of_writeDst hlanes (listed_modCrew _ (listed_entered f hl)) (quiet_modCrew _ key _)
    (crew_modCrew_self (fun c => c.writeUni f d x) (listed_entered f hl)) he

/-- One that is done with no effective lane computes it too: there is no lane to write. -/
theorem computes_of_no_lane {i : Instr} {f : Ctl} {wide : Bool} {d : Operand} {s : State} {key : Nat} {val : Nat → DWord}
    (hl : ((Tbl.get? s.crews key).isSome || isAgentKey key) = true) (hno : (s.crew key).eff f = 0)
    (he : exec i s = .next (((s.entered key f).advance key).retire key f false)) :
    Computes i f wide d s key (s.crew key) val := by
  obtain ⟨hek, her, hep⟩ := settles_entered s key f
  refine computes_of_done he (quiet_entered s key f) (listed_entered f hl) hek hep ?_
  rw [effLanes_of_eff_zero hno]
  exact (writes_nil _ wide d val).congr ⟨rfl, rfl, rfl⟩ her

/-! ## The frames of instructions that issue -/

/-- The frame of an instruction asks its body only about the state in which it acts. -/
theorem issue_congr {i : Instr} {s : State} {key : Nat} {body body' : State → Nat → Crew → Issue} (h : Issues i s key)
    (hb : body (s.entered key (Instr.hints i)) key ((s.entered key (Instr.hints i)).crew key) =
      body' (s.entered key (Instr.hints i)) key ((s.entered key (Instr.hints i)).crew key)) :
    issue i s body = issue i s body' := by
  rw [issue_of_Issues body h, issue_of_Issues body' h, hb]

/-- The lead crew of a task that serves no fault may issue every lead-only instruction (spec/08 R143). -/
theorem mayLead_of_mayLead_false {s : State} {c : Crew} (h : s.mayLead c false = true) (handler : Bool) :
    s.mayLead c handler = true := by
  cases handler
  · exact h
  · simp only [State.mayLead, Bool.and_eq_true] at h ⊢
    exact ⟨h.1, rfl⟩

/-- The frame of a lead-only instruction of the lead crew, with an effective lane. -/
theorem leadOnly_done {i : Instr} {f : Ctl} {s : State} {key : Nat} {body : State → Nat → Crew → Issue} {t : State}
    (h : Issues i s key) (hf : Instr.hints i = f) (hm : (s.entered key f).mayLead ((s.entered key f).crew key) false = true)
    (he : ((s.entered key f).crew key).eff f ≠ 0)
    (hb : body (s.entered key f) key ((s.entered key f).crew key) = .done t) :
    leadOnly i f s body = .next ((t.advance key).retire key f false) := by
  subst hf
  refine issue_done h ?_
  rw [mayLead_of_mayLead_false hm]
  simpa only [Bool.not_true, Bool.false_eq_true, if_false, if_neg he] using hb

/-- The frame of an instruction that acts once, with no effective lane: only its run goes on (spec/01 R12). -/
theorem once_empty {i : Instr} {f : Ctl} {s : State} {key : Nat} {body : State → Nat → Crew → Issue}
    (h : Issues i s key) (hf : Instr.hints i = f) (he : ((s.entered key f).crew key).eff f = 0) :
    once i f s body = .next (((s.entered key f).advance key).retire key f false) := by
  subst hf
  exact issue_done h (if_pos he)

/-- A counter with room is not at its limit. -/
theorem counterFull_of_room {α : Type} {l : List α} (h : l.length < 63) : counterFull l = false := by
  simpa [counterFull] using h

/-- Once its release has passed, an instruction goes on in the state that the release leaves (spec/05 R100). -/
theorem fenced_of_released {s t : State} {key : Nat} {rel : Bool} {sc : Scope} (h : Released s key rel sc t)
    (body : State → Issue) : (if rel then fenced s key .rel sc body else body s) = body t := by
  obtain ⟨rfl, rfl⟩ | ⟨rfl, hf⟩ := h
  · rfl
  · rw [if_pos rfl, fenced, hf]

/-- A request that nothing holds goes on. -/
theorem held?_none (s : State) (key : Nat) (go : Issue) : held? s key none go = go := rfl

end Sys2Proof.Machine

/-! The value that an LDS leaves in its register (spec/00 R7, spec/05 R96, R98, R101). -/
namespace Sys2Proof.Machine

/-! ## What the end of other crews leaves of a crew -/

/-- What a crew holds: its role, live lanes, registers and loads. -/
def Crew.holdings (c : Crew) : Option Role × Mask × Sparse 32 × Sparse 32 × List MemPend :=
  (c.role, c.live, c.vregs, c.sregs, c.loads)

/-- Memory, the scratchpads and what crew `key` holds stay as they are. -/
structure Spares (key : Nat) (s t : State) : Prop where
  mem : t.mem = s.mem
  scratch : ∀ k, (t.party k).scratch = (s.party k).scratch
  crew : (t.crew key).holdings = (s.crew key).holdings

theorem Spares.refl (key : Nat) (s : State) : Spares key s s := ⟨rfl, fun _ => rfl, rfl⟩

theorem Spares.trans {key : Nat} {s t u : State} (h : Spares key s t) (h' : Spares key t u) : Spares key s u :=
  ⟨h'.mem.trans h.mem, fun k => (h'.scratch k).trans (h.scratch k), h'.crew.trans h.crew⟩

theorem spares_foldl {key : Nat} {β : Type} (g : State → β → State) (hg : ∀ s x, Spares key s (g s x)) (l : List β)
    (s : State) :
    Spares key s (l.foldl g s) := by
  induction l generalizing s with
  | nil => exact Spares.refl key s
  | cons x l ih => exact (hg s x).trans (ih _)

theorem spares_setCrew {key j : Nat} (s : State) (c : Crew) (hj : j ≠ key) : Spares key s (s.setCrew j c) :=
  ⟨rfl, fun _ => rfl, by rw [State.crew_setCrew, if_neg hj.symm]⟩

theorem spares_modCrew {key : Nat} (s : State) (j : Nat) (g : Crew → Crew) (hg : ∀ c, (g c).holdings = c.holdings) :
    Spares key s (s.modCrew j g) := by
  refine ⟨State.modCrew_mem s j g, fun k => by rw [State.party_modCrew], ?_⟩
  unfold State.modCrew
  split
  · rw [State.crew_setCrew]
    split
    · next h => rw [hg, h]
    · rfl
  · rfl

theorem spares_modCore (key : Nat) (s : State) (core : Nat) (g : Core → Core) : Spares key s (s.modCore core g) :=
  ⟨rfl, fun _ => rfl, rfl⟩

theorem spares_setTask (key : Nat) (s : State) (k : Nat) (t : Task) : Spares key s (s.setTask k t) :=
  ⟨rfl, fun _ => rfl, rfl⟩

theorem spares_setParty {key : Nat} (s : State) (k : Nat) (p : Party) (hp : p.scratch = (s.party k).scratch) :
    Spares key s (s.setParty k p) := by
  refine ⟨rfl, fun j => ?_, rfl⟩
  rw [State.party_setParty]
  split
  · next h => rw [hp, h]
  · rfl

/-- Crews that change one by one, each keeping what it holds. -/
theorem holdings_of_map {s t : State} {g : Nat → Crew → Crew} (h : t.crews = s.crews.map fun x => (x.1, g x.1 x.2))
    (hg : ∀ k c, (g k c).holdings = c.holdings) (k : Nat) : (t.crew k).holdings = (s.crew k).holdings := by
  unfold State.crew
  rw [h, Tbl.get?_map]
  cases Tbl.get? s.crews k with
  | none => rfl
  | some c => exact hg k c

/-- Parties that change one by one, each keeping its scratchpad. -/
theorem scratch_of_map {s t : State} {g : Nat → Party → Party} (h : t.parties = s.parties.map fun x => (x.1, g x.1 x.2))
    (hg : ∀ k p, (g k p).scratch = p.scratch) (k : Nat) : (t.party k).scratch = (s.party k).scratch := by
  unfold State.party
  rw [h, Tbl.get?_map]
  cases Tbl.get? s.parties k with
  | none => rfl
  | some p => exact hg k p

theorem holdings_wake (c : Crew) : c.wake.holdings = c.holdings := by
  unfold Crew.wake
  split
  · split <;> rfl
  · rfl

theorem spares_wakeCrews (key : Nat) (s : State) : Spares key s s.wakeCrews :=
  ⟨rfl, fun _ => rfl, holdings_of_map (g := fun _ c => c.wake) rfl (fun _ c => holdings_wake c) key⟩

theorem spares_haltParty (key : Nat) (s : State) (party : Nat) : Spares key s (s.haltParty party) := by
  refine ⟨rfl, scratch_of_map (g := fun k p => if k = party then { p with stopped := true } else p) ?_ ?_,
    holdings_of_map (g := fun _ c => if c.party = party && c.role.isSome then { c with halted := true } else c) ?_ ?_ key⟩
  · exact List.map_congr_left fun x _ => by dsimp only; split <;> rfl
  · intro k p; split <;> rfl
  · exact List.map_congr_left fun x _ => by dsimp only; split <;> rfl
  · intro k c; split <;> rfl

theorem spares_leaveRings (key : Nat) (s : State) (j : Nat) : Spares key s (s.leaveRings j) := by
  unfold State.leaveRings
  dsimp only
  split
  · exact Spares.refl key s
  · exact spares_setParty s _ _ rfl

theorem spares_signalWake (key : Nat) (s : State) (core code : Nat) : Spares key s (s.signalWake core code) :=
  spares_modCore key s core _

theorem spares_endRun (key : Nat) (s : State) (j : Nat) (re : Bool) : Spares key s (s.endRun j re) := by
  have hleave (t : State) : Spares key t (t.leavePipe j) := by
    unfold State.leavePipe
    dsimp only
    split <;> exact ⟨rfl, fun _ => rfl, rfl⟩
  unfold State.endRun
  extract_lets now u
  have hu : Spares key s u := by
    dsimp only [u]
    split
    · exact Spares.refl key s
    · unfold State.countCycles
      split
      · exact Spares.refl key s
      · exact spares_modCore key s _ _
  refine Spares.trans (hu.trans ?_) (hleave _)
  exact spares_modCrew u j _ fun _ => rfl

/-- A crew that takes a fault changes nothing that another, or itself, holds (spec/13 R234). -/
theorem spares_takeFault (key : Nat) (s : State) (j : Nat) (r : Report) : Spares key s (s.takeFault j r) := by
  unfold State.takeFault
  extract_lets c core filled r' u v w
  have hu : Spares key s u := (spares_leaveRings key s j).trans (spares_haltParty key _ _)
  have hv : Spares key u v := spares_modCrew u j _ fun _ => rfl
  have hw : Spares key v w := spares_modCore key v core _
  exact (hu.trans (hv.trans hw)).trans ((spares_signalWake key w core 6).trans (spares_endRun key _ j false))

/-- Crews that take the lead crew's pedigree keep what they hold. -/
theorem spares_takePed (key : Nat) (ped : BitVec 512) (crews : List Nat) (s : State) :
    Spares key s (crews.foldl (fun s k => s.modCrew k fun c => { c with ped := ped }) s) := by
  refine spares_foldl _ (fun s k => ?_) crews s
  exact spares_modCrew s k _ fun _ => rfl

theorem spares_barpCheck (key : Nat) (s : State) (party : Nat) : Spares key s (s.barpCheck party) := by
  unfold State.barpCheck
  extract_lets p u
  split
  · have hu : Spares key s u := by
      refine Spares.trans ?_ (spares_signalWake key _ _ _)
      exact spares_setParty s party _ rfl
    split
    · exact hu.trans (spares_takePed key _ _ _)
    · exact hu
  · exact Spares.refl key s

theorem spares_barcCheck (key : Nat) (s : State) (task : Nat) : Spares key s (s.barcCheck task) := by
  unfold State.barcCheck
  extract_lets t crews u v
  split
  · have hv : Spares key s v :=
      (spares_setTask key s task _).trans (spares_foldl _ (fun s p => spares_signalWake key s _ _) _ _)
    split
    · exact hv.trans (spares_takePed key _ _ _)
    · exact hv
  · exact Spares.refl key s

theorem scratch_arriveObj {p q : Party} {id n : Nat} (h : p.arriveObj id n = some q) : q.scratch = p.scratch := by
  unfold Party.arriveObj at h
  split at h
  · cases h
  · split at h
    · cases h
    · split at h <;> cases h <;> rfl

theorem spares_linkArrives {key : Nat} (s : State) (j : Nat) (p : Party) (id : Nat)
    (hp : p.scratch = (s.party (s.crew j).party).scratch) : Spares key s (s.linkArrives j p id) := by
  unfold State.linkArrives
  dsimp only
  split
  · exact spares_setParty s _ p hp
  · exact (spares_setParty s _ p hp).trans (spares_signalWake key _ _ _)

/-- What the end of a crew can be (spec/04 R91): it does not end yet, it takes a fault, or it ends, with its linked
arrival when it has one, and the barriers of its party and task look again. -/
theorem crewEnd_cases (s : State) (j : Nat) :
    s.crewEnd j = s ∨ (∃ c r, s.crewEnd j = (s.setCrew j c).takeFault j r) ∨
      ∃ c p v, (v = s.setCrew j c ∨
          ∃ id n, (s.party c.party).arriveObj id n = some p ∧ v = (s.setCrew j c).linkArrives j p id) ∧
        s.crewEnd j = (v.barpCheck c.party).barcCheck p.task := by
  unfold State.crewEnd
  generalize s.crew j = c
  cases hx : c.tlink with
  | none =>
    simp only [hx]
    split
    · exact .inl rfl
    · split
      · exact .inr (.inl ⟨_, _, rfl⟩)
      · split
        · exact .inr (.inr ⟨_, _, _, .inl rfl, rfl⟩)
        · exact .inl rfl
  | some x =>
    simp only [hx]
    split
    · exact .inl rfl
    · split
      · exact .inr (.inl ⟨_, _, rfl⟩)
      · split
        · split
          · exact .inr (.inl ⟨_, _, rfl⟩)
          · next p hp => exact .inr (.inr ⟨{ c with ended := true, tlink := none, wait := none, stall := none }, p, _,
              .inr ⟨_, _, hp, rfl⟩, rfl⟩)
        · exact .inl rfl

/-- The end of another crew changes nothing that a crew holds. -/
theorem spares_crewEnd {key j : Nat} (s : State) (hj : j ≠ key) : Spares key s (s.crewEnd j) := by
  rcases crewEnd_cases s j with h | ⟨c, r, h⟩ | ⟨c, p, v, hv, h⟩ <;> rw [h]
  · exact Spares.refl key s
  · exact (spares_setCrew s c hj).trans (spares_takeFault key _ j r)
  · have hs : Spares key s v := by
      obtain rfl | ⟨id, n, hp, rfl⟩ := hv
      · exact spares_setCrew s c hj
      · refine (spares_setCrew s c hj).trans (spares_linkArrives _ j p id ?_)
        rw [State.crew_setCrew_self]
        exact scratch_arriveObj hp
    exact (hs.trans (spares_barpCheck key v c.party)).trans (spares_barcCheck key _ p.task)

/-- A crew with live lanes, and an agent, does not end. -/
theorem crewEnd_of_live {s : State} {key : Nat} (h : (s.crew key).role.isSome → (s.crew key).live ≠ 0) :
    s.crewEnd key = s := by
  unfold State.crewEnd
  dsimp only
  refine if_pos ?_
  cases hr : (s.crew key).role with
  | none => rfl
  | some r =>
    have hlive : decide ((s.crew key).live ≠ 0) = true := decide_eq_true (h (by rw [hr]; rfl))
    rw [hlive, Bool.or_true]

/-- Crews that end change nothing that one with live lanes holds. -/
theorem spares_crewsEnd {s : State} {key : Nat} (h : (s.crew key).role.isSome → (s.crew key).live ≠ 0) :
    Spares key s s.crewsEnd := by
  unfold State.crewsEnd
  generalize s.crews.map (·.1) = keys
  induction keys generalizing s with
  | nil => exact Spares.refl key s
  | cons j keys ih =>
    rw [List.foldl_cons]
    by_cases hj : j = key
    · subst hj
      rw [crewEnd_of_live h]
      exact ih h
    · have he := spares_crewEnd s hj
      have hc := he.crew
      simp only [Crew.holdings, Prod.mk.injEq] at hc
      obtain ⟨hrole, hlive, -⟩ := hc
      exact he.trans (ih (by rw [hrole, hlive]; exact h))

/-! ## LDS issues -/

/-- Offsets that are aligned and within the allotment do not fault (spec/05 R101). -/
theorem localFault_eq_none {cause : BitVec 8} {n len : Nat} {ofs : List (Nat × Nat)}
    (h : ∀ x ∈ ofs, x.2 % n = 0 ∧ x.2 + n ≤ len) : localFault cause n len ofs = none := by
  refine congrArg lowestFault (List.filterMap_eq_nil_iff.mpr fun x hx => ?_)
  obtain ⟨ha, hb⟩ := h x hx
  rw [if_neg (not_not.mpr ha), if_neg (Nat.not_lt.mpr hb)]

theorem hints_lds (f : Ctl) (d a : Operand) (ofs : BitVec 20) (ty : MemTy) (peer : Option (BitVec 3)) :
    Instr.hints (.lds f d a ofs ty peer) = f := rfl
theorem exec_lds (f : Ctl) (d a : Operand) (ofs : BitVec 20) (ty : MemTy) (peer : Option (BitVec 3)) (s : State) :
    exec (.lds f d a ofs ty peer) s = execLds f d a ofs ty peer s := rfl

/-- LDS whose offsets are sound is counted in L, with the bytes that the scratchpad holds (spec/05 R101). -/
theorem lds_runs {f : Ctl} {d a : Operand} {ofs : BitVec 20} {ty : MemTy} {peer : Option (BitVec 3)} {s : State} {key k : Nat}
    (h : Issues (.lds f d a ofs ty peer) s key) :
    let s0 := s.entered key f
    let c := s0.crew key
    let at_ := localAddrs s0 key c a ofs (accessLanes d (c.effLanes f))
    c.loads.length < 63 → s0.peerAway c peer = false → s0.peerParty c peer = some k →
    (∀ x ∈ at_, x.2 % MemTy.bytes ty = 0 ∧ x.2 + MemTy.bytes ty ≤ (s0.party k).scratchLen) →
    Runs (.lds f d a ofs ty peer) s key (s0.modCrew key fun c => c.addLoad
      { id := 0, pc := c.pc, dsts := [d], wide := ty.regs,
        bad := firstBad (s0.party k).scratchBad (MemTy.bytes ty) (at_.map (·.2))
        writes := at_.flatMap fun x => destWrites d ty.regs x.1
          (extendElem ty (fromBytesLE (Memory.readBytes (s0.party k).scratch x.2 (MemTy.bytes ty)))) }) := by
  dsimp only
  intro hroom haway hpeer hat
  refine (exec_lds f d a ofs ty peer s).trans (issue_done h ?_)
  have hfault := localFault_eq_none (cause := 0x08) hat
  unfold localAddrs at hfault
  simp only [hints_lds, counterFull_of_room hroom, haway, hpeer, State.localOfs, hfault, Bool.false_eq_true, if_false]
  rfl

theorem localAddrs_entered (s : State) (key : Nat) (f : Ctl) (a : Operand) (ofs : BitVec 20) (lanes : List Nat) :
    localAddrs (s.entered key f) key ((s.entered key f).crew key) a ofs lanes = localAddrs s key (s.crew key) a ofs lanes := by
  simp only [localAddrs, operand_entered]

/-! ## A load binds -/

theorem crew_dropOps (s : State) (key : Nat) : (s.dropOps key).crew key = (s.crew key).dropOps := by
  unfold State.dropOps
  dsimp only
  split
  · exact State.crew_setCrew_self s key _
  · exact State.crew_setCrew_self s key _

@[simp] theorem party_dropOps (s : State) (key k : Nat) : (s.dropOps key).party k = s.party k := by
  unfold State.dropOps
  dsimp only
  split <;> rfl

/-- Register writes leave the operations in flight. -/
theorem loads_foldl_apply (ws : List RegWrite) (c : Crew) : (ws.foldl RegWrite.apply c).loads = c.loads := by
  induction ws generalizing c with
  | nil => rfl
  | cons w ws ih =>
    rw [List.foldl_cons, ih, RegWrite.apply]
    split <;> rfl

theorem loads_bindDst (c : Crew) (cls : Cls) (m : MemPend) : (c.bindDst cls m).loads = c.loads := by
  unfold Crew.bindDst
  dsimp only
  split
  · exact loads_foldl_apply _ _
  · rfl

/-- A load that no other package answers and that acquires nothing binds its values and leaves L (spec/05 R98). -/
theorem bindLoad_eq {s : State} {key : Nat} {m : MemPend} (hack : m.ack = false) (hacq : m.acq = false) :
    s.bindLoad key m = (s.modCrew key fun c =>
      { c.bindDst .l m with loads := (c.bindDst .l m).loads.map fun (x : MemPend) =>
          if x.id = m.id then { m with done := true } else x }).dropOps key := by
  have hs : ¬s.severed m = true := by rw [State.severed, hack]; exact Bool.false_ne_true
  have ha : ¬m.acq = true := by rw [hacq]; exact Bool.false_ne_true
  rw [State.bindLoad, if_neg hs]
  exact congrArg (State.dropOps · key) (if_neg ha)

/-- A slot that holds no crew has no loads. -/
theorem listed_of_loads {s : State} {key : Nat} (h : (s.crew key).loads ≠ []) :
    ((Tbl.get? s.crews key).isSome || isAgentKey key) = true := by
  unfold State.crew at h
  cases hg : Tbl.get? s.crews key with
  | some c => rfl
  | none =>
    cases ha : isAgentKey key with
    | true => rfl
    | false => rw [hg, ha] at h; exact absurd rfl h

/-- The only load of a crew, when it binds, writes its registers and leaves L empty. -/
theorem holdings_bindLoad {s : State} {key : Nat} {m : MemPend} (hloads : (s.crew key).loads = [m]) (hack : m.ack = false)
    (hacq : m.acq = false) : ((s.bindLoad key m).crew key).holdings =
      (((s.crew key).bindDst .l m).role, ((s.crew key).bindDst .l m).live, ((s.crew key).bindDst .l m).vregs,
        ((s.crew key).bindDst .l m).sregs, []) := by
  rw [bindLoad_eq hack hacq, crew_dropOps, crew_modCrew_self _ (listed_of_loads (by rw [hloads]; simp))]
  simp [Crew.holdings, Crew.dropOps, loads_bindDst, hloads]

theorem party_bindLoad {s : State} {key : Nat} {m : MemPend} (k : Nat) (hack : m.ack = false) (hacq : m.acq = false) :
    (s.bindLoad key m).party k = s.party k := by
  rw [bindLoad_eq hack hacq, party_dropOps, State.party_modCrew]

theorem exec_loadBind (crew idx : Nat) (s : State) : exec (.loadBind crew idx) s = execLoadBind crew idx s := rfl

/-- LOAD_BIND of the oldest load, when nothing holds it (spec/05 R98). -/
theorem exec_loadBind_first {s : State} {key : Nat} {m : MemPend} {rest : List MemPend}
    (hr : s.relocking (dieOfCore (coreOf key)) = false) (hloads : (s.crew key).loads = m :: rest) (hdone : m.done = false)
    (hsvc : m.svc = 0) (hacq : m.acq = false) (hreq : m.req = none) :
    exec (.loadBind key 0) s = .next (s.bindLoad key m).crewsEnd.wakeCrews := by
  rw [exec_loadBind, execLoadBind, eventOf, eventOn_of hr]
  simp [hloads, hdone, hsvc, hacq, hreq]

theorem extractLsb'_ofNat_low (x : Nat) : (BitVec.ofNat 64 x).extractLsb' 0 32 = BitVec.ofNat 32 x := by
  apply BitVec.eq_of_toNat_eq
  simp only [BitVec.toNat_ofNat, BitVec.extractLsb'_toNat]
  omega

/-- The registers that a load of words into a v register writes. -/
theorem foldl_destWrites (c : Crew) (r : BitVec 8) (lanes : List Nat) (val : Nat → Nat) :
    (lanes.flatMap fun l => destWrites (.v r) 1 l (val l)).foldl RegWrite.apply c =
      c.writeDst false (.v r) lanes fun l => BitVec.ofNat 64 (val l) := by
  have hlow (x : Nat) : BitVec.ofNat 32 (x / 2 ^ (32 * 0)) = (BitVec.ofNat 64 x).extractLsb' 0 32 := by
    rw [extractLsb'_ofNat_low, Nat.mul_zero, Nat.pow_zero, Nat.div_one]
  have hone (c : Crew) (l x : Nat) :
      (destWrites (.v r) 1 l x).foldl RegWrite.apply c = c.writeV false r.toNat l (BitVec.ofNat 64 x) :=
    congrArg (c.setV r.toNat l) (hlow x)
  rw [Crew.writeDst, List.foldl_flatMap]
  simp only [hone]

/-- The load that an LDS of words from a scratchpad without errors counts. -/
def wordLoad (c : Crew) (r : BitVec 8) (store : Memory) (at_ : List (Nat × Nat)) : MemPend :=
  { id := c.nextId, pc := c.pc, dsts := [.v r],
    writes := at_.flatMap fun x => destWrites (.v r) 1 x.1 (fromBytesLE (Memory.readBytes store x.2 4)) }

/-- What the end of an instruction keeps of its crew's place and operations. -/
theorem Crew.Keeps.fields {c c' : Crew} (h : Crew.Keeps c c') : c'.role = c.role ∧ c'.live = c.live ∧ c'.party = c.party ∧
    c'.loads = c.loads ∧ c'.nextId = c.nextId := by
  rw [h]
  exact ⟨rfl, rfl, rfl, rfl, rfl⟩

/-- An LDS of words, alone in L: the state after it, in which its load waits to be bound (spec/05 R101). -/
theorem lds_word_next {f : Ctl} {r : BitVec 8} {a : Operand} {ofs : BitVec 20} {s : State} {key : Nat}
    (h : Issues (.lds f (.v r) a ofs .b32 none) s key) (hloads : (s.crew key).loads = [])
    (hbad : (s.party (s.crew key).party).scratchBad = [])
    (hat : ∀ x ∈ localAddrs s key (s.crew key) a ofs ((s.crew key).effLanes f),
      x.2 % 4 = 0 ∧ x.2 + 4 ≤ (s.party (s.crew key).party).scratchLen) :
    ∃ t, exec (.lds f (.v r) a ofs .b32 none) s = .next t ∧ Quiet s t key ∧ Crew.SameRegs (s.crew key) (t.crew key) ∧
      (t.crew key).role = (s.crew key).role ∧ (t.crew key).live = (s.crew key).live ∧
      (t.crew key).loads = [wordLoad (s.crew key) r (s.party (s.crew key).party).scratch
        (localAddrs s key (s.crew key) a ofs ((s.crew key).effLanes f))] := by
  obtain ⟨-, hlist, -⟩ := id h
  obtain ⟨hek, ⟨hev, hes, hep⟩, hepc⟩ := settles_entered s key f
  obtain ⟨herole, helive, heparty, heloads, heid⟩ := hek.fields
  have haddrs := localAddrs_entered s key f a ofs ((s.crew key).effLanes f)
  have hrun := lds_runs (k := (s.crew key).party) h
  simp only [accessLanes, Operand.isS, Bool.false_eq_true, if_false, effLanes_entered, haddrs, entered_party, hbad] at hrun
  specialize hrun (by simp [heloads, hloads]) rfl (congrArg some heparty) hat
  obtain ⟨hk, ⟨hv, hs, hp⟩, -⟩ := crew_advance_retire f (listed_modCrew _ (listed_entered f hlist))
  obtain ⟨hrole, hlive, -, hl, -⟩ := hk.fields
  rw [crew_modCrew_self _ (listed_entered f hlist)] at hv hs hp hrole hlive hl
  refine ⟨_, hrun, (quiet_entered s key f).trans ((quiet_modCrew _ key _).trans ((quiet_advance _ key).trans
    (quiet_retire _ key f false))), ⟨hv.trans hev, hs.trans hes, hp.trans hep⟩, hrole.trans herole, hlive.trans helive,
    hl.trans ?_⟩
  simp only [Crew.addLoad, heloads, hloads, heid, hepc]
  rfl

/-- Such a load binds as a write of its destination; what older loads left unwritten is this one's now (spec/05 R115). -/
theorem bindDst_wordLoad_eq (c c' : Crew) (r : BitVec 8) (store : Memory) (lanes : List Nat) (ofs : Nat → Nat) :
    ∃ ps, c'.bindDst .l (wordLoad c r store (lanes.map fun l => (l, ofs l))) =
      Crew.writeDst { c' with poison := ps } false (.v r) lanes
        fun l => BitVec.ofNat 64 (fromBytesLE (Memory.readBytes store (ofs l) 4)) := by
  let m := wordLoad c r store (lanes.map fun l => (l, ofs l))
  refine ⟨c'.poison.map fun p => { p with words := p.words.filter fun w => !m.words.contains w }, ?_⟩
  rw [← foldl_destWrites, ← List.flatMap_map (fun l => (l, ofs l))
    fun x => destWrites (.v r) 1 x.1 (fromBytesLE (Memory.readBytes store x.2 4))]
  rfl

/-- What the binding of such a load leaves in the crew: each lane has its word, and nothing else of the registers
changes (spec/00 R7, spec/05 R96, R98). -/
theorem bindDst_wordLoad {c c' : Crew} (r : BitVec 8) (store : Memory) {lanes : List Nat} (ofs : Nat → Nat)
    (hsame : Crew.SameRegs c c') (hl : ∀ l ∈ lanes, l < 1024) :
    let b := c'.bindDst .l (wordLoad c r store (lanes.map fun l => (l, ofs l)))
    (∀ x ∈ lanes.map fun l => (l, ofs l), b.v r.toNat x.1 = BitVec.ofNat 32 (fromBytesLE (Memory.readBytes store x.2 4))) ∧
      (∀ q l, l < 1024 → ¬(q = r.toNat ∧ l ∈ lanes) → b.v q l = c.v q l) ∧ b.sregs = c.sregs ∧ b.role = c'.role ∧
      b.live = c'.live := by
  obtain ⟨hv, hs, hp⟩ := hsame
  obtain ⟨ps, hb⟩ := bindDst_wordLoad_eq c c' r store lanes ofs
  rw [hb]
  obtain ⟨hlane, hother, hsregs, -⟩ :=
    (writes_writeDst { c' with poison := ps } false (.v r) lanes _ hl).congr (a' := c) ⟨hv, hs, hp⟩ ⟨rfl, rfl, rfl⟩
  obtain ⟨hrole, hlive, -⟩ := (keeps_writeDst { c' with poison := ps } false (.v r) lanes _).1.fields
  refine ⟨fun x hx => ?_, fun q l hlt hn => hother q l hlt fun hc => hn ⟨by simpa using hc.2, hc.1⟩, hsregs, hrole, hlive⟩
  obtain ⟨l, hm, rfl⟩ := List.mem_map.mp hx
  rw [(hlane l hm).1, extractLsb'_ofNat_low]

/-! ## The statement about LDS -/

/-- Settles O25: the LDS is counted with the bytes of the scratchpad, its binding writes them to the register of each lane, and the
crews that end at the binding leave this one's registers and every scratchpad alone. -/
theorem localLoadValue : Obligations.LocalLoadValue := by
  intro f r a ofs s key h c at_ hloads _ hbad hlive hrelock hat
  obtain ⟨-, -, hlanes, -⟩ := id h
  obtain ⟨t, ht, ⟨hst, -⟩, hsame, hrole, htlive, htloads⟩ := lds_word_next h hloads hbad hat
  have hmem : t.mem = s.mem := by rw [hst]
  have hscratch : (t.party c.party).scratch = (s.party c.party).scratch := by rw [hst]; rfl
  have hdies : t.relocking (dieOfCore (coreOf key)) = false := by rw [hst]; exact hrelock
  obtain ⟨hlane, hother, hsregs, hbrole, hblive⟩ := bindDst_wordLoad r (s.party c.party).scratch (lanes := c.effLanes f)
    (fun l => (s.operand key c false a l + ofs.signExtend 64).toNat % 2 ^ 32) hsame fun l hl =>
      Nat.lt_of_lt_of_le (mem_effLanes_lt hl) hlanes
  have hheld := holdings_bindLoad htloads rfl rfl
  have hfields := hheld
  simp only [Crew.holdings, Prod.mk.injEq] at hfields
  obtain ⟨hr, hl, -⟩ := hfields
  have hend := spares_crewsEnd (by rw [hr.trans (hbrole.trans hrole), hl.trans (hblive.trans htlive)]; exact hlive)
  have hspare := hend.trans (spares_wakeCrews key _)
  have hu := hspare.crew.trans hheld
  simp only [Crew.holdings, Prod.mk.injEq] at hu
  obtain ⟨-, -, huv, hus, hul⟩ := hu
  refine ⟨t, _, ht, exec_loadBind_first hdies htloads rfl rfl rfl rfl, fun x hx => ?_, fun q l hlt hn => ?_,
    hus.trans hsregs, hul, hspare.mem.trans ((bindLoad_mem _ _ _).trans hmem), (hspare.scratch _).trans ?_⟩
  · rw [Crew.v, huv]; exact hlane x hx
  · rw [Crew.v, huv]; exact hother q l hlt hn
  · rw [party_bindLoad c.party rfl rfl]; exact hscratch

end Sys2Proof.Machine

/-! Reducers: VDECL, VPTR, VFIN and the contributions to views (spec/08 R152-R155). -/
namespace Sys2Proof.Machine

/-! ## VDECL, VPTR and VFIN -/

theorem exec_vdecl (f : Ctl) (a b e : Operand) (kind : RedKind) (s : State) :
    exec (.vdecl f a b e kind) s = execVdecl f a b e kind s := rfl
theorem exec_vptr (f : Ctl) (d a : Operand) (s : State) : exec (.vptr f d a) s = execVptr f d a s := rfl
theorem exec_vfin (f : Ctl) (a : Operand) (raw : Bool) (s : State) : exec (.vfin f a raw) s = execVfin f a raw s := rfl
theorem hints_vfin (f : Ctl) (a : Operand) (raw : Bool) : Instr.hints (.vfin f a raw) = f := rfl

/-- VDECL with room in the pool declares its reducer and makes the view of the core (spec/08 R152). -/
theorem vdecl_runs {f : Ctl} {a b e : Operand} {kind : RedKind} {s : State} {key : Nat}
    (h : Issues (.vdecl f a b e kind) s key) :
    let s0 := s.entered key f
    let c := s0.crew key
    let ti := (s0.party c.party).task
    let id := (s0.uni key c false a).toNat
    let target := s0.uni key c true b
    let n := (s0.uni key c false e).toNat
    let d : Decl := { task := ti, id := id, kind := kind, target := target, count := n }
    s0.mayLead c false = true → c.eff f ≠ 0 → id < 16 → Tbl.get? (s0.task ti).decls id = none → 0 < n → n ≤ 65536 →
    d.viewBytes ≤ 65536 → target.toNat % RedKind.targetSize kind = 0 → s0.poolOwn ti (coreOf key) + d.viewBytes ≤ 262144 →
    s0.poolUsed (coreOf key) + d.viewBytes ≤ 262144 →
    Runs (.vdecl f a b e kind) s key ({ s0 with
      decls := Tbl.set s0.decls s0.nextDecl d, nextDecl := s0.nextDecl + 1
      views := Tbl.set s0.views s0.nextView { decl := s0.nextDecl, core := coreOf key }, nextView := s0.nextView + 1 }.modTask ti
        fun t => { t with decls := Tbl.set t.decls id s0.nextDecl, views := Tbl.set t.views s0.nextDecl s0.nextView }) := by
  intro s0 c ti id target n d hm he hid hfree hn hn' hb hal hown hused
  have hid' : ¬(decide (id > 15) || (Tbl.get? (s0.task ti).decls id).isSome) = true := by
    simp only [hfree, Option.isSome_none, Bool.or_false, decide_eq_true_eq]; omega
  have hsize : ¬(decide (n = 0) || decide (n > 65536) || decide (d.viewBytes > 65536)) = true := by
    simp only [Bool.or_eq_true, decide_eq_true_eq]; omega
  refine (exec_vdecl f a b e kind s).trans (leadOnly_done h rfl hm he ?_)
  exact (if_neg hid').trans ((if_neg hsize).trans ((if_neg (not_not.mpr hal)).trans
    ((if_neg (Nat.not_lt.mpr hown)).trans (if_neg (Nat.not_lt.mpr hused)))))

/-- VPTR gives the address of its reducer's view (spec/08 R154). -/
theorem vptr_computes {f : Ctl} {d a : Operand} {s : State} {key di vi : Nat} (h : Issues (.vptr f d a) s key)
    (hd : Tbl.get? (s.task (s.party (s.crew key).party).task).decls (s.uni key (s.crew key) false a).toNat = some di)
    (hv : Tbl.get? (s.task (s.party (s.crew key).party).task).views di = some vi) :
    Computes (.vptr f d a) f true d s key (s.crew key) fun _ =>
      BitVec.ofNat 64 (viewAddr (s.uni key (s.crew key) false a).toNat) := by
  obtain ⟨-, hlist, hlanes, -⟩ := id h
  have hparty : ((s.entered key f).crew key).party = (s.crew key).party := by rw [(settles_entered s key f).1]
  by_cases he : (s.crew key).eff f = 0
  · exact computes_of_no_lane hlist he ((exec_vptr f d a s).trans (once_empty h rfl (by rw [eff_entered, he])))
  · have hop : (s.entered key f).operandNat key ((s.entered key f).crew key) false a 0 =
        (s.uni key (s.crew key) false a).toNat := congrArg BitVec.toNat (operand_entered s key f false a 0)
    refine computes_of_writeUni hlanes hlist ((exec_vptr f d a s).trans (once_done h rfl (by rw [eff_entered]; exact he) ?_))
    simp only [hop, entered_task, entered_party, hparty, hd, hv, Option.bind_some]

/-- VFIN stores the final values of its reducer's view at the target and frees the declaration (spec/08 R155). -/
theorem vfin_runs {f : Ctl} {a : Operand} {raw : Bool} {s : State} {key di vi : Nat} {d : Decl} {v : View}
    {lanes : List LaneAcc} {u : State} (h : Issues (.vfin f a raw) s key) :
    let s0 := s.entered key f
    let c := s0.crew key
    let ti := (s0.party c.party).task
    let t := s0.task ti
    let id := (s0.uni key c false a).toNat
    s0.mayLead c false = true → c.stores.length < 63 → c.eff f ≠ 0 → Tbl.get? t.decls id = some di →
    Tbl.get? s0.decls di = some d →
    d.task = ti → t.children = [] → (raw = true → d.kind = .addf32 ∨ d.kind = .addbf16) → Tbl.get? t.views di = some vi →
    Tbl.get? s0.views vi = some v →
    let bs := v.finalBytes d raw
    let ps := linePieces d.target.toNat bs.length
    s0.access key .write 1 (ps.map fun p => (0, BitVec.ofNat 64 p.1)) = .ok lanes u →
    c.behindLoad 128 (ps.map fun p => BitVec.ofNat 64 p.1) = false →
    c.atService ((lanes.zip ps).map fun x => (x.1.pa, x.2.2)) = false →
    (∀ a ∈ lanes, u.storeHeld (coreOf key) a.attr .pkg a.pa = none) →
    let x := u.storePieces key .pkg lanes ps bs
    Runs (.vfin f a raw) s key (((({ x.1 with
      decls := Tbl.del x.1.decls di, views := x.1.views.filter fun y => y.2.decl != di }).modTask ti
        fun t => { t with decls := Tbl.del t.decls id, views := Tbl.del t.views di }).modCrew key fun c =>
          { c with ct := max c.ct x.2.ct }).modCrew key fun c =>
            c.addStore { id := 0, pc := c.pc, ct := x.2.wait, ack := x.2.ack, cut := x.1.anyCut lanes, va := d.target }) := by
  dsimp only
  intro hm hroom he hdi hd htask hch hraw hvi hv hacc hbehind hsvc hheld
  have hraw' : (raw && decide (d.kind ≠ .addf32) && decide (d.kind ≠ .addbf16)) = false := by
    cases raw
    · rfl
    · rcases hraw rfl with hk | hk <;> rw [hk] <;> rfl
  have hheld' := List.findSome?_eq_none_iff.mpr hheld
  refine (exec_vfin f a raw s).trans (issue_done h ?_)
  simp only [State.uni, State.operandNat, hints_vfin] at *
  simp only [hm, counterFull_of_room hroom, he, hdi, hd, hvi, hv, htask, hch, hraw', hacc, hbehind, hsvc, hheld',
    held?_none, Option.bind_some, Option.map_some, Bool.not_true, Bool.false_eq_true, if_false, List.isEmpty_nil,
    ne_eq, not_true_eq_false, decide_false, Bool.or_false]
  rfl

/-! ## Contributions to views -/

/-- What an access of view addresses answers: its contributions are made and it is counted, or the first lane that may
not contribute takes the view fault (spec/08 R153). -/
def contributing (s : State) (key : Nat) (x : Nat → Contribution) (views : List (Nat × Nat)) : Issue :=
  match s.contributeAll key x views with
  | .error l => .trap (viewFault views l)
  | .ok t => .done (t.modCrew key fun c => c.addStore { id := 0, pc := c.pc })

theorem contributing_ok {s t : State} {key : Nat} {x : Nat → Contribution} {views : List (Nat × Nat)}
    (h : s.contributeAll key x views = .ok t) :
    contributing s key x views = .done (t.modCrew key fun c => c.addStore { id := 0, pc := c.pc }) := by
  rw [contributing, h]

theorem contributing_error {s : State} {key : Nat} {x : Nat → Contribution} {views : List (Nat × Nat)} {l : Nat}
    (h : s.contributeAll key x views = .error l) : contributing s key x views = .trap (viewFault views l) := by
  rw [contributing, h]

/-- Addresses that are all of views, of a crew with a role. -/
theorem onlyViews_of {addrs : List (Nat × DWord)} {c : Crew} (hr : c.role.isSome = true) (hne : addrs ≠ [])
    (hv : ∀ y ∈ addrs, isViewAddr y.2.toNat = true) :
    (!addrs.isEmpty && c.role.isSome && (addrs.map fun y => (y.1, y.2.toNat)).all fun y => isViewAddr y.2) = true := by
  simpa [hr, hne, List.all_eq_true] using hv

/-- A contribution changes the views and nothing else. -/
theorem contribute_views {s t : State} {key va : Nat} {x : Contribution} (h : s.contribute key va x = some t) :
    t = { s with views := t.views } := by
  unfold State.contribute at h
  dsimp only at h
  split at h
  · cases h
  · obtain ⟨v, -, rfl⟩ := Option.map_eq_some_iff.mp h
    rfl

/-- So do the contributions of the lanes of an instruction. -/
theorem contributeAll_views {key : Nat} {x : Nat → Contribution} {views : List (Nat × Nat)} {s t : State}
    (h : s.contributeAll key x views = .ok t) : t = { s with views := t.views } := by
  induction views generalizing s with
  | nil => cases h; rfl
  | cons y views ih =>
    rw [State.contributeAll] at h
    split at h
    · cases h
    · next u hu => exact (ih h).trans (congrArg (fun z : State => { z with views := t.views }) (contribute_views hu))

/-- The lane that may not contribute is one of the access. -/
theorem contributeAll_error_mem {key : Nat} {x : Nat → Contribution} {views : List (Nat × Nat)} {s : State} {l : Nat}
    (h : s.contributeAll key x views = .error l) : ∃ va, (l, va) ∈ views := by
  induction views generalizing s with
  | nil => cases h
  | cons y views ih =>
    obtain ⟨k, va⟩ := y
    rw [State.contributeAll] at h
    split at h
    · cases h; exact ⟨va, List.mem_cons_self⟩
    · obtain ⟨va', hm⟩ := ih h
      exact ⟨va', List.mem_cons_of_mem _ hm⟩

/-- The view fault of a lane of the access names its reducer (spec/08 R153). -/
theorem viewFault_spec {views : List (Nat × Nat)} {l va : Nat} (h : (l, va) ∈ views) :
    (viewFault views l).cause = 0x19 ∧
      ∃ va, (l, va) ∈ views ∧ (viewFault views l).d1 = BitVec.ofNat 32 (viewNumber va) := by
  obtain ⟨y, hy⟩ : ∃ y, views.find? (fun x => x.1 = l) = some y :=
    Option.isSome_iff_exists.mp (List.find?_isSome.mpr ⟨(l, va), h, by simp⟩)
  have hl : y.1 = l := by simpa using List.find?_some hy
  refine ⟨rfl, y.2, hl ▸ List.mem_of_find?_eq_some hy, ?_⟩
  rw [viewFault, hy, Option.map_some, Option.getD_some]

theorem exec_st (f : Ctl) (a b : Operand) (ofs : BitVec 20) (ty : StTy) (rel : Bool) (sc : Scope) (s : State) :
    exec (.st f a b ofs ty rel sc) s = execSt f a b ofs ty rel sc s := rfl
theorem hints_st (f : Ctl) (a b : Operand) (ofs : BitVec 20) (ty : StTy) (rel : Bool) (sc : Scope) :
    Instr.hints (.st f a b ofs ty rel sc) = f := rfl
theorem exec_red (f : Ctl) (a b : Operand) (op : RedOp) (rel : Bool) (sc : Scope) (sz u : Bool) (s : State) :
    exec (.red f a b op rel sc sz u) s = execRed f a b op rel sc sz u s := rfl
theorem exec_fred (f : Ctl) (a b : Operand) (ft : FredTy) (op : MinMaxAdd) (fz cn sat rel : Bool) (sc : Scope) (s : State) :
    exec (.fred f a b ft op fz cn sat rel sc) s = execFred f a b ft op fz cn sat rel sc s := rfl

/-- ST of view addresses alone, after its release (spec/05 R97, spec/08 R153). -/
theorem exec_st_views {f : Ctl} {a b : Operand} {ofs : BitVec 20} {ty : StTy} {rel : Bool} {sc : Scope} {s s0 s1 : State}
    {key : Nat} {c : Crew} {addrs : List (Nat × DWord)} (h : Issues (.st f a b ofs ty rel sc) s key)
    (hs : s0 = s.entered key f) (hc : c = s0.crew key) (ha : addrs = globalAddrs s0 key c a ofs (c.effLanes f))
    (hroom : c.stores.length < 63) (hrel : Released s0 key rel sc s1) (hrole : c.role.isSome = true) (hne : addrs ≠ [])
    (hbehind : c.behindLoad (StTy.bytes ty) (addrs.map (·.2)) = false) (hv : ∀ y ∈ addrs, isViewAddr y.2.toNat = true) :
    exec (.st f a b ofs ty rel sc) s = issue (.st f a b ofs ty rel sc) s fun _ _ _ =>
      contributing s1 key (fun l => if ty = .b128 then .store (BitVec.ofNat 128 (s0.storeElem key c b ty l)) (s1.isLead c) else .other)
        (addrs.map fun y => (y.1, y.2.toNat)) := by
  subst hs hc ha
  refine (exec_st f a b ofs ty rel sc s).trans (issue_congr h ?_)
  rw [hints_st]
  dsimp only
  rw [fenced_of_released hrel]
  unfold globalAddrs at *
  simp only [counterFull_of_room hroom, hbehind, onlyViews_of hrole hne hv, Bool.false_eq_true, if_false, if_true]
  rfl

/-- RED and FRED of view addresses alone, after their release (spec/06 R122, R124, spec/08 R153). -/
theorem reduce_views {f : Ctl} {a b : Operand} {n : Nat} {sz rel : Bool} {sc : Scope} {op : MemOp} {x : DWord → Contribution}
    {s s1 : State} {key : Nat} {c : Crew} (hroom : c.stores.length < 63) (hrel : Released s key rel sc s1)
    (hrole : c.role.isSome = true) (hne : ((c.effLanes f).map fun l => (l, s1.operand key c true a l)) ≠ [])
    (hv : ∀ y ∈ (c.effLanes f).map fun l => (l, s1.operand key c true a l), isViewAddr y.2.toNat = true) :
    s.reduce key c f a b n sz rel sc op x = contributing s1 key (fun l => x (s1.operand key c sz b l))
      (((c.effLanes f).map fun l => (l, s1.operand key c true a l)).map fun y => (y.1, y.2.toNat)) := by
  unfold State.reduce
  rw [counterFull_of_room hroom, if_neg Bool.false_ne_true]
  dsimp only
  rw [fenced_of_released hrel]
  simp only [onlyViews_of hrole hne hv, if_true]
  rfl

/-- An instruction whose body contributes to views runs with its contributions made, or takes the view fault. -/
theorem contributes_or_faults {i : Instr} {s s1 : State} {key : Nat} {x : Nat → Contribution} {views : List (Nat × Nat)}
    (h : Issues i s key) (hi : Instr.isRejected i = false)
    (he : exec i s = issue i s fun _ _ _ => contributing s1 key x views) :
    (∀ t, s1.contributeAll key x views = .ok t → t = { s1 with views := t.views } ∧
      Runs i s key (t.modCrew key fun c => c.addStore { id := 0, pc := c.pc })) ∧
    (∀ l, s1.contributeAll key x views = .error l → NoRegionLoad s key → ∃ r : Report, r.cause = 0x19 ∧
      (∃ va, (l, va) ∈ views ∧ r.d1 = BitVec.ofNat 32 (viewNumber va)) ∧ Traps i s key r) := by
  refine ⟨fun t ht => ⟨contributeAll_views ht, he.trans (issue_done h (contributing_ok ht))⟩, fun l hl hn => ?_⟩
  obtain ⟨va, hm⟩ := contributeAll_error_mem hl
  obtain ⟨hc, hd⟩ := viewFault_spec hm
  exact ⟨_, hc, hd, he.trans (issue_trap h hn hi (contributing_error hl))⟩

/-! ## What a contribution does to its element -/

theorem toSigned_toNat (w : DWord) : toSigned 64 w.toNat = w.toInt := by
  rw [toSigned, BitVec.toInt_eq_toNat_cond, Nat.mod_eq_of_lt w.isLt]
  split <;> split <;> omega

/-- The smaller and the greater of two signed values of 64 bits (spec/08 Table 8-3). -/
theorem redMin_eq (x y : DWord) :
    RedOp.apply .min false 64 x.toNat y.toNat = (if y.toInt < x.toInt then y else x).toNat := by
  simp only [RedOp.apply, intOf, Bool.false_eq_true, if_false, toSigned_toNat]
  by_cases h : y.toInt < x.toInt
  · rw [if_pos h, if_neg (by omega)]
  · rw [if_neg h, if_pos (by omega)]
theorem redMax_eq (x y : DWord) :
    RedOp.apply .max false 64 x.toNat y.toNat = (if x.toInt < y.toInt then y else x).toNat := by
  simp only [RedOp.apply, intOf, Bool.false_eq_true, if_false, toSigned_toNat]
  rcases Int.lt_trichotomy x.toInt y.toInt with h | h | h
  · rw [if_pos h, if_pos (by omega)]
  · rw [BitVec.toInt_inj.mp h, ite_self, ite_self]
  · rw [if_neg (by omega), if_neg (by omega)]

theorem toNat_low (x : BitVec 128) : x.toNat % 2 ^ 64 = (x.extractLsb' 0 64).toNat := by
  simp [BitVec.extractLsb'_toNat]

/-- A keyed element that comes no earlier in serial order replaces one only when it is better (spec/16 R274). -/
theorem pickKeyed_min {e : ViewElem} {key : Nat} {w : BitVec 128} (h : e.key ≤ key) :
    pickKeyed false e { acc := 0, val := w, key := key } =
      if (w.extractLsb' 0 64).toInt < (e.val.extractLsb' 0 64).toInt then { acc := 0, val := w, key := key } else e := by
  have hk : ¬key < e.key := by omega
  simp only [pickKeyed, if_neg hk, bne_iff_ne, ne_eq, decide_eq_false_iff_not, not_not]
  split
  · next hx => rw [if_neg (by omega)]
  · rfl
theorem pickKeyed_max {e : ViewElem} {key : Nat} {w : BitVec 128} (h : e.key ≤ key) :
    pickKeyed true e { acc := 0, val := w, key := key } =
      if (e.val.extractLsb' 0 64).toInt < (w.extractLsb' 0 64).toInt then { acc := 0, val := w, key := key } else e := by
  have hk : ¬key < e.key := by omega
  simp only [pickKeyed, if_neg hk, bne_iff_ne, ne_eq, decide_eq_true_eq]
  rcases Int.lt_trichotomy (e.val.extractLsb' 0 64).toInt (w.extractLsb' 0 64).toInt with h | h | h
  · rw [if_neg (by omega), if_pos (by omega), if_pos h]
  · rw [if_pos h, if_neg (by omega)]
  · rw [if_neg (by omega), if_neg (by omega), if_neg (by omega)]

/-- A record whose serial key is not smaller than any of the log comes last. -/
theorem insertLog_last {l : List (Nat × BitVec 128)} {key : Nat} (r : BitVec 128) (h : ∀ y ∈ l, y.1 ≤ key) :
    insertLog l key r = l ++ [(key, r)] := by
  induction l with
  | nil => rfl
  | cons y l ih =>
    rw [insertLog, if_pos (h y List.mem_cons_self), ih fun z hz => h z (List.mem_cons_of_mem _ hz), List.cons_append]

/-- A contribution that Table 8-3 lists has the effect that it gives (spec/08 R153). -/
theorem contribute_of_contributes {v v' : View} {d : Decl} {ofs key : Nat} {x : Contribution}
    (h : Contributes v d ofs key x v') (hal : ofs % RedKind.step d.kind = 0) (hin : ofs / RedKind.step d.kind < d.count) :
    v.contribute d ofs key x = some v' := by
  have hguard : (decide (ofs % RedKind.step d.kind ≠ 0) || decide (ofs / RedKind.step d.kind ≥ d.count)) = false := by
    simp only [Bool.or_eq_false_iff, decide_eq_false_iff_not]; omega
  unfold Contributes at h
  unfold View.contribute
  simp only [hguard, Bool.false_eq_true, if_false]
  split at h
  case _ hk => simp only [hk] at h ⊢; rw [h]
  case _ hk => simp only [hk] at h ⊢; rw [h]
  case _ hk => simp only [hk] at h ⊢; rw [h, toNat_low, redMin_eq, BitVec.ofNat_toNat]
  case _ hk => simp only [hk] at h ⊢; rw [h, toNat_low, redMax_eq, BitVec.ofNat_toNat]
  case _ hk => simp only [hk] at h ⊢; rw [h]
  case _ hk => simp only [hk] at h ⊢; rw [h]
  case _ hk => simp only [hk] at h ⊢; rw [h.2, pickKeyed_min h.1]
  case _ hk => simp only [hk] at h ⊢; rw [h.2, pickKeyed_max h.1]
  case _ hk =>
    simp only [hk] at h ⊢
    obtain ⟨hi, hl, rfl⟩ := h
    rw [if_pos hi]
    simp [View.cutLog, insertLog_last _ hl]
  · exact h.elim

/-- One that it does not list, or that is not aligned or beyond the view, is a view fault (spec/08 R153). -/
theorem contribute_eq_none {v : View} {d : Decl} {ofs key : Nat} {x : Contribution}
    (h : ofs % RedKind.step d.kind ≠ 0 ∨ d.count ≤ ofs / RedKind.step d.kind ∨ x = .other ∨ (∃ w, x = .store w false) ∨
      ∃ ft op w, x = .fred ft op false w) : v.contribute d ofs key x = none := by
  unfold View.contribute
  dsimp only
  split
  · rfl
  · next hg =>
    simp only [Bool.or_eq_true, decide_eq_true_eq, not_or, not_not] at hg
    obtain ⟨hal, hin⟩ := hg
    rcases h with h | h | rfl | ⟨w, rfl⟩ | ⟨ft, op, w, rfl⟩
    · exact absurd hal h
    · exact absurd h hin
    · cases d.kind <;> rfl
    · cases d.kind <;> rfl
    · cases d.kind <;> cases ft <;> cases op <;> rfl

theorem contribute_of_viewOf {s : State} {key va vi : Nat} {x : Contribution} {v : View} {d : Decl}
    (h : s.viewOf (s.taskOf key) (viewNumber va) = some (vi, v, d)) :
    s.contribute key va x = (v.contribute d (viewOffset va) (contribKey (s.crew key).task (s.crew key).ped) x).map
      fun v => { s with views := Tbl.set s.views vi v } := by
  rw [State.contribute, h]

/-! ## An access that names a view address among others -/

/-- The view fault of a reducer's view. -/
def viewReport (va : DWord) : Report := { cause := 0x19, d1 := BitVec.ofNat 32 (viewNumber va.toNat) }

/-- A view address is the view fault of its lane, whatever its alignment (spec/08 R153). -/
theorem judge_view {s : State} {key n l : Nat} {need : Need} {va : DWord} (rest : List (Nat × DWord))
    (hr : (s.crew key).role.isSome = true) (hv : isViewAddr va.toNat = true) :
    s.judge key need n ((l, va) :: rest) =
      (.fault l (viewReport va) :: (s.judge key need n rest).1, (s.judge key need n rest).2) := by
  have ha : s.viewAccess key va.toNat = some (viewReport va) := by
    rw [State.viewAccess, hv, hr]; rfl
  rw [State.judge, ha]
  rfl

/-- A sound address that its page translates is an access of its lane. -/
theorem judge_ok {s : State} {key n l pa : Nat} {need : Need} {va : DWord} {a : Attr} (rest : List (Nat × DWord))
    (hv : isViewAddr va.toNat = false) (hf : addressFault n va = none)
    (ht : s.translate key need va.toNat = (.ok pa a, s)) :
    s.judge key need n ((l, va) :: rest) =
      (.ok { lane := l, va := va.toNat, pa := pa, attr := a } :: (s.judge key need n rest).1, (s.judge key need n rest).2) := by
  have ha : s.viewAccess key va.toNat = none := by
    rw [State.viewAccess, hv]; rfl
  rw [State.judge, ha, hf, ht]
  rfl

/-- A verdict that neither waits nor asks again. -/
def LaneVerdict.settled : LaneVerdict → Bool
  | .ok _ | .fault .. => true
  | _ => false

/-- An address of a view, or one that is sound and translates at once. -/
def TranslatesAtOnce (s : State) (key : Nat) (need : Need) (n : Nat) (va : DWord) : Prop :=
  isViewAddr va.toNat = true ∨ addressFault n va = none ∧ ∃ pa a, s.translate key need va.toNat = (.ok pa a, s)

/-- Lanes whose addresses are all settled are judged with no wait, and the state stays as it is. -/
theorem judge_settled {s : State} {key n : Nat} {need : Need} (hr : (s.crew key).role.isSome = true)
    {addrs : List (Nat × DWord)} (h : ∀ x ∈ addrs, TranslatesAtOnce s key need n x.2) :
    (∀ v ∈ (s.judge key need n addrs).1, v.settled = true) ∧ (s.judge key need n addrs).2 = s := by
  induction addrs with
  | nil => exact ⟨List.forall_mem_nil _, rfl⟩
  | cons x rest ih =>
    obtain ⟨l, va⟩ := x
    obtain ⟨hall, hst⟩ := ih fun x hx => h x (List.mem_cons_of_mem _ hx)
    cases hv : isViewAddr va.toNat with
    | true =>
      rw [judge_view rest hr hv]
      exact ⟨List.forall_mem_cons.mpr ⟨rfl, hall⟩, hst⟩
    | false =>
      obtain hview | ⟨hf, pa, a, ht⟩ := h (l, va) List.mem_cons_self
      · exact absurd (hv.symm.trans hview) Bool.false_ne_true
      · rw [judge_ok rest hv hf ht]
        exact ⟨List.forall_mem_cons.mpr ⟨rfl, hall⟩, hst⟩

/-- Lanes below the first view address do not fault. -/
theorem judge_faults_append {s : State} {key n : Nat} {need : Need} {low rest : List (Nat × DWord)}
    (hlow : ∀ x ∈ low, isViewAddr x.2.toNat = false) (h : ∀ x ∈ low, TranslatesAtOnce s key need n x.2) :
    (s.judge key need n (low ++ rest)).1.filterMap LaneVerdict.fault? =
      (s.judge key need n rest).1.filterMap LaneVerdict.fault? := by
  induction low with
  | nil => rfl
  | cons x low ih =>
    obtain ⟨l, va⟩ := x
    have hv : isViewAddr va.toNat = false := hlow (l, va) List.mem_cons_self
    obtain hview | ⟨hf, pa, a, ht⟩ := h (l, va) List.mem_cons_self
    · exact absurd (hv.symm.trans hview) Bool.false_ne_true
    · rw [List.cons_append, judge_ok _ hv hf ht]
      exact ih (fun x hx => hlow x (List.mem_cons_of_mem _ hx)) fun x hx => h x (List.mem_cons_of_mem _ hx)

/-- An access whose lanes are settled and of which one faults takes the fault of the lowest that does. -/
theorem access_fault_of_settled {s : State} {key n : Nat} {need : Need} {addrs : List (Nat × DWord)} {r : Report}
    (h : ∀ v ∈ (s.judge key need n addrs).1, v.settled = true)
    (hf : lowestFault ((s.judge key need n addrs).1.filterMap LaneVerdict.fault?) = some r) :
    s.access key need n addrs = .fault r := by
  unfold State.access State.accessAs
  generalize s.judge key need n addrs = j at h hf
  obtain ⟨vs, t⟩ := j
  dsimp only at h hf ⊢
  have hno (p : LaneVerdict → Bool) (hp : ∀ v : LaneVerdict, v.settled = true → p v = false) : ¬vs.any p = true := by
    simpa only [List.any_eq_true, not_exists, not_and, Bool.not_eq_true] using fun v hv => hp v (h v hv)
  rw [if_neg (hno _ fun v hv => ?_), if_neg (hno _ fun v hv => ?_), hf]
  all_goals
    cases v with
    | ok | fault => rfl
    | walking | behind | rejected => cases hv

/-- The report of the lowest lane that faults is that lane's, but for the lanes that it names. -/
theorem lowestFault_cons (l : Nat) (r : Report) (fs : List (Nat × Report)) :
    ∃ r' : Report, lowestFault ((l, r) :: fs) = some r' ∧ r'.cause = r.cause ∧ r'.d1 = r.d1 :=
  ⟨_, rfl, rfl, rfl⟩

/-- An access that names a view address among others is the view fault of the lowest lane that does (spec/08 R153). -/
theorem access_view_fault {s : State} {key n l : Nat} {need : Need} {low high : List (Nat × DWord)} {va : DWord}
    (hr : (s.crew key).role.isSome = true) (hv : isViewAddr va.toNat = true)
    (hlow : ∀ x ∈ low, isViewAddr x.2.toNat = false) (h : ∀ x ∈ low ++ high, TranslatesAtOnce s key need n x.2) :
    ∃ r : Report, r.cause = 0x19 ∧ r.d1 = BitVec.ofNat 32 (viewNumber va.toNat) ∧
      s.access key need n (low ++ (l, va) :: high) = .fault r := by
  have hall : ∀ x ∈ low ++ (l, va) :: high, TranslatesAtOnce s key need n x.2 := by
    intro x hx
    rcases List.mem_append.mp hx with hx | hx
    · exact h x (List.mem_append_left _ hx)
    · rcases List.mem_cons.mp hx with rfl | hx
      · exact .inl hv
      · exact h x (List.mem_append_right _ hx)
  have hfaults := judge_faults_append (rest := (l, va) :: high) hlow fun x hx => h x (List.mem_append_left _ hx)
  rw [judge_view high hr hv] at hfaults
  obtain ⟨r, hlf, hc, hd⟩ := lowestFault_cons l (viewReport va) ((s.judge key need n high).1.filterMap LaneVerdict.fault?)
  exact ⟨r, hc, hd, access_fault_of_settled (judge_settled hr hall).1 (hfaults ▸ hlf)⟩

/-! ## The statement about reducers -/

/-- Settles O40, each clause by the lemma about its form. -/
theorem reducers : Obligations.Reducers := by
  refine ⟨fun f a b e kind s key h => vdecl_runs h, fun f d a s key di vi h => vptr_computes h,
    fun f a raw s key di d vi v lanes u h => vfin_runs h, ?_, ?_, ?_⟩
  · intro i f rel sc addrs x s key s1 h s0 c hi hroom hrel hrole hne hv
    obtain ⟨a, b, ofs, ty, rfl, rfl, hbehind, rfl⟩ | ⟨a, b, op, sz, u, rfl, rfl, rfl⟩ |
      ⟨a, b, ft, op, fz, cn, sat, rfl, rfl, rfl⟩ := hi
    · exact contributes_or_faults h rfl (exec_st_views h rfl rfl rfl hroom hrel hrole hne hbehind hv)
    · exact contributes_or_faults h rfl
        ((exec_red f a b op rel sc sz u s).trans (issue_congr h (reduce_views hroom hrel hrole hne hv)))
    · exact contributes_or_faults h rfl
        ((exec_fred f a b ft op fz cn sat rel sc s).trans (issue_congr h (reduce_views hroom hrel hrole hne hv)))
  · intro s key va x vi v d h k ofs
    rw [contribute_of_viewOf h]
    exact ⟨fun v' hc hal hin => by rw [contribute_of_contributes hc hal hin]; rfl,
      fun hn => by rw [contribute_eq_none hn]; rfl⟩
  · intro s key need n low l va high hr hv hlow h
    exact access_view_fault hr hv hlow h

end Sys2Proof.Machine

/-! The instruction word: words that no instruction has, and the range of registers that a word may name (spec/01 R13, R20, R23). -/
namespace Sys2Proof

/-! ## Words that name no instruction -/

/-- Table 1-6 assigns neither MAJ 0x00 nor MAJ 0xFF. -/
theorem formOf_reserved {maj : BitVec 8} (h : maj = 0x00 ∨ maj = 0xFF) (min : BitVec 4) : formOf maj min = none := by
  rcases h with rfl | rfl <;> rfl

/-- A word whose opcode is unassigned has the lowest cause (spec/01 R23). -/
theorem decodeFor_unassigned {w : BitVec 96} (n : Nat) (h : (Raw.unpack w).form = none) : decodeFor n w = .error 1 := by
  simp only [decodeFor, h]

/-- Settles O2: the form of a reserved MAJ is looked at before anything else of the word. -/
theorem reservedMajRejected : Obligations.ReservedMajRejected :=
  fun w h n => decodeFor_unassigned n (formOf_reserved h (w.extractLsb' 84 4))

/-! ## A register range that is well formed and decodes to nothing -/

/-- OMMV of two rows whose destination begins at the last v register: the range v191 to v192 passes the file, but `Use.rangeOk`
bounds a range only when it is longer than a pair. -/
def ommvPastFile : Instr := .ommv ⟨false, 7, false, false, 0, false, 0⟩ (.v 191) (.v 0) (.imm 0) 0 1 .f32 .f32 false

theorem wellFormed_ommvPastFile : ommvPastFile.WellFormed := by decide

/-- R175 gives a range that passes the file cause 0x02. -/
theorem decodeWord_ommvPastFile : ∃ w, encode ommvPastFile = some w ∧ decodeWord w = .error 2 :=
  ⟨_, rfl, by decide⟩

/-- Refutes O1: OMMV with two rows at v191 is well formed, and its word is illegal with cause 0x02. -/
theorem not_decodeEncode : ¬ Obligations.DecodeEncode := by
  intro h
  obtain ⟨w, hw, hdec⟩ := h ommvPastFile wellFormed_ommvPastFile rfl
  obtain ⟨w', hw', herr⟩ := decodeWord_ommvPastFile
  obtain rfl : w = w' := Option.some.inj (hw.symm.trans hw')
  rw [herr] at hdec
  cases hdec

end Sys2Proof

/-! The step and the frame of an instruction: what runs when a crew issues, the checks of role and privilege, the rejected word, and what
completing an instruction leaves (spec/01 R10, R17, R18, R20-R22). -/
namespace Sys2Proof.Machine

/-! ## A step of a crew that issues -/

/-- Without an event from outside, the crew whose run goes on issues its next instruction (log 2). -/
theorem step_issueNext {s : State} {key : Nat} (hagenda : (started s).agenda = []) (hcur : (started s).cur = some key)
    (hcan : (started s).canIssue key = true) : step s = (started s).issueNext key := by
  change (started s).advanceOnce = _
  rw [State.advanceOnce, hagenda, hcur]
  simp only [Option.filter_some, hcan, if_true]

theorem issueNext_of_armedHold {s : State} {key : Nat} (h : (s.crew key).armedHold = true) :
    s.issueNext key = .next ((issuing s key).stalled key .armed) := if_pos h

/-- What a crew does with the word that it has fetched. -/
theorem issueNext_of_fetch {s t : State} {key : Nat} {w : BitVec 96} (h : (s.crew key).armedHold = false)
    (hw : (fetching s key).fetch key = .word w t) :
    s.issueNext key = match decodeFor (t.crew key).regc w with
      | .ok i => exec i t
      | .error cause => exec (.illegalInstruction (.illegal cause)) t := by
  have hf : ¬((issuing s key).crew key).armedHold = true := fun ht => Bool.false_ne_true (h.symm.trans ht)
  unfold fetching issuing at hw
  unfold issuing at hf
  simp only [State.issueNext, if_neg hf, hw] <;> rfl

/-- Settles O4: a step without an outside event is the issue of the crew whose run goes on. -/
theorem stepRunsDecoded : Obligations.StepRunsDecoded := by
  intro s key hagenda hcur hcan
  rw [step_issueNext hagenda hcur hcan]
  exact ⟨issueNext_of_armedHold, fun harm w t hw => issueNext_of_fetch harm hw⟩

/-! ## Faults of the checks before an instruction acts -/

theorem raise_of_armedHold {s : State} {key : Nat} (r : Report) (checked : Bool) (h : (s.crew key).armedHold = true) :
    s.raise key r checked = s.stalled key .armed := if_pos h

theorem raise_of_walking {s : State} {key : Nat} (r : Report) (checked : Bool) (h : (s.crew key).armedHold = false)
    (hw : (s.crew key).walking = true) : s.raise key r checked = s.stalled key .region := by
  simp [State.raise, h, hw]

/-- A user crew takes its fault once nothing may trap before it. -/
theorem raise_user {s : State} {key : Nat} (r : Report) (checked : Bool) (h : (s.crew key).armedHold = false)
    (hn : NoRegionLoad s key) (hr : (s.crew key).role.isSome = true) : s.raise key r checked = s.takeFault key r := by
  have hnone : (s.crew key).role.isNone = false := by rw [← Option.not_isSome, hr]; rfl
  simp [State.raise, h, show (s.crew key).walking = false from hn, hnone]

/-- A privileged agent meets a machine check of its core in its place (spec/13 R239). -/
theorem raise_agent {s : State} {key : Nat} (r : Report) (h : (s.crew key).armedHold = false) (hn : NoRegionLoad s key)
    (hr : (s.crew key).role = none) : s.raise key r true = s.agentCheck key r := by
  simp [State.raise, h, show (s.crew key).walking = false from hn, hr]

/-- The machine check stands in the report of the agent. -/
theorem report_agentCheck {s : State} {key : Nat} (r : Report)
    (h : ((Tbl.get? s.crews key).isSome || isAgentKey key) = true) :
    ((s.agentCheck key r).crew key).report = some { r with cause := 0x1F, sub := 3, pc := (s.crew key).pc } := by
  obtain ⟨hkeeps, -, -⟩ := settles_endRun
    (s.modCrew key fun c => { c with report := some { r with cause := 0x1F, sub := 3, pc := c.pc } }) key false
  change (((s.modCrew key _).endRun key false).crew key).report = _
  rw [hkeeps, crew_modCrew_self _ h]

/-! ## The rejected word -/

/-- The fault of each check of R22. -/
def Reject.report : Reject → Report
  | .align a => { cause := 0x04, addr := a }
  | .fetch cause sub addr d1 => { cause := cause, sub := sub, addr := addr, d1 := d1, need := .exec }
  | .illegal cause => { cause := 0x01, sub := cause }
  | .privilege => { cause := 0x02 }
  | .role => { cause := 0x03 }

theorem exec_illegalInstruction (why : Reject) (s : State) :
    exec (.illegalInstruction why) s = issue (.illegalInstruction why) s fun _ _ _ => .trap (Reject.report why) := by
  cases why <;> rfl

/-- A rejected word raises the fault of its check, and does nothing else: it has no hints, so it enters no region. -/
theorem illegalInstruction_raises {why : Reject} {s : State} {key : Nat} (h : Issues (.illegalInstruction why) s key) :
    exec (.illegalInstruction why) s = .next (s.raise key (Reject.report why) true) :=
  (exec_illegalInstruction why s).trans (issue_of_Issues _ h)

/-- Settles O11: the fault of the rejected word is raised at once, since nothing holds it. -/
theorem rejectedWordFaults : Obligations.RejectedWordFaults := by
  intro why s key h hn r
  obtain ⟨-, hlist, -, -, hheld, -⟩ := id h
  have harm := armedHold_of_heldBy hheld
  have hr : r = Reject.report why := by cases why <;> rfl
  rw [hr]
  exact ⟨fun hrole => (illegalInstruction_raises h).trans (congrArg _ (raise_user _ _ harm hn hrole)),
    fun hrole => ⟨(illegalInstruction_raises h).trans (congrArg _ (raise_agent _ harm hn hrole)), report_agentCheck _ hlist⟩⟩

/-! ## Role and privilege -/

/-- The checks of role and privilege, with which the frame of every instruction begins (spec/01 R22); `rest` is what comes after
them. -/
def checkRole (i : Instr) (s : State) (rest : Nat → Host.Outcome State Fault Refusal) : Host.Outcome State Fault Refusal :=
  match s.cur with
  | none => .fault .noCrew
  | some key =>
    match roleFault i.roles (s.crew key).role with
    | some cause => .next (s.raise key { cause := cause } true)
    | none => rest key

/-- Every instruction that has a word goes through these checks; DOT4 has one frame for its integer types and another for its
floating-point types. -/
theorem exec_eq_checkRole {i : Instr} (h : i.ctl?.isSome = true) (s : State) : ∃ rest, exec i s = checkRole i s rest := by
  cases i
  case dot4 f d a b e et ro => cases et <;> exact ⟨_, rfl⟩
  all_goals cases h <;> exact ⟨_, rfl⟩

/-- An instruction that its crew may not issue raises the fault of its role. -/
theorem exec_of_roleFault {i : Instr} {s : State} {key : Nat} {cause : BitVec 8} (h : i.ctl?.isSome = true)
    (hcur : s.cur = some key) (hr : roleFault i.roles (s.crew key).role = some cause) :
    exec i s = .next (s.raise key { cause := cause } true) := by
  obtain ⟨rest, he⟩ := exec_eq_checkRole h s
  rw [he]
  simp only [checkRole, hcur, hr]

/-- Only the privileged instructions leave every user role out (spec/01 Table 1-6). -/
theorem roles_eq_privOnly_or_user (i : Instr) :
    i.roles = Roles.privOnly ∨ (i.roles.copy || i.roles.tile || i.roles.vec) = true := by
  unfold Instr.roles
  split <;> decide

/-- The privileged instructions have words. -/
theorem ctl?_of_privOnly {i : Instr} (h : i.roles = Roles.privOnly) : i.ctl?.isSome = true := by
  cases i <;> cases h <;> rfl

/-- Check 4 of R22: a user crew lacks the privilege. -/
theorem roleFault_privileged (r : Role) : roleFault Roles.privOnly (some r) = some 0x02 := rfl

/-- Check 5 of R22: the Roles column does not name the crew's role. -/
theorem roleFault_user {i : Instr} {r : Role} (hi : i.roles ≠ Roles.privOnly)
    (hr : (match r with | .copy => i.roles.copy | .tile => i.roles.tile | .vec => i.roles.vec) = false) :
    roleFault i.roles (some r) = some 0x03 := by
  have hu : (!i.roles.copy && !i.roles.tile && !i.roles.vec) = false := by
    rw [← Bool.not_or, ← Bool.not_or, (roles_eq_privOnly_or_user i).resolve_left hi, Bool.not_true]
  refine (if_neg (ne_true_of_eq_false hu)).trans ?_
  cases r <;> exact if_neg (ne_true_of_eq_false hr)

theorem roleFault_agent {i : Instr} (h : i.roles.priv = false) : roleFault i.roles none = some 0x03 := by
  simp [roleFault, h]

/-- Settles O12: the frame of the instruction meets the fault of its role first, and raises it. -/
theorem roleChecked : Obligations.RoleChecked := by
  intro i s key hcur
  have hpriv {r : Role} (hr : (s.crew key).role = some r) (hi : i.roles = Roles.privOnly) :
      exec i s = .next (s.raise key { cause := 0x02 } true) :=
    exec_of_roleFault (ctl?_of_privOnly hi) hcur (by rw [hr, hi, roleFault_privileged])
  refine ⟨fun harm ⟨r, hr⟩ hi => ?_, fun harm hwalk ⟨r, hr⟩ hi => ?_, fun harm hn => ⟨fun ⟨r, hr⟩ hi => ?_,
    fun r hr hctl hi hrole => ?_, fun hr hctl hi => ?_⟩⟩
  · rw [hpriv hr hi, raise_of_armedHold _ _ harm]
  · rw [hpriv hr hi, raise_of_walking _ _ harm hwalk]
  · rw [hpriv hr hi, raise_user _ _ harm hn (by rw [hr]; rfl)]
  · rw [exec_of_roleFault hctl hcur (by rw [hr]; exact roleFault_user hi hrole), raise_user _ _ harm hn (by rw [hr]; rfl)]
  · rw [exec_of_roleFault hctl hcur (by rw [hr]; exact roleFault_agent hi), raise_agent _ harm hn hr]

/-! ## What completing an instruction leaves -/

/-- The crew whose run ends: its place in the run starts again. -/
theorem crew_endRun {s : State} {key : Nat} (re : Bool) (h : ((Tbl.get? s.crews key).isSome || isAgentKey key) = true) :
    ∃ won ready, (s.endRun key re).crew key =
      { s.crew key with runPos := 0, yields := false, wonAt := won, readyAt := ready } := by
  have hcount : ∀ core i n, (s.countCycles core i n).crews = s.crews := fun core i n => by
    unfold State.countCycles; split <;> rfl
  unfold State.endRun
  dsimp only
  rw [crew_leavePipe]
  split
  · exact ⟨_, _, crew_modCrew_self _ h⟩
  · exact ⟨_, _, (crew_modCrew_self _ (by rw [hcount]; exact h)).trans (by rw [crew_countCycles])⟩

/-- A crew that has left its slot owns no pipe of its core. -/
theorem not_owner_leavePipe (s : State) (key : Nat) : ∀ p ∈ ((s.leavePipe key).core (coreOf key)).pipes, p.2 ≠ key := by
  have hcore : (s.leavePipe key).core (coreOf key) =
      { s.core (coreOf key) with pipes := (s.core (coreOf key)).pipes.filter fun x => x.2 != key } := by
    refine Eq.trans ?_ (State.core_modCore_self s _ fun c => { c with pipes := c.pipes.filter fun x => x.2 != key })
    unfold State.leavePipe
    dsimp only
    split <;> rfl
  intro p hp
  rw [hcore] at hp
  simpa using (List.mem_filter.mp hp).2

/-- A crew whose run has ended owns none (spec/01 R18). -/
theorem not_owner_endRun (s : State) (key : Nat) (re : Bool) :
    ∀ p ∈ ((s.endRun key re).core (coreOf key)).pipes, p.2 ≠ key := not_owner_leavePipe _ key

/-- What `State.retire` does: the crew forgets the instruction's progress, and its run ends or not. -/
theorem retire_cases (s : State) (key : Nat) (f : Ctl) (moved : Bool)
    (h : ((Tbl.get? s.crews key).isSome || isAgentKey key) = true) :
    ∃ u : State, ((Tbl.get? u.crews key).isSome || isAgentKey key) = true ∧
      (u.crew key).inRegion = ((s.crew key).inRegion && !(f.re && !f.ie)) ∧
      (s.retire key f moved = u.endRun key f.re ∨ moved = false ∧ s.retire key f moved = u) := by
  unfold State.retire
  extract_lets hold u
  refine ⟨u, listed_modCrew _ h, congrArg Crew.inRegion (crew_modCrew_self _ h), ?_⟩
  split
  · exact .inl rfl
  · next hend => exact .inr ⟨by cases moved <;> simp_all, rfl⟩

/-- The region of the crew is over when its instruction has RE without IE (spec/13 R228). -/
theorem inRegion_retire {s : State} {key : Nat} (f : Ctl) (moved : Bool)
    (h : ((Tbl.get? s.crews key).isSome || isAgentKey key) = true) :
    ((s.retire key f moved).crew key).inRegion = ((s.crew key).inRegion && !(f.re && !f.ie)) := by
  obtain ⟨u, hu, hreg, he | ⟨-, he⟩⟩ := retire_cases s key f moved h
  · obtain ⟨won, ready, hc⟩ := crew_endRun f.re hu
    rw [he, hc]; exact hreg
  · rw [he]; exact hreg

/-- An instruction that has moved the PC ends its run (spec/01 R18). -/
theorem retire_moved {s : State} {key : Nat} (f : Ctl) (h : ((Tbl.get? s.crews key).isSome || isAgentKey key) = true) :
    ((s.retire key f true).crew key).runPos = 0 ∧ ∀ p ∈ ((s.retire key f true).core (coreOf key)).pipes, p.2 ≠ key := by
  obtain ⟨u, hu, -, he | ⟨hm, -⟩⟩ := retire_cases s key f true h
  · obtain ⟨won, ready, hc⟩ := crew_endRun f.re hu
    rw [he, hc]; exact ⟨rfl, not_owner_endRun u key f.re⟩
  · cases hm

/-- Settles O6: what completes an instruction leaves everything of the package and the registers of the crew, and a moved PC ends the
run. -/
theorem completionFrame : Obligations.CompletionFrame := by
  refine ⟨fun s key f h => ?_, fun s key f h => ?_⟩
  · obtain ⟨hkeeps, hregs, hpc⟩ := crew_advance_retire f h
    have hadv : ((s.advance key).crew key).inRegion = (s.crew key).inRegion := by
      rw [State.advance, crew_modCrew_self _ h]
    refine ⟨(quiet_advance s key).trans (quiet_retire _ key f false), hpc, ?_, hregs, fun a => ?_, ?_⟩
    · exact Crew.Keeps.trans (b := { s.crew key with pc := (s.crew key).pc + 12 }) rfl hkeeps
    · exact congrArg (Memory.read · a) ((retire_mem _ key f false).trans (advance_mem s key))
    · exact (inRegion_retire (s := s.advance key) f false (listed_modCrew _ h)).trans (congrArg (· && !(f.re && !f.ie)) hadv)
  · obtain ⟨hkeeps, hregs, hpc⟩ := settles_retire s key f true
    obtain ⟨hrun, hpipes⟩ := retire_moved f h
    exact ⟨quiet_retire s key f true, hpc, hkeeps, hregs, fun a => congrArg (Memory.read · a) (retire_mem s key f true),
      hrun, hpipes⟩

end Sys2Proof.Machine

/-! Branches: BRA and CALL, BRX and RET (spec/01 R10-R12, spec/04 R84, R86, R88, R89). -/
namespace Sys2Proof.Machine

/-! ## BRA and CALL -/

theorem exec_bra (f : Ctl) (ofs : BitVec 20) (s : State) :
    exec (.bra f ofs) s = issue (.bra f ofs) s (branch f ofs id) := rfl
theorem exec_call (f : Ctl) (d : Operand) (ofs : BitVec 20) (s : State) :
    exec (.call f d ofs) s = issue (.call f d ofs) s
      (branch f ofs fun c => c.writeDst true d (c.effLanes f) fun _ => c.pc + 12) := rfl

/-- A divergence with one other part, for a crew whose %FMT and stack are known (spec/04 R86). -/
theorem diverge_one {x : Crew} {fmt : Word} {stack : List StackEntry} (hfmt : x.fmt = fmt) (hstack : x.stack = stack)
    (first other : DWord × Mask) : x.diverge first [other] =
      { x with pc := first.1, mask := first.2, stack := .pending other.1 other.2 fmt :: markJoin fmt stack } := by
  subst hfmt hstack
  rfl

section
variable {f : Ctl} {ofs : BitVec 20} {link : Crew → Crew} {s : State} {key : Nat} {c : Crew}

theorem branch_no_lane (he : c.eff f = 0) : branch f ofs link s key c = .done s := if_pos he

theorem branch_every_lane (he : c.eff f ≠ 0) (ha : c.eff f = c.active) :
    branch f ofs link s key c = .jump (s.setCrew key { link c with pc := c.pc + 12 * ofs.signExtend 64 }) :=
  (if_neg he).trans (if_pos ha)

theorem branch_diverges (he : c.eff f ≠ 0) (ha : c.eff f ≠ c.active) (hroom : c.stack.length < 32)
    (hfmt : (link c).fmt = c.fmt) (hstack : (link c).stack = c.stack) :
    branch f ofs link s key c = .jump (s.setCrew key
      { link c with pc := c.pc + 12, mask := c.active &&& ~~~(c.eff f),
                    stack := .pending (c.pc + 12 * ofs.signExtend 64) (c.eff f) c.fmt :: markJoin c.fmt c.stack }) := by
  refine (if_neg he).trans ((if_neg ha).trans ((if_neg (Nat.not_le.mpr hroom)).trans ?_))
  rw [diverge_one hfmt hstack]
  rfl

theorem branch_overflows (he : c.eff f ≠ 0) (ha : c.eff f ≠ c.active) (hfull : 32 ≤ c.stack.length) :
    branch f ofs link s key c = .trap { cause := 0x10, sub := 0 } :=
  (if_neg he).trans ((if_neg ha).trans (if_pos hfull))

end

/-- What a crew keeps when it writes its link: %FMT and the stack among it. -/
theorem Crew.Keeps.fmt_stack {c c' : Crew} (h : Crew.Keeps c c') : c'.fmt = c.fmt ∧ c'.stack = c.stack := by
  unfold Crew.Keeps at h
  exact ⟨by rw [h], by rw [h]⟩

end Sys2Proof.Machine

namespace Sys2Proof
open Machine

/-- Settles O20: BRA and CALL are the one branch of R88, CALL with its link written first. -/
theorem branch : Obligations.Branch := by
  refine ⟨fun f ofs s key h => ?_, fun f d ofs s key h => ?_⟩
  · exact ⟨fun he => issue_done h (branch_no_lane he), fun he ha => issue_jump h (branch_every_lane he ha),
      fun he ha hroom => issue_jump h (branch_diverges he ha hroom rfl rfl),
      fun he ha hfull hn => issue_trap h hn rfl (branch_overflows he ha hfull)⟩
  · obtain ⟨hfmt, hstack⟩ := (keeps_writeDst ((s.entered key f).crew key) true d (((s.entered key f).crew key).effLanes f)
      fun _ => ((s.entered key f).crew key).pc + 12).1.fmt_stack
    exact ⟨fun he => issue_done h (branch_no_lane he), fun he ha => issue_jump h (branch_every_lane he ha),
      fun he ha hroom => issue_jump h (branch_diverges he ha hroom hfmt hstack),
      fun he ha hfull hn => issue_trap h hn rfl (branch_overflows he ha hfull)⟩

end Sys2Proof

namespace Sys2Proof.Machine

/-! ## BRX and RET -/

theorem exec_brx (f : Ctl) (a : Operand) (s : State) : exec (.brx f a) s = issue (.brx f a) s (transfer f a) := rfl
theorem exec_ret (f : Ctl) (a : Operand) (s : State) : exec (.ret f a) s = issue (.ret f a) s (transfer f a) := rfl

/-- Whether a lane's target is not a multiple of 4 (spec/01 R10). -/
def badTarget (s : State) (key : Nat) (c : Crew) (a : Operand) (l : Nat) : Bool :=
  (s.operand key c true a l).extractLsb' 0 2 != 0

section
variable {f : Ctl} {a : Operand} {s : State} {key : Nat} {c : Crew}

theorem transfer_misaligned {l : Nat} (h : (c.effLanes f).find? (badTarget s key c a) = some l) :
    ∃ r : Report, r.cause = 0x04 ∧ r.addr = s.operand key c true a l ∧ transfer f a s key c = .trap r := by
  unfold badTarget at h
  unfold transfer
  simp only [h]
  exact ⟨_, rfl, rfl, rfl⟩

/-- With sound targets the groups of lanes decide. -/
theorem transfer_aligned (h : (c.effLanes f).find? (badTarget s key c a) = none) :
    transfer f a s key c = match targetGroups s key c f a with
      | [] => .done s
      | [g] => if (c.effLanes f).isEmpty then .done s else .jump (s.setCrew key { c with pc := g.1 })
      | g :: rest =>
        if c.stack.length + rest.length > Config.stackDepth then .trap stackOverflow
        else .jump (s.setCrew key (c.diverge g rest)) := by
  unfold badTarget at h
  unfold transfer
  simp only [h] <;> rfl

/-- With no effective lane, at most the active lanes make a group. -/
theorem targetGroups_no_lane (h : c.effLanes f = []) :
    targetGroups s key c f a = [] ∨ ∃ g, targetGroups s key c f a = [g] := by
  simp only [targetGroups, h, List.foldl_nil]
  split
  · exact .inl rfl
  · exact .inr ⟨_, rfl⟩

theorem transfer_no_lane (h : c.effLanes f = []) : transfer f a s key c = .done s := by
  rw [transfer_aligned (by rw [h]; rfl)]
  rcases targetGroups_no_lane (s := s) (key := key) (a := a) h with hg | ⟨g, hg⟩
  · rw [hg]
  · rw [hg]
    exact if_pos (by rw [h]; rfl)

end

section
variable {f : Ctl} {a : Operand} {s : State} {key : Nat} {c : Crew}

theorem transfer_one_target {g : DWord × Mask} (hne : c.effLanes f ≠ [])
    (h : (c.effLanes f).find? (badTarget s key c a) = none) (hg : targetGroups s key c f a = [g]) :
    transfer f a s key c = .jump (s.setCrew key { c with pc := g.1 }) := by
  rw [transfer_aligned h, hg]
  exact if_neg fun he => hne (List.isEmpty_iff.mp he)

/-- Several targets: a divergence, the lowest target first. -/
theorem transfer_targets {g g' : DWord × Mask} {rest : List (DWord × Mask)}
    (h : (c.effLanes f).find? (badTarget s key c a) = none) (hg : targetGroups s key c f a = g :: g' :: rest) :
    transfer f a s key c = if c.stack.length + (g' :: rest).length > 32 then .trap { cause := 0x10, sub := 0 }
      else .jump (s.setCrew key (c.diverge g (g' :: rest))) := by
  rw [transfer_aligned h, hg]
  rfl

end

/-- BRX and RET have one meaning. -/
theorem exec_transfer {i : Instr} {f : Ctl} {a : Operand} (hi : i = .brx f a ∨ i = .ret f a) (s : State) :
    exec i s = issue i s (transfer f a) ∧ Instr.hints i = f ∧ Instr.isRejected i = false := by
  rcases hi with rfl | rfl
  · exact ⟨exec_brx f a s, rfl, rfl⟩
  · exact ⟨exec_ret f a s, rfl, rfl⟩

/-- Settles O21: the groups of the lanes by target decide between going on, a jump, a divergence and the overflow. -/
theorem indexedBranch : Obligations.IndexedBranch := by
  intro i f a hi s key h
  obtain ⟨he, rfl, hrej⟩ := exec_transfer hi s
  refine ⟨fun l hl hn => ?_, fun hno => ?_, fun g hne hal hg => ?_, fun g g' rest hal hg hfull hn => ?_,
    fun g g' rest hal hg hroom => ?_⟩
  · obtain ⟨r, hcause, haddr, ht⟩ := transfer_misaligned hl
    exact ⟨r, hcause, haddr, he.trans (issue_trap h hn hrej ht)⟩
  · exact he.trans (issue_done h (transfer_no_lane hno))
  · exact he.trans (issue_jump h (transfer_one_target hne hal hg))
  · exact he.trans (issue_trap h hn hrej ((transfer_targets hal hg).trans (if_pos hfull)))
  · exact he.trans (issue_jump h ((transfer_targets hal hg).trans (if_neg (Nat.not_lt.mpr hroom))))

end Sys2Proof.Machine

/-! The fetch: a line of memory as a number, and the twelve bytes that a crew reads at its PC (spec/01 R9, R10, R19, spec/13 R224,
spec/15 R264). -/
namespace Sys2Proof.Machine

/-! ## The value of record of a line -/

/-- Below its first number a table in canonical form holds nothing. -/
theorem Sparse.get_of_lt {w lo k : Nat} {t : Sparse w} (h : Sparse.wfFrom lo t = true) (hk : k < lo) : Sparse.get t k = 0 := by
  induction t generalizing lo with
  | nil => rfl
  | cons x t ih =>
    obtain ⟨a, v⟩ := x
    simp only [Sparse.wfFrom, Bool.and_eq_true, decide_eq_true_eq] at h
    obtain ⟨⟨hlo, -⟩, ht⟩ := h
    rw [Sparse.get_cons, if_neg (show ¬k = a by omega)]
    exact ih ht (by omega)

/-- A byte put at its place in a line shows in the bits of that place, and nowhere else. -/
theorem getLsbD_placed (v : Byte) {i j b : Nat} (hi : i < 128) (hb : b < 8) :
    (BitVec.shiftLeft (v.setWidth 1024) (8 * j)).getLsbD (8 * i + b) = (decide (i = j) && v.getLsbD b) := by
  rw [show BitVec.shiftLeft (v.setWidth 1024) (8 * j) = v.setWidth 1024 <<< (8 * j) from rfl, BitVec.getLsbD_shiftLeft,
    BitVec.getLsbD_setWidth]
  rcases Nat.lt_trichotomy i j with h | rfl | h
  · rw [decide_eq_true (show 8 * i + b < 8 * j by omega), decide_eq_false (show ¬i = j by omega)]
    simp
  · rw [decide_eq_true (show 8 * i + b < 1024 by omega), decide_eq_false (show ¬8 * i + b < 8 * i by omega),
      show 8 * i + b - 8 * i = b by omega, decide_eq_true (show b < 1024 by omega)]
    simp
  · rw [BitVec.getLsbD_of_ge v (8 * i + b - 8 * j) (by omega), decide_eq_false (show ¬i = j by omega)]
    simp

/-- Puts a byte of memory at its place in a line. -/
def placeByte (acc : Line) (x : Nat × Byte) : Line := acc ||| BitVec.shiftLeft (x.2.setWidth 1024) (8 * (x.1 % 128))

theorem homeLine_eq (s : State) (ln : Nat) :
    s.homeLine ln = (s.mem.filter fun x => x.1 / 128 = ln).foldl placeByte 0 := rfl

/-- The bits of a line, byte by byte: a table in canonical form lists each address once. -/
theorem getLsbD_line {ln i b : Nat} (hi : i < 128) (hb : b < 8) {lo : Nat} {t : Sparse 8} (h : Sparse.wfFrom lo t = true)
    (acc : Line) : ((t.filter fun x => x.1 / 128 = ln).foldl placeByte acc).getLsbD (8 * i + b) =
      (acc.getLsbD (8 * i + b) || (Sparse.get t (ln * 128 + i)).getLsbD b) := by
  induction t generalizing lo acc with
  | nil => simp
  | cons x t ih =>
    obtain ⟨a, v⟩ := x
    simp only [Sparse.wfFrom, Bool.and_eq_true] at h
    obtain ⟨-, ht⟩ := h
    rw [Sparse.get_cons, List.filter_cons]
    by_cases ha : a / 128 = ln
    · rw [if_pos (decide_eq_true ha), List.foldl_cons, ih ht, placeByte, BitVec.getLsbD_or, getLsbD_placed v hi hb]
      by_cases hai : ln * 128 + i = a
      · rw [if_pos hai, decide_eq_true (show i = a % 128 by omega), Sparse.get_of_lt ht (show ln * 128 + i < a + 1 by omega)]
        simp
      · rw [if_neg hai, decide_eq_false (show ¬i = a % 128 by omega)]
        simp
    · rw [if_neg (by simpa using ha), ih ht, if_neg (show ¬ln * 128 + i = a by omega)]

/-- The bytes of a line are the bytes of memory (spec/00 R7). -/
theorem lineByte_homeLine {s : State} (h : Memory.wf s.mem = true) (ln : Nat) {i : Nat} (hi : i < 128) :
    lineByte (s.homeLine ln) i = s.mem.read (ln * 128 + i) := by
  refine BitVec.eq_of_getLsbD_eq fun b hb => ?_
  rw [lineByte, BitVec.getLsbD_extractLsb', decide_eq_true hb, Bool.true_and, homeLine_eq, getLsbD_line hi hb h]
  simp [Memory.read]

/-- Bytes that lie in one line, read from it. -/
theorem map_lineByte_homeLine {s : State} (h : Memory.wf s.mem = true) (ln i n : Nat) (hn : i + n ≤ 128) :
    (upto i n).map (lineByte (s.homeLine ln)) = s.mem.readBytes (ln * 128 + i) n := by
  induction n generalizing i with
  | zero => rfl
  | succ n ih => rw [upto, List.map_cons, lineByte_homeLine h ln (by omega), ih (i + 1) (by omega)]; rfl

/-! ## The way of a fetch -/

/-- A TLB entry that lets the access through translates it at once (spec/13 R224). -/
theorem translate_of_tlbFind {s : State} {key va : Nat} {need : Need} {e : TlbEntry} (hr : (s.crew key).role.isSome = true)
    (hf : s.tlbFind (coreOf key) (s.ctxOf key) va = some e) (hd : e.denies need = none) :
    s.translate key need va = (.ok (e.pa + (va - e.vbase)) e.attr, s) := by
  have hnone : ¬(s.crew key).role.isNone = true := by rw [← Option.not_isSome, hr]; exact Bool.false_ne_true
  rw [State.translate, if_neg hnone]
  simp only [hf, hd]

/-- Without a relock and without a retraining link nothing holds a read of an unleased line on its way (spec/18 R287, spec/27
R364). -/
theorem fetchHeld_calm {s : State} {core pa : Nat} {a : Attr} (hlc : a.lc = 0) (hrep : a.rep = false)
    (hrelock : ∀ d, s.relocking d = false) (htrain : s.retraining = []) : s.fetchHeld core a pa = none := by
  have hessia : ∀ d, s.essiaBusy d = false := fun d => by rw [State.essiaBusy, htrain]; rfl
  have hports : s.portsBusy = false := by
    simp only [State.portsBusy, State.unlinked, htrain, List.contains_nil, Bool.or_false, Bool.not_not]
    cases hup : (upto 0 16).any s.portUp
    · rfl
    · rw [Bool.true_and, ← List.not_any_eq_all_not, hup]; rfl
  have hway : s.wayHeld core (a.die pa) = none := by
    simp [State.wayHeld, hrelock, hessia]
  have hport : s.portHeld (dieOfCore core) = none := by simp [State.portHeld, hports, hessia]
  simp [State.fetchHeld, State.readHeld, State.homeHeld, hlc, hrep, hway, hport]

/-- The state in which the instruction cache of a core has taken a line from its home. -/
def State.cacheLine (s : State) (core ln : Nat) : State :=
  s.modCore core fun c => { c with icache := fillCache c.icache icacheLines ln (s.homeLine ln) }

theorem core_cacheLine (s : State) (core ln k : Nat) :
    (s.cacheLine core ln).core k = { s.core k with icache := ((s.cacheLine core ln).core k).icache } := by
  unfold State.cacheLine
  rw [State.core_modCore]
  split
  · next h => rw [h]
  · rfl

/-- An unleased line that the instruction cache does not hold is read at its home, and kept in the cache (spec/01 R19, spec/12
R209). -/
theorem fetchLine_miss {s : State} {core ln : Nat} {a : Attr} (hlc : a.lc = 0) (hrep : a.rep = false)
    (h : Tbl.get? (s.core core).icache ln = none) : s.fetchLine core a ln = (s.homeLine ln, s.cacheLine core ln) := by
  simp [State.fetchLine, h, State.readLine, hlc, hrep, State.cacheLine]

theorem charge_eq (s : State) (key kind n : Nat) : s.charge key kind n = { s with budgets := (s.charge key kind n).budgets } := by
  unfold State.charge State.chargeClass
  split <;> rfl

/-- A fetch is charged, and nothing else of the package changes by that. -/
theorem fetchCharge_eq (s : State) (key : Nat) (a : Attr) (pa : Nat) :
    s.fetchCharge key a pa = { s with budgets := (s.fetchCharge key a pa).budgets } := by
  unfold State.fetchCharge
  split
  · rfl
  · exact charge_eq s key 3 _

/-- A piece of an instruction that translates and that nothing holds. -/
theorem fetchAll_cons {s : State} {key va n pa : Nat} {a : Attr} (rest : List (Nat × Nat)) (bs : List Byte)
    (ht : s.translate key .exec va = (.ok pa a, s)) (hbad : s.badAt pa n = false) (hcut : s.cutOff pa = false)
    (hheld : s.fetchHeld (coreOf key) a pa = none) : s.fetchAll key ((va, n) :: rest) bs =
      ((s.fetchCharge key a pa).fetchPart (coreOf key) a pa n).2.fetchAll key rest
        (bs ++ ((s.fetchCharge key a pa).fetchPart (coreOf key) a pa n).1) := by
  rw [State.fetchAll]
  simp only [ht, hbad, hcut, hheld, Bool.false_eq_true, if_false]

/-- An aligned PC whose twelve bytes lie in one line is one piece (spec/01 R9). -/
theorem fetch_one_line {s : State} {key : Nat} (hal : (s.crew key).pc.toNat % 4 = 0) (hline : (s.crew key).pc.toNat % 128 ≤ 116)
    (hpc : (s.crew key).pc.toNat < 2 ^ 56) : s.fetch key = s.fetchAll key [((s.crew key).pc.toNat, 12)] [] := by
  have htop : (s.crew key).pc.extractLsb' 56 8 = 0 := by
    apply BitVec.eq_of_toNat_eq
    rw [BitVec.extractLsb'_toNat, Nat.shiftRight_eq_div_pow, Nat.div_eq_of_lt hpc]
    rfl
  rw [State.fetch, fetchPieces, if_pos hline]
  exact (if_neg (not_not.mpr hal)).trans (if_neg (not_not.mpr htop))

/-- The piece of an unleased line that misses the instruction cache holds the bytes of memory. -/
theorem fetchPart_miss {s : State} {core pa n : Nat} {a : Attr} (hwf : Memory.wf s.mem = true) (hlc : a.lc = 0)
    (hrep : a.rep = false) (hmiss : Tbl.get? (s.core core).icache (lineOf pa) = none) (hline : pa % 128 + n ≤ 128) :
    s.fetchPart core a pa n = (s.mem.readBytes pa n, s.cacheLine core (lineOf pa)) := by
  rw [State.fetchPart, fetchLine_miss hlc hrep hmiss]
  simp only [map_lineByte_homeLine hwf _ _ _ hline, lineOf, Nat.div_add_mod']

/-- Settles O5: the one piece of the fetch misses the instruction cache and is read at its home. -/
theorem fetchReadsMemory : Obligations.FetchReadsMemory := by
  refine ⟨fun s key e hwf hrole hal hline hpc htlb hx hlc hrep hvb hpa hle hmiss hbad hcut hrelock htrain => ?_,
    fun s key h => if_pos h⟩
  have htrans := translate_of_tlbFind (need := .exec) hrole htlb (if_pos hx)
  have hmod : (e.pa + ((s.crew key).pc.toNat - e.vbase)) % 128 + 12 ≤ 128 := by omega
  generalize e.pa + ((s.crew key).pc.toNat - e.vbase) = pa at *
  obtain ⟨budgets, hu⟩ : ∃ b, s.fetchCharge key e.attr pa = { s with budgets := b } := ⟨_, fetchCharge_eq s key e.attr pa⟩
  have hpart := fetchPart_miss (s := s.fetchCharge key e.attr pa) (core := coreOf key) (a := e.attr)
    (by rw [hu]; exact hwf) hlc hrep (by rw [hu]; exact hmiss) hmod
  refine ⟨(s.fetchCharge key e.attr pa).cacheLine (coreOf key) (lineOf pa), (fetch_one_line hal hline hpc).trans
    ((fetchAll_cons [] [] htrans hbad hcut (fetchHeld_calm hlc hrep hrelock htrain)).trans ?_), rfl, fun k => ?_⟩
  · rw [hpart, State.fetchAll, List.nil_append, hu]
  · rw [core_cacheLine, hu]
    rfl

end Sys2Proof.Machine

/-! Signals and tickets: requests to service crews, waits at the home of a word, and their answers (spec/01 R12, spec/06 R118,
R125-R127). -/
namespace Sys2Proof.Machine

/-! ## What an access and its writebacks leave of the crews -/

/-- A fold of updates that leave the crews as they are leaves them as they are. -/
theorem foldl_crews {β : Type} (g : State → β → State) (hg : ∀ s x, (g s x).crews = s.crews) (l : List β) (s : State) :
    (l.foldl g s).crews = s.crews := by
  induction l generalizing s with
  | nil => rfl
  | cons x l ih => exact (ih _).trans (hg s x)

@[simp] theorem crews_setL2 (s : State) (d ln : Nat) (x : L2Line) : (s.setL2 d ln x).crews = s.crews := rfl
@[simp] theorem crews_dropL1 (s : State) (core ln : Nat) : (s.dropL1 core ln).crews = s.crews := rfl
@[simp] theorem crews_keepCt (s : State) (d : Nat) (w : BitVec 16) (ct : Nat) : (s.keepCt d w ct).crews = s.crews :=
  foldl_crews _ (fun s i => by split <;> rfl) _ _
@[simp] theorem crews_writeBackKept (s : State) (d ln : Nat) : (s.writeBackKept d ln).1.crews = s.crews := crews_keepCt _ _ _ _
@[simp] theorem crews_replaceLine (s : State) (d ln : Nat) : (s.replaceLine d ln).crews = s.crews := by
  unfold State.replaceLine
  rw [crews_setL2]
  split
  · rfl
  · exact crews_writeBackKept s d ln
@[simp] theorem crews_flushLine (s : State) (core : Nat) (sc : Scope) (inv : Bool) (a : LaneAcc) :
    (s.flushLine core sc inv a).1.crews = s.crews := by
  unfold State.flushLine
  dsimp only
  cases inv <;> split <;> simp
@[simp] theorem crews_preAtomic (s : State) (core : Nat) (lanes : List LaneAcc) : (s.preAtomic core lanes).crews = s.crews :=
  foldl_crews _ (fun s a => crews_flushLine s core .die true a) lanes s
@[simp] theorem crews_charge (s : State) (key kind n : Nat) : (s.charge key kind n).crews = s.crews := by
  unfold State.charge; split <;> rfl

theorem crews_miss (s : State) (ctx who core va : Nat) (need : Need) : (s.miss ctx who core va need).2.crews = s.crews := by
  unfold State.miss
  dsimp only
  repeat' split
  all_goals rfl

/-- A translation starts walks, and changes no crew. -/
theorem crews_translate (s : State) (key : Nat) (need : Need) (va : Nat) : (s.translate key need va).2.crews = s.crews := by
  unfold State.translate
  dsimp only
  split
  · split <;> rfl
  · split
    · split <;> rfl
    · exact crews_miss ..

theorem crews_judge (s : State) (key : Nat) (need : Need) (align : Nat) (addrs : List (Nat × DWord)) :
    (s.judge key need align addrs).2.crews = s.crews := by
  induction addrs generalizing s with
  | nil => rfl
  | cons x rest ih =>
    have htr := crews_translate s key need x.2.toNat
    rw [State.judge]
    generalize s.translate key need x.2.toNat = tr at htr ⊢
    obtain ⟨v, u⟩ := tr
    cases s.viewAccess key x.2.toNat <|> addressFault align x.2 with
    | some r => exact ih s
    | none => cases v <;> exact (ih u).trans htr

/-- The state of an access that translates is the one in which its lanes have been judged. -/
theorem access_ok_state {s t : State} {key align : Nat} {need : Need} {addrs : List (Nat × DWord)} {lanes : List LaneAcc}
    (h : s.access key need align addrs = .ok lanes t) : t.crews = s.crews := by
  rw [← crews_judge s key need align addrs]
  unfold State.access State.accessAs at h
  dsimp only at h
  repeat' split at h
  all_goals cases h
  rfl

/-! ## Requests -/

/-- A request whose addresses translate, which waits for no older region load, and whose writebacks nothing holds (spec/06 R117,
R128). -/
theorem requested_ok {s t : State} {key align : Nat} {addrs : List (Nat × DWord)} {lanes : List LaneAcc}
    (hb : (s.crew key).behindLoad align (addrs.map (·.2)) = false) (ha : s.access key .both align addrs = .ok lanes t)
    (hf : t.flushHeld (coreOf key) .die true lanes = none) (body : List LaneAcc → State → Issue) :
    requested s key align addrs body =
      body lanes ((t.charge key 3 (t.flushBytes (coreOf key) .die true lanes)).preAtomic (coreOf key) lanes) := by
  refine (if_neg (ne_true_of_eq_false hb)).trans ?_
  rw [held, ha]
  simp only [hf, held?_none]

/-- A request that leaves is counted (spec/06 R118). -/
theorem request_of_requests {s u : State} {key : Nat} {c : Crew} {q : Request} (h : Requests s key c.pc q u) :
    s.request key c q = .done u := by
  obtain ⟨lanes, t, v, hb, ha, hf, hs, rfl⟩ := h
  rw [State.request, requested_ok hb ha hf]
  simp only [hs]

/-- The crew that asks is as it was when its request has been translated and its writebacks made. -/
theorem crew_requested {s t : State} {key align n : Nat} {need : Need} {addrs : List (Nat × DWord)} {lanes lanes' : List LaneAcc}
    (ha : s.access key need align addrs = .ok lanes t) (core k : Nat) :
    (((t.charge key 3 n).preAtomic core lanes').crew k) = s.crew k := by
  simp only [State.crew, crews_preAtomic, crews_charge, access_ok_state ha]

/-! ## SIGSET, SIGADD and TKSERVE -/

section
variable {s : State} {key : Nat} {c : Crew} {f : Ctl} {sc : Scope} {va : DWord} {align skip : Nat} {op : MemOp} {b : DWord}
  {dst : Option Operand} {sg : Bool}

/-- With no effective lane the operation is only counted (spec/01 R12). -/
theorem signalOp_no_lane (hroom : c.stores.length < 63) (he : c.eff f = 0) :
    s.signalOp key c f sc va align skip op b dst sg = .done (s.modCrew key fun c => c.addStore { id := 0, pc := c.pc }) :=
  (if_neg (ne_true_of_eq_false (counterFull_of_room hroom))).trans (if_pos he)

/-- With one it releases, and leaves as a request (spec/06 R125). -/
theorem signalOp_request {t u : State} (hroom : c.stores.length < 63) (he : c.eff f ≠ 0) (hal : addressFault align va = none)
    (hf : s.fence key .rel sc = .pass t)
    (hq : Requests t key c.pc { op := op, bytes := 8, align := 8, store := true, wide := Scope.wide sc, signal := sg, dst := dst
                                addrs := [((c.effLanes f).headD 0, va + BitVec.ofNat 64 skip)], b := fun _ => b } u) :
    s.signalOp key c f sc va align skip op b dst sg = .done u := by
  refine (if_neg (ne_true_of_eq_false (counterFull_of_room hroom))).trans ((if_neg he).trans ?_)
  simp only [hal, fenced, hf, request_of_requests hq]

end

theorem exec_sigset (f : Ctl) (a b : Operand) (sc : SigScope) (s : State) : exec (.sigset f a b sc) s =
    issue (.sigset f a b sc) s fun s key c =>
      s.signalOp key c f (SigScope.scope sc) (s.operand key c true a 0) 8 0 .exch (s.operand key c true b 0) none true := rfl
theorem exec_sigadd (f : Ctl) (d : Option Operand) (a b : Operand) (sc : SigScope) (s : State) : exec (.sigadd f d a b sc) s =
    issue (.sigadd f d a b sc) s fun s key c =>
      s.signalOp key c f (SigScope.scope sc) (s.operand key c true a 0) 8 0 .add (s.operand key c true b 0) d true := rfl
theorem exec_tkserve (f : Ctl) (a : Operand) (sc : SigScope) (s : State) : exec (.tkserve f a sc) s =
    issue (.tkserve f a sc) s fun s key c =>
      s.signalOp key c f (SigScope.scope sc) (s.operand key c true a 0) 16 8 .add 1 none false := rfl

/-- An instruction that issues a signal operation is counted, and with an effective lane leaves as a request. -/
theorem runs_signal {i : Instr} {s : State} {key : Nat} {f : Ctl} {sc : SigScope} {a : Operand} {align skip : Nat} {op : MemOp}
    {b : DWord} {dst : Option Operand} {sg : Bool} {body : State → Nat → Crew → Issue} (hx : exec i s = issue i s body)
    (h : Issues i s key) (hints : Instr.hints i = f) :
    let s0 := s.entered key f
    let c := s0.crew key
    body s0 key c = s0.signalOp key c f (SigScope.scope sc) (s0.operand key c true a 0) align skip op b dst sg →
    c.stores.length < 63 →
    (c.eff f = 0 → Runs i s key (s0.modCrew key fun c => c.addStore { id := 0, pc := c.pc })) ∧
    (∀ t u, c.eff f ≠ 0 → addressFault align (s0.operand key c true a 0) = none →
      s0.fence key .rel (SigScope.scope sc) = .pass t →
      Requests t key c.pc { op := op, bytes := 8, align := 8, store := true, wide := Scope.wide (SigScope.scope sc), signal := sg
                            dst := dst, addrs := [((c.effLanes f).headD 0, s0.operand key c true a 0 + BitVec.ofNat 64 skip)]
                            b := fun _ => b } u →
      Runs i s key u) := by
  subst hints
  intro s0 c hbody hroom
  exact ⟨fun he => hx.trans (issue_done h (hbody.trans (signalOp_no_lane hroom he))),
    fun t u he hal hf hq => hx.trans (issue_done h (hbody.trans (signalOp_request hroom he hal hf hq)))⟩

/-! ## Waiting at the home -/

/-- A wait that is not there yet is registered at the home of its word (spec/06 R126). -/
theorem waitAtHome_registers {s t : State} {key lane : Nat} {va val : DWord} {cc : SigCond} {w : Wait} {x : LaneAcc}
    {lanes : List LaneAcc} (hw : s.waitsAtHome key = false) (hb : (s.crew key).behindLoad 8 [va] = false)
    (ha : s.access key .both 8 [(lane, va)] = .ok (x :: lanes) t) (hf : t.flushHeld (coreOf key) .die true (x :: lanes) = none) :
    let t1 := (t.charge key 3 (t.flushBytes (coreOf key) .die true (x :: lanes))).preAtomic (coreOf key) (x :: lanes)
    (t1.crew key).atService [(x.pa, 8)] = false → t1.cutOff x.pa = false → t1.homeHeld (coreOf key) x.attr x.pa = none →
    s.waitAtHome key va cc val w lane = .wait w (t1.modSvc (t1.svcOf x.attr x.pa) fun q =>
      { q with waiters := q.waiters ++ [{ crew := key, pa := x.pa, va := va, cc := cc, val := val }] }) := by
  intro t1 hs hcut hheld
  rw [show t1.crew key = s.crew key from crew_requested ha _ _] at hs
  rw [State.waitAtHome, if_neg (ne_true_of_eq_false hw), requested_ok hb ha hf]
  simp only [hs, Bool.false_eq_true, if_false]
  exact (if_neg (ne_true_of_eq_false hcut)).trans (by rw [hheld, held?_none])

/-! ## SIGWAIT and TICKET -/

theorem exec_sigwait (f : Ctl) (d a b : Operand) (cc : SigCond) (sc : SigScope) (s : State) :
    exec (.sigwait f d a b cc sc) s = execSigwait f d a b cc sc s := rfl
theorem exec_ticket (f : Ctl) (d a : Operand) (ex : Option Operand) (sc : SigScope) (s : State) :
    exec (.ticket f d a ex sc) s = execTicket f d a ex sc s := rfl

/-- The frame of an instruction that acts once and waits. -/
theorem once_wait {i : Instr} {f : Ctl} {s : State} {key : Nat} {body : State → Nat → Crew → Issue} {w : Wait} {t : State}
    (h : Issues i s key) (hf : Instr.hints i = f) (he : ((s.entered key f).crew key).eff f ≠ 0)
    (hb : body (s.entered key f) key ((s.entered key f).crew key) = .wait w t) :
    once i f s body = .next ((t.modCrew key fun x => x.notEntered (s.crew key)).stalled key w) := by
  subst hf
  exact issue_wait h ((if_neg he).trans hb)

section
variable {f : Ctl} {d a : Operand} {sc : SigScope} {s : State} {key : Nat}

/-- A SIGWAIT that has its answer acquires and writes it (spec/06 R125). -/
theorem sigwait_answered {b : Operand} {cc : SigCond} {v : DWord} {t : State} (h : Issues (.sigwait f d a b cc sc) s key)
    (he : ((s.entered key f).crew key).eff f ≠ 0) (hr : ((s.entered key f).crew key).reply = some v)
    (hbad : ((s.entered key f).crew key).phase ≠ badPhase) (hlost : ((s.entered key f).crew key).phase ≠ lostPhase)
    (hf : (s.entered key f).fence key .acq (SigScope.scope sc) = .pass t) :
    Runs (.sigwait f d a b cc sc) s key (t.modCrew key fun c => c.writeUni f d v) := by
  refine (exec_sigwait f d a b cc sc s).trans (once_done h rfl he ?_)
  simp only [hr, if_neg hbad, if_neg hlost, fenced, hf]

/-- The ticket that a TICKET waits for: its operand, or the one that it has drawn (spec/06 R127). -/
def awaitedTicket (s : State) (key : Nat) (c : Crew) : Option Operand → Option DWord
  | some b => some (s.operand key c true b 0)
  | none => c.ticket

/-- A TICKET whose turn has come acquires, writes its ticket and holds it no more (spec/06 R127). -/
theorem ticket_served {ex : Option Operand} {v n : DWord} {t : State} (h : Issues (.ticket f d a ex sc) s key)
    (he : ((s.entered key f).crew key).eff f ≠ 0)
    (hal : addressFault 16 ((s.entered key f).operand key ((s.entered key f).crew key) true a 0) = none)
    (hr : ((s.entered key f).crew key).reply = some v)
    (hbad : ((s.entered key f).crew key).phase ≠ badPhase) (hlost : ((s.entered key f).crew key).phase ≠ lostPhase)
    (hn : awaitedTicket (s.entered key f) key ((s.entered key f).crew key) ex = some n)
    (hf : (s.entered key f).fence key .acq (SigScope.scope sc) = .pass t) :
    Runs (.ticket f d a ex sc) s key (t.modCrew key fun c => { c.writeUni f d n with ticket := none }) := by
  refine (exec_ticket f d a ex sc s).trans (once_done h rfl he ?_)
  cases ex <;> simp only [awaitedTicket] at hn <;>
    simp only [State.uni, hal, hr, hn, if_neg hbad, if_neg hlost, fenced, hf, Option.getD_some]

/-- A SIGWAIT without an answer waits at the home of its word (spec/06 R126). -/
theorem sigwait_waits {b : Operand} {cc : SigCond} {u : State} (h : Issues (.sigwait f d a b cc sc) s key)
    (he : ((s.entered key f).crew key).eff f ≠ 0) (hr : ((s.entered key f).crew key).reply = none)
    (hw : (s.entered key f).waitAtHome key ((s.entered key f).operand key ((s.entered key f).crew key) true a 0) cc
      ((s.entered key f).operand key ((s.entered key f).crew key) true b 0) .sigwait
      ((((s.entered key f).crew key).effLanes f).headD 0) = .wait .sigwait u) :
    exec (.sigwait f d a b cc sc) s = .next ((u.modCrew key fun x => x.notEntered (s.crew key)).stalled key .sigwait) := by
  refine (exec_sigwait f d a b cc sc s).trans (once_wait h rfl he ?_)
  simp only [hr]
  exact hw

/-- A TICKET that holds its ticket waits until SERVE, at offset 8 of its object, equals it (spec/06 R127). -/
theorem ticket_waits {ex : Option Operand} {n : DWord} {u : State} (h : Issues (.ticket f d a ex sc) s key)
    (he : ((s.entered key f).crew key).eff f ≠ 0)
    (hal : addressFault 16 ((s.entered key f).operand key ((s.entered key f).crew key) true a 0) = none)
    (hr : ((s.entered key f).crew key).reply = none)
    (hn : awaitedTicket (s.entered key f) key ((s.entered key f).crew key) ex = some n)
    (hw : (s.entered key f).waitAtHome key ((s.entered key f).operand key ((s.entered key f).crew key) true a 0 + 8) .eq n
      .ticket ((((s.entered key f).crew key).effLanes f).headD 0) = .wait .ticket u) :
    exec (.ticket f d a ex sc) s = .next ((u.modCrew key fun x => x.notEntered (s.crew key)).stalled key .ticket) := by
  refine (exec_ticket f d a ex sc s).trans (once_wait h rfl he ?_)
  cases ex <;> simp only [awaitedTicket] at hn <;> simp only [State.uni, hal, hr, hn] <;> exact hw

/-- A TICKET without a ticket asks for one, and waits (spec/06 R127). -/
theorem ticket_draws {lanes : List LaneAcc} {t u : State} (h : Issues (.ticket f d a none sc) s key) :
    let s0 := s.entered key f
    let c := s0.crew key
    let va := s0.operand key c true a 0
    c.eff f ≠ 0 → addressFault 16 va = none → c.reply = none → c.ticket = none → c.drawing = false → c.behindLoad 8 [va] = false →
    s0.access key .both 8 [((c.effLanes f).headD 0, va)] = .ok lanes t → t.flushHeld (coreOf key) .die true lanes = none →
    let t1 := (t.charge key 3 (t.flushBytes (coreOf key) .die true lanes)).preAtomic (coreOf key) lanes
    let p : Packet := { crew := key, opId := (t1.crew key).nextId, store := false, wide := Scope.wide (SigScope.scope sc),
                        ctx := t1.ctxOf key, signal := false, dst := none, ops := [] }
    t1.sendPackets (packPackets p (t1.laneOps .add 8 (fun _ => 1) (fun _ => 0) lanes)) = some u →
    exec (.ticket f d a none sc) s = .next (((u.modCrew key fun c => { c with drawing := true }).modCrew key
      fun x => x.notEntered (s.crew key)).stalled key .ticket) := by
  intro s0 c va he hal hr hn hdraw hb ha hf t1 p hs
  refine (exec_ticket f d a none sc s).trans (once_wait h rfl he ?_)
  have hal' : addressFault 16 ((s.entered key f).operand key ((s.entered key f).crew key) true a 0) = none := hal
  have hr' : ((s.entered key f).crew key).reply = none := hr
  have hn' : ((s.entered key f).crew key).ticket = none := hn
  simp only [State.uni, hal', hr', hn']
  refine (if_neg (ne_true_of_eq_false hdraw)).trans ((requested_ok hb ha hf _).trans ?_)
  simp only [t1, p] at hs
  simp only [hs]

end

/-! ## The statement about signals and tickets -/

/-- Settles O34, each clause by the lemma about its form. -/
theorem signals : Obligations.Signals := by
  refine ⟨?_, fun f d a b cc sc s key v t h => sigwait_answered h, ?_, ?_, fun f d a sc s key lanes t u h => ticket_draws h⟩
  · intro i f sc a b dst op align skip sg s key s0 c hi h hroom
    obtain ⟨o, rfl, rfl, rfl, rfl, rfl, rfl, rfl⟩ | ⟨o, rfl, rfl, rfl, rfl, rfl, rfl⟩ | ⟨rfl, rfl, rfl, rfl, rfl, rfl, rfl⟩ := hi
    · exact runs_signal (exec_sigset f a o sc s) h rfl rfl hroom
    · exact runs_signal (exec_sigadd f dst a o sc s) h rfl rfl hroom
    · exact runs_signal (exec_tkserve f a sc s) h rfl rfl hroom
  · intro f d a ex sc s key v n t h s0 he hal hr hbad hlost hn hf
    exact ticket_served h he hal hr hbad hlost (by cases ex <;> exact hn) hf
  · intro i f sc va vw cc w wt s key x lanes t s0 c hi h he hr hwait hb ha hf t1 hs hcut hheld
    have hw := waitAtHome_registers (cc := cc) (val := w) (w := wt) hwait hb ha hf hs hcut hheld
    obtain ⟨d, a, b, rfl, rfl, rfl, rfl, rfl⟩ | ⟨d, a, ex, rfl, rfl, rfl, rfl, rfl, hal, hn⟩ := hi
    · exact sigwait_waits h he hr hw
    · exact ticket_waits h he hal hr (by cases ex <;> exact hn) hw

end Sys2Proof.Machine

/-! The integer arithmetic, logic, shifts and bit fields of the model on natural numbers, and the operations of words that they are
(spec/04 R63-R70). -/
namespace Sys2Proof.Machine

/-! ## Words as numbers -/

theorem intOf_toNat (u : Bool) {w : Nat} (x : BitVec w) : intOf u w x.toNat = bvInt u x := by
  have hmod : x.toNat % 2 ^ w = x.toNat := Nat.mod_eq_of_lt x.isLt
  cases u
  · simp only [intOf, bvInt, toSigned, hmod, BitVec.toInt_eq_toNat_cond, Bool.false_eq_true, if_false]
    cases w with
    | zero => simp [BitVec.of_length_zero]
    | succ n => rw [Nat.add_sub_cancel, Nat.pow_succ]; split <;> split <;> omega
  · simp only [intOf, bvInt, hmod, if_true]

theorem toSigned_eq_toInt {w : Nat} (x : BitVec w) : toSigned w x.toNat = x.toInt := intOf_toNat false x

/-- The integer of the low bits of a number is that of its low word. -/
theorem intOf_low (u : Bool) (w : Nat) {n : Nat} (x : BitVec n) : intOf u w x.toNat = bvInt u (x.setWidth w) := by
  rw [← intOf_toNat, BitVec.toNat_setWidth]
  simp only [intOf, toSigned, Nat.mod_mod]

theorem wrapInt_eq_toNat (w : Nat) (x : Int) : wrapInt w x = (BitVec.ofInt w x).toNat := (BitVec.toNat_ofInt x).symm

theorem clampInt_eq_toNat (u : Bool) (w : Nat) (x : Int) : clampInt u w x = (bvClamp u w x).toNat := by
  rw [clampInt, wrapInt_eq_toNat]
  cases u <;> simp [bvClamp, min_comm]

/-- Either reading of a word gives the word back. -/
@[simp] theorem ofInt_bvInt (u : Bool) {w : Nat} (x : BitVec w) : BitVec.ofInt w (bvInt u x) = x := by
  cases u <;> simp [bvInt]

theorem bvInt_inj (u : Bool) {w : Nat} {x y : BitVec w} (h : bvInt u x = bvInt u y) : x = y := by
  rw [← ofInt_bvInt u x, h, ofInt_bvInt]

theorem ofInt_bmod (w : Nat) (x : Int) : BitVec.ofInt w (x.bmod (2 ^ w)) = BitVec.ofInt w x :=
  BitVec.eq_of_toNat_eq (by rw [BitVec.toNat_ofInt, BitVec.toNat_ofInt, Int.bmod_emod])

/-! ## Integer arithmetic (spec/04 Table 4-1) -/

section
variable (u : Bool) {w : Nat} (x y z : BitVec w)

theorem toNat_add3 : (x.toNat + y.toNat + z.toNat) % 2 ^ w = (x + y + z).toNat := by
  rw [BitVec.toNat_add, BitVec.toNat_add, Nat.mod_add_mod]

theorem wrapInt_sub : wrapInt w ((x.toNat : Int) - y.toNat) = (x - y).toNat := by
  rw [wrapInt_eq_toNat, sub_eq_add_neg, BitVec.ofInt_add, BitVec.ofInt_neg]
  simp [sub_eq_add_neg]

theorem wrapInt_neg : wrapInt w (-toSigned w x.toNat) = (-x).toNat := by
  rw [wrapInt_eq_toNat, toSigned_eq_toInt, BitVec.ofInt_neg, BitVec.ofInt_toInt]

theorem natAbs_toSigned : (toSigned w x.toNat).natAbs % 2 ^ w = (if x.msb then -x else x).toNat := by
  have hx := x.isLt
  rw [toSigned_eq_toInt, BitVec.toInt_eq_msb_cond]
  split
  · rw [BitVec.toNat_neg]
    congr 1
    omega
  · exact Nat.mod_eq_of_lt hx

theorem minInt_toNat : (if intOf u w x.toNat ≤ intOf u w y.toNat then x.toNat else y.toNat) =
    (if bvInt u y < bvInt u x then y else x).toNat := by
  rw [intOf_toNat, intOf_toNat]
  by_cases h : bvInt u x ≤ bvInt u y
  · rw [if_pos h, if_neg (Int.not_lt.mpr h)]
  · rw [if_neg h, if_pos (Int.not_le.mp h)]

theorem maxInt_toNat : (if intOf u w x.toNat ≤ intOf u w y.toNat then y.toNat else x.toNat) =
    (if bvInt u x < bvInt u y then y else x).toNat := by
  rw [intOf_toNat, intOf_toNat]
  rcases Int.lt_trichotomy (bvInt u x) (bvInt u y) with h | h | h
  · rw [if_pos h.le, if_pos h]
  · rw [bvInt_inj u h]; simp
  · rw [if_neg (Int.not_le.mpr h), if_neg (Int.not_lt.mpr h.le)]

theorem wrapInt_mul : wrapInt w (intOf u w x.toNat * intOf u w y.toNat) = (x * y).toNat := by
  rw [wrapInt_eq_toNat, intOf_toNat, intOf_toNat, BitVec.ofInt_mul, ofInt_bvInt, ofInt_bvInt]

theorem wrapInt_mul_add : wrapInt w (intOf u w x.toNat * intOf u w y.toNat + z.toNat) = (x * y + z).toNat := by
  rw [wrapInt_eq_toNat, intOf_toNat, intOf_toNat, BitVec.ofInt_add, BitVec.ofInt_mul, ofInt_bvInt, ofInt_bvInt,
    BitVec.ofInt_natCast, BitVec.ofNat_toNat, BitVec.setWidth_eq]

theorem wrapInt_mulhi : wrapInt w (intOf u w x.toNat * intOf u w y.toNat / ((2 ^ w : Nat) : Int)) =
    (BitVec.ofInt w (bvInt u x * bvInt u y / 2 ^ w)).toNat := by
  rw [wrapInt_eq_toNat, intOf_toNat, intOf_toNat, Nat.cast_pow, Nat.cast_ofNat]

theorem toNat_mod_eq_zero_iff : y.toNat % 2 ^ w = 0 ↔ y = 0 := by
  rw [Nat.mod_eq_of_lt y.isLt]
  exact ⟨fun h => BitVec.eq_of_toNat_eq (by simpa using h), fun h => by simp [h]⟩

/-- Quotients truncated towards zero, of the numbers that the words stand for. -/
theorem ofInt_tdiv : BitVec.ofInt w ((bvInt u x).tdiv (bvInt u y)) = if u then x / y else x.sdiv y := by
  cases u
  · rw [if_neg Bool.false_ne_true, ← BitVec.ofInt_toInt (x := x.sdiv y), BitVec.toInt_sdiv, ofInt_bmod]
    rfl
  · rw [if_pos rfl, bvInt, bvInt, if_pos rfl, if_pos rfl, ← Int.ofNat_tdiv, BitVec.ofInt_natCast, ← BitVec.toNat_udiv,
      BitVec.ofNat_toNat, BitVec.setWidth_eq]

theorem ofInt_tmod : BitVec.ofInt w ((bvInt u x).tmod (bvInt u y)) = if u then x % y else x.srem y := by
  cases u
  · rw [if_neg Bool.false_ne_true, ← BitVec.ofInt_toInt (x := x.srem y), BitVec.toInt_srem]
    rfl
  · rw [if_pos rfl, bvInt, bvInt, if_pos rfl, if_pos rfl, ← Int.ofNat_tmod, BitVec.ofInt_natCast, ← BitVec.toNat_umod,
      BitVec.ofNat_toNat, BitVec.setWidth_eq]

theorem divNat_toNat : divNat u w x.toNat y.toNat = (if y = 0 then -1 else if u then x / y else x.sdiv y).toNat := by
  simp only [divNat, toNat_mod_eq_zero_iff, intOf_toNat, wrapInt_eq_toNat, ofInt_tdiv]
  split
  · rw [show (-1 : BitVec w) = BitVec.allOnes w from BitVec.neg_one_eq_allOnes, BitVec.toNat_allOnes]
  · rfl

theorem remNat_toNat : remNat u w x.toNat y.toNat = (if y = 0 then x else if u then x % y else x.srem y).toNat := by
  simp only [remNat, toNat_mod_eq_zero_iff, intOf_toNat, wrapInt_eq_toNat, ofInt_tmod]
  split
  · exact Nat.mod_eq_of_lt x.isLt
  · rfl
end

/-! ## Logic and shifts (spec/04 Table 4-2) -/

section
variable (u : Bool) {w : Nat} (x y z : BitVec w)

theorem toNat_andn : x.toNat &&& (2 ^ w - 1 - y.toNat % 2 ^ w) = (x &&& ~~~y).toNat := by
  rw [BitVec.toNat_and, BitVec.toNat_not, Nat.mod_eq_of_lt y.isLt]

theorem toNat_orn : x.toNat ||| (2 ^ w - 1 - y.toNat % 2 ^ w) = (x ||| ~~~y).toNat := by
  rw [BitVec.toNat_or, BitVec.toNat_not, Nat.mod_eq_of_lt y.isLt]

theorem toNat_complement : 2 ^ w - 1 - x.toNat % 2 ^ w = (~~~x).toNat := by
  rw [BitVec.toNat_not, Nat.mod_eq_of_lt x.isLt]

theorem toNat_shl (n : Nat) : (if n ≥ w then 0 else x.toNat * 2 ^ n % 2 ^ w) = (if w ≤ n then 0 else x <<< n).toNat := by
  split
  · rfl
  · rw [BitVec.toNat_shiftLeft, Nat.shiftLeft_eq]

theorem toNat_shr : (if y.toNat ≥ w then 0 else x.toNat / 2 ^ y.toNat) = (x >>> y).toNat := by
  rw [BitVec.ushiftRight_eq', BitVec.toNat_ushiftRight, Nat.shiftRight_eq_div_pow]
  split
  · next h => exact (Nat.div_eq_of_lt (Nat.lt_of_lt_of_le x.isLt (Nat.pow_le_pow_right (by omega) h))).symm
  · rfl

/-- A shift by more than the width leaves the sign alone, as one by the width does. -/
theorem toInt_div_min (n : Nat) : x.toInt / ((2 ^ min n w : Nat) : Int) = x.toInt / ((2 ^ n : Nat) : Int) := by
  rcases Nat.le_total n w with h | h
  · rw [Nat.min_eq_left h]
  · have hw : ((2 ^ w : Nat) : Int) ≤ ((2 ^ n : Nat) : Int) := by exact_mod_cast Nat.pow_le_pow_right (by omega) h
    have hx : (x.toNat : Int) < ((2 ^ w : Nat) : Int) := by exact_mod_cast x.isLt
    rw [Nat.min_eq_right h, BitVec.toInt_eq_msb_cond]
    split
    · rw [Int.ediv_eq_neg_one_of_neg_of_le (by omega) (by omega), Int.ediv_eq_neg_one_of_neg_of_le (by omega) (by omega)]
    · rw [Int.ediv_eq_zero_of_lt (by omega) (by omega), Int.ediv_eq_zero_of_lt (by omega) (by omega)]

theorem sarNat_toNat : sarNat w x.toNat y.toNat = (x.sshiftRight y.toNat).toNat := by
  rw [sarNat, toSigned_eq_toInt, toInt_div_min, wrapInt_eq_toNat, BitVec.sshiftRight, Int.shiftRight_eq_div_pow]

/-- The bits that a left shift by `k` keeps, and those that it moves out, side by side. -/
theorem mul_pow_add_mod_eq_or {k x : Nat} (hk : k ≤ w) (hx : x < 2 ^ w) :
    (x * 2 ^ k + x / 2 ^ (w - k)) % 2 ^ w = x <<< k % 2 ^ w ||| x >>> (w - k) := by
  have hsplit : 2 ^ (w - k) * 2 ^ k = 2 ^ w := by rw [← Nat.pow_add, Nat.sub_add_cancel hk]
  have hout : x / 2 ^ (w - k) < 2 ^ k := Nat.div_lt_of_lt_mul (hsplit.symm ▸ hx)
  have hkeep : x * 2 ^ k % 2 ^ w = (x % 2 ^ (w - k)) <<< k := by
    rw [Nat.shiftLeft_eq, ← Nat.mul_mod_mul_right, hsplit]
  have hlow : (x % 2 ^ (w - k) + 1) * 2 ^ k ≤ 2 ^ w :=
    hsplit ▸ Nat.mul_le_mul_right _ (Nat.mod_lt _ (Nat.two_pow_pos _))
  rw [Nat.shiftLeft_eq x, Nat.shiftRight_eq_div_pow, ← Nat.mod_add_mod, hkeep, ← Nat.shiftLeft_add_eq_or_of_lt hout]
  refine Nat.mod_eq_of_lt ?_
  rw [Nat.shiftLeft_eq]
  rw [Nat.add_mul, Nat.one_mul] at hlow
  omega

theorem rotlNat_toNat : rotlNat w x.toNat y.toNat = (x.rotateLeft (y.toNat % w)).toNat := by
  rcases Nat.eq_zero_or_pos w with rfl | hw
  · simp [rotlNat, BitVec.of_length_zero, Nat.mod_one]
  · rw [BitVec.rotateLeft, Nat.mod_mod, BitVec.rotateLeftAux, BitVec.toNat_or, BitVec.toNat_shiftLeft,
      BitVec.toNat_ushiftRight, ← mul_pow_add_mod_eq_or (Nat.mod_lt _ hw).le x.isLt]
    rfl

/-- A:B as a number. -/
theorem toNat_append_eq {m n : Nat} (x : BitVec m) (y : BitVec n) : (x ++ y).toNat = x.toNat * 2 ^ n + y.toNat := by
  rw [BitVec.toNat_append, ← Nat.shiftLeft_add_eq_or_of_lt y.isLt, Nat.shiftLeft_eq]

theorem shfNat_toNat (right : Bool) : shfNat right w x.toNat y.toNat z.toNat =
    (if right then ((x ++ y) >>> (z.toNat % w)).setWidth w else ((x ++ y) <<< (z.toNat % w) >>> w).setWidth w).toNat := by
  cases right
  · simp only [shfNat, Bool.false_eq_true, if_false, BitVec.toNat_setWidth, BitVec.toNat_ushiftRight, BitVec.toNat_shiftLeft,
      toNat_append_eq, Nat.shiftRight_eq_div_pow, Nat.shiftLeft_eq, Nat.pow_add, Nat.mod_mul_right_div_self, Nat.mod_mod]
  · simp only [shfNat, if_true, BitVec.toNat_setWidth, BitVec.toNat_ushiftRight, toNat_append_eq, Nat.shiftRight_eq_div_pow]

end

/-! ## Bit fields (spec/04 R67-R70) -/

section
variable (u : Bool) {w : Nat} (x y : BitVec w) (pos len : Nat)

theorem bfxNat_toNat : bfxNat u w x.toNat pos len = (bvField u pos len x).toNat := by
  unfold bfxNat fieldOf bvField
  by_cases h : pos ≥ w ∨ len = 0
  · simp [h]
  · have hf : x.toNat / 2 ^ pos % 2 ^ min len (w - pos) = (x.extractLsb' pos (min len (w - pos))).toNat := by
      rw [BitVec.extractLsb'_toNat, Nat.shiftRight_eq_div_pow]
    have hle : (x.extractLsb' pos (min len (w - pos))).toNat < 2 ^ w :=
      Nat.lt_of_lt_of_le (BitVec.isLt _) (Nat.pow_le_pow_right (by omega) (by omega))
    simp only [h, Bool.or_eq_true, decide_eq_true_eq, ge_iff_le, if_false, hf, toSigned_eq_toInt, wrapInt_eq_toNat]
    cases u
    · rfl
    · rw [if_pos rfl, if_pos rfl, BitVec.toNat_setWidth, Nat.mod_eq_of_lt hle]

theorem bfiNat_toNat : bfiNat w x.toNat y.toNat pos len = (bvInsert pos len x y).toNat := by
  unfold bfiNat fieldOf bvInsert
  by_cases h : pos ≥ w ∨ len = 0
  · simp [h, Nat.mod_eq_of_lt y.isLt]
  · simp only [h, Bool.or_eq_true, decide_eq_true_eq, ge_iff_le, if_false]
    generalize hn : min len (w - pos) = n
    have hfit : pos + n ≤ w := by omega
    have hlow : 2 ^ pos * (x.toNat % 2 ^ n) + y.toNat % 2 ^ pos < 2 ^ (pos + n) := by
      have hx := Nat.mod_lt x.toNat (Nat.two_pow_pos n)
      have hy := Nat.mod_lt y.toNat (Nat.two_pow_pos pos)
      calc 2 ^ pos * (x.toNat % 2 ^ n) + y.toNat % 2 ^ pos < 2 ^ pos * (x.toNat % 2 ^ n + 1) := by rw [Nat.mul_add]; omega
        _ ≤ 2 ^ (pos + n) := by rw [Nat.pow_add]; exact Nat.mul_le_mul_left _ hx
    refine Nat.eq_of_testBit_eq fun i => ?_
    rw [Nat.add_comm, Nat.add_comm (y.toNat % 2 ^ pos), Nat.mul_comm _ (2 ^ (pos + n)), Nat.mul_comm _ (2 ^ pos),
      Nat.testBit_two_pow_mul_add _ hlow, Nat.testBit_two_pow_mul_add _ (Nat.mod_lt _ (Nat.two_pow_pos pos))]
    simp only [BitVec.testBit_toNat, BitVec.getLsbD_or, BitVec.getLsbD_and, BitVec.getLsbD_not, BitVec.getLsbD_shiftLeft,
      BitVec.getLsbD_ofNat, Nat.testBit_two_pow_sub_one, Nat.testBit_mod_two_pow, Nat.testBit_div_two_pow]
    rcases Nat.lt_or_ge i pos with hi | hi
    · simp [hi, show i < pos + n by omega, show i < w by omega]
    · rcases Nat.lt_or_ge i (pos + n) with hi' | hi'
      · simp [hi', Nat.not_lt.mpr hi, show i < w by omega, show i - pos < n by omega, show i - pos < w by omega]
      · simpa [Nat.not_lt.mpr hi', Nat.not_lt.mpr hi, show ¬i - pos < n by omega, Nat.sub_add_cancel hi'] using
          BitVec.lt_of_getLsbD

theorem upto_eq_range' (a n : Nat) : upto a n = List.range' a n := by
  induction n generalizing a with
  | zero => rfl
  | succ n ih => rw [upto, ih, List.range'_succ]

theorem upto_zero_eq_range (n : Nat) : upto 0 n = List.range n := by rw [upto_eq_range', List.range_eq_range']

/-- A count of bits fits its word. -/
theorem toNat_ofNat_of_le {n : Nat} (h : n ≤ w) : (BitVec.ofNat w n).toNat = n := by
  rw [BitVec.toNat_ofNat, Nat.mod_eq_of_lt (Nat.lt_of_le_of_lt h Nat.lt_two_pow_self)]

theorem popNat_toNat : popNat w x.toNat = (BitVec.ofNat w ((upto 0 w).countP fun i => x.getLsbD i)).toNat := by
  rw [toNat_ofNat_of_le (List.countP_le_length.trans_eq (upto_length 0 w)), List.countP_eq_length_filter]
  rfl

/-- The first place of a bit, or the width. -/
theorem find?_upto_getD_le (p : Nat → Bool) : ((upto 0 w).find? p).getD w ≤ w := by
  cases h : (upto 0 w).find? p with
  | none => exact Nat.le_refl w
  | some i =>
    have := mem_upto.mp (List.mem_of_find?_eq_some h)
    exact (show i ≤ w by omega)

theorem ctzNat_toNat : ctzNat w x.toNat = (BitVec.ofNat w (((upto 0 w).find? fun i => x.getLsbD i).getD w)).toNat := by
  rw [toNat_ofNat_of_le (find?_upto_getD_le _)]
  rfl

theorem clzNat_toNat : clzNat w x.toNat = (BitVec.ofNat w (((upto 0 w).find? fun i => x.getMsbD i).getD w)).toNat := by
  rw [toNat_ofNat_of_le (find?_upto_getD_le _), clzNat]
  simp only [Nat.mod_eq_of_lt x.isLt]
  split
  · next h =>
    have h0 : x = 0#w := BitVec.eq_of_toNat_eq (by rw [h]; rfl)
    rw [h0, List.find?_eq_none.mpr fun i _ => by simp [BitVec.getMsbD]]
    rfl
  · next hx =>
    have hlog : x.toNat.log2 < w := (Nat.log2_lt hx).mpr x.isLt
    suffices hf : (upto 0 w).find? (fun i => x.getMsbD i) = some (w - 1 - x.toNat.log2) by rw [hf]; rfl
    rw [upto_zero_eq_range, List.find?_range_eq_some]
    refine ⟨?_, List.mem_range.mpr (by omega), fun j hj => ?_⟩
    · simp only [BitVec.getMsbD, BitVec.getLsbD, Nat.sub_sub_self (Nat.le_sub_one_of_lt hlog), Nat.testBit_log2 hx]
      simp; omega
    · simp only [BitVec.getMsbD, BitVec.getLsbD, Nat.testBit_lt_two_pow ((Nat.log2_lt hx).mp (show _ < w - 1 - j by omega))]
      simp
end

theorem foldl_ite_add (p : Nat → Bool) (g : Nat → Nat) (l : List Nat) (n : Nat) :
    l.foldl (fun x i => if p i then x + g i else x) n = n + (l.map fun i => if p i then g i else 0).sum := by
  induction l generalizing n with
  | nil => rfl
  | cons i l ih => rw [List.foldl_cons, ih, List.map_cons, List.sum_cons, ← Nat.add_assoc]; split <;> rfl

/-- The bits of a word in reverse, as a sum. -/
theorem brevNat_eq_sum (w a : Nat) :
    brevNat w a = ((List.range w).map fun i => if a.testBit i then 2 ^ (w - 1 - i) else 0).sum := by
  rw [brevNat, foldl_ite_add, Nat.zero_add, upto_zero_eq_range]

/-- One bit more on top is one bit more below, with the others moved up. -/
theorem brevNat_succ (w a : Nat) : brevNat (w + 1) a = 2 * brevNat w (a % 2 ^ w) + (a.testBit w).toNat := by
  rw [brevNat_eq_sum, brevNat_eq_sum, List.range_succ, List.map_append, List.sum_append, ← List.sum_map_mul_left]
  congr 1
  · refine congrArg List.sum (List.map_congr_left fun i hi => ?_)
    have hi := List.mem_range.mp hi
    rw [Nat.testBit_mod_two_pow, decide_eq_true hi, Bool.true_and, mul_ite, Nat.mul_zero, ← Nat.pow_succ']
    congr 2
    omega
  · cases h : a.testBit w <;> simp [h]

theorem brevNat_toNat {w : Nat} (x : BitVec w) : brevNat w x.toNat = x.reverse.toNat := by
  induction w with
  | zero => simp [BitVec.of_length_zero, brevNat_eq_sum]
  | succ w ih =>
    rw [brevNat_succ, ← BitVec.toNat_setWidth, ih, BitVec.reverse, BitVec.toNat_concat, BitVec.msb_eq_getLsbD_last]
    rw [Nat.mul_comm]
    rfl

theorem clmulNat_lt (w a b : Nat) : clmulNat w a b < 2 ^ (w + w) := by
  have hstep (l : List Nat) (hl : ∀ i ∈ l, i < w) (x : Nat) (hx : x < 2 ^ (w + w)) :
      l.foldl (fun x i => if b.testBit i then x ^^^ (a % 2 ^ w * 2 ^ i) else x) x < 2 ^ (w + w) := by
    induction l generalizing x with
    | nil => exact hx
    | cons i l ih =>
      rw [List.foldl_cons]
      refine ih (fun j hj => hl j (List.mem_cons_of_mem _ hj)) _ ?_
      split
      · refine Nat.xor_lt_two_pow hx ?_
        rw [Nat.pow_add]
        exact Nat.mul_lt_mul_of_lt_of_le (Nat.mod_lt _ (Nat.two_pow_pos w))
          (Nat.pow_le_pow_right (by omega) (hl i List.mem_cons_self).le) (Nat.two_pow_pos w)
      · exact hx
  exact hstep _ (fun i hi => by have := mem_upto.mp hi; omega) 0 (Nat.two_pow_pos _)

theorem clmulh_toNat {w : Nat} (x y : BitVec w) :
    clmulNat w x.toNat y.toNat / 2 ^ w = (BitVec.ofNat w (clmulNat w x.toNat y.toNat / 2 ^ w)).toNat := by
  rw [BitVec.toNat_ofNat, Nat.mod_eq_of_lt (Nat.div_lt_of_lt_mul (Nat.pow_add 2 w w ▸ clmulNat_lt w _ _))]


/-- The byte that a selector nibble picks from B:A, or its sign (spec/04 R69). -/
def prmtByte (y : DWord) (sel : BitVec 16) (i : Nat) : Byte :=
  let n := sel.extractLsb' (4 * i) 4
  let v : Byte := y.extractLsb' (8 * (n.toNat % 8)) 8
  if n.getLsbD 3 then (if v.msb then 0xFF else 0) else v

theorem toNat_prmtByte (y : DWord) (sel : BitVec 16) (i : Nat) : (prmtByte y sel i).toNat =
    (if sel.toNat / 2 ^ (4 * i) % 16 ≥ 8 then (if y.toNat / 2 ^ (8 * (sel.toNat / 2 ^ (4 * i) % 16 % 8)) % 256 ≥ 128 then 255 else 0)
      else y.toNat / 2 ^ (8 * (sel.toNat / 2 ^ (4 * i) % 16 % 8)) % 256) := by
  have hn : (sel.extractLsb' (4 * i) 4).toNat = sel.toNat / 2 ^ (4 * i) % 16 := by
    rw [BitVec.extractLsb'_toNat, Nat.shiftRight_eq_div_pow]
  have hv (p : Nat) : (y.extractLsb' p 8).toNat = y.toNat / 2 ^ p % 256 := by
    rw [BitVec.extractLsb'_toNat, Nat.shiftRight_eq_div_pow]
  have htop : (sel.extractLsb' (4 * i) 4).getLsbD 3 = decide (sel.toNat / 2 ^ (4 * i) % 16 ≥ 8) := by
    rw [← hn]
    exact BitVec.msb_eq_decide (sel.extractLsb' (4 * i) 4)
  unfold prmtByte
  simp only [htop, BitVec.msb_eq_decide, hn, hv, decide_eq_true_eq]
  split
  · split <;> simp_all
  · exact hv _

theorem toNat_pair (a b : Word) : a.toNat % 2 ^ 32 + b.toNat % 2 ^ 32 * 2 ^ 32 = (b ++ a).toNat := by
  rw [toNat_append_eq, Nat.mod_eq_of_lt a.isLt, Nat.mod_eq_of_lt b.isLt, Nat.add_comm]

theorem prmtNat_eq_sum (a b : Word) (sel : BitVec 16) : prmtNat a.toNat b.toNat sel.toNat =
    (upto 0 4).foldl (fun x i => x + (prmtByte (b ++ a) sel i).toNat * 2 ^ (8 * i)) 0 := by
  simp only [prmtNat, toNat_prmtByte, toNat_pair]

/-- Four bytes as a number, the lowest last. -/
theorem toNat_bytes (z : Nat → Byte) :
    (upto 0 4).foldl (fun x i => x + (z i).toNat * 2 ^ (8 * i)) 0 = (z 3 ++ z 2 ++ z 1 ++ z 0).toNat := by
  rw [toNat_append_eq, toNat_append_eq, toNat_append_eq, show upto 0 4 = [0, 1, 2, 3] from rfl, List.foldl_cons,
    List.foldl_cons, List.foldl_cons, List.foldl_cons, List.foldl_nil]
  ring

theorem prmtNat_toNat (a b : Word) (sel : BitVec 16) : prmtNat a.toNat b.toNat sel.toNat =
    (prmtByte (b ++ a) sel 3 ++ prmtByte (b ++ a) sel 2 ++ prmtByte (b ++ a) sel 1 ++ prmtByte (b ++ a) sel 0).toNat :=
  (prmtNat_eq_sum a b sel).trans (toNat_bytes (prmtByte (b ++ a) sel))

end Sys2Proof.Machine

/-! Results in registers: the frame of an instruction that writes one value for each lane, and the statements about integer arithmetic
and bits (spec/01 R14, R23, spec/04 R62-R70). -/
namespace Sys2Proof.Machine

/-! ## The frame of an instruction that writes one value for each lane -/

/-- A word that is widened stays below its own width. -/
theorem toNat_setWidth_lt {n : Nat} (x : BitVec n) (m : Nat) : (x.setWidth m).toNat < 2 ^ n := by
  rw [BitVec.toNat_setWidth]
  exact Nat.lt_of_le_of_lt (Nat.mod_le _ _) x.isLt

/-- A special register that may stand in a 32-bit operand has a value of 32 bits (spec/01 R14). -/
theorem special_lt {x : Special} (hw : x.wide = false) (s : State) (key : Nat) (c : Crew) (l : Nat) :
    (s.special key c x l).toNat < 2 ^ 32 := by
  cases x
  case peddig | dix | seed | clk | mer => cases hw
  case ped => exact Nat.two_pow_pos 32
  all_goals exact toNat_setWidth_lt (n := 32) _ 64

/-- An operand that may stand in a 32-bit field has a value of 32 bits (spec/01 R14, spec/04 R63). -/
theorem operand_lt {o : Operand} (h : o.specialOk 1 = true) (s : State) (key : Nat) (c : Crew) (l : Nat) :
    (s.operand key c false o l).toNat < 2 ^ 32 := by
  cases o with
  | v i => exact toNat_setWidth_lt (n := 32) _ 64
  | s i => exact toNat_setWidth_lt (n := 32) _ 64
  | p i =>
    unfold State.operand
    dsimp only
    split <;> decide
  | sp x =>
    have hx : ¬x = .ped ∧ x.wide = false := by simpa [Operand.specialOk] using h
    exact special_lt hx.2 s key c l
  | imm i => exact toNat_setWidth_lt (n := 32) _ 64

/-- Every use of a well-formed instruction has an accepted class (spec/01 R23, cause 0x05). -/
theorem classOk_of_wellFormed {i : Instr} {u : Use} (h : i.WellFormed) (hu : u ∈ i.uses) : u.classOk = true := by
  simp only [Instr.WellFormed, Bool.and_eq_true, List.all_eq_true] at h
  exact (h.2 u hu).1.2

theorem specialOk_of_src {i : Instr} {o : Operand} {n : Nat} (h : i.WellFormed) (hu : .src o n ∈ i.uses) :
    o.specialOk n = true := (Bool.and_eq_true_iff.mp (classOk_of_wellFormed h hu)).1

theorem specialOk_of_reg {i : Instr} {o : Operand} {n : Nat} (h : i.WellFormed) (hu : .reg o n ∈ i.uses) :
    o.specialOk n = true := (Bool.and_eq_true_iff.mp (classOk_of_wellFormed h hu)).2

/-- An instruction in the frame of R62 computes the value that its lanes take. -/
theorem computes_of_lanewise {i : Instr} {f : Ctl} {wd : Bool} {d : Operand} {s : State} {key : Nat}
    {val : State → Nat → Crew → Nat → DWord} {val' : Nat → DWord} (h : Issues i s key) (hf : Instr.hints i = f)
    (he : exec i s = lanewise i f wd d s val)
    (hv : val (s.entered key f) key ((s.entered key f).crew key) = val') :
    Computes i f wd d s key (s.crew key) val' := by
  obtain ⟨-, hlist, hlanes, -⟩ := id h
  subst hf hv
  exact computes_of_writeDst hlanes (by rw [State.listed_setCrew, Bool.true_or]) (quiet_setCrew _ key _)
    (State.crew_setCrew_self _ key _) (he.trans (issue_done h rfl))

/-- A value that fits 32 bits is its low word. -/
theorem toNat_eq_low {x : DWord} (hx : x.toNat < 2 ^ 32) : x.toNat = (x.setWidth 32).toNat := (Nat.mod_eq_of_lt hx).symm

/-- A source of the width that a flag names fits that width. -/
theorem operand_fits {o : Operand} {sz : Bool} (h : o.specialOk (wide sz) = true) (s : State) (key : Nat) (c : Crew) (l : Nat) :
    sz = false → (s.operand key c sz o l).toNat < 2 ^ 32 := by
  rintro rfl
  exact operand_lt h s key c l

section
variable {sz : Bool} {x y z : DWord}

/-- What an instruction computes of numbers of its width, as a function of the words. -/
theorem on1_eq {G : ∀ w, BitVec w → BitVec w} {g : Nat → Nat → Nat} (hg : ∀ w x, g w x.toNat = (G w x).toNat)
    (hx : sz = false → x.toNat < 2 ^ 32) : BitVec.ofNat 64 (g (if sz then 64 else 32) x.toNat) = on1 sz G x := by
  cases sz
  · simp only [on1, Bool.false_eq_true, if_false]
    rw [toNat_eq_low (hx rfl), hg, BitVec.ofNat_toNat]
  · simp only [on1, if_true, hg, BitVec.ofNat_toNat, BitVec.setWidth_eq]

theorem toNat_on2 {G : ∀ w, BitVec w → BitVec w → BitVec w} {g : Nat → Nat → Nat → Nat}
    (hg : ∀ w x y, g w x.toNat y.toNat = (G w x y).toNat) (hx : sz = false → x.toNat < 2 ^ 32)
    (hy : sz = false → y.toNat < 2 ^ 32) : (on2 sz G x y).toNat = g (if sz then 64 else 32) x.toNat y.toNat := by
  cases sz
  · simp only [on2, Bool.false_eq_true, if_false]
    rw [toNat_eq_low (hx rfl), toNat_eq_low (hy rfl), hg, BitVec.toNat_setWidth_of_le (by decide)]
  · simp only [on2, if_true, hg]

theorem on2_eq {G : ∀ w, BitVec w → BitVec w → BitVec w} {g : Nat → Nat → Nat → Nat}
    (hg : ∀ w x y, g w x.toNat y.toNat = (G w x y).toNat) (hx : sz = false → x.toNat < 2 ^ 32)
    (hy : sz = false → y.toNat < 2 ^ 32) : BitVec.ofNat 64 (g (if sz then 64 else 32) x.toNat y.toNat) = on2 sz G x y := by
  rw [← toNat_on2 hg hx hy, BitVec.ofNat_toNat, BitVec.setWidth_eq]

theorem on3_eq {G : ∀ w, BitVec w → BitVec w → BitVec w → BitVec w} {g : Nat → Nat → Nat → Nat → Nat}
    (hg : ∀ w x y z, g w x.toNat y.toNat z.toNat = (G w x y z).toNat) (hx : sz = false → x.toNat < 2 ^ 32)
    (hy : sz = false → y.toNat < 2 ^ 32) (hz : sz = false → z.toNat < 2 ^ 32) :
    BitVec.ofNat 64 (g (if sz then 64 else 32) x.toNat y.toNat z.toNat) = on3 sz G x y z := by
  cases sz
  · simp only [on3, Bool.false_eq_true, if_false]
    rw [toNat_eq_low (hx rfl), toNat_eq_low (hy rfl), toNat_eq_low (hz rfl), hg, BitVec.ofNat_toNat]
  · simp only [on3, if_true, hg, BitVec.ofNat_toNat, BitVec.setWidth_eq]

end

section
variable {i : Instr} {f : Ctl} {sz u : Bool} {d a b e : Operand} {s : State} {key : Nat}

/-- An instruction of one source of its width, by the rule for numbers of every width. -/
theorem computes_unary {g : Nat → Nat → Nat} {G : ∀ w, BitVec w → BitVec w} (hw : i.WellFormed) (h : Issues i s key)
    (hf : Instr.hints i = f) (he : exec i s = unary i f sz d a s g)
    (hu : i.uses = [.dst d (wide sz) u, .src a (wide sz)]) (hg : ∀ w x, g w x.toNat = (G w x).toNat) :
    Computes i f sz d s key (s.crew key) ((res1 f sz d a G).val s key (s.crew key)) := by
  have ha : a.specialOk (wide sz) = true := specialOk_of_src hw (by simp [hu])
  refine computes_of_lanewise h hf he (funext fun l => ?_)
  simp only [State.operandNat, operand_entered]
  exact on1_eq hg (operand_fits ha s key _ l)

theorem computes_binary {g : Nat → Nat → Nat → Nat} {G : ∀ w, BitVec w → BitVec w → BitVec w} (hw : i.WellFormed)
    (h : Issues i s key) (hf : Instr.hints i = f) (he : exec i s = binary i f sz d a b s g)
    (hu : i.uses = [.dst d (wide sz) u, .src a (wide sz), .src b (wide sz)])
    (hg : ∀ w x y, g w x.toNat y.toNat = (G w x y).toNat) :
    Computes i f sz d s key (s.crew key) ((res2 f sz d a b G).val s key (s.crew key)) := by
  have ha : a.specialOk (wide sz) = true := specialOk_of_src hw (by simp [hu])
  have hb : b.specialOk (wide sz) = true := specialOk_of_src hw (by simp [hu])
  refine computes_of_lanewise h hf he (funext fun l => ?_)
  simp only [State.operandNat, operand_entered]
  exact on2_eq hg (operand_fits ha s key _ l) (operand_fits hb s key _ l)

theorem computes_ternary {g : Nat → Nat → Nat → Nat → Nat} {G : ∀ w, BitVec w → BitVec w → BitVec w → BitVec w}
    (hw : i.WellFormed) (h : Issues i s key) (hf : Instr.hints i = f) (he : exec i s = ternary i f sz d a b e s g)
    (hu : i.uses = [.dst d (wide sz) u, .src a (wide sz), .src b (wide sz), .reg e (wide sz)])
    (hg : ∀ w x y z, g w x.toNat y.toNat z.toNat = (G w x y z).toNat) :
    Computes i f sz d s key (s.crew key) ((res3 f sz d a b e G).val s key (s.crew key)) := by
  have ha : a.specialOk (wide sz) = true := specialOk_of_src hw (by simp [hu])
  have hb : b.specialOk (wide sz) = true := specialOk_of_src hw (by simp [hu])
  have he' : e.specialOk (wide sz) = true := specialOk_of_reg hw (by simp [hu])
  refine computes_of_lanewise h hf he (funext fun l => ?_)
  simp only [State.operandNat, operand_entered]
  exact on3_eq hg (operand_fits ha s key _ l) (operand_fits hb s key _ l) (operand_fits he' s key _ l)

end

@[simp] theorem fieldSpec_entered (p : FieldSpec) (s : State) (key : Nat) (f : Ctl) (l : Nat) :
    FieldSpec.get p (s.entered key f) key ((s.entered key f).crew key) l = FieldSpec.get p s key (s.crew key) l := by
  cases p with
  | reg e => simp only [FieldSpec.get, State.operandNat, operand_entered]
  | imm pos len => rfl

/-! ## The statement about integer arithmetic -/

theorem clampInt_add (u : Bool) (w : Nat) (x y : BitVec w) :
    clampInt u w (intOf u w x.toNat + intOf u w y.toNat) = (bvClamp u w (bvInt u x + bvInt u y)).toNat := by
  rw [clampInt_eq_toNat, intOf_toNat, intOf_toNat]

theorem clampInt_sub (u : Bool) (w : Nat) (x y : BitVec w) :
    clampInt u w (intOf u w x.toNat - intOf u w y.toNat) = (bvClamp u w (bvInt u x - bvInt u y)).toNat := by
  rw [clampInt_eq_toNat, intOf_toNat, intOf_toNat]

/-- IMADW: the product of two words of 32 bits, and a word of 64 (spec/04 Table 4-1). -/
theorem ofNat_wrapInt_imadw (u : Bool) (x y z : DWord) :
    BitVec.ofNat 64 (wrapInt 64 (intOf u 32 x.toNat * intOf u 32 y.toNat + z.toNat)) =
      BitVec.ofInt 64 (bvInt u (x.setWidth 32) * bvInt u (y.setWidth 32)) + z := by
  rw [wrapInt_eq_toNat, intOf_low, intOf_low, BitVec.ofInt_add, BitVec.ofInt_natCast, BitVec.ofNat_toNat, BitVec.ofNat_toNat,
    BitVec.setWidth_eq, BitVec.setWidth_eq]

/-- Settles O13: each instruction is one of the frames of one, two or three sources, with its rule of Table 4-1 for words of every
width. -/
theorem integerResults : Obligations.IntegerResults := by
  intro i q hq hw s key h
  unfold intResult at hq
  split at hq <;> cases hq
  next f d a b sz =>
    exact computes_binary hw h rfl (rfl : exec _ s = execIadd f d a b sz s) rfl fun _ x y => (BitVec.toNat_add x y).symm
  next f d a b sz => exact computes_binary hw h rfl (rfl : exec _ s = execIsub f d a b sz s) rfl fun _ => wrapInt_sub
  next f d a b e sz => exact computes_ternary hw h rfl (rfl : exec _ s = execIadd3 f d a b e sz s) rfl fun _ => toNat_add3
  next f d a b sz u => exact computes_binary hw h rfl (rfl : exec _ s = execIaddsat f d a b sz u s) rfl (clampInt_add u)
  next f d a b sz u => exact computes_binary hw h rfl (rfl : exec _ s = execIsubsat f d a b sz u s) rfl (clampInt_sub u)
  next f d a sz => exact computes_unary hw h rfl (rfl : exec _ s = execIneg f d a sz s) rfl fun _ => wrapInt_neg
  next f d a sz => exact computes_unary hw h rfl (rfl : exec _ s = execIabs f d a sz s) rfl fun _ => natAbs_toSigned
  next f d a b sz u => exact computes_binary hw h rfl (rfl : exec _ s = execImin f d a b sz u s) rfl fun _ => minInt_toNat u
  next f d a b sz u => exact computes_binary hw h rfl (rfl : exec _ s = execImax f d a b sz u s) rfl fun _ => maxInt_toNat u
  next f d a b sz u => exact computes_binary hw h rfl (rfl : exec _ s = execImul f d a b sz u s) rfl fun _ => wrapInt_mul u
  next f d a b sz u => exact computes_binary hw h rfl (rfl : exec _ s = execImulhi f d a b sz u s) rfl fun _ => wrapInt_mulhi u
  next f d a b e sz u =>
    exact computes_ternary hw h rfl (rfl : exec _ s = execImad f d a b e sz u s) rfl fun _ => wrapInt_mul_add u
  next f d a b e u =>
    refine computes_of_lanewise h rfl (rfl : exec _ s = execImadw f d a b e u s) (funext fun l => ?_)
    simp only [State.operandNat, operand_entered, ofNat_wrapInt_imadw]
  next f d a b sz u => exact computes_binary hw h rfl (rfl : exec _ s = execIdiv f d a b sz u s) rfl fun _ => divNat_toNat u
  next f d a b sz u => exact computes_binary hw h rfl (rfl : exec _ s = execIrem f d a b sz u s) rfl fun _ => remNat_toNat u

/-! ## The statement about logic, shifts and bit fields -/

section
variable {sz : Bool} {x y : DWord}

/-- BFX of a source of its width (spec/04 R67). -/
theorem ofNat_bfxNat (u : Bool) (pos len : Nat) (hx : sz = false → x.toNat < 2 ^ 32) :
    BitVec.ofNat 64 (bfxNat u (if sz then 64 else 32) x.toNat pos len) = on1 sz (fun _ x => bvField u pos len x) x :=
  on1_eq (g := fun w x => bfxNat u w x pos len) (fun _ x => bfxNat_toNat u x pos len) hx

/-- BFI of sources of its width (spec/04 R67). -/
theorem ofNat_bfiNat (pos len : Nat) (hx : sz = false → x.toNat < 2 ^ 32) (hy : sz = false → y.toNat < 2 ^ 32) :
    BitVec.ofNat 64 (bfiNat (if sz then 64 else 32) x.toNat y.toNat pos len) = on2 sz (fun _ x y => bvInsert pos len x y) x y :=
  on2_eq (g := fun w x y => bfiNat w x y pos len) (fun _ x y => bfiNat_toNat x y pos len) hx hy

/-- PRMT of two words of 32 bits (spec/04 R69). -/
theorem ofNat_prmtNat {n : Nat} {sel : BitVec 16} (hn : n = sel.toNat) (hx : x.toNat < 2 ^ 32) (hy : y.toNat < 2 ^ 32) :
    BitVec.ofNat 64 (prmtNat x.toNat y.toNat n) =
      (prmtByte (y.setWidth 32 ++ x.setWidth 32) sel 3 ++ prmtByte (y.setWidth 32 ++ x.setWidth 32) sel 2 ++
        prmtByte (y.setWidth 32 ++ x.setWidth 32) sel 1 ++ prmtByte (y.setWidth 32 ++ x.setWidth 32) sel 0).setWidth 64 := by
  rw [hn, toNat_eq_low hx, toNat_eq_low hy, prmtNat_toNat, BitVec.ofNat_toNat]

end

/-- Settles O14: each instruction is one of the frames, with its rule for words of every width; BFX and BFI take their field from the
lane or the word, and PRMT its selector. -/
theorem bitResults : Obligations.BitResults := by
  intro i q hq hw s key h
  unfold bitResult at hq
  split at hq <;> cases hq
  next f d a b sz =>
    exact computes_binary hw h rfl (rfl : exec _ s = execAnd f d a b sz s) rfl fun _ x y => (BitVec.toNat_and x y).symm
  next f d a b sz =>
    exact computes_binary hw h rfl (rfl : exec _ s = execOr f d a b sz s) rfl fun _ x y => (BitVec.toNat_or x y).symm
  next f d a b sz =>
    exact computes_binary hw h rfl (rfl : exec _ s = execXor f d a b sz s) rfl fun _ x y => (BitVec.toNat_xor x y).symm
  next f d a b sz => exact computes_binary hw h rfl (rfl : exec _ s = execAndn f d a b sz s) rfl fun _ => toNat_andn
  next f d a b sz => exact computes_binary hw h rfl (rfl : exec _ s = execOrn f d a b sz s) rfl fun _ => toNat_orn
  next f d a sz => exact computes_unary hw h rfl (rfl : exec _ s = execNot f d a sz s) rfl fun _ => toNat_complement
  next f d a b sz =>
    exact computes_binary hw h rfl (rfl : exec _ s = execShl f d a b sz s) rfl fun _ x y => toNat_shl x y.toNat
  next f d a b sz => exact computes_binary hw h rfl (rfl : exec _ s = execShr f d a b sz s) rfl fun _ => toNat_shr
  next f d a b sz => exact computes_binary hw h rfl (rfl : exec _ s = execSar f d a b sz s) rfl fun _ => sarNat_toNat
  next f d a b sz => exact computes_binary hw h rfl (rfl : exec _ s = execRotl f d a b sz s) rfl fun _ => rotlNat_toNat
  next f d a b e sz right =>
    exact computes_ternary hw h rfl (rfl : exec _ s = execShf f d a b e sz right s) rfl fun _ x y z => shfNat_toNat x y z right
  next f d a p sz u =>
    have ha : a.specialOk (wide sz) = true := specialOk_of_src hw (by cases p <;> exact .tail _ (.head _))
    refine computes_of_lanewise h rfl (rfl : exec _ s = execBfx f d a p sz u s) (funext fun l => ?_)
    simp only [State.operandNat, operand_entered, fieldSpec_entered]
    exact ofNat_bfxNat u _ _ (operand_fits ha s key _ l)
  next f d a b p sz =>
    have ha : a.specialOk (wide sz) = true := specialOk_of_src hw (by cases p <;> exact .tail _ (.head _))
    have hb : b.specialOk (wide sz) = true := specialOk_of_src hw (by cases p <;> exact .tail _ (.tail _ (.head _)))
    refine computes_of_lanewise h rfl (rfl : exec _ s = execBfi f d a b p sz s) (funext fun l => ?_)
    simp only [State.operandNat, operand_entered, fieldSpec_entered]
    exact ofNat_bfiNat _ _ (operand_fits ha s key _ l) (operand_fits hb s key _ l)
  next f d a sz => exact computes_unary hw h rfl (rfl : exec _ s = execPopc f d a sz s) rfl fun _ => popNat_toNat
  next f d a sz => exact computes_unary hw h rfl (rfl : exec _ s = execClz f d a sz s) rfl fun _ => clzNat_toNat
  next f d a sz => exact computes_unary hw h rfl (rfl : exec _ s = execCtz f d a sz s) rfl fun _ => ctzNat_toNat
  next f d a sz => exact computes_unary hw h rfl (rfl : exec _ s = execBrev f d a sz s) rfl fun _ => brevNat_toNat
  next f d a b q =>
    have ha : a.specialOk 1 = true := specialOk_of_reg hw (by cases q <;> exact .tail _ (.head _))
    have hb : b.specialOk 1 = true := specialOk_of_reg hw (by cases q <;> exact .tail _ (.tail _ (.head _)))
    refine computes_of_lanewise h rfl (rfl : exec _ s = execPrmt f d a b q s) (funext fun l => ?_)
    simp only [State.operandNat, operand_entered]
    cases q with
    | reg e =>
      have hn := BitVec.toNat_setWidth 16 (s.operand key (s.crew key) false e l)
      exact ofNat_prmtNat hn.symm (operand_lt ha s key _ l) (operand_lt hb s key _ l)
    | imm x => exact ofNat_prmtNat (rfl : x.toNat = x.toNat) (operand_lt ha s key _ l) (operand_lt hb s key _ l)
  next f d a b sz =>
    exact computes_binary hw h rfl (rfl : exec _ s = execClmul f d a b sz s) rfl fun w _ _ => (BitVec.toNat_ofNat _ w).symm
  next f d a b sz => exact computes_binary hw h rfl (rfl : exec _ s = execClmulh f d a b sz s) rfl fun _ => clmulh_toNat

end Sys2Proof.Machine

/-! Results of comparisons, predicates, selection, lane exchange and moves (spec/04 R71-R81, spec/07 R134, R135, R141, spec/08 R148). -/
namespace Sys2Proof.Machine

/-! ## What the entry of a region leaves to be read -/

section
variable (s : State) (key : Nat) (f : Ctl)

@[simp] theorem fmt_entered : ((s.entered key f).crew key).fmt = (s.crew key).fmt := by
  rw [entered_crew]; split <;> rfl
@[simp] theorem ped_entered : ((s.entered key f).crew key).ped = (s.crew key).ped := by
  rw [entered_crew]; split <;> rfl
@[simp] theorem wrapped_entered : ((s.entered key f).crew key).wrapped = (s.crew key).wrapped := by
  rw [entered_crew]; split <;> rfl
@[simp] theorem lanes_entered : ((s.entered key f).crew key).lanes = (s.crew key).lanes := by
  rw [entered_crew]; split <;> rfl
@[simp] theorem sliceLive_entered (l : Nat) : ((s.entered key f).crew key).sliceLive l = (s.crew key).sliceLive l := by
  rw [entered_crew]; split <;> rfl
@[simp] theorem fpBits_entered (o : Operand) (l : Nat) :
    (s.entered key f).fpBits key ((s.entered key f).crew key) o l = s.fpBits key (s.crew key) o l := by
  cases o <;> simp only [State.fpBits, State.operandNat, operand_entered]
@[simp] theorem combApply_entered (cb : Comb) (l : Nat) (x : Bool) :
    Comb.apply cb ((s.entered key f).crew key) l x = Comb.apply cb (s.crew key) l x := by
  rw [entered_crew]; split <;> rfl

end

/-- An instruction with one value for all lanes writes it as one with a value for each (spec/01 R15). -/
theorem uniform_eq_lanewise (i : Instr) (f : Ctl) (wd : Bool) (d : Operand) (s : State)
    (val : State → Nat → Crew → List Nat → DWord) :
    uniform i f wd d s val = lanewise i f wd d s fun s key c _ => val s key c (c.effLanes f) := rfl

theorem computes_of_uniform {i : Instr} {f : Ctl} {wd : Bool} {d : Operand} {s : State} {key : Nat}
    {val : State → Nat → Crew → List Nat → DWord} {val' : Nat → DWord} (h : Issues i s key) (hf : Instr.hints i = f)
    (he : exec i s = uniform i f wd d s val)
    (hv : ∀ l, val (s.entered key f) key ((s.entered key f).crew key) ((s.crew key).effLanes f) = val' l) :
    Computes i f wd d s key (s.crew key) val' :=
  computes_of_lanewise h hf (he.trans (uniform_eq_lanewise i f wd d s val))
    (funext fun l => by rw [effLanes_entered]; exact hv l)

/-! ## Comparisons and predicates -/

/-- A comparison of two words by their signed or unsigned order (spec/04 R71). -/
def ICond.onWords (cc : ICond) (u : Bool) {w : Nat} (x y : BitVec w) : Bool :=
  match cc with
  | .eq => x = y
  | .ne => x ≠ y
  | .lt => if u then x.ult y else x.slt y
  | .le => if u then x.ule y else x.sle y
  | .gt => if u then y.ult x else y.slt x
  | .ge => if u then y.ule x else y.sle x

theorem bvInt_eq_iff (u : Bool) {w : Nat} {x y : BitVec w} : bvInt u x = bvInt u y ↔ x = y :=
  ⟨bvInt_inj u, fun h => by rw [h]⟩

theorem lt_bvInt (u : Bool) {w : Nat} (x y : BitVec w) :
    decide (bvInt u x < bvInt u y) = if u then x.ult y else x.slt y := by
  cases u <;> simp [bvInt, BitVec.ult_eq_decide, BitVec.slt_eq_decide]

theorem le_bvInt (u : Bool) {w : Nat} (x y : BitVec w) :
    decide (bvInt u x ≤ bvInt u y) = if u then x.ule y else x.sle y := by
  cases u <;> simp [bvInt, BitVec.ule_eq_decide, BitVec.sle_eq_decide]

theorem holds_bvInt (cc : ICond) (u : Bool) {w : Nat} (x y : BitVec w) :
    ICond.holds cc (bvInt u x) (bvInt u y) = ICond.onWords cc u x y := by
  cases cc
  case eq => exact decide_eq_decide.mpr (bvInt_eq_iff u)
  case ne => exact decide_eq_decide.mpr (not_congr (bvInt_eq_iff u))
  case lt => exact lt_bvInt u x y
  case le => exact le_bvInt u x y
  case gt => exact lt_bvInt u y x
  case ge => exact le_bvInt u y x

/-- A comparison of the width that a flag names. -/
theorem holds_intOf (cc : ICond) (u sz : Bool) (x y : DWord) :
    ICond.holds cc (intOf u (if sz then 64 else 32) x.toNat) (intOf u (if sz then 64 else 32) y.toNat) =
      if sz then ICond.onWords cc u x y else ICond.onWords cc u (x.setWidth 32) (y.setWidth 32) := by
  cases sz <;> simp only [intOf_low, holds_bvInt, BitVec.setWidth_eq, if_true, Bool.false_eq_true, if_false]

/-- A predicate is read as 0 or 1 (spec/04 R78). -/
theorem operand_pred {o : Operand} (h : o.isP = true) (s : State) (key : Nat) (c : Crew) (wd : Bool) (l : Nat) :
    s.operand key c wd o l = 0 ∨ s.operand key c wd o l = 1 := by
  obtain ⟨i, rfl⟩ : ∃ i, o = .p i := by
    cases o <;> cases h
    exact ⟨_, rfl⟩
  unfold State.operand
  dsimp only
  split
  · exact .inr rfl
  · exact .inl rfl

theorem isP_of_pred {i : Instr} {o : Operand} (h : i.WellFormed) (hu : .pred o ∈ i.uses) : o.isP = true :=
  classOk_of_wellFormed h hu

section
variable {x y : DWord} (hx : x = 0 ∨ x = 1) (hy : y = 0 ∨ y = 1)
include hx

theorem xor_one_eq_ite : x ^^^ 1 = if x = 1 then 0 else 1 := by
  rcases hx with rfl | rfl <;> rfl

include hy

theorem and_eq_ite : x &&& y = if x = 1 ∧ y = 1 then 1 else 0 := by
  rcases hx with rfl | rfl <;> rcases hy with rfl | rfl <;> rfl

theorem or_eq_ite : x ||| y = if x = 1 ∨ y = 1 then 1 else 0 := by
  rcases hx with rfl | rfl <;> rcases hy with rfl | rfl <;> rfl

theorem xor_eq_ite : x ^^^ y = if x = y then 0 else 1 := by
  rcases hx with rfl | rfl <;> rcases hy with rfl | rfl <;> rfl

end

/-- An instruction of two predicates, by its rule for truth values. -/
theorem computes_predicates {i : Instr} {f : Ctl} {d a b : Operand} {s : State} {key : Nat} {g G : DWord → DWord → DWord}
    (hw : i.WellFormed) (h : Issues i s key) (hf : Instr.hints i = f) (hu : i.uses = [.dstP d, .pred a, .pred b])
    (hg : ∀ {x y}, x = 0 ∨ x = 1 → y = 0 ∨ y = 1 → g x y = G x y)
    (he : exec i s = lanewise i f false d s fun s key c l => g (s.operand key c false a l) (s.operand key c false b l)) :
    Computes i f false d s key (s.crew key)
      fun l => G (s.operand key (s.crew key) false a l) (s.operand key (s.crew key) false b l) := by
  have ha : a.isP = true := isP_of_pred hw (by simp [hu])
  have hb : b.isP = true := isP_of_pred hw (by simp [hu])
  refine computes_of_lanewise h hf he (funext fun l => ?_)
  rw [operand_entered, operand_entered, hg (operand_pred ha ..) (operand_pred hb ..)]

/-! ## Lane exchange -/

/-- The effective lanes are the bits of the effective mask (spec/04 R83). -/
theorem mem_effLanes_iff {c : Crew} {f : Ctl} {l : Nat} : l ∈ c.effLanes f ↔ (c.eff f).getLsbD l = true := by
  simp only [Crew.effLanes, lanesOf, List.mem_filter, mem_upto, and_iff_right_iff_imp]
  intro h
  have hm : (laneMask c.lanes).getLsbD l = true := by
    simp only [Crew.eff, BitVec.getLsbD_and, Bool.and_eq_true] at h
    exact h.2
  have ht : l < 1024 ∧ l < c.lanes := by
    simpa [laneMask, BitVec.getLsbD_ofNat, Nat.testBit_two_pow_sub_one] using hm
  omega

/-- Bits that are gathered one by one. -/
theorem getLsbD_foldl_bits {w : Nat} (q : Nat → Bool) (n : Nat → Nat) (ls : List Nat) (x : BitVec w) {k : Nat} (hk : k < w) :
    (ls.foldl (fun x l => if q l then x ||| BitVec.shiftLeft 1 (n l) else x) x).getLsbD k =
      (x.getLsbD k || ls.any fun l => q l && decide (n l = k)) := by
  have hbit (m : Nat) : (BitVec.shiftLeft (1 : BitVec w) m).getLsbD k = decide (m = k) := by
    change (1#w <<< m).getLsbD k = _
    rw [BitVec.getLsbD_shiftLeft, BitVec.getLsbD_one, Bool.eq_iff_iff]
    simp only [Bool.and_eq_true, Bool.not_eq_true', decide_eq_true_eq, decide_eq_false_iff_not]
    omega
  induction ls generalizing x with
  | nil => simp
  | cons l ls ih =>
    rw [List.foldl_cons, ih, List.any_cons, ← Bool.or_assoc]
    congr 1
    cases q l
    · simp
    · rw [if_pos rfl, BitVec.getLsbD_or, hbit, Bool.true_and]

/-- The ballot of a slice: bit `i` is the predicate of its lane `i` (spec/04 R74). -/
theorem ballot_eq (ls : List Nat) (p : Nat → Bool) (w : Nat) :
    (ls.filter fun l => l / 32 = w && p l).foldl (fun (x : DWord) l => x ||| BitVec.shiftLeft 1 (l % 32)) 0 =
      (upto 0 32).foldl (fun (x : DWord) i =>
        if w * 32 + i ∈ ls ∧ p (w * 32 + i) then x ||| BitVec.shiftLeft 1 i else x) 0 := by
  rw [List.foldl_filter]
  refine BitVec.eq_of_getLsbD_eq fun k hk => ?_
  have hright := getLsbD_foldl_bits (fun i => decide (w * 32 + i ∈ ls) && p (w * 32 + i)) id (upto 0 32) (0 : DWord) hk
  simp only [Bool.and_eq_true, decide_eq_true_eq, id] at hright
  rw [getLsbD_foldl_bits _ _ _ _ hk, hright]
  congr 1
  rw [Bool.eq_iff_iff, List.any_eq_true, List.any_eq_true]
  constructor
  · rintro ⟨l, hl, h⟩
    simp only [Bool.and_eq_true, decide_eq_true_eq] at h
    obtain ⟨⟨rfl, hp⟩, rfl⟩ := h
    have hd : l / 32 * 32 + l % 32 = l := Nat.div_add_mod' l 32
    exact ⟨l % 32, mem_upto.mpr (by omega), by simp [hd, hl, hp]⟩
  · rintro ⟨i, hi, h⟩
    have := mem_upto.mp hi
    simp only [Bool.and_eq_true, decide_eq_true_eq] at h
    obtain ⟨⟨hl, hp⟩, rfl⟩ := h
    exact ⟨_, hl, by simp [hp]; omega⟩

/-- The source of SHFL, with the segment of the lane by division (spec/04 R76). -/
theorem shflSource_eq (m : ShflMode) (w l n : Nat) : shflSource m w l n = match m with
    | .idx => some (l / w * w + n % w)
    | .up => if n ≤ l % w then some (l - n) else none
    | .down => if l % w + n < w then some (l + n) else none
    | .xor => some (l / w * w + ((l % w) ^^^ (n % w))) := by
  have hbase : l - l % w = l / w * w := by
    have := Nat.div_add_mod' l w
    omega
  cases m
  case idx | xor => simp only [shflSource, hbase]
  case up => simp only [shflSource, ← Nat.not_lt, ite_not]
  case down => simp only [shflSource, ge_iff_le, ← Nat.not_lt, ite_not]

/-- REDUX folds words of its width (spec/04 R77). -/
theorem foldl_on2 {sz : Bool} {G : ∀ w, BitVec w → BitVec w → BitVec w} {g : Nat → Nat → Nat → Nat}
    (hg : ∀ w x y, g w x.toNat y.toNat = (G w x y).toNat) (xs : List DWord) (x : DWord)
    (hx : sz = false → x.toNat < 2 ^ 32) (hxs : ∀ y ∈ xs, sz = false → y.toNat < 2 ^ 32) :
    BitVec.ofNat 64 ((xs.map BitVec.toNat).foldl (g (if sz then 64 else 32)) x.toNat) = xs.foldl (on2 sz G) x := by
  induction xs generalizing x with
  | nil => simp
  | cons y xs ih =>
    have hy := hxs y List.mem_cons_self
    have hfit : sz = false → (on2 sz G x y).toNat < 2 ^ 32 := by
      rintro rfl
      exact toNat_setWidth_lt (n := 32) _ 64
    rw [List.map_cons, List.foldl_cons, List.foldl_cons, ← toNat_on2 hg hx hy]
    exact ih _ hfit fun z hz => hxs z (List.mem_cons_of_mem _ hz)


/-- REDUX of the values of the lanes (spec/04 R77). -/
theorem redux_eq {sz : Bool} {G : ∀ w, BitVec w → BitVec w → BitVec w} {g : Nat → Nat → Nat → Nat}
    (hg : ∀ w x y, g w x.toNat y.toNat = (G w x y).toNat) (val : Nat → DWord)
    (hval : ∀ l, sz = false → (val l).toNat < 2 ^ 32) (ls : List Nat) :
    (match ls.map fun l => (val l).toNat with
      | [] => 0
      | x :: xs => BitVec.ofNat 64 (xs.foldl (g (if sz then 64 else 32)) x)) =
    match ls.map val with
      | [] => 0
      | x :: xs => xs.foldl (on2 sz G) x := by
  cases ls with
  | nil => rfl
  | cons l ls =>
    have hfold := foldl_on2 hg (ls.map val) (val l) (hval l) fun y hy hz => by
      obtain ⟨k, -, rfl⟩ := List.mem_map.mp hy
      exact hval k hz
    rwa [List.map_map] at hfold

/-- The operators of REDUX as functions of words (spec/04 R77). -/
def RedOp.onWords (op : RedOp) (u : Bool) (w : Nat) (x y : BitVec w) : BitVec w :=
  match op with
  | .add => x + y
  | .min => if bvInt u y < bvInt u x then y else x
  | .max => if bvInt u x < bvInt u y then y else x
  | .and => x &&& y
  | .or => x ||| y
  | .xor => x ^^^ y

theorem redOp_toNat (op : RedOp) (u : Bool) (w : Nat) (x y : BitVec w) :
    RedOp.apply op u w x.toNat y.toNat = (RedOp.onWords op u w x y).toNat := by
  cases op
  case add => exact (BitVec.toNat_add x y).symm
  case min => exact minInt_toNat u x y
  case max => exact maxInt_toNat u x y
  case and => exact (BitVec.toNat_and x y).symm
  case or => exact (BitVec.toNat_or x y).symm
  case xor => exact (BitVec.toNat_xor x y).symm

/-! ## Moves -/

theorem saturated_toNat (sat u : Bool) (w : Nat) (v : Int) :
    (if sat then clampInt u w v else wrapInt w v) = (if sat then bvClamp u w v else BitVec.ofInt w v).toNat := by
  cases sat
  · exact wrapInt_eq_toNat w v
  · exact clampInt_eq_toNat u w v

/-- A word widened to 64 bits, by the sign that its type has (spec/04 R80). -/
theorem ofNat_wrapInt_intOf (signed : Bool) {w : Nat} (x : BitVec w) :
    BitVec.ofNat 64 (wrapInt 64 (intOf (!signed) w x.toNat)) = if signed then x.signExtend 64 else x.setWidth 64 := by
  rw [intOf_toNat, wrapInt_eq_toNat, BitVec.ofNat_toNat, BitVec.setWidth_eq]
  cases signed
  · exact (BitVec.ofInt_natCast 64 x.toNat).trans (BitVec.ofNat_toNat 64 x)
  · rfl

theorem shiftLeft_eq_mul (x : DWord) (n : Nat) : BitVec.shiftLeft x n = x * BitVec.ofNat 64 (2 ^ n) := by
  have hpow : BitVec.twoPow 64 n = BitVec.ofNat 64 (2 ^ n) :=
    BitVec.eq_of_toNat_eq ((BitVec.toNat_twoPow 64 n).trans (BitVec.toNat_ofNat _ 64).symm)
  rw [← hpow, ← BitVec.shiftLeft_eq_mul_twoPow]
  rfl

/-! ## The statement about moves -/

/-- Settles O15: each instruction has the frame of one value for a lane, or of one for all lanes, and its value is that of its rule. -/
theorem moveResults : Obligations.MoveResults := by
  intro i q hq hw s key h
  unfold moveResult at hq
  split at hq <;> cases hq
  next f d a b cc cb sz u =>
    refine computes_of_lanewise h rfl (rfl : exec _ s = execIcmp f d a b cc cb sz u s) (funext fun l => ?_)
    simp only [State.operandNat, operand_entered, combApply_entered, holds_intOf]
    cases cb <;> rfl
  next f d a b =>
    have hc := computes_predicates hw h rfl rfl and_eq_ite (rfl : exec _ s = execPand f d a b s)
    exact hc
  next f d a b =>
    have hc := computes_predicates hw h rfl rfl or_eq_ite (rfl : exec _ s = execPor f d a b s)
    exact hc
  next f d a b =>
    have hc := computes_predicates hw h rfl rfl xor_eq_ite (rfl : exec _ s = execPxor f d a b s)
    exact hc
  next f d a =>
    have ha := isP_of_pred (o := a) hw (.tail _ (.head _))
    refine computes_of_lanewise h rfl (rfl : exec _ s = execPnot f d a s) (funext fun l => ?_)
    rw [operand_entered, xor_one_eq_ite (operand_pred ha ..)]
  next f d a b e sz =>
    refine computes_of_lanewise h rfl (rfl : exec _ s = execSel f d a b e sz s) (funext fun l => ?_)
    simp only [operand_entered]
  next f d a m =>
    refine computes_of_uniform h rfl (rfl : exec _ s = execVote f d a m s) fun _ => ?_
    cases m with
    | all => simp only [voteVal, operand_entered, List.all_eq_true]
    | any => simp only [voteVal, operand_entered, List.any_eq_true]
    | uni => simp only [voteVal, operand_entered, List.all_eq_true, ← List.any_eq_true, Bool.or_eq_true,
      Bool.not_eq_true', Bool.not_eq_true]
    | ballot b => simp only [voteVal, State.uni, operand_entered, ballot_eq]
  next f d a b sz =>
    refine computes_of_uniform h rfl (rfl : exec _ s = execBcast f d a b sz s) fun _ => ?_
    simp only [State.uni, operand_entered, lanes_entered, sliceLive_entered]
    rfl
  next f d a b m sg sz =>
    refine computes_of_lanewise h rfl (rfl : exec _ s = execShfl f d a b m sg sz s) (funext fun l => ?_)
    simp only [State.operandNat, operand_entered, eff_entered, shflSource_eq, ← mem_effLanes_iff] <;> rfl
  next f d a op sz u =>
    have ha := specialOk_of_src (o := a) (n := wide sz) hw (.tail _ (.head _))
    refine computes_of_uniform h rfl (rfl : exec _ s = execRedux f d a op sz u s) fun _ => ?_
    simp only [State.operandNat, operand_entered]
    exact redux_eq (redOp_toNat op u) (fun l => s.operand key (s.crew key) sz a l) (operand_fits ha s key _) _
  next f d a sz =>
    refine computes_of_lanewise h rfl (rfl : exec _ s = execMov f d a sz s) (funext fun l => ?_)
    rw [operand_entered]
  next f d imm => exact computes_of_lanewise h rfl (rfl : exec _ s = execMovi f d imm s) rfl
  next f d a b sc u ofs =>
    refine computes_of_lanewise h rfl (rfl : exec _ s = execLea f d a b sc u ofs s) (funext fun l => ?_)
    simp only [operand_entered, ← BitVec.setWidth_eq_extractLsb' (show 32 ≤ 64 by decide), shiftLeft_eq_mul]
  next f d a dst src sat =>
    refine computes_of_lanewise h rfl (rfl : exec _ s = execI2i f d a dst src sat s) (funext fun l => ?_)
    simp only [State.operandNat, operand_entered, i2iNat, intOf_low _ (IntTy.bits src), saturated_toNat, ofNat_wrapInt_intOf]
  next f d a wrap =>
    refine computes_of_lanewise h rfl (rfl : exec _ s = execRdsp f d a wrap s) (funext fun l => ?_)
    simp only [operand_entered, wrapped_entered]
    cases a <;> rfl
  next f d a b cc cb =>
    refine computes_of_lanewise h rfl (rfl : exec _ s = execFcmp f d a b cc cb s) (funext fun l => ?_)
    simp only [fmt_entered, fpBits_entered, combApply_entered]
  next f d a b =>
    refine computes_of_lanewise h rfl (rfl : exec _ s = execFclass f d a b s) (funext fun l => ?_)
    simp only [operand_entered, fpBits_entered]
    cases d <;> rfl
  next f d =>
    refine computes_of_uniform h rfl (rfl : exec _ s = execFmtget f d s) fun _ => ?_
    rw [fmt_entered]
  next f d b =>
    refine computes_of_uniform h rfl (rfl : exec _ s = execPedget f d b s) fun _ => ?_
    simp only [State.uni, operand_entered, ped_entered]

end Sys2Proof.Machine

/-! Control: EXIT, RECONV, BRK, CONT, YIELD, NOP and TRAP, and the writes of %DIX and %FMT (spec/01 R12, spec/04 R82, R85, R90-R93,
spec/07 R140). -/
namespace Sys2Proof.Machine

/-! ## WRSP and FMTSET -/

theorem exec_wrsp (f : Ctl) (a : Operand) (clr : Bool) (s : State) :
    exec (.wrsp f a clr) s = once (.wrsp f a clr) f s fun s key c =>
      .done (s.setCrew key { c with dix := (s.operand key c true a 0).extractLsb' 0 40, wrapped := c.wrapped && !clr }) := rfl

theorem exec_fmtset (f : Ctl) (imm : Word) (s : State) :
    exec (.fmtset f imm) s = once (.fmtset f imm) f s fun s key c => .done (s.setCrew key { c with fmt := imm }) := rfl

/-- Settles O18: both act once, when a lane is effective. -/
theorem crewRegisterWrites : Obligations.CrewRegisterWrites := by
  refine ⟨fun f a clr s key h he => ?_, fun f imm s key h he => ?_, fun f a clr s key h he => ?_, fun f imm s key h he => ?_⟩
  · exact (exec_wrsp f a clr s).trans (once_done h rfl (by rwa [eff_entered]) rfl)
  · exact (exec_fmtset f imm s).trans (once_done h rfl (by rwa [eff_entered]) rfl)
  · exact (exec_wrsp f a clr s).trans (once_empty h rfl (by rwa [eff_entered]))
  · exact (exec_fmtset f imm s).trans (once_empty h rfl (by rwa [eff_entered]))

/-! ## EXIT -/

/-- What EXIT does with its effective lanes (spec/04 R91). -/
def leave (f : Ctl) (s : State) (key : Nat) (c : Crew) : Issue :=
  if c.eff f = 0 then .done s
  else if c.live &&& ~~~(c.eff f) = 0 then .jump ((s.setCrew key { c with live := 0 }).crewEnd key)
  else .jump (s.setCrew key { c with live := c.live &&& ~~~(c.eff f), pc := c.pc + 12 })

theorem exec_exit (f : Ctl) (s : State) : exec (.exit f) s = issue (.exit f) s (leave f) := rfl

section
variable {f : Ctl} {s : State} {key : Nat} {c : Crew}

theorem leave_no_lane (he : c.eff f = 0) : leave f s key c = .done s := if_pos he

theorem leave_some (he : c.eff f ≠ 0) (hl : c.live &&& ~~~(c.eff f) ≠ 0) : leave f s key c =
    .jump (s.setCrew key { c with live := c.live &&& ~~~(c.eff f), pc := c.pc + 12 }) :=
  (if_neg he).trans (if_neg hl)

theorem leave_last (he : c.eff f ≠ 0) (hl : c.live &&& ~~~(c.eff f) = 0) :
    leave f s key c = .jump ((s.setCrew key { c with live := 0 }).crewEnd key) :=
  (if_neg he).trans (if_pos hl)

end

/-! ## RECONV -/

/-- The join that RECONV pushes, with the active lanes: the guard does not change the mask it records (spec/04 R85). -/
def pushJoin (f : Ctl) (ofs : BitVec 20) (s : State) (key : Nat) (c : Crew) : Issue :=
  if c.eff f = 0 then .done s
  else if 32 ≤ c.stack.length then .trap stackOverflow
  else .done (s.setCrew key { c with stack := .join (c.target ofs) c.active false 0 :: c.stack })

theorem exec_reconv (f : Ctl) (ofs : BitVec 20) (s : State) :
    exec (.reconv f ofs) s = issue (.reconv f ofs) s (pushJoin f ofs) := rfl

section
variable {f : Ctl} {ofs : BitVec 20} {s : State} {key : Nat} {c : Crew}

theorem pushJoin_no_lane (he : c.eff f = 0) : pushJoin f ofs s key c = .done s := if_pos he

theorem pushJoin_room (he : c.eff f ≠ 0) (hroom : c.stack.length < 32) : pushJoin f ofs s key c =
    .done (s.setCrew key { c with stack := .join (c.pc + 12 * ofs.signExtend 64) c.active false 0 :: c.stack }) :=
  (if_neg he).trans (if_neg (Nat.not_le.mpr hroom))

theorem pushJoin_full (he : c.eff f ≠ 0) (hfull : 32 ≤ c.stack.length) :
    pushJoin f ofs s key c = .trap { cause := 0x10, sub := 0 } :=
  (if_neg he).trans (if_pos hfull)

end

/-! ## BRK and CONT -/

/-- BRK and CONT have one meaning. -/
theorem exec_leaveTo {i : Instr} {f : Ctl} {ofs : BitVec 20} (hi : i = .brk f ofs ∨ i = .cont f ofs) (s : State) :
    exec i s = issue i s (leaveTo f ofs) ∧ Instr.hints i = f ∧ Instr.isRejected i = false := by
  rcases hi with rfl | rfl <;> exact ⟨rfl, rfl, rfl⟩

section
variable {f : Ctl} {ofs : BitVec 20} {s : State} {key : Nat} {c : Crew} {st : List StackEntry}

theorem leaveTo_no_join (h : removeAbove (c.pc + 12 * ofs.signExtend 64) (c.eff f) c.stack = none) :
    leaveTo f ofs s key c = .trap { cause := 0x10, sub := 1 } := by
  simp only [leaveTo, Crew.target, h]

theorem leaveTo_no_lane (h : removeAbove (c.pc + 12 * ofs.signExtend 64) (c.eff f) c.stack = some st) (he : c.eff f = 0) :
    leaveTo f ofs s key c = .done s := by
  simp only [leaveTo, Crew.target, h, if_pos he]

theorem leaveTo_join (h : removeAbove (c.pc + 12 * ofs.signExtend 64) (c.eff f) c.stack = some st) (he : c.eff f ≠ 0) :
    leaveTo f ofs s key c =
      .jump (s.setCrew key { c with stack := st, mask := c.mask &&& ~~~(c.eff f), pc := c.pc + 12 }) := by
  simp only [leaveTo, Crew.target, h, if_neg he]

end

/-! ## YIELD, NOP and TRAP -/

theorem exec_yield (f : Ctl) (s : State) : exec (.yield f) s =
    once (.yield f) f s fun s key c => .jump (s.setCrew key { c with pc := c.pc + 12, yields := true }) := rfl

theorem exec_nop (f : Ctl) (s : State) : exec (.nop f) s = issue (.nop f) s fun s _ _ => .done s := rfl

/-- The software trap of R93, by the effective lanes. -/
def softwareTrap (f : Ctl) (imm : Word) (s : State) (c : Crew) : Issue :=
  match c.effLanes f with
  | [] => .done s
  | l :: ls => .trap { cause := 0x11, d1 := imm, lmask := (laneFields (l :: ls) l).1, more := (laneFields (l :: ls) l).2 }

theorem exec_trap (f : Ctl) (imm : Word) (s : State) :
    exec (.trap f imm) s = issue (.trap f imm) s fun s _ c => softwareTrap f imm s c := rfl

theorem softwareTrap_no_lane {f : Ctl} {c : Crew} (imm : Word) (s : State) (h : c.effLanes f = []) :
    softwareTrap f imm s c = .done s := by
  rw [softwareTrap, h]

theorem softwareTrap_lane {f : Ctl} {c : Crew} (imm : Word) (s : State) (h : c.effLanes f ≠ []) :
    ∃ r : Report, r.cause = 0x11 ∧ r.d1 = imm ∧ softwareTrap f imm s c = .trap r := by
  obtain ⟨l, ls, hl⟩ := List.exists_cons_of_ne_nil h
  rw [softwareTrap, hl]
  exact ⟨_, rfl, rfl, rfl⟩

/-! ## The statement about control -/

/-- Settles O22, each clause by the case of its form. -/
theorem control : Obligations.Control := by
  refine ⟨fun f s key h => ?_, fun f ofs s key h => ?_, fun i f ofs hi s key h => ?_, fun f s key h => ?_, fun f s key h => ?_,
    fun f imm s key h he hn => ?_, fun f imm s key h he => ?_⟩
  · have hx := exec_exit f s
    exact ⟨fun he => hx.trans (issue_done h (leave_no_lane he)), fun he hl => hx.trans (issue_jump h (leave_some he hl)),
      fun he hl => hx.trans (issue_jump h (leave_last he hl))⟩
  · have hx := exec_reconv f ofs s
    exact ⟨fun he hroom => hx.trans (issue_done h (pushJoin_room he hroom)),
      fun he hfull hn => hx.trans (issue_trap h hn rfl (pushJoin_full he hfull)),
      fun he => hx.trans (issue_done h (pushJoin_no_lane he))⟩
  · obtain ⟨he, rfl, hrej⟩ := exec_leaveTo hi s
    exact ⟨fun st hst hlane => he.trans (issue_jump h (leaveTo_join hst hlane)),
      fun st hst hlane => he.trans (issue_done h (leaveTo_no_lane hst hlane)),
      fun hst hn => he.trans (issue_trap h hn hrej (leaveTo_no_join hst))⟩
  · refine ⟨fun he => ?_, fun he => (exec_yield f s).trans (once_empty h rfl (by rwa [eff_entered]))⟩
    exact (exec_yield f s).trans (issue_jump h (if_neg (by rwa [eff_entered])))
  · exact (exec_nop f s).trans (issue_done h rfl)
  · obtain ⟨r, hcause, hd, ht⟩ := softwareTrap_lane imm (s.entered key f) (c := (s.entered key f).crew key)
      (by rwa [effLanes_entered])
    exact ⟨r, hcause, hd, (exec_trap f imm s).trans (issue_trap h hn rfl ht)⟩
  · exact (exec_trap f imm s).trans (issue_done h (softwareTrap_no_lane imm _ (by rwa [effLanes_entered])))

end Sys2Proof.Machine

/-! The end of a crew, and the arrival of its link (spec/04 R91, spec/08 R157, spec/09 R172). -/
namespace Sys2Proof.Machine

/-! ## What the barriers of a party and a task leave -/

/-- Memory, every barrier object, and crew `key` but for its pedigree, stay as they are. -/
structure SparesBars (key : Nat) (s t : State) : Prop where
  mem : t.mem = s.mem
  bars : ∀ k, (t.party k).bars = (s.party k).bars
  crew : ∃ ped, t.crew key = { s.crew key with ped := ped }

theorem SparesBars.refl (key : Nat) (s : State) : SparesBars key s s := ⟨rfl, fun _ => rfl, _, rfl⟩

theorem SparesBars.trans {key : Nat} {s t u : State} (h : SparesBars key s t) (h' : SparesBars key t u) : SparesBars key s u := by
  obtain ⟨ped, hc⟩ := h.crew
  obtain ⟨ped', hc'⟩ := h'.crew
  exact ⟨h'.mem.trans h.mem, fun k => (h'.bars k).trans (h.bars k), ped', by rw [hc', hc]⟩

theorem sparesBars_foldl {key : Nat} {β : Type} (g : State → β → State) (hg : ∀ s x, SparesBars key s (g s x)) (l : List β)
    (s : State) : SparesBars key s (l.foldl g s) := by
  induction l generalizing s with
  | nil => exact SparesBars.refl key s
  | cons x l ih => exact (hg s x).trans (ih _)

theorem sparesBars_signalWake (key : Nat) (s : State) (core code : Nat) : SparesBars key s (s.signalWake core code) :=
  ⟨rfl, fun _ => rfl, _, rfl⟩

theorem sparesBars_setTask (key : Nat) (s : State) (k : Nat) (t : Task) : SparesBars key s (s.setTask k t) :=
  ⟨rfl, fun _ => rfl, _, rfl⟩

theorem sparesBars_setParty {key : Nat} (s : State) (k : Nat) (p : Party) (hp : p.bars = (s.party k).bars) :
    SparesBars key s (s.setParty k p) := by
  refine ⟨rfl, fun j => ?_, _, rfl⟩
  rw [State.party_setParty]
  split
  · next h => rw [hp, h]
  · rfl

/-- Crews that take the lead crew's pedigree. -/
theorem sparesBars_takePed (key : Nat) (ped : BitVec 512) (crews : List Nat) (s : State) :
    SparesBars key s (crews.foldl (fun s k => s.modCrew k fun c => { c with ped := ped }) s) := by
  refine sparesBars_foldl _ (fun s k => ⟨State.modCrew_mem s k _, fun j => by rw [State.party_modCrew], ?_⟩) crews s
  by_cases hk : k = key
  · subst hk
    unfold State.modCrew
    split
    · exact ⟨ped, State.crew_setCrew_self s k _⟩
    · exact ⟨_, rfl⟩
  · exact ⟨_, State.crew_modCrew_ne s _ (Ne.symm hk)⟩

theorem sparesBars_barpCheck (key : Nat) (s : State) (party : Nat) : SparesBars key s (s.barpCheck party) := by
  unfold State.barpCheck
  extract_lets p u
  split
  · have hu : SparesBars key s u := by
      refine SparesBars.trans ?_ (sparesBars_signalWake key _ _ _)
      exact sparesBars_setParty s party _ rfl
    split
    · exact hu.trans (sparesBars_takePed key _ _ _)
    · exact hu
  · exact SparesBars.refl key s

theorem sparesBars_barcCheck (key : Nat) (s : State) (task : Nat) : SparesBars key s (s.barcCheck task) := by
  unfold State.barcCheck
  extract_lets t crews u v
  split
  · have hv : SparesBars key s v :=
      (sparesBars_setTask key s task _).trans (sparesBars_foldl _ (fun s p => sparesBars_signalWake key s _ _) _ _)
    split
    · exact hv.trans (sparesBars_takePed key _ _ _)
    · exact hv
  · exact SparesBars.refl key s

/-! ## The arrival of a link -/

/-- A barrier object after an arrival of count `n`: PENDING falls, or, when `n` is all of it, the phase turns and PENDING is EXPECT
again (spec/08 R157). -/
def Barrier.arrived (b : Barrier) (n : Nat) : Barrier :=
  if n = b.pending then { b with pending := b.expect, phase := !b.phase } else { b with pending := b.pending - n }

theorem arriveObj_some {p : Party} {id n : Nat} {b : Barrier} (hb : Tbl.get? p.bars id = some b) (hn : n ≤ b.pending) :
    ∃ q : Party, p.arriveObj id n = some q ∧ q.bars = Tbl.set p.bars id (b.arrived n) := by
  refine ⟨{ p with bars := Tbl.set p.bars id (b.arrived n) }, ?_, rfl⟩
  simp only [Party.arriveObj, Barrier.arrived, hb, if_neg (Nat.not_lt.mpr hn)]
  split <;> rfl

/-- The party's barrier objects after the arrival of a crew's pending link, when it has one (spec/09 R172). -/
def linkedBars (bars : Tbl Barrier) : Option (Nat × Nat) → Tbl Barrier
  | none => bars
  | some (id, n) => match Tbl.get? bars id with
    | none => bars
    | some b => Tbl.set bars id (b.arrived n)

theorem linkedBars_some {bars : Tbl Barrier} {id n : Nat} {b : Barrier} (hb : Tbl.get? bars id = some b) :
    linkedBars bars (some (id, n)) = Tbl.set bars id (b.arrived n) := by
  simp only [linkedBars, hb]

/-- Only the object that the link names changes. -/
theorem get?_linkedBars_ne {bars : Tbl Barrier} {link : Option (Nat × Nat)} {j : Nat} (h : ∀ n, link ≠ some (j, n)) :
    Tbl.get? (linkedBars bars link) j = Tbl.get? bars j := by
  unfold linkedBars
  split
  · rfl
  · next id n =>
    have hne : j ≠ id := fun e => h n (by rw [e])
    split
    · rfl
    · exact Tbl.get?_set_ne _ _ hne

/-- The arrival itself changes barrier objects only; a phase that turns wakes the core. -/
theorem sparesBars_linkArrives (s : State) (key : Nat) (p : Party) (id : Nat) :
    SparesBars key (s.setParty (s.crew key).party p) (s.linkArrives key p id) := by
  unfold State.linkArrives
  dsimp only
  split
  · exact SparesBars.refl key _
  · exact sparesBars_signalWake key _ _ _

/-! ## The crew that ends -/

/-- A crew of a task whose last lane has left, with zero counters and no fault to raise (spec/04 R91). -/
structure Crew.Drained (c : Crew) : Prop where
  role : c.role.isSome = true
  live : c.live = 0
  report : c.report = none
  deferred : c.deferred = []
  poison : c.poison = []
  loads : c.loads = []
  stores : c.stores = []
  cops : c.cops = []
  tops : c.tops = []
  ended : c.ended = false

/-- The crew once it has ended. -/
def Crew.gone (c : Crew) : Crew := { c with ended := true, tlink := none, wait := none, stall := none }

theorem Crew.Drained.lastFault {c : Crew} (h : c.Drained) : c.lastFault = none := by
  simp [Crew.lastFault, h.deferred, h.cops, h.tops, h.loads, h.stores, h.poison]

/-- It ends with its link's arrival, when its barrier object takes it, and the barriers of its party and task look again. -/
theorem crewEnd_of_drained {s : State} {key : Nat} (h : (s.crew key).Drained) :
    ((s.crew key).tlink = none → s.crewEnd key =
      ((s.setCrew key (s.crew key).gone).barpCheck (s.crew key).party).barcCheck (s.party (s.crew key).party).task) ∧
    (∀ id n p, (s.crew key).tlink = some (id, n) → (s.party (s.crew key).party).arriveObj id n = some p → s.crewEnd key =
      (((s.setCrew key (s.crew key).gone).linkArrives key p id).barpCheck (s.crew key).party).barcCheck p.task) := by
  have hrole : (s.crew key).role.isNone = false := by rw [← Option.not_isSome, h.role]; rfl
  unfold State.crewEnd
  refine ⟨fun ht => ?_, fun id n p ht hp => ?_⟩
  · simp [hrole, h.ended, h.report, h.live, h.lastFault, h.loads, h.stores, h.cops, h.tops, ht, Crew.gone]
  · simp [hrole, h.ended, h.report, h.live, h.lastFault, h.loads, h.stores, h.cops, h.tops, ht, hp, Crew.gone]

/-- The crew has ended, and its link has arrived; what the barriers then do spares both. -/
theorem crewEnd_spares {s : State} {key : Nat} (h : (s.crew key).Drained)
    (hlink : ∀ id n, (s.crew key).tlink = some (id, n) →
      ∃ b, Tbl.get? (s.party (s.crew key).party).bars id = some b ∧ n ≤ b.pending) :
    ∃ v, SparesBars key v (s.crewEnd key) ∧ v.mem = s.mem ∧ v.crew key = (s.crew key).gone ∧
      (v.party (s.crew key).party).bars = linkedBars (s.party (s.crew key).party).bars (s.crew key).tlink := by
  obtain ⟨hnone, hsome⟩ := crewEnd_of_drained h
  cases ht : (s.crew key).tlink with
  | none =>
    refine ⟨s.setCrew key (s.crew key).gone, ?_, rfl, State.crew_setCrew_self s key _, rfl⟩
    rw [hnone ht]
    exact (sparesBars_barpCheck key _ _).trans (sparesBars_barcCheck key _ _)
  | some x =>
    obtain ⟨id, n⟩ := x
    obtain ⟨b, hb, hn⟩ := hlink id n ht
    obtain ⟨p, hp, hbars⟩ := arriveObj_some hb hn
    have harr := sparesBars_linkArrives (s.setCrew key (s.crew key).gone) key p id
    rw [State.crew_setCrew_self] at harr
    refine ⟨(s.setCrew key (s.crew key).gone).setParty (s.crew key).party p, ?_, rfl, State.crew_setCrew_self s key _, ?_⟩
    · rw [hsome id n p ht hp]
      exact harr.trans ((sparesBars_barpCheck key _ _).trans (sparesBars_barcCheck key _ _))
    · rw [State.party_setParty, if_pos rfl, hbars, linkedBars_some hb]

/-- Settles O23: the end of the crew is seen before the barriers look again, and they spare it and the barrier objects. -/
theorem crewEnds : Obligations.CrewEnds := by
  intro s key _ hrole hlive hreport hdeferred hpoison hloads hstores hcops htops hended hlink bars bars'
  obtain ⟨v, hspare, hmem, hcrew, hbars⟩ :=
    crewEnd_spares ⟨hrole, hlive, hreport, hdeferred, hpoison, hloads, hstores, hcops, htops, hended⟩ hlink
  obtain ⟨ped, hc⟩ := hspare.crew
  rw [hcrew] at hc
  have hbars' : bars' = linkedBars bars (s.crew key).tlink := (hspare.bars _).trans hbars
  refine ⟨by rw [hc]; rfl, by rw [hc]; rfl, fun id n b ht hb => ?_, fun j hj => ?_, by rw [hc]; rfl, hspare.mem.trans hmem⟩
  · rw [hbars', ht, linkedBars_some hb, Tbl.get?_set_self]
    rfl
  · rw [hbars', get?_linkedBars_ne hj]

end Sys2Proof.Machine

/-! A copy of one row from the scratchpad to the weight store, unit by unit (spec/05 R108, R111, spec/15 R264). -/
namespace Sys2Proof.Machine

/-! ## Bytes by address -/

/-- Memory once single bytes have been written, one after the other. -/
def Memory.writeEach (m : Memory) (l : List (Nat × Byte)) : Memory := l.foldl (fun m y => m.write y.1 y.2) m

theorem Memory.writeBytes_eq_writeEach (m : Memory) (a : Nat) (bs : List Byte) :
    m.writeBytes a bs = m.writeEach ((upto a bs.length).zip bs) := by
  induction bs generalizing m a with
  | nil => rfl
  | cons b bs ih => exact ih (m.write a b) (a + 1)

/-- The runs of some bytes, written one after the other, are the bytes themselves. -/
theorem Memory.foldl_byteRuns (m : Memory) (l : List (Nat × Byte)) :
    (byteRuns l).foldl (fun m r => m.writeBytes r.1 r.2) m = m.writeEach l := by
  induction l generalizing m with
  | nil => rfl
  | cons y l ih =>
    have h := ih (m.write y.1 y.2)
    rw [byteRuns]
    cases hr : byteRuns l with
    | nil => rw [hr] at h; exact h
    | cons r rs =>
      rw [hr] at h
      dsimp only
      split
      · next he => rw [List.foldl_cons, he] at h; exact h
      · exact h

/-- Bytes that an address determines: each address that is written reads as its own, every other one as before. -/
theorem Memory.read_writeEach {f : Nat → Byte} {l : List (Nat × Byte)} (h : ∀ y ∈ l, y.2 = f y.1) (m : Memory) (z : Nat) :
    (m.writeEach l).read z = if z ∈ l.map (·.1) then f z else m.read z := by
  induction l generalizing m with
  | nil => rfl
  | cons y l ih =>
    have hy := h y List.mem_cons_self
    refine (ih (fun w hw => h w (List.mem_cons_of_mem _ hw)) (m.write y.1 y.2)).trans ?_
    rw [Memory.read_write]
    by_cases hz : z = y.1
    · subst hz; simp [hy]
    · simp [hz]

/-- The addresses and bytes of a row that has been read. -/
theorem mem_zip_readBytes {m : Memory} {a c n : Nat} {y : Nat × Byte} (h : y ∈ (upto c n).zip (m.readBytes a n)) :
    c ≤ y.1 ∧ y.1 < c + n ∧ y.2 = m.read (a + (y.1 - c)) := by
  induction n generalizing a c with
  | zero => cases h
  | succ n ih =>
    rw [upto, Memory.readBytes, List.zip_cons_cons, List.mem_cons] at h
    obtain rfl | h := h
    · exact ⟨Nat.le_refl c, by omega, by simp⟩
    · obtain ⟨hle, hlt, hv⟩ := ih h
      exact ⟨by omega, by omega, hv.trans (congrArg m.read (by omega))⟩

/-- Bytes of a unit go over those that were kept before. -/
theorem mem_putBytes {buf : List (Nat × Byte)} {a : Nat} {bs : List Byte} {y : Nat × Byte} :
    y ∈ putBytes buf a bs ↔ y ∈ buf ∧ ¬(a ≤ y.1 ∧ y.1 < a + bs.length) ∨ y ∈ (upto a bs.length).zip bs := by
  simp [putBytes, or_iff_not_imp_left]

theorem mem_keys_putBytes {buf : List (Nat × Byte)} {a : Nat} {bs : List Byte} {z : Nat} :
    z ∈ (putBytes buf a bs).map (·.1) ↔ z ∈ buf.map (·.1) ∨ a ≤ z ∧ z < a + bs.length := by
  have hzip : ((upto a bs.length).zip bs).map (·.1) = upto a bs.length := List.map_fst_zip (by simp)
  rw [putBytes, List.map_append, List.mem_append, hzip, mem_upto]
  by_cases hz : a ≤ z ∧ z < a + bs.length
  · simp only [hz, and_self, or_true]
  · simp only [hz, or_false, List.mem_map, List.mem_filter]
    constructor
    · rintro ⟨y, ⟨hy, -⟩, rfl⟩; exact ⟨y, hy, rfl⟩
    · rintro ⟨y, hy, rfl⟩; exact ⟨y, ⟨hy, by simpa [or_iff_not_imp_left] using hz⟩, rfl⟩

/-! ## Writes to the weight store -/

/-- Nothing changes but the weight store of one party. -/
structure WeightOnly (k : Nat) (s t : State) : Prop where
  rest : t = { s with parties := t.parties }
  party : t.party k = { s.party k with weight := (t.party k).weight, weightBad := (t.party k).weightBad }

theorem WeightOnly.refl (k : Nat) (s : State) : WeightOnly k s s := ⟨rfl, rfl⟩

theorem WeightOnly.trans {k : Nat} {s t u : State} (h : WeightOnly k s t) (h' : WeightOnly k t u) : WeightOnly k s u :=
  ⟨h'.rest.trans (congrArg (fun x : State => { x with parties := u.parties }) h.rest),
    h'.party.trans (congrArg (fun p : Party => { p with weight := (u.party k).weight, weightBad := (u.party k).weightBad }) h.party)⟩

theorem WeightOnly.crew {k : Nat} {s t : State} (h : WeightOnly k s t) (key : Nat) : t.crew key = s.crew key := by
  rw [h.rest]; rfl

theorem WeightOnly.scratch {k : Nat} {s t : State} (h : WeightOnly k s t) : (t.party k).scratch = (s.party k).scratch := by
  rw [h.party]

theorem WeightOnly.spent {s t : State} {key : Nat} (h : WeightOnly (s.crew key).party s t) : t.spent key = s.spent key := by
  have hp : (t.party (s.crew key).party).task = (s.party (s.crew key).party).task := by rw [h.party]
  simp only [State.spent, State.classOf, State.taskOf, State.partyOf, h.crew, hp]
  rw [h.rest]
  rfl

/-- The state after bytes have been written to a party's weight store. -/
def State.putWeight (s : State) (k a : Nat) (bs : List Byte) : State := s.modParty k fun p => p.putWeight a bs

theorem weightOnly_putWeight (s : State) (k a : Nat) (bs : List Byte) : WeightOnly k s (s.putWeight k a bs) :=
  ⟨rfl, by simp [State.putWeight, Party.putWeight]⟩

theorem weight_putWeight (s : State) (k a : Nat) (bs : List Byte) :
    ((s.putWeight k a bs).party k).weight = Memory.writeBytes (s.party k).weight a bs := by
  simp [State.putWeight, Party.putWeight]

/-- The engine writes the weight store of its crew's own party (spec/05 R108). -/
theorem sideWrite_weight {s : State} {key : Nat} {x : Side} (hx : x.space = 3) (sc : Scope) (a : Nat) (bs : List Byte) :
    s.sideWrite key x sc a bs = .ok (s.putWeight (s.crew key).party a bs, {}) := by
  unfold State.sideWrite State.sideParty
  simp only [hx]
  rfl

theorem writeRuns_weight {key : Nat} {x : Side} (hx : x.space = 3) (sc : Scope) (l : List (Nat × List Byte)) (s : State) :
    ∃ t, s.writeRuns key x sc l = .ok (t, {}) ∧ WeightOnly (s.crew key).party s t ∧
      (t.party (s.crew key).party).weight = l.foldl (fun m r => Memory.writeBytes m r.1 r.2) (s.party (s.crew key).party).weight := by
  induction l generalizing s with
  | nil => exact ⟨s, rfl, WeightOnly.refl _ s, rfl⟩
  | cons r l ih =>
    have hput := weightOnly_putWeight s (s.crew key).party r.1 r.2
    obtain ⟨t, ht, hw, hm⟩ := ih (s.putWeight (s.crew key).party r.1 r.2)
    rw [hput.crew] at hw hm
    refine ⟨t, ?_, hput.trans hw, by rw [hm, weight_putWeight]; rfl⟩
    rw [State.writeRuns, sideWrite_weight hx]
    simp only [bind, Except.bind, ht]
    rfl

/-- A unit goes to the weight store, but for what is kept until the rest of its words comes (spec/05 R111). -/
theorem unitWrite_weight {s : State} {key : Nat} {x : Side} (hx : x.space = 3) (sc : Scope) (later : List (Nat × Nat))
    (buf : List (Nat × Byte)) (a : Nat) (bs : List Byte) :
    ∃ (t : State) (now : Nat × Byte → Bool),
      s.unitWrite key x sc later buf a bs = .ok (t, {}, (putBytes buf a bs).filter fun y => !now y) ∧
      WeightOnly (s.crew key).party s t ∧
      (t.party (s.crew key).party).weight =
        Memory.writeEach (s.party (s.crew key).party).weight ((putBytes buf a bs).filter now) ∧
      (later = [] → (putBytes buf a bs).filter (fun y => !now y) = []) := by
  by_cases h : (buf.isEmpty && later.isEmpty) = true
  · obtain ⟨hb, -⟩ : buf = [] ∧ later = [] := by simpa using h
    have hput : putBytes buf a bs = (upto a bs.length).zip bs := by rw [hb]; rfl
    refine ⟨s.putWeight (s.crew key).party a bs, fun _ => true, ?_, weightOnly_putWeight s _ a bs, ?_, fun _ => by simp⟩
    · rw [State.unitWrite, if_pos h, sideWrite_weight hx, show (putBytes buf a bs).filter (fun _ => !true) = [] by simp]
      rfl
    · rw [weight_putWeight, List.filter_true, hput, Memory.writeBytes_eq_writeEach]
  · let words := ((putBytes buf a bs).map fun y => y.1 / 4).eraseDups.filter fun k => later.any fun u => overlaps u.1 u.2 (4 * k) 4
    obtain ⟨t, ht, hw, hm⟩ := writeRuns_weight hx (key := key) sc
      (byteRuns ((putBytes buf a bs).filter fun y => !words.contains (y.1 / 4))) s
    refine ⟨t, fun y => !words.contains (y.1 / 4), ?_, hw, hm.trans (Memory.foldl_byteRuns _ _), fun hl => ?_⟩
    · rw [State.unitWrite, if_neg h]
      simp only [Bool.not_not]
      exact congrArg (fun r => r.bind fun y => Except.ok (y.1, y.2, (putBytes buf a bs).filter fun y => words.contains (y.1 / 4))) ht
    · have : words = [] := by simp [words, hl]
      simp [this]

/-! ## The row, unit by unit -/

/-- The byte that belongs at an address of the destination row. -/
def rowSource (s : State) (k a b z : Nat) : Byte := Memory.read (s.party k).scratch (a + (z - b))

/-- A copy of a row from `a` in the scratchpad to `b` in the weight store has moved its first `done` bytes, and keeps some of
them back. -/
structure CopyRun.Moved (s : State) (k a b done : Nat) (x : CopyRun) : Prop where
  state : WeightOnly k s x.s
  err : x.err = none
  wrote : x.w = {}
  kept : ∀ y ∈ x.buf, (b ≤ y.1 ∧ y.1 < b + done) ∧ y.2 = rowSource s k a b y.1
  weight : ∀ z, z ∉ x.buf.map (·.1) → Memory.read (x.s.party k).weight z =
    if b ≤ z ∧ z < b + done then rowSource s k a b z else Memory.read (s.party k).weight z

theorem moved_zero (s : State) (k a b : Nat) : CopyRun.Moved s k a b 0 { s := s } :=
  ⟨WeightOnly.refl k s, rfl, rfl, fun _ hy => (List.not_mem_nil hy).elim, fun _ _ => (if_neg (by omega)).symm⟩

/-- The next unit of the row moves. -/
theorem CopyRun.Moved.unit {s : State} {key a b done m : Nat} {x : CopyRun} (h : x.Moved s (s.crew key).party a b done)
    {side : Side} (hside : side.space = 3) (sc : Scope) (later : List (Nat × Nat)) :
    ∃ t buf, x.s.unitWrite key side sc later x.buf (b + done)
        (Memory.readBytes (s.party (s.crew key).party).scratch (a + done) m) = .ok (t, {}, buf) ∧
      (later = [] → buf = []) ∧
      CopyRun.Moved s (s.crew key).party a b (done + m) { x with s := t, rows := x.rows + 1, buf := buf, w := x.w.and {} } := by
  obtain ⟨hstate, herr, hwrote, hkept, hweight⟩ := h
  generalize hbs : Memory.readBytes (s.party (s.crew key).party).scratch (a + done) m = bs
  have hlen : bs.length = m := by rw [← hbs, Memory.readBytes_length]
  obtain ⟨t, now, ht, hw, hm, hlast⟩ := unitWrite_weight (s := x.s) (key := key) hside sc later x.buf (b + done) bs
  rw [hstate.crew] at hw hm
  have hval : ∀ y ∈ putBytes x.buf (b + done) bs, (b ≤ y.1 ∧ y.1 < b + (done + m)) ∧ y.2 = rowSource s (s.crew key).party a b y.1 := by
    intro y hy
    obtain ⟨hy, -⟩ | hy := mem_putBytes.mp hy
    · obtain ⟨⟨hle, hlt⟩, hv⟩ := hkept y hy
      exact ⟨⟨hle, by omega⟩, hv⟩
    · rw [hlen, ← hbs] at hy
      obtain ⟨hle, hlt, hv⟩ := mem_zip_readBytes hy
      exact ⟨⟨by omega, by omega⟩, hv.trans (congrArg (Memory.read _) (by omega))⟩
  refine ⟨t, _, ht, hlast, hstate.trans hw, herr, by rw [hwrote]; rfl, fun y hy => hval y (List.mem_of_mem_filter hy), fun z hz => ?_⟩
  refine (congrArg (Memory.read · z) hm).trans ?_
  rw [Memory.read_writeEach (fun y hy => (hval y (List.mem_of_mem_filter hy)).2)]
  by_cases hput : z ∈ (putBytes x.buf (b + done) bs).map (·.1)
  · obtain ⟨y, hy, rfl⟩ := List.mem_map.mp hput
    have hnow : now y = true := by
      by_contra hn
      exact hz (List.mem_map_of_mem (List.mem_filter.mpr ⟨hy, by simpa using hn⟩))
    rw [if_pos (List.mem_map_of_mem (List.mem_filter.mpr ⟨hy, hnow⟩)), if_pos (hval y hy).1]
  · rw [if_neg fun hc => hput (List.map_subset _ (List.filter_subset_self _) hc)]
    rw [mem_keys_putBytes, not_or, hlen] at hput
    obtain ⟨hbuf, hout⟩ := hput
    rw [hweight z hbuf]
    exact if_congr (by omega) rfl rfl

/-- Unit `i` of a row of `n` bytes. -/
def rowUnit (a b n i : Nat) : CopyUnit :=
  { src := a + 128 * i, dst := b + 128 * i, srcLen := min 128 (n - 128 * i), dstLen := min 128 (n - 128 * i), n := min 128 (n - 128 * i) }

section
variable {s : State} {key a b n : Nat} {plan : CopyPlan}

/-- A copy between plain sides from a scratchpad without errors to the weight store, by a class with budget left. -/
structure RowCopies (s : State) (key : Nat) (plan : CopyPlan) : Prop where
  src : plan.src.space = 1
  dst : plan.dst.space = 3
  plainSrc : plan.src.pl = false
  plainDst : plan.dst.pl = false
  whole : (s.party (s.crew key).party).scratchBad = []
  budget : s.spent key = false

theorem RowCopies.sideRead (h : RowCopies s key plan) {t : State} (ht : WeightOnly (s.crew key).party s t) (c m : Nat) :
    t.sideRead key plan.src c m = .ok (Memory.readBytes (s.party (s.crew key).party).scratch c m, t) := by
  have hbad : (t.party (s.crew key).party).scratchBad = [] := by rw [ht.party]; exact h.whole
  unfold State.sideRead State.sideParty
  simp only [h.src, ht.crew]
  simp only [OfNat.one_ne_ofNat, if_false, hbad, ht.scratch]
  rfl

/-- Such a copy costs nothing: only one to or from global memory does (spec/15 R264). -/
theorem RowCopies.uncharged (h : RowCopies s key plan) (m : Nat) : plan.charged m = 0 := by
  simp [CopyPlan.charged, h.src, h.dst]

/-- Its rows lie in two spaces, and do not overlap (spec/05 R111). -/
theorem RowCopies.apart (h : RowCopies s key plan) : plan.overlapping = false := by
  simp [CopyPlan.overlapping, h.src, h.dst]

theorem copyUnits_unit {fmt j : Nat} {sc : Scope} {u : CopyUnit} {rest : List CopyUnit} {x : CopyRun} {row : List Byte} {t v : State}
    {w : Wrote} {buf : List (Nat × Byte)} (hs : x.s.spent key = false)
    (hr : x.s.sideRead key plan.src u.src u.srcLen = .ok (row, t))
    (hw : t.unitWrite key plan.dst sc (plan.later rest) x.buf u.dst (convertRow plan.src.pl plan.dst.pl fmt u.n row) = .ok (v, w, buf)) :
    copyUnits key fmt plan sc (j + 1) (u :: rest) x = copyUnits key fmt plan sc j rest
      { x with s := v.charge key 1 (plan.charged u.dstLen), rows := x.rows + 1, buf := buf, w := x.w.and w } := by
  rw [copyUnits, if_neg (ne_true_of_eq_false hs), hr]
  simp only [hw]

/-- The units that are left move, the last of them with all that was kept back. -/
theorem RowCopies.units (h : RowCopies s key plan) (fmt : Nat) (sc : Scope) (j i : Nat) (hj : i + j = (n + 127) / 128)
    {x : CopyRun} (hx : x.Moved s (s.crew key).party a b (min n (128 * i))) (hbuf : j = 0 → x.buf = []) :
    let y := copyUnits key fmt plan sc j ((upto i j).map (rowUnit a b n)) x
    y.Moved s (s.crew key).party a b n ∧ y.buf = [] ∧ y.rows = x.rows + j := by
  induction j generalizing i x with
  | zero =>
    have hi : min n (128 * i) = n := by omega
    rw [hi] at hx
    exact ⟨hx, hbuf rfl, rfl⟩
  | succ j ih =>
    have hdone : min n (128 * i) = 128 * i := by omega
    have hnext : 128 * i + min 128 (n - 128 * i) = min n (128 * (i + 1)) := by omega
    rw [hdone] at hx
    obtain ⟨t, buf, ht, hlast, hmoved⟩ := hx.unit (m := min 128 (n - 128 * i)) h.dst sc
      (plan.later ((upto (i + 1) j).map (rowUnit a b n)))
    rw [hnext] at hmoved
    have hstep := copyUnits_unit (j := j) (hx.state.spent.trans h.budget) (h.sideRead hx.state _ _)
      (by rw [h.plainSrc, h.plainDst]; exact ht) (u := rowUnit a b n i) (fmt := fmt)
    rw [h.uncharged] at hstep
    obtain ⟨hend, hkept, hrows⟩ := ih (i + 1) (by omega) hmoved fun hj => hlast (by subst hj; simp [CopyPlan.later, upto])
    dsimp only
    rw [upto, List.map_cons, hstep]
    exact ⟨hend, hkept, hrows.trans (by dsimp only; omega)⟩

end

/-! ## The statement about a row -/

/-- A record without strides that count has one row on each side, at its base (spec/05 Table 5-5). -/
theorem rows_one (x : Side) (hb : x.base < 2 ^ 64) : x.rows 0 1 1 = [x.base] := by
  have h : stepAddr (x.base + 0) (((0 : Nat) : Int) * x.s1 + ((0 : Nat) : Int) * x.s2) = x.base := by
    simp only [stepAddr, wrapInt]
    omega
  simp only [Side.rows, upto, List.flatMap_cons, List.flatMap_nil, List.map_cons, List.map_nil, List.append_nil, h]

/-- A record of one row of bytes from the scratchpad to the weight store, plain on both sides (spec/05 Table 5-5). -/
structure ByteRow (r : BitVec 512) : Prop where
  src : (shapeSrc r).space = 1
  dst : (shapeDst r).space = 3
  plainSrc : (shapeSrc r).pl = false
  plainDst : (shapeDst r).pl = false
  fmt : shapeFmt r = 5
  rows : shapeExt r 1 = 1 ∧ shapeExt r 2 = 1

theorem ByteRow.plan {r : BitVec 512} (h : ByteRow r) :
    (copyPlan r 0 false).srcRows = [(shapeSrc r).base] ∧ (copyPlan r 0 false).dstRows = [(shapeDst r).base] := by
  obtain ⟨h1, h2⟩ := h.rows
  simp only [copyPlan, h1, h2]
  exact ⟨rows_one _ (BitVec.isLt _), rows_one _ (BitVec.isLt _)⟩

/-- Its units are pieces of 128 bytes of the row (spec/15 R264). -/
theorem ByteRow.copyAll {r : BitVec 512} (h : ByteRow r) : copyAll r 0 false =
    (upto 0 ((shapeExt r 0 + 127) / 128)).map (rowUnit (shapeSrc r).base (shapeDst r).base (shapeExt r 0)) := by
  obtain ⟨hs, hd⟩ := h.plan
  have hbytes (m : Nat) : rowBytes false 5 m = m := by simp [rowBytes, fmtBits]
  have hsrc : (copyPlan r 0 false).src.pl = false := h.plainSrc
  have hdst : (copyPlan r 0 false).dst.pl = false := h.plainDst
  rw [Machine.copyAll, CopyPlan.units, hs, hd, hsrc, hdst, h.fmt]
  simp only [List.zip_cons_cons, List.zip_nil_right, List.flatMap_cons, List.flatMap_nil, List.append_nil, hbytes]
  rfl

/-- Bytes that agree one by one are the same row. -/
theorem readBytes_shift {m m' : Memory} {a b n : Nat} (h : ∀ z, b ≤ z → z < b + n → m.read z = m'.read (a + (z - b))) :
    m.readBytes b n = m'.readBytes a n := by
  induction n generalizing a b with
  | zero => rfl
  | succ n ih =>
    rw [Memory.readBytes, Memory.readBytes, h b (Nat.le_refl b) (by omega), Nat.sub_self, Nat.add_zero,
      ih (a := a + 1) (b := b + 1) fun z hle hlt => (h z (by omega) (by omega)).trans (congrArg m'.read (by omega))]

/-- Settles O37: every unit moves its bytes of the row, but for those of a word that a later unit shares, which go with it. -/
theorem copyMovesRow : Obligations.CopyMovesRow := by
  intro s key r o hrows hbuf hsrc hdst hps hpd hfmt he1 he2 n a b p k x q _ hbad hspent
  have hr : ByteRow r := ⟨hsrc, hdst, hps, hpd, hfmt, he1, he2⟩
  have hcopy : RowCopies s key (copyPlan r 0 false) := ⟨hsrc, hdst, hps, hpd, hbad, hspent⟩
  have hk : k = (n + 127) / 128 := by rw [show k = (copyAll r 0 false).length from rfl, hr.copyAll, List.length_map, upto_length]
  have hx : x = copyUnits key (shapeFmt r) (copyPlan r 0 false) (scopeOf (shapeSc r)) ((n + 127) / 128)
      ((upto 0 ((n + 127) / 128)).map (rowUnit a b n)) { s := s } := by
    simp only [x, State.runCopy, hcopy.apart, hrows, hbuf, hk, hr.copyAll]
    rfl
  obtain ⟨⟨hstate, herr, hwrote, -, hweight⟩, hkept, hcount⟩ := hcopy.units (a := a) (b := b) (n := n) (shapeFmt r)
    (scopeOf (shapeSc r)) ((n + 127) / 128) 0 (Nat.zero_add _) (by simpa using moved_zero s _ a b) fun _ => rfl
  rw [← hx] at hstate herr hwrote hweight hkept hcount
  simp only [hkept, List.map_nil, List.not_mem_nil, not_false_eq_true, forall_const] at hweight
  refine ⟨herr, hcount.trans (by rw [hk]; exact Nat.zero_add _), hwrote, by rw [hstate.rest],
    readBytes_shift fun z hle hlt => (hweight z).trans (if_pos ⟨hle, hlt⟩),
    fun z hz => (hweight z).trans (if_neg (by omega)), hstate.scratch, by rw [hstate.rest]⟩

end Sys2Proof.Machine

/-! Stores: ST, STS and STR (spec/05 R97-R103, spec/16 R269). -/
namespace Sys2Proof.Machine

/-! ## The answers of a body, in the state in which it acts -/

section
variable {i : Instr} {f : Ctl} {s s0 t : State} {key : Nat} {c : Crew} {body : State → Nat → Crew → Issue}

theorem runs_of_done (hx : exec i s = issue i s body) (h : Issues i s key) (hf : Instr.hints i = f) (hs : s0 = s.entered key f)
    (hc : c = s0.crew key) (hb : body s0 key c = .done t) : Runs i s key t := by
  subst hf hs hc
  exact hx.trans (issue_done h hb)

theorem exec_of_wait {w : Wait} (hx : exec i s = issue i s body) (h : Issues i s key) (hf : Instr.hints i = f)
    (hs : s0 = s.entered key f) (hc : c = s0.crew key) (hb : body s0 key c = .wait w t) :
    exec i s = .next ((t.modCrew key fun x => x.notEntered (s.crew key)).stalled key w) := by
  subst hf hs hc
  exact hx.trans (issue_wait h hb)

/-- A body that traps with an effect of its own takes its fault when no load of its region waits. -/
theorem exec_of_trapAt {r : Report} (hx : exec i s = issue i s body) (h : Issues i s key) (hn : NoRegionLoad s key)
    (hf : Instr.hints i = f) (hs : s0 = s.entered key f) (hc : c = s0.crew key) (hb : body s0 key c = .trapAt t r) :
    exec i s = .next (t.takeFault key r) := by
  subst hf hs hc
  rw [hx, issue_of_Issues body h, hb]
  exact congrArg Host.Outcome.next (if_neg (ne_true_of_eq_false hn))

end

/-! ## What a translated access leaves of the package -/

theorem dies_miss (s : State) (ctx who core va : Nat) (need : Need) :
    (s.miss ctx who core va need).2 = { s with dies := (s.miss ctx who core va need).2.dies } := by
  unfold State.miss
  dsimp only
  repeat' split
  all_goals rfl

theorem dies_translate (s : State) (key : Nat) (need : Need) (va : Nat) :
    (s.translate key need va).2 = { s with dies := (s.translate key need va).2.dies } := by
  unfold State.translate
  dsimp only
  split
  · split <;> rfl
  · split
    · split <;> rfl
    · exact dies_miss ..

/-- The lanes of an access start walks, which stand with the dies, and change nothing else (spec/13 R224). -/
theorem dies_judge (s : State) (key : Nat) (need : Need) (align : Nat) (addrs : List (Nat × DWord)) :
    (s.judge key need align addrs).2 = { s with dies := (s.judge key need align addrs).2.dies } := by
  induction addrs generalizing s with
  | nil => rfl
  | cons x rest ih =>
    have htr := dies_translate s key need x.2.toNat
    rw [State.judge]
    generalize s.translate key need x.2.toNat = tr at htr ⊢
    obtain ⟨v, u⟩ := tr
    have hu : (u.judge key need align rest).2 = { s with dies := (u.judge key need align rest).2.dies } :=
      (ih u).trans (congrArg (fun y : State => { y with dies := (u.judge key need align rest).2.dies }) htr)
    cases s.viewAccess key x.2.toNat <|> addressFault align x.2 with
    | some r => exact ih s
    | none => cases v <;> exact hu

theorem dies_access {s t : State} {key align : Nat} {need : Need} {addrs : List (Nat × DWord)} {lanes : List LaneAcc}
    (h : s.access key need align addrs = .ok lanes t) : t = { s with dies := t.dies } := by
  have hj := dies_judge s key need align addrs
  unfold State.access State.accessAs at h
  dsimp only at h
  repeat' split at h
  all_goals cases h
  exact hj

/-! ## ST -/

/-- A list of addresses of which one is no view address is no contribution (spec/08 R153). -/
theorem onlyViews_eq_false {addrs : List (Nat × DWord)} {c : Crew}
    (h : addrs = [] ∨ c.role = none ∨ ∃ x ∈ addrs, isViewAddr x.2.toNat = false) :
    (!addrs.isEmpty && c.role.isSome && (addrs.map fun x => (x.1, x.2.toNat)).all fun x => isViewAddr x.2) = false := by
  obtain rfl | hr | ⟨x, hx, hv⟩ := h
  · rfl
  · rw [hr, Option.isSome_none, Bool.and_false, Bool.false_and]
  · have : ((addrs.map fun x => (x.1, x.2.toNat)).all fun x => isViewAddr x.2) = false :=
      List.all_eq_false.mpr ⟨_, List.mem_map_of_mem hx, by simp [hv]⟩
    rw [this, Bool.and_false]

/-- The state once the race filter has checked a store; an agent's is not checked (spec/16 R269). -/
def Unraced (s : State) (c : Crew) (secs : Tbl Word) (u : State) : Prop :=
  c.role = none ∧ u = s ∨ c.role.isSome = true ∧
    s.checkStore (s.task (s.party c.party).task).launch (s.party c.party).task c.task c.ped secs = .ok u

/-- The store of some lanes, charged, performed and counted (spec/05 R97-R99). -/
def State.storeCounted (s : State) (key : Nat) (sc : Scope) (n : Nat) (val : Nat → Nat) (lanes : List LaneAcc) : State :=
  let x := (s.charge key 3 (s.storeBytes (coreOf key) sc n lanes)).storeLanes (coreOf key) sc n val lanes
  x.1.modCrew key fun c => { c with ct := max c.ct x.2.1 }.addStore
    { id := 0, pc := c.pc, ct := x.2.2.1, ack := x.2.2.2, cut := x.1.anyCut lanes, va := x.1.foreignVa lanes }

/-- What ST does once its release has passed, when its addresses are no contribution. -/
def storing (s : State) (key : Nat) (c : Crew) (sc : Scope) (n : Nat) (val : Nat → Nat) (addrs : List (Nat × DWord)) : Issue :=
  held s key .write n addrs fun lanes t =>
    if c.atService (LaneAcc.ranges lanes n) then .wait .acquire t
    else held? t key (lanes.findSome? fun a => t.storeHeld (coreOf key) a.attr sc a.pa c.role.isSome) <|
      let p := s.party c.party
      let launch := (s.task p.task).launch
      let secs := t.sectors n lanes
      match if c.role.isNone then .ok t else t.checkStore launch p.task c.task c.ped secs with
      | .error x => .trap (raceReport lanes n x (t.conflicts launch p.task c.task c.ped secs))
      | .ok u => .done (u.storeCounted key sc n val lanes)

/-- Lanes that translate, and that nothing holds, are stored (spec/05 R98, R99, spec/16 R269, spec/18 R287). -/
theorem storing_ok {s t u : State} {key n : Nat} {c : Crew} {sc : Scope} {addrs : List (Nat × DWord)} {lanes : List LaneAcc}
    (hacc : s.access key .write n addrs = .ok lanes t) (hsvc : c.atService (LaneAcc.ranges lanes n) = false)
    (hheld : ∀ a ∈ lanes, t.storeHeld (coreOf key) a.attr sc a.pa c.role.isSome = none)
    (hrace : Unraced t c (t.sectors n lanes) u) (val : Nat → Nat) :
    storing s key c sc n val addrs = .done (u.storeCounted key sc n val lanes) := by
  have hnone : (lanes.findSome? fun a => t.storeHeld (coreOf key) a.attr sc a.pa c.role.isSome) = none :=
    List.findSome?_eq_none_iff.mpr hheld
  have hparty : s.party c.party = t.party c.party := by rw [dies_access hacc]; rfl
  have htask (k : Nat) : s.task k = t.task k := by rw [dies_access hacc]; rfl
  rw [storing, held, hacc]
  dsimp only
  rw [if_neg (ne_true_of_eq_false hsvc), hnone, held?_none, hparty, htask]
  obtain ⟨hrole, rfl⟩ | ⟨hrole, hcheck⟩ := hrace
  · rw [hrole]; rfl
  · rw [if_neg (by rw [Option.isNone_iff_eq_none]; exact Option.isSome_iff_ne_none.mp hrole), hcheck]

/-- ST whose release has passed, and whose addresses are no contribution, goes on to store. -/
theorem st_runs {f : Ctl} {a b : Operand} {ofs : BitVec 20} {ty : StTy} {rel : Bool} {sc : Scope} {s s0 s1 t : State} {key : Nat}
    {c : Crew} {addrs : List (Nat × DWord)} (h : Issues (.st f a b ofs ty rel sc) s key) (hs : s0 = s.entered key f)
    (hc : c = s0.crew key) (ha : addrs = globalAddrs s0 key c a ofs (c.effLanes f)) (hroom : c.stores.length < 63)
    (hbehind : c.behindLoad (StTy.bytes ty) (addrs.map (·.2)) = false) (hrel : Released s0 key rel sc s1)
    (hviews : addrs = [] ∨ c.role = none ∨ ∃ x ∈ addrs, isViewAddr x.2.toNat = false)
    (hdone : storing s1 key c sc (StTy.bytes ty) (fun l => s0.storeElem key c b ty l) addrs = .done t) :
    Runs (.st f a b ofs ty rel sc) s key t := by
  subst ha
  refine runs_of_done (exec_st f a b ofs ty rel sc s) h (hints_st ..) hs hc ?_
  exact (if_neg (ne_true_of_eq_false (counterFull_of_room hroom))).trans ((if_neg (ne_true_of_eq_false hbehind)).trans
    ((fenced_of_released hrel _).trans ((if_neg (ne_true_of_eq_false (onlyViews_eq_false hviews))).trans hdone)))

/-- ST waits while its release does (spec/05 R100). -/
theorem st_release_waits {f : Ctl} {a b : Operand} {ofs : BitVec 20} {ty : StTy} {sc : Scope} {s s0 t : State} {key : Nat}
    {c : Crew} (h : Issues (.st f a b ofs ty true sc) s key) (hs : s0 = s.entered key f)
    (hc : c = s0.crew key) (hroom : c.stores.length < 63)
    (hbehind : c.behindLoad (StTy.bytes ty) ((globalAddrs s0 key c a ofs (c.effLanes f)).map (·.2)) = false)
    (hwait : s0.fence key .rel sc = .wait t) :
    exec (.st f a b ofs ty true sc) s = .next ((t.modCrew key fun x => x.notEntered (s.crew key)).stalled key .fence) := by
  refine exec_of_wait (exec_st f a b ofs ty true sc s) h (hints_st ..) hs hc ?_
  refine (if_neg (ne_true_of_eq_false (counterFull_of_room hroom))).trans ((if_neg (ne_true_of_eq_false hbehind)).trans ?_)
  simp only [if_true, fenced, hwait]

/-! ## STS and STR -/

theorem exec_sts (f : Ctl) (a b : Operand) (ofs : BitVec 20) (ty : StTy) (peer : Option (BitVec 3)) (s : State) :
    exec (.sts f a b ofs ty peer) s = execSts f a b ofs ty peer s := rfl
theorem exec_str (f : Ctl) (a b : Operand) (ofs : BitVec 20) (s : State) : exec (.str f a b ofs) s = execStr f a b ofs s := rfl

@[simp] theorem length_toBytesLE (n x : Nat) : (toBytesLE n x).length = n := by
  induction n generalizing x with
  | zero => rfl
  | succ n ih => exact congrArg (· + 1) (ih (x / 256))

/-- Window addresses that are aligned and have a register do not fault (spec/05 R103). -/
theorem windowFault_eq_none {s : State} {ctx : Option Nat} {ws : List (Nat × Nat)}
    (h : ∀ x ∈ ws, x.2 % 4 = 0 ∧ (s.window ctx x.2).isSome = true) : s.windowFault ctx ws = none := by
  refine congrArg lowestFault (List.filterMap_eq_nil_iff.mpr fun x hx => ?_)
  obtain ⟨hal, hw⟩ := h x hx
  rw [if_neg (not_not.mpr hal), if_neg (by rw [Option.isNone_iff_eq_none]; exact Option.isSome_iff_ne_none.mp hw)]

theorem map_localOfs (s : State) (key : Nat) (c : Crew) (a : Operand) (ofs : BitVec 20) (lanes : List Nat) :
    (lanes.map fun l => (l, s.localOfs key c a ofs l)) = localAddrs s key c a ofs lanes := rfl

/-- STS whose offsets are sound writes the scratchpad lane by lane (spec/05 R101). -/
theorem sts_runs {f : Ctl} {a b : Operand} {ofs : BitVec 20} {ty : StTy} {peer : Option (BitVec 3)} {s s0 : State} {key k : Nat}
    {c : Crew} {at_ : List (Nat × Nat)} (h : Issues (.sts f a b ofs ty peer) s key) (hs : s0 = s.entered key f)
    (hc : c = s0.crew key) (ha : at_ = localAddrs s0 key c a ofs (c.effLanes f)) (hroom : c.stores.length < 63)
    (haway : s0.peerAway c peer = false) (hpeer : s0.peerParty c peer = some k)
    (hat : ∀ x ∈ at_, x.2 % StTy.bytes ty = 0 ∧ x.2 + StTy.bytes ty ≤ (s0.party k).scratchLen) :
    Runs (.sts f a b ofs ty peer) s key ((at_.foldl (fun t x => t.modParty k fun p =>
      p.putScratch x.2 (toBytesLE (StTy.bytes ty) (s0.storeElem key c b ty x.1))) s0).modCrew
        key fun c => c.addStore { id := 0, pc := c.pc }) := by
  have hfault := localFault_eq_none (cause := 0x08) hat
  subst ha
  refine runs_of_done (exec_sts f a b ofs ty peer s) h rfl hs hc ?_
  simp only [counterFull_of_room hroom, haway, hpeer, map_localOfs, hfault, Bool.false_eq_true, if_false]

/-- One lane of STR: its word goes to the register that its window address names (spec/05 R103). -/
def State.windowStore (s : State) (key : Nat) (c : Crew) (b : Operand) (t : State) (x : Nat × Nat) : State :=
  match s.window (s.windowCtx c) x.2 with
  | some r => t.windowWrite r ((s.operand key c false b x.1).extractLsb' 0 32)
  | none => t

/-- STR whose window addresses are sound, and which nothing holds, writes their registers lane by lane (spec/05 R103). -/
theorem str_runs {f : Ctl} {a b : Operand} {ofs : BitVec 20} {s s0 : State} {key : Nat} {c : Crew} {at_ : List (Nat × Nat)}
    (h : Issues (.str f a b ofs) s key) (hs : s0 = s.entered key f) (hc : c = s0.crew key)
    (ha : at_ = localAddrs s0 key c a ofs (c.effLanes f)) (hroom : c.stores.length < 63) (hheld : s0.windowHeld key at_ = none)
    (hat : ∀ x ∈ at_, x.2 % 4 = 0 ∧ (s0.window (s0.windowCtx c) x.2).isSome = true) :
    Runs (.str f a b ofs) s key ((at_.foldl (s0.windowStore key c b) { s0 with
      badWindow := s0.badWindow.filter fun a => !(at_.any fun x => x.2 ≤ a && a < x.2 + 4) }).modCrew key
        fun c => c.addStore { id := 0, pc := c.pc }) := by
  have hfault := windowFault_eq_none hat
  subst ha
  refine runs_of_done (exec_str f a b ofs s) h rfl hs hc ?_
  simp only [counterFull_of_room hroom, map_localOfs, hheld, held?_none, hfault, Bool.false_eq_true, if_false]
  rfl

/-- Settles O26: a store that nothing holds goes on to its lanes, by the lemma about its form. That a release happens with no effective
lane too is the choice of the model (log 63). -/
theorem stores : Obligations.Stores := by
  refine ⟨?_, ?_, ?_, ?_⟩
  · intro f a b ofs ty rel sc s key lanes s1 t u h s0 c addrs hroom hbehind hrel hviews hacc hsvc hheld hrace v x
    have hdone := storing_ok hacc hsvc hheld hrace fun l => s0.storeElem key c b ty l
    exact st_runs h rfl rfl rfl hroom hbehind hrel hviews hdone
  · intro f a b ofs ty sc s key t h s0 c hroom hbehind hwait
    exact st_release_waits h rfl rfl hroom hbehind hwait
  · intro f a b ofs ty peer s key k h s0 c at_ hroom haway hpeer hat
    have hrun := sts_runs h rfl rfl rfl hroom haway hpeer hat
    simp only [Party.putScratch, length_toBytesLE] at hrun
    exact hrun
  · intro f a b ofs s key h s0 c at_ hroom hheld hat s1
    exact str_runs h rfl rfl rfl hroom hheld hat

end Sys2Proof.Machine

/-! PREF, IINV and WAITC (spec/05 R104, R107, R112-R115). -/
namespace Sys2Proof.Machine

/-! ## What reading and writing back lines changes -/

/-- Nothing of the package changes but memory, caches, leases and what is charged. -/
def CachesOnly (s t : State) : Prop :=
  t = { s with mem := t.mem, dies := t.dies, cores := t.cores, xmax := t.xmax, budgets := t.budgets }

theorem CachesOnly.refl (s : State) : CachesOnly s s := rfl

theorem CachesOnly.trans {s t u : State} (h : CachesOnly s t) (h' : CachesOnly t u) : CachesOnly s u :=
  Eq.trans h' (congrArg (fun x : State =>
    { x with mem := u.mem, dies := u.dies, cores := u.cores, xmax := u.xmax, budgets := u.budgets }) h)

theorem CachesOnly.crew {s t : State} (h : CachesOnly s t) (key : Nat) : t.crew key = s.crew key := by rw [h]; rfl
theorem CachesOnly.crews {s t : State} (h : CachesOnly s t) : t.crews = s.crews := by rw [h]
theorem CachesOnly.parties {s t : State} (h : CachesOnly s t) : t.parties = s.parties := by rw [h]

theorem cachesOnly_foldl {β : Type} (g : State → β → State) (hg : ∀ s x, CachesOnly s (g s x)) (l : List β) (s : State) :
    CachesOnly s (l.foldl g s) := by
  induction l generalizing s with
  | nil => exact CachesOnly.refl s
  | cons x l ih => exact (hg s x).trans (ih _)

theorem cachesOnly_charge (s : State) (key kind n : Nat) : CachesOnly s (s.charge key kind n) := by
  unfold State.charge; split <;> rfl

theorem cachesOnly_keepCt (s : State) (d : Nat) (w : BitVec 16) (ct : Nat) : CachesOnly s (s.keepCt d w ct) :=
  cachesOnly_foldl _ (fun s i => by split <;> rfl) _ s

theorem cachesOnly_writeBackKept (s : State) (d ln : Nat) : CachesOnly s (s.writeBackKept d ln).1 :=
  CachesOnly.trans (t := (s.writeBack d ln).1) rfl (cachesOnly_keepCt _ _ _ _)

theorem cachesOnly_replaceLine (s : State) (d ln : Nat) : CachesOnly s (s.replaceLine d ln) := by
  have hset (t : State) : CachesOnly t (t.setL2 d ln {}) := rfl
  unfold State.replaceLine
  split
  · exact hset s
  · exact (cachesOnly_writeBackKept s d ln).trans (hset _)

theorem cachesOnly_roomL2 (s : State) (d ln : Nat) : CachesOnly s (s.roomL2 d ln) := by
  unfold State.roomL2
  dsimp only
  split
  · exact CachesOnly.refl s
  · split
    · exact cachesOnly_replaceLine s d _
    · exact CachesOnly.refl s

/-- A line that L2 or the home serves leaves the state as it is, or takes a lease and a place in L2 (spec/12 R205). -/
theorem readL2_cases (s : State) (d : Nat) (a : Attr) (ln : Nat) : (s.readL2 d a ln).2 = s ∨
    ∃ (t : State) (x : L2Line), t = { s with xmax := t.xmax } ∧ (s.readL2 d a ln).2 = (t.roomL2 d ln).setL2 d ln x := by
  unfold State.readL2
  dsimp only
  split
  · exact .inl rfl
  · split
    · exact .inl rfl
    · exact .inr ⟨_, _, rfl, rfl⟩

/-- What a core reads comes from its L1, from below as `readL2` gives it, or from a replica, and may fill L1 (spec/12 Table 12-3). -/
theorem readLine_cases (s : State) (core : Nat) (a : Attr) (fr : Bool) (hint : Option (BitVec 2)) (ln : Nat) :
    ∃ u, (u = s ∨ u = (s.readL2 (dieOfCore core) a ln).2 ∨
        ∃ (r : Nat) (g : Die → Tbl Line), u = s.modDie r fun x => { x with replicas := g x }) ∧
      ((s.readLine core a fr hint ln).2 = u ∨ ∃ g, (s.readLine core a fr hint ln).2 = u.modCore core g) := by
  unfold State.readLine
  dsimp only
  split
  · exact ⟨s, .inl rfl, .inl rfl⟩
  · split
    · exact ⟨s, .inl rfl, .inl rfl⟩
    · have fills (l : Line) (u : State) (g : Core → Core) :
          (l, if fr then u else u.modCore core g).2 = u ∨ ∃ g', (l, if fr then u else u.modCore core g).2 = u.modCore core g' := by
        cases fr
        · exact .inr ⟨g, rfl⟩
        · exact .inl rfl
      refine ⟨_, ?_, fills _ _ _⟩
      repeat' split
      · exact .inl rfl
      · exact .inl rfl
      · exact .inr (.inr ⟨_, fun x => fillCache x.replicas llcLines ln (s.homeLine ln), rfl⟩)
      · exact .inr (.inr ⟨_, fun x => fillCache x.replicas llcLines ln (s.homeLine ln), rfl⟩)
      · exact .inr (.inl rfl)

theorem cachesOnly_readL2 (s : State) (d : Nat) (a : Attr) (ln : Nat) : CachesOnly s (s.readL2 d a ln).2 := by
  have hset (t : State) (x : L2Line) : CachesOnly t (t.setL2 d ln x) := rfl
  obtain h | ⟨t, x, ht, h⟩ := readL2_cases s d a ln <;> rw [h]
  · exact CachesOnly.refl s
  · have hlease : CachesOnly s t := by rw [ht]; rfl
    exact hlease.trans ((cachesOnly_roomL2 t d ln).trans (hset _ x))

theorem cachesOnly_readLine (s : State) (core : Nat) (a : Attr) (fr : Bool) (hint : Option (BitVec 2)) (ln : Nat) :
    CachesOnly s (s.readLine core a fr hint ln).2 := by
  obtain ⟨u, hu, h⟩ := readLine_cases s core a fr hint ln
  have hsu : CachesOnly s u := by
    obtain rfl | rfl | ⟨r, g, rfl⟩ := hu
    · exact CachesOnly.refl u
    · exact cachesOnly_readL2 s _ a ln
    · rfl
  have hcore (g : Core → Core) : CachesOnly u (u.modCore core g) := rfl
  obtain h | ⟨g, h⟩ := h <;> rw [h]
  · exact hsu
  · exact hsu.trans (hcore g)

/-! ## A line that is read where the L2 has room -/

theorem Tbl.length_set_le {α : Type} (t : Tbl α) (k : Nat) (v : α) : (Tbl.set t k v).length ≤ t.length + 1 := by
  induction t with
  | nil => simp [Tbl.set]
  | cons x t ih =>
    simp only [Tbl.set]
    repeat' split
    all_goals simp only [List.length_cons]; omega

/-- The number of lines that a die's L2 holds (spec/00 Table 0-1). -/
def State.l2Held (s : State) (d : Nat) : Nat := (s.die d).l2.length

/-- Reading a line leaves memory as it is where the die's L2 has room, and takes at most one place there. -/
def Reads (d : Nat) (s t : State) : Prop := s.l2Held d < l2Lines → t.mem = s.mem ∧ t.l2Held d ≤ s.l2Held d + 1

theorem l2Held_setL2 (s : State) (d ln : Nat) (x : L2Line) : (s.setL2 d ln x).l2Held d ≤ s.l2Held d + 1 := by
  simp only [State.l2Held, State.setL2, State.die_modDie_self]
  repeat' split
  · exact Tbl.length_set_le _ _ _
  · exact Tbl.length_set_le _ _ _
  · exact Nat.le_succ_of_le (List.length_filter_le _ _)

theorem roomL2_of_room {s : State} {d : Nat} (h : s.l2Held d < l2Lines) (ln : Nat) : s.roomL2 d ln = s :=
  if_pos (by rw [Bool.or_eq_true, decide_eq_true_eq]; exact .inr h)

theorem Reads.refl (d : Nat) (s : State) : Reads d s s := fun _ => ⟨rfl, Nat.le_succ _⟩

theorem reads_readL2 (s : State) (d : Nat) (a : Attr) (ln : Nat) : Reads d s (s.readL2 d a ln).2 := by
  obtain h | ⟨t, x, ht, h⟩ := readL2_cases s d a ln <;> rw [h]
  · exact Reads.refl d s
  · intro hroom
    have hheld : t.l2Held d = s.l2Held d := by rw [ht]; rfl
    have hmem : t.mem = s.mem := by rw [ht]
    rw [roomL2_of_room (hheld.trans_lt hroom)]
    exact ⟨(setL2_mem t d ln x).trans hmem, hheld ▸ l2Held_setL2 t d ln x⟩

theorem reads_readLine (s : State) (core : Nat) (a : Attr) (fr : Bool) (hint : Option (BitVec 2)) (ln : Nat) :
    Reads (dieOfCore core) s (s.readLine core a fr hint ln).2 := by
  obtain ⟨u, hu, h⟩ := readLine_cases s core a fr hint ln
  have hsu : Reads (dieOfCore core) s u := by
    obtain rfl | rfl | ⟨r, g, rfl⟩ := hu
    · exact Reads.refl _ u
    · exact reads_readL2 s _ a ln
    · refine fun _ => ⟨rfl, Nat.le_succ_of_le (Nat.le_of_eq ?_)⟩
      rw [State.l2Held, State.die_modDie]
      split
      · next hr => rw [State.l2Held, hr]
      · rfl
  obtain h | ⟨g, h⟩ := h <;> rw [h]
  · exact hsu
  · exact hsu

theorem reads_charge {d : Nat} {s t : State} (key kind n : Nat) (h : Reads d (s.charge key kind n) t) : Reads d s t := by
  rw [charge_eq] at h
  exact h

/-! ## PREF -/

/-- One lane of PREF (spec/05 R104). -/
def State.prefetch (s : State) (key : Nat) (c : Crew) (a : Operand) (ofs : BitVec 20) (l1 : Bool) (l : Nat) : State :=
  let core := coreOf key
  let va := (s.operand key c true a l + ofs.signExtend 64).toNat
  match if c.role.isNone then none else s.tlbFind core (s.ctxOf key) va with
  | some e =>
    let pa := e.pa + (va - e.vbase)
    if e.r && (s.readHeld core e.attr false none pa).isNone && !s.cutOff pa then
      let ln := lineOf pa
      let s := s.charge key 3 (s.readBytes core false none [(e.attr, pa)])
      if l1 then (s.readLine core e.attr false none ln).2
      else if e.rep then s else (s.readL2 (dieOfCore core) e.attr ln).2
    else s
  | none => s

theorem exec_pref (f : Ctl) (a : Operand) (ofs : BitVec 20) (l1 : Bool) (s : State) : exec (.pref f a ofs l1) s =
    issue (.pref f a ofs l1) s fun s key c => .done ((c.effLanes f).foldl (fun s l => s.prefetch key c a ofs l1 l) s) := rfl

/-- A prefetch fetches no line, or one. -/
theorem prefetch_cases (s : State) (key : Nat) (c : Crew) (a : Operand) (ofs : BitVec 20) (l1 : Bool) (l : Nat) :
    s.prefetch key c a ofs l1 l = s ∨ ∃ n at_ ln, s.prefetch key c a ofs l1 l = s.charge key 3 n ∨
      s.prefetch key c a ofs l1 l = ((s.charge key 3 n).readLine (coreOf key) at_ false none ln).2 ∨
      s.prefetch key c a ofs l1 l = ((s.charge key 3 n).readL2 (dieOfCore (coreOf key)) at_ ln).2 := by
  unfold State.prefetch
  dsimp only
  split
  · next e _ =>
    split
    · split
      · exact .inr ⟨_, _, _, .inr (.inl rfl)⟩
      · split
        · exact .inr ⟨_, e.attr, 0, .inl rfl⟩
        · exact .inr ⟨_, _, _, .inr (.inr rfl)⟩
    · exact .inl rfl
  · exact .inl rfl

theorem cachesOnly_prefetch (s : State) (key : Nat) (c : Crew) (a : Operand) (ofs : BitVec 20) (l1 : Bool) (l : Nat) :
    CachesOnly s (s.prefetch key c a ofs l1 l) := by
  obtain h | ⟨n, at_, ln, h⟩ := prefetch_cases s key c a ofs l1 l
  · rw [h]; exact CachesOnly.refl s
  · have hcharge := cachesOnly_charge s key 3 n
    obtain h | h | h := h <;> rw [h]
    · exact hcharge
    · exact hcharge.trans (cachesOnly_readLine _ _ _ _ _ _)
    · exact hcharge.trans (cachesOnly_readL2 _ _ _ _)

theorem reads_prefetch (s : State) (key : Nat) (c : Crew) (a : Operand) (ofs : BitVec 20) (l1 : Bool) (l : Nat) :
    Reads (dieOfCore (coreOf key)) s (s.prefetch key c a ofs l1 l) := by
  obtain h | ⟨n, at_, ln, h⟩ := prefetch_cases s key c a ofs l1 l
  · rw [h]; exact Reads.refl _ s
  · refine reads_charge key 3 n ?_
    obtain h | h | h := h <;> rw [h]
    · exact Reads.refl _ _
    · exact reads_readLine _ _ _ _ _ _
    · exact reads_readL2 _ _ _ _

/-- Prefetches for which the L2 has room leave memory as it is (spec/12 R205). -/
theorem prefetches_mem {s : State} {key : Nat} {c : Crew} {a : Operand} {ofs : BitVec 20} {l1 : Bool} (lanes : List Nat)
    (h : s.l2Held (dieOfCore (coreOf key)) + lanes.length ≤ l2Lines) :
    (lanes.foldl (fun s l => s.prefetch key c a ofs l1 l) s).mem = s.mem := by
  induction lanes generalizing s with
  | nil => rfl
  | cons l lanes ih =>
    rw [List.length_cons] at h
    obtain ⟨hmem, hheld⟩ := reads_prefetch s key c a ofs l1 l (by omega)
    exact (ih (Nat.le_trans (Nat.add_le_add_right hheld _) (by omega))).trans hmem

theorem effLanes_length_le (c : Crew) (f : Ctl) : (c.effLanes f).length ≤ c.lanes :=
  (List.length_filter_le _ _).trans (Nat.le_of_eq (upto_length 0 _))

/-- What the completion of an instruction leaves of its crew's operations in flight. -/
theorem Crew.Keeps.inFlight {c c' : Crew} (h : Crew.Keeps c c') : c'.loads = c.loads ∧ c'.stores = c.stores := by
  rw [h]
  exact ⟨rfl, rfl⟩

/-- An instruction that completes with the caches alone changed: no register, operation in flight or party changes. -/
theorem completes_of_cachesOnly {i : Instr} {f : Ctl} {s u : State} {key : Nat} (hrun : Runs i s key u) (hf : Instr.hints i = f)
    (hlist : ((Tbl.get? s.crews key).isSome || isAgentKey key) = true) (hc : CachesOnly (s.entered key f) u) :
    ∃ t, exec i s = .next t ∧ (t.crew key).pc = (s.crew key).pc + 12 ∧ Crew.SameRegs (s.crew key) (t.crew key) ∧
      (t.crew key).loads = (s.crew key).loads ∧ (t.crew key).stores = (s.crew key).stores ∧ t.parties = s.parties ∧
      t.mem = u.mem := by
  subst hf
  obtain ⟨hparties, -⟩ := (quiet_advance u key).trans (quiet_retire _ key (Instr.hints i) false)
  obtain ⟨hentered, -⟩ := quiet_entered s key (Instr.hints i)
  obtain ⟨hek, ⟨hev, hes, hep⟩, hepc⟩ := settles_entered s key (Instr.hints i)
  obtain ⟨hk, ⟨hv, hs, hp⟩, hpc⟩ := crew_advance_retire (Instr.hints i) (hc.crews ▸ listed_entered (Instr.hints i) hlist)
  rw [hc.crew] at hk hv hs hp hpc
  obtain ⟨heloads, hestores⟩ := hek.inFlight
  obtain ⟨hloads, hstores⟩ := hk.inFlight
  refine ⟨_, hrun, hpc.trans (congrArg (· + 12) hepc), ⟨hv.trans hev, hs.trans hes, hp.trans hep⟩, hloads.trans heloads,
    hstores.trans hestores, ?_, by rw [retire_mem, advance_mem]⟩
  rw [hparties]
  refine hc.parties.trans ?_
  rw [hentered]

/-- PREF changes no register and counts nothing, and writes back nothing where the L2 has room (spec/05 R104). -/
theorem pref_completes {f : Ctl} {a : Operand} {ofs : BitVec 20} {l1 : Bool} {s : State} {key : Nat}
    (h : Issues (.pref f a ofs l1) s key) : ∃ t, exec (.pref f a ofs l1) s = .next t ∧
    (t.crew key).pc = (s.crew key).pc + 12 ∧ Crew.SameRegs (s.crew key) (t.crew key) ∧ (t.crew key).loads = (s.crew key).loads ∧
    (t.crew key).stores = (s.crew key).stores ∧ t.parties = s.parties ∧
    ((s.die (dieOfCore (coreOf key))).l2.length + 1024 ≤ 786432 → t.mem = s.mem) := by
  obtain ⟨-, hlist, hlanes, -⟩ := id h
  obtain ⟨t, ht, hpc, hregs, hloads, hstores, hparties, hmem⟩ := completes_of_cachesOnly
    (runs_of_done (exec_pref f a ofs l1 s) h rfl rfl rfl rfl) rfl hlist
    (cachesOnly_foldl _ (fun s l => cachesOnly_prefetch s key _ a ofs l1 l) _ _)
  refine ⟨t, ht, hpc, hregs, hloads, hstores, hparties, fun hroom => hmem.trans ?_⟩
  have hlen := effLanes_length_le (s.crew key) f
  have hheld : (s.entered key f).l2Held (dieOfCore (coreOf key)) = (s.die (dieOfCore (coreOf key))).l2.length := by
    rw [State.l2Held, entered_die]
  refine (prefetches_mem _ ?_).trans (entered_mem s key f)
  rw [effLanes_entered]
  exact Nat.le_trans (Nat.add_le_add (Nat.le_of_eq hheld) (hlen.trans hlanes)) hroom

/-! ## IINV -/

/-- The cores whose instruction caches an IINV of a scope covers (spec/05 R107). -/
def IScope.covers (sc : IScope) (core k : Nat) : Bool :=
  match sc with | .core => k = core | .die => k / 16 = core / 16 | .pkg => true

/-- The state with the instruction caches of some cores empty. -/
def State.emptyIcaches (s : State) (p : Nat → Bool) : State :=
  { s with cores := s.cores.map fun x => if p x.1 then (x.1, { x.2 with icache := [] }) else x }

theorem exec_iinv (f : Ctl) (sc : IScope) (s : State) : exec (.iinv f sc) s = once (.iinv f sc) f s fun s key _ =>
    held? s key (if sc = .pkg then (upto 0 4).findSome? (s.wayHeld (coreOf key)) else none)
      (.done (s.emptyIcaches (IScope.covers sc (coreOf key)))) := rfl

theorem wayHeld_entered (s : State) (key : Nat) (f : Ctl) (core d : Nat) : (s.entered key f).wayHeld core d = s.wayHeld core d := by
  unfold State.entered; split <;> rfl

theorem iinv_runs {f : Ctl} {sc : IScope} {s : State} {key : Nat} (h : Issues (.iinv f sc) s key) (he : (s.crew key).eff f ≠ 0)
    (hway : sc = .pkg → ∀ d, d < 4 → s.wayHeld (coreOf key) d = none) :
    Runs (.iinv f sc) s key ((s.entered key f).emptyIcaches (IScope.covers sc (coreOf key))) := by
  refine (exec_iinv f sc s).trans (once_done h rfl (by rwa [eff_entered]) ?_)
  have hnone : (if sc = .pkg then (upto 0 4).findSome? ((s.entered key f).wayHeld (coreOf key)) else none) = none := by
    split
    · next hsc => exact List.findSome?_eq_none_iff.mpr fun d hd => (wayHeld_entered ..).trans (hway hsc d (by simpa using (mem_upto.mp hd).2))
    · rfl
  rw [hnone, held?_none]

/-! ## WAITC -/

/-- A counter is low enough for a WAITC (spec/05 R114). -/
def countMet (n : BitVec 6) (k : Nat) : Bool := n = 63 || k ≤ n.toNat

theorem countMet_of {n : BitVec 6} {k : Nat} (h : n = 63 ∨ k ≤ n.toNat) : countMet n k = true := by simpa [countMet] using h

/-- What a WAITC with an effective lane does (spec/05 R112, R114). -/
def awaitCounts (l st cc t : BitVec 6) (s : State) (key : Nat) : Issue :=
  let c := s.crew key
  if countMet l c.loads.length && countMet st c.stores.length && countMet cc c.cops.length && countMet t c.tops.length then
    match c.takeDeferred (l ≠ 63) (st ≠ 63) (cc ≠ 63) (t ≠ 63) with
    | some (r, c) => .trapAt (s.setCrew key c) { r with df := true }
    | none => .done s
  else .wait .waitc s

theorem exec_waitc (f : Ctl) (l st cc t : BitVec 6) (s : State) :
    exec (.waitc f l st cc t) s = once (.waitc f l st cc t) f s fun s key _ => awaitCounts l st cc t s key := rfl

theorem takeDeferred_none {c : Crew} (hd : c.deferred = []) (hp : c.poison = []) (l s cc t : Bool) :
    c.takeDeferred l s cc t = none := by
  simp [Crew.takeDeferred, hd, hp]

section
variable {l st cc t : BitVec 6} {s : State} {key : Nat}

/-- The counters that a WAITC names are low enough (spec/05 R114). -/
structure CountsMet (l st cc t : BitVec 6) (c : Crew) : Prop where
  loads : l = 63 ∨ c.loads.length ≤ l.toNat
  stores : st = 63 ∨ c.stores.length ≤ st.toNat
  cops : cc = 63 ∨ c.cops.length ≤ cc.toNat
  tops : t = 63 ∨ c.tops.length ≤ t.toNat

theorem CountsMet.entered (h : CountsMet l st cc t (s.crew key)) (f : Ctl) : CountsMet l st cc t ((s.entered key f).crew key) := by
  rw [entered_crew]
  split
  · exact ⟨h.loads, h.stores, h.cops, h.tops⟩
  · exact h

theorem CountsMet.all (h : CountsMet l st cc t (s.crew key)) : (countMet l (s.crew key).loads.length &&
    countMet st (s.crew key).stores.length && countMet cc (s.crew key).cops.length && countMet t (s.crew key).tops.length) = true := by
  rw [countMet_of h.loads, countMet_of h.stores, countMet_of h.cops, countMet_of h.tops]
  rfl

theorem awaitCounts_done (h : CountsMet l st cc t (s.crew key))
    (hn : (s.crew key).takeDeferred (l ≠ 63) (st ≠ 63) (cc ≠ 63) (t ≠ 63) = none) : awaitCounts l st cc t s key = .done s := by
  refine (if_pos h.all).trans ?_
  simp only [hn]

theorem awaitCounts_fault {r : Report} {c : Crew} (h : CountsMet l st cc t (s.crew key))
    (hsome : (s.crew key).takeDeferred (l ≠ 63) (st ≠ 63) (cc ≠ 63) (t ≠ 63) = some (r, c)) :
    awaitCounts l st cc t s key = .trapAt (s.setCrew key c) { r with df := true } := by
  refine (if_pos h.all).trans ?_
  simp only [hsome]

end

theorem deferred_entered (s : State) (key : Nat) (f : Ctl) : ((s.entered key f).crew key).deferred = (s.crew key).deferred := by
  rw [entered_crew]; split <;> rfl
theorem poison_entered (s : State) (key : Nat) (f : Ctl) : ((s.entered key f).crew key).poison = (s.crew key).poison := by
  rw [entered_crew]; split <;> rfl

/-- WAITC goes on when its counters are low enough and no fault is deferred (spec/05 R114). -/
theorem waitc_done {f : Ctl} {l st cc t : BitVec 6} {s : State} {key : Nat} (h : Issues (.waitc f l st cc t) s key)
    (hc : CountsMet l st cc t (s.crew key)) (hd : (s.crew key).deferred = []) (hp : (s.crew key).poison = []) :
    Runs (.waitc f l st cc t) s key (s.entered key f) := by
  by_cases he : ((s.entered key f).crew key).eff f = 0
  · exact (exec_waitc f l st cc t s).trans (once_empty h rfl he)
  · exact (exec_waitc f l st cc t s).trans (once_done h rfl he (awaitCounts_done (hc.entered f)
      (takeDeferred_none ((deferred_entered s key f).trans hd) ((poison_entered s key f).trans hp) _ _ _ _)))

/-- A deferred fault that it covers is raised at it (spec/05 R112). -/
theorem waitc_fault {f : Ctl} {l st cc t : BitVec 6} {s : State} {key : Nat} {r : Report} {c : Crew}
    (h : Issues (.waitc f l st cc t) s key) (he : (s.crew key).eff f ≠ 0) (hc : CountsMet l st cc t (s.crew key))
    (hn : NoRegionLoad s key)
    (htake : ((s.entered key f).crew key).takeDeferred (l ≠ 63) (st ≠ 63) (cc ≠ 63) (t ≠ 63) = some (r, c)) :
    exec (.waitc f l st cc t) s = .next (((s.entered key f).setCrew key c).takeFault key { r with df := true }) :=
  exec_of_trapAt (exec_waitc f l st cc t s) h hn rfl rfl rfl
    ((if_neg (by rwa [eff_entered])).trans (awaitCounts_fault (hc.entered f) htake))

/-- Settles O29, each clause by the lemma about its instruction. -/
theorem hintsAndWaits : Obligations.HintsAndWaits := by
  refine ⟨fun f a ofs l1 s key h => pref_completes h, ?_, ?_⟩
  · intro f sc s key h s0
    refine ⟨fun he => (exec_iinv f sc s).trans (once_empty h rfl (by rwa [eff_entered])), fun he hway => ?_⟩
    exact (iinv_runs h he hway).trans (by cases sc <;> rfl)
  · intro f l st cc t s key h c
    refine ⟨fun he => (exec_waitc f l st cc t s).trans (once_empty h rfl (by rwa [eff_entered])), ?_, ?_⟩
    · intro hl hst hcc ht hd hp
      exact waitc_done h ⟨hl, hst, hcc, ht⟩ hd hp
    · intro r c' he hl hst hcc ht hn htake
      exact waitc_fault h he ⟨hl, hst, hcc, ht⟩ hn htake

end Sys2Proof.Machine

/-! FENCE and CFLUSH (spec/05 R100, R105, R106, spec/12 R207). -/
namespace Sys2Proof.Machine

/-! ## FENCE -/

theorem cachesOnly_releaseCore (s : State) (core : Nat) : CachesOnly s (s.releaseCore core).1 := by
  unfold State.releaseCore
  dsimp only
  generalize (s.core core).replCT = ct
  generalize s.dirtyOf core = lines
  induction lines generalizing s ct with
  | nil => exact CachesOnly.refl s
  | cons x lines ih => exact (cachesOnly_writeBackKept s _ _).trans (ih _ _)

/-- Whether a fence has still to send the core's dirty bytes home (spec/05 R105). -/
def State.releases (s : State) (key : Nat) (kind : Order) (sc : Scope) : Bool :=
  (kind = .rel || kind = .ar) && Scope.wide sc && decide ((s.crew key).phase = 0)

/-- The state in which a fence looks at the operations of its crew: a release has sent the core's dirty bytes home. -/
def State.fenceLooks (s : State) (key : Nat) (kind : Order) (sc : Scope) : State :=
  let r := (s.charge key 3 ((s.dirtyOf (coreOf key)).map fun x => x.2.dirtyBytes).sum).releaseCore (coreOf key)
  if s.releases key kind sc then r.1.modCrew key fun c => { c with ct := max c.ct r.2, phase := 1 } else s

/-- The writeback of a release changes no operation of its crew. -/
theorem crew_fenceLooks (s : State) (key : Nat) (kind : Order) (sc : Scope) :
    ∃ ct phase, (s.fenceLooks key kind sc).crew key = { s.crew key with ct := ct, phase := phase } := by
  unfold State.fenceLooks
  dsimp only
  split
  · generalize ((s.dirtyOf (coreOf key)).map fun x => x.2.dirtyBytes).sum = n
    have hc := ((cachesOnly_charge s key 3 n).trans (cachesOnly_releaseCore _ (coreOf key))).crew key
    generalize (s.charge key 3 n).releaseCore (coreOf key) = r at hc ⊢
    rw [← hc]
    unfold State.modCrew
    split
    · exact ⟨_, _, State.crew_setCrew_self _ _ _⟩
    · exact ⟨_, _, rfl⟩
  · exact ⟨_, _, rfl⟩

/-- What a fence answers in that state. -/
def State.fenceEnds (u : State) (key : Nat) (kind : Order) (sc : Scope) : Passage :=
  if !(u.crew key).storesAtDie then .wait u
  else if Scope.wide sc && u.mer (coreOf key / 16) ≤ (u.crew key).ct then .wait u
  else if sc = .sys && !(u.crew key).acked then .wait u
  else if kind = .acq || kind = .ar then .pass (u.invalidateL1 (coreOf key))
  else .pass u

/-- A fence in its parts: the loads, the writeback that nothing may hold, the look at the stores. -/
theorem fence_eq (s : State) (key : Nat) (kind : Order) (sc : Scope) : s.fence key kind sc =
    if !(s.crew key).loadsBound then .wait s
    else if s.releases key kind sc && (s.dirtyOf (coreOf key)).any (fun x => (s.wayHeld (coreOf key) x.2.home).isSome) then .wait s
    else (s.fenceLooks key kind sc).fenceEnds key kind sc := rfl

section
variable {s u : State} {key : Nat} {kind : Order} {sc : Scope}

theorem fenceEnds_pass (hstores : (u.crew key).storesAtDie = true)
    (hct : Scope.wide sc = true → (u.crew key).ct < u.mer (dieOfCore (coreOf key)))
    (hack : sc = .sys → (u.crew key).acked = true) :
    u.fenceEnds key kind sc = .pass (if kind = .acq ∨ kind = .ar then u.invalidateL1 (coreOf key) else u) := by
  have hpassed : (Scope.wide sc && decide (u.mer (coreOf key / 16) ≤ (u.crew key).ct)) = false := by
    cases hw : Scope.wide sc
    · rfl
    · rw [Bool.true_and, decide_eq_false_iff_not]
      exact Nat.not_le.mpr (hct hw)
  have hacked : (decide (sc = .sys) && !(u.crew key).acked) = false := by
    by_cases hsc : sc = .sys
    · simp [hack hsc]
    · simp [hsc]
  rw [State.fenceEnds, hpassed, hacked, hstores]
  cases kind <;> rfl

/-- A fence passes once the crew's loads are bound and its stores performed, Meridian has passed its completion time at a wide scope,
and another package has acknowledged its stores at `sys` (spec/05 R105). -/
theorem fence_passes (hu : u = s.fenceLooks key kind sc) (hloads : (s.crew key).loadsBound = true)
    (hstores : (s.crew key).storesAtDie = true)
    (hway : s.releases key kind sc = true → ∀ x ∈ s.dirtyOf (coreOf key), s.wayHeld (coreOf key) x.2.home = none)
    (hct : Scope.wide sc = true → (u.crew key).ct < u.mer (dieOfCore (coreOf key)))
    (hack : sc = .sys → (s.crew key).acked = true) :
    s.fence key kind sc = .pass (if kind = .acq ∨ kind = .ar then u.invalidateL1 (coreOf key) else u) := by
  obtain ⟨ct, phase, hcrew⟩ := crew_fenceLooks s key kind sc
  have hfree : (s.releases key kind sc && (s.dirtyOf (coreOf key)).any fun x => (s.wayHeld (coreOf key) x.2.home).isSome) = false := by
    cases hr : s.releases key kind sc
    · rfl
    · rw [Bool.true_and, List.any_eq_false]
      intro x hx
      simp [hway hr x hx]
  rw [fence_eq, hloads, hfree, ← hu]
  exact fenceEnds_pass (by rw [hu, hcrew]; exact hstores) hct fun hsc => by rw [hu, hcrew]; exact hack hsc

end

theorem exec_fence (f : Ctl) (kind : Order) (sc : Scope) (s : State) : exec (.fence f kind sc) s =
    once (.fence f kind sc) f s fun s key _ => fenced s key kind sc fun t => .done t := rfl

/-! ## CFLUSH -/

/-- The flush of some lines, one after the other, with the latest completion time to pass (spec/05 R106). -/
def State.flushLines (s : State) (core : Nat) (sc : Scope) (inv : Bool) (lanes : List LaneAcc) : State × Option Nat :=
  lanes.foldl (fun (acc : State × Option Nat) a =>
    let r := acc.1.flushLine core sc inv a
    (r.1, match r.2 with | some x => some (max x (acc.2.getD 0)) | none => acc.2)) (s, none)

/-- The flush of some lines, charged, performed and counted in S (spec/05 R106, spec/15 R264). -/
def State.flushCounted (s : State) (key : Nat) (sc : Scope) (inv : Bool) (lanes : List LaneAcc) : State :=
  let x := (s.charge key 3 (s.flushBytes (coreOf key) sc inv lanes)).flushLines (coreOf key) sc inv lanes
  x.1.modCrew key fun c => { c with ct := max c.ct (x.2.getD 0) }.addStore { id := 0, pc := c.pc, ct := x.2 }

theorem exec_cflush (f : Ctl) (a : Operand) (ofs : BitVec 20) (sc : Scope) (inv : Bool) (s : State) : exec (.cflush f a ofs sc inv) s =
    issue (.cflush f a ofs sc inv) s fun s key c =>
      if counterFull c.stores then .wait .counter s
      else held s key .write 1 (globalAddrs s key c a ofs (c.effLanes f)) fun lanes t =>
        held? t key (t.flushHeld (coreOf key) sc inv lanes) (.done (t.flushCounted key sc inv lanes)) := rfl

/-- CFLUSH whose lanes translate, and whose writebacks nothing holds, is counted with them (spec/05 R106). -/
theorem cflush_runs {f : Ctl} {a : Operand} {ofs : BitVec 20} {sc : Scope} {inv : Bool} {s s0 t : State} {key : Nat} {c : Crew}
    {lanes : List LaneAcc} (h : Issues (.cflush f a ofs sc inv) s key) (hs : s0 = s.entered key f) (hc : c = s0.crew key)
    (hroom : c.stores.length < 63) (hacc : s0.access key .write 1 (globalAddrs s0 key c a ofs (c.effLanes f)) = .ok lanes t)
    (hheld : t.flushHeld (coreOf key) sc inv lanes = none) : Runs (.cflush f a ofs sc inv) s key (t.flushCounted key sc inv lanes) := by
  refine runs_of_done (exec_cflush f a ofs sc inv s) h rfl hs hc ?_
  simp only [counterFull_of_room hroom, held, hacc, hheld, held?_none, Bool.false_eq_true, if_false]

/-- A flush of no line counts, and is charged nothing (spec/01 R12). -/
theorem flushCounted_nil (s : State) (key : Nat) (sc : Scope) (inv : Bool) :
    s.flushCounted key sc inv [] = s.modCrew key fun c => c.addStore { id := 0, pc := c.pc } := by
  simp only [State.flushCounted, State.flushLines, State.flushBytes, List.filter_nil, List.map_nil, List.eraseDups_nil, List.sum_nil, List.foldl_nil,
    Option.getD_none, Nat.max_zero]
  rfl

/-- Settles O30: a fence passes in the state in which it looks at its crew's operations; a flush goes line by line. -/
theorem orderingInstructions : Obligations.OrderingInstructions := by
  refine ⟨?_, ?_, ?_⟩
  · intro f kind sc s key h s0 c core rel goes r u
    refine ⟨fun he => (exec_fence f kind sc s).trans (once_empty h rfl he), fun he hloads hstores hway hct hack => ?_⟩
    have hpass := fence_passes (s := s0) (key := key) (kind := kind) (u := u) rfl hloads hstores hway hct hack
    exact (exec_fence f kind sc s).trans (once_done h rfl he (by rw [fenced, hpass]))
  · intro f a ofs sc inv s key lanes t h s0 c hroom hacc hheld x
    exact cflush_runs h rfl rfl hroom hacc hheld
  · intro f a ofs sc inv s key h hlanes hroom
    have hrun := cflush_runs (lanes := []) (t := s.entered key f) h rfl rfl (by rw [entered_crew]; split <;> exact hroom)
      (by rw [effLanes_entered, hlanes]; rfl) rfl
    rwa [flushCounted_nil] at hrun

end Sys2Proof.Machine

/-! TSHAPE and TCOPY (spec/05 R108-R113, spec/08 R159). -/
namespace Sys2Proof.Machine

/-! ## TSHAPE -/

/-- What TSHAPE with an effective lane does (spec/05 R108, R109). -/
def loadShape (a b : Operand) (s : State) (key : Nat) (c : Crew) : Issue :=
  let slot := (s.uni key c false a).toNat
  let ofs := (s.uni key c false b).toNat % 2 ^ 32
  let p := s.party c.party
  if slot > 15 then .trap (shapeFault slot)
  else match p.recordFault ofs 64 64 with
    | some r => .trap r
    | none =>
      let r : BitVec 512 := BitVec.ofNat 512 (p.record ofs 64)
      if shapeOk r c.role (s.task p.task).partyCount then .done (s.setParty c.party { p with shapes := Tbl.set p.shapes slot r })
      else .trapAt (s.setParty c.party { p with shapes := Tbl.del p.shapes slot }) (shapeFault slot)

theorem exec_tshape (f : Ctl) (a b : Operand) (s : State) :
    exec (.tshape f a b) s = once (.tshape f a b) f s (loadShape a b) := rfl

/-- A record that is aligned and within the scratchpad does not fault (spec/05 R110). -/
theorem recordFault_eq_none {p : Party} {ofs n align : Nat} (ha : ofs % align = 0) (hb : ofs + n ≤ p.scratchLen) :
    p.recordFault ofs n align = none := by
  rw [Party.recordFault, if_neg (not_not.mpr ha), if_neg (Nat.not_lt.mpr hb)]

section
variable {a b : Operand} {s : State} {key : Nat} {c : Crew} {slot : Nat} {p : Party} {r : BitVec 512} {ofs : Nat}

/-- The record in the scratchpad that TSHAPE names, and the slot that it goes to. -/
structure ShapeAt (a b : Operand) (s : State) (key : Nat) (c : Crew) (p : Party) (slot ofs : Nat) (r : BitVec 512) : Prop where
  partyEq : p = s.party c.party
  slotEq : slot = (s.uni key c false a).toNat
  ofsEq : ofs = (s.uni key c false b).toNat % 2 ^ 32
  recordEq : r = BitVec.ofNat 512 (fromBytesLE (Memory.readBytes p.scratch ofs 64))
  slotLt : slot < 16
  aligned : ofs % 64 = 0
  inside : ofs + 64 ≤ p.scratchLen

theorem loadShape_eq (h : ShapeAt a b s key c p slot ofs r) : loadShape a b s key c =
    if shapeOk r c.role (s.task p.task).partyCount then .done (s.setParty c.party { p with shapes := Tbl.set p.shapes slot r })
    else .trapAt (s.setParty c.party { p with shapes := Tbl.del p.shapes slot }) (shapeFault slot) := by
  obtain ⟨rfl, rfl, rfl, rfl, hslot, hal, hin⟩ := h
  rw [loadShape]
  dsimp only
  rw [if_neg (by omega), recordFault_eq_none hal hin]
  rfl

end

/-! ## TCOPY -/

/-- What TCOPY with an effective lane does (spec/05 R110, R111, R113). -/
def startCopy (a b : Operand) (rf : Option Operand) (dd : Bool) (s : State) (key : Nat) (c : Crew) : Issue :=
  let slot := (s.uni key c false a).toNat
  let p := s.party c.party
  match Tbl.get? p.shapes slot with
  | none => .trap (shapeFault slot)
  | some r =>
    let disp := s.uni key c true b
    let plan := copyPlan r disp dd
    match s.rowsFault key plan.src plan.srcLen plan.srcRows, s.rowsFault key plan.dst plan.dstLen plan.dstRows with
    | some x, _ => .trap x
    | _, some x => .trap x
    | none, none =>
      match rf with
      | none => .done (s.addCopy key (.copy slot r disp dd none))
      | some e =>
        match p.heldSlot (s.uni key c false e).toNat with
        | .error x => .trap x
        | .ok (ri, si) =>
          .done ((s.setParty c.party (p.setSlot ri si fun x => { x with st := .pend })).modCrew key
            fun c => c.addC (.copy slot r disp dd (some (ri, si))))

theorem exec_tcopy (f : Ctl) (a b : Operand) (rf : Option Operand) (dd : Bool) (s : State) :
    exec (.tcopy f a b rf dd) s = countedC (.tcopy f a b rf dd) f s (startCopy a b rf dd) := rfl

/-- A slot of a ring that is HELD is what `.rf` names (spec/08 R159). -/
theorem heldSlot_ok {p : Party} {e : Nat} {g : Ring} (hg : Tbl.get? p.rings (e / 256) = some g) (hlt : e % 256 < g.slots.length)
    (hst : (g.slots.getD (e % 256) {}).st = .held) : p.heldSlot e = .ok (e / 256, e % 256) := by
  unfold Party.heldSlot
  dsimp only
  rw [hg]
  exact if_pos (by rw [hst, decide_eq_true hlt]; rfl)

section
variable {f : Ctl} {a b : Operand} {rf : Option Operand} {dd : Bool} {s s0 t : State} {key : Nat} {c : Crew}

/-- The frame of an instruction counted in C, with an effective lane and with none (spec/01 R12, spec/05 R113). -/
theorem countedC_done {i : Instr} {body : State → Nat → Crew → Issue} (hx : exec i s = countedC i f s body) (h : Issues i s key)
    (hf : Instr.hints i = f) (hs : s0 = s.entered key f) (hc : c = s0.crew key) (hroom : c.cops.length < 63) (he : c.eff f ≠ 0)
    (hb : body s0 key c = .done t) : Runs i s key t :=
  runs_of_done hx h hf hs hc
    ((if_neg (ne_true_of_eq_false (counterFull_of_room hroom))).trans ((if_neg he).trans hb))

theorem countedC_empty {i : Instr} {body : State → Nat → Crew → Issue} (hx : exec i s = countedC i f s body) (h : Issues i s key)
    (hf : Instr.hints i = f) (hs : s0 = s.entered key f) (hc : c = s0.crew key) (hroom : c.cops.length < 63) (he : c.eff f = 0) :
    Runs i s key (s0.modCrew key fun c => c.addC .empty) :=
  runs_of_done hx h hf hs hc ((if_neg (ne_true_of_eq_false (counterFull_of_room hroom))).trans (if_pos he))

/-- The shape in the slot that TCOPY names, whose rows lie in their spaces (spec/05 R110). -/
structure CopyOf (a b : Operand) (dd : Bool) (s : State) (key : Nat) (c : Crew) (r : BitVec 512) : Prop where
  shape : Tbl.get? (s.party c.party).shapes (s.uni key c false a).toNat = some r
  src : let plan := copyPlan r (s.uni key c true b) dd
    s.rowsFault key plan.src plan.srcLen plan.srcRows = none
  dst : let plan := copyPlan r (s.uni key c true b) dd
    s.rowsFault key plan.dst plan.dstLen plan.dstRows = none

variable {r : BitVec 512}

theorem startCopy_plain (h : CopyOf a b dd s key c r) : startCopy a b none dd s key c =
    .done (s.addCopy key (.copy (s.uni key c false a).toNat r (s.uni key c true b) dd none)) := by
  obtain ⟨hshape, hsrc, hdst⟩ := h
  dsimp only at hsrc hdst
  rw [startCopy]
  simp only [hshape, hsrc, hdst]

theorem startCopy_ring {e : Operand} {x : Nat × Nat} (h : CopyOf a b dd s key c r)
    (hheld : (s.party c.party).heldSlot (s.uni key c false e).toNat = .ok x) : startCopy a b (some e) dd s key c =
    .done ((s.setParty c.party ((s.party c.party).setSlot x.1 x.2 fun x => { x with st := .pend })).modCrew key
      fun y => y.addC (.copy (s.uni key c false a).toNat r (s.uni key c true b) dd (some x))) := by
  obtain ⟨hshape, hsrc, hdst⟩ := h
  dsimp only at hsrc hdst
  rw [startCopy]
  simp only [hshape, hsrc, hdst, hheld]

end

/-- Settles O35: a record is judged as it stands in the scratchpad, and a copy takes it as it stands in its slot. -/
theorem shapesAndCopies : Obligations.ShapesAndCopies := by
  refine ⟨?_, ?_, ?_⟩
  · intro f a b s key h s0 c p slot ofs r ok he hslot hal hin
    have hshape := loadShape_eq (a := a) (b := b) (s := s0) (key := key) (c := c) ⟨rfl, rfl, rfl, rfl, hslot, hal, hin⟩
    refine ⟨fun hok => ?_, fun hok hn => ?_⟩
    · exact (exec_tshape f a b s).trans (once_done h rfl he (hshape.trans (if_pos hok)))
    · exact exec_of_trapAt (exec_tshape f a b s) h hn rfl rfl rfl
        ((if_neg he).trans (hshape.trans (if_neg (ne_true_of_eq_false hok))))
  · intro f a b rf dd s key r h s0 c p slot disp plan hroom he hshape hsrc hdst
    have hcopy : CopyOf a b dd s0 key c r := ⟨hshape, hsrc, hdst⟩
    refine ⟨?_, ?_⟩
    · rintro rfl
      exact countedC_done (exec_tcopy f a b none dd s) h rfl rfl rfl hroom he (startCopy_plain hcopy)
    · rintro e g rfl hg hlt hst at_
      exact countedC_done (exec_tcopy f a b (some e) dd s) h rfl rfl rfl hroom he
        (startCopy_ring hcopy (heldSlot_ok hg hlt hst))
  · intro f a b rf dd s key h hroom he
    refine countedC_empty (exec_tcopy f a b rf dd s) h rfl rfl rfl ?_ (by rwa [eff_entered])
    rw [entered_crew]; split <;> exact hroom

end Sys2Proof.Machine

/-! COPY_COMPLETE and COPY_ABANDON (spec/05 R111-R113, spec/08 R159). -/
namespace Sys2Proof.Machine

/-! ## The events of a copy -/

/-- An event of a crew's operations happens on a die that does not relock. -/
theorem eventOf_of {key : Nat} {s t : State} {g : State → State} (h : s.relocking (dieOfCore (coreOf key)) = false) (hg : g s = t) :
    eventOf key s g = .next t.crewsEnd.wakeCrews := by
  rw [eventOf, eventOn_of h, hg]

/-- One of its engines, too, while the class is not held (spec/15 R264). -/
theorem engineEvent_of {key : Nat} {s t : State} {g : State → State} (h : s.relocking (dieOfCore (coreOf key)) = false)
    (hc : s.classHeld key = false) (hg : g s = t) : engineEvent key s g = .next t.crewsEnd.wakeCrews :=
  eventOf_of h ((if_neg (ne_true_of_eq_false hc)).trans hg)

/-- What a run of `n` units has made of a copy so far, and what it waits for. -/
def copyAfter (key : Nat) (o : CPend) (n : Nat) (x : CopyRun) (why : Option Wait) (die : Nat) : State :=
  (x.s.modCrew key fun c => { c with ct := max c.ct x.w.ct }).modC key o.id fun o =>
    { o with rows := x.rows, buf := x.buf, todo := x.todo, first := x.first, ct := maxOpt o.ct x.w.wait,
             applied := x.err.isNone && n ≤ x.rows, why := why, heldDie := die }

section
variable {key : Nat} {o : CPend} {n : Nat} {x : CopyRun}

theorem copyStep_ok (h : x.err = none) : copyStep key o n x = copyAfter key o n x none 4 := by
  simp only [copyStep, h]
  simp only [copyAfter, h]
  rfl

theorem copyStep_held {d : Nat} (h : x.err = some (.held d)) : copyStep key o n x = copyAfter key o n x (some .clock) d := by
  simp only [copyStep, h]
  simp only [copyAfter, h]
  rfl

theorem copyStep_trans {va : Nat} {hm : Bool} (h : x.err = some (.trans va hm)) :
    copyStep key o n x = copyAfter key o n x (some .walk) 4 := by
  simp only [copyStep, h]
  simp only [copyAfter, h]
  rfl

/-- A copy that is given up at a page that nobody maps (spec/05 R112, spec/08 R159). -/
theorem copyGivesUp_trans {slot va : Nat} {hm dd : Bool} {r : BitVec 512} {disp : DWord} {ring : Option (Nat × Nat)}
    (hk : o.kind = .copy slot r disp dd ring) (h : x.err = some (.trans va hm)) :
    copyGivesUp key o n x (engReport 0x0D 1 slot (.trans va hm)) =
      (((copyAfter key o n x (some .walk) 4).endAsk key).modCrew key fun c =>
        { c with stuckSlots := c.stuckSlots ++ ring.toList
                 cops := c.cops.map fun (y : CPend) => if y.id = o.id then { y with
                   done := true, fault := some { cause := 0x0D, eng := 1, d1 := BitVec.ofNat 32 slot, d2 := 3 } } else y }).dropOps key := by
  unfold copyGivesUp
  rw [copyStep_trans h, hk]
  cases ring <;> rfl

end

/-- What COPY_COMPLETE makes of a copy of `n` units that has gone as far as a run shows. -/
def copyOutcome (key : Nat) (o : CPend) (slot n : Nat) (x : CopyRun) : State :=
  match x.err with
  | some e => if e.final then copyGivesUp key o n x (engReport 0x0D 1 slot e) else copyStep key o n x
  | none =>
    let t := copyStep key o n x
    if n ≤ x.rows && !x.w.ack && t.passed key (maxOpt o.ct x.w.wait) then t.finishCopy key o else t

section
variable {key slot n : Nat} {o : CPend} {x : CopyRun}

/-- All its units are written, and nothing is left to wait for: it leaves C (spec/05 R111). -/
theorem copyOutcome_finishes (h : x.err = none) (hn : n ≤ x.rows) (hack : x.w.ack = false)
    (hp : (copyAfter key o n x none 4).passed key (maxOpt o.ct x.w.wait) = true) :
    copyOutcome key o slot n x = (copyAfter key o n x none 4).finishCopy key o := by
  simp only [copyOutcome, h, copyStep_ok h]
  exact if_pos (by rw [hack, hp, decide_eq_true hn]; rfl)

/-- Something is left: it stays in C (spec/05 R111, log 67). -/
theorem copyOutcome_goes_on (h : x.err = none)
    (hmore : ¬(n ≤ x.rows ∧ x.w.ack = false ∧ (copyAfter key o n x none 4).passed key (maxOpt o.ct x.w.wait) = true)) :
    copyOutcome key o slot n x = copyAfter key o n x none 4 := by
  simp only [copyOutcome, h, copyStep_ok h]
  exact if_neg (by simpa [and_assoc] using hmore)

/-- A die that relocks holds it (spec/18 R287). -/
theorem copyOutcome_held {d : Nat} (h : x.err = some (.held d)) :
    copyOutcome key o slot n x = copyAfter key o n x (some .clock) d := by
  simp only [copyOutcome, h, copyStep_held h]
  rfl

end

/-- The run that one COPY_COMPLETE makes: a free number of the units that are left (log 67). -/
def copySteps (key : Nat) (o : CPend) (r : BitVec 512) (disp : DWord) (dd : Bool) (s : State) : CopyRun :=
  let k := s.engineSteps (if (copyPlan r disp dd).overlapping then 1 else (copyAll r disp dd).length - o.rows)
  k.2.runCopy key r disp dd o k.1

/-- What COPY_COMPLETE makes of the oldest copy of a crew. -/
def copyTurn (key : Nat) (o : CPend) (slot : Nat) (r : BitVec 512) (disp : DWord) (dd : Bool) (s : State) : State :=
  if o.applied then (if s.passed key o.ct then s.finishCopy key o else s)
  else if s.engineRejected key || s.accHeld key o || s.accBehind key o then s
  else copyOutcome key o slot (copyAll r disp dd).length (copySteps key o r disp dd s)

section
variable {s : State} {key slot : Nat} {o : CPend} {r : BitVec 512} {disp : DWord} {dd : Bool} {ring : Option (Nat × Nat)}

theorem exec_copyComplete (hr : s.relocking (dieOfCore (coreOf key)) = false) (hc : s.classHeld key = false)
    (ho : (s.crew key).oldestC CKind.isCopy = some o) (hk : o.kind = .copy slot r disp dd ring) :
    Happens (.copyComplete key) s (copyTurn key o slot r disp dd s) := by
  refine engineEvent_of (key := key) hr hc ?_
  dsimp only
  rw [ho]
  dsimp only
  rw [hk]
  rfl

theorem copyTurn_runs (ha : o.applied = false) (hrej : s.engineRejected key = false) (hheld : s.accHeld key o = false)
    (hbehind : s.accBehind key o = false) : copyTurn key o slot r disp dd s =
      copyOutcome key o slot (copyAll r disp dd).length (copySteps key o r disp dd s) := by
  rw [copyTurn, ha, hrej, hheld, hbehind]
  rfl

theorem copyTurn_finishes (ha : o.applied = true) (hp : s.passed key o.ct = true) :
    copyTurn key o slot r disp dd s = s.finishCopy key o := by
  rw [copyTurn, ha, hp]
  rfl

theorem exec_copyAbandon (hr : s.relocking (dieOfCore (coreOf key)) = false) (ho : (s.crew key).oldestC CKind.isCopy = some o)
    (hk : o.kind = .copy slot r disp dd ring) {va : Nat} {hm : Bool} (ha : o.applied = false) (hheld : s.accHeld key o = false)
    (herr : (s.runCopy key r disp dd o (copyAll r disp dd).length).err = some (.trans va hm))
    (hw : s.engineWaits key (.trans va hm) = false) : Happens (.copyAbandon key) s
      (copyGivesUp key o (copyAll r disp dd).length (s.runCopy key r disp dd o (copyAll r disp dd).length)
        (engReport 0x0D 1 slot (.trans va hm))) := by
  refine eventOf_of (key := key) hr ?_
  dsimp only
  rw [ho]
  dsimp only
  rw [hk]
  dsimp only
  rw [ha, hheld, herr]
  exact if_neg (ne_true_of_eq_false hw)

end

/-- Settles O36: the event runs units of the oldest copy, and what stopped it, or the end of its units, decides. -/
theorem copyEvents : Obligations.CopyEvents := by
  intro s crew o slot r disp dd ring hr ho hk n whole after
  refine ⟨?_, fun hc ha hp => ?_, ?_⟩
  · intro hc ha hrej hheld hbehind k x t
    have hrun : Happens (.copyComplete crew) s (copyOutcome crew o slot n x) :=
      copyTurn_runs (s := s) ha hrej hheld hbehind ▸ exec_copyComplete hr hc ho hk
    refine ⟨fun herr hn hack hp => ?_, fun herr hmore => ?_, fun d herr => ?_⟩
    · rw [copyOutcome_finishes herr hn hack hp] at hrun
      exact hrun
    · rw [copyOutcome_goes_on herr hmore] at hrun
      exact hrun
    · rw [copyOutcome_held herr] at hrun
      exact hrun
  · rw [← copyTurn_finishes ha hp]
    exact exec_copyComplete hr hc ho hk
  · intro x va hm ha hheld herr hw
    have hgive := exec_copyAbandon hr ho hk ha hheld herr hw
    rw [copyGivesUp_trans hk herr] at hgive
    exact hgive

end Sys2Proof.Machine

/-! The events of loads, stores, walks and leases (spec/05 R98-R100, spec/12 R205, R207, spec/13 R224, R226). -/
namespace Sys2Proof.Machine

section
variable {s : State} {crew idx : Nat} {m : MemPend}

/-- What LOAD_BIND makes of an operation of a crew's L queue (spec/05 R98, R100). -/
def loadTurn (crew : Nat) (m : MemPend) (s : State) : State :=
  if m.done || m.svc > 0 || (m.acq && !(s.crew crew).olderPerformed m.id) then s
  else match m.req with
    | some q => if (s.core (coreOf crew)).rejected.contains (loadAsk crew) then s else s.resolveLoad crew m q
    | none => s.bindLoad crew m

theorem loadBind_happens (hr : s.relocking (dieOfCore (coreOf crew)) = false) (hm : (s.crew crew).loads[idx]? = some m) :
    Happens (.loadBind crew idx) s (loadTurn crew m s) := by
  refine eventOf_of (key := crew) hr ?_
  rw [hm]
  rfl

/-- A served load binds, an acquire once what is older has been performed (spec/05 R98, R100). -/
theorem loadTurn_binds (hd : m.done = false) (hv : m.svc = 0) (hq : m.req = none)
    (ha : m.acq = true → (s.crew crew).olderPerformed m.id = true) : loadTurn crew m s = s.bindLoad crew m := by
  have hready : ¬ (m.done || m.svc > 0 || (m.acq && !(s.crew crew).olderPerformed m.id)) = true := by
    simpa [hd, hv] using ha
  rw [loadTurn, if_neg hready, hq]

/-- What STORE_COMPLETE makes of an operation of a crew's S queue (spec/05 R99, spec/06 R122). -/
def storeTurn (crew : Nat) (m : MemPend) (s : State) : State :=
  if m.done || m.svc > 0 || !s.passed crew m.ct then s
  else if s.severed m then s.loseMem crew m.id
  else
    (s.modCrew crew fun c =>
      let c := if m.dsts.isEmpty then c else c.bindDst .s m
      { c with stores := c.stores.map fun (x : MemPend) =>
          if x.id = m.id then { m with done := true, bad := if m.dsts.isEmpty then m.bad else none } else x }).dropOps crew

theorem storeComplete_happens (hr : s.relocking (dieOfCore (coreOf crew)) = false) (hm : (s.crew crew).stores[idx]? = some m) :
    Happens (.storeComplete crew idx) s (storeTurn crew m s) := by
  refine eventOf_of (key := crew) hr ?_
  dsimp only
  rw [hm]
  rfl

theorem passed_of {ct : Option Nat} (h : ∀ t, ct = some t → t < s.mer (dieOfCore (coreOf crew))) : s.passed crew ct = true := by
  cases ct with
  | none => rfl
  | some t => exact decide_eq_true (h t rfl)

/-- A store without destinations leaves its counter once it has been served and Meridian has passed it. -/
theorem storeTurn_completes (hd : m.done = false) (hv : m.svc = 0) (hds : m.dsts = []) (hp : s.passed crew m.ct = true)
    (hsev : s.severed m = false) :
    storeTurn crew m s = (s.modCrew crew fun c => { c with stores := c.stores.map fun (x : MemPend) =>
      if x.id = m.id then { m with done := true } else x }).dropOps crew := by
  rw [storeTurn, if_neg (by simp [hd, hv, hp]), if_neg (ne_true_of_eq_false hsev), hds]
  rfl

/-- One whose answer cannot come any more is lost (spec/13 R239, spec/26 R353). -/
theorem storeTurn_loses (hd : m.done = false) (hv : m.svc = 0) (hp : s.passed crew m.ct = true) (hsev : s.severed m = true) :
    storeTurn crew m s = s.loseMem crew m.id := by
  rw [storeTurn, if_neg (by simp [hd, hv, hp]), if_pos hsev]

end

section
variable {s : State}

/-- An event of a service crew happens when the crew's die, where it has one, does not relock (spec/18 R286). -/
theorem onService_of {svc : Nat} {g : State → State} (h : s.relocking (svcDie svc) = false) :
    onService svc s g = .next (g s).crewsEnd.wakeCrews := by
  unfold onService
  split
  · exact eventOn_of h
  · rfl

theorem waitAtHomeSatisfied_happens {svc idx : Nat} (hr : s.relocking (svcDie svc) = false) (hi : idx < (s.svc svc).waiters.length) :
    Happens (.waitAtHomeSatisfied svc idx) s (s.notify svc) := by
  refine (onService_of hr).trans ?_
  exact congrArg (fun t : State => Host.Outcome.next t.crewsEnd.wakeCrews) (if_pos hi)

theorem accessRetry_happens {core k : Nat} {rest : List Nat} (hr : s.relocking (dieOfCore core) = false)
    (hk : (s.core core).rejected = k :: rest) (hc : (Tbl.get? s.crews k).isSome = true) : Happens (.accessRetry core) s
      ((s.modCore core fun c => { c with rejected := rest }).modCrew k fun c => { c with wait := none }) := by
  refine (eventOn_of hr).trans ?_
  dsimp only
  rw [hk]
  exact congrArg (fun t : State => Host.Outcome.next t.crewsEnd.wakeCrews) (if_pos hc)

/-- What PAGE_WALK_DONE makes of a walk that ends with an entry (spec/13 R224). -/
def walkTurn (die idx : Nat) (w : Walk) (e : TlbEntry) (s : State) : State :=
  match e.denies w.need with
  | some sub =>
    if (Tbl.get? s.crews (askedFor w.crew)).isSome then
      s.setDie die { s.die die with walks := (s.die die).walks.set idx { w with failed := some (sub, e.hm) } }
    else s.setDie die { s.die die with walks := (s.die die).walks.eraseIdx idx }
  | none =>
    w.cores.foldl (fun s k => s.modCore k fun c => { c with tlb := tlbInsert c.tlb Config.l1TlbSize e })
      (s.setDie die { s.die die with walks := (s.die die).walks.eraseIdx idx, tlb := tlbInsert (s.die die).tlb Config.sharedTlbSize e })

theorem pageWalkDone_happens {die idx : Nat} {w : Walk} {e : TlbEntry} (hr : s.relocking die = false)
    (hw : (s.die die).walks[idx]? = some w) (hf : w.failed = none) (he : s.pageWalk w.ctx w.va = .ok e)
    (hahead : (((s.die die).walks.take idx).filter fun y => y.failed.isNone).length < 64) :
    Happens (.pageWalkDone die idx) s (walkTurn die idx w e s) := by
  have hturn : ¬ (w.failed.isSome ||
      decide (Config.walkers ≤ (((s.die die).walks.take idx).filter fun y => y.failed.isNone).length)) = true := by
    rw [hf, decide_eq_false (not_le_of_gt (show _ < Config.walkers from hahead))]
    exact Bool.false_ne_true
  refine (eventOn_of hr).trans ?_
  dsimp only
  rw [hw]
  dsimp only
  rw [if_neg hturn, he]
  unfold walkTurn
  cases hden : e.denies w.need <;> simp only [Except.map, hden]

theorem replacementWriteback_happens {die line : Nat} (hr : s.relocking die = false)
    (hway : (s.l2 die line).dirtyMask ≠ 0 → s.wayHeld (16 * die) (s.l2 die line).home = none) :
    Happens (.replacementWriteback die line) s (s.replaceLine die line) := by
  have hgo : ¬ ((s.l2 die line).dirtyMask != 0 && (s.wayHeld (16 * die) (s.l2 die line).home).isSome) = true := by
    by_cases hd : (s.l2 die line).dirtyMask = 0
    · simp [hd]
    · simp [hway hd]
  refine (eventOn_of hr).trans ?_
  exact congrArg (fun t : State => Host.Outcome.next t.crewsEnd.wakeCrews) (if_neg hgo)

theorem replaceLine_clean {die line : Nat} (hd : (s.l2 die line).dirtyMask = 0) :
    s.replaceLine die line = s.setL2 die line {} :=
  congrArg (fun t : State => t.setL2 die line {}) (if_pos hd)

theorem replaceLine_dirty {die line : Nat} (hd : (s.l2 die line).dirtyMask ≠ 0) :
    s.replaceLine die line = (s.writeBackKept die line).1.setL2 die line {} :=
  congrArg (fun t : State => t.setL2 die line {}) (if_neg hd)

theorem leaseExpiry_happens {die line exp : Nat} {l : Line} (hc : (s.l2 die line).clean = some (exp, l)) (he : exp ≤ s.mer die + 2) :
    Happens (.leaseExpiry die line) s (s.setL2 die line { s.l2 die line with clean := none }) := by
  refine (?_ : execLeaseExpiry die line s = _)
  unfold execLeaseExpiry event
  dsimp only
  rw [hc]
  exact congrArg (fun t : State => Host.Outcome.next t.crewsEnd.wakeCrews) (if_pos he)

end

/-- Settles O50, an event at a time: each one's guard lets it happen, and its turn is the branch that the statement names. -/
theorem memoryEvents : Obligations.MemoryEvents := by
  refine ⟨?_, ?_, fun s svc idx => waitAtHomeSatisfied_happens, fun s core k rest => accessRetry_happens, ?_, ?_,
    fun s die line exp l => leaseExpiry_happens⟩
  · intro s crew idx m hr hm hd hv hq ha
    exact loadTurn_binds hd hv hq ha ▸ loadBind_happens hr hm
  · intro s crew idx m hr hm hd hv hds hct
    have hp : s.passed crew m.ct = true := passed_of hct
    have hrun := storeComplete_happens hr hm
    refine ⟨fun hans => ?_, fun hack hgone => ?_⟩
    · have hsev : s.severed m = false := by
        rcases hans with hack | ⟨hcut, hun⟩
        · simp [State.severed, hack]
        · simp [State.severed, hcut, hun]
      exact storeTurn_completes hd hv hds hp hsev ▸ hrun
    · have hsev : s.severed m = true := by simpa [State.severed, hack] using hgone
      rw [storeTurn_loses hd hv hp hsev] at hrun
      exact hrun
  · intro s die idx w e hr hw hf he hahead
    have hrun := pageWalkDone_happens hr hw hf he hahead
    refine ⟨fun hden => ?_, fun sub hden hcrew => ?_⟩
    · rw [walkTurn, hden] at hrun
      exact hrun
    · rw [walkTurn, hden] at hrun
      dsimp only at hrun
      rw [if_pos hcrew] at hrun
      exact hrun
  · intro s die line hr
    refine ⟨fun hd => ?_, fun hd hway => ?_⟩
    · exact replaceLine_clean hd ▸ replacementWriteback_happens hr fun h => absurd hd h
    · have hrun := replacementWriteback_happens hr fun _ => hway
      rw [replaceLine_dirty hd] at hrun
      exact hrun

end Sys2Proof.Machine

/-! The values of integer atomics, atomics of the scratchpad, and the requests of ATOM, RED and FRED (spec/06 R117-R124). -/
namespace Sys2Proof.Machine

/-! ## Values -/

section
variable {w : Nat} (x b e : BitVec w)

/-- Operands of w bits need no reduction before an exchange or a compare (spec/06 R120). -/
theorem exch_toNat : MemOp.apply .exch w x.toNat b.toNat e.toNat = b.toNat := Nat.mod_eq_of_lt b.isLt

theorem cas_toNat : MemOp.apply .cas w x.toNat b.toNat e.toNat = (if x = e then b else x).toNat := by
  simp only [MemOp.apply, Nat.mod_eq_of_lt b.isLt, Nat.mod_eq_of_lt e.isLt, BitVec.toNat_inj]
  exact (apply_ite BitVec.toNat _ _ _).symm

end

/-- Settles O33: each operation on numbers below 2^w is the operation of words of its name. -/
theorem atomicValues : Obligations.AtomicValues := by
  intro w x b e _
  exact ⟨(BitVec.toNat_add x b).symm, fun u => minInt_toNat u x b, fun u => maxInt_toNat u x b, (BitVec.toNat_and x b).symm,
    (BitVec.toNat_or x b).symm, (BitVec.toNat_xor x b).symm, exch_toNat x b e, cas_toNat x b e⟩

/-! ## ATOMS -/

theorem exec_atoms (f : Ctl) (d a b : Operand) (op : AtomOp) (peer : Option (BitVec 3)) (sz u : Bool) (s : State) :
    exec (.atoms f d a b op peer sz u) s = execAtoms f d a b op peer sz u s := rfl

/-- One lane of ATOMS on the scratchpad of party `k`: what it makes of the state, the register writes and the first uncorrectable offset
that the lanes before it have left (spec/06 R120, spec/05 R115). -/
def State.atomsLane (s : State) (key k : Nat) (c : Crew) (d b : Operand) (op : AtomOp) (sz u : Bool)
    (acc : State × List RegWrite × Option DWord) (x : Nat × Nat) : State × List RegWrite × Option DWord :=
  let n := if sz then 8 else 4
  match firstBad (acc.1.party k).scratchBad n [x.2] with
  | some o => (acc.1, acc.2.1, some (acc.2.2.getD o))
  | none =>
    let old := fromBytesLE (Memory.readBytes (acc.1.party k).scratch x.2 n)
    let new := MemOp.apply (AtomOp.memOp op u) (8 * n) old (s.operandNat key c sz b x.1)
      (s.operandNat key c sz (AtomOp.compare op) x.1)
    (acc.1.modParty k fun p => p.putScratch x.2 (toBytesLE n new), acc.2.1 ++ destWrites d (n / 4) x.1 old, acc.2.2)

/-- What ATOMS does with its lanes is counted in L, with the values that they have read. -/
def State.atomsCounted (s : State) (key k : Nat) (c : Crew) (d b : Operand) (op : AtomOp) (sz u : Bool) (at_ : List (Nat × Nat)) :
    State :=
  let r := at_.foldl (s.atomsLane key k c d b op sz u) (s, [], none)
  r.1.modCrew key fun c =>
    c.addLoad { id := 0, pc := c.pc, dsts := [d], wide := (if sz then 8 else 4) / 4, writes := r.2.1, bad := r.2.2 }

/-- ATOMS whose offsets are sound, on the scratchpad of a party that is there, goes on to its lanes (spec/06 R119, R120). -/
theorem atoms_runs {f : Ctl} {d a b : Operand} {op : AtomOp} {peer : Option (BitVec 3)} {sz u : Bool} {s s0 : State} {key k : Nat}
    {c : Crew} {at_ : List (Nat × Nat)} (h : Issues (.atoms f d a b op peer sz u) s key) (hs : s0 = s.entered key f)
    (hc : c = s0.crew key) (ha : at_ = localAddrs s0 key c a 0 (accessLanes d (c.effLanes f))) (hroom : c.loads.length < 63)
    (haway : s0.peerAway c peer = false) (hpeer : s0.peerParty c peer = some k)
    (hat : ∀ x ∈ at_, x.2 % (if sz then 8 else 4) = 0 ∧ x.2 + (if sz then 8 else 4) ≤ (s0.party k).scratchLen) :
    Runs (.atoms f d a b op peer sz u) s key (s0.atomsCounted key k c d b op sz u at_) := by
  have hfault := localFault_eq_none (cause := 0x08) hat
  subst ha
  refine runs_of_done (exec_atoms f d a b op peer sz u s) h rfl hs hc ?_
  simp only [counterFull_of_room hroom, haway, hpeer, map_localOfs, hfault, Bool.false_eq_true, if_false]
  rfl

/-- Settles O32: with room in L, a peer that is there and sound offsets nothing turns the instruction away before its lanes. That a
uniform destination makes one operation is the choice of the model (log 26). -/
theorem scratchAtomic : Obligations.ScratchAtomic := by
  intro f d a b op peer sz u s key k h s0 c n at_ hroom haway hpeer hat r
  exact atoms_runs h rfl rfl rfl hroom haway hpeer hat

/-! ## ATOM, RED and FRED -/

theorem exec_atom (f : Ctl) (d a b : Operand) (op : AtomOp) (sem : Order) (sc : Scope) (sz u : Bool) (s : State) :
    exec (.atom f d a b op sem sc sz u) s = execAtom f d a b op sem sc sz u s := rfl

/-- An instruction whose release waits does so with it (spec/05 R100). -/
theorem fenced_wait {s t : State} {key : Nat} {kind : Order} {sc : Scope} (h : s.fence key kind sc = .wait t)
    (body : State → Issue) : fenced s key kind sc body = .wait .fence t := by
  rw [fenced, h]

/-- The request of an ATOM in the state that its release has left (spec/06 R119-R122). -/
def atomRequest (s : State) (key : Nat) (c : Crew) (f : Ctl) (d a b : Operand) (op : AtomOp) (sem : Order) (sc : Scope)
    (sz u : Bool) : Request :=
  { op := AtomOp.memOp op u, bytes := if sz then 8 else 4, align := if sz then 8 else 4, store := false
    wide := Scope.wide sc, dst := some d, acq := sem = .acq || sem = .ar
    addrs := (accessLanes d (c.effLanes f)).map fun l => (l, s.operand key c true a l)
    b := fun l => s.operand key c sz b l, e := fun l => s.operand key c sz (AtomOp.compare op) l }

section
variable {f : Ctl} {d a b : Operand} {op : AtomOp} {sem : Order} {sc : Scope} {sz u : Bool} {s s0 s1 t : State} {key : Nat} {c : Crew}

/-- ATOM leaves as its request once its release has passed (spec/06 R118, R119). -/
theorem atom_runs (h : Issues (.atom f d a b op sem sc sz u) s key) (hs : s0 = s.entered key f) (hc : c = s0.crew key)
    (hroom : c.loads.length < 63) (hrel : Released s0 key (sem = .rel || sem = .ar) sc s1)
    (hq : Requests s1 key c.pc (atomRequest s1 key c f d a b op sem sc sz u) t) : Runs (.atom f d a b op sem sc sz u) s key t := by
  refine runs_of_done (exec_atom f d a b op sem sc sz u s) h rfl hs hc ?_
  exact (if_neg (ne_true_of_eq_false (counterFull_of_room hroom))).trans
    ((fenced_of_released hrel fun v => v.request key c (atomRequest v key c f d a b op sem sc sz u)).trans (request_of_requests hq))

theorem atom_release_waits (h : Issues (.atom f d a b op sem sc sz u) s key) (hs : s0 = s.entered key f) (hc : c = s0.crew key)
    (hroom : c.loads.length < 63) (hsem : sem = .rel ∨ sem = .ar) (hwait : s0.fence key .rel sc = .wait t) :
    exec (.atom f d a b op sem sc sz u) s = .next ((t.modCrew key fun x => x.notEntered (s.crew key)).stalled key .fence) := by
  refine exec_of_wait (exec_atom f d a b op sem sc sz u s) h rfl hs hc ?_
  exact (if_neg (ne_true_of_eq_false (counterFull_of_room hroom))).trans
    ((if_pos (by simpa using hsem)).trans (fenced_wait hwait _))

end

section
variable {f : Ctl} {a b : Operand} {n : Nat} {sz rel : Bool} {sc : Scope} {op : MemOp} {x : DWord → Contribution} {s s1 t : State}
  {key : Nat} {c : Crew}

/-- A RED or FRED that is no contribution to a view leaves as a request once its release has passed (spec/06 R122, R124). -/
theorem reduce_requests (hroom : c.stores.length < 63) (hrel : Released s key rel sc s1)
    (hviews : ((c.effLanes f).map fun l => (l, s1.operand key c true a l)) = [] ∨ c.role = none ∨
      ∃ y ∈ (c.effLanes f).map fun l => (l, s1.operand key c true a l), isViewAddr y.2.toNat = false)
    (hq : Requests s1 key c.pc { op := op, bytes := n, align := n, store := true, wide := Scope.wide sc,
                                 addrs := (c.effLanes f).map fun l => (l, s1.operand key c true a l)
                                 b := fun l => s1.operand key c sz b l } t) :
    s.reduce key c f a b n sz rel sc op x = .done t :=
  (if_neg (ne_true_of_eq_false (counterFull_of_room hroom))).trans ((fenced_of_released hrel _).trans
    ((if_neg (ne_true_of_eq_false (onlyViews_eq_false hviews))).trans (request_of_requests hq)))

theorem reduce_release_waits (hroom : c.stores.length < 63) (hwait : s.fence key .rel sc = .wait t) :
    s.reduce key c f a b n sz true sc op x = .wait .fence t :=
  (if_neg (ne_true_of_eq_false (counterFull_of_room hroom))).trans ((if_pos rfl).trans (fenced_wait hwait _))

end

theorem exec_red_reduce (f : Ctl) (a b : Operand) (op : RedOp) (rel : Bool) (sc : Scope) (sz u : Bool) (s : State) :
    exec (.red f a b op rel sc sz u) s = issue (.red f a b op rel sc sz u) s fun s key c =>
      s.reduce key c f a b (if sz then 8 else 4) sz rel sc (RedOp.memOp op u) fun w => .red op sz u w := rfl
theorem exec_fred_reduce (f : Ctl) (a b : Operand) (ft : FredTy) (op : MinMaxAdd) (fz cn sat rel : Bool) (sc : Scope) (s : State) :
    exec (.fred f a b ft op fz cn sat rel sc) s = issue (.fred f a b ft op fz cn sat rel sc) s fun s key c =>
      s.reduce key c f a b 4 false rel sc (.fred ft op fz cn sat) fun w => .fred ft op (!(fz || cn || sat)) (w.extractLsb' 0 32) := rfl

/-- Settles O31, each clause by the lemma about its form. That a release happens, and waits, with no effective lane too is the choice of
the model (log 63). -/
theorem atomicRequests : Obligations.AtomicRequests := by
  refine ⟨?_, ?_, ?_, ?_⟩
  · intro f d a b op sem sc sz uns s key s1 u h s0 c hroom hrel hq
    exact atom_runs h rfl rfl hroom hrel hq
  · intro f a b op rel sc sz uns s key s1 u h s0 c addrs hroom hrel hviews hq
    exact runs_of_done (exec_red_reduce f a b op rel sc sz uns s) h rfl rfl rfl (reduce_requests hroom hrel hviews hq)
  · intro f a b ft op fz cn sat rel sc s key s1 u h s0 c addrs hroom hrel hviews hq
    exact runs_of_done (exec_fred_reduce f a b ft op fz cn sat rel sc s) h rfl rfl rfl (reduce_requests hroom hrel hviews hq)
  · intro i f sc s key t hi h hwait
    obtain ⟨d, a, b, op, sem, sz, uns, rfl, hsem, hroom⟩ | ⟨⟨a, b, op, sz, uns, rfl⟩ | ⟨a, b, ft, op, fz, cn, sat, rfl⟩, hroom⟩ := hi
    · exact atom_release_waits h rfl rfl hroom hsem hwait
    · exact exec_of_wait (exec_red_reduce f a b op true sc sz uns s) h rfl rfl rfl (reduce_release_waits hroom hwait)
    · exact exec_of_wait (exec_fred_reduce f a b ft op fz cn sat true sc s) h rfl rfl rfl (reduce_release_waits hroom hwait)

end Sys2Proof.Machine

/-! A service crew applies a packet (spec/06 R116, R118, R120, R121): what its answer and the end of an event leave of memory and of the
queues. -/
namespace Sys2Proof.Machine

/-! ## Memory at the end of an event and in an answer -/

theorem crewEnd_mem (s : State) (j : Nat) : (s.crewEnd j).mem = s.mem := (spares_crewEnd s (Nat.ne_of_lt j.lt_succ_self)).mem
@[simp] theorem crewsEnd_mem (s : State) : s.crewsEnd.mem = s.mem := foldl_mem _ crewEnd_mem _ s

@[simp] theorem charge_mem (s : State) (key kind n : Nat) : (s.charge key kind n).mem = s.mem := by
  unfold State.charge; split <;> rfl
@[simp] theorem dropLease_mem (s : State) (d ln : Nat) : (s.dropLease d ln).mem = s.mem := by
  unfold State.dropLease; split <;> simp
@[simp] theorem answerPacket_mem (s : State) (svc : Nat) (p : Packet) (x : Applied) : (s.answerPacket svc p x).mem = s.mem := by
  unfold State.answerPacket; split <;> simp

/-! ## What leaves the service crews as they are -/

/-- A fold of updates that leave the service crews as they are leaves them as they are. -/
theorem foldl_svcs {β : Type} (g : State → β → State) (hg : ∀ s x, (g s x).svcs = s.svcs) (l : List β) (s : State) :
    (l.foldl g s).svcs = s.svcs := by
  induction l generalizing s with
  | nil => rfl
  | cons x l ih => exact (ih _).trans (hg s x)

theorem CachesOnly.svcs {s t : State} (h : CachesOnly s t) : t.svcs = s.svcs := by rw [h]
theorem Quiet.svcs {s t : State} {key : Nat} (h : Quiet s t key) : t.svcs = s.svcs := by rw [h.1]

@[simp] theorem charge_svcs (s : State) (key kind n : Nat) : (s.charge key kind n).svcs = s.svcs :=
  (cachesOnly_charge s key kind n).svcs
@[simp] theorem dropL1_svcs (s : State) (core ln : Nat) : (s.dropL1 core ln).svcs = s.svcs := rfl
@[simp] theorem invalidateL1_svcs (s : State) (core : Nat) : (s.invalidateL1 core).svcs = s.svcs := rfl
@[simp] theorem dropLease_svcs (s : State) (d ln : Nat) : (s.dropLease d ln).svcs = s.svcs := by
  unfold State.dropLease; split <;> rfl
@[simp] theorem signalWake_svcs (s : State) (core code : Nat) : (s.signalWake core code).svcs = s.svcs := rfl
@[simp] theorem mirrorWrite_svcs (s : State) (pa ct : Nat) : (s.mirrorWrite pa ct).svcs = s.svcs := by
  refine foldl_svcs _ (fun s m => ?_) _ s
  split
  · split <;> rfl
  · rfl
@[simp] theorem testDeps_svcs (s : State) : s.testDeps.svcs = s.svcs := by
  unfold State.testDeps; split <;> rfl

@[simp] theorem dropOps_svcs (s : State) (key : Nat) : (s.dropOps key).svcs = s.svcs := by
  unfold State.dropOps; dsimp only; split <;> rfl
@[simp] theorem loseMem_svcs (s : State) (key id : Nat) : (s.loseMem key id).svcs = s.svcs := State.modCrew_svcs ..
@[simp] theorem bindLoad_svcs (s : State) (key : Nat) (m : MemPend) : (s.bindLoad key m).svcs = s.svcs := by
  unfold State.bindLoad; dsimp only; repeat' split
  all_goals simp
@[simp] theorem packetDone_svcs (s : State) (p : Packet) (x : Applied) : (s.packetDone p x).svcs = s.svcs := by
  unfold State.packetDone; dsimp only; repeat' split
  all_goals simp

@[simp] theorem endRun_svcs (s : State) (key : Nat) (re : Bool) : (s.endRun key re).svcs = s.svcs :=
  (quiet_endRun s key re).svcs
@[simp] theorem haltParty_svcs (s : State) (party : Nat) : (s.haltParty party).svcs = s.svcs := rfl
@[simp] theorem leaveRings_svcs (s : State) (key : Nat) : (s.leaveRings key).svcs = s.svcs := by
  unfold State.leaveRings; dsimp only; split <;> rfl
@[simp] theorem takeFault_svcs (s : State) (key : Nat) (r : Report) : (s.takeFault key r).svcs = s.svcs := by
  unfold State.takeFault; simp
@[simp] theorem barpCheck_svcs (s : State) (party : Nat) : (s.barpCheck party).svcs = s.svcs := by
  unfold State.barpCheck
  dsimp only
  split
  · split
    · exact foldl_svcs _ (fun s k => State.modCrew_svcs ..) _ _
    · rfl
  · rfl
@[simp] theorem barcCheck_svcs (s : State) (task : Nat) : (s.barcCheck task).svcs = s.svcs := by
  have hwake (l : List Nat) (t : State) : (l.foldl (fun s p => s.signalWake (p / 16) 2) t).svcs = t.svcs :=
    foldl_svcs _ (fun s p => signalWake_svcs ..) l t
  unfold State.barcCheck
  dsimp only
  split
  · split
    · exact (foldl_svcs _ (fun s k => State.modCrew_svcs ..) _ _).trans (hwake _ _)
    · exact hwake _ _
  · rfl
@[simp] theorem linkArrives_svcs (s : State) (key : Nat) (p : Party) (id : Nat) : (s.linkArrives key p id).svcs = s.svcs := by
  unfold State.linkArrives; dsimp only; split <;> rfl

theorem crewEnd_svcs (s : State) (j : Nat) : (s.crewEnd j).svcs = s.svcs := by
  rcases crewEnd_cases s j with h | ⟨c, r, h⟩ | ⟨c, p, v, hv, h⟩ <;> rw [h]
  · simp
  · obtain rfl | ⟨id, n, -, rfl⟩ := hv <;> simp
@[simp] theorem crewsEnd_svcs (s : State) : s.crewsEnd.svcs = s.svcs := foldl_svcs _ crewEnd_svcs _ s

/-! ## Queues -/

/-- The packets that wait for a service crew. -/
def State.queueOf (s : State) (svc : Nat) : List Packet := (s.svc svc).queue

theorem queueOf_congr {s t : State} (h : t.svcs = s.svcs) (svc : Nat) : t.queueOf svc = s.queueOf svc := by
  rw [State.queueOf, State.svc, h]; rfl

theorem svc_modSvc (s : State) (k j : Nat) (f : Svc → Svc) : (s.modSvc k f).svc j = if j = k then f (s.svc k) else s.svc j := by
  unfold State.svc
  rw [State.modSvc_svcs, Tbl.get?_set]
  split <;> rfl

/-- A change of a service crew's waiters or answers leaves the queues. -/
theorem queueOf_modSvc (s : State) (k svc : Nat) {f : Svc → Svc} (hf : ∀ x, (f x).queue = x.queue) :
    (s.modSvc k f).queueOf svc = s.queueOf svc := by
  rw [State.queueOf, svc_modSvc]
  split
  · next h => rw [hf, h]; rfl
  · rfl

theorem queueOf_answerWaiter (s : State) (k svc : Nat) (w : Waiter) : (s.answerWaiter k w).queueOf svc = s.queueOf svc := by
  have hgive (g : Crew → Crew) : (((s.modSvc k fun x => { x with waiters := x.waiters.erase w }).modCrew w.crew g).signalWake
      (coreOf w.crew) 1).queueOf svc = s.queueOf svc :=
    (queueOf_congr ((signalWake_svcs ..).trans (State.modCrew_svcs ..)) svc).trans (queueOf_modSvc s k svc fun _ => rfl)
  unfold State.answerWaiter
  dsimp only
  split
  · rfl
  · split
    · exact hgive _
    · split
      · rfl
      · split
        · rfl
        · exact hgive _
        · exact hgive _

/-- Waiters that are tested and answered leave the queues (spec/06 R126). -/
theorem queueOf_notify (s : State) (k svc : Nat) : (s.notify k).queueOf svc = s.queueOf svc := by
  have hfold (l : List Waiter) (t : State) : (l.foldl (fun s w => s.answerWaiter k w) t).queueOf svc = t.queueOf svc := by
    induction l generalizing t with
    | nil => rfl
    | cons w l ih => exact (ih _).trans (queueOf_answerWaiter t k svc w)
  exact (hfold _ _).trans ((queueOf_congr (testDeps_svcs _) svc).trans (queueOf_modSvc s k svc fun _ => rfl))

theorem queueOf_answerPacket (s : State) (k svc : Nat) (p : Packet) (x : Applied) :
    (s.answerPacket k p x).queueOf svc = s.queueOf svc := by
  unfold State.answerPacket
  split
  · exact queueOf_modSvc s k svc fun _ => rfl
  · exact queueOf_congr (packetDone_svcs s p x) svc

/-! ## A packet is served -/

/-- The value that a lane operation gives its element (spec/06 R120). -/
def LaneOp.newValue (o : LaneOp) (m : Memory) : Nat :=
  MemOp.apply o.op (8 * o.bytes) (fromBytesLE (m.readBytes o.pa o.bytes)) o.b.toNat o.e.toNat

section
variable {svc : Nat} {p : Packet} {x : Applied} {o : LaneOp} (hbad : x.s.badAt o.pa o.bytes = false)
  (hcut : x.s.cutOff o.pa = false)
include hbad hcut

/-- A lane operation on reachable memory writes its element (spec/06 R120). -/
theorem applyLane_mem : (applyLane svc p x o).s.mem = x.s.mem.writeBytes o.pa (toBytesLE o.bytes (o.newValue x.s.mem)) := by
  rw [applyLane, if_neg (ne_true_of_eq_false hcut), if_neg (ne_true_of_eq_false hbad)]
  dsimp only
  split <;> simp [LaneOp.newValue]

/-- It puts nothing into a queue. -/
theorem applyLane_queueOf : (applyLane svc p x o).s.queueOf svc = x.s.queueOf svc := by
  rw [applyLane, if_neg (ne_true_of_eq_false hcut), if_neg (ne_true_of_eq_false hbad)]
  dsimp only
  have hnotify (t : State) (h : t.svcs = x.s.svcs) : (t.notify svc).queueOf svc = x.s.queueOf svc :=
    (queueOf_notify t svc svc).trans (queueOf_congr h svc)
  split
  · exact (queueOf_congr (mirrorWrite_svcs ..) svc).trans (hnotify _ (by simp))
  · exact hnotify _ (by simp)

end

theorem servePackets_empty {s : State} {svc : Nat} (h : s.queueOf svc = []) (n : Nat) (same : Option (Nat × Nat)) :
    s.servePackets svc n same = s := by
  cases n with
  | zero => rfl
  | succ n =>
    have hq : (s.svc svc).queue = [] := h
    rw [State.servePackets, hq]

/-- The state in which a service crew has taken its only packet, whose bytes are charged. -/
def State.taken (s : State) (svc : Nat) (p : Packet) : State :=
  (s.modSvc svc fun x => { x with queue := [] }).charge p.crew 3 (2 * (p.ops.map (·.bytes)).sum)

theorem taken_mem (s : State) (svc : Nat) (p : Packet) : (s.taken svc p).mem = s.mem := charge_mem ..

theorem taken_badAt (s : State) (svc : Nat) (p : Packet) (pa n : Nat) : (s.taken svc p).badAt pa n = s.badAt pa n := by
  rw [State.taken, cachesOnly_charge]; rfl

theorem taken_cutOff (s : State) (svc : Nat) (p : Packet) (pa : Nat) : (s.taken svc p).cutOff pa = s.cutOff pa := by
  rw [State.taken, cachesOnly_charge]; rfl

theorem taken_queueOf (s : State) (svc : Nat) (p : Packet) : (s.taken svc p).queueOf svc = [] := by
  refine (queueOf_congr (charge_svcs ..) svc).trans ?_
  rw [State.queueOf, svc_modSvc, if_pos rfl]

/-- What the lane operations of the only packet of a service crew leave. -/
def State.applied (s : State) (svc : Nat) (p : Packet) : Applied := p.ops.foldl (applyLane svc p) { s := s.taken svc p }

section
variable {s : State} {svc : Nat} {p : Packet} {o : LaneOp}

/-- A queue of one packet is served by its lane operations and its answer, when they leave the queue empty (spec/06 R118, R121). -/
theorem servePackets_one (hq : (s.svc svc).queue = [p]) (hbusy : s.svcBusy svc p.crew = false)
    (hend : (s.applied svc p).s.queueOf svc = []) (n : Nat) :
    s.servePackets svc (n + 1) none = (s.applied svc p).s.answerPacket svc p (s.applied svc p) := by
  rw [State.servePackets, hq]
  exact (if_neg (ne_true_of_eq_false hbusy)).trans
    (servePackets_empty ((queueOf_answerPacket ..).trans hend) n (some (p.crew, p.opId)))

/-- One lane operation on reachable memory writes its element and leaves the queue empty. -/
theorem applied_one (hops : p.ops = [o]) (hbad : s.badAt o.pa o.bytes = false) (hcut : s.cutOff o.pa = false) :
    (s.applied svc p).s.mem = s.mem.writeBytes o.pa (toBytesLE o.bytes (o.newValue s.mem)) ∧
      (s.applied svc p).s.queueOf svc = [] := by
  have hbad' := (taken_badAt s svc p o.pa o.bytes).trans hbad
  have hcut' := (taken_cutOff s svc p o.pa).trans hcut
  rw [State.applied, hops]
  exact ⟨(applyLane_mem hbad' hcut').trans (by rw [taken_mem]), (applyLane_queueOf hbad' hcut').trans (taken_queueOf s svc p)⟩

theorem exec_serviceCrewApply (h : s.relocking (svcDie svc) = false) :
    exec (.serviceCrewApply svc) s = .next (s.servePackets svc Config.svcQueue none).crewsEnd.wakeCrews :=
  onService_of h

end

/-- Settles O51: the one lane operation writes its element, and neither the answer nor the end of the event writes memory or fills the
queue. -/
theorem serviceCrewApplies : Obligations.ServiceCrewApplies := by
  intro s svc p o hr hq hbusy hops hbad hcut
  obtain ⟨hmem, hqueue⟩ := applied_one (svc := svc) hops hbad hcut
  have hexec := exec_serviceCrewApply hr
  rw [show Config.svcQueue = 63 + 1 from rfl, servePackets_one hq hbusy hqueue] at hexec
  refine ⟨_, hexec, ?_, fun y hy => ?_, ?_⟩
  · have hread := Memory.readBytes_writeBytes s.mem o.pa (toBytesLE o.bytes (o.newValue s.mem))
    rw [length_toBytesLE] at hread
    rw [wakeCrews_mem, crewsEnd_mem, answerPacket_mem, hmem]
    exact hread
  · rw [wakeCrews_mem, crewsEnd_mem, answerPacket_mem, hmem]
    exact Memory.read_writeBytes_out _ _ _ _ (by rw [length_toBytesLE]; exact hy)
  · exact (queueOf_congr (crewsEnd_svcs _) svc).trans ((queueOf_answerPacket ..).trans hqueue)

end Sys2Proof.Machine

/-! Floating-point, packed, dot-product and conversion instructions: one frame for all of them, their results and their traps
(spec/07 R130-R139). -/
namespace Sys2Proof.Machine

/-! ## What the entry of a region leaves for an arithmetic result -/

section
variable (s : State) (key : Nat) (f : Ctl)

@[simp] theorem ignoreTraps_entered : ((s.entered key f).crew key).ignoreTraps = (s.crew key).ignoreTraps := by
  rw [entered_crew]; split <;> rfl
@[simp] theorem randomWord_entered (draws : Bool) (d : Operand) (l : Nat) :
    randomWord draws d ((s.entered key f).crew key) l = randomWord draws d (s.crew key) l := by
  rw [entered_crew]; split <;> rfl
@[simp] theorem cvtSource_entered (sf : CvtTy) (sl : BitVec 2) (fz : Bool) (o : Operand) (l : Nat) :
    (s.entered key f).cvtSource key ((s.entered key f).crew key) sf sl fz o l = s.cvtSource key (s.crew key) sf sl fz o l := by
  simp only [State.cvtSource, State.operandNat, operand_entered, fpBits_entered]

end

/-! ## The non-finite traps -/

section
variable {fmt : Word} {ignore : Bool} {lanes : List Nat} {t : Nat → LaneTrap} {l : Nat}

/-- Without a lane that meets an armed condition there is no trap (spec/07 R131). -/
theorem numericTrap_of_unmet (hn : ∀ k, (fmtNTE fmt && (t k).nan) = false) (hi : ∀ k, (fmtITE fmt && (t k).inf) = false) :
    numericTrap fmt ignore lanes t = none := by
  have hnone : lanes.find? (fun _ => false) = none := List.find?_eq_none.mpr fun _ _ => Bool.false_ne_true
  simp only [numericTrap, hn, hi, hnone, ite_self]

/-- Nor while both are off, or ignored for the issue. -/
theorem numericTrap_of_off (h : ignore = true ∨ fmtNTE fmt = false ∧ fmtITE fmt = false) :
    numericTrap fmt ignore lanes t = none := by
  obtain rfl | ⟨hn, hi⟩ := h
  · rfl
  · exact numericTrap_of_unmet (fun k => by rw [hn, Bool.false_and]) (fun k => by rw [hi, Bool.false_and])

/-- Nor when no lane's result is judged to meet a condition. -/
theorem numericTrap_of_finite (h : ∀ l, t l = ⟨false, false⟩) : numericTrap fmt ignore lanes t = none :=
  numericTrap_of_unmet (fun k => by rw [h, Bool.and_false]) (fun k => by rw [h, Bool.and_false])

/-- The trap of kind NaN names the first lane that meets its condition. -/
theorem numericTrap_nan (hl : lanes.find? (fun k => fmtNTE fmt && (t k).nan) = some l) :
    ∃ r : Report, numericTrap fmt false lanes t = some r ∧ r.cause = 0x13 ∧ r.sub = 0 ∧ r.d1 = BitVec.ofNat 32 l := by
  simp [numericTrap, hl]

/-- The trap of kind infinity names the first lane that meets its condition, when none meets that of a NaN. -/
theorem numericTrap_inf (hn : lanes.find? (fun k => fmtNTE fmt && (t k).nan) = none)
    (hl : lanes.find? (fun k => fmtITE fmt && (t k).inf) = some l) :
    ∃ r : Report, numericTrap fmt false lanes t = some r ∧ r.cause = 0x13 ∧ r.sub = 1 ∧ r.d1 = BitVec.ofNat 32 l := by
  simp [numericTrap, hn, hl]

end

/-- In a rising list the least element that passes a test is the first one. -/
theorem find?_eq_least {p : Nat → Bool} {l : Nat} {ls : List Nat} (hs : ls.Pairwise (· < ·)) (hl : l ∈ ls) (hp : p l = true)
    (hleast : ∀ k ∈ ls, k < l → p k = false) : ls.find? p = some l := by
  induction hs with
  | nil => cases hl
  | @cons x xs hx _ ih =>
    cases hl with
    | head => exact List.find?_cons_of_pos hp
    | tail _ hl =>
      have hpx : ¬p x = true := Bool.eq_false_iff.mp (hleast x List.mem_cons_self (hx l hl))
      rw [List.find?_cons_of_neg hpx]
      exact ih hl fun k hk => hleast k (List.mem_cons_of_mem x hk)

theorem effLanes_rising (c : Crew) (f : Ctl) : (c.effLanes f).Pairwise (· < ·) := by
  rw [Crew.effLanes, lanesOf, upto_zero_eq_range]
  exact List.pairwise_lt_range.filter _

/-! ## The frame of a floating-point instruction -/

/-- A float result as its frame asks for it: the bits of a lane from its random word, and what the traps see of the values `ps`. -/
def judged (ps : List TrapPart) (q : FloatResult) (s : State) (key : Nat) (c : Crew) (l u : Nat) : Nat × LaneTrap :=
  (q.val s key c l u, ⟨meets ps FFmt.isNanBits Num.isNan s key c l u, meets ps FFmt.isInfBits Num.isInf s key c l u⟩)

section
variable {q : FloatResult} {s : State} {key : Nat} {c : Crew} {l u : Nat}

theorem judged_nil : judged [] q s key c l u = (q.val s key c l u, ⟨false, false⟩) := rfl

theorem judged_one (p : TrapPart) : judged [p] q s key c l u = (q.val s key c l u,
    .of (p.srcs s key c l) (p.fm.isNanBits (p.bits s key c l u)) (p.fm.isInfBits (p.bits s key c l u))) := by
  simp only [judged, meets, LaneTrap.of, List.any_cons, List.any_nil, Bool.or_false]

theorem judged_two (p p' : TrapPart) : judged [p, p'] q s key c l u = (q.val s key c l u,
    ⟨(judged [p] q s key c l u).2.nan || (judged [p'] q s key c l u).2.nan,
      (judged [p] q s key c l u).2.inf || (judged [p'] q s key c l u).2.inf⟩) := by
  simp only [judged, meets, List.any_cons, List.any_nil, Bool.or_false]

end

/-- The frame of floating-point instructions with a result that the values `ps` judge. -/
def floatOf (i : Instr) (ps : List TrapPart) (q : FloatResult) (s : State) : Host.Outcome State Fault Refusal :=
  floatOp i q.f q.d q.draws s fun s key c l b => judged ps q s key c l b.w0

/-- The entry of a region changes nothing of a result (spec/13 R230). -/
def EntryKeeps (ps : List TrapPart) (q : FloatResult) : Prop :=
  ∀ s key f l u, judged ps q (s.entered key f) key ((s.entered key f).crew key) l u = judged ps q s key (s.crew key) l u

/-! ## FP32 arithmetic, functions and packed instructions (spec/07 R132, R133, R136, R137) -/

section
variable {i : Instr} {f : Ctl} {d a b : Operand} {srcs : List Operand} {ht : HTy} {ro : RO} {mx : Bool} {s : State}

/-- The one result of FP32 sources is judged by all of them (spec/07 R131). -/
def scalarPart (q : FloatResult) (srcs : List Operand) : TrapPart :=
  ⟨fp32, q.val, fun s key c l => srcs.map fun o => fp32.source (fmtFZ c.fmt) (s.fpBits key c o l)⟩

/-- Each half of a packed result is judged by its own sources (spec/07 R137). -/
def halfPart (srcs : List Operand) (ht : HTy) (ro : RO) (g : Bool → List Num → Num) (h : Nat) : TrapPart :=
  ⟨hfmt ht, halfBits srcs ht ro g h, halfSources srcs ht h⟩

/-- FMIN and FMAX under %FMT (spec/07 R133). -/
def pickRes (f : Ctl) (d a b : Operand) (mx : Bool) : FloatResult :=
  ⟨f, d, never, fun s key c l _ =>
    let v := fmtEnv c.fmt .rne
    fp32.round v (Num.pick mx (fp32.source v.fz (s.fpBits key c a l)) (fp32.source v.fz (s.fpBits key c b l)))⟩

theorem arith_eq_floatOf (g : Bool → List Num → Num) :
    arith i f d srcs ro s g = floatOf i [scalarPart (fpRes f d srcs ro g) srcs] (fpRes f d srcs ro g) s := by
  refine congrArg (floatOp i f d _ s) ?_
  funext s key c l b
  rw [judged_one]
  rfl

theorem function_eq_floatOf (g : Num → Num) :
    function i f d a s g = floatOf i [scalarPart (fpFun f d a g) [a]] (fpFun f d a g) s := by
  refine congrArg (floatOp i f d _ s) ?_
  funext s key c l b
  rw [judged_one]
  rfl

theorem pickOp_eq_floatOf : pickOp i f d a b mx s = floatOf i [] (pickRes f d a b mx) s := rfl

theorem packed_eq_floatOf (g : Bool → List Num → Num) : packed i f d srcs ht ro s g =
    floatOf i ([0, 1].map (halfPart srcs ht ro g)) (halfRes f d srcs ht ro g) s := by
  refine congrArg (floatOp i f d _ s) ?_
  funext s key c l b
  rw [List.map_cons, List.map_cons, List.map_nil, judged_two, judged_one, judged_one]
  simp only [halfRes, Nat.mul_comm (2 ^ 16)]
  rfl

theorem entryKeeps_fpRes (g : Bool → List Num → Num) :
    EntryKeeps [scalarPart (fpRes f d srcs ro g) srcs] (fpRes f d srcs ro g) := fun s key e l u => by
  simp only [judged_one, scalarPart, fpRes, fmt_entered, fpBits_entered]

theorem entryKeeps_fpFun (g : Num → Num) : EntryKeeps [scalarPart (fpFun f d a g) [a]] (fpFun f d a g) := fun s key e l u => by
  simp only [judged_one, scalarPart, fpFun, fmt_entered, fpBits_entered]

theorem entryKeeps_pickRes : EntryKeeps [] (pickRes f d a b mx) := fun s key e l u => by
  simp only [judged_nil, pickRes, fmt_entered, fpBits_entered]

theorem entryKeeps_halfRes (g : Bool → List Num → Num) :
    EntryKeeps ([0, 1].map (halfPart srcs ht ro g)) (halfRes f d srcs ht ro g) := fun s key e l u => by
  simp only [List.map_cons, List.map_nil, judged_two, judged_one, halfPart, halfRes, halfBits, halfSources, State.operandNat,
    fmt_entered, operand_entered]

end

/-! ## DOT4 (spec/07 R138) -/

/-- The four elements of a source of float DOT4. -/
def dotElements (fm : FFmt) (o : Operand) (s : State) (key : Nat) (c : Crew) (l : Nat) : List Num :=
  [0, 1, 2, 3].map fun i => fm.source (fmtFZ c.fmt) (s.operandNat key c false o l / 2 ^ (8 * i) % 256)

/-- The addend of float DOT4. -/
def dotAddend (e : Operand) (s : State) (key : Nat) (c : Crew) (l : Nat) : Num :=
  fp32.source (fmtFZ c.fmt) (s.operandNat key c false e l)

/-- Float DOT4 with elements of a format: one rounding of the exact sum. -/
def dotRes (fm : FFmt) (f : Ctl) (d a b e : Operand) (ro : RO) : FloatResult :=
  ⟨f, d, RO.stochastic ro, fun s key c l u =>
    let v := fmtEnv c.fmt (RO.mode ro c.fmt (u % 2 ^ 16))
    fp32.round v (dotSum (v.mode = Mode.rdn) (dotElements fm a s key c l) (dotElements fm b s key c l) (dotAddend e s key c l))⟩

/-- Float DOT4 is judged by all nine sources. -/
def dotPart (fm : FFmt) (f : Ctl) (d a b e : Operand) (ro : RO) : TrapPart :=
  ⟨fp32, (dotRes fm f d a b e ro).val,
    fun s key c l => dotElements fm a s key c l ++ dotElements fm b s key c l ++ [dotAddend e s key c l]⟩

/-- Integer DOT4 with elements that are unsigned or signed. -/
def dotIntRes (u : Bool) (f : Ctl) (d a b e : Operand) : FloatResult :=
  ⟨f, d, never, fun s key c l _ =>
    let x (o : Operand) (i : Nat) : Int := bvInt u (BitVec.ofNat 8 (s.operandNat key c false o l / 2 ^ (8 * i) % 256))
    (BitVec.ofInt 32 (x a 0 * x b 0 + x a 1 * x b 1 + x a 2 * x b 2 + x a 3 * x b 3 + s.operandNat key c false e l)).toNat⟩

/-- A byte as a signed or unsigned integer. -/
theorem intOf_byte (u : Bool) (n : Nat) : intOf u 8 (n % 256) = bvInt u (BitVec.ofNat 8 n) := by
  rw [← intOf_toNat, BitVec.toNat_ofNat]

section
variable {i : Instr} {f : Ctl} {d a b e : Operand} {ro : RO} {s : State}

/-- An integer result has the frame of a float result that nothing judges and that draws nothing. -/
theorem lanewise_eq_floatOf {val : State → Nat → Crew → Nat → Nat → Nat} :
    lanewise i f false d s (fun s key c l => BitVec.ofNat 64 (val s key c l 0)) = floatOf i [] ⟨f, d, never, val⟩ s := by
  unfold lanewise floatOf floatOp
  simp only [judged_nil, numericTrap_of_finite, implies_true]
  rfl

/-- The sum of products of bytes, added up from E. -/
theorem dotIntRes_val (u : Bool) (s : State) (key : Nat) (c : Crew) (l w : Nat) :
    (dotIntRes u f d a b e).val s key c l w = wrapInt 32 ([0, 1, 2, 3].foldl (fun acc i => acc +
      intOf u 8 (s.operandNat key c false a l / 2 ^ (8 * i) % 256) * intOf u 8 (s.operandNat key c false b l / 2 ^ (8 * i) % 256))
      ((s.operandNat key c false e l : Nat) : Int)) := by
  simp only [dotIntRes, ← wrapInt_eq_toNat, ← intOf_byte, Nat.mod_mod, List.foldl_cons, List.foldl_nil]
  congr 1
  ring

theorem lanewise_dot (u : Bool) : lanewise i f false d s (fun s key c l => BitVec.ofNat 64 (wrapInt 32
    ([0, 1, 2, 3].foldl (fun acc i => acc +
      intOf u 8 (s.operandNat key c false a l / 2 ^ (8 * i) % 256) * intOf u 8 (s.operandNat key c false b l / 2 ^ (8 * i) % 256))
      ((s.operandNat key c false e l : Nat) : Int)))) = floatOf i [] (dotIntRes u f d a b e) s := by
  refine Eq.trans ?_ (lanewise_eq_floatOf (val := (dotIntRes u f d a b e).val))
  simp only [dotIntRes_val]

theorem floatOp_dot (fm : FFmt) : floatOp i f d (RO.stochastic ro) s (fun s key c l blk =>
    let v := fmtEnv c.fmt (RO.mode ro c.fmt (blk.w0 % 2 ^ 16))
    roundTrap fp32 v (dotElements fm a s key c l ++ dotElements fm b s key c l ++ [dotAddend e s key c l])
      (dotSum (v.mode = Mode.rdn) (dotElements fm a s key c l) (dotElements fm b s key c l) (dotAddend e s key c l))) =
    floatOf i [dotPart fm f d a b e ro] (dotRes fm f d a b e ro) s := by
  refine congrArg (floatOp i f d _ s) ?_
  funext s key c l blk
  rw [judged_one]
  rfl

theorem entryKeeps_dotRes (fm : FFmt) : EntryKeeps [dotPart fm f d a b e ro] (dotRes fm f d a b e ro) := fun s key e l u => by
  simp only [judged_one, dotPart, dotRes, dotElements, dotAddend, State.operandNat, fmt_entered, operand_entered]

theorem entryKeeps_dotIntRes (u : Bool) : EntryKeeps [] (dotIntRes u f d a b e) := fun s key e l w => by
  simp only [judged_nil, dotIntRes, State.operandNat, operand_entered]

end

/-! ## CVT (spec/07 R139) -/

/-- The bits of a conversion, whatever the traps judge them by. -/
def convertBits (dt : CvtTy) (ro : RO) (fmt : Word) (u : Nat) (x : Num) : Nat := (convert dt ro fmt u [] x).1

/-- A conversion to an integer is not judged, one to a float by its sources (spec/03 R46, spec/07 R131). -/
theorem convert_eq (dt : CvtTy) (ro : RO) (fmt : Word) (u : Nat) (srcs : List Num) (x : Num) :
    convert dt ro fmt u srcs x = (convertBits dt ro fmt u x, if isIntTy dt then ⟨false, false⟩ else
      .of srcs (((cvtFmt dt).getD fp32).isNanBits (convertBits dt ro fmt u x))
        (((cvtFmt dt).getD fp32).isInfBits (convertBits dt ro fmt u x))) := by
  cases dt <;> rfl

section
variable {f : Ctl} {d a : Operand} {pk : Option Operand} {dt sf : CvtTy} {ro : RO} {sl : BitVec 2} {q : FloatResult}

/-- One source or two, to an integer or to a float. -/
theorem execCvt_eq_floatOf (hq : floatResult (.cvt f d a pk dt sf ro sl) = some q) (s : State) :
    execCvt f d a pk dt sf ro sl s = floatOf (.cvt f d a pk dt sf ro sl) (trapParts (.cvt f d a pk dt sf ro sl) q) q s := by
  cases hq
  refine congrArg (floatOp _ f d _ s) ?_
  funext s key c l w
  cases hdt : isIntTy dt
  case true =>
    cases pk with
    | none => simp only [convert_eq, trapParts, hdt, if_true, judged_nil]
    | some o => simp only [convert_eq, trapParts, hdt, if_true, judged_nil, Bool.or_self, Nat.mul_comm]
  case false =>
    cases pk with
    | none => simp only [convert_eq, trapParts, hdt, Bool.false_eq_true, if_false, judged_one]; rfl
    | some o =>
      simp only [convert_eq, trapParts, hdt, Bool.false_eq_true, if_false, judged_two, judged_one, Nat.mul_comm]; rfl

theorem entryKeeps_cvt (hq : floatResult (.cvt f d a pk dt sf ro sl) = some q) :
    EntryKeeps (trapParts (.cvt f d a pk dt sf ro sl) q) q := fun s key e l u => by
  cases hq
  cases hdt : isIntTy dt
  case true => simp only [trapParts, hdt, if_true, judged_nil, fmt_entered, cvtSource_entered]
  case false =>
    cases pk with
    | none => simp only [trapParts, hdt, Bool.false_eq_true, if_false, judged_one, fmt_entered, cvtSource_entered]
    | some o => simp only [trapParts, hdt, Bool.false_eq_true, if_false, judged_two, judged_one, fmt_entered, cvtSource_entered]

end

/-! ## Every floating-point instruction -/

/-- An instruction runs in the frame of floating-point instructions with a result and what judges it. -/
structure FloatFrame (i : Instr) (ps : List TrapPart) (q : FloatResult) : Prop where
  hints : Instr.hints i = q.f
  accepted : Instr.isRejected i = false
  exec_eq : ∀ s, exec i s = floatOf i ps q s
  keeps : EntryKeeps ps q

/-- DOT4, by its element type. -/
theorem floatFrame_dot4 {f : Ctl} {d a b e : Operand} {et : DotTy} {ro : RO} {q : FloatResult}
    (hq : floatResult (.dot4 f d a b e et ro) = some q) :
    FloatFrame (.dot4 f d a b e et ro) (trapParts (.dot4 f d a b e et ro) q) q := by
  cases et
  case e4m3 =>
    obtain rfl : dotRes e4m3 f d a b e ro = q := Option.some.inj hq
    exact ⟨rfl, rfl, fun _ => floatOp_dot e4m3, entryKeeps_dotRes e4m3⟩
  case e5m2 =>
    obtain rfl : dotRes e5m2 f d a b e ro = q := Option.some.inj hq
    exact ⟨rfl, rfl, fun _ => floatOp_dot e5m2, entryKeeps_dotRes e5m2⟩
  case s8 =>
    obtain rfl : dotIntRes false f d a b e = q := Option.some.inj hq
    exact ⟨rfl, rfl, fun _ => lanewise_dot false, entryKeeps_dotIntRes false⟩
  case u8 =>
    obtain rfl : dotIntRes true f d a b e = q := Option.some.inj hq
    exact ⟨rfl, rfl, fun _ => lanewise_dot true, entryKeeps_dotIntRes true⟩

/-- Each instruction has the frame of its group: FP32 arithmetic, a choice, a function, a packed pair, DOT4 or CVT. -/
theorem floatFrame {i : Instr} {q : FloatResult} (hq : floatResult i = some q) : FloatFrame i (trapParts i q) q := by
  cases i
  case fadd => cases hq; exact ⟨rfl, rfl, fun _ => arith_eq_floatOf sumOf, entryKeeps_fpRes sumOf⟩
  case fsub => cases hq; exact ⟨rfl, rfl, fun _ => arith_eq_floatOf differenceOf, entryKeeps_fpRes differenceOf⟩
  case fmul => cases hq; exact ⟨rfl, rfl, fun _ => arith_eq_floatOf productOf, entryKeeps_fpRes productOf⟩
  case ffma => cases hq; exact ⟨rfl, rfl, fun _ => arith_eq_floatOf fusedOf, entryKeeps_fpRes fusedOf⟩
  case fmin => cases hq; exact ⟨rfl, rfl, fun _ => pickOp_eq_floatOf, entryKeeps_pickRes⟩
  case fmax => cases hq; exact ⟨rfl, rfl, fun _ => pickOp_eq_floatOf, entryKeeps_pickRes⟩
  case frcp => cases hq; exact ⟨rfl, rfl, fun _ => function_eq_floatOf Num.rcp, entryKeeps_fpFun Num.rcp⟩
  case frsq => cases hq; exact ⟨rfl, rfl, fun _ => function_eq_floatOf Num.rsq, entryKeeps_fpFun Num.rsq⟩
  case fsqrt => cases hq; exact ⟨rfl, rfl, fun _ => function_eq_floatOf Num.sqrt, entryKeeps_fpFun Num.sqrt⟩
  case fex2 => cases hq; exact ⟨rfl, rfl, fun _ => function_eq_floatOf Num.exp2, entryKeeps_fpFun Num.exp2⟩
  case flg2 => cases hq; exact ⟨rfl, rfl, fun _ => function_eq_floatOf Num.log2, entryKeeps_fpFun Num.log2⟩
  case fsin => cases hq; exact ⟨rfl, rfl, fun _ => function_eq_floatOf Num.sin, entryKeeps_fpFun Num.sin⟩
  case fcos => cases hq; exact ⟨rfl, rfl, fun _ => function_eq_floatOf Num.cos, entryKeeps_fpFun Num.cos⟩
  case hadd2 => cases hq; exact ⟨rfl, rfl, fun _ => packed_eq_floatOf sumOf, entryKeeps_halfRes sumOf⟩
  case hmul2 => cases hq; exact ⟨rfl, rfl, fun _ => packed_eq_floatOf productOf, entryKeeps_halfRes productOf⟩
  case hfma2 => cases hq; exact ⟨rfl, rfl, fun _ => packed_eq_floatOf fusedOf, entryKeeps_halfRes fusedOf⟩
  case dot4 => exact floatFrame_dot4 hq
  case cvt =>
    have hx := execCvt_eq_floatOf hq
    have hk := entryKeeps_cvt hq
    cases hq
    exact ⟨rfl, rfl, hx, hk⟩
  all_goals cases hq

/-! ## What the frame answers -/

/-- The result of a lane at the issue, and what the traps see of it. -/
def laneResult (ps : List TrapPart) (q : FloatResult) (s : State) (key l : Nat) : Nat × LaneTrap :=
  judged ps q s key (s.crew key) l (randomWord (q.draws (s.crew key).fmt) q.d (s.crew key) l)

/-- The crew with the random index that a stochastic instruction consumes (spec/03 R58, spec/07 R130). -/
def Crew.drawn (c : Crew) (draws : Bool) : Crew := if draws then c.stepDix else c

/-- The state after an instruction that has only made its crew `c`, and consumes a random index when it draws one. -/
def State.endsAs (s : State) (key : Nat) (f : Ctl) (draws : Bool) (c : Crew) : State :=
  (((s.entered key f).setCrew key (c.drawn draws)).advance key).retire key f false

theorem w0_drawn (draws : Bool) (d : Operand) (c : Crew) (l : Nat) :
    (if draws = true then if d.isS = true then ⟨c.scalarWord, 0, 0, 0⟩ else c.block l else (⟨0, 0, 0, 0⟩ : Block)).w0 =
      randomWord draws d c l := by
  cases draws
  · rfl
  · rw [randomWord, if_pos rfl]
    cases d.isS <;> rfl

section
variable {i : Instr} {ps : List TrapPart} {q : FloatResult} {s : State} {key : Nat} {r : Report}

/-- A lane that meets an armed condition traps, and nothing is written. -/
theorem FloatFrame.traps (F : FloatFrame i ps q) (h : Issues i s key) (hn : NoRegionLoad s key)
    (ht : numericTrap (s.crew key).fmt (s.crew key).ignoreTraps ((s.crew key).effLanes q.f)
      (fun l => (laneResult ps q s key l).2) = some r) : Traps i s key r := by
  rw [Traps, F.exec_eq, floatOf, floatOp]
  refine issue_trap h hn F.accepted ?_
  simp only [laneResult] at ht
  simp only [fmt_entered, ignoreTraps_entered, effLanes_entered, w0_drawn, F.keeps s key, randomWord_entered, ht]

/-- Without a trap every effective lane takes the bits of its result. -/
theorem FloatFrame.completes (F : FloatFrame i ps q) (h : Issues i s key)
    (ht : numericTrap (s.crew key).fmt (s.crew key).ignoreTraps ((s.crew key).effLanes q.f)
      (fun l => (laneResult ps q s key l).2) = none) :
    exec i s = .next (s.endsAs key q.f (q.draws (s.crew key).fmt) (((s.entered key q.f).crew key).writeDst false q.d
      ((s.crew key).effLanes q.f) fun l => BitVec.ofNat 64 (laneResult ps q s key l).1)) := by
  rw [F.exec_eq, floatOf, floatOp, State.endsAs, ← F.hints]
  refine issue_done h ?_
  simp only [laneResult] at ht ⊢
  simp only [F.hints, fmt_entered, ignoreTraps_entered, effLanes_entered, w0_drawn, F.keeps s key, randomWord_entered, ht]
  rfl

end

theorem keeps_drawn {c c' : Crew} (h : Crew.Keeps c c') (draws : Bool) : Crew.Keeps (c.drawn draws) (c'.drawn draws) := by
  cases draws
  · exact h
  · exact congrArg Crew.stepDix h

theorem sameRegs_drawn (c : Crew) (draws : Bool) : Crew.SameRegs c (c.drawn draws) ∧ (c.drawn draws).pc = c.pc := by
  cases draws <;> exact ⟨⟨rfl, rfl, rfl⟩, rfl⟩

/-- When only registers have changed, the crew stands at PC + 12 with them, and keeps all else but the index. -/
theorem endsAs_spec (s : State) (key : Nat) (f : Ctl) (draws : Bool) {c : Crew} (hk : Crew.Keeps ((s.entered key f).crew key) c)
    (hpc : c.pc = ((s.entered key f).crew key).pc) :
    let t := s.endsAs key f draws c
    Quiet s t key ∧ (t.crew key).pc = (s.crew key).pc + 12 ∧ Crew.Keeps ((s.crew key).drawn draws) (t.crew key) ∧
      Crew.SameRegs c (t.crew key) := by
  obtain ⟨hek, -, hep⟩ := settles_entered s key f
  obtain ⟨⟨hdv, hds, hdp⟩, hdpc⟩ := sameRegs_drawn c draws
  have hend := crew_advance_retire (s := (s.entered key f).setCrew key (c.drawn draws)) (key := key) f
    (by rw [State.listed_setCrew, Bool.true_or])
  rw [State.crew_setCrew_self] at hend
  obtain ⟨htk, ⟨htv, hts, htp⟩, htpc⟩ := hend
  have hadv : Crew.Keeps (c.drawn draws) { c.drawn draws with pc := (c.drawn draws).pc + 12 } := rfl
  have hquiet := (quiet_entered s key f).trans (quiet_setCrew (s.entered key f) key (c.drawn draws))
  exact ⟨hquiet.trans ((quiet_advance _ key).trans (quiet_retire _ key f false)),
    htpc.trans (congrArg (· + 12) (hdpc.trans (hpc.trans hep))), ((keeps_drawn (hek.trans hk) draws).trans hadv).trans htk,
    htv.trans hdv, hts.trans hds, htp.trans hdp⟩

/-- An instruction that writes a result into its effective lanes and may consume a random index computes it. -/
theorem computes_of_endsAs {i : Instr} {f : Ctl} {d : Operand} {s : State} {key : Nat} {val : Nat → DWord} (draws : Bool)
    (h : Issues i s key)
    (he : exec i s = .next (s.endsAs key f draws (((s.entered key f).crew key).writeDst false d ((s.crew key).effLanes f) val))) :
    Computes i f false d s key ((s.crew key).drawn draws) val := by
  obtain ⟨-, -, hlanes, -⟩ := h
  obtain ⟨-, her, -⟩ := settles_entered s key f
  obtain ⟨hwk, hwp⟩ := keeps_writeDst ((s.entered key f).crew key) false d ((s.crew key).effLanes f) val
  obtain ⟨hq, hpc, hk, hregs⟩ := endsAs_spec s key f draws hwk hwp
  have hw := writes_writeDst ((s.entered key f).crew key) false d ((s.crew key).effLanes f) val
    fun l hm => Nat.lt_of_lt_of_le (mem_effLanes_lt hm) hlanes
  exact ⟨_, he, hq, hpc, hk, hw.congr her hregs⟩

/-- Settles O16: with the traps off or ignored the frame of a floating-point instruction writes every effective lane. -/
theorem floatResults : Obligations.FloatResults := by
  intro i q hq _ s key h hoff
  exact computes_of_endsAs (q.draws (s.crew key).fmt) h ((floatFrame hq).completes h (numericTrap_of_off hoff))

/-- Settles O17: the lane that is named is the first of the effective mask, whose lanes rise, that meets the condition. -/
theorem floatNanTrap : Obligations.FloatNanTrap := by
  intro i q s key l hq _ h hn hig c word nan inf hl
  have hleast {p : Nat → Bool} := find?_eq_least (p := p) (effLanes_rising c q.f) hl
  refine ⟨fun hnan hfirst => ?_, fun hnone hinf hfirst => ?_⟩
  · obtain ⟨r, ht, hcause, hsub, hd1⟩ :=
      numericTrap_nan (t := fun k => (laneResult (trapParts i q) q s key k).2) (hleast hnan hfirst)
    exact ⟨r, hcause, hsub, hd1, (floatFrame hq).traps h hn (by rw [hig]; exact ht)⟩
  · have hnot : (c.effLanes q.f).find? nan = none := List.find?_eq_none.mpr fun k hk => Bool.eq_false_iff.mp (hnone k hk)
    obtain ⟨r, ht, hcause, hsub, hd1⟩ :=
      numericTrap_inf (t := fun k => (laneResult (trapParts i q) q s key k).2) hnot (hleast hinf hfirst)
    exact ⟨r, hcause, hsub, hd1, (floatFrame hq).traps h hn (by rw [hig]; exact ht)⟩

end Sys2Proof.Machine

/-! RNGU and RNGN: words of the random block of each lane, in consecutive registers (spec/03 R57, R58, spec/07 R142). -/
namespace Sys2Proof.Machine

/-! ## The words of a block in registers -/

/-- The words that RNGU writes for a lane, from its block (spec/03 R57). -/
def rnguWords (out : RngOut) (b : Block) : List Nat :=
  match out with
  | .f32 => [fp32.round {} (.fin false (b.w0 / 256) (-24))]
  | _ => b.words

theorem rnguWords_getD (out : RngOut) (b : Block) {j : Nat} (hj : j < out.regs) : (rnguWords out b).getD j 0 =
    if out = .f32 then fp32.round {} (.fin false (b.w0 / 256) (-24)) else b.words.getD j 0 := by
  cases out
  case f32 =>
    obtain rfl : j = 0 := Nat.lt_one_iff.mp hj
    rfl
  case u32 | u64 | u128 => rfl

section
variable {r : BitVec 8} {n q k : Nat}

/-- Consecutive registers of one lane take the words. -/
theorem v_foldl_setV (n : Nat) (c : Crew) {b l : Nat} (w : Nat → Word) (hl : l < 1024) (hk : k < 1024) :
    ((upto 0 n).foldl (fun c j => c.setV (b + j) l (w j)) c).v q k =
      if k = l ∧ b ≤ q ∧ q < b + n then w (q - b) else c.v q k := by
  rw [upto_zero_eq_range]
  induction n with
  | zero => rw [if_neg (by omega)]; rfl
  | succ n ih =>
    rw [List.range_succ, List.foldl_append, List.foldl_cons, List.foldl_nil, v_setV _ _ hl hk, ih]
    by_cases hq : q = b + n
    · subst hq
      by_cases hkl : k = l <;> simp [hkl]
    · have hlt : q < b + (n + 1) ↔ q < b + n := by omega
      simp [hq, hlt]

/-- The registers after a block is written: each lane that is written holds its words, all else is kept. -/
theorem v_writeBlock (val : Nat → List Nat) (lanes : List Nat) (c : Crew) (hl : ∀ l ∈ lanes, l < 1024) (hk : k < 1024) :
    (c.writeBlock (.v r) lanes n val).v q k = if k ∈ lanes ∧ r.toNat ≤ q ∧ q < r.toNat + n then
      BitVec.ofNat 32 ((val k).getD (q - r.toNat) 0) else c.v q k := by
  unfold Crew.writeBlock
  dsimp only
  induction lanes generalizing c with
  | nil => simp
  | cons l lanes ih =>
    rw [List.foldl_cons, ih _ fun x hx => hl x (List.mem_cons_of_mem l hx),
      v_foldl_setV n c (fun j => BitVec.ofNat 32 ((val l).getD j 0)) (hl l List.mem_cons_self) hk]
    by_cases hkl : k = l
    · subst hkl
      by_cases hq : r.toNat ≤ q ∧ q < r.toNat + n <;> simp [hq]
    · simp [hkl]

theorem v_eq_of_vregs {c c' : Crew} (h : c'.vregs = c.vregs) : c'.v q k = c.v q k := by rw [Crew.v, h, Crew.v]

/-- Nothing but lane registers changes. -/
theorem writeBlock_eq (val : Nat → List Nat) (lanes : List Nat) (c : Crew) :
    ∃ v, c.writeBlock (.v r) lanes n val = { c with vregs := v } := by
  have hlane (l : Nat) (js : List Nat) (c : Crew) :
      ∃ v, js.foldl (fun c j => c.setV (r.toNat + j) l (BitVec.ofNat 32 ((val l).getD j 0))) c = { c with vregs := v } := by
    induction js generalizing c with
    | nil => exact ⟨c.vregs, rfl⟩
    | cons j js ih => exact ih _
  unfold Crew.writeBlock
  dsimp only
  induction lanes generalizing c with
  | nil => exact ⟨c.vregs, rfl⟩
  | cons l lanes ih =>
    obtain ⟨v, hv⟩ := hlane l (upto 0 n) c
    rw [List.foldl_cons, hv]
    exact ih _

theorem keeps_writeBlock (val : Nat → List Nat) (lanes : List Nat) (c : Crew) :
    Crew.Keeps c (c.writeBlock (.v r) lanes n val) ∧ (c.writeBlock (.v r) lanes n val).pc = c.pc ∧
      (c.writeBlock (.v r) lanes n val).sregs = c.sregs ∧ (c.writeBlock (.v r) lanes n val).preds = c.preds := by
  obtain ⟨v, hv⟩ := writeBlock_eq (r := r) (n := n) val lanes c
  rw [hv]
  exact ⟨rfl, rfl, rfl, rfl⟩

/-- One word in each lane is a destination of 32 bits. -/
theorem writeBlock_one (x : Nat → Nat) (lanes : List Nat) (c : Crew) :
    c.writeBlock (.v r) lanes 1 (fun l => [x l]) = c.writeDst false (.v r) lanes fun l => BitVec.ofNat 64 (x l) := by
  have hword (n : Nat) : (BitVec.ofNat 64 n).extractLsb' 0 32 = BitVec.ofNat 32 n := by
    rw [← BitVec.setWidth_eq_extractLsb' (by decide), BitVec.setWidth_ofNat_of_le (by decide)]
  simp only [Crew.writeBlock, Crew.writeDst, Crew.writeV, hword]
  rfl

end

/-! ## The statement about random words -/

@[simp] theorem block_entered (s : State) (key : Nat) (f : Ctl) (l : Nat) :
    ((s.entered key f).crew key).block l = (s.crew key).block l := by
  rw [entered_crew]; split <;> rfl

section
variable {f : Ctl} {r : BitVec 8} {s : State} {key : Nat}

/-- RNGU writes its words from the block at %DIX, and then advances %DIX. -/
theorem rngu_runs {out : RngOut} (h : Issues (.rngu f (.v r) out) s key) : exec (.rngu f (.v r) out) s =
    .next (s.endsAs key f true (((s.entered key f).crew key).writeBlock (.v r) ((s.crew key).effLanes f) out.regs
      fun l => rnguWords out ((s.crew key).block l))) := by
  have hex : exec (.rngu f (.v r) out) s = issue (.rngu f (.v r) out) s fun s key c => .done (s.setCrew key
    ((c.writeBlock (.v r) (c.effLanes f) out.regs fun l => rnguWords out (c.block l)).drawn true)) := by cases out <;> rfl
  refine hex.trans (issue_done h ?_)
  rw [show Instr.hints (.rngu f (.v r) out) = f from rfl]
  simp only [effLanes_entered, block_entered]

/-- RNGN writes one word from the block at %DIX, and then advances %DIX. -/
theorem rngn_runs (h : Issues (.rngn f (.v r)) s key) : exec (.rngn f (.v r)) s =
    .next (s.endsAs key f true (((s.entered key f).crew key).writeDst false (.v r) ((s.crew key).effLanes f)
      fun l => BitVec.ofNat 64 (gaussian ((s.crew key).block l)))) := by
  have hex : exec (.rngn f (.v r)) s = issue (.rngn f (.v r)) s fun s key c => .done (s.setCrew key
    ((c.writeBlock (.v r) (c.effLanes f) 1 fun l => [gaussian (c.block l)]).drawn true)) := rfl
  refine hex.trans (issue_done h ?_)
  rw [show Instr.hints (.rngn f (.v r)) = f from rfl]
  simp only [effLanes_entered, block_entered, writeBlock_one]

end

/-- Settles O19: RNGU writes consecutive registers, RNGN one destination of 32 bits, and both advance %DIX. -/
theorem randomResults : Obligations.RandomResults := by
  refine ⟨fun f r out s key h _ => ?_, fun f r s key h => computes_of_endsAs true h (rngn_runs h)⟩
  have hrun := rngu_runs h
  obtain ⟨-, -, hlanes, -⟩ := h
  have hlt : ∀ l ∈ (s.crew key).effLanes f, l < 1024 := fun l hm => Nat.lt_of_lt_of_le (mem_effLanes_lt hm) hlanes
  have hv {q k : Nat} := v_writeBlock (r := r) (n := out.regs) (q := q) (k := k)
    (fun l => rnguWords out ((s.crew key).block l)) ((s.crew key).effLanes f) ((s.entered key f).crew key) hlt
  obtain ⟨hwk, hwp, hws, hwpr⟩ := keeps_writeBlock (r := r) (n := out.regs) (fun l => rnguWords out ((s.crew key).block l))
    ((s.crew key).effLanes f) ((s.entered key f).crew key)
  obtain ⟨-, ⟨hev, hes, hep⟩, -⟩ := settles_entered s key f
  obtain ⟨hq, hpc, hk, htv, hts, htp⟩ := endsAs_spec s key f true hwk hwp
  refine ⟨_, hrun, hq, hpc, hk, fun l hm j hj => ?_, fun q l hl hno => ?_, hts.trans (hws.trans hes),
    htp.trans (hwpr.trans hep)⟩
  · rw [v_eq_of_vregs htv, hv (hlt l hm), if_pos ⟨hm, by omega, by omega⟩, Nat.add_sub_cancel_left, rnguWords_getD out _ hj]
  · rw [v_eq_of_vregs htv, hv hl, if_neg hno, v_eq_of_vregs hev]

end Sys2Proof.Machine

/-! SPAWN and SPAWNR: the frame of a fence, and the child task (spec/05 R105, spec/08 R145, R148, R151, spec/15 R258). -/
namespace Sys2Proof.Machine

/-! ## What a fence leaves -/

section
variable {s u : State} {key : Nat} {kind : Order} {sc : Scope}

/-- A fence that passes leaves the state in which it looked, but for the L1 that an acquire empties. -/
theorem fence_pass_eq (h : s.fence key kind sc = .pass u) : u = s.fenceLooks key kind sc ∨
    u = (s.fenceLooks key kind sc).invalidateL1 (coreOf key) := by
  rw [fence_eq] at h
  split at h
  · cases h
  split at h
  · cases h
  unfold State.fenceEnds at h
  split at h
  · cases h
  split at h
  · cases h
  split at h
  · cases h
  split at h
  · exact .inr (Passage.pass.inj h).symm
  · exact .inl (Passage.pass.inj h).symm

/-- The writeback of a release changes caches, and one crew. -/
theorem fenceLooks_cases (s : State) (key : Nat) (kind : Order) (sc : Scope) : s.fenceLooks key kind sc = s ∨
    ∃ t g, CachesOnly s t ∧ s.fenceLooks key kind sc = t.modCrew key g := by
  unfold State.fenceLooks
  dsimp only
  split
  · exact .inr ⟨_, _, (cachesOnly_charge s key 3 _).trans (cachesOnly_releaseCore _ (coreOf key)), rfl⟩
  · exact .inl rfl

/-- A fence changes no task. -/
theorem fence_pass_tasks (h : s.fence key kind sc = .pass u) : u.tasks = s.tasks := by
  have hlooks : (s.fenceLooks key kind sc).tasks = s.tasks := by
    obtain hf | ⟨t, g, ht, hf⟩ := fenceLooks_cases s key kind sc <;> rw [hf]
    rw [State.modCrew_tasks, ht]
  obtain rfl | rfl := fence_pass_eq h <;> exact hlooks

/-- A fence keeps its crew listed. -/
theorem fence_pass_listed (h : s.fence key kind sc = .pass u)
    (hl : ((Tbl.get? s.crews key).isSome || isAgentKey key) = true) :
    ((Tbl.get? u.crews key).isSome || isAgentKey key) = true := by
  have hlooks : ((Tbl.get? (s.fenceLooks key kind sc).crews key).isSome || isAgentKey key) = true := by
    obtain hf | ⟨t, g, ht, hf⟩ := fenceLooks_cases s key kind sc <;> rw [hf]
    · exact hl
    · exact listed_modCrew g (by rw [ht.crews]; exact hl)
  obtain rfl | rfl := fence_pass_eq h <;> exact hlooks

/-- A fence leaves its crew in its party. -/
theorem fence_pass_party (h : s.fence key kind sc = .pass u) :
    (u.crew key).party = (s.crew key).party := by
  obtain ⟨ct, phase, hcrew⟩ := crew_fenceLooks s key kind sc
  have hlooks : ((s.fenceLooks key kind sc).crew key).party = (s.crew key).party := by rw [hcrew]
  obtain rfl | rfl := fence_pass_eq h <;> exact hlooks

/-- The frame of a fence that passes goes on in the state that it leaves. -/
theorem fenced_pass (h : s.fence key kind sc = .pass u) (body : State → Issue) : fenced s key kind sc body = body u := by
  rw [fenced, h]

end

/-! ## The child task -/

/-- The pedigree of the first strand of a child of a strand (spec/08 R145, R148). -/
def childPed (p : BitVec 512) : BitVec 512 :=
  let d := pedDepth p
  if d + 1 < 31 then setElem (setDepth p (d + 1)) (d + 2) 0 else setDepth p (d + 1)

/-- The pedigree of the strand that follows a SPAWN (spec/08 R145, R148). -/
def nextStrand (p : BitVec 512) : BitVec 512 :=
  let d := pedDepth p
  let e := pedElem p (d + 1)
  setElem p (d + 1) (elemJ e * 1024 + elemK e + 1)

/-- The child that a crew of task `ti`, which is `t`, makes: its arena is the top `n` bytes of the parent's (spec/08 R145, R151). -/
def Task.child (t : Task) (ti : Nat) (c : Crew) (entry : DWord) (sh : Nat) (n : DWord) (die : Nat) : Task :=
  { launch := t.launch, root := t.root, ctx := t.ctx, parent := some ti, shape := sh, entry := entry, ped := childPed c.ped,
    fmt := c.fmt, seed := c.seed, args := (upto 48 16).map c.s, arenaBase := t.arenaEnd - n,
    arenaNext := t.arenaEnd - n, arenaEnd := t.arenaEnd, decls := t.decls, views := t.views, die := die }

/-- A parent with child `k`, which it has given `n` bytes. -/
def Task.gives (t : Task) (k : Nat) (n : DWord) : Task := { t with arenaEnd := t.arenaEnd - n, children := t.children ++ [k] }

/-- A core whose waiting tasks are those of `x`. -/
def Core.queuedAs (y x : Core) : Core := { y with deque := x.deque, spilled := x.spilled }

/-- The core of `key` has taken child `k` of task `ti` and stands as `x`. -/
def State.queueChild (s : State) (key ti k : Nat) (x : Core) (child : Task) (n : DWord) : State :=
  { ((s.modCore (coreOf key) fun y => y.queuedAs x).setTask k child).modTask ti fun t => t.gives k n with nextTask := k + 1 }

/-- The same, with the strands of the child and of the parent that begin. -/
def State.spawned (s : State) (key ti k : Nat) (x : Core) (child : Task) (n : DWord) (mine : BitVec 512) : State :=
  ((((s.queueChild key ti k x child n).setPed key ti mine).beginStrand k child.ped).beginStrand ti mine).wakeCrews

/-- A deque with room takes a task, and spills nothing (spec/15 R258). -/
theorem Core.push_of_room {x : Core} (h : x.deque.length < 256) (k : Nat) : x.push k = some { x with deque := x.deque ++ [k] } :=
  if_pos h

theorem spillBytes_of_le {before after : Core} (h : after.spilled.length ≤ before.spilled.length) (s : State) (core ctx : Nat) :
    s.spillBytes core ctx before after = s := if_pos h

section
variable {s u : State} {key ti sh : Nat} {c : Crew} {t : Task} {entry : DWord} {size : Word}

/-- SPAWN within its bounds, its fence passed, with room in the pedigree table and the deque (spec/08 R145). -/
theorem spawn_done (hti : ti = (s.party c.party).task) (ht : t = s.task ti) (hd : pedDepth c.ped ≠ 31)
    (hk : elemK (pedElem c.ped (pedDepth c.ped + 1)) ≠ 1023) (hsh : sh ≤ packetNsh (s.launch t.launch).packet)
    (hal : size.toNat % 64 = 0) (hroom : size.toNat ≤ t.arenaEnd.toNat - t.arenaNext.toNat)
    (hf : s.fence key .rel .pkg = .pass u) (hped : 256 ≤ 65536 - u.sweepPeds.pedTable.length)
    (hdeque : (u.core (coreOf key)).deque.length < 256) :
    s.spawn key c entry sh size = .done (u.sweepPeds.spawned key ti u.nextTask
      { u.core (coreOf key) with deque := (u.core (coreOf key)).deque ++ [u.nextTask] }
      (t.child ti c entry sh (size.setWidth 64) (dieOfCore (coreOf key))) (size.setWidth 64) (nextStrand c.ped)) := by
  subst hti ht
  have hn : (size.setWidth 64).toNat = size.toNat := BitVec.toNat_setWidth_of_le (by decide)
  have harena : ¬(decide ((size.setWidth 64).toNat % 64 ≠ 0) || decide ((size.setWidth 64).toNat >
      (s.task (s.party c.party).task).arenaEnd.toNat - (s.task (s.party c.party).task).arenaNext.toNat)) = true := by
    rw [hn, hal]
    simpa using hroom
  have hpush := Core.push_of_room (x := u.sweepPeds.core (coreOf key)) hdeque u.sweepPeds.nextTask
  have hspill := spillBytes_of_le (before := u.core (coreOf key))
    (after := { u.core (coreOf key) with deque := (u.core (coreOf key)).deque ++ [u.nextTask] }) (Nat.le_refl _) u.sweepPeds
    (coreOf key) (s.task (s.party c.party).task).ctx
  refine (if_neg hd).trans ((if_neg hk).trans ((if_neg (Nat.not_lt.mpr hsh)).trans ((if_neg harena).trans
    ((fenced_pass hf _).trans ((if_neg (Nat.not_lt.mpr hped)).trans ?_)))))
  extract_lets k
  rw [show (u.sweepPeds.core (coreOf key)).push k = _ from hpush]
  conv_rhs => rw [← hspill]
  rfl

end

/-- A strand that begins changes the pedigree table alone. -/
theorem beginStrand_eq (s : State) (task : Nat) (ped : BitVec 512) :
    ∃ table next, s.beginStrand task ped = { s with pedTable := table, nextPed := next } := by
  unfold State.beginStrand
  dsimp only
  split
  · exact ⟨s.pedTable, s.nextPed, rfl⟩
  · exact ⟨_, _, rfl⟩

/-- Crews that look again keep their pedigrees. -/
theorem ped_wakeCrews (s : State) (key : Nat) : (s.wakeCrews.crew key).ped = (s.crew key).ped := by
  have hwake (c : Crew) : c.wake.ped = c.ped := by
    unfold Crew.wake
    split
    · split <;> rfl
    · rfl
  unfold State.crew State.wakeCrews
  rw [Tbl.get?_map s.crews (fun _ c => c.wake)]
  cases Tbl.get? s.crews key with
  | none => rfl
  | some c => exact hwake c

section
variable {s : State} {key ti k : Nat} {x : Core} {child : Task} {n : DWord} {mine : BitVec 512}

theorem core_queueChild : (s.queueChild key ti k x child n).core (coreOf key) = (s.core (coreOf key)).queuedAs x :=
  State.core_modCore_self s (coreOf key) fun y => y.queuedAs x

theorem task_queueChild (hlt : ti < k) (j : Nat) : (s.queueChild key ti k x child n).task j =
    if j = ti then (s.task ti).gives k n else if j = k then child else s.task j := by
  refine (State.task_modTask ((s.modCore (coreOf key) fun y => y.queuedAs x).setTask k child) ti j fun t => t.gives k n).trans ?_
  rw [State.task_setTask, State.task_setTask, if_neg (Nat.ne_of_lt hlt)]
  rfl

/-- What the new child leaves: its place in the deque, its own task, its parent, and the strand of the crew. -/
theorem spawned_spec (hlt : ti < k) (hl : ((Tbl.get? s.crews key).isSome || isAgentKey key) = true) :
    let v := s.spawned key ti k x child n mine
    v.nextTask = k + 1 ∧ (v.core (coreOf key)).deque = x.deque ∧ v.task k = child ∧
      v.task ti = { (s.task ti).gives k n with ped := mine } ∧
      (v.crew key).ped = mine ∧ v.mem = s.mem := by
  let q := s.queueChild key ti k x child n
  obtain ⟨_, _, hchild⟩ := beginStrand_eq (q.setPed key ti mine) k child.ped
  obtain ⟨table, next, hparent⟩ := beginStrand_eq ((q.setPed key ti mine).beginStrand k child.ped) ti mine
  have hv : s.spawned key ti k x child n mine = { q.setPed key ti mine with pedTable := table, nextPed := next }.wakeCrews :=
    congrArg State.wakeCrews (hparent.trans (by rw [hchild]))
  have htask (j : Nat) : (q.setPed key ti mine).task j = if j = ti then { q.task ti with ped := mine } else q.task j := by
    rw [State.setPed, State.task_modTask, State.task_modCrew, State.task_modCrew]
  rw [hv]
  refine ⟨State.modCrew_nextTask q key _, ?_, (htask k).trans ?_, (htask ti).trans ?_, ?_, ?_⟩
  · have hcore := (State.core_modCrew q key (coreOf key) fun c => { c with ped := mine }).trans core_queueChild
    have hbottom := congrArg Core.deque hcore
    exact hbottom
  · rw [if_neg (Nat.ne_of_gt hlt), task_queueChild hlt, if_neg (Nat.ne_of_gt hlt), if_pos rfl]
  · rw [if_pos rfl, task_queueChild hlt, if_pos rfl]
  · refine (ped_wakeCrews _ key).trans ?_
    exact congrArg Crew.ped (crew_modCrew_self (s := q) (fun c => { c with ped := mine }) hl)
  · exact State.modCrew_mem q key _

end

/-! ## The statement about SPAWN -/

theorem exec_spawn (f : Ctl) (b : Operand) (sh : BitVec 3) (ofs : BitVec 20) (s : State) : exec (.spawn f b sh ofs) s =
    leadOnly (.spawn f b sh ofs) f s fun s key c =>
      s.spawn key c (c.pc + BitVec.ofInt 64 (12 * ofs.toInt)) sh.toNat ((s.uni key c false b).extractLsb' 0 32) := rfl
theorem exec_spawnr (f : Ctl) (a b : Operand) (sh : BitVec 3) (s : State) : exec (.spawnr f a b sh) s =
    leadOnly (.spawnr f a b sh) f s fun s key c =>
      if (s.uni key c true a).toNat % 4 ≠ 0 then .trap { cause := 0x04, addr := s.uni key c true a }
      else s.spawn key c (s.uni key c true a) sh.toNat ((s.uni key c false b).extractLsb' 0 32) := rfl

/-- Settles O38: SPAWN and SPAWNR name an entry and make one child with it. -/
theorem spawns : Obligations.Spawns := by
  intro i f b sh entry s key s0 c hi h ti t d e n hlead heff hd hk hsh hal hroom u hf hped hdeque hti
  have hsize : ((s0.uni key c false b).extractLsb' 0 32).toNat = n := by simp [n]
  have hn : ((s0.uni key c false b).extractLsb' 0 32).setWidth 64 = BitVec.ofNat 64 n := by
    rw [← hsize, BitVec.ofNat_toNat]
  have hdone := spawn_done (s := s0) (c := c) (entry := entry) (sh := sh.toNat) rfl rfl hd hk hsh (by rw [hsize]; exact hal)
    (by rw [hsize]; exact hroom) hf hped hdeque
  rw [hn] at hdone
  obtain ⟨-, hl, -⟩ := id h
  have hruns : Runs i s key (u.sweepPeds.spawned key ti u.nextTask
      { u.core (coreOf key) with deque := (u.core (coreOf key)).deque ++ [u.nextTask] }
      (t.child ti c entry sh.toNat (BitVec.ofNat 64 n) (dieOfCore (coreOf key))) (BitVec.ofNat 64 n) (nextStrand c.ped)) := by
    obtain ⟨ofs, rfl, rfl⟩ | ⟨a, rfl, rfl, halign⟩ := hi
    · exact (exec_spawn f b sh ofs s).trans (leadOnly_done h rfl hlead heff hdone)
    · exact (exec_spawnr f a b sh s).trans (leadOnly_done h rfl hlead heff ((if_neg (not_not.mpr halign)).trans hdone))
  have htask : u.task ti = t := by rw [State.task, fence_pass_tasks hf]; rfl
  have hlu : ((Tbl.get? u.crews key).isSome || isAgentKey key) = true := fence_pass_listed hf (listed_entered f hl)
  obtain ⟨hnext, hbottom, hchild, hparent, hcrew, hmem⟩ := spawned_spec (s := u.sweepPeds) hti hlu
  refine ⟨_, hruns, hnext, hbottom, ?_, ?_, ?_, hcrew, hmem⟩
  · intro k
    rw [show k = _ from hchild]
    exact ⟨rfl, rfl, rfl, rfl, rfl, rfl, rfl, rfl, rfl, rfl, rfl⟩
  · rw [hparent]
    exact congrArg (fun t : Task => t.arenaEnd - BitVec.ofNat 64 n) htask
  · rw [hparent]
    rfl

end Sys2Proof.Machine

/-! JOIN, ALLOC and the lead faults (spec/08 R143, R146, R151, spec/16 R270, R273). -/
namespace Sys2Proof.Machine

/-! ## The lead crew -/

section
variable {i : Instr} {f : Ctl} {s : State} {key : Nat} {handler : Bool} {body : State → Nat → Crew → Issue}

/-- A crew that may not lead takes the lead fault, whatever its guard (spec/08 R143). -/
theorem lead_denied (hx : exec i s = issue i s fun s key c => if !s.mayLead c handler then .trap { cause := 0x15 } else body s key c)
    (h : Issues i s key) (hn : NoRegionLoad s key) (hi : Instr.isRejected i = false) (hf : Instr.hints i = f)
    (hlead : (s.entered key f).mayLead ((s.entered key f).crew key) handler = false) : Traps i s key { cause := 0x15 } := by
  subst hf
  exact hx.trans (issue_trap h hn hi (if_pos (by rw [hlead]; rfl)))

/-- A crew that may lead, with an effective lane, goes on to what its instruction does. -/
theorem lead_admitted (hx : exec i s = issue i s fun s key c => if !s.mayLead c handler then .trap { cause := 0x15 }
      else if c.eff f = 0 then .done s else body s key c)
    (h : Issues i s key) (hf : Instr.hints i = f) (hlead : (s.entered key f).mayLead ((s.entered key f).crew key) handler = true)
    (he : ((s.entered key f).crew key).eff f ≠ 0) : exec i s = issue i s body := by
  subst hf
  exact hx.trans (issue_congr h ((if_neg (by rw [hlead]; decide)).trans (if_neg he)))

end

/-! ## JOIN -/

/-- The pedigree of the strand that a JOIN begins (spec/08 R146, R148). -/
def joinStrand (p : BitVec 512) : BitVec 512 :=
  let d := pedDepth p
  let e := pedElem p (d + 1)
  if d < 31 then setElem p (d + 1) ((elemJ e + 1) * 1024 + elemK e) else p

/-- The state of a JOIN whose children are all over: their views are merged, and the next section has begun (spec/16 R270, R273). -/
def State.joined (s : State) (key ti : Nat) (ped : BitVec 512) : State :=
  let s1 := ((s.sweepPeds.absorb ti (joinStrand ped)).modTask ti fun t => { t with joinFrom := none }).setPed key ti (joinStrand ped)
  (if pedDepth ped < 31 then s1.beginStrand ti (joinStrand ped) else s1).modCrew key fun c => { c with phase := 2 }

/-- What JOIN does for the lead crew, before its acquire and after it. -/
def joinBody (s : State) (key : Nat) (c : Crew) : Issue :=
  let ti := (s.party c.party).task
  let d := pedDepth c.ped
  let j := elemJ (pedElem c.ped (d + 1))
  if c.phase ≥ 2 then fenced s key .acq .pkg .done
  else if d < 31 && j = 63 then .trap (pedFault 0 j)
  else if !s.childrenDone (s.task ti) then
    .wait .join (s.modTask ti fun t => { t with joinFrom := t.joinFrom <|> some (s.clk (dieOfCore (coreOf key))) })
  else fenced (s.joined key ti c.ped) key .acq .pkg .done

theorem exec_join (f : Ctl) (s : State) : exec (.join f) s = leadOnly (.join f) f s joinBody := rfl

section
variable {s u : State} {key : Nat} {c : Crew}

/-- A JOIN that has merged acquires (spec/08 R146). -/
theorem joinBody_merged (hphase : 2 ≤ c.phase) (hf : s.fence key .acq .pkg = .pass u) : joinBody s key c = .done u :=
  (if_pos hphase).trans (fenced_pass hf _)

/-- A JOIN whose children are over merges, and acquires. -/
theorem joinBody_merges (hphase : c.phase < 2) (hj : ¬(pedDepth c.ped < 31 ∧ elemJ (pedElem c.ped (pedDepth c.ped + 1)) = 63))
    (hdone : s.childrenDone (s.task (s.party c.party).task) = true)
    (hf : (s.joined key (s.party c.party).task c.ped).fence key .acq .pkg = .pass u) : joinBody s key c = .done u := by
  refine (if_neg (Nat.not_le.mpr hphase)).trans ((if_neg ?_).trans ((if_neg ?_).trans (fenced_pass hf _)))
  · simpa using hj
  · rw [hdone]; decide

end

/-! ## ALLOC -/

/-- What ALLOC does for the lead crew. -/
def allocBody (f : Ctl) (d a : Operand) (s : State) (key : Nat) (c : Crew) : Issue :=
  let ti := (s.party c.party).task
  let t := s.task ti
  let n := ((s.uni key c false a).toNat + 63) / 64 * 64
  if t.arenaNext.toNat + n > t.arenaEnd.toNat then .trap { cause := 0x17, d1 := (s.uni key c false a).extractLsb' 0 32 }
  else .done ((s.modTask ti fun t => { t with arenaNext := t.arenaNext + BitVec.ofNat 64 n }).modCrew key
    fun c => c.writeUni f d t.arenaNext)

theorem exec_alloc (f : Ctl) (d a : Operand) (s : State) : exec (.alloc f d a) s = leadOnly (.alloc f d a) f s (allocBody f d a) := rfl

theorem exec_trigger (f : Ctl) (s : State) : exec (.trigger f) s = execTrigger f s := rfl

/-- Settles O39, each clause by what its instruction does for the lead crew. -/
theorem joinAlloc : Obligations.JoinAlloc := by
  refine ⟨?_, ?_, ?_, ?_⟩
  · intro f s key h s0 c ti d e mine s1 s2 hlead he hj hdone
    exact ⟨fun hphase u hf => (exec_join f s).trans (leadOnly_done h rfl hlead he (joinBody_merges hphase hj hdone hf)),
      fun hphase u hf => (exec_join f s).trans (leadOnly_done h rfl hlead he (joinBody_merged hphase hf))⟩
  · intro f d a s key h s0 c ti t n hlead he
    have hx := lead_admitted (exec_alloc f d a s) h rfl hlead he
    exact ⟨fun hroom => runs_of_done hx h rfl rfl rfl (if_neg (Nat.not_lt.mpr hroom)),
      fun hfull hn => hx.trans (issue_trap h hn rfl (if_pos hfull))⟩
  · rintro i f s key (⟨b, sh, ofs, rfl⟩ | ⟨a, b, sh, rfl⟩ | rfl | ⟨a, b, e, kind, rfl⟩ | ⟨a, raw, rfl⟩ | rfl) h hn hlead
    · exact lead_denied (exec_spawn f b sh ofs s) h hn rfl rfl hlead
    · exact lead_denied (exec_spawnr f a b sh s) h hn rfl rfl hlead
    · exact lead_denied (exec_join f s) h hn rfl rfl hlead
    · exact lead_denied (show exec _ s = leadOnly _ f s _ from exec_vdecl f a b e kind s) h hn rfl rfl hlead
    · exact lead_denied (exec_vfin f a raw s) h hn rfl rfl hlead
    · exact lead_denied (show exec _ s = leadOnly _ f s _ from exec_trigger f s) h hn rfl rfl hlead
  · intro f d a s key h hn hlead
    exact lead_denied (exec_alloc f d a s) h hn rfl rfl hlead

end Sys2Proof.Machine

/-! Barriers, barrier objects, TRIGGER and PEDCMP (spec/08 R149, R156, R157, R160, spec/12 R218). -/
namespace Sys2Proof.Machine

/-! ## BARP and BARC -/

/-- A crew at the BARP of its party passes once the generation is not the one for which it arrived (spec/08 R156). -/
def barpEnds (s : State) (key : Nat) (c : Crew) : Issue :=
  if BitVec.ofNat 64 (s.party c.party).gen ≠ (s.crew key).aux then .done s.wakeCrews else .wait .barrier s

theorem barpEnds_over {s : State} {key : Nat} {c : Crew} (h : BitVec.ofNat 64 (s.party c.party).gen ≠ (s.crew key).aux) :
    barpEnds s key c = .done s.wakeCrews := if_pos h

/-- A crew arrives at the BARP of its party, for the generation that runs. -/
def State.barpArrives (s : State) (key : Nat) (c : Crew) : State :=
  let s1 := s.modCrew key fun x => { x with phase := 2, aux := BitVec.ofNat 64 (s.party c.party).gen }
  s1.modParty c.party fun p => { p with arrived := p.arrived ++ [key], arrivedPed := if s1.isLead c then some c.ped else p.arrivedPed }

theorem modCrew_congr {s : State} {key : Nat} {g g' : Crew → Crew} (h : g (s.crew key) = g' (s.crew key)) :
    s.modCrew key g = s.modCrew key g' := by
  unfold State.modCrew
  rw [h]

/-- After a fence the generation of the arrival may be read through the crew that arrives. -/
theorem barpArrives_of_fence {s u : State} {key : Nat} {c : Crew} {kind : Order} {sc : Scope} (hf : s.fence key kind sc = .pass u)
    (hc : c = s.crew key) :
    let s1 := u.modCrew key fun x => { x with phase := 2, aux := BitVec.ofNat 64 (u.party x.party).gen }
    (s1.modParty c.party fun p => { p with
      arrived := p.arrived ++ [key], arrivedPed := if s1.isLead c then some c.ped else p.arrivedPed }) = u.barpArrives key c := by
  have hgen : (u.modCrew key fun x => { x with phase := 2, aux := BitVec.ofNat 64 (u.party x.party).gen }) =
      u.modCrew key fun x => { x with phase := 2, aux := BitVec.ofNat 64 (u.party c.party).gen } :=
    modCrew_congr (by rw [fence_pass_party hf, hc])
  dsimp only
  rw [hgen]
  rfl

theorem exec_barp (f : Ctl) (s : State) : exec (.barp f) s = issue (.barp f) s fun s key c =>
    if c.phase ≥ 2 then barpEnds s key c
    else fenced s key .rel .party fun t => barpEnds ((t.barpArrives key c).barpCheck c.party) key c := rfl

/-- A crew at the BARC of task `ti` passes once the generation is not the one for which it arrived, and then acquires (spec/08 R156). -/
def barcEnds (s : State) (key ti : Nat) (sc : Scope) : Issue :=
  if BitVec.ofNat 64 (s.task ti).gen ≠ (s.crew key).aux then fenced s.wakeCrews key .acq sc .done else .wait .barrier s

theorem barcEnds_over {s u : State} {key ti : Nat} {sc : Scope} (h : BitVec.ofNat 64 (s.task ti).gen ≠ (s.crew key).aux)
    (hf : s.wakeCrews.fence key .acq sc = .pass u) : barcEnds s key ti sc = .done u := (if_pos h).trans (fenced_pass hf _)

/-- A crew arrives at the BARC of task `ti`, for the generation that runs. -/
def State.barcArrives (s : State) (key ti : Nat) (c : Crew) : State :=
  let s1 := s.modCrew key fun x => { x with phase := 2, aux := BitVec.ofNat 64 (s.task ti).gen }
  s1.modTask ti fun t => { t with arrived := t.arrived ++ [key], arrivedPed := if s1.isLead c then some c.ped else t.arrivedPed }

theorem exec_barc (f : Ctl) (pk : Bool) (s : State) : exec (.barc f pk) s = issue (.barc f pk) s fun s key c =>
    let sc : Scope := if pk then .pkg else .die
    let ti := (s.party c.party).task
    if c.phase ≥ 2 then barcEnds s key ti sc
    else fenced s key .rel sc fun t => barcEnds ((t.barcArrives key ti c).barcCheck ti) key ti sc := rfl

/-! ## Barrier objects -/

/-- An arrival within PENDING changes its object alone (spec/08 R157). -/
theorem arriveObj_eq {p : Party} {id n : Nat} {x : Barrier} (hx : Tbl.get? p.bars id = some x) (hn : n ≤ x.pending) :
    p.arriveObj id n = some { p with bars := Tbl.set p.bars id (x.arrived n) } := by
  simp only [Party.arriveObj, Barrier.arrived, hx, if_neg (Nat.not_lt.mpr hn)]
  split <;> rfl

/-- The last arrival turns the phase, and no other does. -/
theorem phase_arrived (x : Barrier) (n : Nat) : (x.arrived n).phase = x.phase ↔ n ≠ x.pending := by
  unfold Barrier.arrived
  split
  · next h => simp [h]
  · next h => simp [h]

theorem exec_arriveInit (f : Ctl) (a b : Operand) (s : State) : exec (.arriveInit f a b) s = execArriveInit f a b s := rfl
theorem exec_arrive (f : Ctl) (d a b : Operand) (s : State) : exec (.arrive f d a b) s = execArrive f d a b s := rfl
theorem exec_await (f : Ctl) (a b : Operand) (s : State) : exec (.await f a b) s = execAwait f a b s := rfl
theorem exec_pedcmp (f : Ctl) (d a b : Operand) (s : State) : exec (.pedcmp f d a b) s = execPedcmp f d a b s := rfl

/-- A count of 1 to 64 is no fault. -/
theorem count_in_range {n : Nat} (h1 : 1 ≤ n) (h : n ≤ 64) : ¬(decide (n = 0) || decide (n > 64)) = true := by
  simp only [Bool.or_eq_true, decide_eq_true_eq]; omega

section
variable {f : Ctl} {d a b : Operand} {s s0 : State} {key : Nat} {c : Crew}

/-- ARRIVE.init of an object that is idle, or new, sets EXPECT and PENDING (spec/08 R157). -/
theorem arriveInit_runs {id n : Nat} {p : Party} (h : Issues (.arriveInit f a b) s key) (hs : s0 = s.entered key f) (hc : c = s0.crew key)
    (hp : p = s0.party c.party) (hi : id = (s0.uni key c false a).toNat) (hn : n = (s0.uni key c false b).toNat)
    (he : c.eff f ≠ 0) (hid : id < 16) (h1 : 1 ≤ n) (h64 : n ≤ 64)
    (hidle : ∀ x, Tbl.get? p.bars id = some x → x.pending = x.expect) :
    Runs (.arriveInit f a b) s key
      (s0.setParty c.party { p with bars := Tbl.set p.bars id { expect := n, pending := n, phase := false } }).wakeCrews := by
  subst hs hc hp hi hn
  refine (exec_arriveInit f a b s).trans (once_done h rfl he ?_)
  refine (if_neg (Nat.not_lt.mpr (Nat.le_of_lt_succ hid))).trans ((if_neg (count_in_range h1 h64)).trans (if_neg ?_))
  split
  · next x hx => simpa using hidle x hx
  · decide

/-- AWAIT passes once the phase is not B, and the crew's older operations have been performed (spec/08 R157, spec/12 R218). -/
theorem await_runs {n : Nat} {x : Barrier} (h : Issues (.await f a b) s key) (hs : s0 = s.entered key f) (hc : c = s0.crew key)
    (hn : n = (s0.uni key c false b).toNat) (he : c.eff f ≠ 0) (hid : (s0.uni key c false a).toNat < 16) (hb : n ≤ 1)
    (hx : Tbl.get? (s0.party c.party).bars (s0.uni key c false a).toNat = some x)
    (hphase : x.phase ≠ decide (n = 1)) (holder : c.olderPerformed c.nextId = true) : Runs (.await f a b) s key s0 := by
  subst hs hc hn
  refine (exec_await f a b s).trans (once_done h rfl he ?_)
  refine (if_neg (Nat.not_lt.mpr (Nat.le_of_lt_succ hid))).trans ((if_neg (Nat.not_lt.mpr hb)).trans ?_)
  have hturned : ¬((x.phase = true) = ((s.entered key f).operandNat key ((s.entered key f).crew key) false b 0 = 1)) :=
    fun e => hphase (by rw [Bool.eq_iff_iff, decide_eq_true_iff, e]; rfl)
  simp only [State.operandNat, State.uni] at hx hturned ⊢
  simp only [hx, hturned, holder, decide_false, Bool.not_true, Bool.or_false, Bool.false_eq_true, if_false]

/-- The destination of an ARRIVE, which its form may lack, takes the phase that was (spec/08 R157). -/
def Crew.takesPhase (c : Crew) (f : Ctl) (d : Operand) (phase : Bool) : Crew :=
  if d = .v 0 then c else c.writeDst false d (c.effLanes f) fun _ => (boolWord phase).setWidth 64

/-- The party of an ARRIVE has become `p`, and its crew has taken the phase that was. -/
def State.arrives (s : State) (key party : Nat) (p : Party) (f : Ctl) (d : Operand) (phase : Bool) : State :=
  (s.setParty party p).modCrew key fun y => y.takesPhase f d phase

/-- An arrival wakes the core when the phase of its object has turned (spec/10 Table 10-6). -/
def State.phaseWake (s : State) (key party id : Nat) (phase : Bool) : State :=
  if (Tbl.get? (s.party party).bars id).map (·.phase) = some phase then s else s.signalWake (coreOf key) 2

/-- The last arrival alone wakes the core. -/
theorem phaseWake_arrives {u : State} {party id n : Nat} {p : Party} {x : Barrier} (hp : Tbl.get? p.bars id = some (x.arrived n)) :
    (u.arrives key party p f d x.phase).phaseWake key party id x.phase = if n = x.pending then
      (u.arrives key party p f d x.phase).signalWake (coreOf key) 2 else u.arrives key party p f d x.phase := by
  have hparty : (u.arrives key party p f d x.phase).party party = p := by
    rw [State.arrives, State.party_modCrew, State.party_setParty, if_pos rfl]
  have hphase : some (x.arrived n).phase = some x.phase ↔ n ≠ x.pending := by rw [Option.some_inj, phase_arrived]
  rw [State.phaseWake, hparty, hp, Option.map_some]
  by_cases hlast : n = x.pending
  · rw [if_neg (hphase.not.mpr (not_not.mpr hlast)), if_pos hlast]
  · rw [if_pos (hphase.mpr hlast), if_neg hlast]

/-- ARRIVE, its fence passed, gives the phase and counts down (spec/08 R157). -/
theorem arrive_runs {id n : Nat} {u : State} {x : Barrier} (h : Issues (.arrive f d a b) s key) (hs : s0 = s.entered key f)
    (hc : c = s0.crew key) (hi : id = (s0.uni key c false a).toNat) (hn : n = (s0.uni key c false b).toNat)
    (he : c.eff f ≠ 0) (hid : id < 16) (h1 : 1 ≤ n) (h64 : n ≤ 64) (hf : s0.fence key .rel .party = .pass u)
    (hx : Tbl.get? (u.party c.party).bars id = some x) (hle : n ≤ x.pending) :
    let s1 := u.arrives key c.party { u.party c.party with bars := Tbl.set (u.party c.party).bars id (x.arrived n) } f d x.phase
    Runs (.arrive f d a b) s key (if n = x.pending then s1.signalWake (coreOf key) 2 else s1).wakeCrews := by
  subst hs hc hi hn
  intro s1
  refine (exec_arrive f d a b s).trans (once_done h rfl he ?_)
  refine (if_neg (Nat.not_lt.mpr (Nat.le_of_lt_succ hid))).trans ((if_neg (count_in_range h1 h64)).trans ((fenced_pass hf _).trans ?_))
  have harrive := arriveObj_eq hx hle
  simp only [State.uni] at hx harrive
  simp only [State.operandNat, hx, harrive]
  exact congrArg (fun t : State => Issue.done t.wakeCrews) (phaseWake_arrives (Tbl.get?_set_self _ _ _))

end

/-! ## TRIGGER -/

/-- A root task of a launch with the early policy counts as triggered once (spec/08 R160). -/
def State.triggers (s : State) (ti : Nat) : State :=
  let t := s.task ti
  if t.parent = none ∧ t.handlerOf = none ∧ t.triggered = false ∧ packetTrig (s.launch t.launch).packet = true then
    (s.modTask ti fun t => { t with triggered := true }).modLaunch t.launch fun l => { l with triggered := l.triggered + 1 }
  else s

/-- TRIGGER of the lead crew, its fence passed (spec/08 R160). -/
theorem trigger_runs {f : Ctl} {s s0 u : State} {key : Nat} {c : Crew} (h : Issues (.trigger f) s key) (hs : s0 = s.entered key f)
    (hc : c = s0.crew key) (hlead : s0.mayLead c false = true) (he : c.eff f ≠ 0) (hf : s0.fence key .rel .pkg = .pass u) :
    Runs (.trigger f) s key (u.triggers (u.party c.party).task) := by
  subst hs hc
  refine (exec_trigger f s).trans (leadOnly_done h rfl hlead he ((fenced_pass hf _).trans ?_))
  simp only [State.triggers, Bool.and_eq_true, Option.isNone_iff_eq_none, Bool.not_eq_true', and_assoc]
  split <;> rfl

/-! ## PEDCMP -/

/-- A pedigree image that lies in the allotment (spec/08 R149). -/
theorem pedImage_ok {p : Party} {ofs : Nat} (hal : ofs % 64 = 0) (hin : ofs + 64 ≤ p.scratchLen) :
    p.pedImage ofs = .ok (BitVec.ofNat 512 (fromBytesLE (Memory.readBytes p.scratch ofs 64))) :=
  (if_neg (not_not.mpr hal)).trans (if_neg (Nat.not_lt.mpr hin))

/-- PEDCMP gives the order of its two pedigrees, each the crew's own or an image (spec/08 R149). -/
theorem pedcmp_computes {f : Ctl} {d a b : Operand} {s : State} {key : Nat} {p : Party} {x y : BitVec 512}
    (h : Issues (.pedcmp f d a b) s key) (hp : p = s.party (s.crew key).party)
    (hx : (if a = .sp .ped then .ok (s.crew key).ped else p.pedImage (s.uni key (s.crew key) false a).toNat) = .ok x)
    (hy : p.pedImage (s.uni key (s.crew key) false b).toNat = .ok y) :
    Computes (.pedcmp f d a b) f false d s key (s.crew key) fun _ => BitVec.ofNat 64 (pedOrder x y) := by
  subst hp
  obtain ⟨-, hlist, hlanes, -⟩ := id h
  have hparty : ((s.entered key f).crew key).party = (s.crew key).party := by rw [(settles_entered s key f).1]
  by_cases he : (s.crew key).eff f = 0
  · exact computes_of_no_lane hlist he ((exec_pedcmp f d a b s).trans (once_empty h rfl (by rw [eff_entered, he])))
  · refine computes_of_writeDst (u := (s.entered key f).setCrew key (((s.entered key f).crew key).writeDst false d
        (((s.entered key f).crew key).effLanes f) fun _ => BitVec.ofNat 64 (pedOrder x y))) hlanes
      (by rw [State.listed_setCrew, Bool.true_or]) (quiet_setCrew _ key _) (State.crew_setCrew_self _ _ _)
      ((exec_pedcmp f d a b s).trans (once_done h rfl (by rw [eff_entered]; exact he) ?_))
    simp only [State.uni, operand_entered, entered_party, hparty, ped_entered] at hx hy ⊢
    simp only [hx, hy]

/-! ## The statement about barriers -/

/-- Settles O41, each clause by what its instruction does. -/
theorem barriers : Obligations.Barriers := by
  refine ⟨?_, ?_, ?_, ?_, ?_, ?_, ?_⟩
  · intro f s key h s0 c
    refine ⟨fun hphase hgen => runs_of_done (exec_barp f s) h rfl rfl rfl ((if_pos hphase).trans (barpEnds_over hgen)), ?_⟩
    intro hphase u hf s1 s2 hgen
    have harrives : s1 = u.barpArrives key c := barpArrives_of_fence hf rfl
    simp only [s2, harrives] at hgen ⊢
    exact runs_of_done (exec_barp f s) h rfl rfl rfl
      ((if_neg (Nat.not_le.mpr hphase)).trans ((fenced_pass hf _).trans (barpEnds_over hgen)))
  · intro f pk s key h s0 c ti sc
    refine ⟨fun hphase hgen u hacq => runs_of_done (exec_barc f pk s) h rfl rfl rfl
      ((if_pos hphase).trans (barcEnds_over hgen hacq)), ?_⟩
    intro hphase u v hf s1 s2 hgen hacq
    exact runs_of_done (exec_barc f pk s) h rfl rfl rfl
      ((if_neg (Nat.not_le.mpr hphase)).trans ((fenced_pass hf _).trans (barcEnds_over hgen hacq)))
  · intro f a b s key h s0 c p id n he hid h1 h64 hidle
    exact arriveInit_runs h rfl rfl rfl rfl rfl he hid h1 h64 hidle
  · intro f d a b s key u x h s0 c id n he hid h1 h64 hf hx hle last x' s1
    have hx' : x' = x.arrived n := by
      simp only [x', last, Barrier.arrived]
      split <;> rfl
    have hword : (boolWord x.phase).setWidth 64 = if x.phase then (1 : DWord) else 0 := by cases x.phase <;> rfl
    have hrun := arrive_runs h rfl rfl rfl rfl he hid h1 h64 hf hx hle
    simp only [State.arrives, Crew.takesPhase, hword] at hrun
    simp only [s1, hx']
    exact hrun
  · intro f a b s key x h s0 c he hid hb hx hphase holder
    exact await_runs h rfl rfl rfl he hid hb hx hphase holder
  · intro f s key u h s0 c hlead he hf ti t
    exact trigger_runs h rfl rfl hlead he hf
  · intro f d a b s key x y h p at_ image ha hal hin hy
    subst hy
    refine pedcmp_computes h rfl ?_ (pedImage_ok hal hin)
    obtain ⟨rfl, rfl⟩ | ⟨hne, hal, hin, rfl⟩ := ha
    · exact if_pos rfl
    · exact (if_neg hne).trans (pedImage_ok hal hin)

end Sys2Proof.Machine

/-! Stage rings (spec/08 R158, spec/12 R214, R218). -/
namespace Sys2Proof.Machine

/-! ## Rings and their slots -/

section
variable {s : State} {key : Nat} {c : Crew} {a : Operand} {g : Ring}

/-- A ring that the party has made, under a number below 8. -/
theorem ringOf_ok (hid : (s.uni key c false a).toNat < 8) (hg : Tbl.get? (s.party c.party).rings (s.uni key c false a).toNat = some g) :
    s.ringOf key c a = .ok ((s.uni key c false a).toNat, g) := by
  simp only [State.uni] at hid hg ⊢
  simp only [State.ringOf, State.operandNat, hg, hid, if_true]

theorem ringTurn_of {q : List Nat} {idx : Nat} (h : ∀ x, q.head? = some x → x = idx) : ringTurn q idx = true := by
  cases q with
  | nil => rfl
  | cons x q => exact decide_eq_true (h x rfl)

theorem slotIn_of {i : Nat} {st : SlotState} (hi : i < g.slots.length) (hst : (g.slots.getD i {}).st = st) : g.slotIn i st = true := by
  simp only [Ring.slotIn, hi, hst, decide_true, Bool.and_self]

/-- A lap that turns is the negation of the one before. -/
theorem bne_decide_eq_ite (x : Bool) (p : Prop) [Decidable p] : (x != decide p) = if p then !x else x := by
  by_cases h : p <;> simp [h]

end

theorem exec_ringputInit (f : Ctl) (a b : Operand) (s : State) : exec (.ringputInit f a b) s = execRingputInit f a b s := rfl
theorem exec_ringputGet (f : Ctl) (d a : Operand) (s : State) : exec (.ringputGet f d a) s = execRingputGet f d a s := rfl
theorem exec_ringputPub (f : Ctl) (a b : Operand) (s : State) : exec (.ringputPub f a b) s = execRingputPub f a b s := rfl
theorem exec_ringgetGet (f : Ctl) (d a : Operand) (s : State) : exec (.ringgetGet f d a) s = execRinggetGet f d a s := rfl
theorem exec_ringgetRel (f : Ctl) (a b : Operand) (s : State) : exec (.ringgetRel f a b) s = execRinggetRel f a b s := rfl

/-- What a producer's `.get` makes of its ring: the slot is held, the next one is the producer's, and the lap turns at the end. -/
def Ring.produced (g : Ring) (idx : Nat) : Ring :=
  { g with slots := g.slots.set g.prod { g.slots.getD g.prod {} with st := .held }
           prod := if g.prod + 1 = g.slots.length then 0 else g.prod + 1
           pl := if g.prod + 1 = g.slots.length then !g.pl else g.pl, prodQ := g.prodQ.filter fun x => x != idx }

/-- What a consumer's `.get` makes of its ring. -/
def Ring.consumed (g : Ring) (idx : Nat) : Ring :=
  { g with slots := g.slots.set g.cons { g.slots.getD g.cons {} with st := .taken }
           cons := if g.cons + 1 = g.slots.length then 0 else g.cons + 1
           cl := if g.cons + 1 = g.slots.length then !g.cl else g.cl, consQ := g.consQ.filter fun x => x != idx }

/-- A `.get` leaves its ring as `g` and answers the index `i` of its slot (spec/08 R158). -/
def State.ringAnswers (s : State) (key party id : Nat) (f : Ctl) (d : Operand) (g : Ring) (i : Nat) : State :=
  ((s.setRing party id g).modCrew key fun c => c.writeDst false d (c.effLanes f) fun _ => BitVec.ofNat 64 i).wakeCrews

section
variable {f : Ctl} {d a b : Operand} {s s0 u : State} {key id : Nat} {c : Crew} {g : Ring}

/-- RINGPUT.init makes `n` free slots; the crews that wait at the ends of the ring go on waiting (spec/08 R158). -/
theorem ringputInit_runs {n : Nat} (h : Issues (.ringputInit f a b) s key) (hs : s0 = s.entered key f) (hc : c = s0.crew key)
    (hi : id = (s0.uni key c false a).toNat) (hn : n = (s0.uni key c false b).toNat) (he : c.eff f ≠ 0) (hid : id < 8)
    (h2 : 2 ≤ n) (h64 : n ≤ 64)
    (hidle : ∀ g, Tbl.get? (s0.party c.party).rings id = some g → ∀ x ∈ g.slots, x.st = .free ∨ x.st = .full) :
    let old : Ring := (Tbl.get? (s0.party c.party).rings id).getD { slots := [] }
    Runs (.ringputInit f a b) s key
      (s0.setRing c.party id { slots := List.replicate n {}, prodQ := old.prodQ, consQ := old.consQ }).wakeCrews := by
  subst hs hc hi hn
  have hcount : ¬(decide ((s.entered key f).operandNat key ((s.entered key f).crew key) false b 0 < 2) ||
      decide ((s.entered key f).operandNat key ((s.entered key f).crew key) false b 0 > 64)) = true := by
    simp only [Bool.or_eq_true, decide_eq_true_eq, not_or, Nat.not_lt]
    exact ⟨h2, h64⟩
  refine (exec_ringputInit f a b s).trans (once_done h rfl he ?_)
  refine (if_neg (Nat.not_lt.mpr (Nat.le_of_lt_succ hid))).trans ((if_neg hcount).trans ?_)
  simp only [State.uni, State.operandNat] at hidle ⊢
  obtain hg | ⟨g, hg⟩ := Option.eq_none_or_eq_some (Tbl.get? ((s.entered key f).party ((s.entered key f).crew key).party).rings
    ((s.entered key f).operand key ((s.entered key f).crew key) false a 0).toNat)
  · simp only [hg]
    rfl
  · simp only [hg]
    refine if_neg (ne_true_of_eq_false (List.any_eq_false.mpr fun x hx => ?_))
    obtain hst | hst := hidle g hg x hx <;> simp [hst]

/-- RINGPUT.get takes the producer's slot when its empty phase is the lap, in its turn (spec/08 R158). -/
theorem ringputGet_runs (h : Issues (.ringputGet f d a) s key) (hs : s0 = s.entered key f) (hc : c = s0.crew key)
    (hi : id = (s0.uni key c false a).toNat) (he : c.eff f ≠ 0) (hid : id < 8)
    (hg : Tbl.get? (s0.party c.party).rings id = some g) (hlap : (g.slots.getD g.prod {}).e = g.pl)
    (hturn : ∀ x, g.prodQ.head? = some x → x = c.idx) (holder : c.olderPerformed c.nextId = true) :
    Runs (.ringputGet f d a) s key (s0.ringAnswers key c.party id f d (g.produced c.idx) g.prod) := by
  subst hs hc hi
  refine (exec_ringputGet f d a s).trans (once_done h rfl he ?_)
  have hgo : (decide ((g.slots.getD g.prod {}).e = g.pl) && ringTurn g.prodQ ((s.entered key f).crew key).idx &&
      ((s.entered key f).crew key).olderPerformed ((s.entered key f).crew key).nextId) = true := by
    rw [decide_eq_true hlap, ringTurn_of hturn, holder]; rfl
  simp only [ringOf_ok hid hg, hgo, if_true, Ring.modSlot, List.length_set, bne_decide_eq_ite, decide_eq_true_eq]
  rfl

/-- RINGGET.get takes the consumer's slot when it is full, in its turn. -/
theorem ringgetGet_runs (h : Issues (.ringgetGet f d a) s key) (hs : s0 = s.entered key f) (hc : c = s0.crew key)
    (hi : id = (s0.uni key c false a).toNat) (he : c.eff f ≠ 0) (hid : id < 8)
    (hg : Tbl.get? (s0.party c.party).rings id = some g) (hlap : (g.slots.getD g.cons {}).f ≠ g.cl)
    (hfull : (g.slots.getD g.cons {}).st = .full) (hturn : ∀ x, g.consQ.head? = some x → x = c.idx)
    (holder : c.olderPerformed c.nextId = true) :
    Runs (.ringgetGet f d a) s key (s0.ringAnswers key c.party id f d (g.consumed c.idx) g.cons) := by
  subst hs hc hi
  refine (exec_ringgetGet f d a s).trans (once_done h rfl he ?_)
  have hgo : (decide ((g.slots.getD g.cons {}).f ≠ g.cl) && decide ((g.slots.getD g.cons {}).st = .full) &&
      ringTurn g.consQ ((s.entered key f).crew key).idx &&
      ((s.entered key f).crew key).olderPerformed ((s.entered key f).crew key).nextId) = true := by
    rw [decide_eq_true hlap, decide_eq_true hfull, ringTurn_of hturn, holder]; rfl
  simp only [ringOf_ok hid hg, hgo, if_true, Ring.modSlot, List.length_set, bne_decide_eq_ite, decide_eq_true_eq]
  rfl

/-- A slot of a ring changes, and the core is told (spec/10 Table 10-6). -/
def State.ringSlot (s : State) (key party id : Nat) (g : Ring) (j : Nat) (x : RingSlot) : State :=
  ((s.setRing party id { g with slots := g.slots.set j x }).signalWake (coreOf key) 2).wakeCrews

/-- RINGPUT.pub, its release passed, makes its slot full. -/
theorem ringputPub_runs {j : Nat} (h : Issues (.ringputPub f a b) s key) (hs : s0 = s.entered key f) (hc : c = s0.crew key)
    (he : c.eff f ≠ 0) (hf : s0.fence key .rel .party = .pass u) (hi : id = (u.uni key c false a).toNat)
    (hj : j = (u.uni key c false b).toNat) (hid : id < 8) (hg : Tbl.get? (u.party c.party).rings id = some g)
    (hin : j < g.slots.length) (hheld : (g.slots.getD j {}).st = .held) :
    Runs (.ringputPub f a b) s key
      (u.ringSlot key c.party id g j { g.slots.getD j {} with f := !(g.slots.getD j {}).f, st := .full }) := by
  subst hs hc hi hj
  refine (exec_ringputPub f a b s).trans (once_done h rfl he ((fenced_pass hf _).trans ?_))
  simp only [ringOf_ok hid hg]
  exact if_pos (slotIn_of hin hheld)

/-- RINGGET.rel, its release passed, frees its slot. -/
theorem ringgetRel_runs {j : Nat} (h : Issues (.ringgetRel f a b) s key) (hs : s0 = s.entered key f) (hc : c = s0.crew key)
    (he : c.eff f ≠ 0) (hf : s0.fence key .rel .party = .pass u) (hi : id = (u.uni key c false a).toNat)
    (hj : j = (u.uni key c false b).toNat) (hid : id < 8) (hg : Tbl.get? (u.party c.party).rings id = some g)
    (hin : j < g.slots.length) (htaken : (g.slots.getD j {}).st = .taken) :
    Runs (.ringgetRel f a b) s key
      (u.ringSlot key c.party id g j { g.slots.getD j {} with e := !(g.slots.getD j {}).e, st := .free }) := by
  subst hs hc hi hj
  refine (exec_ringgetRel f a b s).trans (once_done h rfl he ((fenced_pass hf _).trans ?_))
  simp only [ringOf_ok hid hg]
  exact if_pos (slotIn_of hin htaken)

/-- A release at party scope passes when the crew's loads are bound and its stores performed (spec/05 R105, spec/12 R214). -/
theorem fence_party_passes (hloads : (s.crew key).loadsBound = true) (hstores : (s.crew key).storesAtDie = true) :
    s.fence key .rel .party = .pass s := by
  have hnone : s.releases key .rel .party = false := rfl
  exact fence_passes (kind := .rel) (sc := .party) rfl hloads hstores (fun h => absurd h (ne_true_of_eq_false hnone))
    (fun h => absurd h Bool.false_ne_true) nofun

end

/-! ## The statement about rings -/

/-- Settles O42, each clause by the lemma about its form. -/
theorem rings : Obligations.Rings := by
  refine ⟨?_, ?_, ?_, ?_, ?_⟩
  · intro f a b s key h s0 c id n he hid h2 h64 hidle old
    exact ringputInit_runs h rfl rfl rfl rfl he hid h2 h64 hidle
  · intro f d a s key g h s0 c id he hid hg hlap hturn holder wrap g'
    exact ringputGet_runs h rfl rfl rfl he hid hg hlap hturn holder
  · intro f a b s key g u h s0 c he hf id j hid hg hin hheld x
    exact ringputPub_runs h rfl rfl he hf rfl rfl hid hg hin hheld
  · intro f d a s key g h s0 c id x he hid hg hlap hfull hturn holder wrap g'
    exact ringgetGet_runs h rfl rfl rfl he hid hg hlap hfull hturn holder
  · intro f a b s key g h s0 c id j x he hloads hstores hid hg hin htaken
    exact ringgetRel_runs h rfl rfl he (fence_party_passes hloads hstores) rfl rfl hid hg hin htaken

end Sys2Proof.Machine

/-! The events of tasks, launches and the scheduler (spec/08 R146, R147, spec/15 R253-R255, R259, R261, R262). -/
namespace Sys2Proof.Machine

/-! ## What an event does, by its turn -/

section
variable {i : Instr} {die : Nat} {s t : State} {g : State → State}

theorem happens_of_event (hx : exec i s = event s g) (hg : g s = t) : Happens i s t := by
  rw [Happens, hx, event, hg]

theorem happens_of_eventOn (hx : exec i s = eventOn die s g) (hr : s.relocking die = false) (hg : g s = t) : Happens i s t := by
  rw [Happens, hx, eventOn_of hr, hg]

end

/-! ## TASK_COMPLETE, JOIN_SUSPEND and TASK_RESUME -/

theorem exec_taskComplete (task : Nat) (s : State) : exec (.taskComplete task) s = execTaskComplete task s := rfl
theorem exec_joinSuspend (task : Nat) (s : State) : exec (.joinSuspend task) s = execJoinSuspend task s := rfl
theorem exec_taskResume (task : Nat) (s : State) : exec (.taskResume task) s = execTaskResume task s := rfl

/-- A task that may complete: it is resident without a fault, its children are over and its crews have ended (spec/08 R147). -/
structure State.Ended (s : State) (task : Nat) : Prop where
  clocked : s.relocking (s.task task).die = false
  resident : (s.task task).status = .resident
  joined : s.childrenDone (s.task task) = true
  sound : (s.task task).faulted = none
  here : (s.task task).away = []
  crews : ∀ k ∈ s.taskCrews (s.task task), (s.crew k).ended = true

/-- What is left of TASK_COMPLETE for such a task: its release, and its completion time. -/
def State.completes (s : State) (task : Nat) : State :=
  let t := s.task task
  match t.relCt with
  | some ct => if ct < s.mer t.die then s.taskOver task .complete else s
  | none =>
    let sc := if t.parent.isNone then packetRel (s.launch t.launch).packet else .pkg
    if Scope.wide sc && (t.parties.any fun p => s.backHeld (p / 16)) then s
    else
      let r := s.taskRelease t sc
      let s := r.1.modTask task fun t => { t with relCt := some r.2 }
      if !Scope.wide sc || r.2 < s.mer t.die then s.taskOver task .complete else s

/-- TASK_COMPLETE of such a task has its release left. -/
theorem taskComplete_happens {s t : State} {task : Nat} (h : s.Ended task) (ht : s.completes task = t) :
    Happens (.taskComplete task) s t := by
  obtain ⟨hr, hres, hjoined, hsound, hhere, hcrews⟩ := h
  refine happens_of_eventOn (exec_taskComplete task s) hr (Eq.trans ?_ ht)
  refine (if_neg ?_).trans ((if_neg ?_).trans (if_neg ?_))
  · simp [hres, hjoined]
  · simp [hsound]
  · simpa [hhere] using hcrews

section
variable {s : State} {task : Nat}

/-- A release that has been made lets the task complete once its completion time is past. -/
theorem completes_released {ct : Nat} (hct : (s.task task).relCt = some ct) (hpast : ct < s.mer (s.task task).die) :
    s.completes task = s.taskOver task .complete := by
  simp only [State.completes, hct, if_pos hpast]

/-- A release whose completion time is past when it is made lets the task complete at once. -/
theorem completes_releases {sc : Scope} (hsc : sc = if (s.task task).parent.isNone then packetRel (s.launch (s.task task).launch).packet
      else .pkg) (hct : (s.task task).relCt = none)
    (hback : Scope.wide sc = true → ∀ p ∈ (s.task task).parties, s.backHeld (p / 16) = false) :
    let r := s.taskRelease (s.task task) sc
    let t := r.1.modTask task fun t => { t with relCt := some r.2 }
    (Scope.wide sc = false ∨ r.2 < t.mer (s.task task).die) → s.completes task = t.taskOver task .complete := by
  intro r t hpast
  have hheld : (Scope.wide sc && (s.task task).parties.any fun p => s.backHeld (p / 16)) = false := by
    cases hw : Scope.wide sc
    · rfl
    · simpa using hback hw
  have hover : (!Scope.wide sc || decide (r.2 < t.mer (s.task task).die)) = true := by simpa using hpast
  simp only [State.completes, hct, ← hsc, hheld, Bool.false_eq_true, if_false]
  exact if_pos hover

section
variable {c0 : Nat} (hr : s.relocking (s.task task).die = false) (hfrom : (s.task task).joinFrom = some c0)
  (hres : (s.task task).status = .resident) (hsound : (s.task task).faulted = none) (hhere : (s.task task).away = [])
include hr hfrom hres hsound hhere

/-- A JOIN that has waited too long, on a task that is stopped and drained, saves the task (spec/08 R146). -/
theorem joinSuspend_saves (hkids : s.childrenDone (s.task task) = false) (hlong : c0 + 4096 < s.clk (s.task task).die)
    (hparties : ∀ p ∈ (s.task task).parties, (s.party p).stopped = true ∧ s.backHeld (p / 16) = false)
    (hcrews : ∀ k ∈ s.taskCrews (s.task task), (s.crew k).drained = true ∧ (s.crew k).report = none) :
    Happens (.joinSuspend task) s (s.saveTask task) := by
  have hstopped : ((s.task task).parties.all fun p => (s.party p).stopped) = true :=
    List.all_eq_true.mpr fun p hp => (hparties p hp).1
  have hdrained : ((s.taskCrews (s.task task)).all fun k => (s.crew k).drained && (s.crew k).report.isNone) = true :=
    List.all_eq_true.mpr fun k hk => by simp [hcrews k hk]
  have hback : ((s.task task).parties.any fun p => s.backHeld (p / 16)) = false :=
    List.any_eq_false.mpr fun p hp => ne_true_of_eq_false (hparties p hp).2
  refine happens_of_eventOn (exec_joinSuspend task s) hr ?_
  simp only [hfrom]
  refine (if_neg (by simp [hres, hsound, hhere])).trans ((if_neg (ne_true_of_eq_false hkids)).trans
    ((if_neg (Nat.not_le.mpr hlong)).trans ?_))
  simp only [hstopped, if_true, hdrained, hback, Bool.not_false, Bool.and_self]

/-- Of a JOIN whose children have ended, each stopped party without a report goes on where it is (spec/08 R146). -/
theorem joinSuspend_goes_on (hkids : s.childrenDone (s.task task) = true) :
    let idle := (s.task task).parties.filter fun p =>
      (s.party p).stopped && !(s.party p).preempted && (s.party p).crews.all fun k => (s.crew k).report.isNone
    idle ≠ [] → Happens (.joinSuspend task) s ((idle.foldl State.resumeParty s).modTask task fun t => { t with joinFrom := none }) := by
  intro idle hidle
  refine happens_of_eventOn (exec_joinSuspend task s) hr ?_
  simp only [hfrom]
  exact (if_neg (by simp [hres, hsound, hhere])).trans ((if_pos hkids).trans
    (if_neg (ne_true_of_eq_false (List.isEmpty_eq_false_iff.mpr hidle))))

end

/-- A suspended task whose children are over, and for which there is room, is placed again (spec/08 R146). -/
theorem taskResume_places {u : State} (hr : s.relocking (s.task task).die = false) (hst : (s.task task).status = .suspended)
    (hkids : s.childrenDone (s.task task) = true) (hu : s.restoreAll task (s.task task).die (s.task task).saved [] = some u) :
    Happens (.taskResume task) s (u.modTask task fun t => { t with saved := [], status := .resident }) := by
  refine happens_of_eventOn (exec_taskResume task s) hr ((if_pos hst).trans ((if_neg (by simp [hkids])).trans ?_))
  simp only [hu]

end

/-! ## LAUNCH_COMPLETE, TRIGGER_POINT and DEPENDENCE_RELEASE -/

theorem exec_launchComplete (launch : Nat) (s : State) : exec (.launchComplete launch) s = execLaunchComplete launch s := rfl
theorem exec_triggerPoint (launch : Nat) (s : State) : exec (.triggerPoint launch) s = execTriggerPoint launch s := rfl
theorem exec_dependenceRelease (launch : Nat) (s : State) : exec (.dependenceRelease launch) s = execDependenceRelease launch s := rfl

/-- The word that tells that a launch is over is set, and the launch leaves nothing (spec/15 R261, spec/16 R268). -/
def State.launchOver (s : State) (launch : Nat) : State :=
  let l := s.launch launch
  let v := packetCmpval l.packet + (if packetTrig l.packet then 1 else 0)
  (s.setCompletion l (if l.faulted then v ||| failBit else v)).closeLaunch launch

section
variable {s : State} {launch : Nat}

/-- A launch whose roots and tasks are over, its trigger point past, and whose release has none to wait for or is past, is over. -/
theorem launchComplete_over (hrun : (s.launch launch).status = .running)
    (hroots : packetRoots (s.launch launch).packet ≤ (s.launch launch).finished)
    (htasks : ∀ t ∈ s.tasks, t.2.launch = launch → TaskStatus.beyond t.2.status = true)
    (htrig : packetTrig (s.launch launch).packet = true → (s.launch launch).triggerSet = true)
    (hrel : (s.launch launch).relCt = none ∧ packetRel (s.launch launch).packet = .die ∨
      ∃ ct, (s.launch launch).relCt = some ct ∧ ct + 2 < s.meridian)
    (hheld : s.completionHeld (s.launch launch).ctx (s.launch launch).packet = false) :
    Happens (.launchComplete launch) s (s.launchOver launch) := by
  have hopen : ¬(decide ((s.launch launch).status ≠ .running) ||
      decide ((s.launch launch).finished < packetRoots (s.launch launch).packet) ||
      packetTrig (s.launch launch).packet && !(s.launch launch).triggerSet) = true := by
    simpa [hrun, hroots] using htrig
  have hover : ¬(s.tasks.any fun t => decide (t.2.launch = launch) && !TaskStatus.beyond t.2.status) = true := by
    simpa using htasks
  refine happens_of_event (exec_launchComplete launch s) ((if_neg hopen).trans ((if_neg hover).trans ?_))
  obtain ⟨hct, hdie⟩ | ⟨ct, hct, hpast⟩ := hrel
  · have hnarrow : Scope.wide .die = false := rfl
    simp only [hct, hdie, hnarrow, hheld, Bool.and_false, Bool.false_and, Bool.or_self, Bool.false_eq_true, if_false]
    rfl
  · have hlate : ¬s.meridian ≤ ct + 2 := Nat.not_le.mpr hpast
    simp only [hct, hlate, hheld, decide_false, Bool.and_false, Bool.or_self, Option.isNone_some, Bool.false_and,
      Bool.false_eq_true, if_false]
    rfl

/-- A launch with the early policy whose roots have all triggered sets its word early (spec/15 R262). -/
theorem triggerPoint_sets (hrun : (s.launch launch).status = .running) (htrig : packetTrig (s.launch launch).packet = true)
    (hunset : (s.launch launch).triggerSet = false) (hroots : packetRoots (s.launch launch).packet ≤ (s.launch launch).triggered)
    (hheld : s.completionHeld (s.launch launch).ctx (s.launch launch).packet = false) :
    Happens (.triggerPoint launch) s ((s.setCompletion (s.launch launch) (packetCmpval (s.launch launch).packet)).modLaunch launch
      fun l => { l with triggerSet := true }) :=
  happens_of_event (exec_triggerPoint launch s) (if_neg (by simp [hrun, htrig, hunset, hroots, hheld]))

/-- What the value that satisfied a dependence makes of its launch (spec/15 R253). -/
def State.depAnswered (s : State) (launch : Nat) (v : DWord) : State :=
  if v.getLsbD 63 then
    (s.setCompletion (s.launch launch) (packetCmpval (s.launch launch).packet ||| failBit)).closeLaunch launch
  else s.modLaunch launch fun l => { l with released := true }

/-- The word of a launch that waits keeps the value that it is found to have (spec/15 R253). -/
theorem testDep_reads {l : Launch} {pa : Nat} {a : Attr} (hwait : l.released = false) (hdep : l.dep = none)
    (haddr : packetDepaddr l.packet ≠ 0) (hlook : s.lookup l.ctx (packetDepaddr l.packet).toNat .read = .ok (pa, a))
    (hcut : s.cutOff pa = false) (hlow : s.mem.field pa 8 < 2 ^ 63) (hval : (packetDepval l.packet).toNat ≤ s.mem.field pa 8) :
    (s.testDep l).dep = some (BitVec.ofNat 64 (s.mem.field pa 8)) := by
  have hmet : (!s.cutOff pa && decide ((packetDepval l.packet).toNat ≤ s.mem.field pa 8 % 2 ^ 63)) = true := by
    rw [hcut, Nat.mod_eq_of_lt hlow, decide_eq_true hval]; rfl
  have hopen : ¬(l.released || l.dep.isSome || decide (packetDepaddr l.packet = 0)) = true := by
    simpa [hwait, hdep] using haddr
  unfold State.testDep
  rw [if_neg hopen, hlook]
  exact congrArg Launch.dep (if_pos hmet)

/-- A value below 2^63 releases its launch. -/
theorem depAnswered_of_lt {n : Nat} (h : n < 2 ^ 63) :
    s.depAnswered launch (BitVec.ofNat 64 n) = s.modLaunch launch fun l => { l with released := true } := by
  have htop : (BitVec.ofNat 64 n).getLsbD 63 = false := by
    rw [BitVec.getLsbD_ofNat, Nat.testBit_lt_two_pow h, Bool.and_false]
  exact if_neg (ne_true_of_eq_false htop)

section
variable (hrun : (s.launch launch).status = .running) (hwait : (s.launch launch).released = false)
  (hheld : s.completionHeld (s.launch launch).ctx (s.launch launch).packet = false)
include hrun hwait hheld

/-- A dependence that has kept a value is answered by it. -/
theorem dependence_kept {v : DWord} (hdep : (s.launch launch).dep = some v) :
    Happens (.dependenceRelease launch) s (s.depAnswered launch v) := by
  refine happens_of_event (exec_dependenceRelease launch s) ((if_neg (by simp [hrun, hwait, hheld])).trans ?_)
  simp only [hdep]
  rfl

/-- One that has kept none is tested against its word, and a value that satisfies it, below 2^63, releases the launch. -/
theorem dependence_read {pa : Nat} {a : Attr} (hword : s.wordHeld a pa = false)
    (hlook : s.lookup (s.launch launch).ctx (packetDepaddr (s.launch launch).packet).toNat .read = .ok (pa, a))
    (hcut : s.cutOff pa = false) (hdep : (s.launch launch).dep = none) (haddr : packetDepaddr (s.launch launch).packet ≠ 0)
    (hlow : s.mem.field pa 8 < 2 ^ 63) (hval : (packetDepval (s.launch launch).packet).toNat ≤ s.mem.field pa 8) :
    Happens (.dependenceRelease launch) s (s.modLaunch launch fun l => { l with released := true }) := by
  have htest := testDep_reads hwait hdep haddr hlook hcut hlow hval
  refine happens_of_event (exec_dependenceRelease launch s) ((if_neg (by simp [hrun, hwait, hheld])).trans ?_)
  simp only [hdep, hlook, hcut, hword, Bool.false_eq_true, if_false, htest]
  exact depAnswered_of_lt hlow

end

end

/-! ## BATCH_DEAL, CORE_TAKE_WORK and RUN_ARBITRATION -/

theorem exec_coreTakeWork (core : Nat) (s : State) : exec (.coreTakeWork core) s = execCoreTakeWork core s := rfl
theorem exec_runArbitration (core pipe : Nat) (s : State) : exec (.runArbitration core pipe) s = execRunArbitration core pipe s := rfl

/-- A launch whose roots have all been kept deals its next ones (spec/15 R254). -/
theorem batch_fresh {l : Launch} (h : l.back = []) :
    let n := min 64 (packetRoots l.packet - l.nextRoot)
    l.batch = (upto l.nextRoot n, { l with nextRoot := l.nextRoot + n }) := by
  simp only [Launch.batch, h, List.min?_nil]

/-- What Compass can deal of a launch: the launch after it, the batch, and the die that takes it (spec/15 R254). -/
def State.dealOf (s : State) (x : Nat × Launch) : Option (Nat × Launch × List Nat × Nat) :=
  if x.2.status = .running && x.2.released && (!x.2.det || !x.2.back.isEmpty) then
    match x.2.batch with
    | ([], _) => none
    | (ts, l) => (s.batchDie (s.launchDies x.2) ts.length).map fun d => (x.1, l, ts, d)
  else none

/-- The state in which a die has received a batch. -/
def State.dealt (s : State) : Option (Nat × Launch × List Nat × Nat) → State
  | none => s
  | some (li, l, ts, d) =>
    ({ s with launches := Tbl.set s.launches li l }).modDie d fun x => { x with roots := x.roots ++ ts.map fun t => (li, t) }

theorem exec_batchDeal (s : State) :
    exec .batchDeal s = event s fun s => s.dealt (s.launches.findSome? s.dealOf) := rfl

/-- Compass deals the next roots of a launch to which none has come back. -/
theorem dealOf_fresh {s : State} {li d : Nat} {l : Launch} (hrun : l.status = .running) (hrel : l.released = true)
    (hdet : l.det = false) (hback : l.back = []) (hroots : l.nextRoot < packetRoots l.packet) :
    let n := min 64 (packetRoots l.packet - l.nextRoot)
    s.batchDie (s.launchDies l) n = some d →
    s.dealOf (li, l) = some (li, { l with nextRoot := l.nextRoot + n }, upto l.nextRoot n, d) := by
  intro n hd
  have hlen : (upto l.nextRoot n).length = n := by rw [upto_eq_range', List.length_range']
  have hbatch : l.batch = (upto l.nextRoot n, { l with nextRoot := l.nextRoot + n }) := batch_fresh hback
  obtain ⟨x, xs, hts⟩ : ∃ x xs, upto l.nextRoot n = x :: xs := List.exists_cons_of_length_pos (by rw [hlen]; omega)
  rw [hts] at hbatch hlen ⊢
  refine (if_pos (by simp [hrun, hrel, hdet])).trans ?_
  simp only [hbatch, hlen, hd, Option.map_some]

theorem batchDeal_deals {s : State} {li d : Nat} {l : Launch} {rest : List (Nat × Launch)} (hl : s.launches = (li, l) :: rest)
    (hrun : l.status = .running) (hrel : l.released = true) (hdet : l.det = false) (hback : l.back = [])
    (hroots : l.nextRoot < packetRoots l.packet) :
    let n := min 64 (packetRoots l.packet - l.nextRoot)
    s.batchDie (s.launchDies l) n = some d →
    Happens .batchDeal s ({ s with launches := Tbl.set s.launches li { l with nextRoot := l.nextRoot + n } }.modDie d
      fun x => { x with roots := x.roots ++ (upto l.nextRoot n).map fun t => (li, t) }) := by
  intro n hd
  have hdeal : s.launches.findSome? s.dealOf = some (li, { l with nextRoot := l.nextRoot + n }, upto l.nextRoot n, d) := by
    rw [hl, List.findSome?_cons, dealOf_fresh hrun hrel hdet hback hroots hd]
  exact happens_of_event (exec_batchDeal s) (congrArg s.dealt hdeal)

/-- A core takes the newest task of its deque, and has none when it has neither a deque nor a spill (spec/15 R258). -/
theorem Core.pop_newest {x : Core} {q : List Nat} {t : Nat} (h : x.deque = q ++ [t]) : x.pop = some (t, { x with deque := q }) := by
  simp [Core.pop, h]

theorem Core.pop_empty {x : Core} (hq : x.deque = []) (hs : x.spilled = []) : x.pop = none := by
  simp [Core.pop, hq, hs]

theorem modTask_congr {s : State} {k : Nat} {g g' : Task → Task} (h : g (s.task k) = g' (s.task k)) : s.modTask k g = s.modTask k g' := by
  unfold State.modTask
  rw [h]

section
variable {s : State} {core : Nat}

section
variable (hr : s.relocking (dieOfCore core) = false) (hready : s.coreReady core = true) (hfree : s.freeParties core ≠ [])
include hr hready hfree

/-- A core with room takes its die's waiting task first (spec/15 R255; log 47). -/
theorem coreTakeWork_waiting {w : Nat} {u : State} (hw : (s.die (dieOfCore core)).waiting = some w) (hpin : (s.task w).pin = none)
    (hahead : s.handlerAhead core = false) (hres : (s.core core).reserved = none) (hu : s.placeTask false w core = some u) :
    Happens (.coreTakeWork core) s (u.modDie (dieOfCore core) fun x => { x with waiting := none }) := by
  refine happens_of_eventOn (exec_coreTakeWork core s) hr ((if_neg ?_).trans ?_)
  · simp [hready, hfree]
  · simp [hw, hpin, hahead, hres, hu]

/-- With none waiting it takes the newest task of its deque. -/
theorem coreTakeWork_deque {t : Nat} {q : List Nat} {u : State} (hw : (s.die (dieOfCore core)).waiting = none)
    (hq : (s.core core).deque = q ++ [t]) (hdet : (s.launch (s.task t).launch).det = false)
    (hfits : s.fits core (entryNeed (s.shapeOf (s.task t))) = true)
    (hu : ((s.modCore core fun c => { c with deque := q }).modTask t fun x => { x with pin := none }).placeTask true t core = some u) :
    Happens (.coreTakeWork core) s u := by
  refine happens_of_eventOn (exec_coreTakeWork core s) hr ((if_neg ?_).trans ?_)
  · simp [hready, hfree]
  · have hown : ((s.core core).pop.filter fun x => s.fits core (entryNeed (s.shapeOf (s.task x.1)))) =
        some (t, { s.core core with deque := q }) := by rw [Core.pop_newest hq, Option.filter_some, if_pos hfits]
    have hpin : ((s.setCore core { s.core core with deque := q }).modTask t fun x =>
        { x with pin := if (s.launch x.launch).det then some core else none }) =
        (s.modCore core fun c => { c with deque := q }).modTask t fun x => { x with pin := none } :=
      modTask_congr (congrArg (fun p => { s.task t with pin := p }) (if_neg (ne_true_of_eq_false hdet)))
    simp only [hw, hown, hpin, hu]

/-- With an empty deque it starts a root, when it is the best core for it. -/
theorem coreTakeWork_root {li t : Nat} {rest : List (Nat × Nat × Bool)} (hw : (s.die (dieOfCore core)).waiting = none)
    (hq : (s.core core).deque = []) (hsp : (s.core core).spilled = []) (hahead : s.handlerAhead core = false)
    (hres : (s.core core).reserved = none) (hroot : s.rootChoices core = (li, t, false) :: rest)
    (hbest : s.bestCore (s.openCores li (dieOfCore core)) (entryNeed (packetShape (s.launch li).packet 0)) = some core) :
    Happens (.coreTakeWork core) s (s.startRoot li t core false) := by
  refine happens_of_eventOn (exec_coreTakeWork core s) hr ((if_neg ?_).trans ?_)
  · simp [hready, hfree]
  · simp [hw, Core.pop_empty hq hsp, hahead, hres, hroot, State.takeRoot, hbest]

end

/-- A pipe without an owner goes to its winner (spec/15 R259). -/
theorem runArbitration_grants {pipe k : Nat} (hr : s.relocking (dieOfCore core) = false) (hp : pipe < 8)
    (hfree : Tbl.get? (s.core core).pipes pipe = none) (hk : s.winner core pipe = some k) :
    Happens (.runArbitration core pipe) s ((s.modCrew k fun c => { c with stall := none, stallAt := s.cycles k, cut := false }).modCore
      core fun x => { x with pipes := Tbl.set x.pipes pipe k }) := by
  refine happens_of_eventOn (exec_runArbitration core pipe s) hr ((if_neg ?_).trans ?_)
  · simp [hfree]; omega
  · simp only [hk]

end

/-! ## The statement about the scheduler -/

/-- Settles O56, an event at a time. -/
theorem schedulerEvents : Obligations.SchedulerEvents := by
  refine ⟨?_, ?_, ?_, ?_, ?_, ?_, ?_, ?_, ?_, ?_, ?_, ?_⟩
  · intro s task hr hres hjoined hsound hhere hcrews sc r t
    have hended : s.Ended task := ⟨hr, hres, hjoined, hsound, hhere, hcrews⟩
    exact ⟨fun ct hct hpast => taskComplete_happens hended (completes_released hct hpast),
      fun hct hback hpast => taskComplete_happens hended (completes_releases rfl hct hback hpast)⟩
  · intro s task c0 hr hfrom hres hsound hhere hkids hlong hparties hcrews
    exact joinSuspend_saves hr hfrom hres hsound hhere hkids hlong hparties hcrews
  · intro s task c0 hr hfrom hres hsound hhere hkids idle hidle
    exact joinSuspend_goes_on hr hfrom hres hsound hhere hkids hidle
  · intro s task u hr hst hkids hu
    exact taskResume_places hr hst hkids hu
  · intro s launch hrun hroots htasks hdie htrig hct hheld l v
    exact launchComplete_over hrun hroots htasks htrig (.inl ⟨hct, hdie⟩) hheld
  · intro s launch ct hrun hroots htasks hct htrig hpast hheld l v
    exact launchComplete_over hrun hroots htasks htrig (.inr ⟨ct, hct, hpast⟩) hheld
  · intro s launch hrun htrig hunset hroots hheld
    exact triggerPoint_sets hrun htrig hunset hroots hheld
  · intro s launch pa a hrun hwait hheld hword hlook hcut hdep haddr hlow hval
    exact dependence_read hrun hwait hheld hword hlook hcut hdep haddr hlow hval
  · intro s launch v hrun hwait hdep hheld l
    have hkept := dependence_kept hrun hwait hheld hdep
    exact ⟨fun hlow => by rwa [State.depAnswered, if_neg (ne_true_of_eq_false hlow)] at hkept,
      fun htop => by rwa [State.depAnswered, if_pos htop] at hkept⟩
  · intro s li l rest d hl hrun hrel hdet hback hroots n hd
    exact batchDeal_deals hl hrun hrel hdet hback hroots hd
  · intro s core hr hready hfree
    refine ⟨fun w u hw hpin hahead hres hu => coreTakeWork_waiting hr hready hfree hw hpin hahead hres hu,
      fun t q u hw hq hdet hfits hu => coreTakeWork_deque hr hready hfree hw hq hdet hfits hu, ?_⟩
    rintro li t rest n hw hq hsp hahead hres hroot rfl hbest
    exact coreTakeWork_root hr hready hfree hw hq hsp hahead hres hroot hbest
  · intro s core pipe k hr hp hfree hk
    exact runArbitration_grants hr hp hfree hk

end Sys2Proof.Machine

/-! Operations in T: how one is counted, and the issue of the instructions of the matrix array (spec/01 R12, spec/09 R162-R164,
R168-R170, R172, R173, R177). -/
namespace Sys2Proof.Machine

/-! ## Counting in T -/

/-- The operation that counting adds to the crew's others. -/
def countedOp (s : State) (key : Nat) (k : TKind) (arms : Bool) : TPend :=
  let c := s.crew key
  { id := c.nextId, pc := c.pc, epc := c.epc, kind := k, fmt := c.fmt
    armed := arms && (fmtNTE c.fmt || fmtITE c.fmt) && !c.ignoreTraps
    link := c.tlink, order := (s.die (dieOfCore (coreOf key))).tileOrder }

section
variable {s : State} {key : Nat} (k : TKind) (arms : Bool)

/-- The crew that counts takes its number and drops the pending link, which the operation has (spec/09 R172). -/
theorem crew_addT (h : ((Tbl.get? s.crews key).isSome || isAgentKey key) = true) : (s.addT key k arms).crew key =
    { s.crew key with tops := (s.crew key).tops ++ [countedOp s key k arms], nextId := (s.crew key).nextId + 1, tlink := none } :=
  crew_modCrew_self (s := s.modDie _ _) _ h

variable (s key)

theorem tileOrder_addT : ((s.addT key k arms).die (dieOfCore (coreOf key))).tileOrder =
    (s.die (dieOfCore (coreOf key))).tileOrder + 1 := by
  simp [State.addT]

theorem mem_addT : (s.addT key k arms).mem = s.mem := by simp [State.addT]

theorem parties_addT : (s.addT key k arms).parties = s.parties := by simp [State.addT]

end

/-- Settles O44: the operation is `countedOp`, and the crew is changed in its operations, its numbering and its link alone. -/
theorem tileCounted : Obligations.TileCounted := by
  intro s key k arms h c t
  rw [show t.crew key = _ from crew_addT k arms h]
  exact ⟨countedOp s key k arms, rfl, rfl, rfl, rfl, rfl, rfl, rfl, rfl, rfl, rfl, tileOrder_addT s key k arms, rfl, rfl,
    ⟨rfl, rfl, rfl⟩, mem_addT s key k arms, parties_addT s key k arms⟩

/-! ## The frame of an instruction counted in T -/

section
variable {i : Instr} {f : Ctl} {s s0 t : State} {key : Nat} {c : Crew} {body : State → Nat → Crew → Issue}

theorem countedT_done (hx : exec i s = countedT i f s body) (h : Issues i s key) (hf : Instr.hints i = f)
    (hs : s0 = s.entered key f) (hc : c = s0.crew key) (hroom : c.tops.length < 63) (he : c.eff f ≠ 0)
    (hb : body s0 key c = .done t) : Runs i s key t :=
  runs_of_done hx h hf hs hc
    ((if_neg (ne_true_of_eq_false (counterFull_of_room hroom))).trans ((if_neg he).trans hb))

/-- With no effective lane it is only counted, and nothing traps (spec/09 R162, spec/01 R12). -/
theorem countedT_empty (hx : exec i s = countedT i f s body) (h : Issues i s key) (hf : Instr.hints i = f)
    (hroom : (s.crew key).tops.length < 63) (he : (s.crew key).eff f = 0) :
    Runs i s key ((s.entered key f).addT key .empty false) := by
  have hroom0 : ((s.entered key f).crew key).tops.length < 63 := by rw [entered_crew]; split <;> exact hroom
  exact runs_of_done hx h hf rfl rfl
    ((if_neg (ne_true_of_eq_false (counterFull_of_room hroom0))).trans (if_pos (by rwa [eff_entered])))

end

/-! ## The instructions of the array -/

section
variable (f : Ctl) (d a b e : Operand) (t src : BitVec 5) (k n : BitVec 6) (xf : XFmt) (wf : WFmt) (z clr hist : Bool) (s : State)

theorem exec_tmma : exec (.tmma f a b t) s = product (.tmma f a b t) f a b none t false s := rfl
theorem exec_tmmae : exec (.tmmae f a b e t) s = product (.tmmae f a b e t) f a b (some e) t false s := rfl
theorem exec_tmmag : exec (.tmmag f a b t) s = product (.tmmag f a b t) f a b none t true s := rfl
theorem exec_tzero : exec (.tzero f t) s = execTzero f t s := rfl
theorem exec_tadd : exec (.tadd f t src) s = execTadd f t src s := rfl
theorem exec_tload : exec (.tload f a b t) s = execTload f a b t s := rfl
theorem exec_tdrain : exec (.tdrain f a b t clr hist) s = execTdrain f a b t clr hist s := rfl
theorem exec_tdrainl : exec (.tdrainl f a b e t hist) s = execTdrainl f a b e t hist s := rfl
theorem exec_tlink : exec (.tlink f a b) s = execTlink f a b s := rfl
theorem exec_ommv : exec (.ommv f d a b k n xf wf z) s = octetOp (.ommv f d a b k n xf wf z) f d a b none k n xf wf z s := rfl
theorem exec_ommve : exec (.ommve f d a b e k n xf wf z) s =
    octetOp (.ommve f d a b e k n xf wf z) f d a b (some e) k n xf wf z s := rfl

end

section
variable {i : Instr} {f : Ctl} {a b : Operand} {t : BitVec 5} {s s0 : State} {key : Nat} {c : Crew} {p : Party}
  (hs : s0 = s.entered key f) (hc : c = s0.crew key) (hp : p = s0.party c.party) (hroom : c.tops.length < 63)
  (he : c.eff f ≠ 0) (ht : t.toNat < p.tiles)
include hs hc hp hroom he ht

/-- A product whose tile, operands and formats are in order is counted with the records as they stand (spec/09 R163, R164). -/
theorem product_runs {e : Option Operand} {grad : Bool} {ra rb : BitVec 512} (hx : exec i s = product i f a b e t grad s)
    (h : Issues i s key) (hf : Instr.hints i = f)
    (hra : Tbl.get? p.shapes (s0.uni key c false a).toNat = some ra)
    (hrb : Tbl.get? p.shapes (s0.uni key c false b).toNat = some rb) (hA : isA ra = true)
    (hB : isB rb (shapeExt ra 0) grad = true) (hfmt : productFormats c.fmt ra rb e.isSome grad = none)
    (hfa : s0.operandFault key ra 0 false = none) (hfb : s0.operandFault key rb 0 e.isSome = none) :
    Runs i s key (s0.addT key (.mma ra rb (e.map fun o => s0.uni key c true o) t.toNat 0) true) := by
  subst hp
  refine countedT_done hx h hf hs hc hroom he ((if_neg (Nat.not_le.mpr ht)).trans ?_)
  simp [hra, hrb, hA, hB, hfmt, hfa, hfb]

theorem tzero_runs (h : Issues (.tzero f t) s key) : Runs (.tzero f t) s key (s0.addT key (.zero t.toNat) false) := by
  subst hp
  exact countedT_done (exec_tzero f t s) h rfl hs hc hroom he (if_neg (Nat.not_le.mpr ht))

theorem tadd_runs {src : BitVec 5} (hsrc : src.toNat < p.tiles) (h : Issues (.tadd f t src) s key) :
    Runs (.tadd f t src) s key (s0.addT key (.add t.toNat src.toNat) false) := by
  subst hp
  exact countedT_done (exec_tadd f t src s) h rfl hs hc hroom he ((if_neg (Nat.not_le.mpr ht)).trans (if_neg (Nat.not_le.mpr hsrc)))

/-- TLOAD of a plane in a format of Table 9-2 (spec/09 R168). -/
theorem tload_runs {r : BitVec 512} (h : Issues (.tload f a b t) s key)
    (hr : Tbl.get? p.shapes (s0.uni key c false a).toNat = some r) (hplane : isPlane r false = true)
    (hfmt : planeFormat (shapeFmt r) = true) (hfault : s0.operandFault key r (s0.uni key c true b).toNat false = none) :
    Runs (.tload f a b t) s key (s0.addT key (.load (s0.uni key c false a).toNat r (s0.uni key c true b) t.toNat) false) := by
  subst hp
  refine countedT_done (exec_tload f a b t s) h rfl hs hc hroom he ((if_neg (Nat.not_le.mpr ht)).trans ?_)
  simp [hr, hplane, hfmt, hfault]

/-- TDRAIN to a plane in the output format (spec/09 R169). -/
theorem tdrain_runs {r : BitVec 512} {clr hist : Bool} (h : Issues (.tdrain f a b t clr hist) s key)
    (hr : Tbl.get? p.shapes (s0.uni key c false a).toNat = some r) (hplane : isPlane r true = true)
    (hof : shapeFmt r = fmtOF c.fmt) (hfmt : planeFormat (shapeFmt r) = true)
    (hfault : s0.operandFault key r (s0.uni key c true b).toNat false = none) :
    Runs (.tdrain f a b t clr hist) s key
      (s0.addT key (.drain (s0.uni key c false a).toNat r (s0.uni key c true b) t.toNat clr hist) true) := by
  subst hp
  refine countedT_done (exec_tdrain f a b t clr hist s) h rfl hs hc hroom he ((if_neg (Nat.not_le.mpr ht)).trans ?_)
  simp [hr, hplane, ← hof, hfmt, hfault]

/-- TDRAINL to a plane in the output format, with the ℓ of an MLD operand (spec/09 R170). -/
theorem tdrainl_runs {e : Operand} {r l : BitVec 512} {hist : Bool} (h : Issues (.tdrainl f a b e t hist) s key)
    (hr : Tbl.get? p.shapes (s0.uni key c false a).toNat = some r)
    (hl : Tbl.get? p.shapes (s0.uni key c false b).toNat = some l) (hplane : isPlane r true = true)
    (hmld : isMld l r = true) (hof : shapeFmt r = fmtOF c.fmt) (hfloat : shapeFmt r ≤ 4)
    (hell : shapeFmt l = 8 ∨ shapeFmt l = 9) (hfault : s0.operandFault key r 0 false = none)
    (hside : s0.sideFault key (shapeDst l) (auxBase l 0) (shapeExt l 0 * shapeExt l 1) = none) :
    Runs (.tdrainl f a b e t hist) s key
      (s0.addT key (.drainl (s0.uni key c false a).toNat r l (s0.uni key c true e) t.toNat hist) true) := by
  subst hp
  refine countedT_done (exec_tdrainl f a b e t hist s) h rfl hs hc hroom he ((if_neg (Nat.not_le.mpr ht)).trans ?_)
  simpa [hr, hl, hplane, hmld, ← hof, Nat.not_lt.mpr hfloat, hfault, hside] using hell.resolve_left

end

/-- TLINK names the barrier object of the next operation (spec/09 R172). -/
theorem tlink_runs {f : Ctl} {a b : Operand} {s s0 : State} {key id n : Nat} {c : Crew} (h : Issues (.tlink f a b) s key)
    (hs : s0 = s.entered key f) (hc : c = s0.crew key) (hid : id = (s0.uni key c false a).toNat)
    (hn : n = (s0.uni key c false b).toNat) (he : c.eff f ≠ 0) (hid16 : id < 16) (hn1 : 1 ≤ n) (hn64 : n ≤ 64)
    (hfree : c.tlink = none) : Runs (.tlink f a b) s key (s0.modCrew key fun c => { c with tlink := some (id, n) }) := by
  subst hs hc hid hn
  refine (exec_tlink f a b s).trans (once_done h rfl he ((if_neg (Nat.not_lt.mpr (Nat.le_of_lt_succ hid16))).trans
    ((if_neg ?_).trans (if_neg (by simp [hfree])))))
  simp only [Bool.or_eq_true, decide_eq_true_eq, not_or, Nat.not_lt]
  exact ⟨Nat.one_le_iff_ne_zero.mp hn1, hn64⟩

/-- Settles O43, each clause by the lemma about its form. That TZERO, TADD and TLOAD are never armed is the model's reading
(log 16). -/
theorem tileIssue : Obligations.TileIssue := by
  refine ⟨?_, ?_, ?_, ?_, ?_, ?_, ?_, ?_⟩
  · rintro i f a b e t grad s key ra rb hi h s0 c p hroom he ht hra hrb hA hB hfmt hfa hfb
    have hform : exec i s = product i f a b e t grad s ∧ Instr.hints i = f := by
      obtain ⟨rfl, rfl, rfl⟩ | ⟨o, rfl, rfl, rfl⟩ | ⟨rfl, rfl, rfl⟩ := hi
      · exact ⟨exec_tmma f a b t s, rfl⟩
      · exact ⟨exec_tmmae f a b o t s, rfl⟩
      · exact ⟨exec_tmmag f a b t s, rfl⟩
    exact product_runs rfl rfl rfl hroom he ht hform.1 h hform.2 hra hrb hA hB hfmt hfa hfb
  · intro f t s key h s0 c hroom he ht
    exact tzero_runs rfl rfl rfl hroom he ht h
  · intro f t src s key h s0 c hroom he ht hsrc
    exact tadd_runs rfl rfl rfl hroom he ht hsrc h
  · intro f a b t s key r h s0 c p disp hroom he ht hr hplane hfmt hfault
    exact tload_runs rfl rfl rfl hroom he ht h hr hplane hfmt hfault
  · intro f a b t clr hist s key r h s0 c p disp hroom he ht hr hplane hof hfmt hfault
    exact tdrain_runs rfl rfl rfl hroom he ht h hr hplane hof hfmt hfault
  · intro f a b e t hist s key r l h s0 c p hroom he ht hr hl hplane hmld hof hfloat hell hfault hside
    exact tdrainl_runs rfl rfl rfl hroom he ht h hr hl hplane hmld hof hfloat hell hfault hside
  · intro f a b s key h s0 c id n he hid hn1 hn64 hfree
    exact tlink_runs h rfl rfl rfl rfl he hid hn1 hn64 hfree
  · intro i f s key hi h hroom he
    have counted {body : State → Nat → Crew → Issue} (hx : exec i s = countedT i f s body) (hf : Instr.hints i = f) :=
      countedT_empty hx h hf hroom he
    rcases hi with ⟨a, b, t, rfl⟩ | ⟨a, b, e, t, rfl⟩ | ⟨a, b, t, rfl⟩ | ⟨t, rfl⟩ | ⟨t, src, rfl⟩ | ⟨a, b, t, rfl⟩ |
      ⟨a, b, t, clr, hist, rfl⟩ | ⟨a, b, e, t, hist, rfl⟩ | ⟨d, a, b, k, n, xf, wf, z, rfl⟩ |
      ⟨d, a, b, e, k, n, xf, wf, z, rfl⟩
    · exact counted (exec_tmma f a b t s) rfl
    · exact counted (exec_tmmae f a b e t s) rfl
    · exact counted (exec_tmmag f a b t s) rfl
    · exact counted (exec_tzero f t s) rfl
    · exact counted (exec_tadd f t src s) rfl
    · exact counted (exec_tload f a b t s) rfl
    · exact counted (exec_tdrain f a b t clr hist s) rfl
    · exact counted (exec_tdrainl f a b e t hist s) rfl
    · exact counted (exec_ommv f d a b k n xf wf z s) rfl
    · exact counted (exec_ommve f d a b e k n xf wf z s) rfl

end Sys2Proof.Machine

/-! The Hypsometer, OMMV and OMMVE (spec/09 R171, R175, spec/22 R316-R318). -/
namespace Sys2Proof.Machine

/-! ## HISTRD and HISTCLR -/

theorem exec_histrd (f : Ctl) (d a b : Operand) (s : State) : exec (.histrd f d a b) s = execHistrd f d a b s := rfl
theorem exec_histclr (f : Ctl) (a b : Operand) (s : State) : exec (.histclr f a b) s = execHistclr f a b s := rfl

/-- The entry of a region leaves a crew in its context. -/
@[simp] theorem ctxOf_entered (s : State) (key : Nat) (f : Ctl) : (s.entered key f).ctxOf key = s.ctxOf key := by
  simp only [State.ctxOf, State.partyOf, entered_party, show ((s.entered key f).crew key).party = (s.crew key).party by
    rw [(settles_entered s key f).1]]

/-- HISTRD reads a counter, or for bin 32 the base in two's complement (spec/09 R171). -/
theorem histrd_computes {f : Ctl} {d a b : Operand} {s : State} {key slot bin : Nat} (h : Issues (.histrd f d a b) s key)
    (hs : slot = (s.uni key (s.crew key) false a).toNat) (hb : bin = (s.uni key (s.crew key) false b).toNat)
    (hslot : slot < 64) (hbin : bin ≤ 32) : Computes (.histrd f d a b) f false d s key (s.crew key) fun _ =>
      let hyps := (s.core (coreOf key)).hypsSlot (64 * s.ctxOf key + slot)
      if bin = 32 then (BitVec.ofInt 32 hyps.base).setWidth 64 else (Sparse.get hyps.bins bin).setWidth 64 := by
  obtain ⟨-, hlist, hlanes, -⟩ := id h
  by_cases he : (s.crew key).eff f = 0
  · exact computes_of_no_lane hlist he ((exec_histrd f d a b s).trans (once_empty h rfl (by rw [eff_entered, he])))
  · refine computes_of_writeDst hlanes (listed_modCrew _ (listed_entered f hlist)) (quiet_modCrew _ key _)
      (crew_modCrew_self (fun c => c.writeDst false d (c.effLanes f) _) (listed_entered f hlist))
      ((exec_histrd f d a b s).trans (once_done h rfl (by rwa [eff_entered]) ?_))
    simp only [State.operandNat, operand_entered, ctxOf_entered, entered_core]
    subst hs hb
    refine (if_neg (Nat.not_lt.mpr (Nat.le_of_lt_succ hslot))).trans ((if_neg (Nat.not_lt.mpr hbin)).trans ?_)
    rw [wrapInt_eq_toNat, BitVec.ofNat_toNat]
    rfl

/-- HISTCLR clears the slot and sets its base (spec/09 R171). -/
theorem histclr_runs {f : Ctl} {a b : Operand} {s s0 : State} {key slot : Nat} {c : Crew} {base : Int}
    (h : Issues (.histclr f a b) s key) (hs : s0 = s.entered key f) (hc : c = s0.crew key)
    (hsl : slot = (s0.uni key c false a).toNat) (hb : base = toSigned 32 (s0.uni key c false b).toNat) (he : c.eff f ≠ 0)
    (hslot : slot < 64) (hlo : -1074 ≤ base) (hhi : base ≤ 1023) : Runs (.histclr f a b) s key
      (s0.modCore (coreOf key) fun x =>
        { x with hyps := Tbl.set x.hyps (64 * s0.ctxOf key + slot) { base := base, bins := [] } }) := by
  subst hs hc hsl hb
  refine (exec_histclr f a b s).trans (once_done h rfl he ((if_neg (Nat.not_lt.mpr (Nat.le_of_lt_succ hslot))).trans
    (if_neg ?_)))
  simp only [Bool.or_eq_true, decide_eq_true_eq, not_or, Int.not_lt]
  exact ⟨hlo, hhi⟩

/-! ## OMMV and OMMVE -/

/-- Settles O45: the octet instructions are one operation of the two forms, whose range lies in the weight store. -/
theorem hypsometerOctet : Obligations.HypsometerOctet := by
  refine ⟨?_, ?_, ?_⟩
  · intro f d a b s key h slot bin hyps hslot hbin
    exact histrd_computes h rfl rfl hslot hbin
  · intro f a b s key h s0 c slot base he hslot hlo hhi
    exact histclr_runs h rfl rfl rfl rfl he hslot hlo hhi
  · intro i f dr ar b e k n xf wf z s key hi h s0 c base kk nn hroom he hfit octets relief g data
    have hform : exec i s = octetOp i f (.v dr) (.v ar) b e k n xf wf z s ∧ Instr.hints i = f := by
      obtain ⟨rfl, rfl⟩ | ⟨o, rfl, rfl⟩ := hi
      · exact ⟨exec_ommv f (.v dr) (.v ar) b k n xf wf z s, rfl⟩
      · exact ⟨exec_ommve f (.v dr) (.v ar) b o k n xf wf z s, rfl⟩
    exact countedT_done hform.1 h hform.2 rfl rfl hroom he (if_neg (Nat.not_lt.mpr hfit))

end Sys2Proof.Machine

/-! The events of the array, the drain unit and the octet path (spec/09 R165-R171, R173, spec/15 R264, spec/18 R287, spec/20 R304,
R305, spec/22 R318, R319). -/
namespace Sys2Proof.Machine

theorem exec_tileOpComplete (crew : Nat) (s : State) : exec (.tileOpComplete crew) s = execTileOpComplete crew s := rfl
theorem exec_drainComplete (crew : Nat) (s : State) : exec (.drainComplete crew) s = execDrainComplete crew s := rfl
theorem exec_fusionWindowClose (core idx : Nat) (s : State) :
    exec (.fusionWindowClose core idx) s = execFusionWindowClose core idx s := rfl
theorem exec_fusedPass (core : Nat) (s : State) : exec (.fusedPass core) s = execFusedPass core s := rfl

/-! ## TILE_OP_COMPLETE -/

/-- The operation of a crew, and its kind, whose turn it is on the array or the drain unit; a held class keeps only one that
transfers (spec/15 R264). -/
structure State.TileTurn (s : State) (crew : Nat) (o : TPend) (k : TKind) : Prop where
  clocked : s.relocking (dieOfCore (coreOf crew)) = false
  next : s.nextTile crew = some o
  kind : o.kind = k
  free : k.isMem = true → s.classHeld crew = false

section
variable {s : State} {crew : Nat} {o : TPend}

theorem State.TileTurn.notKept {k : TKind} (h : s.TileTurn crew o k) : ¬(k.isMem && s.classHeld crew) = true := by
  simpa using h.free

/-- TZERO clears every element of its tile (spec/09 R168). -/
theorem tileOp_zero {t : Nat} (h : s.TileTurn crew o (.zero t)) : Happens (.tileOpComplete crew) s
    ((s.modParty (s.crew crew).party fun p => (cells 128 128).foldl (fun p x => p.setTile t x.1 x.2 0) p).finishT crew o) := by
  refine happens_of_eventOn (exec_tileOpComplete crew s) h.clocked ?_
  simp only [h.next, h.kind, if_neg h.notKept]

/-- TADD adds its source to its tile, element by element, with one RTO rounding each (spec/09 R168). -/
theorem tileOp_add {t src : Nat} (h : s.TileTurn crew o (.add t src)) : Happens (.tileOpComplete crew) s
    ((s.modParty (s.crew crew).party fun p => (cells 128 128).foldl (fun q x => q.setTile t x.1 x.2
      (BitVec.ofNat 64 (acc64.round { mode := .rto, cn := fmtCN o.fmt }
        (Num.add (acc64.decode (p.tile t x.1 x.2).toNat) (acc64.decode (p.tile src x.1 x.2).toNat))))) p).finishT crew o) := by
  refine happens_of_eventOn (exec_tileOpComplete crew s) h.clocked ?_
  simp only [h.next, h.kind, if_neg h.notKept]

/-- What a run of a TLOAD or a drain has made of its operation, and what it waits for. -/
def tileAfter (crew : Nat) (o : TPend) (x : TileRun) (why : Option Wait) (die : Nat) : State :=
  (x.s.modCrew crew fun c => { c with ct := max c.ct x.w.ct }).modT crew o.id fun o =>
    { o with rows := o.rows ++ x.rows, bits := o.bits ++ x.bits, ct := maxOpt o.ct x.w.wait, why := why, heldDie := die }

theorem tileStep_ok {x : TileRun} (h : x.err = none) : tileStep crew o x = tileAfter crew o x none 4 := by
  rw [tileStep, h]
  rfl

theorem tileStep_held {x : TileRun} {d : Nat} (h : x.err = some (.held d)) :
    tileStep crew o x = tileAfter crew o x (some .clock) d := by
  rw [tileStep, h]
  rfl

section
variable {sl t : Nat} {r : BitVec 512} {disp : DWord} (h : s.TileTurn crew o (.load sl r disp t))
include h

/-- TLOAD whose units have all come completes (spec/09 R168). -/
theorem tileOp_load (herr : (s.runLoad crew o r disp t).err = none) :
    Happens (.tileOpComplete crew) s ((tileAfter crew o (s.runLoad crew o r disp t) none 4).finishT crew o) := by
  refine happens_of_eventOn (exec_tileOpComplete crew s) h.clocked ?_
  simp only [h.next, h.kind, if_neg h.notKept, herr]
  rw [tileStep_ok herr]

/-- One that a die holds keeps its units and waits for the die's clock (spec/18 R287). -/
theorem tileOp_load_held {d : Nat} (herr : (s.runLoad crew o r disp t).err = some (.held d)) :
    Happens (.tileOpComplete crew) s (tileAfter crew o (s.runLoad crew o r disp t) (some .clock) d) := by
  refine happens_of_eventOn (exec_tileOpComplete crew s) h.clocked ?_
  simp only [h.next, h.kind, if_neg h.notKept, herr]
  rw [tileStep_held herr]
  rfl

end

/-- A product whose operands are whole runs its k-steps (spec/09 R165-R167). -/
theorem tileOp_mma {a b : BitVec 512} {e : Option DWord} {t q : Nat} (h : s.TileTurn crew o (.mma a b e t q))
    (ha : s.localErr crew a false = none) (hb : s.localErr crew b false = none)
    (he : e.isSome = true → s.localErr crew b true = none) :
    Happens (.tileOpComplete crew) s (s.runProduct crew o a b e t q) := by
  have hell : (e.bind fun _ => s.localErr crew b true) = none := by
    cases e
    · rfl
    · exact he rfl
  refine happens_of_eventOn (exec_tileOpComplete crew s) h.clocked ?_
  simp only [h.next, h.kind, if_neg h.notKept, ha, hb, hell]
  rfl

/-! ## DRAIN_COMPLETE -/

/-- The drain of a crew whose turn it is goes on (spec/09 R169-R171). -/
theorem drain_happens {t : State} {k : TKind} (h : s.TileTurn crew o k) (hd : k.isDrain = true) (ht : s.stepDrain crew o false = t) :
    Happens (.drainComplete crew) s t := by
  have hmem : k.isMem = true := by
    unfold TKind.isMem
    split
    · rfl
    · exact hd
  refine (exec_drainComplete crew s).trans (engineEvent_of h.clocked (h.free hmem) ?_)
  rwa [h.next]

/-- A drain that has been performed counts in the Hypsometer when it has H (spec/20 R305). -/
theorem finishDrain_eq {r : BitVec 512} {hist : Bool}
    (hk : (∃ sl disp t clr, o.kind = .drain sl r disp t clr hist) ∨ ∃ sl l e t, o.kind = .drainl sl r l e t hist)
    (bits : List Nat) :
    s.finishDrain crew o bits = (if hist then s.histogram crew r bits else s).finishT crew o := by
  rw [State.finishDrain]
  obtain ⟨sl, disp, t, clr, hk⟩ | ⟨sl, l, e, t, hk⟩ := hk
  all_goals rw [hk]; cases hist <;> rfl

theorem stepDrain_finishes (ha : o.applied = true) (hp : s.passed crew o.ct = true) (give : Bool) :
    s.stepDrain crew o give = s.finishDrain crew o o.bits := by
  rw [State.stepDrain, if_pos ha, if_pos hp]

theorem stepDrain_drain {sl t : Nat} {r : BitVec 512} {disp : DWord} {clr hist : Bool}
    (hk : o.kind = .drain sl r disp t clr hist) (ha : o.applied = false) (give : Bool) :
    s.stepDrain crew o give = s.runDrain crew o r disp t clr give fun _ _ x => x := by
  simp only [State.stepDrain, ha, hk]
  rfl

theorem stepDrain_drainl {sl t : Nat} {r l : BitVec 512} {e : DWord} {hist : Bool} (hk : o.kind = .drainl sl r l e t hist)
    (ha : o.applied = false) (hl : s.localErr crew l true = none) (give : Bool) :
    s.stepDrain crew o give = s.runDrain crew o r 0 t false give (s.drainScale crew l e) := by
  simp only [State.stepDrain, ha, hk, hl]
  rfl

end

/-! ## The octet path -/

/-- A group whose 16 cycles are over becomes ready (spec/22 R318). -/
theorem fusionWindowClose_happens {s : State} {core idx : Nat} {g : Group} (hr : s.relocking (dieOfCore core) = false)
    (hg : (s.core core).groups[idx]? = some g) (hc : g.closes ≤ s.clk (core / 16)) : Happens (.fusionWindowClose core idx) s
      (s.modCore core fun x => { x with groups := x.groups.set idx { g with ready := true } }) := by
  refine happens_of_eventOn (exec_fusionWindowClose core idx s) hr ?_
  simp only [hg, if_pos hc]
  rfl

/-- The oldest group that is ready leaves the core's groups, and its requests are served in their order (spec/22 R318, R319). -/
theorem fusedPass_happens {s : State} {core : Nat} {g : Group} (hr : s.relocking (dieOfCore core) = false)
    (hg : (s.core core).groups.find? (s.groupReady core) = some g) : Happens (.fusedPass core) s
      (g.reqs.foldl (fun s r => s.serveOctet r.1 r.2.1 r.2.2) (s.modCore core fun x => { x with groups := x.groups.erase g })) := by
  refine happens_of_eventOn (exec_fusedPass core s) hr ?_
  simp only [hg]
  rfl

/-! ## The statement about the events -/

/-- Settles O46, an event at a time. -/
theorem tileEvents : Obligations.TileEvents := by
  refine ⟨?_, ?_, ?_⟩
  · intro s crew o hr hnext hfree k
    have hturn {kind : TKind} (hk : o.kind = kind) : s.TileTurn crew o kind := ⟨hr, hnext, hk, hk ▸ hfree⟩
    refine ⟨?_, ?_, ?_, ?_, ?_, ?_, ?_⟩
    · intro t hk
      exact tileOp_zero (hturn hk)
    · intro t src hk
      exact tileOp_add (hturn hk)
    · intro sl r disp t hk x after
      exact ⟨fun herr => tileOp_load (hturn hk) herr, fun d herr => tileOp_load_held (hturn hk) herr⟩
    · intro a b e t q hk ha hb he
      exact tileOp_mma (hturn hk) ha hb he
    · intro sl r disp t clr hist hk ha
      exact drain_happens (hturn hk) rfl (stepDrain_drain hk ha false)
    · intro sl r l e t hist hk ha hl
      exact drain_happens (hturn hk) rfl (stepDrain_drainl hk ha hl false)
    · intro r hist hk ha hp
      have hd : o.kind.isDrain = true := by
        obtain ⟨sl, disp, t, clr, hk⟩ | ⟨sl, l, e, t, hk⟩ := hk <;> rw [hk] <;> rfl
      exact drain_happens (hturn rfl) hd ((stepDrain_finishes ha hp false).trans (finishDrain_eq hk o.bits))
  · intro s core idx g hr hg hc
    exact fusionWindowClose_happens hr hg hc
  · intro s core g hr hg
    exact fusedPass_happens hr hg

end Sys2Proof.Machine

/-! The clocks of a die: RDMER, RDCLK, CLK2MER, and the count of its cycles (spec/10 R189, R190, spec/18 R283, R284, R288). -/
namespace Sys2Proof.Machine

/-! ## Reading a clock -/

theorem exec_rdmer (f : Ctl) (d : Operand) (dr : Bool) (s : State) :
    exec (.rdmer f d dr) s = clockRead (.rdmer f d dr) f d dr s State.mer := rfl
theorem exec_rdclk (f : Ctl) (d : Operand) (dr : Bool) (s : State) :
    exec (.rdclk f d dr) s = clockRead (.rdclk f d dr) f d dr s State.clk := rfl
theorem exec_clk2mer (f : Ctl) (d a : Operand) (s : State) : exec (.clk2mer f d a) s = execClk2mer f d a s := rfl

/-- The entry of a region changes no counter and no clock. -/
theorem countersZero_entered (s : State) (key : Nat) (f : Ctl) :
    ((s.entered key f).crew key).countersZero = (s.crew key).countersZero := by
  rw [entered_crew]; split <;> rfl
theorem mer_entered (s : State) (key : Nat) (f : Ctl) (d : Nat) : (s.entered key f).mer d = s.mer d := by
  unfold State.entered; split <;> rfl
theorem clk_entered (s : State) (key : Nat) (f : Ctl) (d : Nat) : (s.entered key f).clk d = s.clk d := by
  unfold State.entered; split <;> rfl

/-- A clock is read into D at once where nothing that DR waits for is outstanding (spec/10 R189). -/
theorem clockRead_computes {i : Instr} {f : Ctl} {d : Operand} {dr : Bool} {s : State} {key : Nat} {clock : State → Nat → Nat}
    (h : Issues i s key) (hf : Instr.hints i = f) (hx : exec i s = clockRead i f d dr s clock)
    (hdr : dr = true → (s.crew key).countersZero = true)
    (hclock : clock (s.entered key f) (dieOfCore (coreOf key)) = clock s (dieOfCore (coreOf key))) :
    Computes i f true d s key (s.crew key) fun _ => BitVec.ofNat 64 (clock s (dieOfCore (coreOf key))) := by
  obtain ⟨-, hlist, hlanes, -⟩ := id h
  by_cases he : (s.crew key).eff f = 0
  · exact computes_of_no_lane hlist he (hx.trans (once_empty h hf ((eff_entered s key f f).trans he)))
  · refine computes_of_writeUni hlanes hlist (hx.trans (once_done h hf (by rwa [eff_entered]) ?_))
    have hgo : (dr && !((s.entered key f).crew key).countersZero) = false := by
      rw [countersZero_entered]
      cases dr
      · rfl
      · simp [hdr rfl]
    simp only [hgo, Bool.false_eq_true, if_false, hclock]

/-! ## The count of a die that does not relock -/

/-- A die that has never locked counts nothing (log 1). -/
theorem clk_of_unlocked {s : State} {d : Nat} (hf : (s.die d).freqs = []) : s.clk d = 0 := by simp only [State.clk, hf]

section
variable {s : State} {d : Nat} (hr : (s.die d).relock = none)
include hr

theorem clk_of_freqs {e : FreqEntry} {rest : List FreqEntry} (hf : (s.die d).freqs = e :: rest) :
    s.clk d = e.clk + (s.meridian - e.mer) * e.freq / 10 := by simp only [State.clk, hf, hr]

theorem clk_mono {e : FreqEntry} {rest : List FreqEntry} (hf : (s.die d).freqs = e :: rest) (n : Nat) :
    s.clk d ≤ ({ s with meridian := s.meridian + n }).clk d := by
  rw [clk_of_freqs hr hf, clk_of_freqs (s := { s with meridian := s.meridian + n }) hr hf]
  have hticks : s.meridian - e.mer ≤ s.meridian + n - e.mer := by omega
  exact Nat.add_le_add_left (Nat.div_le_div_right (Nat.mul_le_mul_right _ hticks)) _

end

/-- Settles O48: RDMER and RDCLK have the frame of a clock, CLK2MER that of one value for each lane, and the count is that of the
newest entry. -/
theorem clocks : Obligations.Clocks := by
  refine ⟨⟨fun f d dr s key h hdr => ?_, fun f d dr s key h hdr => ?_, fun f d a s key h => ?_⟩, fun s d hr => ⟨?_, ?_, ?_⟩⟩
  · exact clockRead_computes h rfl (exec_rdmer f d dr s) hdr (mer_entered s key f _)
  · exact clockRead_computes h rfl (exec_rdclk f d dr s) hdr (clk_entered s key f _)
  · refine computes_of_lanewise h rfl (exec_clk2mer f d a s) (funext fun l => ?_)
    simp only [State.operandNat, operand_entered, entered_die]
    rfl
  · exact clk_of_unlocked
  · exact fun e rest => clk_of_freqs hr
  · exact fun e rest n hf _ => clk_mono hr hf n

end Sys2Proof.Machine

/-! The return from a fault or trap (spec/10 R193, spec/13 R230, R234). -/
namespace Sys2Proof.Machine

/-! ## Crews that go on -/

/-- A crew may go on sooner: what halted it, what it waits for and when it is ready may differ; one that goes on is not held again. -/
structure Crew.Freer (c c' : Crew) : Prop where
  keeps : c' = { c with halted := c'.halted, wait := c'.wait, stall := c'.stall, cut := c'.cut, readyAt := c'.readyAt }
  runs : c.halted = false → c'.halted = false
  waits : c.wait = none → c'.wait = none

theorem Crew.Freer.refl (c : Crew) : Crew.Freer c c := ⟨rfl, id, id⟩

theorem Crew.Freer.trans {a b c : Crew} (h : Crew.Freer a b) (h' : Crew.Freer b c) : Crew.Freer a c :=
  ⟨h'.keeps.trans (congrArg (fun x : Crew =>
    { x with halted := c.halted, wait := c.wait, stall := c.stall, cut := c.cut, readyAt := c.readyAt }) h.keeps),
    fun e => h'.runs (h.runs e), fun e => h'.waits (h.waits e)⟩

theorem Crew.Freer.sameRegs {c c' : Crew} (h : Crew.Freer c c') : Crew.SameRegs c c' := by
  rw [h.keeps]; exact ⟨rfl, rfl, rfl⟩

/-- Where a crew stands, and what it reports, is as before. -/
theorem Crew.Freer.place {c c' : Crew} (h : Crew.Freer c c') : c'.party = c.party ∧ c'.role = c.role ∧ c'.report = c.report ∧
    c'.pc = c.pc ∧ c'.dix = c.dix ∧ c'.inRegion = c.inRegion ∧ c'.ignoreTraps = c.ignoreTraps ∧ c'.wrapped = c.wrapped := by
  rw [h.keeps]; exact ⟨rfl, rfl, rfl, rfl, rfl, rfl, rfl, rfl⟩

theorem freer_wake (c : Crew) : Crew.Freer c c.wake := by
  unfold Crew.wake
  split
  · next w hw =>
    split
    · exact ⟨rfl, id, fun _ => rfl⟩
    · exact Crew.Freer.refl c
  · exact Crew.Freer.refl c

theorem freer_freed (c : Crew) (now : Nat) : Crew.Freer c (c.freed now) := by
  unfold Crew.freed
  split
  · exact Crew.Freer.refl c
  · split <;> exact ⟨rfl, id, id⟩

/-- Crews that change one by one, each of them going on sooner. -/
theorem freer_of_map {s t : State} {g : Nat → Crew → Crew} (h : t.crews = s.crews.map fun x => (x.1, g x.1 x.2))
    (hg : ∀ k c, Crew.Freer c (g k c)) (k : Nat) : Crew.Freer (s.crew k) (t.crew k) := by
  unfold State.crew
  rw [h, Tbl.get?_map]
  cases Tbl.get? s.crews k with
  | none => exact Crew.Freer.refl _
  | some c => exact hg k c

theorem freer_wakeCrews (s : State) (k : Nat) : Crew.Freer (s.crew k) (s.wakeCrews.crew k) :=
  freer_of_map (g := fun _ c => c.wake) rfl (fun _ c => freer_wake c) k

theorem freer_stallOver (s : State) (core k : Nat) : Crew.Freer (s.crew k) ((s.stallOver core).crew k) := by
  unfold State.stallOver
  split
  · refine freer_of_map (g := fun j c => if coreOf j = core then c.freed (s.cycles j) else c) rfl (fun j c => ?_) k
    split
    · exact freer_freed c _
    · exact Crew.Freer.refl c
  · exact Crew.Freer.refl _

/-- A crew of a party that goes on. -/
def Crew.partyResumed (c : Crew) (party now : Nat) : Crew :=
  if c.party = party && c.role.isSome && c.report.isNone then
    if c.halted then { c with halted := false, wait := none, readyAt := now } else c
  else c

theorem freer_partyResumed (c : Crew) (party now : Nat) : Crew.Freer c (c.partyResumed party now) := by
  unfold Crew.partyResumed
  split
  · split
    · exact ⟨rfl, fun _ => rfl, fun _ => rfl⟩
    · exact Crew.Freer.refl c
  · exact Crew.Freer.refl c

theorem halted_partyResumed {c : Crew} {party : Nat} (now : Nat) (hp : c.party = party) (hr : c.role.isSome = true)
    (hn : c.report = none) : (c.partyResumed party now).halted = false := by
  unfold Crew.partyResumed
  rw [if_pos (by simp [hp, hr, hn])]
  split
  · rfl
  · next h => exact Bool.eq_false_iff.mpr h

theorem crews_resumeParty (s : State) (party : Nat) : (s.resumeParty party).crews =
    s.crews.map fun x => (x.1, x.2.partyResumed party (s.cycles x.1)) := by
  refine List.map_congr_left fun x _ => ?_
  unfold Crew.partyResumed
  split <;> rfl

theorem freer_resumeParty (s : State) (party k : Nat) : Crew.Freer (s.crew k) ((s.resumeParty party).crew k) :=
  freer_of_map (g := fun j c => c.partyResumed party (s.cycles j)) (crews_resumeParty s party)
    (fun _ c => freer_partyResumed c party _) k

/-- A slot that holds a crew with a role is listed. -/
theorem listed_of_role {s : State} {k : Nat} (h : (s.crew k).role.isSome = true) : Tbl.get? s.crews k = some (s.crew k) := by
  unfold State.crew at h ⊢
  cases hk : Tbl.get? s.crews k with
  | some c => rfl
  | none =>
    rw [hk] at h
    split at h <;> cases h

/-- Every crew of a party that goes on is halted no more, but for those that hold a report (spec/10 R193). -/
theorem halted_resumeParty {s : State} {party k : Nat} (hp : (s.crew k).party = party) (hr : (s.crew k).role.isSome = true)
    (hn : (s.crew k).report = none) : ((s.resumeParty party).crew k).halted = false := by
  have hk : (s.resumeParty party).crew k = (s.crew k).partyResumed party (s.cycles k) := by
    have hget := Tbl.get?_map s.crews (fun j c => c.partyResumed party (s.cycles j)) k
    rw [listed_of_role hr, ← crews_resumeParty] at hget
    exact congrArg (fun o => Option.getD o _) hget
  rw [hk]
  exact halted_partyResumed _ hp hr hn

/-- A party, when it is the one that goes on. -/
def Party.resumed (p : Party) (goesOn : Bool) : Party := if goesOn then { p with stopped := false, preempted := false } else p

theorem stopped_resumeParty {s : State} {party : Nat} (h : (Tbl.get? s.parties party).isSome = true) :
    ((s.resumeParty party).party party).stopped = false := by
  have hmap : (s.resumeParty party).parties = s.parties.map fun x => (x.1, x.2.resumed (decide (x.1 = party))) :=
    List.map_congr_left fun x _ => by
      by_cases h : x.1 = party <;> simp [Party.resumed, h]
  obtain ⟨p, hp⟩ := Option.isSome_iff_exists.mp h
  have hget := Tbl.get?_map s.parties (fun j p => p.resumed (decide (j = party))) party
  rw [hp, ← hmap] at hget
  rw [State.party, hget]
  simp [Party.resumed]

/-! ## The end of a fault stall -/

/-- What a return does once its own crew stands where it goes on: the fault stall of the core ends, and the party goes on. -/
def State.partyGoesOn (s : State) (key party : Nat) : State :=
  (((s.dropWalks key).stallOver (coreOf key)).resumeParty party).wakeCrews

section
variable (s : State) (key party : Nat)

theorem stallOver_eq (core : Nat) : s.stallOver core = { s with crews := (s.stallOver core).crews } := by
  unfold State.stallOver; split <;> rfl

theorem freer_partyGoesOn (k : Nat) : Crew.Freer (s.crew k) ((s.partyGoesOn key party).crew k) :=
  ((freer_stallOver (s.dropWalks key) (coreOf key) k).trans (freer_resumeParty _ party k)).trans (freer_wakeCrews _ k)

theorem mem_partyGoesOn : (s.partyGoesOn key party).mem = s.mem :=
  (congrArg State.mem (stallOver_eq (s.dropWalks key) (coreOf key)) :)

theorem core_partyGoesOn (k : Nat) : (s.partyGoesOn key party).core k = s.core k :=
  (congrArg (fun t : State => t.core k) (stallOver_eq (s.dropWalks key) (coreOf key)) :)

end

theorem halted_partyGoesOn {s : State} {key party k : Nat} (hp : (s.crew k).party = party) (hr : (s.crew k).role.isSome = true)
    (hn : (s.crew k).report = none) : ((s.partyGoesOn key party).crew k).halted = false := by
  obtain ⟨hp', hr', hn', -⟩ := (freer_stallOver (s.dropWalks key) (coreOf key) k).place
  refine (freer_wakeCrews _ k).runs (halted_resumeParty (hp'.trans hp) ?_ (hn'.trans hn))
  rw [hr']; exact hr

theorem stopped_partyGoesOn {s : State} {key party : Nat} (h : (Tbl.get? s.parties party).isSome = true) :
    ((s.partyGoesOn key party).party party).stopped = false := by
  refine stopped_resumeParty (s := (s.dropWalks key).stallOver (coreOf key)) ?_
  rw [stallOver_eq]
  exact h

/-! ## The crew that returns -/

/-- A crew goes on after its fault, as HOW says (spec/10 R193). -/
structure Crew.Returns (how : FretHow) (pc : DWord) (c c' : Crew) : Prop where
  report : c'.report = none
  halted : c'.halted = false
  wait : c'.wait = none
  regs : Crew.SameRegs c c'
  wrapped : c'.wrapped = c.wrapped
  atPc : how = .pc → c'.pc = pc ∧ c'.ignoreTraps = false ∧ c'.dix = c.dix
  retries : how = .retry → c'.pc = c.pc ∧ c'.ignoreTraps = true ∧ c'.dix = c.dix
  enters : how = .region → c'.pc = c.epc ∧ c'.dix = c.epcDix ∧ c'.inRegion = true

theorem Crew.Returns.freer {how : FretHow} {pc : DWord} {c c' c'' : Crew} (h : Crew.Returns how pc c c') (h' : Crew.Freer c' c'') :
    Crew.Returns how pc c c'' := by
  obtain ⟨-, -, hr, hpc, hdix, hreg, hign, hwrap⟩ := h'.place
  refine ⟨hr.trans h.report, h'.runs h.halted, h'.waits h.wait, ?_, hwrap.trans h.wrapped, ?_, ?_, ?_⟩
  · obtain ⟨hv, hs, hp⟩ := h.regs
    obtain ⟨hv', hs', hp'⟩ := h'.sameRegs
    exact ⟨hv'.trans hv, hs'.trans hs, hp'.trans hp⟩
  · rw [hpc, hign, hdix]; exact h.atPc
  · rw [hpc, hign, hdix]; exact h.retries
  · rw [hpc, hdix, hreg]; exact h.enters

/-- The core no longer lists a crew that goes on. -/
def Core.forgets (x : Core) (key : Nat) : Core :=
  { x with stallers := x.stallers.filter (· != key), reports := x.reports.filter fun y => y.1 != key
           hostAsk := x.hostAsk.filter fun y => y.1 != key }

/-- The return of a crew without operations in T: its party's rings, then the crew and its core, then all that its fault held. -/
theorem resumeCrew_eq {s : State} {key : Nat} (how : FretHow) (pc : DWord) (htops : (s.crew key).tops = []) :
    ∃ (g : Party → Party) (r : Crew → Crew), (∀ c, Crew.Returns how pc c (r c)) ∧ s.resumeCrew key how pc =
      (((s.modParty (s.crew key).party g).modCrew key r).modCore (coreOf key)
        fun x => x.forgets key).partyGoesOn key (s.crew key).party := by
  refine ⟨?rings, ?crew, ?returns, ?eq⟩
  case eq =>
    unfold State.resumeCrew
    simp only [htops, List.map_nil, List.any_nil, List.find?_nil, Bool.not_false, Bool.false_eq_true, if_false]
    rfl
  case returns =>
    intro c
    refine ⟨rfl, rfl, rfl, ⟨rfl, rfl, rfl⟩, rfl, ?_, ?_, ?_⟩ <;> rintro rfl <;> exact ⟨rfl, rfl, rfl⟩

/-- Settles O53: the crew returns, its core forgets it, and its party goes on. -/
theorem faultReturn : Obligations.FaultReturn := by
  intro s key how pc hlist hrole _ htops
  obtain ⟨g, r, hr, he⟩ := resumeCrew_eq how pc htops
  intro t
  obtain ⟨u, hu⟩ : ∃ u, u = ((s.modParty (s.crew key).party g).modCrew key r).modCore (coreOf key) fun x => x.forgets key :=
    ⟨_, rfl⟩
  have ht : t = u.partyGoesOn key (s.crew key).party := by rw [hu]; exact he
  have hkey : u.crew key = r (s.crew key) := by
    rw [hu]
    exact crew_modCrew_self (s := s.modParty (s.crew key).party g) r (by simp [hlist])
  have hother (k : Nat) (hk : k ≠ key) : u.crew k = s.crew k := by
    rw [hu]
    exact State.crew_modCrew_ne (s.modParty (s.crew key).party g) r hk
  have hback : Crew.Returns how pc (s.crew key) (t.crew key) := by
    rw [ht]
    exact (hkey ▸ hr (s.crew key)).freer (freer_partyGoesOn u key _ key)
  have hcore : (t.core (coreOf key)) = (s.core (coreOf key)).forgets key := by
    rw [ht, core_partyGoesOn, hu, State.core_modCore_self, State.core_modCrew]
    rfl
  refine ⟨hback.report, hback.halted, hback.wait, hback.regs, ?_, ?_, fun k hp hk hn => ?_, hback.wrapped, ?_, ?_,
    hback.atPc, hback.retries, hback.enters⟩
  · rw [ht, mem_partyGoesOn, hu, State.modCore_mem, State.modCrew_mem, State.modParty_mem]
  · rw [ht]
    refine stopped_partyGoesOn ?_
    rw [hu, State.modCore_parties, State.modCrew_parties]
    simp [State.modParty]
  · by_cases h : k = key
    · exact h ▸ hback.halted
    · rw [ht]
      exact halted_partyGoesOn (by rw [hother k h]; exact hp) (by rw [hother k h]; exact hk) (by rw [hother k h]; exact hn)
  · rw [hcore]
    simp [Core.forgets]
  · rw [hcore]
    simp [Core.forgets]

end Sys2Proof.Machine

/-! The issue of collectives, schedules and amplitude commands (spec/10 R180-R188, spec/12 R223, spec/26 R346). -/
namespace Sys2Proof.Machine

/-! ## The instructions that are counted in C -/

section
variable (f : Ctl) (d a b e : Operand) (dd nr : Bool) (k : Fin 5) (q : BitVec 6) (s : State)

theorem exec_tcopyx : exec (.tcopyx f a b e dd) s = execTcopyx f a b e dd s := rfl
theorem exec_cstart : exec (.cstart f d a b) s = execCstart f d a b s := rfl
theorem exec_amap : exec (.amap f a b) s = execAmap f a b s := rfl
theorem exec_amapRd : exec (.amapRd f a b) s = execAmapRd f a b s := rfl
theorem exec_agate : exec (.agate f a b k nr) s = execAgate f a b k nr s := rfl
theorem exec_aswap : exec (.aswap f a b q) s = execAswap f a b q s := rfl
theorem exec_anorm : exec (.anorm f a b) s = execAnorm f a b s := rfl

end

/-! ## TCOPYX -/

/-- A collective that passes its checks names a communicator of its context (spec/10 R183). -/
theorem comm_of_collCheck {s : State} {key ctx : Nat} {r : BitVec 512} {x : BitVec 256} {m : Comm}
    (h : s.collCheck key ctx r x = some m) : s.comm ctx (extComm x) = some m := by
  unfold State.collCheck at h
  split at h
  · cases h
  · next m' hm =>
    dsimp only at h
    split_ifs at h
    exact hm.trans h

/-- A communicator once a rank has issued a collective: a reduce is numbered (spec/10 R182). -/
def Comm.issued (m : Comm) (x : BitVec 256) (rank nth : Nat) : Comm :=
  if extOp x ≠ 0 then { m with counts := Tbl.set m.counts rank (nth + 1) } else m

/-- A collective that TCOPYX issues, with the fault that it takes at once. -/
def collOpOf (s : State) (c : Crew) (slot : Nat) (r : BitVec 512) (disp : DWord) (dd : Bool) (x : BitVec 256) (nth : Nat)
    (fault : Option Report) : CPend :=
  { id := c.nextId, pc := c.pc, kind := .coll slot r disp dd x nth s.meridian, done := fault.isSome, fault := fault }

section
variable {f : Ctl} {a b e : Operand} {dd : Bool} {s s0 : State} {key : Nat} {c : Crew} {p : Party} {slot ofs rank nth : Nat}
  {r : BitVec 512} {x : BitVec 256} {disp : DWord} {m : Comm}

/-- The shape, the record and the communicator of a TCOPYX that passes its checks in time (spec/10 R180-R183). -/
structure CollectiveOf (a b e : Operand) (dd : Bool) (s : State) (key : Nat) (c : Crew) (p : Party) (slot ofs rank nth : Nat)
    (r : BitVec 512) (x : BitVec 256) (disp : DWord) (m : Comm) : Prop where
  partyEq : s.party c.party = p
  slotEq : (s.uni key c false a).toNat = slot
  ofsEq : s.operandNat key c false e 0 = ofs
  dispEq : s.uni key c true b = disp
  recordEq : BitVec.ofNat 256 (p.record ofs 32) = x
  rankEq : (s.rankOf m (dieOfCore (coreOf key))).getD 0 = rank
  nthEq : (Tbl.get? m.counts rank).getD 0 = nth
  shape : Tbl.get? p.shapes slot = some r
  within : p.recordFault ofs 32 32 = none
  check : s.collCheck key p.ctx r x = some m
  src : s.rowsFault key (copyPlan r disp dd).src (copyPlan r disp dd).srcLen (copyPlan r disp dd).srcRows = none
  dst : s.rowsFault key (copyPlan r disp dd).dst (copyPlan r disp dd).dstLen (copyPlan r disp dd).dstRows = none
  plain : isViewAddr (extSig x).toNat = false
  whole : m.broken = false
  inTime : extOp x ≠ 0 → s.collLate p.ctx m x nth false = false

/-- A collective that passes its checks is counted, with the fault of a match that has timed out (spec/10 R183). -/
theorem tcopyx_counts (h : Issues (.tcopyx f a b e dd) s key) (hs : s0 = s.entered key f) (hc : c = s0.crew key)
    (hroom : c.cops.length < 63) (he : c.eff f ≠ 0) (ok : CollectiveOf a b e dd s0 key c p slot ofs rank nth r x disp m) :
    let u : State := { s0 with comms := Tbl.set s0.comms (commKey p.ctx (extComm x)) (m.issued x rank nth) }
    (¬(extOp x ≠ 0 ∧ m.dead.contains (nth, rank) = true) →
      Runs (.tcopyx f a b e dd) s key (u.modCrew key fun c =>
        { c with cops := c.cops ++ [collOpOf s0 c slot r disp dd x nth none], nextId := c.nextId + 1 })) ∧
    (extOp x ≠ 0 → m.dead.contains (nth, rank) = true →
      Runs (.tcopyx f a b e dd) s key ((u.modCrew key fun c => { c with
        cops := c.cops ++ [collOpOf s0 c slot r disp dd x nth (some (collCause slot 2))], nextId := c.nextId + 1 }).dropOps key)) := by
  obtain ⟨hp, hslot, hofs, hdisp, hx, hrank, hnth, hshape, hwithin, hcheck, hsrc, hdst, hplain, hwhole, htime⟩ := ok
  have hcomm := comm_of_collCheck hcheck
  have hlate : (decide (extOp x ≠ 0) && s0.collLate p.ctx m x nth false) = false := by
    by_cases hop : extOp x = 0
    · simp [hop]
    · simp [htime hop]
  refine ⟨fun hdead => ?_, fun hop hdead => ?_⟩
  · have hnot : (decide (extOp x ≠ 0) && m.dead.contains (nth, rank)) = false := by
      rw [Bool.eq_false_iff, Ne, Bool.and_eq_true, decide_eq_true_eq]; exact hdead
    refine countedC_done ((exec_tcopyx f a b e dd s).trans (execTcopyx.eq_1 f a b e dd s)) h rfl hs hc hroom he ?_
    simp only [hp, hslot, hofs, hdisp, hx, hrank, hnth, hshape, hwithin, hcheck, hsrc, hdst, hplain, hlate, hcomm, hnot, hwhole,
      Bool.false_eq_true, if_false, Option.getD_some, Option.isSome_none, collOpOf, Comm.issued]
  · refine countedC_done ((exec_tcopyx f a b e dd s).trans (execTcopyx.eq_1 f a b e dd s)) h rfl hs hc hroom he ?_
    have hyes : (decide (extOp x ≠ 0) && m.dead.contains (nth, rank)) = true := by rw [decide_eq_true hop, hdead]; rfl
    simp only [hp, hslot, hofs, hdisp, hx, hrank, hnth, hshape, hwithin, hcheck, hsrc, hdst, hplain, hlate, hcomm, hyes,
      Bool.false_eq_true, if_false, if_true, Option.getD_some, Option.isSome_some, collOpOf, Comm.issued]

end

/-! ## With no effective lane -/

/-- The instructions of the engines are counted in C, whatever else they do (spec/10 R180-R188). -/
def CountedInC (f : Ctl) (i : Instr) : Prop :=
  Instr.hints i = f ∧ ∀ s, ∃ body, exec i s = countedC i f s body

theorem CountedInC.empty {f : Ctl} {i : Instr} {s : State} {key : Nat} (hi : CountedInC f i) (h : Issues i s key)
    (hroom : (s.crew key).cops.length < 63) (he : (s.crew key).eff f = 0) :
    Runs i s key ((s.entered key f).modCrew key fun c => c.addC .empty) := by
  obtain ⟨hf, hx⟩ := hi
  obtain ⟨body, hx⟩ := hx s
  refine countedC_empty hx h hf rfl rfl ?_ ((eff_entered s key f f).trans he)
  rw [entered_crew]
  split <;> exact hroom

theorem engines_countedInC {f : Ctl} {i : Instr}
    (hi : (∃ a b e dd, i = .tcopyx f a b e dd) ∨ (∃ d a b, i = .cstart f d a b) ∨ (∃ a b k nr, i = .agate f a b k nr) ∨
      (∃ a b, i = .amap f a b) ∨ (∃ a b, i = .amapRd f a b) ∨ (∃ a b q, i = .aswap f a b q) ∨ (∃ a b, i = .anorm f a b)) :
    CountedInC f i := by
  obtain ⟨a, b, e, dd, rfl⟩ | ⟨d, a, b, rfl⟩ | ⟨a, b, k, nr, rfl⟩ | ⟨a, b, rfl⟩ | ⟨a, b, rfl⟩ | ⟨a, b, q, rfl⟩ |
    ⟨a, b, rfl⟩ := hi
  · exact ⟨rfl, fun s => ⟨_, (exec_tcopyx f a b e dd s).trans (execTcopyx.eq_1 ..)⟩⟩
  · exact ⟨rfl, fun s => ⟨_, (exec_cstart f d a b s).trans (execCstart.eq_1 ..)⟩⟩
  · exact ⟨rfl, fun s => ⟨_, (exec_agate f a b nr k s).trans (execAgate.eq_1 ..)⟩⟩
  · exact ⟨rfl, fun s => ⟨_, (exec_amap f a b s).trans (execAmap.eq_1 ..)⟩⟩
  · exact ⟨rfl, fun s => ⟨_, (exec_amapRd f a b s).trans (execAmapRd.eq_1 ..)⟩⟩
  · exact ⟨rfl, fun s => ⟨_, (exec_aswap f a b q s).trans (execAswap.eq_1 ..)⟩⟩
  · exact ⟨rfl, fun s => ⟨_, (exec_anorm f a b s).trans (execAnorm.eq_1 ..)⟩⟩

/-! ## CSTART -/

theorem le_foldl_handleKey (l : List (Nat × Handle)) (n : Nat) :
    n ≤ l.foldl (fun n h => max n (h.1 + 1)) n ∧ ∀ h ∈ l, h.1 < l.foldl (fun n h => max n (h.1 + 1)) n := by
  induction l generalizing n with
  | nil => exact ⟨le_refl n, fun h hm => absurd hm List.not_mem_nil⟩
  | cons x l ih =>
    obtain ⟨hle, hlt⟩ := ih (max n (x.1 + 1))
    refine ⟨le_trans (le_max_left _ _) hle, fun h hm => ?_⟩
    obtain rfl | hm := List.mem_cons.mp hm
    · exact lt_of_lt_of_le (Nat.lt_succ_self _) (le_trans (le_max_right _ _) hle)
    · exact hlt h hm

theorem Tbl.get?_eq_none {α : Type} {t : Tbl α} {k : Nat} (h : ∀ x ∈ t, x.1 ≠ k) : Tbl.get? t k = none :=
  List.lookup_eq_none_iff.mpr fun x hx => by simpa using (h x hx).symm

/-- The place of a new handle is free. -/
theorem get?_handleKey (s : State) : Tbl.get? s.handles s.handleKey = none :=
  Tbl.get?_eq_none fun h hm => Nat.ne_of_lt ((le_foldl_handleKey s.handles 0).2 h hm)

/-- The handle of a CSTART is not zero (log 68). -/
theorem newHandle_ne_zero (s : State) (c : Crew) : s.newHandle c ≠ 0 := by
  have hpos (y : Nat) : BitVec.ofNat 64 (1 + y % (2 ^ 64 - 1)) ≠ 0 := fun h => by
    have hn := congrArg BitVec.toNat h
    rw [BitVec.toNat_ofNat] at hn
    change _ = 0 at hn
    omega
  exact hpos _

theorem cstart_runs {f : Ctl} {d a b : Operand} {s s0 : State} {key id : Nat} {c : Crew} (h : Issues (.cstart f d a b) s key)
    (hs : s0 = s.entered key f) (hc : c = s0.crew key) (hid : s0.operandNat key c false a 0 = id) (hroom : c.cops.length < 63)
    (he : c.eff f ≠ 0) (hsched : (s0.sched (s0.ctxOf key) id).isSome = true) (h16 : 16 ≤ id)
    (hal : (s0.uni key c true b).toNat % 64 = 0) :
    Runs (.cstart f d a b) s key (State.modCrew { s0 with
      handles := Tbl.set s0.handles s0.handleKey
        { num := s0.newHandle c, task := (s0.party c.party).task, crew := s0.maker c, key := key, ctx := s0.ctxOf key, sched := id
          block := s0.uni key c true b, state := 1 } } key
        fun x => (x.addC (.sched s0.handleKey)).writeUni f d (s0.newHandle c)) := by
  refine countedC_done ((exec_cstart f d a b s).trans (execCstart.eq_1 f d a b s)) h rfl hs hc hroom he ?_
  have hnone : (s0.sched (s0.ctxOf key) id).isNone = false := by rw [← Option.not_isSome, hsched]; rfl
  have hlow : (decide (id < 16)) = false := decide_eq_false (Nat.not_lt.mpr h16)
  simp only [hid, hnone, hlow, hal, Bool.or_self, Bool.false_eq_true, if_false, ne_eq, not_true]

/-! ## CSTAT -/

/-- The word of a handle: its state, its cause and its steps as far as 16 bits hold them (spec/10 R184). -/
def Handle.word (h : Handle) : DWord := BitVec.ofNat 64 (h.state.toNat + h.cause.toNat * 2 ^ 8 + min h.steps 65535 * 2 ^ 16)

/-- What CSTAT answers, and the state that it leaves. -/
def State.schedStatus (s : State) : Option (Nat × Handle) → DWord × State
  | some (k, h) => ((s.schedGoesOn k h).1.word, (s.schedGoesOn k h).2)
  | none => (0, s)

theorem exec_cstat (f : Ctl) (d a : Operand) (s : State) : exec (.cstat f d a) s = once (.cstat f d a) f s fun s key c =>
    .done ((s.schedStatus (s.handleFor key (s.uni key c true a))).2.modCrew key fun x =>
      x.writeDst false d (x.effLanes f) fun _ => (s.schedStatus (s.handleFor key (s.uni key c true a))).1) := by
  have hx : exec (.cstat f d a) s = execCstat f d a s := rfl
  rw [hx, execCstat]
  refine congrArg (once _ f s) (funext fun s => funext fun key => funext fun c => ?_)
  cases s.handleFor key (s.uni key c true a) <;> rfl

/-- A crew reads the handles of its own context alone (spec/12 R223). -/
theorem handleFor_some {s : State} {key k : Nat} {num : DWord} {h : Handle} (hf : s.handleFor key num = some (k, h)) :
    (k, h) ∈ s.handles ∧ h.num = num ∧ h.ctx = s.ctxOf key := by
  have hmem : (k, h) ∈ s.handles.filter fun h => h.2.num = num && h.2.ctx = s.ctxOf key := by
    unfold State.handleFor at hf
    dsimp only at hf
    split at hf
    · next x hx =>
      obtain ⟨t, -, ht⟩ := List.exists_of_findSome?_eq_some hx
      exact Option.some.inj hf ▸ List.mem_of_find?_eq_some ht
    · exact List.mem_of_mem_head? hf
  obtain ⟨hin, hok⟩ := List.mem_filter.mp hmem
  simpa [hin] using hok

theorem handleFor_none {s : State} {key : Nat} {num : DWord} (h : ∀ x ∈ s.handles, x.2.num = num → x.2.ctx ≠ s.ctxOf key) :
    s.handleFor key num = none := by
  cases hf : s.handleFor key num with
  | none => rfl
  | some x =>
    obtain ⟨hin, hnum, hctx⟩ := handleFor_some hf
    exact absurd hctx (h _ hin hnum)

theorem lineage_entered (s : State) (key : Nat) (f : Ctl) (n t : Nat) : (s.entered key f).lineage n t = s.lineage n t := by
  induction n generalizing t with
  | zero => rfl
  | succ n ih => simp only [State.lineage, entered_task, ih]

/-- The entry of a region changes no handle, and none that a crew reads. -/
theorem handleFor_entered (s : State) (key : Nat) (f : Ctl) (num : DWord) :
    (s.entered key f).handleFor key num = s.handleFor key num := by
  have hhandles : (s.entered key f).handles = s.handles := by unfold State.entered; split <;> rfl
  have htasks : (s.entered key f).tasks = s.tasks := by unfold State.entered; split <;> rfl
  have hparty : ((s.entered key f).crew key).party = (s.crew key).party := by rw [entered_crew]; split <;> rfl
  simp only [State.handleFor, hhandles, htasks, hparty, entered_party, lineage_entered, ctxOf_entered]

/-- A schedule that has ended is as it was; one that goes on may have started, and taken steps (log 29). -/
theorem schedGoesOn_over {s : State} {k : Nat} {h : Handle} (hne : h.state ≠ 1 ∧ h.state ≠ 2) : s.schedGoesOn k h = (h, s) := by
  have hstop : (h.state = 1 || h.state = 2) = false := by simp only [decide_eq_false hne.1, decide_eq_false hne.2, Bool.or_self]
  unfold State.schedGoesOn
  rw [if_neg (ne_true_of_eq_false hstop)]

theorem schedGoesOn_running {s : State} {k : Nat} {h : Handle} (hst : h.state = 1 ∨ h.state = 2) :
    ∃ h' : Handle, (h'.state = h.state ∨ h'.state = 2) ∧ h.steps ≤ h'.steps ∧ (h'.state = 1 → h'.steps = h.steps) ∧
      h' = { h with state := h'.state, steps := h'.steps } ∧
      s.schedGoesOn k h = (h', { s with freeIx := s.freeIx + 1, handles := Tbl.set s.handles k h' }) := by
  have hgo : (h.state = 1 || h.state = 2) = true := by simpa using hst
  unfold State.schedGoesOn
  rw [if_pos hgo]
  dsimp only [State.free]
  split
  · have hne : (2 : BitVec 3) ≠ 1 := by decide
    exact ⟨{ h with state := 2, steps := _ }, .inr rfl, Nat.le_add_right _ _, fun e => absurd e hne, rfl, rfl⟩
  · exact ⟨h, .inl rfl, le_refl _, fun _ => rfl, rfl, rfl⟩

section
variable {f : Ctl} {d a : Operand} {s : State} {key : Nat}

theorem cstat_runs (h : Issues (.cstat f d a) s key) (he : (s.crew key).eff f ≠ 0) {w : DWord} {t : State}
    (hw : (s.entered key f).schedStatus (s.handleFor key (s.uni key (s.crew key) true a)) = (w, t)) :
    Runs (.cstat f d a) s key (t.modCrew key fun c => c.writeDst false d (c.effLanes f) fun _ => w) := by
  refine (exec_cstat f d a s).trans (once_done h rfl (by rwa [eff_entered]) ?_)
  have huni : (s.entered key f).uni key ((s.entered key f).crew key) true a = s.uni key (s.crew key) true a :=
    operand_entered s key f true a 0
  rw [huni, handleFor_entered, hw]

/-- A number that names no schedule, or one that has ended, is read without a change of the package. -/
theorem cstat_computes (h : Issues (.cstat f d a) s key) {w : DWord}
    (hw : ∀ t : State, t.schedStatus (s.handleFor key (s.uni key (s.crew key) true a)) = (w, t)) :
    Computes (.cstat f d a) f false d s key (s.crew key) fun _ => w := by
  obtain ⟨-, hlist, hlanes, -⟩ := id h
  by_cases he : (s.crew key).eff f = 0
  · exact computes_of_no_lane hlist he ((exec_cstat f d a s).trans (once_empty h rfl ((eff_entered s key f f).trans he)))
  · exact computes_of_writeDst hlanes (listed_modCrew _ (listed_entered f hlist)) (quiet_modCrew _ key _)
      (crew_modCrew_self _ (listed_entered f hlist)) (cstat_runs h he (hw _))

end

/-! ## Amplitude commands -/

section
variable {f : Ctl} {a b : Operand} {s s0 : State} {key : Nat} {c : Crew} {p : Party} {slot ofs : Nat}

/-- An amplitude instruction with an effective lane, whose operands name a slot of its die (spec/10 R185-R188). -/
structure AmpIssues (f : Ctl) (a : Operand) (s0 : State) (key : Nat) (c : Crew) (slot : Nat) : Prop where
  slotEq : s0.operandNat key c false a 0 = slot
  room : c.cops.length < 63
  lanes : c.eff f ≠ 0
  low : slot < 8

theorem AmpIssues.slot_le (g : AmpIssues f a s0 key c slot) : ¬slot > 7 := Nat.not_lt.mpr (Nat.le_of_lt_succ g.low)

theorem sliceIssue_plain {cmd : AmpCmd} (h : s0.sliceFault key slot = none) :
    s0.sliceIssue key slot cmd = .done (s0.ampIssue key slot cmd) := by
  unfold State.sliceIssue; rw [h]

theorem amap_runs {r : BitVec 512} (h : Issues (.amap f a b) s key) (hs : s0 = s.entered key f) (hc : c = s0.crew key)
    (hp : s0.party c.party = p) (g : AmpIssues f a s0 key c slot) (hofs : s0.operandNat key c false b 0 = ofs)
    (hr : BitVec.ofNat 512 (p.record ofs 64) = r) (hin : p.recordFault ofs 64 64 = none)
    (hok : mapNq r = 0 ∨ mapOk r (dieOfCore (coreOf key)) (s0.comm p.ctx (mapComm r)).isSome = true) :
    Runs (.amap f a b) s key (s0.ampIssue key slot (.map r)) := by
  refine countedC_done ((exec_amap f a b s).trans (execAmap.eq_1 f a b s)) h rfl hs hc g.room g.lanes ?_
  have hmap : (decide (mapNq r ≠ 0) && !mapOk r (dieOfCore (coreOf key)) (s0.comm p.ctx (mapComm r)).isSome) = false := by
    obtain hz | hok := hok
    · rw [decide_eq_false (not_not.mpr hz)]; rfl
    · rw [hok, Bool.not_true, Bool.and_false]
  simp only [g.slotEq, hofs, hp, hr, hin, hmap, if_neg g.slot_le, Bool.false_eq_true, if_false]

theorem amapRd_runs (h : Issues (.amapRd f a b) s key) (hs : s0 = s.entered key f) (hc : c = s0.crew key)
    (hp : s0.party c.party = p) (g : AmpIssues f a s0 key c slot) (hofs : s0.operandNat key c false b 0 = ofs)
    (hin : p.recordFault ofs 64 64 = none) : Runs (.amapRd f a b) s key (s0.ampIssue key slot (.read ofs)) := by
  refine countedC_done ((exec_amapRd f a b s).trans (execAmapRd.eq_1 f a b s)) h rfl hs hc g.room g.lanes ?_
  simp only [g.slotEq, hofs, hp, hin, if_neg g.slot_le]

theorem agate_runs {k : Fin 5} {nr : Bool} {g : List Byte} (h : Issues (.agate f a b k nr) s key) (hs : s0 = s.entered key f)
    (hc : c = s0.crew key) (hp : s0.party c.party = p) (ok : AmpIssues f a s0 key c slot)
    (hofs : s0.operandNat key c false b 0 = ofs) (hnq : mapNq (s0.issueMap key slot) ≠ 0)
    (hin : p.recordFault ofs (32 + 8 * 4 ^ (k.val + 1)) 1 = none)
    (hg : Memory.readBytes p.scratch ofs (32 + 8 * 4 ^ (k.val + 1)) = g)
    (hok : gateOk g (k.val + 1) (mapNq (s0.issueMap key slot)) = true) (hslice : s0.sliceFault key slot = none) :
    Runs (.agate f a b k nr) s key (s0.ampIssue key slot (.gate (k.val + 1) nr ofs g)) := by
  refine countedC_done ((exec_agate f a b nr k s).trans (execAgate.eq_1 f a b k nr s)) h rfl hs hc ok.room ok.lanes ?_
  simp only [ok.slotEq, hofs, hp, hin, hg, hok, sliceIssue_plain hslice, decide_eq_false ok.slot_le, decide_eq_false hnq,
    Bool.or_self, Bool.false_eq_true, if_false, if_true]

theorem aswap_runs {q1 : Nat} {q2 : BitVec 6} (h : Issues (.aswap f a b q2) s key) (hs : s0 = s.entered key f) (hc : c = s0.crew key)
    (ok : AmpIssues f a s0 key c slot) (hq : s0.operandNat key c false b 0 = q1) (h1 : q1 < mapNq (s0.issueMap key slot))
    (h2 : q2.toNat < mapNq (s0.issueMap key slot)) (hslice : s0.sliceFault key slot = none) :
    Runs (.aswap f a b q2) s key (s0.ampIssue key slot (.swap q1 q2.toNat)) := by
  refine countedC_done ((exec_aswap f a b q2 s).trans (execAswap.eq_1 f a b q2 s)) h rfl hs hc ok.room ok.lanes ?_
  have hnq : ¬mapNq (s0.issueMap key slot) = 0 := by omega
  simp only [ok.slotEq, hq, sliceIssue_plain hslice, decide_eq_false ok.slot_le, decide_eq_false hnq,
    decide_eq_false (Nat.not_le.mpr h1), decide_eq_false (Nat.not_le.mpr h2), ge_iff_le, Bool.or_self, Bool.false_eq_true, if_false]

theorem anorm_runs {q : Nat} (h : Issues (.anorm f a b) s key) (hs : s0 = s.entered key f) (hc : c = s0.crew key)
    (hp : s0.party c.party = p) (ok : AmpIssues f a s0 key c slot) (hofs : s0.operandNat key c false b 0 = ofs)
    (hnq : mapNq (s0.issueMap key slot) ≠ 0) (hq : p.record ofs 8 = q) (hlow : q < 2 ^ mapNq (s0.issueMap key slot))
    (hpop : popcount q ≤ 8) (hzero : p.record (ofs + 8) 8 = 0) (hin : ofs + (16 + 8 * 2 ^ popcount q) ≤ p.scratchLen)
    (hslice : s0.sliceFault key slot = none) :
    Runs (.anorm f a b) s key (s0.ampIssue key slot (.norm ofs (BitVec.ofNat 64 q))) := by
  refine countedC_done ((exec_anorm f a b s).trans (execAnorm.eq_1 f a b s)) h rfl hs hc ok.room ok.lanes ?_
  have hhead : p.recordFault ofs 16 1 = none := recordFault_eq_none (Nat.mod_one _) (by omega)
  simp only [ok.slotEq, hofs, hp, hq, hzero, hhead, recordFault_eq_none (Nat.mod_one _) hin, sliceIssue_plain hslice,
    decide_eq_false ok.slot_le, decide_eq_false hnq, decide_eq_false (Nat.not_le.mpr hlow), decide_eq_false (Nat.not_lt.mpr hpop),
    gt_iff_lt, ge_iff_le, ne_eq, not_true, decide_false, Bool.or_self, Bool.false_eq_true, if_false]

end

/-! ## The statement about the issue of engine instructions -/

/-- Settles O47: what passes its checks is counted in C, each with its own record. -/
theorem engineIssue : Obligations.EngineIssue := by
  refine ⟨?_, ?_, ?_, ?_, ?_⟩
  · intro f a b e dd s key r m h s0 c p slot ofs disp x plan rank nth hroom he hshape hal hin hcheck hsrc hdst
      hplain hwhole htime m' comms late
    obtain ⟨hgo, hlate⟩ := tcopyx_counts h rfl rfl hroom he (ofs := ofs) (p := p) (disp := disp) (slot := slot) (x := x)
      (rank := rank) (nth := nth) (m := m) ⟨rfl, rfl, rfl, rfl, rfl, rfl, rfl, hshape, recordFault_eq_none hal hin, hcheck, hsrc, hdst,
        hplain, hwhole, htime⟩
    refine ⟨fun hdead => hgo fun hno => ?_, fun hop hdead => ?_⟩
    · exact Bool.false_ne_true ((hdead hno.1).symm.trans hno.2)
    · refine Eq.trans (hlate hop hdead) (congrArg (fun t : State => Host.Outcome.next ((State.advance t key).retire key f false))
        (congrArg (fun t : State => t.dropOps key) (modCrew_congr rfl)))
  · exact fun i f s key hi h hroom he => (engines_countedInC hi).empty h hroom he
  · intro f d a b s key h s0 c id hroom he hsched h16 hal num k
    exact ⟨get?_handleKey s0, newHandle_ne_zero s0 c, cstart_runs h rfl rfl rfl hroom he hsched h16 hal⟩
  · intro f d a s key h num word
    refine ⟨fun k x => handleFor_some, fun hno => handleFor_none hno, fun hover => ?_, fun k x hx hst he => ?_⟩
    · refine cstat_computes h fun t => ?_
      show t.schedStatus (s.handleFor key num) = _
      cases hx : s.handleFor key num with
      | none => rfl
      | some y => exact congrArg (fun z : Handle × State => (z.1.word, z.2)) (schedGoesOn_over (hover y.1 y.2 hx))
    · obtain ⟨x', h1, h2, h3, h4, hgo⟩ := schedGoesOn_running (s := s.entered key f) (k := k) hst
      refine ⟨x', h1, h2, h3, h4, cstat_runs h he ?_⟩
      rw [show s.handleFor key (s.uni key (s.crew key) true a) = some (k, x) from hx, State.schedStatus, hgo]
      rfl
  · intro i f a s key cmd h s0 c p slot nq hroom he hslot hkind
    have hissues : AmpIssues f a s0 key c slot := ⟨rfl, hroom, he, hslot⟩
    obtain ⟨b, r, rfl, rfl, hr, hal, hin, hok⟩ | ⟨b, rfl, rfl, hal, hin⟩ | ⟨hslice, hkind⟩ := hkind
    · exact amap_runs h rfl rfl rfl hissues rfl hr.symm (recordFault_eq_none hal hin) hok
    · exact amapRd_runs h rfl rfl rfl hissues rfl (recordFault_eq_none hal hin)
    obtain ⟨b, k, nr, g, rfl, rfl, hnq, hin, hg, hok⟩ | ⟨b, q2, rfl, rfl, h1, h2⟩ |
      ⟨b, q, rfl, rfl, hnq, hq, hlow, hpop, hzero, hin⟩ := hkind
    · exact agate_runs h rfl rfl rfl hissues rfl hnq (recordFault_eq_none (Nat.mod_one _) hin) hg.symm hok hslice
    · exact aswap_runs h rfl rfl hissues rfl h1 h2 hslice
    · exact anorm_runs h rfl rfl rfl hissues rfl hnq hq.symm hlow hpop hzero hin hslice

end Sys2Proof.Machine

/-! The privileged instructions of a firmware agent: CTXSAVE, CTXLOAD, TLBINV, FRET, SIGRAISE, BUDSET, WAKESET, SLEEP and an FWCALL
that names no service (spec/10 R191-R195, spec/13 R238, R241, spec/26 R353). -/
namespace Sys2Proof.Machine

/-! ## The frame of a privileged instruction -/

section
variable (f : Ctl) (d a b e : Operand) (s : State)

theorem exec_ctxsave : exec (.ctxsave f d a b) s = execCtxsave f d a b s := rfl
theorem exec_ctxload : exec (.ctxload f d a b) s = execCtxload f d a b s := rfl
theorem exec_tlbinv (sc : TlbScope) (kind : TlbKind) : exec (.tlbinv f d a b sc kind) s = execTlbinv f d a b sc kind s := rfl
theorem exec_fret (how : FretHow) : exec (.fret f d a b how) s = execFret f d a b how s := rfl
theorem exec_sigraise (sc : SigScope) : exec (.sigraise f d a b e sc) s = execSigraise f d a b e sc s := rfl
theorem exec_budset (kind : BudKind) : exec (.budset f d a b kind) s = execBudset f d a b kind s := rfl
theorem exec_wakeset : exec (.wakeset f d a b) s = execWakeset f d a b s := rfl
theorem exec_sleep : exec (.sleep f d) s = execSleep f d s := rfl
theorem exec_fwcall (imm : Word) : exec (.fwcall f imm) s = execFwcall f imm s := rfl

end

/-- An instruction that acts once, in the state in which it acts, with an effective lane. -/
theorem runs_once {i : Instr} {f : Ctl} {s s0 t : State} {key : Nat} {c : Crew} {body : State → Nat → Crew → Issue}
    (hx : exec i s = once i f s body) (h : Issues i s key) (hf : Instr.hints i = f) (hs : s0 = s.entered key f) (hc : c = s0.crew key)
    (he : c.eff f ≠ 0) (hb : body s0 key c = .done t) : Runs i s key t :=
  runs_of_done hx h hf hs hc ((if_neg he).trans hb)

/-- One that acts once and traps, when no load of its region waits. -/
theorem traps_once {i : Instr} {f : Ctl} {s s0 : State} {key : Nat} {c : Crew} {body : State → Nat → Crew → Issue} {r : Report}
    (hx : exec i s = once i f s body) (h : Issues i s key) (hn : NoRegionLoad s key) (hi : Instr.isRejected i = false)
    (hf : Instr.hints i = f) (hs : s0 = s.entered key f) (hc : c = s0.crew key) (he : c.eff f ≠ 0) (hb : body s0 key c = .trap r) :
    Traps i s key r := by
  subst hf hs hc
  exact hx.trans (issue_trap h hn hi ((if_neg he).trans hb))

/-- A physical address that is aligned, with its bytes below 2^60 (spec/13 R225). -/
theorem physOk_of {pa align n : Nat} (hal : pa % align = 0) (hin : pa + n ≤ 2 ^ 60) : physOk pa align n = true := by
  rw [physOk, decide_eq_true hal, decide_eq_true hin]; rfl

/-- A number of at most a bound is not above it. -/
theorem decide_gt_false {n m : Nat} (h : n < m + 1) : decide (n > m) = false := decide_eq_false (Nat.not_lt.mpr (Nat.le_of_lt_succ h))

section
variable {f : Ctl} {d a b e : Operand} {s s0 : State} {key slot pa : Nat} {c : Crew}

/-! ## CTXSAVE and CTXLOAD -/

/-- The operands of CTXSAVE and CTXLOAD: a party slot of the core, and an area that exists (spec/10 R192). -/
structure AreaOperands (f : Ctl) (a b : Operand) (s0 : State) (key : Nat) (c : Crew) (slot pa : Nat) : Prop where
  lanes : c.eff f ≠ 0
  slotEq : s0.operandNat key c false a 0 = slot
  areaEq : (s0.uni key c true b).toNat = pa
  slotLt : slot < 16
  aligned : pa % 4096 = 0
  inside : pa + 4096 ≤ 2 ^ 60
  real : s0.exists? pa = true

theorem AreaOperands.accepted (o : AreaOperands f a b s0 key c slot pa) :
    (decide (slot > 15) || !physOk pa 4096 4096 || !s0.exists? pa) = false := by
  rw [decide_gt_false o.slotLt, physOk_of o.aligned o.inside, o.real]; rfl

theorem ctxsave_refuses {p : Party} (h : Issues (.ctxsave f d a b) s key) (hs : s0 = s.entered key f) (hc : c = s0.crew key)
    (o : AreaOperands f a b s0 key c slot pa) (hp : Tbl.get? s0.parties (16 * coreOf key + slot) = some p) (hstop : p.stopped = false) :
    Runs (.ctxsave f d a b) s key (s0.status key f d 1) := by
  refine runs_once ((exec_ctxsave f d a b s).trans (execCtxsave.eq_def ..)) h rfl hs hc o.lanes ?_
  simp only [o.slotEq, o.areaEq, o.accepted, hp, hstop, Bool.false_eq_true, Bool.not_false, if_false, if_true]

theorem ctxsave_saves {p : Party} (h : Issues (.ctxsave f d a b) s key) (hs : s0 = s.entered key f) (hc : c = s0.crew key)
    (o : AreaOperands f a b s0 key c slot pa) (hp : Tbl.get? s0.parties (16 * coreOf key + slot) = some p) (hstop : p.stopped = true)
    (hdrained : ∀ k ∈ p.crews, (s0.crew k).drained = true) (hcut : s0.cutOff pa = false) (hback : s0.backHeldBy (coreOf key) = none)
    (harea : s0.areaHeld (coreOf key) pa (s0.areaBytes (16 * coreOf key + slot)) = none) :
    Runs (.ctxsave f d a b) s key ((s0.saveParty (16 * coreOf key + slot) pa).status key f d 0) := by
  refine runs_once ((exec_ctxsave f d a b s).trans (execCtxsave.eq_def ..)) h rfl hs hc o.lanes ?_
  have hall : (p.crews.all fun k => (s0.crew k).drained) = true := List.all_eq_true.mpr hdrained
  simp only [o.slotEq, o.areaEq, o.accepted, hp, hstop, hcut, hall, hback, harea, Bool.false_eq_true, Bool.not_true, if_false]
  rfl

/-- What CTXLOAD reads of an area (spec/13 R241), and who comes back from it (log 30). -/
def State.areaParty (s : State) (pa : Nat) : List Crew × Party :=
  let ti := s.mem.field (pa + 3840) 8
  let num := s.mem.field (pa + 3848) 8
  let t := s.task ti
  let shape := s.mem.field (pa + 8) 8
  let crews := areaCrews s.mem pa
  let scratch := shape / 2 ^ 16 % 2 ^ 16 * 128
  let weight := shape / 2 ^ 32 % 2 ^ 16 * 128
  let tiles := shape / 2 ^ 7 % 64
  let m := areaMap (crews.map (·.2)) scratch weight tiles
  let kept := Tbl.get? t.away num
  (((crews.zip (regBases m.regs (crews.map (·.2)))).zip (upto 0 crews.length)).map fun x =>
      let c := ((kept.map (·.2)).bind fun l => l[x.2]?).getD (t.freshCrew num x.2)
      Crew.ofArea { c with role := some x.1.1.1, lanes := x.1.1.2.1, regc := x.1.1.2.2 } s.mem (pa + m.crews + 8192 * x.2) (pa + x.1.2),
    ((kept.map (·.1)).getD (t.freshParty ti num)).ofArea s.mem pa m scratch weight tiles)

/-- The header of an area that CTXLOAD accepts: of a resident task that has no such party, whose fault is over (log 30). -/
structure AreaHeader (s0 : State) (pa : Nat) : Prop where
  version : s0.mem.field pa 4 = 1
  resident : (s0.task (s0.mem.field (pa + 3840) 8)).status = .resident
  sound : (s0.task (s0.mem.field (pa + 3840) 8)).faulted = none
  ctx : s0.mem.field (pa + 4) 4 = (s0.task (s0.mem.field (pa + 3840) 8)).ctx
  number : s0.mem.field (pa + 3848) 8 ≤ s0.mem.field (pa + 8) 8 % 2 ^ 3
  absent : s0.partyNumbered (s0.mem.field (pa + 3840) 8) (s0.mem.field (pa + 3848) 8) = none

theorem AreaHeader.accepted (x : AreaHeader s0 pa) :
    let t := s0.task (s0.mem.field (pa + 3840) 8)
    (decide (s0.mem.field (pa + 0) 4 ≠ 1) || decide (t.status ≠ .resident) || t.faulted.isSome ||
      decide (s0.mem.field (pa + 4) 4 ≠ t.ctx) || decide (s0.mem.field (pa + 8) 8 % 2 ^ 3 < s0.mem.field (pa + 3848) 8) ||
      (s0.partyNumbered (s0.mem.field (pa + 3840) 8) (s0.mem.field (pa + 3848) 8)).isSome) = false := by
  dsimp only
  rw [Nat.add_zero, decide_eq_false (not_not.mpr x.version), decide_eq_false (not_not.mpr x.resident), x.sound,
    decide_eq_false (not_not.mpr x.ctx), decide_eq_false (Nat.not_lt.mpr x.number), x.absent]
  rfl

/-- The bytes of an area, from its header. -/
def State.areaTotal (s : State) (pa : Nat) : Nat :=
  let shape := s.mem.field (pa + 8) 8
  (areaMap ((areaCrews s.mem pa).map (·.2)) (shape / 2 ^ 16 % 2 ^ 16 * 128) (shape / 2 ^ 32 % 2 ^ 16 * 128) (shape / 2 ^ 7 % 64)).total

theorem ctxload_loads {r : Room} (h : Issues (.ctxload f d a b) s key) (hs : s0 = s.entered key f) (hc : c = s0.crew key)
    (o : AreaOperands f a b s0 key c slot pa) (hfree : Tbl.get? s0.parties (16 * coreOf key + slot) = none) (x : AreaHeader s0 pa)
    (hread : s0.unreadable pa (s0.areaTotal pa) = false) (hheld : s0.areaHeld (coreOf key) pa (s0.areaTotal pa) = none)
    (hroom : s0.roomAt (coreOf key) (16 * coreOf key + slot) ((s0.areaParty pa).2.demand (s0.areaParty pa).1) = some r) :
    Runs (.ctxload f d a b) s key (((s0.restoreParty (s0.mem.field (pa + 3840) 8) (coreOf key) r (s0.areaParty pa).2 (s0.areaParty pa).1
      true).modTask (s0.mem.field (pa + 3840) 8) fun t => { t with away := Tbl.del t.away (s0.mem.field (pa + 3848) 8) }).status
        key f d 0) := by
  have hcut : s0.cutOff pa = false := (Bool.or_eq_false_iff.mp hread).1
  obtain ⟨he, rfl, rfl, -⟩ := id o
  refine runs_once ((exec_ctxload f d a b s).trans (execCtxload.eq_def ..)) h rfl hs hc he ?_
  refine (if_neg (ne_true_of_eq_false o.accepted)).trans ((if_neg ?_).trans ((if_neg (ne_true_of_eq_false hcut)).trans
    ((if_neg (ne_true_of_eq_false x.accepted)).trans ((if_neg (ne_true_of_eq_false hread)).trans
      ((congrArg (fun y => held? s0 key y _) hheld).trans ?_)))))
  · rw [hfree]; exact Bool.false_ne_true
  · rw [held?_none]
    dsimp only
    split
    · next hn => cases hroom.symm.trans hn
    · next r' hr =>
      cases hroom.symm.trans hr
      rfl

/-! ## TLBINV -/

/-- The TLB entries that TLBINV leaves where it reaches (spec/10 R192). -/
def tlbKeeps (kind : TlbKind) (ctx va : Nat) (e : TlbEntry) : Bool :=
  match kind with | .ctx => e.ctx != ctx | .page => !e.covers ctx va | _ => false

/-- The cores and the dies that TLBINV reaches from a core. -/
def reachesCore (sc : TlbScope) (core k : Nat) : Bool :=
  match sc with | .core => k = core | .die => k / 16 = core / 16 | _ => true
def reachesDie (sc : TlbScope) (core d : Nat) : Bool :=
  match sc with | .core => false | .die => d = core / 16 | _ => true

/-- The TLBs once TLBINV has dropped its entries. -/
def State.tlbDropped (s : State) (sc : TlbScope) (core : Nat) (keeps : TlbEntry → Bool) : State :=
  { s with
    cores := s.cores.map fun x => (x.1, if reachesCore sc core x.1 then { x.2 with tlb := x.2.tlb.filter keeps } else x.2)
    dies := s.dies.map fun x => (x.1, if reachesDie sc core x.1 then { x.2 with tlb := x.2.tlb.filter keeps } else x.2) }

theorem reachesCore_iff {sc : TlbScope} (hsc : sc ≠ .bad) (core k : Nat) :
    reachesCore sc core k = true ↔ sc = .pkg ∨ (sc = .die ∧ k / 16 = core / 16) ∨ k = core := by
  cases sc with
  | core => simp [reachesCore]
  | die => simp only [reachesCore, decide_eq_true_eq, reduceCtorEq, false_or, true_and]; omega
  | pkg => simp [reachesCore]
  | bad => exact absurd rfl hsc

theorem reachesDie_iff {sc : TlbScope} (hsc : sc ≠ .bad) (core d : Nat) :
    reachesDie sc core d = true ↔ sc = .pkg ∨ (sc = .die ∧ d = core / 16) := by
  cases sc with
  | core => simp [reachesDie]
  | die => simp [reachesDie]
  | pkg => simp [reachesDie]
  | bad => exact absurd rfl hsc

theorem tlb_core_tlbDropped (s : State) (sc : TlbScope) (core : Nat) (keeps : TlbEntry → Bool) (k : Nat) :
    ((s.tlbDropped sc core keeps).core k).tlb = if reachesCore sc core k then (s.core k).tlb.filter keeps else (s.core k).tlb := by
  have hget := Tbl.get?_map s.cores (fun k x => if reachesCore sc core k then { x with tlb := x.tlb.filter keeps } else x) k
  rw [State.core, State.tlbDropped, hget, State.core]
  cases Tbl.get? s.cores k with
  | none => exact (ite_self _).symm
  | some x => dsimp only [Option.map_some, Option.getD_some]; split <;> rfl

theorem tlb_die_tlbDropped (s : State) (sc : TlbScope) (core : Nat) (keeps : TlbEntry → Bool) (d : Nat) :
    ((s.tlbDropped sc core keeps).die d).tlb = if reachesDie sc core d then (s.die d).tlb.filter keeps else (s.die d).tlb := by
  have hget := Tbl.get?_map s.dies (fun d x => if reachesDie sc core d then { x with tlb := x.tlb.filter keeps } else x) d
  rw [State.die, State.tlbDropped, hget, State.die]
  cases Tbl.get? s.dies d with
  | none => exact (ite_self _).symm
  | some x => dsimp only [Option.map_some, Option.getD_some]; split <;> rfl

/-- No walk that could refill an entry runs when all that are listed have failed (spec/10 R192). -/
theorem tlbinv_runs {sc : TlbScope} {kind : TlbKind} {ctx va : Nat} (h : Issues (.tlbinv f d a b sc kind) s key)
    (hs : s0 = s.entered key f) (hc : c = s0.crew key) (he : c.eff f ≠ 0) (hctx : s0.operandNat key c false a 0 = ctx)
    (hva : (s0.uni key c true b).toNat = va) (hsc : sc ≠ .bad) (hkind : kind ≠ .bad) (hlow : kind ≠ .all → ctx < 16)
    (hway : sc = .pkg → ∀ d, d < 4 → s0.wayHeld (coreOf key) d = none)
    (hwalks : ∀ x ∈ s0.dies, ∀ w ∈ x.2.walks, w.failed.isSome = true) :
    Runs (.tlbinv f d a b sc kind) s key ((s0.tlbDropped sc (coreOf key) (tlbKeeps kind ctx va)).status key f d 0) := by
  have hok : (decide (sc = .bad) || decide (kind = .bad) || (decide (kind ≠ .all) && decide (ctx > 15))) = false := by
    rw [decide_eq_false hsc, decide_eq_false hkind, Bool.false_or, Bool.false_or, Bool.and_eq_false_imp]
    exact fun hne => decide_gt_false (hlow (of_decide_eq_true hne))
  have hheld : (if sc = .pkg then (upto 0 4).findSome? (s0.wayHeld (coreOf key)) else none) = none := by
    split
    · next hp => exact List.findSome?_eq_none_iff.mpr fun d hd => hway hp d (by have := mem_upto.mp hd; omega)
    · rfl
  refine runs_once ((exec_tlbinv f d a b s sc kind).trans (execTlbinv.eq_def ..)) h rfl hs hc he ?_
  simp only [hctx, hva, hok, hheld, held?_none, Bool.false_eq_true, if_false]
  refine (if_neg ?_).trans (congrArg (fun t : State => Issue.done (t.status key f d 0)) ?_)
  · intro hbusy
    obtain ⟨x, hx, hbusy⟩ := List.any_eq_true.mp hbusy
    obtain ⟨w, hw, hbusy⟩ := List.any_eq_true.mp hbusy
    obtain ⟨y, hy, rfl⟩ := List.mem_map.mp hx
    have hfailed : w.failed.isSome = true := hwalks y hy w (by split_ifs at hw <;> exact hw)
    rw [← Option.not_isSome, hfailed] at hbusy
    exact Bool.false_ne_true hbusy
  · unfold State.tlbDropped
    congr 1
    · refine List.map_congr_left fun x _ => ?_
      by_cases hit : reachesDie sc (coreOf key) x.1 = true
      · rw [if_pos hit]
        exact (if_pos hit).trans (by cases kind <;> rfl)
      · rw [if_neg hit]
        exact if_neg hit
    · refine List.map_congr_left fun x _ => ?_
      by_cases hit : reachesCore sc (coreOf key) x.1 = true
      · rw [if_pos hit]
        exact (if_pos hit).trans (by cases kind <;> rfl)
      · rw [if_neg hit]
        exact if_neg hit

/-! ## FRET -/

/-- FRET of a crew of the core that holds a report and does not refuse HOW (spec/10 R193). -/
structure Returnable (f : Ctl) (a b : Operand) (how : FretHow) (s0 : State) (key : Nat) (c : Crew) (slot : Nat) (pc : DWord) : Prop where
  lanes : c.eff f ≠ 0
  slotEq : s0.operandNat key c false a 0 = slot
  pcEq : s0.uni key c true b = pc
  slotLt : slot < 64
  role : (s0.crew (crewKey (coreOf key) slot)).role.isSome = true
  report : (s0.crew (crewKey (coreOf key) slot)).report.isSome = true
  aligned : how = .pc → pc.toNat % 4 = 0
  accepts : (s0.crew (crewKey (coreOf key) slot)).refuses how pc = false

/-- What FRET does once its operands are accepted. -/
def fretBody (f : Ctl) (d : Operand) (how : FretHow) (s : State) (key k : Nat) (pc : DWord) : State :=
  if (s.taskOf k).faulted.isSome && how ≠ .endTask then s.status key f d 1
  else if how = .endTask then
    let r := (s.crew k).report.getD { cause := 0 }
    (s.doomCrew k r (s.tasks.any fun t => t.2.handlerOf = some (k, r))).status key f d 0
  else (s.resumeCrew k how pc).status key f d 0

section
variable {how : FretHow} {k : Nat} {pc : DWord}

theorem fretBody_resumes (hhow : how ≠ .endTask) (hsound : (s.taskOf k).faulted = none) :
    fretBody f d how s key k pc = (s.resumeCrew k how pc).status key f d 0 := by
  rw [fretBody, hsound, if_neg hhow]; rfl

/-- A crew of a task that is to end resumes no more (spec/13 R238). -/
theorem fretBody_refuses (hhow : how ≠ .endTask) (hfault : (s.taskOf k).faulted.isSome = true) :
    fretBody f d how s key k pc = s.status key f d 1 := by
  rw [fretBody, hfault, decide_eq_true hhow]; rfl

theorem fretBody_ends {r : Report} (hhow : how = .endTask) (hr : (s.crew k).report = some r) : fretBody f d how s key k pc =
    (s.doomCrew k r (s.tasks.any fun t => t.2.handlerOf = some (k, r))).status key f d 0 := by
  rw [fretBody, decide_eq_false (not_not.mpr hhow), Bool.and_false, if_neg Bool.false_ne_true, if_pos hhow, hr]
  rfl

end

theorem fret_runs {how : FretHow} {pc : DWord} (h : Issues (.fret f d a b how) s key) (hs : s0 = s.entered key f) (hc : c = s0.crew key)
    (o : Returnable f a b how s0 key c slot pc) :
    Runs (.fret f d a b how) s key (fretBody f d how s0 key (crewKey (coreOf key) slot) pc) := by
  obtain ⟨he, hslot, hpc, hlt, hrole, hreport, hal, hacc⟩ := o
  refine runs_once ((exec_fret f d a b s how).trans (execFret.eq_def ..)) h rfl hs hc he ?_
  have hbad : (decide (how = .pc) && decide (pc.toNat % 4 ≠ 0)) = false := by
    rw [Bool.and_eq_false_imp]
    exact fun hh => decide_eq_false (not_not.mpr (hal (of_decide_eq_true hh)))
  simp only [hslot, hpc, if_neg (Nat.not_lt.mpr (Nat.le_of_lt_succ hlt) : ¬slot > 63), ← Option.not_isSome, hreport, hrole, hbad, hacc,
    Bool.not_true, Bool.false_and, Bool.false_or, Bool.false_eq_true, if_false, fretBody]
  split
  · rfl
  · split <;> rfl

/-! ## SIGRAISE -/

/-- SIGRAISE whose word is aligned and translates (spec/10 R194). -/
structure RaisesAt (f : Ctl) (a e : Operand) (s0 : State) (key : Nat) (c : Crew) (va ctx : Nat) (y : Nat × Attr) : Prop where
  lanes : c.eff f ≠ 0
  vaEq : (s0.uni key c true a).toNat = va
  ctxEq : s0.operandNat key c false e 0 = ctx
  ctxLt : ctx < 16
  aligned : va % 8 = 0
  found : s0.lookup ctx va .write = .ok y

theorem RaisesAt.accepted {va ctx : Nat} {y : Nat × Attr} (o : RaisesAt f a e s0 key c va ctx y) :
    (decide (ctx > 15) || decide (va % 8 ≠ 0)) = false := by
  rw [decide_gt_false o.ctxLt, decide_eq_false (not_not.mpr o.aligned)]; rfl

theorem sigraise_lost {sc : SigScope} {va ctx : Nat} {y : Nat × Attr} (h : Issues (.sigraise f d a b e sc) s key) (hn : NoRegionLoad s key)
    (hs : s0 = s.entered key f) (hc : c = s0.crew key) (o : RaisesAt f a e s0 key c va ctx y) (hcut : s0.cutOff y.1 = true) :
    Traps (.sigraise f d a b e sc) s key { cause := 0x1F, sub := 2, addr := BitVec.ofNat 64 va } := by
  refine traps_once ((exec_sigraise f d a b e s sc).trans (execSigraise.eq_def ..)) h hn rfl rfl hs hc o.lanes ?_
  simp only [o.vaEq, o.ctxEq, o.accepted, o.found, hcut, Bool.false_eq_true, if_false, if_true, lostReport]

theorem sigraise_runs {sc : SigScope} {va ctx pa : Nat} {y : Nat × Attr} {u : State} {x : Attr} (h : Issues (.sigraise f d a b e sc) s key)
    (hs : s0 = s.entered key f) (hc : c = s0.crew key) (o : RaisesAt f a e s0 key c va ctx y) (hcut : s0.cutOff y.1 = false)
    (hf : s0.fence key .rel (SigScope.scope sc) = .pass u) (hu : u.lookup ctx va .write = .ok (pa, x)) (hheld : u.signalHeld key x pa = none) :
    Runs (.sigraise f d a b e sc) s key ((u.signalFrom key x pa (s0.uni key c true b)).1.status key f d 0) := by
  refine runs_once ((exec_sigraise f d a b e s sc).trans (execSigraise.eq_def ..)) h rfl hs hc o.lanes ?_
  simp only [o.vaEq, o.ctxEq, o.accepted, o.found, hcut, fenced_pass hf, hu, hheld, held?_none, Bool.false_eq_true, if_false]

/-! ## BUDSET, WAKESET, SLEEP and FWCALL -/

theorem budset_runs {kind : BudKind} {cls : Nat} (h : Issues (.budset f d a b kind) s key) (hs : s0 = s.entered key f)
    (hc : c = s0.crew key) (he : c.eff f ≠ 0) (hcls : s0.operandNat key c false a 0 = cls) (hlt : cls < 16) :
    Runs (.budset f d a b kind) s key (State.status { s0 with
      budgets := Tbl.set s0.budgets (4 * cls + Machine.BudKind.code kind)
        { (Tbl.get? s0.budgets (4 * cls + Machine.BudKind.code kind)).getD {} with next := some (s0.uni key c true b) } } key f d 0) := by
  refine runs_once ((exec_budset f d a b s kind).trans (execBudset.eq_def ..)) h rfl hs hc he ?_
  simp only [hcls, if_neg (Nat.not_lt.mpr (Nat.le_of_lt_succ hlt) : ¬cls > 15)]

theorem wakeset_runs {mask : Nat} (h : Issues (.wakeset f d a b) s key) (hs : s0 = s.entered key f) (hc : c = s0.crew key)
    (he : c.eff f ≠ 0) (hmask : s0.operandNat key c false a 0 = mask) (hlt : mask < 512) :
    Runs (.wakeset f d a b) s key ((s0.modCore (coreOf key) fun x => x.setAlarm key
      { x.alarm key with armed := BitVec.ofNat 9 mask, deadline := (s0.uni key c true b).toNat }).status key f d 0) := by
  refine runs_once ((exec_wakeset f d a b s).trans (execWakeset.eq_def ..)) h rfl hs hc he ?_
  simp only [hmask, if_neg (Nat.not_lt.mpr (Nat.le_of_lt_succ hlt) : ¬mask > 0x1FF)]

/-- The code of an alarm is its lowest armed source that is pending (spec/10 R195). -/
theorem alarm_code {x : Alarm} {code : Nat} (h1 : 1 ≤ code) (h8 : code ≤ 8) (hcode : (x.pending &&& x.armed).getLsbD code = true)
    (hfirst : ∀ j, 1 ≤ j → j < code → (x.pending &&& x.armed).getLsbD j = false) : x.code = some code :=
  find?_eq_least (by decide) (mem_upto.mpr ⟨h1, by omega⟩) hcode fun j hj hlt => hfirst j (mem_upto.mp hj).1 hlt

theorem sleep_runs {code : Nat} (h : Issues (.sleep f d) s key) (hs : s0 = s.entered key f) (hc : c = s0.crew key) (he : c.eff f ≠ 0)
    (hcode : ((s0.core (coreOf key)).alarm key).code = some code) :
    Runs (.sleep f d) s key ((s0.modCore (coreOf key) fun y => y.takeWake key code).status key f d code) := by
  refine runs_once ((exec_sleep f d s).trans (execSleep.eq_def ..)) h rfl hs hc he ?_
  simp only [hcode]

theorem fwcall_runs {imm : Word} (h : Issues (.fwcall f imm) s key) (hs : s0 = s.entered key f) (hc : c = s0.crew key) (he : c.eff f ≠ 0) :
    Runs (.fwcall f imm) s key (s0.modCrew key fun c => c.setS 0 0xFFFFFFFF) :=
  runs_once ((exec_fwcall f s imm).trans (execFwcall.eq_def ..)) h rfl hs hc he rfl

end

/-! ## The statement about privileged instructions -/

/-- Settles O52: each privileged instruction acts once, on operands that its rules accept. -/
theorem privileged : Obligations.Privileged := by
  refine ⟨?_, ?_, ?_, ?_, ?_, ?_, ?_, ?_, ?_⟩
  · intro f d a b s key p h s0 c slot pa pk he hslot hal hin hreal hp
    have ho : AreaOperands f a b s0 key c slot pa := ⟨he, rfl, rfl, hslot, hal, hin, hreal⟩
    exact ⟨fun hstop => ctxsave_refuses h rfl rfl ho hp hstop,
      fun hstop hdrained hcut hback harea => ctxsave_saves h rfl rfl ho hp hstop hdrained hcut hback harea⟩
  · intro f d a b s key r h s0 c slot pa pk ti num t shape crews scratch weight tiles m kept cs p he hslot hal hin hreal hfree
      hversion hresident hsound hctx hnum habsent hread hheld hroom
    exact ctxload_loads h rfl rfl ⟨he, rfl, rfl, hslot, hal, hin, hreal⟩ hfree ⟨hversion, hresident, hsound, hctx, hnum, habsent⟩
      hread hheld hroom
  · intro f d a b sc kind s key h s0 c ctx core kept he hsc hkind hlow hway hwalks
    refine ⟨s0.tlbDropped sc core (tlbKeeps kind ctx (s0.uni key c true b).toNat),
      tlbinv_runs h rfl rfl he rfl rfl hsc hkind hlow hway hwalks, fun k => ?_, fun k => ?_, rfl, rfl, rfl⟩
    · rw [tlb_core_tlbDropped]
      exact if_congr (reachesCore_iff hsc core k) rfl rfl
    · rw [tlb_die_tlbDropped]
      exact if_congr (reachesDie_iff hsc core k) rfl rfl
  · intro f d a b how s key h s0 c slot pc k he hslot hrole hreport hal hacc
    have hruns : Runs (.fret f d a b how) s key (fretBody f d how s0 key k pc) := fret_runs h rfl rfl ⟨he, rfl, rfl, hslot, hrole, hreport, hal, hacc⟩
    refine ⟨fun hhow hsound => ?_, fun hhow hfault => ?_, fun r hhow hr => ?_⟩
    · rwa [fretBody_resumes hhow hsound] at hruns
    · rwa [fretBody_refuses hhow hfault] at hruns
    · rwa [fretBody_ends hhow hr] at hruns
  · intro f d a b e sc s key y h s0 c va ctx he hctx hal hy
    have ho : RaisesAt f a e s0 key c va ctx y := ⟨he, rfl, rfl, hctx, hal, hy⟩
    refine ⟨fun hcut hn => ?_, fun u pa x hcut hf hu hheld => sigraise_runs h rfl rfl ho hcut hf hu hheld⟩
    have htraps := sigraise_lost (d := d) (b := b) h hn rfl rfl ho hcut
    rwa [BitVec.ofNat_toNat, BitVec.setWidth_eq] at htraps
  · intro f d a b kind s key h s0 c k he hcls x
    exact budset_runs h rfl rfl he rfl hcls
  · intro f d a b s key h s0 c mask he hmask
    exact wakeset_runs h rfl rfl he rfl hmask
  · intro f d s key code h s0 x he h1 h8 hcode hfirst
    exact sleep_runs h rfl rfl he (alarm_code h1 h8 hcode hfirst)
  · intro f imm s key h s0 he
    exact fwcall_runs h rfl rfl he

end Sys2Proof.Machine

/-! The services of the hub firmware (spec/10 R194, spec/18 R285, spec/26 R343-R346, spec/27 R367-R369). -/
namespace Sys2Proof.Machine

/-! ## The frame of a service -/

section
variable (f : Ctl) (s : State)

theorem exec_commset : exec (.commset f) s = execCommset f s := rfl
theorem exec_commclr : exec (.commclr f) s = execCommclr f s := rfl
theorem exec_schedset : exec (.schedset f) s = execSchedset f s := rfl
theorem exec_schedclr : exec (.schedclr f) s = execSchedclr f s := rfl
theorem exec_telrd : exec (.telrd f) s = execTelrd f s := rfl
theorem exec_fstep : exec (.fstep f) s = execFstep f s := rfl
theorem exec_repinv : exec (.repinv f) s = execRepinv f s := rfl
theorem exec_attest : exec (.attest f) s = execAttest f s := rfl

end

section
variable {i : Instr} {f : Ctl} {s s0 t : State} {key : Nat} {c : Crew} {body : State → Nat → Crew → Except Nat State}

/-- A service that is done gives status 0 in s0. -/
theorem service_runs (hx : exec i s = service i f s body) (h : Issues i s key) (hf : Instr.hints i = f) (hs : s0 = s.entered key f)
    (hc : c = s0.crew key) (he : c.eff f ≠ 0) (hb : body s0 key c = .ok t) : Runs i s key (t.modCrew key fun c => c.setS 0 0) :=
  runs_once (hx.trans (service.eq_def ..)) h hf hs hc he (congrArg (answered s0 key) hb)

/-- One that refuses gives its status code, and nothing else changes (spec/26 R343, spec/27 R368). -/
theorem service_refuses {code : Nat} (hx : exec i s = service i f s body) (h : Issues i s key) (hf : Instr.hints i = f)
    (hs : s0 = s.entered key f) (hc : c = s0.crew key) (he : c.eff f ≠ 0) (hb : body s0 key c = .error code) :
    Runs i s key (s0.modCrew key fun c => c.setS 0 (BitVec.ofNat 32 code)) :=
  runs_once (hx.trans (service.eq_def ..)) h hf hs hc he (congrArg (answered s0 key) hb)

end

/-- Fewer bytes of a range that can be read can be read. -/
theorem unreadable_of_le {s : State} {pa n m : Nat} (h : s.unreadable pa n = false) (hle : m ≤ n) : s.unreadable pa m = false := by
  obtain ⟨hcut, hbad⟩ := Bool.or_eq_false_iff.mp h
  refine Bool.or_eq_false_iff.mpr ⟨hcut, Bool.eq_false_iff.mpr fun hm => ?_⟩
  obtain ⟨x, hx, hin⟩ := List.any_eq_true.mp hm
  refine ne_true_of_eq_false hbad (List.any_eq_true.mpr ⟨x, hx, ?_⟩)
  simp only [Bool.and_eq_true, decide_eq_true_eq] at hin ⊢
  omega

section
variable {f : Ctl} {s s0 : State} {key : Nat} {c : Crew}

/-! ## Communicators -/

/-- A record that is accepted has a header that is. -/
theorem commHeader_of_commOk {ctx pa : Nat} (h : commOk s ctx pa = true) : commHeader s.mem ctx pa = true := by
  simp only [commOk, Bool.and_eq_true] at h
  exact h.1.1

/-- The record that COMMSET is given: its ranks, all of this package, and their number (spec/26 R343, R344). -/
structure CommRecord (s : State) (ctx pa n : Nat) (ranks : List (Nat × Nat)) : Prop where
  countEq : s.mem.field pa 8 / 2 ^ 16 % 2 ^ 16 * (s.mem.field pa 8 / 2 ^ 32 % 2 ^ 16) * (s.mem.field pa 8 / 2 ^ 48) = n
  ranksEq : ((commRanks s.mem pa n).map fun r => (r.1, r.2.1)) = ranks
  ctxLt : ctx < 16
  aligned : pa % 64 = 0
  inside : pa + 64 + 4 * n ≤ 2 ^ 60
  readable : s.unreadable pa (64 + 4 * n) = false
  accepted : commOk s ctx pa = true
  fresh : s.comm ctx (s.mem.field pa 8 % 2 ^ 8) = none
  near : ∀ r ∈ ranks, r.1 = s.pkgId

theorem commset_runs {ctx pa n : Nat} {ranks : List (Nat × Nat)} (h : Issues (.commset f) s key) (hs : s0 = s.entered key f)
    (hc : c = s0.crew key) (he : c.eff f ≠ 0) (hctx : c.arg 0 = ctx) (hpa : c.argPair 2 = pa) (g : CommRecord s0 ctx pa n ranks) :
    Runs (.commset f) s key (State.modCrew { s0 with
      comms := Tbl.set s0.comms (commKey ctx (s0.mem.field pa 8 % 2 ^ 8))
        { x := s0.mem.field pa 8 / 2 ^ 16 % 2 ^ 16, y := s0.mem.field pa 8 / 2 ^ 32 % 2 ^ 16, z := s0.mem.field pa 8 / 2 ^ 48
          tmo := s0.mem.field (pa + 8) 8, ranks := ranks } } key fun c => c.setS 0 0) := by
  obtain ⟨hn, hranks, hlt, hal, hin, hread, hok, hfresh, hnear⟩ := g
  have hfar : (ranks.any fun r => r.1 != s0.pkgId) = false :=
    List.any_eq_false.mpr fun r hr => by rw [hnear r hr]; exact ne_true_of_eq_false (bne_self_eq_false' _)
  refine service_runs ((exec_commset f s).trans (execCommset.eq_def ..)) h rfl hs hc he ?_
  simp only [hctx, hpa, hn, hranks, decide_gt_false hlt, physOk_of hal (show pa + 64 ≤ 2 ^ 60 by omega),
    physOk_of hal (show pa + (64 + 4 * n) ≤ 2 ^ 60 by omega), unreadable_of_le hread (Nat.le_add_right 64 _), hread,
    commHeader_of_commOk hok, hok, hfresh, hfar, Bool.not_true, Bool.or_self, Option.isSome_none, Bool.false_eq_true, if_false]
  rfl

theorem commclr_clears {ctx id : Nat} {m : Comm} (h : Issues (.commclr f) s key) (hs : s0 = s.entered key f) (hc : c = s0.crew key)
    (he : c.eff f ≠ 0) (hctx : c.arg 0 = ctx) (hid : c.arg 1 = id) (hlt : ctx < 16) (hidlt : id < 64) (hm : s0.comm ctx id = some m) :
    (s0.collBusy ctx id = false → Runs (.commclr f) s key
      (State.modCrew { s0 with comms := Tbl.del s0.comms (commKey ctx id) } key fun c => c.setS 0 0)) ∧
    (s0.collBusy ctx id = true → Runs (.commclr f) s key (s0.modCrew key fun c => c.setS 0 5)) := by
  have hx := (exec_commclr f s).trans (execCommclr.eq_def ..)
  refine ⟨fun hbusy => service_runs hx h rfl hs hc he ?_, fun hbusy => service_refuses (code := 5) hx h rfl hs hc he ?_⟩ <;>
    simp only [hctx, hid, decide_gt_false hlt, decide_gt_false hidlt, hm, hbusy, Option.isNone_some, Bool.or_self,
      Bool.false_eq_true, if_false, if_true]

/-! ## Schedules -/

/-- The image that SCHEDSET is given: its length, and a signature that holds (spec/26 R346). -/
structure ImageRecord (s : State) (pa size : Nat) : Prop where
  sizeEq : s.mem.field (pa + 4) 4 = size
  inside : pa + 64 + size + 132 ≤ 2 ^ 60
  version : s.mem.field pa 4 = 1
  some : 0 < size
  entry : s.mem.field (pa + 8) 8 < size
  reserved : s.mem.field (pa + 16) 48 = 0
  short : 64 + size + 132 ≤ 262144
  readable : s.unreadable pa (64 + size + 132) = false
  signed : Config.scheduleSigned ((s.firmware.running.map (·.hash)).getD 0) (sha512 (s.mem.readBytes pa (64 + size)))
    (s.mem.readBytes (pa + 64 + size) 132) = true

theorem schedset_runs {ctx id pa size : Nat} (h : Issues (.schedset f) s key) (hs : s0 = s.entered key f) (hc : c = s0.crew key)
    (he : c.eff f ≠ 0) (hctx : c.arg 0 = ctx) (hid : c.arg 1 = id) (hpa : c.argPair 2 = pa) (hlt : ctx < 16) (hlow : 16 ≤ id)
    (hhigh : id < 256) (g : ImageRecord s0 pa size) :
    Runs (.schedset f) s key (State.modCrew { s0 with
      scheds := Tbl.set s0.scheds (schedKey ctx id) { entry := s0.mem.field (pa + 8) 8, code := s0.mem.readBytes (pa + 64) size } } key
        fun c => c.setS 0 0) := by
  obtain ⟨hsize, hin, hversion, hpos, hentry, hzero, hshort, hread, hsigned⟩ := g
  refine service_runs ((exec_schedset f s).trans (execSchedset.eq_def ..)) h rfl hs hc he ?_
  simp only [hctx, hid, hpa, hsize, decide_gt_false hlt, decide_gt_false hhigh, decide_eq_false (Nat.not_lt.mpr hlow),
    physOk_of (Nat.mod_one pa) (show pa + 64 ≤ 2 ^ 60 by omega), physOk_of (Nat.mod_one pa) (show pa + (64 + size + 132) ≤ 2 ^ 60 by omega),
    unreadable_of_le hread (show 64 ≤ 64 + size + 132 by omega), hread, hversion, hzero, hsigned,
    decide_eq_false (Nat.ne_of_gt hpos), decide_eq_false (show ¬s0.mem.field (pa + 8) 8 ≥ size by omega),
    decide_eq_false (show ¬64 + size + 132 > 262144 by omega), ne_eq, not_true, decide_false, Bool.not_true, Bool.or_self,
    Bool.false_eq_true, if_false]

theorem schedclr_runs {ctx id : Nat} (h : Issues (.schedclr f) s key) (hs : s0 = s.entered key f) (hc : c = s0.crew key)
    (he : c.eff f ≠ 0) (hctx : c.arg 0 = ctx) (hid : c.arg 1 = id) (hlt : ctx < 16) (hlow : 16 ≤ id) (hhigh : id < 256)
    (hsched : (s0.sched ctx id).isSome = true)
    (hover : ∀ h ∈ s0.handles, h.2.ctx = ctx → h.2.sched = id → h.2.state ≠ 1 ∧ h.2.state ≠ 2) :
    Runs (.schedclr f) s key (State.modCrew { s0 with scheds := Tbl.del s0.scheds (schedKey ctx id) } key fun c => c.setS 0 0) := by
  have hidle : (s0.handles.any fun h => h.2.ctx = ctx && h.2.sched = id && (h.2.state = 1 || h.2.state = 2)) = false :=
    List.any_eq_false.mpr fun x hx hbusy => by
      simp only [Bool.and_eq_true, Bool.or_eq_true, decide_eq_true_eq] at hbusy
      obtain ⟨⟨hxc, hxs⟩, hst⟩ := hbusy
      obtain ⟨h1, h2⟩ := hover x hx hxc hxs
      exact hst.elim h1 h2
  refine service_runs ((exec_schedclr f s).trans (execSchedclr.eq_def ..)) h rfl hs hc he ?_
  simp only [hctx, hid, decide_gt_false hlt, decide_gt_false hhigh, decide_eq_false (Nat.not_lt.mpr hlow), ← Option.not_isSome, hsched,
    hidle, Bool.not_true, Bool.or_self, Bool.false_eq_true, if_false]

/-! ## Telemetry and frequency -/

/-- The entries whose reading sees the corrections that have come (spec/27 R365, log 62). -/
def tellsCorrections (i : Nat) : Bool := (1056 ≤ i && i < 1068) || (2047 ≤ i && i < 2560)

theorem telemetryRead_eq (s : State) (i : Nat) : s.telemetryRead i =
    let u := if tellsCorrections i then s.corrected else s
    match u.telemetryEntry i with
    | some v => some (v, u)
    | none => if 1072 ≤ i && i < 1079 then some u.free else none := rfl

/-- An entry of the package's own is read as it stands, after the corrections that have come where it tells of those. -/
theorem telemetryRead_own {i : Nat} {v w : DWord} {t : State} (hread : s.telemetryRead i = some (v, t))
    (hown : s.telemetryEntry i = some w) : (tellsCorrections i = false → v = w ∧ t = s) ∧
      (tellsCorrections i = true → t = s.corrected ∧ t.telemetryEntry i = some v) := by
  rw [telemetryRead_eq] at hread
  refine ⟨fun hl => ?_, fun hl => ?_⟩
  · simp only [hl, Bool.false_eq_true, if_false, hown, Option.some.injEq, Prod.mk.injEq] at hread
    exact ⟨hread.1.symm, hread.2.symm⟩
  · have hout : (decide (1072 ≤ i) && decide (i < 1079)) = false := by
      simp only [tellsCorrections, Bool.or_eq_true, Bool.and_eq_true, decide_eq_true_eq] at hl
      simp only [Bool.and_eq_false_imp, decide_eq_true_eq, decide_eq_false_iff_not]
      omega
    simp only [hl, if_true, hout, Bool.false_eq_true, if_false] at hread
    cases hv : s.corrected.telemetryEntry i with
    | none => rw [hv] at hread; cases hread
    | some x =>
      rw [hv] at hread
      cases hread
      exact ⟨rfl, hv⟩

theorem telrd_runs {i : Nat} {v : DWord} {t : State} (h : Issues (.telrd f) s key) (hs : s0 = s.entered key f) (hc : c = s0.crew key)
    (he : c.eff f ≠ 0) (hi : c.arg 1 = i) (hread : s0.telemetryRead i = some (v, t)) :
    Runs (.telrd f) s key ((t.modCrew key fun c => c.setSPair 2 v).modCrew key fun c => c.setS 0 0) := by
  refine service_runs ((exec_telrd f s).trans (execTelrd.eq_def ..)) h rfl hs hc he ?_
  simp only [hi, hread]

theorem fstep_runs {d fr : Nat} (h : Issues (.fstep f) s key) (hs : s0 = s.entered key f) (hc : c = s0.crew key) (he : c.eff f ≠ 0)
    (hd : c.arg 1 = d) (hfr : c.arg 2 = fr) (hlt : d < 4) (hlow : 8 ≤ fr) (hhigh : fr ≤ 18) :
    Runs (.fstep f) s key ((s0.modDie d fun x => { x with wantF := some fr, capFrom := none }).modCrew key fun c => c.setS 0 0) := by
  refine service_runs ((exec_fstep f s).trans (execFstep.eq_def ..)) h rfl hs hc he ?_
  simp only [hd, hfr, decide_gt_false hlt, decide_eq_false (Nat.not_lt.mpr hlow), decide_gt_false (Nat.lt_succ_of_le hhigh), Bool.or_self,
    Bool.false_eq_true, if_false]

/-! ## Replicas and attestation -/

theorem repinv_runs {ctx va pa size : Nat} (h : Issues (.repinv f) s key) (hs : s0 = s.entered key f) (hc : c = s0.crew key)
    (he : c.eff f ≠ 0) (hctx : c.arg 1 = ctx) (hva : c.argPair 2 = va) (hlt : ctx < 16) (hvalt : va < 2 ^ 56)
    (hpage : rawPage s0 va 5 0 ((s0.ctxEntry ctx).extractLsb' 64 64).toNat = .ok (pa, size))
    (hway : ∀ d, d < 4 → s0.wayHeld (coreOf key) d = none) :
    Runs (.repinv f) s key (State.modCrew { s0 with
      dies := s0.dies.map fun (x : Nat × Die) =>
        (x.1, { x.2 with replicas := x.2.replicas.filter fun y => !(pa / 128 ≤ y.1 && y.1 < (pa + size) / 128) }) } key
          fun c => c.setS 0 0) := by
  have hfree : (upto 0 4).findSome? (s0.wayHeld (coreOf key)) = none :=
    List.findSome?_eq_none_iff.mpr fun d hd => hway d (by have := mem_upto.mp hd; omega)
  refine runs_once ((exec_repinv f s).trans (execRepinv.eq_def ..)) h rfl hs hc he ?_
  simp only [hctx, hva, decide_gt_false hlt, decide_eq_false (Nat.not_le.mpr hvalt), ge_iff_le, hpage, hfree, held?_none, Bool.or_self,
    Bool.false_eq_true, if_false, answered]

theorem attest_runs {buf nonce : Nat} {img : Image} (h : Issues (.attest f) s key) (hs : s0 = s.entered key f) (hc : c = s0.crew key)
    (he : c.eff f ≠ 0) (hbuf : c.argPair 2 = buf) (hnonce : c.argPair 4 = nonce) (hlt : c.arg 1 < 16) (hin : buf + 320 ≤ 2 ^ 60)
    (hnin : nonce + 64 ≤ 2 ^ 60) (hread : s0.unreadable nonce 64 = false) (hcut : s0.cutOff buf = false)
    (himg : s0.firmware.running = some img) :
    let head := s0.attested (s0.mem.readBytes nonce 64) img
    let mem := ((s0.mem.clear buf 320).writeBytes buf head).writeBytes (buf + 152)
      ((Config.attestSignature (sha512 (head.take 152))).take 132)
    Runs (.attest f) s key ((State.clearBad { s0 with mem := mem } buf 320).modCrew key fun c => c.setS 0 0) := by
  refine service_runs ((exec_attest f s).trans (execAttest.eq_def ..)) h rfl hs hc he ?_
  simp only [hbuf, hnonce, decide_gt_false hlt, physOk_of (Nat.mod_one buf) hin, physOk_of (Nat.mod_one nonce) hnin, hread, hcut, himg,
    Bool.not_true, Bool.or_self, Bool.false_eq_true, if_false]

end

/-! ## The statement about services -/

/-- Settles O54: each service answers its status, with the effect of its own. -/
theorem services : Obligations.Services := by
  refine ⟨?_, ?_, ?_, ?_, ?_, ?_, ?_, ?_⟩
  · intro f s key h s0 c pa hd x y z ranks he hctx hal hin hread hok hfresh hnear m
    exact commset_runs h rfl rfl he rfl rfl ⟨rfl, rfl, hctx, hal, hin, hread, hok, hfresh, hnear⟩
  · intro f s key m h s0 c he hctx hid hm
    exact commclr_clears h rfl rfl he rfl rfl hctx hid hm
  · intro f s key h s0 c pa size he hctx hlow hhigh hin hversion hpos hentry hzero hshort hread hsigned x
    exact schedset_runs h rfl rfl he rfl rfl rfl hctx hlow hhigh
      ⟨rfl, hin, hversion, hpos, hentry, hzero, hshort, hread, hsigned⟩
  · intro f s key h s0 c he hctx hlow hhigh hsched hover
    exact schedclr_runs h rfl rfl he rfl rfl hctx hlow hhigh hsched hover
  · intro f s key v t h s0 c late he hread
    exact ⟨fun w hw => telemetryRead_own hread hw, telrd_runs h rfl rfl he rfl hread⟩
  · intro f s key h s0 c he hd hlow hhigh
    exact fstep_runs h rfl rfl he rfl rfl hd hlow hhigh
  · intro f s key pa size h s0 c he hctx hva hpage hway drop
    exact repinv_runs h rfl rfl he rfl rfl hctx hva hpage hway
  · intro f s key img h s0 c buf nonce he hctx hbuf hnonce hread hcut himg
    exact attest_runs h rfl rfl he rfl rfl hctx hbuf hnonce hread hcut himg

end Sys2Proof.Machine

/-! The events of collectives, schedules and lost links (spec/10 R180-R184, spec/26 R345-R347, R354, Table 26-4). -/
namespace Sys2Proof.Machine

/-! ## COLLECTIVE_COMPLETE -/

/-- What COLLECTIVE_COMPLETE makes of the oldest collective of a crew. -/
def collTurn (key : Nat) (o : CPend) (slot : Nat) (r : BitVec 512) (disp : DWord) (dd : Bool) (x : BitVec 256) (nth : Nat)
    (s : State) : State :=
  if o.applied then s.collDone key o slot r x
  else match s.comm (s.ctxOf key) (extComm x) with
    | none => s.failC key o.id (collCause slot 4)
    | some m => if extOp x = 0 then s.runPut key o slot r disp dd x m else s.runReduce key slot r disp dd x nth m

/-- What a rank of another package meets, where there is one. -/
def farMeets (s : State) (m : Comm) (x : BitVec 256) : Word × State := if s.collFar m x then s.farCause else (0, s)

/-- How many ranks' signal words a collective adds to: those of this package for a put, the issuer's own for a reduce. -/
def signalRanks (s : State) (m : Comm) (x : BitVec 256) : Nat :=
  if extOp x = 0 then ((m.members x).filter fun k => (m.place k).1 = s.pkgId).length else 1

section
variable {s : State} {key slot nth iss : Nat} {o : CPend} {r : BitVec 512} {disp : DWord} {dd : Bool} {x : BitVec 256} {m : Comm}

theorem happens_collTurn (hr : s.relocking (dieOfCore (coreOf key)) = false) (hc : s.classHeld key = false)
    (ho : (s.crew key).oldestC CKind.isColl = some o) (hk : o.kind = .coll slot r disp dd x nth iss)
    (hheld : s.collHeld key x = false) (hrej : s.engineRejected key = false) :
    Happens (.collectiveComplete key) s (collTurn key o slot r disp dd x nth s) := by
  refine engineEvent_of (key := key) hr hc ?_
  rw [ho]
  dsimp only
  rw [hk]
  exact if_neg (by simp [hheld, hrej])

theorem collTurn_of_applied (ha : o.applied = true) : collTurn key o slot r disp dd x nth s = s.collDone key o slot r x := if_pos ha

theorem collTurn_of_comm (ha : o.applied = false) (hm : s.comm (s.ctxOf key) (extComm x) = some m) :
    collTurn key o slot r disp dd x nth s =
      if extOp x = 0 then s.runPut key o slot r disp dd x m else s.runReduce key slot r disp dd x nth m := by
  rw [collTurn, if_neg (ne_true_of_eq_false ha), hm]

theorem collTurn_of_no_comm (ha : o.applied = false) (hm : s.comm (s.ctxOf key) (extComm x) = none) :
    collTurn key o slot r disp dd x nth s = s.failC key o.id (collCause slot 4) := by
  rw [collTurn, if_neg (ne_true_of_eq_false ha), hm]

theorem signalled_eq (hk : o.kind = .coll slot r disp dd x nth iss) : o.signalled = decide ((copyAll r disp dd).length < o.rows) := by
  rw [CPend.signalled, hk]

/-- A collective that has added to its signal words is over. -/
theorem collDone_of_signalled (hp : s.passed key o.ct = true) (hs : o.signalled = true) :
    s.collDone key o slot r x = (s.modC key o.id fun o => { o with done := true }).dropOps key := by
  simp only [State.collDone, hp, hs, Bool.not_true, Bool.false_and, Bool.or_true, Bool.false_eq_true, if_false, if_true]
  exact if_neg (by decide)

theorem farMeets_ctxOf : (farMeets s m x).2.ctxOf key = s.ctxOf key := by
  unfold farMeets; split <;> rfl

theorem farMeets_comm (ctx n : Nat) : (farMeets s m x).2.comm ctx n = s.comm ctx n := by
  unfold farMeets; split <;> rfl

/-- A collective whose data has completed, before it adds to its signal words. -/
theorem collDone_of_unsignalled (hp : s.passed key o.ct = true) (hs : o.signalled = false)
    (hm : s.comm (s.ctxOf key) (extComm x) = some m) : s.collDone key o slot r x =
      let z := farMeets s m x
      if 1 < z.1 then z.2.failC key o.id (collCause slot z.1)
      else if extSig x = 0 then (z.2.modC key o.id fun o => { o with done := true }).dropOps key
      else match z.2.collSignal key (scopeOf (shapeSc r)) (extSig x) (signalRanks z.2 m x) with
        | .error e => z.2.engineStop key o.id (z.2.engineWaits key e) e fun c => z.2.failC key o.id (collCause slot c)
        | .ok (t, w) => (t.modC key o.id fun o => { o with rows := o.rows + 1 }).applyC key o.id w := by
  have hz : (if s.collFar m x = true then s.farCause else (0, s)) = farMeets s m x := rfl
  simp only [State.collDone, hp, hs, hm, hz, Bool.not_true, Bool.not_false, Bool.true_and, Bool.or_false, Bool.false_eq_true, if_false,
    Option.any_some, decide_eq_true_eq, farMeets_ctxOf, farMeets_comm, signalRanks, gt_iff_lt]
  cases extOp x <;> rfl

end

/-! ## COLLECTIVE_TIMEOUT -/

/-- A running minimum is no later than its start and each of its values. -/
theorem foldl_min_le {α : Type} (f : α → Nat) (l : List α) (n : Nat) :
    l.foldl (fun t x => min t (f x)) n ≤ n ∧ ∀ x ∈ l, l.foldl (fun t x => min t (f x)) n ≤ f x := by
  induction l generalizing n with
  | nil => exact ⟨Nat.le_refl n, fun _ h => absurd h List.not_mem_nil⟩
  | cons y l ih =>
    obtain ⟨hn, hl⟩ := ih (min n (f y))
    refine ⟨hn.trans (Nat.min_le_left n (f y)), fun x hx => ?_⟩
    rcases List.mem_cons.1 hx with rfl | hx
    · exact hn.trans (Nat.min_le_right n (f x))
    · exact hl x hx

section
variable {s : State} {key slot nth iss : Nat} {o : CPend} {r : BitVec 512} {disp : DWord} {dd : Bool} {x : BitVec 256} {m : Comm}

/-- A reduce that some member has not issued is late once the timeout has passed since one of its issues. -/
theorem collLate_of_issue {ctx : Nat} {y : Nat × Nat × CPend} (hy : y ∈ s.collPeers ctx m x nth)
    (hopen : (s.collPeers ctx m x nth).length < (m.members x).length) (hlate : y.2.2.kind.since + m.tmo < s.meridian) :
    s.collLate ctx m x nth true = true := by
  have hfirst := (foldl_min_le (fun y : Nat × Nat × CPend => y.2.2.kind.since) (s.collPeers ctx m x nth) s.meridian).2 y hy
  have hne : (s.collPeers ctx m x nth).isEmpty = false := List.isEmpty_eq_false_iff_exists_mem.2 ⟨y, hy⟩
  simp only [State.collLate, if_pos hopen, hne, Bool.true_or, Bool.not_false, Bool.true_and, decide_eq_true_eq]
  omega

theorem collTimedOut_put (hk : o.kind = .coll slot r disp dd x nth iss) (hm : s.comm (s.ctxOf key) (extComm x) = some m)
    (hd : o.done = false) (ha : o.applied = false) (hop : extOp x = 0) (hlate : iss + m.tmo < s.meridian) :
    s.collTimedOut key o = true := by
  simp [State.collTimedOut, hk, hm, hd, ha, hop, hlate]

theorem collTimedOut_reduce (hk : o.kind = .coll slot r disp dd x nth iss) (hm : s.comm (s.ctxOf key) (extComm x) = some m)
    (hd : o.done = false) (ha : o.applied = false) (hop : extOp x ≠ 0) (hlate : s.collLate (s.ctxOf key) m x nth true = true) :
    s.collTimedOut key o = true := by
  simp [State.collTimedOut, hk, hm, hd, ha, hop, hlate]

/-- What COLLECTIVE_TIMEOUT makes of the oldest collective whose timeout has passed. -/
theorem happens_collTimeout (hr : s.relocking (dieOfCore (coreOf key)) = false) (hk : o.kind = .coll slot r disp dd x nth iss)
    (hm : s.comm (s.ctxOf key) (extComm x) = some m) (ho : (s.crew key).cops.find? (s.collTimedOut key) = some o) :
    Happens (.collectiveTimeout key) s
      ((if extOp x = 0 then s else s.collExpire (s.ctxOf key) m x nth).failC key o.id (collCause slot 2)) := by
  refine eventOf_of (key := key) hr ?_
  dsimp only
  rw [ho]
  dsimp only
  rw [hk]
  dsimp only
  rw [hm]

end

/-! ## SCHEDULE_END -/

/-- What the accesses of a schedule make of it. -/
def schedTurn (k : Nat) (h : Handle) (cause : BitVec 8) (steps : Nat) : SchedRun → State
  | .made t false => t.schedEnd k h cause steps
  | .made t true => { t with handles := Tbl.set t.handles k { h with state := 2, steps := h.steps + steps } }
  | .ends t c => t.schedEnd k h c steps
  | .waits t va e =>
    let u : State := { t with handles := Tbl.set t.handles k { h with state := 2 } }
    match u.schedOp k with
    | none => u
    | some (key, o) => u.modC key o.id fun o => { o.stops (some e) with todo := some [(va.toNat, 0)] }

theorem exec_scheduleEnd (k : Nat) (cause : BitVec 8) (steps : Nat) (acts : List (DWord × Option Byte)) (s : State) :
    exec (.scheduleEnd k cause steps acts) s = execScheduleEnd k cause steps acts s := rfl

theorem happens_schedTurn {s : State} {k steps : Nat} {h : Handle} {cause : BitVec 8} {acts : List (DWord × Option Byte)}
    (hh : Tbl.get? s.handles k = some h) (hst : h.state = 1 ∨ h.state = 2) (hcause : cause.toNat ≤ 7)
    (hready : s.ready.extractLsb' 96 16 ≠ 0) (hr : s.relocking (dieOfCore (coreOf h.key)) = false)
    (hheld : s.heldClasses.contains (s.taskClass (s.task h.task)) = false) :
    Happens (.scheduleEnd k cause steps acts) s (schedTurn k h cause steps (s.schedActs k h false acts)) := by
  have hgo : ¬((h.state ≠ 1 && h.state ≠ 2) || 7 < cause.toNat || s.ready.extractLsb' 96 16 = 0 ||
      s.relocking (dieOfCore (coreOf h.key)) || s.heldClasses.contains (s.taskClass (s.task h.task))) = true := by
    have hlt : ¬7 < cause.toNat := Nat.not_lt.2 hcause
    rcases hst with hst | hst <;> simp only [hst, hlt, hready, hr, hheld] <;> decide
  refine happens_of_event (exec_scheduleEnd k cause steps acts s) ?_
  rw [hh]
  refine (if_neg hgo).trans ?_
  generalize s.schedActs k h false acts = y
  rcases y with ⟨t, _ | _⟩ | ⟨t, va, e⟩ | ⟨t, c⟩ <;> rfl

@[simp] theorem chargeClass_mem (s : State) (cls kind n : Nat) : (s.chargeClass cls kind n).mem = s.mem := rfl

/-- What a schedule writes reads back. -/
theorem read_schedPut (s : State) (k : Nat) (h : Handle) (a : Attr) (pa : Nat) (b : Byte) : (s.schedPut k h a pa b).mem.read pa = b := by
  have hput : (((s.homeClean h.key a pa).homePut a pa [b]).1).mem.read pa = b :=
    (Memory.read_write (s.homeClean h.key a pa).mem pa pa b).trans (if_pos rfl)
  rw [State.schedPut]
  split
  · rw [State.wrote, State.modCrew_mem, hput]
  · exact hput

/-- One write of a schedule. -/
theorem schedActs_write {s : State} {k pa : Nat} {h : Handle} {va : DWord} {b : Byte} {a : Attr}
    (hcls : s.classSpent (s.taskClass (s.task h.task)) = false) (htr : s.lookup h.ctx va.toNat .write = .ok (pa, a))
    (hcut : s.cutOff pa = false) (hheld : s.engineHeld h.key pa 1 (s.hubHeld a pa) = .ok ()) :
    s.schedActs k h false [(va, some b)] =
      .made ((s.chargeClass (s.taskClass (s.task h.task)) (if s.foreign pa then 2 else 3) 1).schedPut k h a pa b) (s.foreign pa) := by
  simp only [State.schedActs, hcls, htr, hcut, hheld, Option.isSome_some, if_true, Bool.false_eq_true, if_false, Bool.false_or]

/-! ## LINK_LOST -/

/-- What LINK_LOST makes of a crew's oldest engine operation. -/
def linkLostOp (key : Nat) (o : CPend) (s : State) : State :=
  match o.kind with
  | .coll slot .. => s.failC key o.id (collCause slot 4)
  | .copy _ r disp dd _ => copyGivesUp key o (copyAll r disp dd).length { s := s, rows := o.rows } (lostReport 1 (shapeLost r))
  | .amp slot _ nth .. => (s.ampOver (dieOfCore (coreOf key)) (s.ctxOf key) slot nth).failC key o.id
      (lostReport 6 ((s.amp (dieOfCore (coreOf key)) (s.ctxOf key) slot).map.extractLsb' 0 64))
  | .sched h => match Tbl.get? s.handles h with
    | some x => State.failC { s with handles := Tbl.set s.handles h { x with state := 4, cause := 4 } } key o.id (collCause x.sched 4)
    | none => s.failC key o.id (collCause 0 4)
  | .empty => s

theorem happens_linkLost_op {s : State} {key : Nat} {o : CPend} (hr : s.relocking (dieOfCore (coreOf key)) = false)
    (ho : (s.crew key).cops.find? (fun o => !o.done) = some o) : Happens (.linkLost key) s (linkLostOp key o s) := by
  refine eventOf_of (key := key) hr ?_
  dsimp only
  rw [ho]
  dsimp only
  unfold linkLostOp
  cases o.kind <;> rfl

/-- What LINK_LOST makes of a crew that has no engine operation. -/
def linkLostMem (key : Nat) (s : State) : Option MemPend → Option MemPend → Option TPend → State
  | some m, _, _ => s.loseMem key m.id
  | none, some m, _ => s.loseMem key m.id
  | none, none, some o =>
    if o.kind.isMem then s.abandonT key o (lostReport (if o.kind.isDrain then 3 else 2) o.kind.lostAt) else s
  | none, none, none => s

theorem happens_linkLost_mem {s : State} {key : Nat} (hr : s.relocking (dieOfCore (coreOf key)) = false)
    (ho : (s.crew key).cops.find? (fun o => !o.done) = none) :
    Happens (.linkLost key) s (linkLostMem key s ((s.crew key).stores.find? fun m => !m.done)
      ((s.crew key).loads.find? fun m => !m.done) (s.crew key).headT) := by
  refine eventOf_of (key := key) hr ?_
  dsimp only
  rw [ho]
  dsimp only
  generalize (s.crew key).stores.find? (fun m => !m.done) = a
  generalize (s.crew key).loads.find? (fun m => !m.done) = b
  generalize (s.crew key).headT = t
  cases a <;> cases b <;> cases t <;> rfl

end Sys2Proof.Machine

/-! The events of the amplitude engines (spec/10 R185-R188, spec/24 R326-R334). -/
namespace Sys2Proof.Machine

/-! ## AMP_MATCH -/

/-- Whether the commands of all the dies of a match are the same, for the same dies (spec/10 R186). -/
def ampAgree (xs : List (Nat × Nat × CPend)) : Bool :=
  xs.all fun x => xs.all fun y => match x.2.2.kind, y.2.2.kind with
    | .amp _ c _ _ _ d _, .amp _ c' _ _ _ d' _ => ampAgrees c c' && d = d'
    | _, _ => false

theorem sameCommand_iff (o o' : CPend) : SameCommand o o' ↔ (match o.kind, o'.kind with
    | .amp _ c _ _ _ d _, .amp _ c' _ _ _ d' _ => ampAgrees c c' && d = d'
    | _, _ => false) = true := by
  constructor
  · rintro ⟨sl, c, n, i, m, p, sl', c', n', i', m', p', d, h, h', hc⟩
    simp only [h, h', hc, decide_true, Bool.and_self]
  · intro h
    split at h
    next sl c n i m d p sl' c' n' i' m' d' p' hk hk' =>
      obtain ⟨hc, rfl⟩ : ampAgrees c c' = true ∧ d = d' := by simpa using h
      exact ⟨sl, c, n, i, m, p, sl', c', n', i', m', p', d, hk, hk', hc⟩
    · contradiction

theorem ampAgree_iff (xs : List (Nat × Nat × CPend)) : ampAgree xs = true ↔ ∀ x ∈ xs, ∀ y ∈ xs, SameCommand x.2.2 y.2.2 := by
  simp only [ampAgree, List.all_eq_true, sameCommand_iff]

/-- An operation whose command begins at a tick. -/
def CPend.begins (n : Nat) (o : CPend) : CPend :=
  { o with kind := match o.kind with | .amp a b c _ _ e f => .amp a b c n true e f | k => k }

/-- The operations of a command begin at one tick. -/
theorem foldl_begins {n : Nat} (ys : List (Nat × Nat × CPend)) (t : State) (ht : t.meridian = n) :
    ys.foldl (fun s x => s.modC x.2.1 x.2.2.id (CPend.begins s.meridian)) t =
      ys.foldl (fun s x => s.modC x.2.1 x.2.2.id (CPend.begins n)) t := by
  induction ys generalizing t with
  | nil => rfl
  | cons y ys ih =>
    rw [List.foldl_cons, List.foldl_cons, ht]
    exact ih _ ((State.modCrew_meridian ..).trans ht)

/-- What AMP_MATCH makes of the operations of a command, once the gate records have been read. -/
def ampMatched (ctx slot : Nat) (t : State) (ys : List (Nat × Nat × CPend)) : State :=
  if ampAgree ys then ys.foldl (fun s x => s.modC x.2.1 x.2.2.id (CPend.begins s.meridian)) t
  else t.ampEnd ctx slot ys (some 1) fun m _ => m

section
variable {s : State} {die ctx slot key sl nth iss np : Nat} {o : CPend} {cmd : AmpCmd} {dies : List Nat}

theorem exec_ampMatch (die ctx slot : Nat) (s : State) : exec (.ampMatch die ctx slot) s = execAmpMatch die ctx slot s := rfl

theorem happens_ampMatch {xs : List (Nat × Nat × CPend)} (hhead : s.ampHead die ctx slot = some (key, o))
    (hk : o.kind = .amp sl cmd nth iss false dies np) (hr : s.relocking die = false) (hxs : s.ampCrews ctx slot nth dies = some xs)
    (hall : ∀ x ∈ xs, (s.amp x.1 ctx slot).performed = nth ∧ s.relocking x.1 = false) :
    let t := xs.foldl (fun s x => s.ampSample x.2.1 x.2.2) s
    Happens (.ampMatch die ctx slot) s (ampMatched ctx slot t ((t.ampCrews ctx slot nth dies).getD xs)) := by
  have hgo : ¬(!xs.all fun x => (s.amp x.1 ctx slot).performed = nth && !s.relocking x.1) = true := by
    simpa [List.all_eq_true] using hall
  refine happens_of_eventOn (exec_ampMatch die ctx slot s) hr ?_
  dsimp only
  rw [hhead]
  dsimp only
  rw [hk]
  dsimp only
  rw [hxs]
  exact if_neg hgo

theorem ampMatched_of_not_same {t : State} {ys : List (Nat × Nat × CPend)} (h : ¬∀ x ∈ ys, ∀ y ∈ ys, SameCommand x.2.2 y.2.2) :
    ampMatched ctx slot t ys = t.ampEnd ctx slot ys (some 1) fun m _ => m :=
  if_neg fun hagree => h ((ampAgree_iff ys).1 hagree)

theorem ampMatched_of_same {t : State} {ys : List (Nat × Nat × CPend)} (h : ∀ x ∈ ys, ∀ y ∈ ys, SameCommand x.2.2 y.2.2) :
    ampMatched ctx slot t ys = ys.foldl (fun s x => s.modC x.2.1 x.2.2.id (CPend.begins t.meridian)) t :=
  (if_pos ((ampAgree_iff ys).2 h)).trans (foldl_begins ys t rfl)

end

/-! ## AMP_COMMAND_COMPLETE -/

/-- The operations of the dies that a die's part of a command depends on. -/
def ampDepends (t : State) (ctx slot nth die : Nat) (cmd : AmpCmd) (m : BitVec 512) (dies : List Nat) : List (Nat × Nat × CPend) :=
  (ampGroup cmd m (dies.idxOf die)).filterMap fun w => dies[w]?.bind fun d => (t.ampOp d ctx slot nth).map fun y => (d, y.1, y.2)

/-- Whether a die's part of a command depends on other dies of the package. -/
def ampShares (cmd : AmpCmd) (m : BitVec 512) (v : Nat) : Bool := decide (1 < (ampGroup cmd m v).length)

/-- An engine that has been given amplitudes starts on them in the same event. -/
def ampGoesOn (ctx slot nth : Nat) (cmd : AmpCmd) (m : BitVec 512) (np : Nat) (dies : List Nat) (x : Nat × Nat × CPend)
    (group : List (Nat × Nat × CPend)) (t : State) : State :=
  if (t.copOf x.2.1 x.2.2.id).any fun o => o.todo.isSome then t.ampGo ctx slot nth cmd m np dies x group else t

/-- What AMP_COMMAND_COMPLETE makes of a command that is free to go on at a die. -/
def ampTurn (ctx slot nth : Nat) (cmd : AmpCmd) (m : BitVec 512) (np : Nat) (dies : List Nat) (x : Nat × Nat × CPend)
    (group : List (Nat × Nat × CPend)) (t : State) : State :=
  let v := dies.idxOf x.1
  if ampAbroad cmd m np && t.ampCut ctx m np then t.ampEnd ctx slot [x] (some 4) fun m _ => m
  else if x.2.2.todo.isSome then
    if t.ampFree cmd m np v dies group then t.ampGo ctx slot nth cmd m np dies x group else t.ampWait x
  else if let some e := t.ampOwnError ctx slot cmd m x then t.ampStop ctx slot [x] x.2.1 e
  else if group.length < (ampGroup cmd m v).length || group.any (fun y => y.2.2.todo.isSome) then t
  else if group.any (t.ampStopped (ampShares cmd m v)) || (ampAbroad cmd m np && t.portsBusy) then t.ampWait x
  else ampGoesOn ctx slot nth cmd m np dies x group (t.ampBegin ctx slot cmd m np dies group)

/-- What AMP_COMMAND_COMPLETE makes of the oldest command of a slot at a die. -/
def ampHeadTurn (die ctx slot key : Nat) (o : CPend) (t : State) : State :=
  match o.kind with
  | .amp _ cmd nth _ matched dies np =>
    let m := (t.amp die ctx slot).map
    if t.engineRejected key || !matched && (dies.length > 1 || np > 0) ||
        t.ampStopped (ampShares cmd m (dies.idxOf die)) (die, key, o) then t
    else ampTurn ctx slot nth cmd m np dies (die, key, o) (ampDepends t ctx slot nth die cmd m dies) t
  | _ => t

/-- The oldest command of a slot at a die that has been performed and is not over. -/
def ampWaiting (s : State) (die ctx slot : Nat) : Option (Nat × CPend) :=
  s.crews.findSome? fun k =>
    if dieOfCore (coreOf k.1) = die && (s.party k.2.party).ctx = ctx then
      (k.2.cops.find? fun o => !o.done && o.applied && match o.kind with | .amp sl .. => sl = slot | _ => false).map fun o => (k.1, o)
    else none

theorem ampWaiting_of_none_applied {s : State} (die ctx slot : Nat) (h : ∀ k ∈ s.crews, ∀ o ∈ k.2.cops, o.applied = false) :
    ampWaiting s die ctx slot = none := by
  refine List.findSome?_eq_none_iff.2 fun k hk => ?_
  have hnone : (k.2.cops.find? fun o => !o.done && o.applied && match o.kind with | .amp sl .. => sl = slot | _ => false) = none :=
    List.find?_eq_none.2 fun o ho => by simp [h k hk o ho]
  rw [hnone, Option.map_none, ite_self]

theorem id_of_copOf {t : State} {key id : Nat} {o : CPend} (h : t.copOf key id = some o) : o.id = id := by
  simpa using List.find?_some h

section
variable {s t : State} {die ctx slot key sl nth iss np : Nat} {o o' : CPend} {cmd cmd' : AmpCmd} {mt : Bool} {dies : List Nat}

theorem exec_ampCommandComplete (die ctx slot : Nat) (s : State) :
    exec (.ampCommandComplete die ctx slot) s = execAmpCommandComplete die ctx slot s := rfl

/-- The gate record of a command that has not begun is read before the command goes on. -/
theorem happens_ampHeadTurn (hhead : s.ampHead die ctx slot = some (key, o)) (hk : o.kind = .amp sl cmd nth iss mt dies np)
    (hr : s.relocking die = false) (hwait : ∀ k ∈ s.crews, ∀ o ∈ k.2.cops, o.applied = false)
    (ht : t = if o.todo.isSome || mt then s else s.ampSample key o) : Happens (.ampCommandComplete die ctx slot) s
      (ampHeadTurn die ctx slot key ((t.copOf key o.id).getD o) t) := by
  refine happens_of_eventOn (exec_ampCommandComplete die ctx slot s) hr ?_
  dsimp only
  split
  next heq => exact absurd ((ampWaiting_of_none_applied die ctx slot hwait).symm.trans heq) nofun
  · rw [hhead]
    cases mt
    all_goals
      simp only [hk, Bool.or_false, Bool.or_true, if_true, ite_self] at ht ⊢
      rw [← ht]
      generalize (t.copOf key o.id).getD o = o'
      unfold ampHeadTurn
      cases o'.kind <;> rfl

theorem ampHeadTurn_of_free (hk : o.kind = .amp sl cmd nth iss mt dies np) (hrej : t.engineRejected key = false)
    (hmt : mt = true ∨ dies.length ≤ 1 ∧ np = 0)
    (hstop : t.ampStopped (ampShares cmd (t.amp die ctx slot).map (dies.idxOf die)) (die, key, o) = false) :
    ampHeadTurn die ctx slot key o t = ampTurn ctx slot nth cmd (t.amp die ctx slot).map np dies (die, key, o)
      (ampDepends t ctx slot nth die cmd (t.amp die ctx slot).map dies) t := by
  have hgo : ¬(t.engineRejected key || !mt && (dies.length > 1 || np > 0) ||
      t.ampStopped (ampShares cmd (t.amp die ctx slot).map (dies.idxOf die)) (die, key, o)) = true := by
    rw [hrej, hstop]
    rcases hmt with rfl | ⟨hd, rfl⟩
    · simp
    · simp [Nat.not_lt.2 hd]
  rw [ampHeadTurn, hk]
  exact if_neg hgo

theorem happens_ampTurn (hhead : s.ampHead die ctx slot = some (key, o)) (hk : o.kind = .amp sl cmd nth iss mt dies np)
    (hr : s.relocking die = false) (hwait : ∀ k ∈ s.crews, ∀ o ∈ k.2.cops, o.applied = false)
    (ht : t = if o.todo.isSome || mt then s else s.ampSample key o) (ho : t.copOf key o.id = some o')
    (hk' : o'.kind = .amp sl cmd' nth iss mt dies np) (hrej : t.engineRejected key = false)
    (hmt : mt = true ∨ dies.length ≤ 1 ∧ np = 0)
    (hstop : t.ampStopped (ampShares cmd' (t.amp die ctx slot).map (dies.idxOf die)) (die, key, o') = false) :
    Happens (.ampCommandComplete die ctx slot) s (ampTurn ctx slot nth cmd' (t.amp die ctx slot).map np dies (die, key, o')
      (ampDepends t ctx slot nth die cmd' (t.amp die ctx slot).map dies) t) := by
  have h := happens_ampHeadTurn hhead hk hr hwait ht
  rwa [ho, Option.getD_some, ampHeadTurn_of_free hk' hrej hmt hstop] at h

end

section
variable {t : State} {ctx slot nth np : Nat} {cmd : AmpCmd} {m : BitVec 512} {dies : List Nat} {x : Nat × Nat × CPend}
  {group : List (Nat × Nat × CPend)}

theorem ampTurn_of_cut (ha : ampAbroad cmd m np = true) (hcut : t.ampCut ctx m np = true) :
    ampTurn ctx slot nth cmd m np dies x group t = t.ampEnd ctx slot [x] (some 4) fun m _ => m := by
  simp only [ampTurn, ha, hcut, Bool.and_self, if_true]

/-- An engine with amplitudes left works some of them off, or waits. -/
theorem ampTurn_of_todo (hcut : ampAbroad cmd m np = true → t.ampCut ctx m np = false) (htodo : x.2.2.todo.isSome = true) :
    ampTurn ctx slot nth cmd m np dies x group t =
      if t.ampFree cmd m np (dies.idxOf x.1) dies group then t.ampGo ctx slot nth cmd m np dies x group else t.ampWait x := by
  have hc : ¬(ampAbroad cmd m np && t.ampCut ctx m np) = true := by simpa using hcut
  simp only [ampTurn, if_neg hc, if_pos htodo]

theorem ampTurn_of_error {e : EngErr} (hcut : ampAbroad cmd m np = true → t.ampCut ctx m np = false) (htodo : x.2.2.todo = none)
    (he : t.ampOwnError ctx slot cmd m x = some e) :
    ampTurn ctx slot nth cmd m np dies x group t = t.ampStop ctx slot [x] x.2.1 e := by
  have hc : ¬(ampAbroad cmd m np && t.ampCut ctx m np) = true := by simpa using hcut
  simp only [ampTurn, if_neg hc, htodo, he, Option.isSome_none, Bool.false_eq_true, if_false]

section
variable (hcut : ampAbroad cmd m np = true → t.ampCut ctx m np = false) (htodo : x.2.2.todo = none)
  (he : t.ampOwnError ctx slot cmd m x = none) (hlen : group.length = (ampGroup cmd m (dies.idxOf x.1)).length)
  (hnone : ∀ y ∈ group, y.2.2.todo = none)
include hcut htodo he hlen hnone

/-- An engine that has not begun does so once the dies that it depends on are there and free; until then it waits. -/
theorem ampTurn_of_ready : ampTurn ctx slot nth cmd m np dies x group t =
    if group.any (t.ampStopped (ampShares cmd m (dies.idxOf x.1))) || (ampAbroad cmd m np && t.portsBusy) then t.ampWait x
    else ampGoesOn ctx slot nth cmd m np dies x group (t.ampBegin ctx slot cmd m np dies group) := by
  have hc : ¬(ampAbroad cmd m np && t.ampCut ctx m np) = true := by simpa using hcut
  have hgroup : ¬(group.length < (ampGroup cmd m (dies.idxOf x.1)).length || group.any fun y => y.2.2.todo.isSome) = true := by
    simpa [hlen] using hnone
  simp only [ampTurn, if_neg hc, htodo, he, Option.isSome_none, Bool.false_eq_true, if_false, if_neg hgroup]

theorem ampTurn_of_stopped
    (hstop : (∃ y ∈ group, t.ampStopped (ampShares cmd m (dies.idxOf x.1)) y = true) ∨
      ampAbroad cmd m np = true ∧ t.portsBusy = true) :
    ampTurn ctx slot nth cmd m np dies x group t = t.ampWait x :=
  (ampTurn_of_ready hcut htodo he hlen hnone).trans
    (if_pos (by simpa only [Bool.or_eq_true, List.any_eq_true, Bool.and_eq_true] using hstop))

theorem ampTurn_of_begins (hfree : ∀ y ∈ group, t.ampStopped (ampShares cmd m (dies.idxOf x.1)) y = false)
    (hports : ampAbroad cmd m np = true → t.portsBusy = false) : ampTurn ctx slot nth cmd m np dies x group t =
      ampGoesOn ctx slot nth cmd m np dies x group (t.ampBegin ctx slot cmd m np dies group) := by
  have hstop : group.any (t.ampStopped (ampShares cmd m (dies.idxOf x.1))) = false :=
    List.any_eq_false.2 fun y hy => ne_true_of_eq_false (hfree y hy)
  refine (ampTurn_of_ready hcut htodo he hlen hnone).trans (if_neg ?_)
  simpa [hstop] using hports

end

theorem ampGo_of_error {e : EngErr} (h : (t.ampMove ctx slot cmd m np (dies.idxOf x.1)
      (t.ampRoom cmd m (dies.idxOf x.1) dies x group) x).2 = some e) : t.ampGo ctx slot nth cmd m np dies x group =
      (t.ampMove ctx slot cmd m np (dies.idxOf x.1) (t.ampRoom cmd m (dies.idxOf x.1) dies x group) x).1.ampStop ctx slot [x] x.2.1 e := by
  rw [State.ampGo]
  split
  next u e' heq => rw [heq] at h ⊢; cases h; rfl
  next u heq => rw [heq] at h; cases h

theorem ampGo_of_moved (h : (t.ampMove ctx slot cmd m np (dies.idxOf x.1)
      (t.ampRoom cmd m (dies.idxOf x.1) dies x group) x).2 = none) : t.ampGo ctx slot nth cmd m np dies x group =
      (t.ampMove ctx slot cmd m np (dies.idxOf x.1) (t.ampRoom cmd m (dies.idxOf x.1) dies x group) x).1.ampFinish
        ctx slot nth cmd m np dies x := by
  rw [State.ampGo]
  split
  next u e heq => rw [heq] at h; cases h
  next u heq => rw [heq]

theorem ampFinish_eq (s : State) : s.ampFinish ctx slot nth cmd m np dies x =
    if s.todoOf x.2.1 x.2.2.id ≠ [] then s
    else match cmd with
      | .norm .. => s.ampSum ctx slot nth cmd m np dies x
      | _ => s.ampEnd ctx slot [x] none fun m c => ampMap c m := by
  unfold State.ampFinish
  cases s.todoOf x.2.1 x.2.2.id <;> cases cmd <;> rfl

/-- A command that leaves its amplitudes to no engine is over as it begins. -/
theorem ampBegin_over {u : State} (hn : ∀ ofs q, cmd ≠ .norm ofs q) (h : t.ampRun ctx slot cmd m np dies group = .ok (u, none)) :
    t.ampBegin ctx slot cmd m np dies group = u.ampEnd ctx slot group none fun m c => ampMap c m := by
  cases cmd with
  | norm ofs q => exact absurd rfl (hn ofs q)
  | _ => simp only [State.ampBegin, h]

theorem ampBegin_shares {u : State} {new : List (List DWord)} (hn : ∀ ofs q, cmd ≠ .norm ofs q)
    (h : t.ampRun ctx slot cmd m np dies group = .ok (u, some new)) :
    t.ampBegin ctx slot cmd m np dies group = u.ampShare new group := by
  cases cmd with
  | norm ofs q => exact absurd rfl (hn ofs q)
  | _ => simp only [State.ampBegin, h]

end

/-! ## AMP_MATCH_TIMEOUT and AMP_EXCHANGE_TIMEOUT -/

section
variable {s : State} {die ctx slot key sl nth iss np : Nat} {o : CPend} {cmd : AmpCmd} {dies : List Nat}

/-- The oldest command of a slot at a die is found by its number. -/
theorem ampOp_of_ampHead {mt : Bool} (hhead : s.ampHead die ctx slot = some (key, o)) (hk : o.kind = .amp sl cmd nth iss mt dies np) :
    s.ampOp die ctx slot nth = some (key, o) := by
  obtain ⟨k, -, hfind⟩ := List.exists_of_findSome?_eq_some hhead
  split at hfind
  · obtain ⟨y, hy, he⟩ := Option.map_eq_some_iff.1 hfind
    cases he
    have hn := List.find?_some hy
    simp only [hk, Bool.and_eq_true, decide_eq_true_eq] at hn
    rw [hn.2.2]
    exact hhead
  · contradiction

/-- A command of one package is late once the timeout has passed since an issue of it, while some die has not issued it. -/
theorem ampLate_of_issue (m : BitVec 512) {y : Nat × CPend} (hdie : die ∈ dies) (hop : s.ampOp die ctx slot nth = some y)
    (hlate : y.2.kind.since + Config.ampTimeout < s.meridian)
    (hopen : (dies.filterMap fun d => s.ampOp d ctx slot nth).length ≠ dies.length) : s.ampLate ctx slot nth m dies 0 = true := by
  have hmem : (die, y.1, y.2) ∈ s.ampIssued ctx slot nth dies := List.mem_filterMap.2 ⟨die, hdie, by rw [hop]; rfl⟩
  have hfirst : (s.ampIssued ctx slot nth dies).foldl (fun t x => min t x.2.2.kind.since) s.meridian ≤ y.2.kind.since :=
    (foldl_min_le (fun x : Nat × Nat × CPend => x.2.2.kind.since) (s.ampIssued ctx slot nth dies) s.meridian).2 _ hmem
  have hlen : (s.ampIssued ctx slot nth dies).length = (dies.filterMap fun d => s.ampOp d ctx slot nth).length := by
    simp only [State.ampIssued, List.length_filterMap_eq_countP, Option.isSome_map]
  have hlt : (s.ampIssued ctx slot nth dies).length < dies.length :=
    hlen ▸ Nat.lt_of_le_of_ne (List.length_filterMap_le _ _) hopen
  simp only [State.ampLate, State.ampTimeout, hlt, if_true, decide_true, Bool.or_true, Bool.true_and, decide_eq_true_eq]
  omega

theorem ampPast_of_issue (hhead : s.ampHead die ctx slot = some (key, o)) (hk : o.kind = .amp sl cmd nth iss false dies np)
    (hdie : dies.contains die = true) (hnp : np = 0) (hlate : iss + 4294967296 < s.meridian)
    (hopen : (dies.filterMap fun d => s.ampOp d ctx slot nth).length ≠ dies.length) : ampPast s die ctx slot o = true := by
  subst hnp
  have hl := ampLate_of_issue (s.ampRecord die ctx slot nth cmd) (List.contains_iff_mem.1 hdie) (ampOp_of_ampHead hhead hk)
    (by rw [hk]; exact hlate) hopen
  simp only [ampPast, hk, hl, Bool.or_true]

theorem exec_ampMatchTimeout (die ctx slot : Nat) (s : State) :
    exec (.ampMatchTimeout die ctx slot) s = execAmpMatchTimeout die ctx slot s := rfl

theorem happens_ampMatchTimeout {mt : Bool} (hr : s.relocking die = false)
    (ho : (s.ampOpen die ctx slot).find? (fun y => ampPast s die ctx slot y.2) = some (key, o))
    (hk : o.kind = .amp sl cmd nth iss mt dies np) : Happens (.ampMatchTimeout die ctx slot) s
      (if nth < (s.amp die ctx slot).performed || (s.amp die ctx slot).dead.contains nth then
        s.ampEnd ctx slot [(die, key, o)] (some 2) fun m _ => m else s.ampExpire ctx slot nth dies) := by
  refine happens_of_eventOn (exec_ampMatchTimeout die ctx slot s) hr ?_
  dsimp only
  split
  next heq => exact absurd (ho.symm.trans heq) nofun
  next y heq =>
    obtain rfl : (key, o) = y := Option.some.inj (ho.symm.trans heq)
    rw [hk]

theorem exec_ampExchangeTimeout (die ctx slot : Nat) (more : Bool) (s : State) :
    exec (.ampExchangeTimeout die ctx slot more) s = execAmpExchangeTimeout die ctx slot more s := rfl

/-- A running value stays before a bound when each of its steps keeps it there. -/
theorem foldl_add_lt {α : Type} {f : Nat → α → Nat} {l : List α} {n k b : Nat} (hn : n + k < b)
    (hf : ∀ t, t + k < b → ∀ y ∈ l, f t y + k < b) : l.foldl f n + k < b :=
  List.foldlRecOn (motive := fun t => t + k < b) l f hn hf

/-- An exchange none of whose engines has moved data since the timeout fails at the die. -/
theorem happens_ampExchangeTimeout (hhead : s.ampHead die ctx slot = some (key, o)) (hk : o.kind = .amp sl cmd nth iss true dies np)
    (hr : s.relocking die = false)
    (hex : ampPartners cmd (s.amp die ctx slot).map (dies.idxOf die) ≠ [] ∨ ampAbroad cmd (s.amp die ctx slot).map np = true)
    (hown : iss + s.ampTimeout ctx (s.amp die ctx slot).map np < s.meridian)
    (hpartners : ∀ y ∈ ampDepends s ctx slot nth die cmd (s.amp die ctx slot).map dies,
      (ampPartners cmd (s.amp die ctx slot).map (dies.idxOf die)).contains (dies.idxOf y.1) = true →
      ∀ a c n t b ds p, y.2.2.kind = .amp a c n t b ds p → t + s.ampTimeout ctx (s.amp die ctx slot).map np < s.meridian) :
    Happens (.ampExchangeTimeout die ctx slot false) s (s.ampEnd ctx slot [(die, key, o)] (some 2) fun m _ => m) := by
  have hexchanges : ¬((ampPartners cmd (s.amp die ctx slot).map (dies.idxOf die)).isEmpty &&
      !ampAbroad cmd (s.amp die ctx slot).map np) = true := by
    simpa [List.isEmpty_iff, imp_iff_not_or] using hex
  refine happens_of_eventOn (exec_ampExchangeTimeout die ctx slot false s) hr ?_
  dsimp only
  rw [hhead]
  dsimp only
  rw [hk]
  refine (if_neg hexchanges).trans ((if_neg (Nat.not_le.2 (foldl_add_lt hown fun t ht y hy => ?_))).trans rfl)
  split
  next a c n i b ds p hy' =>
    split
    next hc => exact (max_add t i _).trans_lt (max_lt ht (hpartners y hy hc a c n i b ds p hy'))
    · exact ht
  · exact ht

end

/-- What happens, in another form. -/
theorem Happens.of_eq {i : Instr} {s t u : State} (h : Happens i s t) (he : t = u) : Happens i s u := he ▸ h

theorem ampEvents : AmplitudeEvents := by
  unfold AmplitudeEvents
  intro s die ctx slot key o sl cmd nth iss mt dies np hhead hk
  refine ⟨?_, ?_, ?_, ?_, ?_⟩
  · rintro xs hr rfl hxs hall t ys
    have h := happens_ampMatch hhead hk hr hxs hall
    exact ⟨fun hn => h.of_eq (ampMatched_of_not_same hn), fun hsame => h.of_eq (ampMatched_of_same hsame)⟩
  · intro t o' cmd' hr hwait ht ho hk' m v group shares more hrej hmt hstop
    have h := happens_ampTurn hhead hk hr hwait ht ho hk' hrej hmt hstop
    have hid : o'.id = o.id := id_of_copOf ho
    have hmore : ∀ u, ampGoesOn ctx slot nth cmd' m np dies (die, key, o') group u = more u := fun u => by
      rw [ampGoesOn, hid]
    refine ⟨fun ha hcut => h.of_eq (ampTurn_of_cut ha hcut), fun hcut => ⟨?_, ?_, ?_, ?_, ?_⟩⟩
    · intro htodo hfree
      exact h.of_eq ((ampTurn_of_todo hcut htodo).trans (if_neg (ne_true_of_eq_false hfree)))
    · intro htodo hfree y
      have hgo := h.of_eq ((ampTurn_of_todo hcut htodo).trans (if_pos hfree))
      exact ⟨fun e he => hgo.of_eq (ampGo_of_error he), fun hy => hgo.of_eq ((ampGo_of_moved hy).trans (ampFinish_eq _))⟩
    · intro e htodo he
      exact h.of_eq (ampTurn_of_error hcut htodo he)
    · intro htodo he hlen hnone hstopped
      exact h.of_eq (ampTurn_of_stopped hcut htodo he hlen hnone hstopped)
    · intro htodo he hlen hnone hstopped hports
      have hbegin := h.of_eq (ampTurn_of_begins hcut htodo he hlen hnone hstopped hports)
      refine ⟨fun u hn hu => ?_, fun u new hn hu => ?_, ?_⟩
      · exact hbegin.of_eq ((congrArg _ (ampBegin_over hn hu)).trans (hmore _))
      · exact hbegin.of_eq ((congrArg _ (ampBegin_shares hn hu)).trans (hmore _))
      · rintro ofs q rfl
        exact hbegin.of_eq (hmore _)
  · rintro rfl hdie hnp hlate hopen
    exact ampPast_of_issue hhead hk hdie hnp hlate hopen
  · intro k y sl' cmd' n i ds np' hr hy hky
    have h := happens_ampMatchTimeout hr hy hky
    refine ⟨fun hpast => h.of_eq (if_pos (by simpa using hpast)), fun hp hd => h.of_eq (if_neg ?_)⟩
    simpa [Nat.not_lt.2 hp] using hd
  · rintro rfl hr m v group hex hown hpartners
    exact happens_ampExchangeTimeout hhead hk hr hex hown hpartners

end Sys2Proof.Machine

/-! The events of the collective and amplitude engines (spec/10 R180-R188). -/
namespace Sys2Proof.Machine

theorem signalRanks_eq (t : State) (m : Comm) (x : BitVec 256) :
    (if extOp x = 0 then ((m.members x).filter fun k => (m.place k).1 = t.pkgId).length else 1) = signalRanks t m x := rfl

/-- Settles O49: each event is taken apart into the turn that it makes of the operation that it finds. -/
theorem engineEvents : Obligations.EngineEvents := by
  unfold Obligations.EngineEvents
  refine ⟨?_, ?_, ?_, ?_, ?_, ?_, ampEvents⟩
  · intro s crew o slot r disp dd x nth iss hr hc ho hk hheld hrej
    have h := happens_collTurn hr hc ho hk hheld hrej
    refine ⟨fun m ha hm hop => ?_, fun m ha hm hop => ?_, fun ha hp hs => ?_, ?_, fun ha hm => ?_⟩
    · exact h.of_eq ((collTurn_of_comm ha hm).trans (if_pos hop))
    · exact h.of_eq ((collTurn_of_comm ha hm).trans (if_neg hop))
    · have hsig : o.signalled = true := (signalled_eq hk).trans (decide_eq_true hs)
      exact h.of_eq ((collTurn_of_applied ha).trans (collDone_of_signalled hp hsig))
    · intro m ha hp hs hm z
      have hsig : o.signalled = false := (signalled_eq hk).trans (decide_eq_false (Nat.not_lt.2 hs))
      have hdone := h.of_eq ((collTurn_of_applied ha).trans (collDone_of_unsignalled hp hsig hm))
      refine ⟨fun hz => hdone.of_eq (if_pos hz), fun hz hx => hdone.of_eq ((if_neg hz).trans (if_pos hx)), fun t w hz hx hw => ?_⟩
      refine hdone.of_eq ((if_neg hz).trans ((if_neg hx).trans ?_))
      rw [← signalRanks_eq, show (farMeets s m x).2 = z.2 from rfl, hw]
    · exact h.of_eq (collTurn_of_no_comm ha hm)
  · intro s crew o slot r disp dd x nth iss m hr hk hm peers
    refine ⟨collTimedOut_put hk hm, fun hd ha hop hopen => ?_, fun ho => ?_⟩
    · rintro ⟨y, hy, a, b, c, d, e, n, i, hky, hlate⟩
      exact collTimedOut_reduce hk hm hd ha hop (collLate_of_issue hy hopen (by rw [hky]; exact hlate))
    · have h := happens_collTimeout hr hk hm ho
      exact ⟨fun hop => h.of_eq (by rw [if_pos hop]; rfl), fun hop => h.of_eq (by rw [if_neg hop]; rfl)⟩
  · intro s k cause steps acts h hh hst hcause hready hr hheld ends
    have hturn := happens_schedTurn (steps := steps) (acts := acts) hh hst hcause hready hr hheld
    have hends : ∀ t c, t.schedEnd k h c steps = ends t c := fun t c => rfl
    refine ⟨fun t ht => ?_, fun t ht => ?_, fun t c ht => ?_, fun t va e ht => ?_⟩
    · exact hturn.of_eq (by rw [ht]; exact hends t cause)
    · exact hturn.of_eq (by rw [ht]; rfl)
    · exact hturn.of_eq (by rw [ht]; exact hends t c)
    · exact hturn.of_eq (by rw [ht]; rfl)
  · intro s k h va b pa a hcls htr hcut hheld
    exact ⟨_, schedActs_write hcls htr hcut hheld, read_schedPut ..⟩
  · intro s crew o hr ho
    refine (happens_linkLost_op hr ho).of_eq ?_
    unfold linkLostOp
    cases o.kind <;> rfl
  · intro s crew hr ho
    have h := happens_linkLost_mem hr ho
    refine ⟨fun m hm => ?_, fun m hs hl => ?_, fun q hs hl hq hmem => ?_⟩
    · exact h.of_eq (by rw [hm]; rfl)
    · exact h.of_eq (by rw [hs, hl]; rfl)
    · exact h.of_eq (by rw [hs, hl, hq]; exact if_pos hmem)

end Sys2Proof.Machine

/-! ## Memory reads back what was written -/

namespace Sys2Proof.Machine

/-- Settles O8, from the laws of `Memory.writeBytes`. -/
theorem memoryWriteRead : Obligations.MemoryWriteRead := fun m a bs h =>
  ⟨Memory.wf_writeBytes a bs h, Memory.readBytes_writeBytes m a bs, fun x hx => Memory.read_writeBytes_out m a x bs hx⟩

end Sys2Proof.Machine

/-! The canonical form of memory (spec/12 R201): what it is that every operation keeps it, and operations that leave memory as it is. -/

namespace Sys2Proof.Machine

/-! ## What it is to keep memory in its canonical form -/

/-- Memory is in its canonical form. -/
@[simp] abbrev State.MemWf (s : State) : Prop := Memory.wf s.mem = true

/-- Every state that an issue may leave has memory in its canonical form. -/
@[simp] def Issue.MemWf : Issue → Prop
  | .done t | .jump t | .wait _ t | .trapAt t _ => t.MemWf
  | .trap _ => True

/-- The next state, where there is one, has memory in its canonical form. -/
@[simp] def NextMemWf : Host.Outcome State Fault Refusal → Prop
  | .next t => t.MemWf
  | .fault _ | .refused _ => True

theorem ite_mem {p : Prop} [Decidable p] {s t : State} {m : Memory} (hs : s.mem = m) (ht : t.mem = m) :
    (if p then s else t).mem = m := by
  split
  · exact hs
  · exact ht

theorem ite_state_memWf {p : Prop} [Decidable p] {s t : State} (hs : s.MemWf) (ht : t.MemWf) : (if p then s else t).MemWf := by
  split
  · exact hs
  · exact ht

theorem ite_memWf {p : Prop} [Decidable p] {x y : Issue} (hx : x.MemWf) (hy : y.MemWf) : (if p then x else y).MemWf := by
  split
  · exact hx
  · exact hy

/-- Whatever stands after a look at a fence has memory in its canonical form. -/
@[simp] def Passage.MemWf : Passage → Prop
  | .pass t | .wait t => t.MemWf

/-- Whatever stands after the judgement of an access has memory in its canonical form. -/
@[simp] def Access.MemWf : Access → Prop
  | .ok _ t | .walk t | .rejected t => t.MemWf
  | .fault _ => True

/-! ## Operations that leave memory as it is -/

@[simp] theorem free_mem (s : State) : s.free.2.mem = s.mem := rfl
@[simp] theorem readCtx_mem (s : State) (ctx : Nat) : (s.readCtx ctx).mem = s.mem := rfl

@[simp] theorem miss_mem (s : State) (ctx who core va : Nat) (need : Need) : (s.miss ctx who core va need).2.mem = s.mem := by
  unfold State.miss
  dsimp only
  repeat' split
  all_goals rfl

@[simp] theorem translate_mem (s : State) (key : Nat) (need : Need) (va : Nat) : (s.translate key need va).2.mem = s.mem := by
  unfold State.translate
  dsimp only
  repeat' split
  all_goals simp

@[simp] theorem keepFault_mem (s : State) (key : Nat) (r : Report) : (s.keepFault key r).mem = s.mem := by
  simp [State.keepFault]

@[simp] theorem barpCheck_mem (s : State) (party : Nat) : (s.barpCheck party).mem = s.mem :=
  (spares_barpCheck 0 s party).mem

@[simp] theorem barcCheck_mem (s : State) (task : Nat) : (s.barcCheck task).mem = s.mem :=
  (spares_barcCheck 0 s task).mem

@[simp] theorem linkArrives_mem (s : State) (key : Nat) (p : Party) (id : Nat) : (s.linkArrives key p id).mem = s.mem := by
  unfold State.linkArrives
  dsimp only
  split <;> simp

@[simp] theorem addPed_mem (s : State) (launch : Nat) (st : Strand) (owner : Option Nat) : (s.addPed launch st owner).mem = s.mem := rfl

@[simp] theorem handleOf_mem (s : State) (launch : Nat) (st : Strand) (owner : Option Nat) :
    (s.handleOf launch st owner).2.mem = s.mem := by
  unfold State.handleOf
  split <;> rfl

@[simp] theorem beginStrand_mem (s : State) (task : Nat) (ped : BitVec 512) : (s.beginStrand task ped).mem = s.mem := by
  unfold State.beginStrand
  dsimp only
  split <;> rfl

@[simp] theorem sweepPeds_mem (s : State) : s.sweepPeds.mem = s.mem := rfl
@[simp] theorem rewritePeds_mem (s : State) (children : List Nat) (task : Nat) (ped : BitVec 512) :
    (s.rewritePeds children task ped).mem = s.mem := rfl

theorem checkSector_mem {s u : State} {launch task : Nat} {root : Word} {ped : BitVec 512} {sector : Nat} {b : Word}
    (hu : s.checkSector launch task root ped sector b = .ok u) : u.mem = s.mem := by
  unfold State.checkSector at hu
  dsimp only at hu
  repeat' split at hu
  all_goals cases hu
  all_goals simp

theorem checkStore_mem {s u : State} {launch task : Nat} {root : Word} {ped : BitVec 512} {sectors : Tbl Word}
    (hu : s.checkStore launch task root ped sectors = .ok u) : u.mem = s.mem := by
  induction sectors generalizing s with
  | nil => cases hu; rfl
  | cons x rest ih =>
    unfold State.checkStore at hu
    split at hu
    · cases hu
    · rename_i t ht
      exact (ih hu).trans (checkSector_mem ht)

theorem contribute_mem {s u : State} {key va : Nat} {x : Contribution} (hu : s.contribute key va x = some u) : u.mem = s.mem := by
  unfold State.contribute at hu
  dsimp only at hu
  split at hu
  · cases hu
  · obtain ⟨v, -, rfl⟩ := Option.map_eq_some_iff.1 hu
    rfl

theorem contributeAll_mem {s u : State} {key : Nat} {x : Nat → Contribution} {lanes : List (Nat × Nat)}
    (hu : s.contributeAll key x lanes = .ok u) : u.mem = s.mem := by
  induction lanes generalizing s with
  | nil => cases hu; rfl
  | cons y rest ih =>
    unfold State.contributeAll at hu
    split at hu
    · cases hu
    · rename_i t ht
      exact (ih hu).trans (contribute_mem ht)

@[simp] theorem mergeChild_mem (s : State) (task child : Nat) : (s.mergeChild task child).mem = s.mem := by
  unfold State.mergeChild
  refine foldl_mem _ (fun s x => ?_) _ _
  repeat' split
  all_goals rfl

@[simp] theorem rejectOn_mem (s : State) (core who : Nat) : (s.rejectOn core who).mem = s.mem := rfl
@[simp] theorem reject_mem (s : State) (key : Nat) : (s.reject key).mem = s.mem := rfl

/-- The state that a translation answers with. -/
theorem mem_of_translate {s t : State} {key va : Nat} {need : Need} {x : Tr} (h : s.translate key need va = (x, t)) :
    t.mem = s.mem := by
  rw [← translate_mem s key need va, h]

@[simp] theorem judge_mem (s : State) (key : Nat) (need : Need) (align : Nat) (addrs : List (Nat × DWord)) :
    (s.judge key need align addrs).2.mem = s.mem := by
  induction addrs generalizing s with
  | nil => rfl
  | cons x rest ih =>
    unfold State.judge
    dsimp only
    rw [ih]
    split
    · rfl
    · split <;> exact mem_of_translate ‹_›

theorem accessAs_wf {s : State} {who key align : Nat} {need : Need} {addrs : List (Nat × DWord)} {x : Access} (h : s.MemWf)
    (hx : s.accessAs who key need align addrs = x) : x.MemWf := by
  subst hx
  unfold State.accessAs
  dsimp only
  repeat' split
  all_goals simp [h]

theorem access_wf {s : State} {key align : Nat} {need : Need} {addrs : List (Nat × DWord)} {x : Access} (h : s.MemWf)
    (hx : s.access key need align addrs = x) : x.MemWf := accessAs_wf h hx

/-! ## The frames of instructions -/

theorem issue_wf {i : Instr} {s : State} {body : State → Nat → Crew → Issue} (h : s.MemWf)
    (hb : ∀ (u : State) (key : Nat) (c : Crew), u.MemWf → (body u key c).MemWf) : NextMemWf (issue i s body) := by
  unfold issue
  split
  · trivial
  · rename_i key hk
    dsimp only
    split
    · simpa using h
    · split
      · simpa using h
      · split
        · split <;> simpa using h
        · have hu := hb (s.entered key (Instr.hints i)) key ((s.entered key (Instr.hints i)).crew key) (by simpa using h)
          split
          · simpa [‹body _ _ _ = _›] using hu
          · simpa [‹body _ _ _ = _›] using hu
          · simpa [‹body _ _ _ = _›] using hu
          · simpa using h
          · split
            · simpa using h
            · simpa [‹body _ _ _ = _›] using hu

end Sys2Proof.Machine

/-! The frames of instructions and events, and the caches, keep the canonical form. -/

namespace Sys2Proof.Machine

theorem once_wf {i : Instr} {f : Ctl} {s : State} {body : State → Nat → Crew → Issue} (h : s.MemWf)
    (hb : ∀ (u : State) (key : Nat) (c : Crew), u.MemWf → (body u key c).MemWf) : NextMemWf (once i f s body) := by
  exact issue_wf h fun u key c hu => ite_memWf hu (hb u key c hu)

theorem lanewise_wf {i : Instr} {f : Ctl} {wide : Bool} {d : Operand} {s : State} {val : State → Nat → Crew → Nat → DWord}
    (h : s.MemWf) : NextMemWf (lanewise i f wide d s val) :=
  issue_wf h fun _ _ _ hu => hu

theorem uniform_wf {i : Instr} {f : Ctl} {wide : Bool} {d : Operand} {s : State} {val : State → Nat → Crew → List Nat → DWord}
    (h : s.MemWf) : NextMemWf (uniform i f wide d s val) :=
  issue_wf h fun _ _ _ hu => hu

theorem held?_wf {s : State} {key : Nat} {d : Option Nat} {go : Issue} (h : s.MemWf) (hg : go.MemWf) :
    (held? s key d go).MemWf := by
  unfold held?
  split
  · simpa using h
  · exact hg

theorem held_wf {s : State} {key : Nat} {need : Need} {align : Nat} {addrs : List (Nat × DWord)}
    {body : List LaneAcc → State → Issue} (h : s.MemWf) (hb : ∀ lanes (t : State), t.MemWf → (body lanes t).MemWf) :
    (held s key need align addrs body).MemWf := by
  unfold held
  split
  case h_1 lanes t ht => exact hb lanes t (access_wf h ht)
  case h_2 t ht => exact access_wf h ht
  case h_3 t ht => exact access_wf h ht
  case h_4 => trivial

/-! ## The frames of events -/

theorem event_wf {s : State} {g : State → State} (h : (g s).MemWf) : NextMemWf (event s g) := by simpa [event] using h

theorem eventHost_wf {s : State} {g : State → State} (h : s.MemWf) (hg : ∀ t : State, t.MemWf → (g t).MemWf) :
    NextMemWf (eventHost s g) := by
  unfold eventHost
  split
  · exact event_wf (hg s h)
  · exact h

theorem eventOn_wf {die : Nat} {s : State} {g : State → State} (h : s.MemWf) (hg : ∀ t : State, t.MemWf → (g t).MemWf) :
    NextMemWf (eventOn die s g) := by
  unfold eventOn
  split
  · exact h
  · exact event_wf (hg s h)

theorem eventOf_wf {key : Nat} {s : State} {g : State → State} (h : s.MemWf) (hg : ∀ t : State, t.MemWf → (g t).MemWf) :
    NextMemWf (eventOf key s g) := eventOn_wf h hg

theorem engineEvent_wf {key : Nat} {s : State} {g : State → State} (h : s.MemWf)
    (hg : ∀ t : State, t.MemWf → (g t).MemWf) : NextMemWf (engineEvent key s g) := by
  refine eventOf_wf h fun t ht => ?_
  split
  · exact ht
  · exact hg t ht

theorem onService_wf {svc : Nat} {s : State} {g : State → State} (h : s.MemWf)
    (hg : ∀ t : State, t.MemWf → (g t).MemWf) : NextMemWf (onService svc s g) := by
  unfold onService
  split
  · exact eventOn_wf h hg
  · exact event_wf (hg s h)

/-! ## The caches write lines back, and read -/

/-- A fold that carries a state and a value keeps the canonical form when its steps do. -/
theorem foldl_fst_wf {β γ : Type} (g : State × γ → β → State × γ)
    (hg : ∀ acc x, acc.1.MemWf → (g acc x).1.MemWf) (l : List β) (acc : State × γ) (h : acc.1.MemWf) :
    (l.foldl g acc).1.MemWf := by
  induction l generalizing acc with
  | nil => exact h
  | cons x l ih => exact ih _ (hg acc x h)

@[simp] theorem writeBackKept_wf {s : State} {d ln : Nat} (h : s.MemWf) : (s.writeBackKept d ln).1.MemWf := by
  simpa [State.writeBackKept] using writeBack_wf d ln h

@[simp] theorem releaseCore_wf {s : State} {core : Nat} (h : s.MemWf) : (s.releaseCore core).1.MemWf :=
  foldl_fst_wf _ (fun _ _ ha => by exact writeBackKept_wf ha) _ (s, _) h

@[simp] theorem readL2_wf {s : State} {d ln : Nat} {a : Attr} (h : s.MemWf) : (s.readL2 d a ln).2.MemWf := by
  unfold State.readL2
  dsimp only
  split
  · exact h
  · split
    · exact h
    · simp [roomL2_wf, h]

@[simp] theorem readLine_wf {s : State} {core ln : Nat} {a : Attr} {fr : Bool} {hint : Option (BitVec 2)} (h : s.MemWf) :
    (s.readLine core a fr hint ln).2.MemWf := by
  unfold State.readLine
  dsimp only
  repeat' split
  all_goals simp [h]

@[simp] theorem sample_wf {s : State} {core n : Nat} {fr : Bool} {hint : Option (BitVec 2)} {a : LaneAcc} (h : s.MemWf) :
    (s.sample core fr hint a n).2.MemWf := readLine_wf h

@[simp] theorem sampleAll_wf {s : State} {core : Nat} {ty : MemTy} {fr : Bool} {hint : Option (BitVec 2)} {d : Operand}
    {lanes : List LaneAcc} (h : s.MemWf) : (s.sampleAll core ty fr hint d lanes).2.2.MemWf := by
  induction lanes generalizing s with
  | nil => exact h
  | cons a rest ih => exact ih (sample_wf (n := MemTy.bytes ty) h)

@[simp] theorem load_wf {s : State} {key : Nat} {ty : MemTy} {fr : Bool} {hint : Option (BitVec 2)} {d : Operand}
    {lanes : List LaneAcc} (h : s.MemWf) : (s.load key ty fr hint d lanes).2.2.MemWf :=
  sampleAll_wf (by simpa using h)

@[simp] theorem storeLanes_wf {s : State} {core n : Nat} {sc : Scope} {val : Nat → Nat} {lanes : List LaneAcc} (h : s.MemWf) :
    (s.storeLanes core sc n val lanes).1.MemWf := by
  induction lanes generalizing s with
  | nil => exact h
  | cons a rest ih =>
    have hs := ih (storeLine_wf core a.attr sc a.pa (toBytesLE n (val a.lane)) h)
    unfold State.storeLanes
    dsimp only
    split <;> exact hs

@[simp] theorem flushLine_wf {s : State} {core : Nat} {sc : Scope} {inv : Bool} {a : LaneAcc} (h : s.MemWf) :
    (s.flushLine core sc inv a).1.MemWf := by
  unfold State.flushLine
  dsimp only
  repeat' split
  all_goals simp [h, replaceLine_wf]

theorem fence_wf {s : State} {key : Nat} {kind : Order} {sc : Scope} {x : Passage} (h : s.MemWf)
    (hx : s.fence key kind sc = x) : x.MemWf := by
  subst hx
  unfold State.fence
  dsimp only
  repeat' split
  all_goals simp [h]

theorem fenced_wf {s : State} {key : Nat} {kind : Order} {sc : Scope} {body : State → Issue} (h : s.MemWf)
    (hb : ∀ t : State, t.MemWf → (body t).MemWf) : (fenced s key kind sc body).MemWf := by
  unfold fenced
  split
  case h_1 t ht => exact fence_wf h ht
  case h_2 t ht => exact hb t (fence_wf h ht)

/-- An instruction that performs a fence first only if it releases. -/
theorem ite_fenced_wf {p : Prop} [Decidable p] {s : State} {key : Nat} {kind : Order} {sc : Scope} {body : State → Issue}
    (h : s.MemWf) (hb : ∀ t : State, t.MemWf → (body t).MemWf) :
    (if p then fenced s key kind sc body else body s).MemWf := by
  split
  · exact fenced_wf h hb
  · exact hb s h

end Sys2Proof.Machine

/-! Memory instructions, service crews and atomics keep the canonical form. -/

namespace Sys2Proof.Machine

/-! ## Loads, stores and what flushes them -/

theorem execLd_wf {s : State} (h : s.MemWf) {f d a ofs ty acq sc fr hv hd} :
    NextMemWf (execLd f d a ofs ty acq sc fr hv hd s) := by
  refine issue_wf h fun u key c hu => ?_
  dsimp only
  split
  · exact hu
  · split
    · trivial
    · exact access_wf hu ‹_›
    · split <;> simpa using access_wf hu ‹_›
    · have ht := access_wf hu ‹_›
      split
      · exact ht
      · exact held?_wf ht (by simpa using load_wf ht)

/-- What a store's check leaves, where a privileged agent makes none. -/
theorem checked_mem {p : Prop} [Decidable p] {s u : State} {launch task : Nat} {root : Word} {ped : BitVec 512}
    {sectors : Tbl Word} (hu : (if p then .ok s else s.checkStore launch task root ped sectors) = .ok u) : u.mem = s.mem := by
  split at hu
  · cases hu; rfl
  · exact checkStore_mem hu

theorem execSt_wf {s : State} (h : s.MemWf) {f a b ofs ty rel sc} : NextMemWf (execSt f a b ofs ty rel sc s) := by
  refine issue_wf h fun u key c hu => ?_
  dsimp only
  split
  · exact hu
  · split
    · exact hu
    · refine ite_fenced_wf hu fun v hv => ?_
      split
      · split
        · trivial
        · simpa [contributeAll_mem ‹_›] using hv
      · refine held_wf hv fun lanes t ht => ?_
        split
        · exact ht
        · refine held?_wf ht ?_
          split
          · trivial
          · simp [checked_mem ‹_›, ht]

theorem execPref_wf {s : State} (h : s.MemWf) {f a ofs l1} : NextMemWf (execPref f a ofs l1 s) := by
  refine issue_wf h fun u key c hu => foldl_wf _ (fun t l ht => ?_) _ _ hu
  dsimp only
  repeat' split
  all_goals simp [ht]

theorem execLds_wf {s : State} (h : s.MemWf) {f d a ofs ty peer} : NextMemWf (execLds f d a ofs ty peer s) := by
  refine issue_wf h fun u key c hu => ?_
  dsimp only [localLoad]
  repeat' split
  all_goals simp [hu]

theorem execSts_wf {s : State} (h : s.MemWf) {f a b ofs ty peer} : NextMemWf (execSts f a b ofs ty peer s) := by
  refine issue_wf h fun u key c hu => ?_
  dsimp only
  repeat' split
  any_goals simp [hu]
  exact foldl_wf _ (fun t x ht => by exact ht) _ _ hu

theorem execLdw_wf {s : State} (h : s.MemWf) {f d a ofs ty} : NextMemWf (execLdw f d a ofs ty s) := by
  refine issue_wf h fun u key c hu => ?_
  dsimp only [localLoad]
  repeat' split
  all_goals simp [hu]

theorem execLdr_wf {s : State} (h : s.MemWf) {f d a ofs} : NextMemWf (execLdr f d a ofs s) := by
  refine issue_wf h fun u key c hu => ?_
  dsimp only
  split
  · exact hu
  · refine held?_wf hu ?_
    split <;> simp [hu]

@[simp] theorem windowWrite_mem (s : State) (r : WindowReg) (x : Word) : (s.windowWrite r x).mem = s.mem := by
  simp [State.windowWrite]

theorem execStr_wf {s : State} (h : s.MemWf) {f a b ofs} : NextMemWf (execStr f a b ofs s) := by
  refine issue_wf h fun u key c hu => ?_
  dsimp only
  split
  · exact hu
  · refine held?_wf hu ?_
    split
    · trivial
    · simp only [Issue.MemWf, State.MemWf, State.modCrew_mem]
      rw [foldl_mem _ fun t x => ?_]
      · exact hu
      · split <;> simp

theorem execFence_wf {s : State} (h : s.MemWf) {f kind sc} : NextMemWf (execFence f kind sc s) :=
  once_wf h fun _ _ _ hu => fenced_wf hu fun _ ht => ht

theorem execIinv_wf {s : State} (h : s.MemWf) {f sc} : NextMemWf (execIinv f sc s) :=
  once_wf h fun _ _ _ hu => held?_wf hu hu

theorem execCflush_wf {s : State} (h : s.MemWf) {f a ofs sc inv} : NextMemWf (execCflush f a ofs sc inv s) := by
  refine issue_wf h fun u key c hu => ?_
  dsimp only
  split
  · exact hu
  · refine held_wf hu fun lanes t ht => held?_wf ht ?_
    simp only [Issue.MemWf, State.MemWf, State.modCrew_mem]
    exact foldl_fst_wf _ (fun _ _ ha => by exact flushLine_wf ha) _ (_, _) (by simpa using ht)

theorem execWaitc_wf {s : State} (h : s.MemWf) {f l st cc t} : NextMemWf (execWaitc f l st cc t s) := by
  refine once_wf h fun u key c hu => ?_
  dsimp only
  repeat' split
  all_goals simp [hu]

@[simp] theorem resolveLoad_wf {s : State} {key : Nat} {m : MemPend} {q : LoadReq} (h : s.MemWf) :
    (s.resolveLoad key m q).MemWf := by
  unfold State.resolveLoad
  dsimp only
  split
  · exact accessAs_wf h ‹_›
  · exact accessAs_wf h ‹_›
  · repeat' split
    all_goals simp [h]
  · have ht := accessAs_wf h ‹_›
    split
    · exact ht
    · simpa using load_wf ht

theorem execLoadBind_wf {s : State} (h : s.MemWf) {crew idx} : NextMemWf (execLoadBind crew idx s) := by
  refine eventOf_wf h fun t ht => ?_
  repeat' split
  all_goals simp [ht]

theorem execStoreComplete_wf {s : State} (h : s.MemWf) {crew idx} : NextMemWf (execStoreComplete crew idx s) := by
  refine eventOf_wf h fun t ht => ?_
  dsimp only
  repeat' split
  all_goals simp [ht]

/-! ## Service crews -/

@[simp] theorem homePut_wf {s : State} {a : Attr} {pa : Nat} {bytes : List Byte} (h : s.MemWf) :
    (s.homePut a pa bytes).1.MemWf := Memory.wf_writeBytes _ _ h

@[simp] theorem homeClean_wf {s : State} {key : Nat} {a : Attr} {pa : Nat} (h : s.MemWf) : (s.homeClean key a pa).MemWf := by
  simp [State.homeClean, h]

@[simp] theorem signalFrom_wf {s : State} {key : Nat} {a : Attr} {pa : Nat} {v : DWord} (h : s.MemWf) :
    (s.signalFrom key a pa v).1.MemWf := by
  simpa [State.signalFrom] using signalPut_wf a pa v (homeClean_wf h)

theorem applyLane_wf {svc : Nat} {p : Packet} {x : Applied} {o : LaneOp} (h : x.s.MemWf) : (applyLane svc p x o).s.MemWf := by
  unfold applyLane
  dsimp only
  split
  · exact h
  · split
    · exact h
    · split <;> simpa using Memory.wf_writeBytes _ _ h

theorem foldl_applyLane_wf {svc : Nat} {p : Packet} (ops : List LaneOp) {x : Applied} (h : x.s.MemWf) :
    (ops.foldl (applyLane svc p) x).s.MemWf := by
  induction ops generalizing x with
  | nil => exact h
  | cons o ops ih => exact ih (applyLane_wf h)

theorem servePackets_wf {s : State} {svc n : Nat} {same : Option (Nat × Nat)} (h : s.MemWf) :
    (s.servePackets svc n same).MemWf := by
  induction n generalizing s same with
  | zero => exact h
  | succ n ih =>
    unfold State.servePackets
    split
    · exact h
    · dsimp only
      split
      · exact h
      · split
        · refine ih ?_
          rw [State.MemWf, answerPacket_mem]
          exact foldl_applyLane_wf _ (by simpa using h)
        · exact h

theorem execServiceCrewApply_wf {s : State} (h : s.MemWf) {svc} : NextMemWf (execServiceCrewApply svc s) :=
  onService_wf h fun _ ht => servePackets_wf ht

theorem execWaitAtHomeSatisfied_wf {s : State} (h : s.MemWf) {svc idx} : NextMemWf (execWaitAtHomeSatisfied svc idx s) := by
  refine onService_wf h fun t ht => ?_
  split <;> simpa using ht

/-! ## Requests to service crews -/

theorem sendPackets_mem {s u : State} {ps : List (Nat × Packet)} (hu : s.sendPackets ps = some u) : u.mem = s.mem := by
  unfold State.sendPackets at hu
  split at hu
  · cases hu; exact foldl_mem _ (fun _ _ => by rfl) _ _
  · cases hu

theorem noRoom_wf {s : State} {key : Nat} {ps : List (Nat × Packet)} (h : s.MemWf) : (s.noRoom key ps).MemWf := by
  unfold State.noRoom
  split <;> simpa using h

@[simp] theorem preAtomic_wf {s : State} {core : Nat} {lanes : List LaneAcc} (h : s.MemWf) : (s.preAtomic core lanes).MemWf :=
  foldl_wf _ (fun _ _ ht => flushLine_wf ht) _ _ h

theorem requested_wf {s : State} {key align : Nat} {addrs : List (Nat × DWord)} {body : List LaneAcc → State → Issue}
    (h : s.MemWf) (hb : ∀ lanes (t : State), t.MemWf → (body lanes t).MemWf) : (requested s key align addrs body).MemWf := by
  unfold requested
  split
  · exact h
  · exact held_wf h fun lanes t ht => held?_wf ht (hb lanes _ (preAtomic_wf (by simpa using ht)))

theorem request_wf {s : State} {key : Nat} {c : Crew} {q : Request} (h : s.MemWf) : (s.request key c q).MemWf := by
  refine requested_wf h fun lanes t ht => ?_
  dsimp only
  split
  · exact noRoom_wf ht
  · simp [sendPackets_mem ‹_›, ht]

theorem execAtom_wf {s : State} (h : s.MemWf) {f d a b op sem sc sz u} : NextMemWf (execAtom f d a b op sem sc sz u s) := by
  refine issue_wf h fun u key c hu => ?_
  dsimp only
  split
  · exact hu
  · exact ite_fenced_wf hu fun t ht => request_wf ht

theorem execAtoms_wf {s : State} (h : s.MemWf) {f d a b op peer sz u} : NextMemWf (execAtoms f d a b op peer sz u s) := by
  refine issue_wf h fun v key c hv => ?_
  dsimp only
  split
  · exact hv
  · split
    · exact hv
    · split
      · split <;> simp [hv]
      · split
        · trivial
        · simp only [Issue.MemWf, State.MemWf, State.modCrew_mem]
          refine foldl_fst_wf _ (fun acc x ha => ?_) _ (_, _) hv
          split <;> exact ha

theorem reduce_wf {s : State} {key : Nat} {c : Crew} {f : Ctl} {a b : Operand} {n : Nat} {sz rel : Bool} {sc : Scope} {op : MemOp}
    {x : DWord → Contribution} (h : s.MemWf) : (s.reduce key c f a b n sz rel sc op x).MemWf := by
  unfold State.reduce
  dsimp only
  split
  · exact h
  · refine ite_fenced_wf h fun t ht => ?_
    split
    · split
      · trivial
      · simpa [contributeAll_mem ‹_›] using ht
    · exact request_wf ht

theorem signalOp_wf {s : State} {key : Nat} {c : Crew} {f : Ctl} {sc : Scope} {va : DWord} {align skip : Nat} {op : MemOp}
    {b : DWord} {dst : Option Operand} {signal : Bool} (h : s.MemWf) :
    (s.signalOp key c f sc va align skip op b dst signal).MemWf := by
  unfold State.signalOp
  dsimp only
  split
  · exact h
  · split
    · simpa using h
    · split
      · trivial
      · exact fenced_wf h fun t ht => request_wf ht

theorem waitAtHome_wf {s : State} {key : Nat} {va : DWord} {cc : SigCond} {val : DWord} {w : Wait} {lane : Nat} (h : s.MemWf) :
    (s.waitAtHome key va cc val w lane).MemWf := by
  unfold State.waitAtHome
  dsimp only
  split
  · exact h
  · refine requested_wf h fun lanes t ht => ?_
    repeat' split
    any_goals simp [ht]
    exact held?_wf ht ht

theorem execSigwait_wf {s : State} (h : s.MemWf) {f d a b cc sc} : NextMemWf (execSigwait f d a b cc sc s) := by
  refine once_wf h fun u key c hu => ?_
  dsimp only
  repeat' split
  · trivial
  · trivial
  · exact fenced_wf hu fun t ht => by simpa using ht
  · exact waitAtHome_wf hu

theorem execTicket_wf {s : State} (h : s.MemWf) {f d a ex sc} : NextMemWf (execTicket f d a ex sc s) := by
  refine once_wf h fun u key c hu => ?_
  dsimp only
  split
  · trivial
  · split
    · simpa using hu
    · split
      · trivial
      · exact fenced_wf hu fun t ht => by simpa using ht
  · exact waitAtHome_wf hu
  · split
    · exact hu
    · refine requested_wf hu fun lanes t ht => ?_
      split
      · exact noRoom_wf ht
      · simp [sendPackets_mem ‹_›, ht]

/-! ## The events of the caches and of translation -/

theorem execReplacementWriteback_wf {s : State} (h : s.MemWf) {die line} : NextMemWf (execReplacementWriteback die line s) := by
  refine eventOn_wf h fun t ht => ?_
  dsimp only
  split
  · exact ht
  · exact replaceLine_wf _ _ ht

theorem execLeaseExpiry_wf {s : State} (h : s.MemWf) {die line} : NextMemWf (execLeaseExpiry die line s) := by
  refine event_wf ?_
  dsimp only
  repeat' split
  all_goals simp [h]

theorem execAccessRetry_wf {s : State} (h : s.MemWf) {core} : NextMemWf (execAccessRetry core s) := by
  refine eventOn_wf h fun t ht => ?_
  dsimp only
  repeat' split
  all_goals simp [ht]

theorem execPageWalkDone_wf {s : State} (h : s.MemWf) {die idx} : NextMemWf (execPageWalkDone die idx s) := by
  refine eventOn_wf h fun t ht => ?_
  dsimp only
  repeat' split
  any_goals simp [ht]
  exact foldl_wf _ (fun _ _ hv => by exact hv) _ _ ht

end Sys2Proof.Machine

/-! The copy engine keeps the canonical form. -/

namespace Sys2Proof.Machine

/-! ## Engines: what may stop -/

/-- What holds of the value of a computation that may stop, when it does not. -/
def OkHolds {ε α : Type} (P : α → Prop) : Except ε α → Prop
  | .ok a => P a
  | .error _ => True

theorem okHolds_pure {ε α : Type} {P : α → Prop} {a : α} : OkHolds P (pure a : Except ε α) ↔ P a := Iff.rfl

theorem OkHolds.of_eq {ε α : Type} {P : α → Prop} {x : Except ε α} {a : α} (h : OkHolds P x) (hx : x = .ok a) : P a := by
  rw [hx] at h; exact h

theorem OkHolds.bind {ε α β : Type} {P : α → Prop} {Q : β → Prop} {x : Except ε α} {g : α → Except ε β} (h : OkHolds P x)
    (hg : ∀ a, P a → OkHolds Q (g a)) : OkHolds Q (x >>= g) := by
  cases x with
  | error e => trivial
  | ok a => exact hg a h

/-- A check before a computation decides only whether it stops. -/
theorem okHolds_bind {ε α β : Type} {Q : β → Prop} {x : Except ε α} {g : α → Except ε β} (hg : ∀ a, OkHolds Q (g a)) :
    OkHolds Q (x >>= g) := by
  cases x with
  | error e => trivial
  | ok a => exact hg a

theorem engineRead_wf {s : State} {key : Nat} {l : List (Nat × Nat)} (h : s.MemWf) :
    OkHolds (fun x => x.2.MemWf) (s.engineRead key l) := by
  induction l generalizing s with
  | nil => exact h
  | cons x rest ih =>
    unfold State.engineRead
    refine okHolds_bind fun pa => okHolds_bind fun _ => ?_
    split
    · trivial
    · split
      · trivial
      · exact (ih (readL2_wf (by simpa using h))).bind fun y hy => hy

@[simp] theorem wrote_mem (s : State) (key : Nat) (w : Wrote) : (s.wrote key w).mem = s.mem := by simp [State.wrote]

theorem engineWrite_wf {s : State} {key : Nat} {sc : Scope} {l : List (Nat × Nat)} {bs : List Byte} (h : s.MemWf) :
    OkHolds (fun x => x.1.MemWf) (s.engineWrite key sc l bs) := by
  induction l generalizing s bs with
  | nil => exact h
  | cons x rest ih =>
    unfold State.engineWrite
    refine okHolds_bind fun pa => okHolds_bind fun _ => ?_
    dsimp only
    split
    · trivial
    · split
      · trivial
      · exact (ih (storeLine_wf _ _ _ _ _ (by simpa using h))).bind fun y hy => hy

theorem sideRead_wf {s : State} {key : Nat} {x : Side} {a n : Nat} (h : s.MemWf) :
    OkHolds (fun y => y.2.MemWf) (s.sideRead key x a n) := by
  unfold State.sideRead
  split
  · exact engineRead_wf h
  · exact h
  · exact okHolds_bind fun _ => okHolds_bind fun _ => h
  · split
    · trivial
    · exact okHolds_bind fun _ => h

theorem sideWrite_wf {s : State} {key : Nat} {x : Side} {sc : Scope} {a : Nat} {bs : List Byte} (h : s.MemWf) :
    OkHolds (fun y => y.1.MemWf) (s.sideWrite key x sc a bs) := by
  unfold State.sideWrite
  dsimp only
  split
  · exact engineWrite_wf h
  · refine foldl_wf _ (fun t y ht => ?_) _ _ h
    split <;> exact ht
  · refine okHolds_bind fun _ => foldl_wf _ (fun t y ht => ?_) _ _ h
    split <;> simpa using ht
  · split
    · trivial
    · exact h

/-! ## TSHAPE, TCOPY and the copy engine -/

theorem execTshape_wf {s : State} (h : s.MemWf) {f a b} : NextMemWf (execTshape f a b s) := by
  refine once_wf h fun u key c hu => ?_
  dsimp only
  repeat' split
  all_goals simp [hu]

theorem countedC_wf {i : Instr} {f : Ctl} {s : State} {body : State → Nat → Crew → Issue} (h : s.MemWf)
    (hb : ∀ (u : State) (key : Nat) (c : Crew), u.MemWf → (body u key c).MemWf) : NextMemWf (countedC i f s body) :=
  issue_wf h fun u key c hu => ite_memWf hu (ite_memWf (by simpa using hu) (hb u key c hu))

@[simp] theorem addCopy_mem (s : State) (key : Nat) (k : CKind) : (s.addCopy key k).mem = s.mem := by
  unfold State.addCopy
  split <;> simp

theorem execTcopy_wf {s : State} (h : s.MemWf) {f a b rf dd} : NextMemWf (execTcopy f a b rf dd s) := by
  refine countedC_wf h fun u key c hu => ?_
  dsimp only
  repeat' split
  all_goals simp [hu]

theorem writeRuns_wf {s : State} {key : Nat} {x : Side} {sc : Scope} {runs : List (Nat × List Byte)} (h : s.MemWf) :
    OkHolds (fun y => y.1.MemWf) (s.writeRuns key x sc runs) := by
  induction runs generalizing s with
  | nil => exact h
  | cons r rest ih => exact (sideWrite_wf h).bind fun y hy => (ih hy).bind fun z hz => hz

theorem unitWrite_wf {s : State} {key : Nat} {x : Side} {sc : Scope} {later : List (Nat × Nat)} {buf : List (Nat × Byte)} {a : Nat}
    {bs : List Byte} (h : s.MemWf) : OkHolds (fun y => y.1.MemWf) (s.unitWrite key x sc later buf a bs) := by
  unfold State.unitWrite
  split
  · exact (sideWrite_wf h).bind fun y hy => hy
  · exact (writeRuns_wf h).bind fun y hy => hy

theorem copyUnits_wf {key fmt k : Nat} {plan : CopyPlan} {sc : Scope} {units : List CopyUnit} {x : CopyRun} (h : x.s.MemWf) :
    (copyUnits key fmt plan sc k units x).s.MemWf := by
  induction k generalizing units x with
  | zero => exact h
  | succ k ih =>
    cases units with
    | nil => exact h
    | cons u rest =>
      unfold copyUnits
      split
      · exact h
      · split
        · exact h
        · split
          · exact h
          · have ht := (sideRead_wf h).of_eq ‹_›
            have hu := (unitWrite_wf ht).of_eq ‹_›
            exact ih (by simpa using hu)

theorem copyElem_wf {key fmt n : Nat} {plan : CopyPlan} {sc : Scope} {old : Bool} {i : Nat} {x : CopyRun} (h : x.s.MemWf) :
    (copyElem key fmt n plan sc old i x).s.MemWf := by
  unfold copyElem
  dsimp -zeta only
  extract_lets w g go
  have hgo {row : List Byte} {t : State} (ht : t.MemWf) : (go row t).s.MemWf := by
    dsimp only [go]
    split
    · exact h
    · have hu := (sideRead_wf ht).of_eq ‹_›
      split
      · exact h
      · simpa using (sideWrite_wf hu).of_eq ‹_›
  split
  · exact hgo h
  · split
    · exact h
    · exact hgo ((sideRead_wf h).of_eq ‹_›)

theorem copyMixed_wf {key fmt n fuel : Nat} {plan : CopyPlan} {sc : Scope} {part left : List Nat} {x closed : CopyRun}
    (h : x.s.MemWf) (hc : closed.s.MemWf) : (copyMixed key fmt n plan sc fuel part left x closed).s.MemWf := by
  induction fuel generalizing part left x closed with
  | zero => exact h
  | succ fuel ih =>
    unfold copyMixed
    dsimp only
    have hclosed {p : Prop} [Decidable p] (v : Option (List (Nat × DWord))) :
        (if p then { x with todo := v } else closed).s.MemWf := by
      split
      · exact h
      · exact hc
    split
    · exact h
    · split
      · exact h
      · split
        · exact hclosed _
        · exact ih (copyElem_wf h) (hclosed _)

theorem readRows_wf {s : State} {key : Nat} {x : Side} {n : Nat} {rows : List Nat} (h : s.MemWf) :
    OkHolds (fun y => y.2.MemWf) (s.readRows key x n rows) := by
  induction rows generalizing s with
  | nil => exact h
  | cons r rest ih => exact (sideRead_wf h).bind fun y hy => (ih hy).bind fun z hz => hz

theorem runMixed_wf {s : State} {key : Nat} {r : BitVec 512} {disp : DWord} {dd : Bool} {o : CPend} (h : s.MemWf) :
    (s.runMixed key r disp dd o).s.MemWf := by
  unfold State.runMixed
  dsimp only
  split
  · exact copyMixed_wf h h
  · split
    · exact h
    · have ht := (readRows_wf h).of_eq ‹_›
      exact copyMixed_wf ht ht

theorem runCopy_wf {s : State} {key : Nat} {r : BitVec 512} {disp : DWord} {dd : Bool} {o : CPend} {k : Nat} (h : s.MemWf) :
    (s.runCopy key r disp dd o k).s.MemWf := by
  unfold State.runCopy
  dsimp only
  split
  · exact runMixed_wf h
  · exact copyUnits_wf h

@[simp] theorem engineSteps_mem (s : State) (left : Nat) : (s.engineSteps left).2.mem = s.mem := by
  unfold State.engineSteps
  split <;> rfl

@[simp] theorem modC_mem (s : State) (key id : Nat) (g : CPend → CPend) : (s.modC key id g).mem = s.mem := by simp [State.modC]

/-- The state that a miss answers with. -/
theorem mem_of_miss {s t : State} {ctx who core va : Nat} {need : Need} {x : Tr} (h : s.miss ctx who core va need = (x, t)) :
    t.mem = s.mem := by
  rw [← miss_mem s ctx who core va need, h]

@[simp] theorem engineMiss_mem (s : State) (e : EngErr) : (s.engineMiss e).mem = s.mem := by
  unfold State.engineMiss
  split
  · dsimp only
    split
    · rw [rejectOn_mem]; exact mem_of_miss ‹_›
    · exact mem_of_miss ‹_›
  · rfl

@[simp] theorem endAsk_mem (s : State) (key : Nat) : (s.endAsk key).mem = s.mem := rfl

@[simp] theorem finishCopy_mem (s : State) (key : Nat) (o : CPend) : (s.finishCopy key o).mem = s.mem := by
  unfold State.finishCopy
  dsimp only
  split <;> simp

@[simp] theorem copyStep_mem (key : Nat) (o : CPend) (n : Nat) (x : CopyRun) : (copyStep key o n x).mem = x.s.mem := by
  unfold copyStep
  dsimp only
  split <;> simp

@[simp] theorem copyGivesUp_mem (key : Nat) (o : CPend) (n : Nat) (x : CopyRun) (rep : Report) :
    (copyGivesUp key o n x rep).mem = x.s.mem := by
  simp [copyGivesUp]

end Sys2Proof.Machine

/-! Tasks, reducers, barriers and rings keep the canonical form. -/

namespace Sys2Proof.Machine

/-! ## Spawn, join, arenas and reducers -/

theorem leadOnly_wf {i : Instr} {f : Ctl} {s : State} {body : State → Nat → Crew → Issue} (h : s.MemWf)
    (hb : ∀ (u : State) (key : Nat) (c : Crew), u.MemWf → (body u key c).MemWf) : NextMemWf (leadOnly i f s body) :=
  issue_wf h fun u key c hu => ite_memWf trivial (ite_memWf hu (hb u key c hu))

@[simp] theorem spillBytes_wf {s : State} {core ctx : Nat} {before after : Core} (h : s.MemWf) :
    (s.spillBytes core ctx before after).MemWf := by
  unfold State.spillBytes
  split
  · exact h
  · refine foldl_wf _ (fun t i ht => ?_) _ _ h
    dsimp only
    split
    · exact storeLine_wf _ _ _ _ _ ht
    · exact ht

@[simp] theorem setPed_mem (s : State) (key task : Nat) (p : BitVec 512) : (s.setPed key task p).mem = s.mem := by
  simp [State.setPed]

theorem spawn_wf {s : State} {key : Nat} {c : Crew} {entry : DWord} {sh : Nat} {size : Word} (h : s.MemWf) :
    (s.spawn key c entry sh size).MemWf := by
  unfold State.spawn
  refine ite_memWf trivial <| ite_memWf trivial <| ite_memWf trivial <| ite_memWf trivial <| fenced_wf h fun t ht => ?_
  refine ite_memWf (by simpa using ht) ?_
  dsimp only
  split <;> simp [ht]

theorem execSpawn_wf {s : State} (h : s.MemWf) {f b sh ofs} : NextMemWf (execSpawn f b sh ofs s) :=
  leadOnly_wf h fun _ _ _ hu => spawn_wf hu

theorem execSpawnr_wf {s : State} (h : s.MemWf) {f a b sh} : NextMemWf (execSpawnr f a b sh s) := by
  refine leadOnly_wf h fun u key c hu => ?_
  dsimp only
  split
  · trivial
  · exact spawn_wf hu

@[simp] theorem absorb_mem (s : State) (task : Nat) (ped : BitVec 512) : (s.absorb task ped).mem = s.mem := by
  simp only [State.absorb, State.modTask_mem, rewritePeds_mem]
  refine foldl_mem _ (fun t k => ?_) _ _
  split <;> simp

theorem execJoin_wf {s : State} (h : s.MemWf) {f} : NextMemWf (execJoin f s) := by
  refine leadOnly_wf h fun u key c hu => ?_
  dsimp only
  split
  · exact fenced_wf hu fun t ht => ht
  · split
    · trivial
    · split
      · exact hu
      · refine fenced_wf ?_ fun t ht => ht
        split <;> simpa using hu

theorem execAlloc_wf {s : State} (h : s.MemWf) {f d a} : NextMemWf (execAlloc f d a s) := by
  refine leadOnly_wf h fun u key c hu => ?_
  dsimp only
  split <;> simp [hu]

theorem execVdecl_wf {s : State} (h : s.MemWf) {f a b e kind} : NextMemWf (execVdecl f a b e kind s) := by
  refine leadOnly_wf h fun u key c hu => ?_
  dsimp only
  repeat' split
  all_goals simp [hu]

theorem execVptr_wf {s : State} (h : s.MemWf) {f d a} : NextMemWf (execVptr f d a s) := by
  refine once_wf h fun u key c hu => ?_
  dsimp only
  split <;> simp [hu]

@[simp] theorem storePieces_wf {s : State} {key : Nat} {sc : Scope} {lanes : List LaneAcc} {ps : List (Nat × Nat)} {bs : List Byte}
    (h : s.MemWf) : (s.storePieces key sc lanes ps bs).1.MemWf := by
  induction lanes generalizing s ps bs with
  | nil => exact h
  | cons a rest ih =>
    cases ps with
    | nil => exact h
    | cons p ps => exact ih (storeLine_wf _ _ _ _ _ (by simpa using h))

theorem execVfin_wf {s : State} (h : s.MemWf) {f a raw} : NextMemWf (execVfin f a raw s) := by
  refine issue_wf h fun u key c hu => ite_memWf trivial <| ite_memWf hu <| ite_memWf (by simpa using hu) ?_
  dsimp only
  split
  · trivial
  · refine ite_memWf trivial ?_
    split
    · trivial
    · refine ite_memWf hu ?_
      split
      · trivial
      · exact access_wf hu ‹_›
      · exact access_wf hu ‹_›
      · have ht := access_wf hu ‹_›
        exact ite_memWf ht (held?_wf ht (by simpa using storePieces_wf ht))

/-! ## Barriers and rings -/

theorem execBarp_wf {s : State} (h : s.MemWf) {f} : NextMemWf (execBarp f s) := by
  refine issue_wf h fun u key c hu => ?_
  extract_lets beyond
  have hbeyond {t : State} (ht : t.MemWf) : (beyond t).MemWf := ite_memWf (by simpa using ht) ht
  exact ite_memWf (hbeyond hu) (fenced_wf hu fun t ht => hbeyond (by simpa using ht))

theorem execBarc_wf {s : State} (h : s.MemWf) {f pk} : NextMemWf (execBarc f pk s) := by
  refine issue_wf h fun u key c hu => ?_
  extract_lets sc ti beyond
  have hbeyond {t : State} (ht : t.MemWf) : (beyond t).MemWf := ite_memWf (fenced_wf ht fun _ hv => hv) ht
  exact ite_memWf (hbeyond hu) (fenced_wf hu fun t ht => hbeyond (by simpa using ht))

theorem execArriveInit_wf {s : State} (h : s.MemWf) {f a b} : NextMemWf (execArriveInit f a b s) := by
  refine once_wf h fun u key c hu => ?_
  dsimp only
  repeat' split
  all_goals simp [hu]

theorem execArrive_wf {s : State} (h : s.MemWf) {f d a b} : NextMemWf (execArrive f d a b s) := by
  refine once_wf h fun u key c hu => ?_
  refine ite_memWf trivial <| ite_memWf trivial <| fenced_wf hu fun t ht => ?_
  dsimp only
  split
  · simp [apply_ite State.mem, ht]
  · trivial
  · trivial

theorem execAwait_wf {s : State} (h : s.MemWf) {f a b} : NextMemWf (execAwait f a b s) := by
  refine once_wf h fun u key c hu => ?_
  dsimp only
  repeat' split
  all_goals simp [hu]

@[simp] theorem setRing_mem (s : State) (party id : Nat) (g : Ring) : (s.setRing party id g).mem = s.mem := rfl

theorem execRingputGet_wf {s : State} (h : s.MemWf) {f d a} : NextMemWf (execRingputGet f d a s) := by
  refine once_wf h fun u key c hu => ?_
  dsimp only
  split
  · trivial
  · split <;> simp [hu]

theorem execRingputPub_wf {s : State} (h : s.MemWf) {f a b} : NextMemWf (execRingputPub f a b s) := by
  refine once_wf h fun u key c hu => fenced_wf hu fun t ht => ?_
  dsimp only
  split
  · trivial
  · split <;> simp [ht]

theorem execRingputInit_wf {s : State} (h : s.MemWf) {f a b} : NextMemWf (execRingputInit f a b s) := by
  refine once_wf h fun u key c hu => ?_
  dsimp only
  repeat' split
  all_goals simp [hu]

theorem execRinggetGet_wf {s : State} (h : s.MemWf) {f d a} : NextMemWf (execRinggetGet f d a s) := by
  refine once_wf h fun u key c hu => ?_
  dsimp only
  split
  · trivial
  · split <;> simp [hu]

theorem execRinggetRel_wf {s : State} (h : s.MemWf) {f a b} : NextMemWf (execRinggetRel f a b s) := by
  refine once_wf h fun u key c hu => fenced_wf hu fun t ht => ?_
  dsimp only
  split
  · trivial
  · split <;> simp [ht]

theorem execTrigger_wf {s : State} (h : s.MemWf) {f} : NextMemWf (execTrigger f s) := by
  refine leadOnly_wf h fun u key c hu => fenced_wf hu fun t ht => ?_
  dsimp only
  split <;> simpa using ht

end Sys2Proof.Machine

/-! Tile and octet operations keep the canonical form. -/

namespace Sys2Proof.Machine

/-! ## Tile operations -/

@[simp] theorem addT_mem (s : State) (key : Nat) (k : TKind) (arms : Bool) : (s.addT key k arms).mem = s.mem := mem_addT ..

theorem countedT_wf {i : Instr} {f : Ctl} {s : State} {body : State → Nat → Crew → Issue} (h : s.MemWf)
    (hb : ∀ (u : State) (key : Nat) (c : Crew), u.MemWf → (body u key c).MemWf) : NextMemWf (countedT i f s body) :=
  issue_wf h fun u key c hu => ite_memWf hu (ite_memWf (by simpa using hu) (hb u key c hu))

theorem product_wf {i : Instr} {f : Ctl} {a b : Operand} {e : Option Operand} {t : BitVec 5} {grad : Bool} {s : State}
    (h : s.MemWf) : NextMemWf (product i f a b e t grad s) := by
  refine countedT_wf h fun u key c hu => ?_
  dsimp only
  repeat' split
  all_goals simp [hu]

theorem execTzero_wf {s : State} (h : s.MemWf) {f t} : NextMemWf (execTzero f t s) :=
  countedT_wf h fun _ _ _ hu => ite_memWf trivial (by simpa using hu)

theorem execTadd_wf {s : State} (h : s.MemWf) {f t src} : NextMemWf (execTadd f t src s) :=
  countedT_wf h fun _ _ _ hu => ite_memWf trivial (ite_memWf trivial (by simpa using hu))

theorem execTload_wf {s : State} (h : s.MemWf) {f a b t} : NextMemWf (execTload f a b t s) := by
  refine countedT_wf h fun u key c hu => ?_
  dsimp only
  repeat' split
  all_goals simp [hu]

theorem execTdrain_wf {s : State} (h : s.MemWf) {f a b t clr hy} : NextMemWf (execTdrain f a b t clr hy s) := by
  refine countedT_wf h fun u key c hu => ?_
  dsimp only
  repeat' split
  all_goals simp [hu]

theorem execTdrainl_wf {s : State} (h : s.MemWf) {f a b e t hy} : NextMemWf (execTdrainl f a b e t hy s) := by
  refine countedT_wf h fun u key c hu => ?_
  dsimp only
  repeat' split
  all_goals simp [hu]

theorem execTlink_wf {s : State} (h : s.MemWf) {f a b} : NextMemWf (execTlink f a b s) :=
  once_wf h fun _ _ _ hu => ite_memWf trivial <| ite_memWf trivial <| ite_memWf trivial (by simpa using hu)

theorem execHistrd_wf {s : State} (h : s.MemWf) {f d a b} : NextMemWf (execHistrd f d a b s) :=
  once_wf h fun _ _ _ hu => ite_memWf trivial <| ite_memWf trivial (by simpa using hu)

theorem execHistclr_wf {s : State} (h : s.MemWf) {f a b} : NextMemWf (execHistclr f a b s) :=
  once_wf h fun _ _ _ hu => ite_memWf trivial <| ite_memWf trivial (by simpa using hu)

@[simp] theorem modT_mem (s : State) (key id : Nat) (g : TPend → TPend) : (s.modT key id g).mem = s.mem := by simp [State.modT]

@[simp] theorem finishT_mem (s : State) (key : Nat) (o : TPend) : (s.finishT key o).mem = s.mem := by
  unfold State.finishT
  dsimp only
  simp only [dropOps_mem, modT_mem]
  split
  · rfl
  · split <;> simp

@[simp] theorem abandonT_mem (s : State) (key : Nat) (o : TPend) (r : Report) : (s.abandonT key o r).mem = s.mem := by
  simp [State.abandonT]

@[simp] theorem trapT_mem (s : State) (key : Nat) (o : TPend) (k : TKind) (r : Report) : (s.trapT key o k r).mem = s.mem := by
  unfold State.trapT
  dsimp only
  split <;> simp

@[simp] theorem runProduct_mem (s : State) (key : Nat) (o : TPend) (a b : BitVec 512) (relief : Option DWord) (tile from_ : Nat) :
    (s.runProduct key o a b relief tile from_).mem = s.mem := by
  unfold State.runProduct
  dsimp only
  split
  · simp
  · split <;> simp

theorem loadUnits_wf {key : Nat} {fmt : Word} {r : BitVec 512} {tile : Nat} {units : List TileUnit} {x : TileRun} (h : x.s.MemWf) :
    (loadUnits key fmt r tile units x).s.MemWf := by
  induction units generalizing x with
  | nil => exact h
  | cons u rest ih =>
    unfold loadUnits
    dsimp only
    split
    · exact h
    · split
      · exact h
      · have ht := (sideRead_wf h).of_eq ‹_›
        refine ih ?_
        split <;> simpa using ht

theorem runLoad_wf {s : State} {key : Nat} {o : TPend} {r : BitVec 512} {disp : DWord} {tile : Nat} (h : s.MemWf) :
    (s.runLoad key o r disp tile).s.MemWf := loadUnits_wf h

theorem writeUnits_wf {key : Nat} {o : TPend} {r : BitVec 512} {tile : Nat} {clr : Bool} {scale : Nat → Nat → Num → Num}
    {units : List TileUnit} {x : TileRun} (h : x.s.MemWf) : (writeUnits key o r tile clr scale units x).s.MemWf := by
  induction units generalizing x with
  | nil => exact h
  | cons u rest ih =>
    unfold writeUnits
    dsimp only
    split
    · exact h
    · split
      · exact h
      · have ht := (sideWrite_wf h).of_eq ‹_›
        refine ih ?_
        simpa [apply_ite State.mem] using ht

@[simp] theorem drainPick_mem (s : State) (left : List TileUnit) : (s.drainPick left).2.mem = s.mem := rfl

@[simp] theorem histogram_mem (s : State) (key : Nat) (r : BitVec 512) (bits : List Nat) : (s.histogram key r bits).mem = s.mem := rfl

@[simp] theorem finishDrain_mem (s : State) (key : Nat) (o : TPend) (bits : List Nat) : (s.finishDrain key o bits).mem = s.mem := by
  unfold State.finishDrain
  rw [finishT_mem]
  split <;> rfl

@[simp] theorem tileStep_mem (key : Nat) (o : TPend) (x : TileRun) : (tileStep key o x).mem = x.s.mem := by simp [tileStep]

theorem runDrain_wf {s : State} {key : Nat} {o : TPend} {r : BitVec 512} {disp : DWord} {tile : Nat} {clr give : Bool}
    {scale : Nat → Nat → Num → Num} (h : s.MemWf) : (s.runDrain key o r disp tile clr give scale).MemWf := by
  unfold State.runDrain
  dsimp -zeta only
  extract_lets p v left x t t'
  split
  · simpa using h
  · have hv : v.MemWf := ite_state_memWf (by simpa using h) h
    have hx : x.s.MemWf := by
      refine writeUnits_wf ?_
      split
      · exact hv
      · simpa using hv
    have ht : t.MemWf := by simpa [t] using hx
    split
    · exact ite_state_memWf (by simpa using hx) (ite_state_memWf (by simpa using hv) (by simpa using hx))
    · exact ite_state_memWf ht (ite_state_memWf (by simpa [t'] using ht) (by simpa [t'] using ht))

theorem stepDrain_wf {s : State} {crew : Nat} {o : TPend} {give : Bool} (h : s.MemWf) : (s.stepDrain crew o give).MemWf := by
  unfold State.stepDrain
  split
  · split <;> simpa using h
  · split
    · exact runDrain_wf h
    · split
      · simpa using h
      · exact runDrain_wf h
    · exact h

/-! ## The events of the copy engine and of the tiles -/

theorem execCopyComplete_wf {s : State} (h : s.MemWf) {crew} : NextMemWf (execCopyComplete crew s) := by
  refine engineEvent_wf h fun t ht => ?_
  split
  · exact ht
  · split
    · split
      · split <;> simpa using ht
      · split
        · exact ht
        · have hx {o : CPend} {r : BitVec 512} {disp : DWord} {dd : Bool} {k n : Nat} :
              ((t.engineSteps n).2.runCopy crew r disp dd o k).s.MemWf := runCopy_wf (by simpa using ht)
          dsimp only
          split
          · split <;> simp [hx]
          · exact ite_state_memWf (by simp [hx]) (by simp [hx])
    · simpa using ht

theorem execTileOpComplete_wf {s : State} (h : s.MemWf) {crew} : NextMemWf (execTileOpComplete crew s) := by
  refine eventOf_wf h fun t ht => ?_
  split
  · exact ht
  · split
    · exact ht
    · split
      · simpa using ht
      · simpa using ht
      · simpa using ht
      · have hx {o : TPend} {r : BitVec 512} {disp : DWord} {tile : Nat} : (t.runLoad crew o r disp tile).s.MemWf :=
          runLoad_wf ht
        dsimp only
        split
        · simpa using hx
        · split <;> simpa using hx
      · split <;> simpa using ht
      · exact ht

theorem execDrainComplete_wf {s : State} (h : s.MemWf) {crew} : NextMemWf (execDrainComplete crew s) := by
  refine engineEvent_wf h fun t ht => ?_
  split
  · exact ht
  · exact stepDrain_wf ht

theorem execCopyAbandon_wf {s : State} (h : s.MemWf) {crew} : NextMemWf (execCopyAbandon crew s) := by
  refine eventOf_wf h fun t ht => ?_
  extract_lets tile
  have htile : (tile t).MemWf := by
    dsimp only [tile]
    split
    · exact ht
    · split
      · split
        · exact ht
        · split
          · exact ht
          · simpa using runLoad_wf ht
      · split
        · exact stepDrain_wf ht
        · exact ht
  split
  · exact htile
  · split
    · dsimp only
      split
      · split
        · exact htile
        · simpa using runCopy_wf ht
      · exact htile
    · exact htile

/-! ## Octet operations -/

theorem octetOp_wf {i : Instr} {f : Ctl} {d a b : Operand} {e : Option Operand} {k n : BitVec 6} {xf : XFmt} {wf : WFmt} {z : Bool}
    {s : State} (h : s.MemWf) : NextMemWf (octetOp i f d a b e k n xf wf z s) := by
  refine countedT_wf h fun u key c hu => ?_
  dsimp only
  refine ite_memWf trivial ?_
  split <;> simpa using hu

@[simp] theorem serveOctet_mem (s : State) (key id octet : Nat) : (s.serveOctet key id octet).mem = s.mem := by
  unfold State.serveOctet
  dsimp only
  split
  · rfl
  · split
    · split
      · simp
      · split
        · simp
        · split <;> simp
    · rfl

theorem execFusionWindowClose_wf {s : State} (h : s.MemWf) {core idx} : NextMemWf (execFusionWindowClose core idx s) := by
  refine eventOn_wf h fun t ht => ?_
  dsimp only
  repeat' split
  all_goals exact ht

theorem execFusedPass_wf {s : State} (h : s.MemWf) {core} : NextMemWf (execFusedPass core s) := by
  refine eventOn_wf h fun t ht => ?_
  dsimp only
  split
  · exact ht
  · exact foldl_wf _ (fun v r hv => by simpa using hv) _ _ ht

end Sys2Proof.Machine

/-! Collectives and schedules keep the canonical form. -/

namespace Sys2Proof.Machine

/-! ## Collectives -/

@[simp] theorem failC_mem (s : State) (key id : Nat) (r : Report) : (s.failC key id r).mem = s.mem := by
  simp [State.failC]

@[simp] theorem collExpire_mem (s : State) (ctx : Nat) (m : Comm) (x : BitVec 256) (nth : Nat) :
    (s.collExpire ctx m x nth).mem = s.mem :=
  foldl_mem _ (fun _ _ => by simp) _ s

theorem execTcopyx_wf {s : State} (h : s.MemWf) {f a b e dd} : NextMemWf (execTcopyx f a b e dd s) := by
  refine countedC_wf h fun u key c hu => ?_
  dsimp only
  split
  · trivial
  · trivial
  · split
    · trivial
    · split
      · trivial
      · trivial
      · exact ite_memWf trivial (by simp [apply_ite State.mem, hu])

/-- A fold whose steps may stop keeps what every step keeps. -/
theorem okHolds_foldlM {ε α β : Type} {P : α → Prop} {g : α → β → Except ε α} (hg : ∀ a x, P a → OkHolds P (g a x)) (l : List β)
    {a : α} (h : P a) : OkHolds P (l.foldlM g a) := by
  induction l generalizing a with
  | nil => exact h
  | cons x l ih => exact (hg a x h).bind fun b hb => ih hb

theorem collRead_wf {s : State} {key : Nat} {r : BitVec 512} {u : CopyUnit} (h : s.MemWf) :
    OkHolds (fun y => y.2.MemWf) (s.collRead key r u) :=
  (sideRead_wf h).bind fun _ hy => hy

theorem collWrite_wf {s : State} {key : Nat} {r : BitVec 512} {later : List (Nat × Nat)} {buf : List (Nat × Byte)} {u : CopyUnit}
    {vals : List Nat} (h : s.MemWf) : OkHolds (fun y => y.1.MemWf) (s.collWrite key r later buf u vals) :=
  unitWrite_wf h

theorem collSignal_wf {s : State} {key : Nat} {sc : Scope} {va : DWord} {n : Nat} (h : s.MemWf) :
    OkHolds (fun y => y.1.MemWf) (s.collSignal key sc va n) := by
  induction n generalizing s with
  | zero => exact h
  | succ n ih =>
    unfold State.collSignal
    refine okHolds_bind fun pa => okHolds_bind fun _ => ?_
    dsimp only
    split
    · trivial
    · split
      · trivial
      · exact (ih (signalFrom_wf h)).bind fun y hy => hy

@[simp] theorem applyC_mem (s : State) (key id : Nat) (w : Wrote) : (s.applyC key id w).mem = s.mem := by
  unfold State.applyC
  dsimp only
  split <;> simp

theorem engineStop_wf {s : State} {key id : Nat} {waits : Bool} {e : EngErr} {give : Word → State} (h : s.MemWf)
    (hg : ∀ c, (give c).MemWf) : (s.engineStop key id waits e give).MemWf := by
  unfold State.engineStop
  split
  · exact hg 7
  · exact hg 4
  · exact ite_state_memWf (by simpa using h) (hg 3)

@[simp] theorem farCause_mem (s : State) : s.farCause.2.mem = s.mem := rfl

theorem putUnit_wf {s : State} {key : Nat} {r : BitVec 512} {disp : DWord} {dd : Bool} {x : BitVec 256} {m : Comm} {first : Nat}
    {buf : List (Nat × Byte)} {u : CopyUnit} (h : s.MemWf) :
    OkHolds (fun y => y.1.MemWf) (s.putUnit key r disp dd x m first buf u) := by
  refine (collRead_wf h).bind fun y hy => okHolds_foldlM (fun acc k ha => ?_) _ hy
  split
  · exact (collWrite_wf ha).bind fun z hz => hz
  · exact okHolds_pure.2 (by simpa using ha)

theorem putUnits_wf {key : Nat} {r : BitVec 512} {disp : DWord} {dd : Bool} {x : BitVec 256} {m : Comm} {units : List CopyUnit}
    {y : CopyRun} (h : y.s.MemWf) : (putUnits key r disp dd x m units y).s.MemWf := by
  induction units generalizing y with
  | nil => exact h
  | cons u rest ih =>
    unfold putUnits
    split
    · exact h
    · split
      · exact h
      · exact ih ((putUnit_wf h).of_eq ‹_›)

/-- What a rank of another package meets, where there is one. -/
theorem ite_farCause_mem {p : Prop} [Decidable p] {s : State} {w : Word} : (if p then s.farCause else (w, s)).2.mem = s.mem := by
  split <;> rfl

theorem runPut_wf {s : State} {key : Nat} {o : CPend} {slot : Nat} {r : BitVec 512} {disp : DWord} {dd : Bool} {x : BitVec 256}
    {m : Comm} (h : s.MemWf) : (s.runPut key o slot r disp dd x m).MemWf := by
  unfold State.runPut
  dsimp only
  refine ite_state_memWf (by simpa using h) (ite_state_memWf (by simpa [ite_farCause_mem] using h) ?_)
  have hy {units : List CopyUnit} {n rows : Nat} {buf : List (Nat × Byte)} :
      (putUnits key r disp dd x m units { s := ((if s.collFar m x then s.farCause else (0, s)).2.engineSteps n).2, rows := rows, buf := buf }).s.MemWf :=
    putUnits_wf (by simpa [ite_farCause_mem] using h)
  split
  · exact engineStop_wf (by simpa using hy) fun _ => by simpa using hy
  · exact ite_state_memWf (by simpa using hy) (by simpa using hy)

theorem reduceRead_wf {s : State} {r : BitVec 512} {i : Nat} {u : CopyUnit} {o : Option (Nat × CPend)} (h : s.MemWf) :
    OkHolds (fun y => y.2.MemWf) (s.reduceRead r i u o) := by
  unfold State.reduceRead
  split
  · split
    · split
      · exact collRead_wf h
      · exact h
    · exact h
  · exact h

theorem reduceUnit_wf {s : State} {r : BitVec 512} {x : BitVec 256} {far : Bool} {i : Nat} {u : CopyUnit}
    {all : List (Option (Nat × CPend))} {bufs : List (List (Nat × Byte))} (h : s.MemWf) :
    OkHolds (fun y => y.1.MemWf) (s.reduceUnit r x far i u all bufs) := by
  refine (okHolds_foldlM (P := fun acc => acc.2.MemWf) (fun acc o ha => ?_) _ h).bind fun y hy =>
    okHolds_foldlM (fun acc z ha => ?_) _ hy
  · exact (reduceRead_wf ha).bind fun z hz => hz
  · split
    · split
      · exact (collWrite_wf ha).bind fun w hw => okHolds_pure.2 (by simpa using hw)
      · exact ha
    · exact ha

theorem reduceUnits_wf {r : BitVec 512} {x : BitVec 256} {far : Bool} {all : List (Option (Nat × CPend))} {units : List CopyUnit}
    {y : ReduceRun} (h : y.s.MemWf) : (reduceUnits r x far all units y).s.MemWf := by
  induction units generalizing y with
  | nil => exact h
  | cons u rest ih =>
    unfold reduceUnits
    split
    · exact h
    · split
      · exact h
      · exact ih ((reduceUnit_wf h).of_eq ‹_›)

theorem runReduce_wf {s : State} {key slot : Nat} {r : BitVec 512} {disp : DWord} {dd : Bool} {x : BitVec 256} {nth : Nat} {m : Comm}
    (h : s.MemWf) : (s.runReduce key slot r disp dd x nth m).MemWf := by
  unfold State.runReduce
  dsimp -zeta only
  extract_lets ctx peers at_ set here mine agree failAll own held stopped far s' units from_ y all last t
  have hfail (c : Word) {u : State} (hu : u.MemWf) : (failAll c u).MemWf := foldl_wf _ (fun v z hv => by simpa using hv) _ _ hu
  have hstop {u : State} (hu : u.MemWf) : (stopped u).MemWf := by
    refine foldl_wf _ (fun v k hv => ?_) _ _ hu
    split
    · exact ite_state_memWf hv (by simpa using hv)
    · exact hv
  have hs' : s'.MemWf := by simpa [s', ite_farCause_mem] using h
  have hy : y.s.MemWf := reduceUnits_wf (by simpa using hs')
  have ht : t.MemWf := by
    refine foldl_wf _ (fun v z hv => ?_) _ _ hy
    dsimp only
    split
    · exact ite_state_memWf (by simpa using hv) (by simpa using hv)
    · exact hv
  refine ite_state_memWf h <| ite_state_memWf (hstop h) <| ite_state_memWf (hfail 1 h) <| ite_state_memWf (hfail 4 h) <|
    ite_state_memWf (hstop h) <| ite_state_memWf (hfail _ hs') ?_
  split
  · exact engineStop_wf ht fun c => hfail c ht
  · exact ht

theorem collDone_wf {s : State} {key : Nat} {o : CPend} {slot : Nat} {r : BitVec 512} {x : BitVec 256} (h : s.MemWf) :
    (s.collDone key o slot r x).MemWf := by
  have hf {p : Prop} [Decidable p] : (if p then s.farCause else (0, s)).2.MemWf := by simpa [ite_farCause_mem] using h
  unfold State.collDone
  dsimp only
  refine ite_state_memWf h (ite_state_memWf (by simpa using hf) (ite_state_memWf (by simpa using hf) ?_))
  split
  · exact engineStop_wf hf fun _ => by simpa using hf
  · simpa using (collSignal_wf hf).of_eq ‹_›

theorem execCollectiveComplete_wf {s : State} (h : s.MemWf) {crew} : NextMemWf (execCollectiveComplete crew s) := by
  refine engineEvent_wf h fun t ht => ?_
  split
  · exact ht
  · split
    · refine ite_state_memWf ht (ite_state_memWf (collDone_wf ht) ?_)
      split
      · simpa using ht
      · exact ite_state_memWf (runPut_wf ht) (runReduce_wf ht)
    · exact ht

theorem execCollectiveTimeout_wf {s : State} (h : s.MemWf) {crew} : NextMemWf (execCollectiveTimeout crew s) := by
  refine eventOf_wf h fun t ht => ?_
  split
  · exact ht
  · split
    · rw [State.MemWf, failC_mem]
      split
      · exact ite_state_memWf ht (by simpa using ht)
      · exact ht
    · exact ht

/-! ## Schedules -/

theorem execCstart_wf {s : State} (h : s.MemWf) {f d a b} : NextMemWf (execCstart f d a b s) :=
  countedC_wf h fun _ _ _ hu => ite_memWf trivial (ite_memWf trivial (by simpa using hu))

@[simp] theorem schedGoesOn_mem (s : State) (k : Nat) (h : Handle) : (s.schedGoesOn k h).2.mem = s.mem := by
  unfold State.schedGoesOn
  split <;> rfl

theorem execCstat_wf {s : State} (h : s.MemWf) {f d a} : NextMemWf (execCstat f d a s) := by
  refine once_wf h fun u key c hu => ?_
  dsimp only
  split <;> simpa using hu

@[simp] theorem schedPut_wf {s : State} {k : Nat} {h : Handle} {a : Attr} {pa : Nat} {v : Byte} (hs : s.MemWf) :
    (s.schedPut k h a pa v).MemWf :=
  ite_state_memWf (by simpa using homePut_wf (homeClean_wf hs)) (homePut_wf (homeClean_wf hs))

/-- Whatever a schedule's accesses come to has memory in its canonical form. -/
@[simp] def SchedRun.MemWf : SchedRun → Prop
  | .made t _ | .waits t _ _ | .ends t _ => t.MemWf

theorem schedActs_wf {s : State} {k : Nat} {h : Handle} {far : Bool} {acts : List (DWord × Option Byte)} {x : SchedRun}
    (hs : s.MemWf) (hx : s.schedActs k h far acts = x) : x.MemWf := by
  subst hx
  induction acts generalizing s far with
  | nil => exact hs
  | cons a rest ih =>
    unfold State.schedActs
    dsimp only
    split
    · exact hs
    · split
      · split
        · exact hs
        · split <;> exact hs
      · split
        · exact hs
        · split
          · exact hs
          · split
            · split
              · exact hs
              · exact ih hs
            · exact ih (schedPut_wf hs)

@[simp] theorem schedEnd_mem (s : State) (k : Nat) (h : Handle) (cause : BitVec 8) (steps : Nat) :
    (s.schedEnd k h cause steps).mem = s.mem := by
  unfold State.schedEnd
  dsimp only
  split
  · rfl
  · split <;> simp

theorem execScheduleEnd_wf {s : State} (h : s.MemWf) {handle cause steps acts} :
    NextMemWf (execScheduleEnd handle cause steps acts s) := by
  refine event_wf ?_
  dsimp only
  split
  · exact h
  · split
    · exact h
    · split
      · simpa using schedActs_wf h ‹_›
      · exact schedActs_wf h ‹_›
      · simpa using schedActs_wf h ‹_›
      · have ht := schedActs_wf h ‹_›
        split
        · exact ht
        · simpa using ht

end Sys2Proof.Machine

/-! The amplitude engines and the clocks keep the canonical form. -/

namespace Sys2Proof.Machine

/-! ## Amplitude commands: issue and end -/

@[simp] theorem setAmp_mem (s : State) (die ctx slot : Nat) (a : AmpSlot) : (s.setAmp die ctx slot a).mem = s.mem := rfl

@[simp] theorem ampOver_mem (s : State) (die ctx slot nth : Nat) : (s.ampOver die ctx slot nth).mem = s.mem := rfl

theorem execLinkLost_wf {s : State} (h : s.MemWf) {crew} : NextMemWf (execLinkLost crew s) := by
  refine eventOf_wf h fun t ht => ?_
  dsimp only
  split
  · split
    · simpa using ht
    · simpa using ht
    · simpa using ht
    · split <;> simpa using ht
    · exact ht
  · split
    · simpa using ht
    · simpa using ht
    · split <;> simpa using ht
    · exact ht

@[simp] theorem ampEnd_mem (s : State) (ctx slot : Nat) (xs : List (Nat × Nat × CPend)) (fault : Option Word)
    (upd : BitVec 512 → AmpCmd → BitVec 512) : (s.ampEnd ctx slot xs fault upd).mem = s.mem := by
  refine foldl_mem _ (fun t x => ?_) _ _
  dsimp only
  split
  · split <;> simp
  · rfl

@[simp] theorem ampExpire_mem (s : State) (ctx slot nth : Nat) (dies : List Nat) : (s.ampExpire ctx slot nth dies).mem = s.mem := by
  refine (foldl_mem _ (fun t d => ?_) _ _).trans (ampEnd_mem ..)
  split <;> rfl

@[simp] theorem ampIssue_mem (s : State) (key slot : Nat) (cmd : AmpCmd) : (s.ampIssue key slot cmd).mem = s.mem := by
  have hlate {p : Prop} [Decidable p] {ctx nth : Nat} {dies : List Nat} :
      (if p then s.ampExpire ctx slot nth dies else s).mem = s.mem := ite_mem (by simp) rfl
  unfold State.ampIssue
  dsimp only
  exact ite_mem (by simp [hlate]) (by simp [hlate])

theorem execAmap_wf {s : State} (h : s.MemWf) {f a b} : NextMemWf (execAmap f a b s) := by
  refine countedC_wf h fun u key c hu => ?_
  dsimp only
  repeat' split
  all_goals simp [hu]

theorem execAmapRd_wf {s : State} (h : s.MemWf) {f a b} : NextMemWf (execAmapRd f a b s) := by
  refine countedC_wf h fun u key c hu => ?_
  dsimp only
  repeat' split
  all_goals simp [hu]

theorem sliceIssue_wf {s : State} {key slot : Nat} {cmd : AmpCmd} (h : s.MemWf) : (s.sliceIssue key slot cmd).MemWf := by
  unfold State.sliceIssue
  split <;> simp [h]

theorem execAgate_wf {s : State} (h : s.MemWf) {f a b k nr} : NextMemWf (execAgate f a b k nr s) := by
  refine countedC_wf h fun u key c hu => ite_memWf trivial ?_
  split
  · trivial
  · exact ite_memWf (sliceIssue_wf hu) trivial

theorem execAswap_wf {s : State} (h : s.MemWf) {f a b q2} : NextMemWf (execAswap f a b q2 s) :=
  countedC_wf h fun _ _ _ hu => ite_memWf trivial (sliceIssue_wf hu)

theorem execAnorm_wf {s : State} (h : s.MemWf) {f a b} : NextMemWf (execAnorm f a b s) := by
  refine countedC_wf h fun u key c hu => ite_memWf trivial ?_
  split
  · trivial
  · refine ite_memWf trivial ?_
    split
    · trivial
    · exact sliceIssue_wf hu

/-! ## Amplitude commands: reads, writes and exchanges -/

theorem ampRead_wf {s : State} {ctx slot : Nat} {m : BitVec 512} {xs : List (Nat × Nat × CPend)} (h : s.MemWf) :
    OkHolds (fun y => y.2.MemWf) (s.ampRead ctx slot m xs) := by
  induction xs generalizing s with
  | nil => exact h
  | cons x rest ih =>
    unfold State.ampRead
    split
    · trivial
    · rename_i bs t hbs
      have ht : State.MemWf { t with budgets := s.budgets } := (engineRead_wf h).of_eq hbs
      split
      · trivial
      · have hr := (ih ht).of_eq ‹_›
        exact hr

theorem ampPut_wf {key : Nat} {sc : Scope} {base : Nat} {reads : Bool} {mem port : Nat} {amps : List (Nat × List Byte)} {x : AmpPut}
    (h : x.s.MemWf) : (ampPut key sc base reads mem port amps x).s.MemWf := by
  induction amps generalizing x with
  | nil => exact h
  | cons a rest ih =>
    have hw : OkHolds (fun y : State × Wrote => y.1.MemWf)
        (if reads then .ok (x.s, {}) else x.s.engineWrite key sc [(base + 8 * a.1, a.2.length)] a.2) := by
      split
      · exact h
      · exact engineWrite_wf h
    unfold ampPut
    split
    · exact h
    · split
      · exact h
      · exact ih (by simpa using hw.of_eq ‹_›)

@[simp] theorem ampPick_mem (s : State) (todo : List (Nat × DWord)) : (s.ampPick todo).2.mem = s.mem := rfl

@[simp] theorem ampSend_mem (s : State) (ctx slot own v : Nat) (val : Nat → Nat × Nat) (x : BitVec 512 × Nat × Nat) :
    (s.ampSend ctx slot own v val x).mem = s.mem := by
  unfold State.ampSend
  dsimp only
  split <;> rfl

@[simp] theorem ampSends_mem (s : State) (ctx slot own : Nat) (cmd : AmpCmd) (m : BitVec 512) (v : Nat) (old new : Nat → Nat × Nat) :
    (s.ampSends ctx slot own cmd m v old new).mem = s.mem := by
  have hold : ((ampSwaps cmd m).foldl (fun s x => s.ampSend ctx slot own v old x) s).mem = s.mem :=
    foldl_mem _ (fun _ _ => ampSend_mem ..) _ _
  unfold State.ampSends
  dsimp only
  split
  · exact (foldl_mem _ (fun _ _ => by exact ampSend_mem ..) _ _).trans hold
  · exact hold

@[simp] theorem ampOwn_mem (s : State) (xs : List (Nat × Nat × CPend)) (out : Nat → AmpCmd → Option (Nat × List Byte)) :
    (s.ampOwn xs out).mem = s.mem := by
  refine foldl_mem _ (fun t x => ?_) _ _
  split
  · split <;> rfl
  · rfl

theorem ampRun_wf {s : State} {ctx slot : Nat} {cmd : AmpCmd} {m : BitVec 512} {np : Nat} {dies : List Nat}
    {xs : List (Nat × Nat × CPend)} (h : s.MemWf) : OkHolds (fun y => y.1.MemWf) (s.ampRun ctx slot cmd m np dies xs) := by
  unfold State.ampRun
  split
  · exact h
  · simpa [OkHolds] using h
  · refine (ampRead_wf h).bind fun y hy => ?_
    dsimp only
    have hfree : (if np = 0 then y.2 else { y.2 with freeIx := y.2.freeIx + 2 ^ mapNq m }).MemWf := ite_state_memWf hy hy
    split
    · exact okHolds_pure.2 (by simpa using hfree)
    · exact okHolds_pure.2 (ite_state_memWf hfree (foldl_wf _ (fun t x ht => by simpa using ht) _ _ hfree))

/-! ## Amplitude commands: the work of the engines -/

@[simp] theorem ampShare_mem (s : State) (new : List (List DWord)) (xs : List (Nat × Nat × CPend)) :
    (s.ampShare new xs).mem = s.mem :=
  foldl_mem _ (fun _ _ => by simp) _ _

@[simp] theorem ampSample_mem (s : State) (key : Nat) (o : CPend) : (s.ampSample key o).mem = s.mem := by
  unfold State.ampSample
  split
  · simp
  · rfl

theorem ampWork_wf {s : State} {ctx slot : Nat} {cmd : AmpCmd} {m : BitVec 512} {np v : Nat} {x : Nat × Nat × CPend}
    {go : Nat × DWord → Bool} {now todo : List (Nat × DWord)} (h : s.MemWf) :
    (s.ampWork ctx slot cmd m np v x go now todo).1.MemWf := by
  simpa [State.ampWork] using ampPut_wf h

theorem ampMove_wf {s : State} {ctx slot : Nat} {cmd : AmpCmd} {m : BitVec 512} {np v room : Nat} {x : Nat × Nat × CPend}
    (h : s.MemWf) : (s.ampMove ctx slot cmd m np v room x).1.MemWf := by
  unfold State.ampMove
  dsimp only
  split
  · exact h
  · split
    · exact h
    · split
      · exact h
      · exact ampWork_wf (by simpa using h)

@[simp] theorem ampWait_mem (s : State) (x : Nat × Nat × CPend) : (s.ampWait x).mem = s.mem := by simp [State.ampWait]

theorem execAmpMatch_wf {s : State} (h : s.MemWf) {die ctx slot} : NextMemWf (execAmpMatch die ctx slot s) := by
  refine eventOn_wf h fun t ht => ?_
  split
  · exact ht
  · split
    · split
      · exact ht
      · have hs {l : List (Nat × Nat × CPend)} : (l.foldl (fun s x => s.ampSample x.2.1 x.2.2) t).MemWf :=
          foldl_wf _ (fun v x hv => by simpa using hv) _ _ ht
        refine ite_state_memWf ht (ite_state_memWf ?_ (by simpa using hs))
        exact foldl_wf _ (fun v x hv => by simpa using hv) _ _ hs
    · exact ht

theorem ampStop_wf {s : State} {ctx slot : Nat} {xs : List (Nat × Nat × CPend)} {k : Nat} {e : EngErr} (h : s.MemWf) :
    (s.ampStop ctx slot xs k e).MemWf := by
  unfold State.ampStop
  split
  · exact engineStop_wf h fun _ => by simpa using h
  · exact h

theorem ampBegin_wf {s : State} {ctx slot : Nat} {cmd : AmpCmd} {m : BitVec 512} {np : Nat} {dies : List Nat}
    {xs : List (Nat × Nat × CPend)} (h : s.MemWf) : (s.ampBegin ctx slot cmd m np dies xs).MemWf := by
  unfold State.ampBegin
  split
  · simpa using h
  · split
    · exact ampStop_wf h
    · simpa using (ampRun_wf h).of_eq ‹_›
    · simpa using (ampRun_wf h).of_eq ‹_›

theorem ampSum_wf {s : State} {ctx slot nth : Nat} {cmd : AmpCmd} {m : BitVec 512} {np : Nat} {dies : List Nat}
    {x : Nat × Nat × CPend} (h : s.MemWf) : (s.ampSum ctx slot nth cmd m np dies x).MemWf := by
  unfold State.ampSum
  split
  · exact h
  · refine ite_state_memWf h (ite_state_memWf (by simpa using h) (ite_state_memWf (by simpa using h) ?_))
    split
    · exact ampStop_wf h
    · simpa using (ampRun_wf h).of_eq ‹_›

theorem ampFinish_wf {s : State} {ctx slot nth : Nat} {cmd : AmpCmd} {m : BitVec 512} {np : Nat} {dies : List Nat}
    {x : Nat × Nat × CPend} (h : s.MemWf) : (s.ampFinish ctx slot nth cmd m np dies x).MemWf := by
  unfold State.ampFinish
  split
  · exact h
  · split
    · exact ampSum_wf h
    · simpa using h

theorem ampGo_wf {s : State} {ctx slot nth : Nat} {cmd : AmpCmd} {m : BitVec 512} {np : Nat} {dies : List Nat}
    {x : Nat × Nat × CPend} {group : List (Nat × Nat × CPend)} (h : s.MemWf) :
    (s.ampGo ctx slot nth cmd m np dies x group).MemWf := by
  have hm := ampMove_wf (ctx := ctx) (slot := slot) (cmd := cmd) (m := m) (np := np) (v := dies.idxOf x.1)
    (room := s.ampRoom cmd m (dies.idxOf x.1) dies x group) (x := x) h
  unfold State.ampGo
  dsimp only
  split
  · rename_i t e ht
    rw [ht] at hm
    exact ampStop_wf hm
  · rename_i t ht
    rw [ht] at hm
    exact ampFinish_wf hm

theorem execAmpCommandComplete_wf {s : State} (h : s.MemWf) {die ctx slot} :
    NextMemWf (execAmpCommandComplete die ctx slot s) := by
  refine eventOn_wf h fun t ht => ?_
  dsimp only
  split
  · exact ite_state_memWf (by simpa using ht) ht
  · split
    · exact ht
    · rename_i key o _
      generalize hv : (if o.todo.isSome = true then t else _) = v
      have hw : v.MemWf := by
        rw [← hv]
        refine ite_state_memWf ht ?_
        split
        · simpa using ht
        · exact ht
      split
      · refine ite_state_memWf hw <| ite_state_memWf (by simpa using hw) <|
          ite_state_memWf (ite_state_memWf (ampGo_wf hw) (by simpa using hw)) ?_
        split
        · exact ampStop_wf hw
        · exact ite_state_memWf hw <| ite_state_memWf (by simpa using hw) <| ite_state_memWf (ampGo_wf (ampBegin_wf hw)) (ampBegin_wf hw)
      · exact hw

theorem execAmpMatchTimeout_wf {s : State} (h : s.MemWf) {die ctx slot} : NextMemWf (execAmpMatchTimeout die ctx slot s) := by
  refine eventOn_wf h fun t ht => ?_
  dsimp only
  split
  · exact ht
  · split
    · exact ite_state_memWf (by simpa using ht) (by simpa using ht)
    · exact ht

theorem execAmpExchangeTimeout_wf {s : State} (h : s.MemWf) {die ctx slot more} :
    NextMemWf (execAmpExchangeTimeout die ctx slot more s) := by
  refine eventOn_wf h fun t ht => ?_
  dsimp only
  split
  · exact ht
  · split
    · refine ite_state_memWf ht (ite_state_memWf ht ?_)
      rw [State.MemWf, ampEnd_mem]
      exact ite_state_memWf (ampMove_wf ht) ht
    · exact ht

/-! ## Clocks -/

theorem clockRead_wf {i : Instr} {f : Ctl} {d : Operand} {dr : Bool} {s : State} {clock : State → Nat → Nat} (h : s.MemWf) :
    NextMemWf (clockRead i f d dr s clock) :=
  once_wf h fun _ _ _ hu => ite_memWf (held?_wf hu hu) (by simpa using hu)

end Sys2Proof.Machine

/-! The fault ring and the scheduler keep the canonical form. -/

namespace Sys2Proof.Machine

/-! ## The fault ring -/

theorem putEntry_wf {s : State} {b : Attr} {pa : Nat} {r : Report} (h : s.MemWf) : (s.putEntry b pa r).1.MemWf :=
  Memory.wf_putFields _ _ (Memory.wf_clear _ _ h)

/-- Whatever became of a report, the state it left has memory in its canonical form. -/
@[simp] def RingPut.MemWf : RingPut → Prop
  | .wrote t _ => t.MemWf
  | .full | .impossible => True

theorem ringPut_wf {s : State} {ctx : Nat} {r : Report} {x : RingPut} (h : s.MemWf) (hx : s.ringPut ctx r = x) : x.MemWf := by
  subst hx
  unfold State.ringPut
  dsimp only
  repeat' split
  · trivial
  · trivial
  · trivial
  · trivial
  · exact h
  · simpa using putEntry_wf h

@[simp] theorem ringReport_wf {s : State} {ctx : Nat} {r : Report} (h : s.MemWf) : (s.ringReport ctx r).MemWf := by
  unfold State.ringReport
  split
  · exact ringPut_wf h ‹_›
  · exact h
  · cases hu : s.countLost ctx with
    | none => exact h
    | some u => exact countLost_wf h hu

/-! ## Placing a task -/

@[simp] theorem ranOn_mem (s : State) (launch core : Nat) : (s.ranOn launch core).mem = s.mem := rfl

theorem placeParty_mem {s u : State} {ti num core : Nat} {e : BitVec 320} (hu : s.placeParty ti num core e = some u) :
    u.mem = s.mem := by
  unfold State.placeParty at hu
  split at hu
  · cases hu
  · cases hu
    simp only [ranOn_mem, State.modTask_mem, State.modCore_mem, signalWake_mem, invalidateL1_mem]
    exact foldl_mem _ (fun t x => by simp) _ _

theorem placeRest_mem {s u : State} {own : Bool} {ti die : Nat} {e : BitVec 320} {nums used : List Nat}
    (hu : s.placeRest own ti die e nums used = some u) : u.mem = s.mem := by
  induction nums generalizing s used with
  | nil => cases hu; rfl
  | cons num rest ih =>
    unfold State.placeRest at hu
    dsimp only at hu
    split at hu
    · cases hu
    · split at hu
      · exact (ih hu).trans (placeParty_mem ‹_›)
      · cases hu

@[simp] theorem rootStarts_mem (s : State) (ti : Nat) : (s.rootStarts ti).mem = s.mem := by
  unfold State.rootStarts
  dsimp only
  split <;> rfl

theorem placeTask_mem {s u : State} {own : Bool} {ti core : Nat} (hu : s.placeTask own ti core = some u) : u.mem = s.mem := by
  unfold State.placeTask at hu
  dsimp only at hu
  split at hu
  · cases hu
  · split at hu
    · cases hu
    · cases hu
      simpa using (placeRest_mem ‹_›).trans (placeParty_mem ‹_›)

@[simp] theorem park_mem (s : State) (die ti : Nat) : (s.park die ti).mem = s.mem := rfl

/-! ## Leaving a core -/

@[simp] theorem dropCrew_mem (s : State) (key : Nat) : (s.dropCrew key).mem = s.mem := rfl

@[simp] theorem dropParty_mem (s : State) (pk : Nat) : (s.dropParty pk).mem = s.mem := by
  unfold State.dropParty
  dsimp only
  split
  · exact foldl_mem _ dropCrew_mem _ _
  · exact foldl_mem _ dropCrew_mem _ _

@[simp] theorem foldl_dropParty_mem (s : State) (l : List Nat) : (l.foldl State.dropParty s).mem = s.mem :=
  foldl_mem _ dropParty_mem _ _

@[simp] theorem dropViews_mem (s : State) (ti : Nat) : (s.dropViews ti).mem = s.mem := rfl

@[simp] theorem taskOver_mem (s : State) (ti : Nat) (status : TaskStatus) : (s.taskOver ti status).mem = s.mem := by
  unfold State.taskOver
  dsimp only
  rw [State.modLaunch_mem, State.modTask_mem, sweepPeds_mem]
  dsimp only
  rw [foldl_dropParty_mem]
  split
  · simp
  · exact foldl_mem _ dropViews_mem _ _

theorem ite_fst_memWf {α : Type} {p : Prop} [Decidable p] {x y : State × α} (hx : x.1.MemWf) (hy : y.1.MemWf) :
    (if p then x else y).1.MemWf := by
  split
  · exact hx
  · exact hy

theorem releaseMax_wf {cores : List Nat} {acc : State × Nat} (h : acc.1.MemWf) :
    (cores.foldl (fun (acc : State × Nat) core => ((acc.1.releaseCore core).1, max acc.2 (acc.1.releaseCore core).2)) acc).1.MemWf :=
  foldl_fst_wf _ (fun _ _ ha => by exact releaseCore_wf ha) _ _ h

theorem taskRelease_wf {s : State} {t : Task} {sc : Scope} (h : s.MemWf) : (s.taskRelease t sc).1.MemWf := by
  unfold State.taskRelease
  dsimp only
  split
  · exact releaseMax_wf h
  · exact h

theorem execTaskComplete_wf {s : State} (h : s.MemWf) {task} : NextMemWf (execTaskComplete task s) := by
  refine eventOn_wf h fun t ht => ?_
  have hr (sc : Scope) := taskRelease_wf (t := t.task task) (sc := sc) ht
  dsimp only
  refine ite_state_memWf ht <| ite_state_memWf (ite_state_memWf (by simpa using ht) ht) <| ite_state_memWf ht ?_
  split
  · exact ite_state_memWf (by simpa using ht) ht
  · exact ite_state_memWf ht <| ite_state_memWf (by simpa using hr _) (by simpa using hr _)

/-! ## Launches -/

@[simp] theorem setCompletion_wf {s : State} {l : Launch} {v : DWord} (h : s.MemWf) : (s.setCompletion l v).MemWf := by
  unfold State.setCompletion
  dsimp only
  split
  · exact signalPut_wf _ _ _ h
  · exact ringReport_wf h

@[simp] theorem closeLaunch_mem (s : State) (li : Nat) : (s.closeLaunch li).mem = s.mem := rfl

theorem execLaunchComplete_wf {s : State} (h : s.MemWf) {launch} : NextMemWf (execLaunchComplete launch s) := by
  refine event_wf ?_
  dsimp only
  refine ite_state_memWf h <| ite_state_memWf h <| ite_state_memWf h ?_
  split
  · exact ite_state_memWf h (by simpa using setCompletion_wf h)
  · refine ite_state_memWf (ite_fst_memWf (releaseMax_wf ?_) ?_) ?_
    · exact h
    · exact h
    · rw [State.MemWf, closeLaunch_mem]
      refine setCompletion_wf (ite_fst_memWf (releaseMax_wf ?_) ?_)
      · exact h
      · exact h

theorem execTriggerPoint_wf {s : State} (h : s.MemWf) {launch} : NextMemWf (execTriggerPoint launch s) :=
  event_wf (ite_state_memWf h (by simpa using setCompletion_wf h))

theorem execBatchDeal_wf {s : State} (h : s.MemWf) : NextMemWf (execBatchDeal s) := by
  refine event_wf ?_
  dsimp only
  split <;> exact h

/-! ## Roots and stealing -/

@[simp] theorem makeRoot_mem (s : State) (li t : Nat) (pin : Option Nat) : (s.makeRoot li t pin).2.mem = s.mem := by
  simp [State.makeRoot]

@[simp] theorem startRoot_mem (s : State) (li t core : Nat) (det : Bool) : (s.startRoot li t core det).mem = s.mem := by
  unfold State.startRoot
  dsimp only
  split
  · rw [placeTask_mem ‹_›, makeRoot_mem]
    split <;> rfl
  · rw [park_mem, makeRoot_mem]
    split <;> rfl

theorem takeRoot_mem {s u : State} {core : Nat} {l : List (Nat × Nat × Bool)} (hu : s.takeRoot core l = some u) : u.mem = s.mem := by
  induction l with
  | nil => cases hu
  | cons x rest ih =>
    unfold State.takeRoot at hu
    dsimp only at hu
    split at hu
    · split at hu
      · cases hu; simp
      · exact ih hu
    · split at hu
      · split at hu
        · cases hu; simp
        · cases hu; rfl
      · cases hu

@[simp] theorem freshViews_mem (s : State) (ti core : Nat) : (s.freshViews ti core).mem = s.mem := by
  refine foldl_mem _ (fun t d => ?_) _ _
  rfl

@[simp] theorem steal_mem (s : State) (core : Nat) : (s.steal core).mem = s.mem := by
  unfold State.steal
  dsimp only
  split
  · rfl
  · split
    · simp [placeTask_mem ‹_›]
    · simp

theorem execCoreTakeWork_wf {s : State} (h : s.MemWf) {core} : NextMemWf (execCoreTakeWork core s) := by
  refine eventOn_wf h fun t ht => ?_
  dsimp only
  refine ite_state_memWf ht ?_
  split
  · refine ite_state_memWf ht ?_
    split
    · simpa [placeTask_mem ‹_›] using ht
    · exact ht
  · split
    · split
      · simpa [placeTask_mem ‹_›] using ht
      · exact ht
    · refine ite_state_memWf ht ?_
      split
      · simpa [takeRoot_mem ‹_›] using ht
      · simpa using ht

/-! ## Gangs -/

@[simp] theorem reserveGang_mem (s : State) : s.reserveGang.mem = s.mem := by
  unfold State.reserveGang
  split
  · rfl
  · split
    · rfl
    · exact foldl_mem _ (fun t x => by simp) _ _

theorem placeHeads_mem {s : State} {li : Nat} {l done : List (Nat × Nat)} {x : List (Nat × Nat) × State}
    (hx : s.placeHeads li l done = some x) : x.2.mem = s.mem := by
  induction l generalizing s done with
  | nil => cases hx; rfl
  | cons y rest ih =>
    unfold State.placeHeads at hx
    dsimp only at hx
    split at hx
    · cases hx
    · exact (ih hx).trans ((placeParty_mem ‹_›).trans (makeRoot_mem ..))

theorem placeTails_mem {s u : State} {l : List (Nat × Nat)} (hu : s.placeTails l = some u) : u.mem = s.mem := by
  induction l generalizing s with
  | nil => cases hu; rfl
  | cons y rest ih =>
    unfold State.placeTails at hu
    dsimp only at hu
    split at hu
    · cases hu
    · exact (ih hu).trans (by simpa using placeRest_mem ‹_›)

theorem placeGang_mem {s u : State} {li : Nat} {roots : List (Nat × Nat)} (hu : s.placeGang li roots = some u) : u.mem = s.mem := by
  obtain ⟨x, hx, ht⟩ := Option.bind_eq_some_iff.1 hu
  exact (placeTails_mem ht).trans (placeHeads_mem hx)

theorem execGangStart_wf {s : State} (h : s.MemWf) {launch} : NextMemWf (execGangStart launch s) := by
  refine event_wf ?_
  dsimp only
  refine ite_state_memWf (by simpa using h) <| ite_state_memWf (by simpa using h) ?_
  split
  · simpa using h
  · simpa [placeGang_mem ‹_›] using h

/-! ## Admission -/

@[simp] theorem refuse_wf {s : State} {ctx : Nat} {p : BitVec 4096} {n : Nat} {va : DWord} (h : s.MemWf) : (s.refuse ctx p n va).MemWf := by
  unfold State.refuse
  dsimp only
  refine ite_state_memWf (ringReport_wf h) ?_
  split
  · exact signalPut_wf _ _ _ (ringReport_wf h)
  · exact ringReport_wf h

@[simp] theorem admitPacket_mem (s : State) (ctx : Nat) (p : BitVec 4096) : (s.admitPacket ctx p).mem = s.mem := by
  unfold State.admitPacket
  dsimp only
  split <;> simp

theorem judgePacket_wf {s u : State} {core ctx : Nat} {p : BitVec 4096} {va : DWord} (h : s.MemWf)
    (hu : s.judgePacket core ctx p va = some u) : u.MemWf := by
  unfold State.judgePacket at hu
  dsimp only at hu
  repeat' split at hu
  all_goals cases hu
  all_goals simp [h]

theorem execAdmitNext_wf {s : State} (h : s.MemWf) {core ctx queue} : NextMemWf (execAdmitNext core ctx queue s) := by
  refine eventOn_wf h fun t ht => ?_
  dsimp only
  refine ite_state_memWf ht ?_
  split
  · exact ht
  · refine ite_state_memWf ht ?_
    split
    · refine ite_state_memWf ht <| ite_state_memWf ht ?_
      split
      · exact ht
      · refine ite_state_memWf ht ?_
        split
        · exact ht
        · rename_i u hu
          have hw : u.MemWf := judgePacket_wf (by simpa using ht) hu
          exact ite_state_memWf (by simpa using hw) (by simpa using bumpWord_wf _ _ (bumpWord_wf _ _ hw))
    · exact ht

theorem execDependenceRelease_wf {s : State} (h : s.MemWf) {launch} : NextMemWf (execDependenceRelease launch s) := by
  refine event_wf ?_
  dsimp only
  refine ite_state_memWf h ?_
  split
  · exact ite_state_memWf (by simpa using setCompletion_wf h) (by simpa using h)
  · simpa using setCompletion_wf (ringReport_wf h)
  · refine ite_state_memWf (by simpa using setCompletion_wf (ringReport_wf h)) <| ite_state_memWf h ?_
    split
    · exact ite_state_memWf (by simpa using setCompletion_wf h) (by simpa using h)
    · exact h

/-! ## Suspension -/

@[simp] theorem cancelWait_mem (s : State) (key : Nat) : (s.cancelWait key).mem = s.mem := by simp [State.cancelWait]
@[simp] theorem haltTask_mem (s : State) (t : Task) : (s.haltTask t).mem = s.mem := foldl_mem _ haltParty_mem _ _

@[simp] theorem flushParty_wf {s : State} {pk : Nat} (h : s.MemWf) : (s.flushParty pk).MemWf := by
  unfold State.flushParty
  dsimp only
  refine foldl_wf _ (fun u k hu => by simpa using hu) _ _ (releaseCore_wf ?_)
  split
  · simpa using h
  · exact h

theorem saveTask_wf {s : State} {ti : Nat} (h : s.MemWf) : (s.saveTask ti).MemWf := by
  unfold State.saveTask
  simpa using foldl_wf _ (fun u p hu => flushParty_wf hu) _ _ h

theorem execJoinSuspend_wf {s : State} (h : s.MemWf) {task} : NextMemWf (execJoinSuspend task s) := by
  refine eventOn_wf h fun t ht => ?_
  dsimp only
  split
  · exact ht
  · refine ite_state_memWf ht <| ite_state_memWf (ite_state_memWf ht ?_) <| ite_state_memWf ht ?_
    · rw [State.MemWf, State.modTask_mem, foldl_mem _ resumeParty_mem]
      exact ht
    · refine ite_state_memWf (saveTask_wf ?_) ?_ <;> refine ite_state_memWf ht ?_
      all_goals
        rw [State.MemWf, foldl_mem _ cancelWait_mem, haltTask_mem, foldl_mem _ fun s p => signalWake_mem s (p / 16) 7]
        exact ht

@[simp] theorem requeue_mem (s : State) (key : Nat) : (s.requeue key).mem = s.mem := by
  unfold State.requeue
  split
  · rfl
  · split <;> simp

@[simp] theorem restoreParty_mem (s : State) (ti core : Nat) (r : Room) (p : Party) (cs : List Crew) (held : Bool) :
    (s.restoreParty ti core r p cs held).mem = s.mem := by
  unfold State.restoreParty
  dsimp only
  rw [foldl_mem _ requeue_mem]
  simp only [ranOn_mem, State.modTask_mem, State.modCore_mem, signalWake_mem, invalidateL1_mem]
  exact foldl_mem _ (fun t x => by simp) _ _

theorem restoreAll_mem {s u : State} {ti die : Nat} {l : List (Party × List Crew)} {used : List Nat}
    (hu : s.restoreAll ti die l used = some u) : u.mem = s.mem := by
  induction l generalizing s used with
  | nil => cases hu; rfl
  | cons x rest ih =>
    unfold State.restoreAll at hu
    dsimp only at hu
    split at hu
    · cases hu
    · split at hu
      · exact (ih hu).trans (restoreParty_mem ..)
      · cases hu

theorem execTaskResume_wf {s : State} (h : s.MemWf) {task} : NextMemWf (execTaskResume task s) := by
  refine eventOn_wf h fun t ht => ?_
  dsimp only
  refine ite_state_memWf (ite_state_memWf ht ?_) (ite_state_memWf (foldl_wf _ (fun u p hu => ?_) _ _ ht) ht)
  · split
    · simpa [restoreAll_mem ‹_›] using ht
    · exact ht
  · refine ite_state_memWf ?_ hu
    rw [State.MemWf, foldl_mem _ requeue_mem, resumeParty_mem]
    exact hu

end Sys2Proof.Machine

/-! What the firmware agents do with faults keeps the canonical form. -/

namespace Sys2Proof.Machine

/-! ## The end of a task -/

@[simp] theorem foldl_ringReport_wf {α : Type} {l : List α} {s : State} {ctx : Nat} {r : α → Report} (h : s.MemWf) :
    (l.foldl (fun s x => s.ringReport ctx (r x)) s).MemWf :=
  foldl_wf _ (fun _ _ hu => ringReport_wf hu) _ _ h

@[simp] theorem convoyStopped_wf {s : State} {t : Task} (h : s.MemWf) : (s.convoyStopped t).MemWf :=
  foldl_ringReport_wf (foldl_wf _ (fun _ _ hu => by exact ringReport_wf hu) _ _ h)

@[simp] theorem doomOne_wf {s : State} {ti party : Nat} {r : Report} {kept : Bool} (h : s.MemWf) :
    (s.doomOne ti party r kept).MemWf := by
  unfold State.doomOne
  dsimp only
  exact ite_state_memWf h (foldl_ringReport_wf (by simpa using h))

@[simp] theorem doom_wf {s : State} {ti party : Nat} {r : Report} {kept : Bool} (h : s.MemWf) : (s.doom ti party r kept).MemWf := by
  unfold State.doom
  dsimp only
  split
  · exact doomOne_wf (doomOne_wf h)
  · exact doomOne_wf h

@[simp] theorem doomCrew_wf {s : State} {key : Nat} {r : Report} {kept : Bool} (h : s.MemWf) : (s.doomCrew key r kept).MemWf :=
  doom_wf h

@[simp] theorem finishDoomed_wf {s : State} {ti : Nat} (h : s.MemWf) : (s.finishDoomed ti).MemWf := by
  unfold State.finishDoomed
  dsimp only
  refine ite_state_memWf h (ite_state_memWf ?_ ?_)
  all_goals simpa using convoyStopped_wf (foldl_ringReport_wf h)

/-! ## Service of reports -/

@[simp] theorem resumeServiced_mem (s : State) (key : Nat) (r : Report) : (s.resumeServiced key r).mem = s.mem := by
  unfold State.resumeServiced
  dsimp only
  split <;> simp

@[simp] theorem askForEngine_mem (s : State) (core : Nat) : (s.askForEngine core).mem = s.mem := by
  have hdrop (l : List Nat) : (l.foldl (fun (s : State) k => match s.engineStuck k with
      | some va => match s.pageWalk (s.ctxOf k) va with | .ok _ => s.dropWalks (engineAsk k) | .error _ => s
      | none => s) s).mem = s.mem := by
    refine foldl_mem _ (fun t k => ?_) _ _
    repeat' split
    all_goals rfl
  unfold State.askForEngine
  dsimp only
  split
  · split
    · rw [endAsk_mem]; exact hdrop _
    · exact hdrop _
  · split
    · exact hdrop _
    · split
      · exact hdrop _
      · exact hdrop _

theorem execFaultService_wf {s : State} (h : s.MemWf) {core} : NextMemWf (execFaultService core s) := by
  refine eventOn_wf h fun t ht => ?_
  split
  · simpa using ht
  · split
    · simpa using ht
    · exact ite_state_memWf (by simpa using ht) (by simpa using ht)
    · simpa using ht

@[simp] theorem placeHandler_mem (s : State) (core : Nat) : (s.placeHandler core).mem = s.mem := by
  unfold State.placeHandler
  dsimp only
  cases hx : (s.core core).handlers.findSome? _ with
  | none => rfl
  | some u =>
    obtain ⟨h, -, hu⟩ := List.exists_of_findSome?_eq_some hx
    obtain ⟨v, hv, rfl⟩ := Option.map_eq_some_iff.1 hu
    obtain ⟨k, -, hk⟩ := Option.bind_eq_some_iff.1 hv
    simp [placeTask_mem hk]

@[simp] theorem makeHandler_mem (s : State) (core key : Nat) (r : Report) (va : Nat) :
    (s.makeHandler core key r va).mem = s.mem := rfl

theorem execHandlerTaskStart_wf {s : State} (h : s.MemWf) {core} : NextMemWf (execHandlerTaskStart core s) := by
  refine eventOn_wf h fun t ht => ?_
  dsimp only
  rw [State.MemWf, placeHandler_mem]
  split
  · exact ht
  · split
    · exact ht
    · split
      · exact ht
      · exact doomCrew_wf ht
      · exact ringPut_wf ht ‹_›

theorem execHandlerPlaceTimeout_wf {s : State} (h : s.MemWf) {core} : NextMemWf (execHandlerPlaceTimeout core s) := by
  refine eventOn_wf h fun t ht => ?_
  dsimp only
  split
  · exact doomCrew_wf ht
  · split
    · exact ite_state_memWf (doomCrew_wf ht) ht
    · exact ht

theorem execHandlerVerdict_wf {s : State} (h : s.MemWf) {task} : NextMemWf (execHandlerVerdict task s) := by
  refine eventOn_wf h fun t ht => ?_
  -- The address and the verdict stay abstract: the kernel would compute with 2 ^ 32.
  extract_lets hd va place v u
  have hu : u.MemWf := ht
  clear_value v place
  cases hd.handlerOf with
  | none => exact ht
  | some x =>
    obtain ⟨key, r⟩ := x
    dsimp -zeta only
    extract_lets c go
    have hgo (how : FretHow) (pc : DWord) : (go how pc).MemWf := ite_state_memWf (doomCrew_wf hu) (by simpa using hu)
    refine ite_state_memWf ht ?_
    split <;> split
    · exact ht
    · split
      · exact hu
      · split
        · exact hgo _ _
        · exact hgo _ _
        · exact hgo _ _
        · exact doomCrew_wf hu
    · exact ht
    · split
      · exact hu
      · split
        · exact hgo _ _
        · exact hgo _ _
        · exact hgo _ _
        · exact doomCrew_wf hu

theorem execTaskFaultEnd_wf {s : State} (h : s.MemWf) {core} : NextMemWf (execTaskFaultEnd core s) := by
  refine eventOn_wf h fun t ht => ?_
  refine foldl_wf _ (fun _ _ hu => finishDoomed_wf hu) _ _ ?_
  split
  · exact ht
  · exact ite_state_memWf (doomCrew_wf ht) ht

@[simp] theorem pageReply_mem (s : State) (core : Nat) (granted : Bool) : (s.pageReply core granted).mem = s.mem := by
  unfold State.pageReply
  dsimp only
  repeat' split
  all_goals simp

/-! ## Machine checks -/

@[simp] theorem corrected_mem (s : State) : s.corrected.mem = s.mem := rfl
@[simp] theorem logError_mem (s : State) (e : Nat) : (s.logError e).mem = s.mem := rfl

@[simp] theorem unpark_mem (s : State) (die : Nat) : (s.unpark die).mem = s.mem := by
  unfold State.unpark
  dsimp only
  repeat' split
  all_goals rfl

@[simp] theorem returnDet_mem (s : State) (die li : Nat) : (s.returnDet die li).mem = s.mem := by
  unfold State.returnDet
  dsimp only
  split <;> rfl

@[simp] theorem returnRoots_mem (s : State) (die : Nat) : (s.returnRoots die).mem = s.mem := by
  unfold State.returnRoots
  dsimp only
  rw [foldl_mem _ (fun t li => returnDet_mem t die li), State.modDie_mem, foldl_mem _ fun t r => State.modLaunch_mem ..]
  exact unpark_mem s die

@[simp] theorem clearReady_mem (s : State) (bit : Nat) : (s.clearReady bit).mem = s.mem := by
  unfold State.clearReady
  dsimp only
  refine ite_mem rfl (ite_mem rfl ?_)
  rw [returnRoots_mem]
  exact ite_mem rfl rfl

@[simp] theorem dropAmps_mem (s : State) (key : Nat) : (s.dropAmps key).mem = s.mem := by
  refine foldl_mem _ (fun t o => ?_) _ _
  split
  · split <;> simp
  · rfl

theorem coreTasksEnd_wf {s : State} {core : Nat} {sub : BitVec 8} (h : s.MemWf) : (s.coreTasksEnd core sub).MemWf := by
  refine foldl_wf _ (fun t p ht => finishDoomed_wf ?_) _ _ h
  exact foldl_wf _ (fun u k hu => by simpa using hu) _ _ (doom_wf ht)

theorem execCoreFailure_wf {s : State} (h : s.MemWf) {core} : NextMemWf (execCoreFailure core s) := by
  refine event_wf ?_
  have hw (sub : BitVec 8) := coreTasksEnd_wf (core := core) (sub := sub) h
  exact ite_state_memWf (by simpa using hw _) (by simpa using hw _)

/-! ## Pre-emption -/

@[simp] theorem discardStall_mem (s : State) (key : Nat) : (s.discardStall key).mem = s.mem := by
  unfold State.discardStall
  dsimp only
  split <;> simp

theorem execPreemptRequest_wf {s : State} (h : s.MemWf) {party} : NextMemWf (execPreemptRequest party s) := by
  refine eventOn_wf h fun t ht => ?_
  split
  · exact ht
  · dsimp only
    rw [State.MemWf, State.modCore_mem, foldl_mem _ fun u k => (cancelWait_mem _ k).trans (discardStall_mem u k)]
    simpa using ht

end Sys2Proof.Machine

/-! Privileged instructions and services keep the canonical form. -/

namespace Sys2Proof.Machine

/-! ## The privileged instructions -/

@[simp] theorem status_mem (s : State) (key : Nat) (f : Ctl) (d : Operand) (code : Nat) : (s.status key f d code).mem = s.mem := by
  simp [State.status]

theorem saveParty_wf {s : State} {pk pa : Nat} (h : s.MemWf) : (s.saveParty pk pa).MemWf := by
  unfold State.saveParty
  simpa using Memory.wf_putFields _ _ (Memory.wf_clear _ _ (flushParty_wf h))

theorem execCtxsave_wf {s : State} (h : s.MemWf) {f d a b} : NextMemWf (execCtxsave f d a b s) := by
  refine once_wf h fun u key c hu => ?_
  dsimp only
  refine ite_memWf (by simpa using hu) ?_
  split
  · simpa using hu
  · exact ite_memWf (by simpa using hu) <| ite_memWf (by simpa using hu) <| ite_memWf hu <|
      held?_wf hu (by simpa using saveParty_wf hu)

theorem execCtxload_wf {s : State} (h : s.MemWf) {f d a b} : NextMemWf (execCtxload f d a b s) := by
  refine once_wf h fun u key c hu => ?_
  dsimp only
  refine ite_memWf (by simpa using hu) <| ite_memWf (by simpa using hu) <| ite_memWf (by simpa using hu) <|
    ite_memWf (by simpa using hu) <| ite_memWf (by simpa using hu) <| held?_wf hu ?_
  split
  · simpa using hu
  · simpa using hu

theorem execTlbinv_wf {s : State} (h : s.MemWf) {f d a b sc kind} : NextMemWf (execTlbinv f d a b sc kind s) := by
  refine once_wf h fun u key c hu => ?_
  dsimp only
  exact ite_memWf (by simpa using hu) <| held?_wf hu <| ite_memWf hu (by simpa using hu)

theorem execFret_wf {s : State} (h : s.MemWf) {f d a b how} : NextMemWf (execFret f d a b how s) := by
  refine once_wf h fun u key c hu => ?_
  dsimp only
  exact ite_memWf (by simpa using hu) <| ite_memWf (by simpa using hu) <| ite_memWf (by simpa using hu) <|
    ite_memWf (by simpa using hu) <| ite_memWf (by simpa using doomCrew_wf hu) (by simpa using hu)

theorem execSigraise_wf {s : State} (h : s.MemWf) {f d a b e sc} : NextMemWf (execSigraise f d a b e sc s) := by
  refine once_wf h fun u key c hu => ?_
  dsimp only
  refine ite_memWf (by simpa using hu) ?_
  split
  · simpa using hu
  · refine ite_memWf trivial <| fenced_wf hu fun v hv => ?_
    split
    · exact held?_wf hv (by simpa using signalFrom_wf hv)
    · simpa using hv

theorem execBudset_wf {s : State} (h : s.MemWf) {f d a b kind} : NextMemWf (execBudset f d a b kind s) :=
  once_wf h fun _ _ _ hu => ite_memWf (by simpa using hu) (by simpa using hu)

theorem execWakeset_wf {s : State} (h : s.MemWf) {f d a b} : NextMemWf (execWakeset f d a b s) :=
  once_wf h fun _ _ _ hu => ite_memWf (by simpa using hu) (by simpa using hu)

theorem execSleep_wf {s : State} (h : s.MemWf) {f d} : NextMemWf (execSleep f d s) := by
  refine once_wf h fun u key c hu => ?_
  dsimp only
  split <;> simpa using hu

theorem execAgentWake_wf {s : State} (h : s.MemWf) {core} : NextMemWf (execAgentWake core s) :=
  eventOn_wf h fun t ht => foldl_wf _ (fun u x hu => by simpa using hu) _ _ ht

theorem execWakeDeadline_wf {s : State} (h : s.MemWf) {core} : NextMemWf (execWakeDeadline core s) :=
  event_wf (ite_state_memWf h (by simpa using h))

/-! ## The services of the hub firmware -/

theorem answered_wf {s : State} {key : Nat} {x : Except Nat State} (h : s.MemWf) (hx : OkHolds (State.MemWf ·) x) :
    (answered s key x).MemWf := by
  cases x with
  | error code => simpa [answered] using h
  | ok t => simpa [answered, OkHolds] using hx

theorem service_wf {i : Instr} {f : Ctl} {s : State} {body : State → Nat → Crew → Except Nat State} (h : s.MemWf)
    (hb : ∀ (u : State) (key : Nat) (c : Crew), u.MemWf → OkHolds (State.MemWf ·) (body u key c)) : NextMemWf (service i f s body) :=
  once_wf h fun u key c hu => answered_wf hu (hb u key c hu)

theorem execFwcall_wf {s : State} (h : s.MemWf) {f imm} : NextMemWf (execFwcall f imm s) :=
  once_wf h fun _ _ _ hu => by simpa using hu

/-- A service that finds a fault of its operands answers with its status alone. -/
theorem ite_error_okHolds {p : Prop} [Decidable p] {α : Type} {P : α → Prop} {code : Nat} {x : Except Nat α} (hx : OkHolds P x) :
    OkHolds P (if p then .error code else x) := by
  split
  · trivial
  · exact hx

theorem execCommset_wf {s : State} (h : s.MemWf) {f} : NextMemWf (execCommset f s) := by
  refine service_wf h fun u key c hu => ?_
  dsimp only
  -- Whether the record is well formed does not matter, and unfolding it is costly.
  generalize commOk u (c.arg 0) (c.argPair 2) = ok
  iterate 6 refine ite_error_okHolds ?_
  split
  · simpa [OkHolds] using hu
  · exact hu

theorem execCommclr_wf {s : State} (h : s.MemWf) {f} : NextMemWf (execCommclr f s) :=
  service_wf h fun _ _ _ hu => ite_error_okHolds <| ite_error_okHolds <| ite_error_okHolds hu

theorem execSchedset_wf {s : State} (h : s.MemWf) {f} : NextMemWf (execSchedset f s) :=
  service_wf h fun _ _ _ hu => ite_error_okHolds <| ite_error_okHolds <| ite_error_okHolds <| ite_error_okHolds <|
    ite_error_okHolds hu

theorem execSchedclr_wf {s : State} (h : s.MemWf) {f} : NextMemWf (execSchedclr f s) :=
  service_wf h fun _ _ _ hu => ite_error_okHolds <| ite_error_okHolds <| ite_error_okHolds hu

theorem telemetryRead_mem {s : State} {i : Nat} {x : DWord × State} (hx : s.telemetryRead i = some x) : x.2.mem = s.mem := by
  unfold State.telemetryRead at hx
  dsimp only at hx
  repeat' split at hx
  all_goals cases hx
  all_goals simp

theorem execTelrd_wf {s : State} (h : s.MemWf) {f} : NextMemWf (execTelrd f s) := by
  refine service_wf h fun u key c hu => ?_
  split
  · trivial
  · rename_i v t ht
    rw [OkHolds, State.MemWf, State.modCrew_mem]
    exact (telemetryRead_mem ht) ▸ hu

theorem execFstep_wf {s : State} (h : s.MemWf) {f} : NextMemWf (execFstep f s) :=
  service_wf h fun _ _ _ hu => ite_error_okHolds hu

theorem execRepinv_wf {s : State} (h : s.MemWf) {f} : NextMemWf (execRepinv f s) := by
  refine once_wf h fun u key c hu => ?_
  dsimp only
  refine ite_memWf (answered_wf hu trivial) ?_
  split
  · exact answered_wf hu trivial
  · exact held?_wf hu (answered_wf hu hu)

theorem execAttest_wf {s : State} (h : s.MemWf) {f} : NextMemWf (execAttest f s) := by
  refine service_wf h fun u key c hu => ?_
  dsimp only
  refine ite_error_okHolds <| ite_error_okHolds ?_
  split
  · trivial
  · exact Memory.wf_writeBytes _ _ (Memory.wf_writeBytes _ _ (Memory.wf_clear _ _ hu))

end Sys2Proof.Machine

/-! The life of the package and the host link keep the canonical form. -/

namespace Sys2Proof.Machine

/-! ## The life of the package -/

theorem execRunArbitration_wf {s : State} (h : s.MemWf) {core pipe} : NextMemWf (execRunArbitration core pipe s) := by
  refine eventOn_wf h fun t ht => ite_state_memWf ht ?_
  split
  · exact ht
  · simpa using ht

@[simp] theorem gate_mem (s : State) (core : Nat) : (s.gate core).mem = s.mem := by
  unfold State.gate
  split <;> rfl

theorem execCoreGate_wf {s : State} (h : s.MemWf) {core} : NextMemWf (execCoreGate core s) :=
  eventOn_wf h fun t ht => by simpa using ht

theorem execCoreWake_wf {s : State} (h : s.MemWf) {core code} : NextMemWf (execCoreWake core code s) := by
  refine eventOn_wf h fun t ht => ?_
  split
  · exact ite_state_memWf (by simpa using ht) ht
  · exact ht

theorem execBudgetHold_wf {s : State} (h : s.MemWf) {cls} : NextMemWf (execBudgetHold cls s) := event_wf (ite_state_memWf h h)

theorem execBudgetPeriodStart_wf {s : State} (h : s.MemWf) : NextMemWf (execBudgetPeriodStart s) := event_wf (by simpa using h)

theorem execSpawnStallLimit_wf {s : State} (h : s.MemWf) {crew} : NextMemWf (execSpawnStallLimit crew s) :=
  eventOf_wf h fun t ht => ite_state_memWf (by simpa using ht) ht

theorem execRelockStart_wf {s : State} (h : s.MemWf) {die} : NextMemWf (execRelockStart die s) := by
  refine event_wf ?_
  dsimp only
  split
  · exact ite_state_memWf (by simpa using h) h
  · exact h

theorem execRelockEnd_wf {s : State} (h : s.MemWf) {die} : NextMemWf (execRelockEnd die s) := event_wf (by simpa using h)

@[simp] theorem lower_mem (s : State) (die f : Nat) : (s.lower die f).mem = s.mem := rfl

theorem execPowerStepDown_wf {s : State} (h : s.MemWf) {die} : NextMemWf (execPowerStepDown die s) := by
  refine event_wf ?_
  dsimp only
  refine ite_state_memWf (ite_state_memWf (by simpa using h) (by simpa using h)) ?_
  exact foldl_wf _ (fun t d ht => ite_state_memWf ht (by simpa using ht)) _ _ h

theorem execPowerStepUp_wf {s : State} (h : s.MemWf) {die} : NextMemWf (execPowerStepUp die s) := by
  refine event_wf ?_
  split
  · exact h
  · exact ite_state_memWf (ite_state_memWf (by simpa using h) (by simpa using h)) h

/-! ## Reset, self test and firmware -/

@[simp] theorem cutUpdate_mem (s : State) : s.cutUpdate.2.mem = s.mem := by
  unfold State.cutUpdate
  dsimp only
  split <;> rfl

@[simp] theorem restart_mem (s : State) : s.restart.mem = s.mem := by
  rw [← cutUpdate_mem s]
  unfold State.restart
  dsimp only
  split
  · split <;> rfl
  · rfl

theorem execPackageReset_wf {s : State} (h : s.MemWf) : NextMemWf (execPackageReset s) := by simpa [execPackageReset] using h

theorem foldl_coreTasksEnd_wf {s : State} {cores : List Nat} {sub : BitVec 8} (h : s.MemWf) :
    (cores.foldl (fun s k => s.coreTasksEnd k sub) s).MemWf :=
  foldl_wf _ (fun _ _ ht => coreTasksEnd_wf ht) _ _ h

theorem endAll_wf {s : State} (h : s.MemWf) : s.endAll.MemWf := by
  unfold State.endAll
  dsimp only
  refine foldl_wf _ (fun t p ht => ?_) _ _ (foldl_wf _ (fun t x ht => ?_) _ _ (foldl_coreTasksEnd_wf h))
  · split
    · exact postStep_wf _ _ (postStep_wf _ _ ht)
    · exact postStep_wf _ _ ht
  · exact finishDoomed_wf (doom_wf ht)

theorem execThermalReset_wf {s : State} (h : s.MemWf) {die} : NextMemWf (execThermalReset die s) := by
  simpa [execThermalReset] using endAll_wf (s := s.logError (logRetire (64 + die))) (by simpa using h)

theorem execSelfTestPass_wf {s : State} (h : s.MemWf) {bit freq} : NextMemWf (execSelfTestPass bit freq s) := by
  refine event_wf ?_
  dsimp only
  exact ite_state_memWf h <| ite_state_memWf h <| ite_state_memWf h <| ite_state_memWf h h

theorem execImageFetchRetry_wf {s : State} (h : s.MemWf) {img} : NextMemWf (execImageFetchRetry img s) :=
  eventHost_wf h fun t ht => ite_state_memWf ht <| ite_state_memWf (by simpa using ht) ht

theorem execFirmwareUpdate_wf {s : State} (h : s.MemWf) {img} : NextMemWf (execFirmwareUpdate img s) := by
  refine eventHost_wf h fun t ht => ?_
  dsimp only
  split
  · exact ht
  · exact ite_state_memWf ht ht

/-! ## Retirement and spares -/

theorem execFunctionRetire_wf {s : State} (h : s.MemWf) {bit} : NextMemWf (execFunctionRetire bit s) := by
  refine event_wf (ite_state_memWf h ?_)
  rw [State.MemWf, logError_mem, clearReady_mem]
  refine ite_state_memWf ?_ (foldl_coreTasksEnd_wf h)
  simpa using foldl_coreTasksEnd_wf h

theorem execHbmSpareRepair_wf {s : State} (h : s.MemWf) {stack} : NextMemWf (execHbmSpareRepair stack s) :=
  event_wf (ite_state_memWf (by simpa using h) h)

theorem execLaneSpare_wf {s : State} (h : s.MemWf) {link} : NextMemWf (execLaneSpare link s) :=
  event_wf (ite_state_memWf h (ite_state_memWf h h))

theorem execRetrainEnd_wf {s : State} (h : s.MemWf) {link} : NextMemWf (execRetrainEnd link s) := event_wf h

theorem execUalinkPortDown_wf {s : State} (h : s.MemWf) {port} : NextMemWf (execUalinkPortDown port s) :=
  event_wf (ite_state_memWf h h)

theorem execCrcErrorReplay_wf {s : State} (h : s.MemWf) {port} : NextMemWf (execCrcErrorReplay port s) :=
  event_wf (ite_state_memWf h (by simpa using h))

/-! ## The host link -/

theorem hostWrite_wf {s : State} {ps : List (Nat × Attr × Nat)} {bs : List Byte} {ct : Nat} (h : s.MemWf) :
    (s.hostWrite ps bs ct).1.MemWf := by
  induction ps generalizing s bs ct with
  | nil => exact h
  | cons p rest ih => exact ih (homePut_wf h)

@[simp] theorem tailWake_mem (s : State) (ctx va n : Nat) : (s.tailWake ctx va n).mem = s.mem := by
  unfold State.tailWake
  split
  · exact foldl_mem _ (fun t k => signalWake_mem t k 8) _ _
  · rfl

@[simp] theorem reply_mem (s : State) (m : HostMsg) : (s.reply m).mem = s.mem := rfl
@[simp] theorem modQp_mem (s : State) (qp : Nat) (f : QueuePair → QueuePair) : (s.modQp qp f).mem = s.mem := rfl

theorem hostDo_wf {s u : State} {qp : Nat} {q : HostReq} (h : s.MemWf) (hu : s.hostDo qp q = some u) : u.MemWf := by
  unfold State.hostDo at hu
  dsimp only at hu
  repeat' split at hu
  all_goals cases hu
  all_goals simp [h, hostWrite_wf, signalPut_wf]

@[simp] theorem qpAway_mem (s : State) (qp : Nat) : (s.qpAway qp).mem = s.mem := by
  unfold State.qpAway
  dsimp only
  repeat' split
  all_goals rfl

theorem serveQp_wf {s : State} {qp fuel : Nat} (h : s.MemWf) : (s.serveQp qp fuel).MemWf := by
  induction fuel generalizing s with
  | zero => exact h
  | succ n ih =>
    have ha : (s.qpAway qp).MemWf := by simpa using h
    unfold State.serveQp
    dsimp only
    refine ite_state_memWf ha ?_
    generalize hv : (if ((Tbl.get? (s.qpAway qp).qps qp).getD {}).ackDue = true then _ else s.qpAway qp) = v
    have hw : v.MemWf := by rw [← hv]; exact ite_state_memWf (by simpa using h) ha
    split
    · exact hw
    · refine ite_state_memWf hw ?_
      split
      · exact ih (by simpa using hostDo_wf hw ‹_›)
      · split
        · exact ite_state_memWf hw (by simpa using hw)
        · exact hw

theorem serveQps_wf {s : State} (h : s.MemWf) : s.serveQps.MemWf :=
  ite_state_memWf h (foldl_wf _ (fun _ _ ht => by exact serveQp_wf ht) _ _ h)

theorem hostRequest_wf {qp ctx : Nat} {q : HostReq} {s : State} (h : s.MemWf) : NextMemWf (hostRequest qp ctx q s) :=
  eventHost_wf h fun _ ht => ite_state_memWf (serveQp_wf (by simpa using ht)) ht

theorem execHostPageReply_wf {s : State} (h : s.MemWf) {core granted} : NextMemWf (execHostPageReply core granted s) := by
  refine eventHost_wf h fun t ht => ite_state_memWf ht ?_
  split
  · simpa using ht
  · split
    · exact ht
    · refine ite_state_memWf (serveQp_wf (by simpa using ht)) ?_
      split
      · simpa using ht
      · exact serveQp_wf (by simpa using ht)

theorem execRegionInstall_wf {s : State} (h : s.MemWf) {ctx idx base len r w atomic key} :
    NextMemWf (execRegionInstall ctx idx base len r w atomic key s) :=
  eventHost_wf h fun _ ht => ite_state_memWf ht ht

theorem execMirroredPageInstall_wf {s : State} (h : s.MemWf) {ctx idx page host key qp} :
    NextMemWf (execMirroredPageInstall ctx idx page host key qp s) :=
  eventHost_wf h fun _ ht => ite_state_memWf ht ht

theorem execContextTableUpdate_wf {s : State} (h : s.MemWf) {ctx entry} : NextMemWf (execContextTableUpdate ctx entry s) :=
  eventHost_wf h fun _ ht => ite_state_memWf ht (Memory.wf_writeBytes _ _ (Memory.wf_clear _ _ ht))

end Sys2Proof.Machine

/-! Control and arithmetic keep the canonical form, and so does every instruction and every event. -/

namespace Sys2Proof.Machine

/-! ## Control and floating-point instructions -/

theorem branch_wf {f : Ctl} {ofs : BitVec 20} {link : Crew → Crew} {s : State} {key : Nat} {c : Crew} (h : s.MemWf) :
    (branch f ofs link s key c).MemWf :=
  ite_memWf h <| ite_memWf (by simpa using h) <| ite_memWf trivial (by simpa using h)

theorem transfer_wf {f : Ctl} {a : Operand} {s : State} {key : Nat} {c : Crew} (h : s.MemWf) : (transfer f a s key c).MemWf := by
  unfold transfer
  dsimp only
  split
  · trivial
  · split
    · exact h
    · exact ite_memWf h (by simpa using h)
    · exact ite_memWf trivial (by simpa using h)

theorem leaveTo_wf {f : Ctl} {ofs : BitVec 20} {s : State} {key : Nat} {c : Crew} (h : s.MemWf) : (leaveTo f ofs s key c).MemWf := by
  unfold leaveTo
  dsimp only
  split
  · trivial
  · exact ite_memWf h (by simpa using h)

theorem execExit_wf {s : State} (h : s.MemWf) {f} : NextMemWf (execExit f s) :=
  issue_wf h fun _ _ _ hu => ite_memWf hu <| ite_memWf (by simpa [crewEnd_mem] using hu) (by simpa using hu)

theorem execReconv_wf {s : State} (h : s.MemWf) {f ofs} : NextMemWf (execReconv f ofs s) :=
  issue_wf h fun _ _ _ hu => ite_memWf hu <| ite_memWf trivial (by simpa using hu)

theorem execTrap_wf {s : State} (h : s.MemWf) {f imm} : NextMemWf (execTrap f imm s) := by
  refine issue_wf h fun u key c hu => ?_
  split
  · exact hu
  · trivial

theorem execIllegalInstruction_wf {s : State} (h : s.MemWf) {why} : NextMemWf (execIllegalInstruction why s) := by
  refine issue_wf h fun u key c hu => ?_
  split <;> trivial

theorem floatOp_wf {i : Instr} {f : Ctl} {d : Operand} {stoch : Word → Bool} {s : State}
    {val : State → Nat → Crew → Nat → Block → Nat × LaneTrap} (h : s.MemWf) : NextMemWf (floatOp i f d stoch s val) := by
  refine issue_wf h fun u key c hu => ?_
  dsimp only
  split
  · trivial
  · exact hu

theorem unary_wf {i : Instr} {f : Ctl} {sz : Bool} {d a : Operand} {s : State} {g : Nat → Nat → Nat} (h : s.MemWf) :
    NextMemWf (unary i f sz d a s g) := lanewise_wf h

theorem binary_wf {i : Instr} {f : Ctl} {sz : Bool} {d a b : Operand} {s : State} {g : Nat → Nat → Nat → Nat} (h : s.MemWf) :
    NextMemWf (binary i f sz d a b s g) := lanewise_wf h

theorem ternary_wf {i : Instr} {f : Ctl} {sz : Bool} {d a b e : Operand} {s : State} {g : Nat → Nat → Nat → Nat → Nat}
    (h : s.MemWf) : NextMemWf (ternary i f sz d a b e s g) := lanewise_wf h

theorem arith_wf {i : Instr} {f : Ctl} {d : Operand} {srcs : List Operand} {ro : RO} {s : State} {g : Bool → List Num → Num}
    (h : s.MemWf) : NextMemWf (arith i f d srcs ro s g) := floatOp_wf h

theorem pickOp_wf {i : Instr} {f : Ctl} {d a b : Operand} {mx : Bool} {s : State} (h : s.MemWf) :
    NextMemWf (pickOp i f d a b mx s) := floatOp_wf h

theorem function_wf {i : Instr} {f : Ctl} {d a : Operand} {s : State} {g : Num → Num} (h : s.MemWf) :
    NextMemWf (function i f d a s g) := floatOp_wf h

theorem packed_wf {i : Instr} {f : Ctl} {d : Operand} {srcs : List Operand} {ht : HTy} {ro : RO} {s : State}
    {g : Bool → List Num → Num} (h : s.MemWf) : NextMemWf (packed i f d srcs ht ro s g) := floatOp_wf h

theorem execDot4_wf {s : State} (h : s.MemWf) {f d a b e et ro} : NextMemWf (execDot4 f d a b e et ro s) := by
  unfold execDot4
  split
  · exact lanewise_wf h
  · exact lanewise_wf h
  · exact floatOp_wf h

theorem execPedcmp_wf {s : State} (h : s.MemWf) {f d a b} : NextMemWf (execPedcmp f d a b s) := by
  refine once_wf h fun u key c hu => ?_
  dsimp only
  split
  · trivial
  · trivial
  · exact hu

/-! ## Every instruction and every event keeps the canonical form of memory -/

theorem exec_wf {s : State} (h : s.MemWf) (i : Instr) : NextMemWf (exec i s) := by
  unfold exec
  cases i with
  | ineg | iabs | not | popc | clz | ctz | brev => exact unary_wf h
  | iadd | isub | iaddsat | isubsat | imin | imax | imul | imulhi | idiv | irem | and | or | xor | andn | orn | shl
  | shr | sar | rotl | clmul | clmulh => exact binary_wf h
  | iadd3 | imad | shf => exact ternary_wf h
  | imadw | bfx | bfi | prmt | icmp | pand | por | pxor | pnot | sel | shfl | mov | movi | lea | i2i | rdsp | fcmp
  | fclass | clk2mer => exact lanewise_wf h
  | vote | bcast | redux | pedget | fmtget => exact uniform_wf h
  | wrsp | fmtset | yield => exact once_wf h fun _ _ _ hu => hu
  | nop | rngu | rngn => exact issue_wf h fun _ _ _ hu => hu
  | bra | call => exact issue_wf h fun _ _ _ hu => branch_wf hu
  | brx | ret => exact issue_wf h fun _ _ _ hu => transfer_wf hu
  | brk | cont => exact issue_wf h fun _ _ _ hu => leaveTo_wf hu
  | fadd | fsub | fmul | ffma => exact arith_wf h
  | fmin | fmax => exact pickOp_wf h
  | frcp | frsq | fsqrt | fex2 | flg2 | fsin | fcos => exact function_wf h
  | hadd2 | hmul2 | hfma2 => exact packed_wf h
  | cvt => exact floatOp_wf h
  | red | fred => exact issue_wf h fun _ _ _ hu => reduce_wf hu
  | sigset | sigadd | tkserve => exact issue_wf h fun _ _ _ hu => signalOp_wf hu
  | tmma | tmmae | tmmag => exact product_wf h
  | ommv | ommve => exact octetOp_wf h
  | rdmer | rdclk => exact clockRead_wf h
  | rdmaWrite | rdmaRead | atomicFetchAdd | atomicCmpSwap | unsupportedRequest => exact hostRequest_wf h
  | exit => exact execExit_wf h
  | reconv => exact execReconv_wf h
  | trap => exact execTrap_wf h
  | illegalInstruction => exact execIllegalInstruction_wf h
  | ld => exact execLd_wf h
  | st => exact execSt_wf h
  | pref => exact execPref_wf h
  | lds => exact execLds_wf h
  | sts => exact execSts_wf h
  | ldr => exact execLdr_wf h
  | str => exact execStr_wf h
  | ldw => exact execLdw_wf h
  | fence => exact execFence_wf h
  | iinv => exact execIinv_wf h
  | cflush => exact execCflush_wf h
  | waitc => exact execWaitc_wf h
  | tshape => exact execTshape_wf h
  | tcopy => exact execTcopy_wf h
  | atom => exact execAtom_wf h
  | atoms => exact execAtoms_wf h
  | sigwait => exact execSigwait_wf h
  | ticket => exact execTicket_wf h
  | dot4 => exact execDot4_wf h
  | pedcmp => exact execPedcmp_wf h
  | spawn => exact execSpawn_wf h
  | spawnr => exact execSpawnr_wf h
  | join => exact execJoin_wf h
  | vdecl => exact execVdecl_wf h
  | vptr => exact execVptr_wf h
  | vfin => exact execVfin_wf h
  | alloc => exact execAlloc_wf h
  | barp => exact execBarp_wf h
  | barc => exact execBarc_wf h
  | arriveInit => exact execArriveInit_wf h
  | arrive => exact execArrive_wf h
  | await => exact execAwait_wf h
  | ringputGet => exact execRingputGet_wf h
  | ringputPub => exact execRingputPub_wf h
  | ringputInit => exact execRingputInit_wf h
  | ringgetGet => exact execRinggetGet_wf h
  | ringgetRel => exact execRinggetRel_wf h
  | trigger => exact execTrigger_wf h
  | tzero => exact execTzero_wf h
  | tload => exact execTload_wf h
  | tadd => exact execTadd_wf h
  | tlink => exact execTlink_wf h
  | tdrain => exact execTdrain_wf h
  | tdrainl => exact execTdrainl_wf h
  | histrd => exact execHistrd_wf h
  | histclr => exact execHistclr_wf h
  | tcopyx => exact execTcopyx_wf h
  | cstart => exact execCstart_wf h
  | cstat => exact execCstat_wf h
  | agate => exact execAgate_wf h
  | amap => exact execAmap_wf h
  | amapRd => exact execAmapRd_wf h
  | aswap => exact execAswap_wf h
  | anorm => exact execAnorm_wf h
  | ctxsave => exact execCtxsave_wf h
  | ctxload => exact execCtxload_wf h
  | tlbinv => exact execTlbinv_wf h
  | fret => exact execFret_wf h
  | fwcall => exact execFwcall_wf h
  | sigraise => exact execSigraise_wf h
  | budset => exact execBudset_wf h
  | wakeset => exact execWakeset_wf h
  | sleep => exact execSleep_wf h
  | agentWake => exact execAgentWake_wf h
  | wakeDeadline => exact execWakeDeadline_wf h
  | loadBind => exact execLoadBind_wf h
  | storeComplete => exact execStoreComplete_wf h
  | replacementWriteback => exact execReplacementWriteback_wf h
  | leaseExpiry => exact execLeaseExpiry_wf h
  | serviceCrewApply => exact execServiceCrewApply_wf h
  | waitAtHomeSatisfied => exact execWaitAtHomeSatisfied_wf h
  | accessRetry => exact execAccessRetry_wf h
  | pageWalkDone => exact execPageWalkDone_wf h
  | copyComplete => exact execCopyComplete_wf h
  | copyAbandon => exact execCopyAbandon_wf h
  | tileOpComplete => exact execTileOpComplete_wf h
  | drainComplete => exact execDrainComplete_wf h
  | fusionWindowClose => exact execFusionWindowClose_wf h
  | fusedPass => exact execFusedPass_wf h
  | collectiveComplete => exact execCollectiveComplete_wf h
  | collectiveTimeout => exact execCollectiveTimeout_wf h
  | scheduleEnd => exact execScheduleEnd_wf h
  | ampMatch => exact execAmpMatch_wf h
  | ampCommandComplete => exact execAmpCommandComplete_wf h
  | ampMatchTimeout => exact execAmpMatchTimeout_wf h
  | ampExchangeTimeout => exact execAmpExchangeTimeout_wf h
  | faultService => exact execFaultService_wf h
  | hostPageReply => exact execHostPageReply_wf h
  | handlerTaskStart => exact execHandlerTaskStart_wf h
  | handlerPlaceTimeout => exact execHandlerPlaceTimeout_wf h
  | handlerVerdict => exact execHandlerVerdict_wf h
  | taskFaultEnd => exact execTaskFaultEnd_wf h
  | coreFailure => exact execCoreFailure_wf h
  | linkLost => exact execLinkLost_wf h
  | preemptRequest => exact execPreemptRequest_wf h
  | taskComplete => exact execTaskComplete_wf h
  | joinSuspend => exact execJoinSuspend_wf h
  | taskResume => exact execTaskResume_wf h
  | admitNext => exact execAdmitNext_wf h
  | dependenceRelease => exact execDependenceRelease_wf h
  | batchDeal => exact execBatchDeal_wf h
  | coreTakeWork => exact execCoreTakeWork_wf h
  | gangStart => exact execGangStart_wf h
  | runArbitration => exact execRunArbitration_wf h
  | launchComplete => exact execLaunchComplete_wf h
  | triggerPoint => exact execTriggerPoint_wf h
  | coreGate => exact execCoreGate_wf h
  | coreWake => exact execCoreWake_wf h
  | budgetPeriodStart => exact execBudgetPeriodStart_wf h
  | budgetHold => exact execBudgetHold_wf h
  | spawnStallLimit => exact execSpawnStallLimit_wf h
  | relockStart => exact execRelockStart_wf h
  | relockEnd => exact execRelockEnd_wf h
  | powerStepDown => exact execPowerStepDown_wf h
  | powerStepUp => exact execPowerStepUp_wf h
  | thermalReset => exact execThermalReset_wf h
  | packageReset => exact execPackageReset_wf h
  | selfTestPass => exact execSelfTestPass_wf h
  | imageFetchRetry => exact execImageFetchRetry_wf h
  | firmwareUpdate => exact execFirmwareUpdate_wf h
  | functionRetire => exact execFunctionRetire_wf h
  | hbmSpareRepair => exact execHbmSpareRepair_wf h
  | laneSpare => exact execLaneSpare_wf h
  | regionInstall => exact execRegionInstall_wf h
  | mirroredPageInstall => exact execMirroredPageInstall_wf h
  | commset => exact execCommset_wf h
  | commclr => exact execCommclr_wf h
  | schedset => exact execSchedset_wf h
  | schedclr => exact execSchedclr_wf h
  | telrd => exact execTelrd_wf h
  | fstep => exact execFstep_wf h
  | repinv => exact execRepinv_wf h
  | attest => exact execAttest_wf h
  | contextTableUpdate => exact execContextTableUpdate_wf h
  | ualinkPortDown => exact execUalinkPortDown_wf h
  | crcErrorReplay => exact execCrcErrorReplay_wf h
  | retrainEnd => exact execRetrainEnd_wf h

end Sys2Proof.Machine

/-! A step of the package keeps the canonical form. -/

namespace Sys2Proof.Machine

/-! ## Fetch and issue -/

/-- Whatever a fetch gives, the state it leaves has memory in its canonical form. -/
@[simp] def Fetched.MemWf : Fetched → Prop
  | .word _ t | .wait _ t | .bad _ t => t.MemWf

@[simp] theorem fetchLine_wf {s : State} {core ln : Nat} {a : Attr} (h : s.MemWf) : (s.fetchLine core a ln).2.MemWf := by
  unfold State.fetchLine
  split
  · exact h
  · simpa using readLine_wf h

@[simp] theorem fetchPart_wf {s : State} {core pa n : Nat} {a : Attr} (h : s.MemWf) : (s.fetchPart core a pa n).2.MemWf :=
  fetchLine_wf h

@[simp] theorem fetchCharge_mem (s : State) (key : Nat) (a : Attr) (pa : Nat) : (s.fetchCharge key a pa).mem = s.mem := by
  unfold State.fetchCharge
  split
  · rfl
  · exact charge_mem ..

theorem fetchAll_wf {s : State} {key : Nat} {pieces : List (Nat × Nat)} {bs : List Byte} (h : s.MemWf) :
    (s.fetchAll key pieces bs).MemWf := by
  induction pieces generalizing s bs with
  | nil => exact h
  | cons p rest ih =>
    have ht : (s.translate key .exec p.1).2.MemWf := by simpa using h
    unfold State.fetchAll
    dsimp only
    split <;> simp only [‹s.translate key .exec p.1 = _›] at ht
    · exact ht
    · exact ht
    · simpa using ht
    · exact ht
    · split
      · exact ht
      · split
        · exact ht
        · split
          · simpa using ht
          · exact ih (fetchPart_wf (by simpa using ht))

theorem fetch_wf {s : State} {key : Nat} (h : s.MemWf) : (s.fetch key).MemWf := by
  unfold State.fetch
  dsimp only
  split
  · exact h
  · split
    · exact h
    · exact fetchAll_wf h

theorem issueNext_wf {s : State} {key : Nat} (h : s.MemWf) : NextMemWf (s.issueNext key) := by
  unfold State.issueNext
  dsimp only
  split
  · simpa using h
  · have hf := fetch_wf (s := { s with cur := some key, turn := key + 1 }.modCrew key Crew.settle) (key := key) (by simpa using h)
    split
    · exact exec_wf (by simpa [‹State.fetch _ key = _›] using hf) _
    · simpa [‹State.fetch _ key = _›] using hf
    · have ht := by simpa [‹State.fetch _ key = _›] using hf
      split
      · exact exec_wf ht _
      · exact exec_wf ht _

/-! ## The order of a step -/

theorem NextMemWf.of_eq {x : Host.Outcome State Fault Refusal} {t : State} (h : NextMemWf x) (hx : x = .next t) : t.MemWf := by
  rw [hx] at h
  exact h

theorem autoEvent_wf {s t : State} (h : s.MemWf) (ht : s.autoEvent = some t) : t.MemWf := by
  obtain ⟨i, -, hi⟩ := List.exists_of_findSome?_eq_some ht
  split at hi
  · rename_i u hu
    dsimp only at hi
    split at hi
    · cases hi
    · cases hi
      exact (exec_wf h i).of_eq hu
  · cases hi

@[simp] theorem ownerWaits_mem (s : State) (key : Nat) : (s.ownerWaits key).mem = s.mem := by
  unfold State.ownerWaits
  dsimp only
  split <;> simp

@[simp] theorem newRound_mem (s : State) : s.newRound.mem = s.mem := foldl_mem _ ownerWaits_mem _ s

theorem judgeWait_wf {s : State} {key : Nat} {w : Wait} (h : s.MemWf) : (s.judgeWait key w).MemWf := by
  unfold State.judgeWait
  dsimp only
  split
  · rename_i t ht
    have hw : t.MemWf := (issueNext_wf (by simpa using h)).of_eq ht
    exact ite_state_memWf hw (by simpa using h)
  · simpa using h

@[simp] theorem judgeCut_mem (s : State) (key : Nat) : (s.judgeCut key).mem = s.mem := by
  unfold State.judgeCut
  split
  · rfl
  · exact State.modCrew_mem ..

theorem judgeWaits_wf {s : State} (h : s.MemWf) : s.judgeWaits.MemWf := by
  refine foldl_wf _ (fun t k ht => ite_state_memWf ht ?_) _ _ h
  split
  · exact ite_state_memWf (ite_state_memWf (by simpa using ht) ht) (judgeWait_wf ht)
  · exact ite_state_memWf (by simpa using ht) ht

@[simp] theorem wakeReady_mem (s : State) : s.wakeReady.mem = s.mem :=
  foldl_mem _ (fun t x => by dsimp only; split <;> rfl) _ _

theorem observe_wf {s : State} (h : s.MemWf) : s.observe.MemWf := by
  unfold State.observe
  dsimp only
  rw [State.MemWf, foldl_mem _ gate_mem, wakeReady_mem]
  exact judgeWaits_wf h

theorem advanceOnce_wf {s : State} (h : s.MemWf) : NextMemWf s.advanceOnce := by
  unfold State.advanceOnce
  split
  · rename_i i rest _
    have hw : { s with agenda := rest }.MemWf := h
    dsimp only
    split
    · exact exec_wf hw i
    · exact hw
  · split
    · exact issueNext_wf h
    · split
      · exact autoEvent_wf h ‹_›
      · split
        · exact issueNext_wf h
        · simpa using h

theorem step_wf {s : State} (h : s.MemWf) : NextMemWf (step s) := advanceOnce_wf (observe_wf (serveQps_wf (tick_wf h)))

/-- Settles O9: time, the host link and the judgement of waits keep the canonical form (`tick_wf`, `serveQps_wf`, `observe_wf`), and so
does every instruction and every event (`exec_wf`). -/
theorem stepKeepsMemory : Obligations.StepKeepsMemory := fun _ _ h ht => (step_wf h).of_eq ht

end Sys2Proof.Machine

/-! Taking a fault (spec/13 R231, R232, R234). -/
namespace Sys2Proof.Machine

/-! ## What the entry of a fault leaves before the run ends -/

/-- A crew once a party has been told to stop (spec/13 R234). -/
def Crew.toldToStop (c : Crew) (party : Nat) : Crew :=
  if c.party = party && c.role.isSome then { c with halted := true } else c

theorem sameRegs_toldToStop (c : Crew) (party : Nat) : Crew.SameRegs c (c.toldToStop party) := by
  unfold Crew.toldToStop; split <;> exact ⟨rfl, rfl, rfl⟩

theorem halted_toldToStop {c : Crew} {party : Nat} (hp : c.party = party) (hr : c.role.isSome = true) :
    (c.toldToStop party).halted = true := by
  simp [Crew.toldToStop, hp, hr]

theorem crews_haltParty (s : State) (party : Nat) :
    (s.haltParty party).crews = s.crews.map fun x => (x.1, x.2.toldToStop party) :=
  List.map_congr_left fun x _ => by dsimp only [Crew.toldToStop]; split <;> rfl

/-- A stop reaches the listed crews of the party; an agent, and a slot without a crew, have no role. -/
theorem crew_haltParty (s : State) (party k : Nat) : (s.haltParty party).crew k = (s.crew k).toldToStop party := by
  unfold State.crew
  rw [crews_haltParty, Tbl.get?_map s.crews fun _ c => c.toldToStop party]
  cases Tbl.get? s.crews k with
  | some c => rfl
  | none => cases isAgentKey k <;> simp [Crew.toldToStop, Crew.agent, Crew.absent]

@[simp] theorem crew_leaveRings (s : State) (key k : Nat) : (s.leaveRings key).crew k = s.crew k := by
  unfold State.leaveRings; dsimp only; split <;> rfl

@[simp] theorem core_leaveRings (s : State) (key k : Nat) : (s.leaveRings key).core k = s.core k := by
  unfold State.leaveRings; dsimp only; split <;> rfl

theorem crews_leaveRings (s : State) (key : Nat) : (s.leaveRings key).crews = s.crews := by
  unfold State.leaveRings; dsimp only; split <;> rfl

/-- A crew that is listed stays listed when its party stops. -/
theorem listed_haltParty {s : State} {party k : Nat} (h : (Tbl.get? s.crews k).isSome = true) :
    (Tbl.get? (s.haltParty party).crews k).isSome = true := by
  rw [crews_haltParty, Tbl.get?_map s.crews fun _ c => c.toldToStop party, Option.isSome_map]
  exact h

/-- The report that a crew takes now (spec/13 R232, Table 13-2). -/
def State.reportNow (s : State) (key : Nat) (r : Report) : Report :=
  { s.fillReport key (s.crew key) r with tick := s.meridian }

/-- A crew that holds its report and waits for nothing. -/
def Crew.faulting (c : Crew) (r : Report) : Crew :=
  { c with report := some r, halted := true, wait := none, stall := none, phase := 0, reply := none }

/-- The entry of a fault, but for the end of the run. -/
def State.faultEntry (s : State) (key : Nat) (r : Report) : State :=
  ((((s.leaveRings key).haltParty (s.crew key).party).modCrew key fun c => c.faulting (s.reportNow key r)).modCore
    (coreOf key) fun x =>
      { x with reports := x.reports ++ [(key, s.reportNow key r)],
               stallers := if r.cause = 0x05 && r.eng = 0 && (s.crew key).role.isSome then x.stallers ++ [key]
                           else x.stallers }).signalWake (coreOf key) 6

theorem takeFault_eq (s : State) (key : Nat) (r : Report) :
    s.takeFault key r = (s.faultEntry key r).endRun key false := rfl

theorem crew_faultEntry {s : State} {key : Nat} {r : Report} (h : (Tbl.get? s.crews key).isSome = true) :
    (s.faultEntry key r).crew key = ((s.crew key).toldToStop (s.crew key).party).faulting (s.reportNow key r) := by
  have hl : (Tbl.get? ((s.leaveRings key).haltParty (s.crew key).party).crews key).isSome = true :=
    listed_haltParty (by rw [crews_leaveRings]; exact h)
  unfold State.faultEntry State.signalWake
  rw [State.crew_modCore, State.crew_modCore, crew_modCrew_self _ (by rw [hl]; rfl), crew_haltParty, crew_leaveRings]

theorem crew_faultEntry_ne {s : State} {key k : Nat} {r : Report} (h : k ≠ key) :
    (s.faultEntry key r).crew k = (s.crew k).toldToStop (s.crew key).party := by
  unfold State.faultEntry State.signalWake
  rw [State.crew_modCore, State.crew_modCore, State.crew_modCrew_ne _ _ h, crew_haltParty, crew_leaveRings]

/-- The faults that stall the core of a user crew: a translation fault that no engine met (spec/13 R231). -/
theorem core_faultEntry {s : State} {key : Nat} {r : Report} (hr : (s.crew key).role.isSome = true) :
    let x := s.core (coreOf key)
    let y := (s.faultEntry key r).core (coreOf key)
    y.reports = x.reports ++ [(key, s.reportNow key r)] ∧ y.fw.pending.getLsbD 6 = true ∧
      y.stallers = if r.cause = 0x05 ∧ r.eng = 0 then x.stallers ++ [key] else x.stallers := by
  have hcore (party : Nat) : ((s.leaveRings key).haltParty party).core (coreOf key) = s.core (coreOf key) :=
    core_leaveRings s key (coreOf key)
  unfold State.faultEntry State.signalWake
  rw [State.core_modCore_self, State.core_modCore_self, State.core_modCrew, hcore, hr]
  exact ⟨rfl, by simp [Alarm.signal], by simp⟩

/-- A crew that holds a report does not issue (spec/13 R234). -/
theorem canIssue_of_report {s : State} {key : Nat} {q : Report} (h : (s.crew key).report = some q) : s.canIssue key = false := by
  have hstopped : s.stopped key = true := by simp [State.stopped, State.barred, h]
  simp only [State.canIssue, hstopped, Bool.not_true, Bool.false_and]

/-- Settles O10: the entry of the fault changes the crews of the party and the core, and the end of the run that follows keeps what it
has left there. -/
theorem takeFault : Obligations.TakeFault := by
  intro s key r hlisted hrole t
  have ht : t = (s.faultEntry key r).endRun key false := takeFault_eq s key r
  obtain ⟨-, hothers, hcores⟩ := quiet_endRun (s.faultEntry key r) key false
  obtain ⟨hkeeps, hregs, hpc⟩ := settles_endRun (s.faultEntry key r) key false
  rw [← ht] at hothers hcores hkeeps hregs hpc
  obtain ⟨hreports, hwake, hstallers⟩ := core_faultEntry (r := r) hrole
  have hentry := crew_faultEntry (r := r) hlisted
  have hstop : (s.crew key).toldToStop (s.crew key).party = { s.crew key with halted := true } := if_pos (by simp [hrole])
  rw [hstop] at hentry
  rw [hentry] at hkeeps hregs hpc
  have hreport : (t.crew key).report = some (s.reportNow key r) := congrArg Crew.report hkeeps
  have hhalted : (t.crew key).halted = true := congrArg Crew.halted hkeeps
  have hcore := hcores (coreOf key)
  refine ⟨s.reportNow key r, hreport, rfl, rfl, rfl, rfl, rfl, rfl, rfl, rfl, (congrArg Core.reports hcore).trans hreports,
    ?_, (congrArg Core.stallers hcore).trans hstallers, hpc, hhalted, hregs, takeFault_mem s key r,
    canIssue_of_report hreport, fun k hparty hk _ => ?_⟩
  · rw [hcore]; exact hwake
  · by_cases h : k = key
    · subst h; exact ⟨hhalted, hregs⟩
    · rw [hothers k h, crew_faultEntry_ne h]
      exact ⟨halted_toldToStop hparty hk, sameRegs_toldToStop _ _⟩

end Sys2Proof.Machine

/-! Loads: LD, LDS, LDW and LDR (spec/05 R97-R103, spec/13 R228). -/
namespace Sys2Proof.Machine

/-! ## LD -/

section
variable {f : Ctl} {d a : Operand} {ofs : BitVec 20} {ty : MemTy} {acq : Bool} {sc : Scope} {fr hv : Bool} {hd : BitVec 2}
  {s s0 t : State} {key : Nat} {c : Crew} {addrs : List (Nat × DWord)}

theorem hints_ld : Instr.hints (.ld f d a ofs ty acq sc fr hv hd) = f := rfl
theorem exec_ld : exec (.ld f d a ofs ty acq sc fr hv hd) s = execLd f d a ofs ty acq sc fr hv hd s := rfl

/-- A load of global lanes, charged, sampled and counted in L (spec/05 R97, R98). -/
def State.loadCounted (s : State) (key : Nat) (d : Operand) (ty : MemTy) (acq fr : Bool) (hint : Option (BitVec 2))
    (lanes : List LaneAcc) : State :=
  let x := s.load key ty fr hint d lanes
  x.2.2.modCrew key fun c => c.addLoad
    { id := 0, pc := c.pc, dsts := [d], wide := ty.regs, writes := x.1, acq := acq, bad := x.2.1,
      ack := lanes.any fun a => x.2.2.foreign a.pa, cut := x.2.2.anyCut lanes, va := x.2.2.foreignVa lanes }

/-- LD whose lanes translate takes its values when nothing keeps its crew or its lines away (spec/05 R98, R100, spec/18 R287). -/
theorem ld_runs {lanes : List LaneAcc} (h : Issues (.ld f d a ofs ty acq sc fr hv hd) s key) (hs : s0 = s.entered key f)
    (hc : c = s0.crew key) (ha : addrs = globalAddrs s0 key c a ofs (accessLanes d (c.effLanes f)))
    (hroom : c.loads.length < 63) (hacc : s0.access key .read (MemTy.bytes ty) addrs = .ok lanes t)
    (hsvc : c.atService (LaneAcc.ranges lanes (MemTy.bytes ty)) = false)
    (hheld : ∀ a ∈ lanes, t.readHeld (coreOf key) a.attr (fr || acq) (if hv then some hd else none) a.pa = none) :
    Runs (.ld f d a ofs ty acq sc fr hv hd) s key
      (t.loadCounted key d ty acq (fr || acq) (if hv then some hd else none) lanes) := by
  have hnone : (lanes.findSome? fun a => t.readHeld (coreOf key) a.attr (fr || acq) (if hv then some hd else none) a.pa) = none :=
    List.findSome?_eq_none_iff.mpr hheld
  subst ha
  unfold globalAddrs at hacc
  refine runs_of_done exec_ld h hints_ld hs hc ?_
  simp only [counterFull_of_room hroom, hacc, hsvc, hnone, held?_none, Bool.false_eq_true, if_false]
  rfl

/-- Within a region LD does not wait for its walk: it is counted with what it asks for (spec/13 R228). -/
theorem ld_walks (h : Issues (.ld f d a ofs ty acq sc fr hv hd) s key) (hs : s0 = s.entered key f)
    (hc : c = s0.crew key) (ha : addrs = globalAddrs s0 key c a ofs (accessLanes d (c.effLanes f)))
    (hroom : c.loads.length < 63) (hregion : c.inRegion = true)
    (hacc : s0.access key .read (MemTy.bytes ty) addrs = .walk t) :
    Runs (.ld f d a ofs ty acq sc fr hv hd) s key (t.modCrew key fun c => c.addLoad
      { id := 0, pc := c.pc, dsts := [d], wide := ty.regs, acq := acq, region := true,
        req := some { ty := ty, acq := acq, sc := sc, fr := fr || acq, home := if hv then some hd else none, dst := d,
                      addrs := addrs } }) := by
  subst ha
  unfold globalAddrs at hacc
  refine runs_of_done exec_ld h hints_ld hs hc ?_
  simp only [counterFull_of_room hroom, hacc, hregion, Bool.false_eq_true, if_false, if_true]
  rfl

end

/-! ## LDW and LDR -/

theorem exec_ldw (f : Ctl) (d a : Operand) (ofs : BitVec 20) (ty : MemTy) (s : State) :
    exec (.ldw f d a ofs ty) s = execLdw f d a ofs ty s := rfl
theorem exec_ldr (f : Ctl) (d a : Operand) (ofs : BitVec 20) (s : State) : exec (.ldr f d a ofs) s = execLdr f d a ofs s := rfl

/-- LDW whose offsets are sound is counted in L, with the bytes that the weight store holds (spec/05 R102). The party is read through
the crew that the update changes, which is the one that issues. -/
theorem ldw_runs {f : Ctl} {d a : Operand} {ofs : BitVec 20} {ty : MemTy} {s s0 : State} {key : Nat} {c : Crew}
    {at_ : List (Nat × Nat)} (h : Issues (.ldw f d a ofs ty) s key) (hs : s0 = s.entered key f) (hc : c = s0.crew key)
    (ha : at_ = localAddrs s0 key c a ofs (accessLanes d (c.effLanes f))) (hroom : c.loads.length < 63)
    (hat : ∀ x ∈ at_, x.2 % MemTy.bytes ty = 0 ∧ x.2 + MemTy.bytes ty ≤ (s0.party c.party).weightLen) :
    Runs (.ldw f d a ofs ty) s key (s0.modCrew key fun c => c.addLoad
      { id := 0, pc := c.pc, dsts := [d], wide := ty.regs
        bad := firstBad (s0.party c.party).weightBad (MemTy.bytes ty) (at_.map (·.2))
        writes := at_.flatMap fun x => destWrites d ty.regs x.1
          (extendElem ty (fromBytesLE (Memory.readBytes (s0.party c.party).weight x.2 (MemTy.bytes ty)))) }) := by
  have hfault := localFault_eq_none (cause := 0x09) hat
  subst ha hc
  refine runs_of_done (exec_ldw f d a ofs ty s) h rfl hs rfl ?_
  simp only [counterFull_of_room hroom, map_localOfs, hfault, Bool.false_eq_true, if_false]
  exact congrArg Issue.done (modCrew_congr rfl)

/-- The words that LDR takes from the registers of its window addresses (spec/05 R103). -/
def State.windowWrites (s : State) (c : Crew) (d : Operand) (at_ : List (Nat × Nat)) : List RegWrite :=
  at_.flatMap fun x => match s.window (s.windowCtx c) x.2 with
    | some r => destWrites d 1 x.1 (s.windowRead r).toNat
    | none => []

/-- LDR whose window addresses are sound, and which nothing holds, is counted in L with the words of their registers (spec/05
R103). -/
theorem ldr_runs {f : Ctl} {d a : Operand} {ofs : BitVec 20} {s s0 : State} {key : Nat} {c : Crew} {at_ : List (Nat × Nat)}
    (h : Issues (.ldr f d a ofs) s key) (hs : s0 = s.entered key f) (hc : c = s0.crew key)
    (ha : at_ = localAddrs s0 key c a ofs (accessLanes d (c.effLanes f))) (hroom : c.loads.length < 63)
    (hheld : s0.windowHeld key at_ = none)
    (hat : ∀ x ∈ at_, x.2 % 4 = 0 ∧ (s0.window (s0.windowCtx c) x.2).isSome = true) :
    Runs (.ldr f d a ofs) s key (s0.modCrew key fun c => c.addLoad
      { id := 0, pc := c.pc, dsts := [d], bad := firstBad s0.badWindow 4 (at_.map (·.2)), writes := s0.windowWrites c d at_ }) := by
  have hfault := windowFault_eq_none hat
  subst ha hc
  refine runs_of_done (exec_ldr f d a ofs s) h rfl hs rfl ?_
  simp only [counterFull_of_room hroom, map_localOfs, hheld, held?_none, hfault, Bool.false_eq_true, if_false]
  exact congrArg Issue.done (modCrew_congr rfl)

/-- Settles O24: a load that nothing holds is counted, by the lemma about its form. That one with no effective lane is counted too is
the choice of the model (log 63). -/
theorem loads : Obligations.Loads := by
  refine ⟨?_, ?_, ?_, ?_, ?_⟩
  · intro f d a ofs ty acq sc fr hv hd s key lanes t h s0 c hroom hacc hsvc hheld x
    exact ld_runs h rfl rfl rfl hroom hacc hsvc hheld
  · intro f d a ofs ty acq sc fr hv hd s key t h s0 c addrs hroom hregion hacc
    exact ld_walks h rfl rfl rfl hroom hregion hacc
  · intro f d a ofs ty peer s key k h s0 c at_ hroom haway hpeer hat
    exact lds_runs h hroom haway hpeer hat
  · intro f d a ofs ty s key h s0 c at_ hroom hat
    exact ldw_runs h rfl rfl rfl hroom hat
  · intro f d a ofs s key h s0 c at_ hroom hheld hat
    exact ldr_runs h rfl rfl rfl hroom hheld hat

end Sys2Proof.Machine

/-! The events of fault service, handlers, pre-emption and machine checks (spec/13 R231-R240, spec/27 R364). -/
namespace Sys2Proof.Machine

/-! ## The service of reports, and handler tasks -/

section
variable {s u : State} {core key h va : Nat} {rest : List Nat} {r : Report}

theorem exec_faultService (core : Nat) (s : State) : exec (.faultService core) s = execFaultService core s := rfl
theorem exec_handlerTaskStart (core : Nat) (s : State) : exec (.handlerTaskStart core) s = execHandlerTaskStart core s := rfl
theorem exec_handlerPlaceTimeout (core : Nat) (s : State) :
    exec (.handlerPlaceTimeout core) s = execHandlerPlaceTimeout core s := rfl
theorem exec_taskFaultEnd (core : Nat) (s : State) : exec (.taskFaultEnd core) s = execTaskFaultEnd core s := rfl

theorem faultService_resumes (hr : s.relocking (dieOfCore core) = false) (hhead : s.headReport core = some (key, r))
    (hserv : s.service core key r = .mapped) : Happens (.faultService core) s (s.resumeServiced key r) := by
  refine happens_of_eventOn (exec_faultService core s) hr ?_
  simp only [hhead, hserv]

theorem faultService_asks (hr : s.relocking (dieOfCore core) = false) (hhead : s.headReport core = some (key, r))
    (hserv : s.service core key r = .ask) (hnone : (s.core core).hostAsk = none) (hasking : s.asking core = false)
    (hport : s.ready.getLsbD 112 = true) : Happens (.faultService core) s
      ({ s with outbox := s.outbox ++ [HostMsg.pageAsk core (s.ctxOf key) r.addr] }.modCore core
        fun x => { x with hostAsk := some (key, false) }) := by
  refine happens_of_eventOn (exec_faultService core s) hr ?_
  simp only [hhead, hserv, hnone, hasking, hport]
  rfl

theorem handlerTaskStart_makes (hr : s.relocking (dieOfCore core) = false) (hhead : s.headReport core = some (key, r))
    (hserv : s.service core key r = .hand) (hhandle : s.handleable key r = true)
    (hring : s.ringPut (s.ctxOf key) r = .wrote u va) :
    Happens (.handlerTaskStart core) s ((u.makeHandler core key r va).placeHandler core) := by
  have hgo : ¬(decide (s.service core key r ≠ .hand) || !s.handleable key r) = true := by simp [hserv, hhandle]
  refine happens_of_eventOn (exec_handlerTaskStart core s) hr (congrArg (State.placeHandler · core) ?_)
  simp only [hhead, if_neg hgo, hring]

theorem handlerPlaceTimeout_unmade (hr : s.relocking (dieOfCore core) = false) (hhead : s.headReport core = some (key, r))
    (hserv : s.service core key r = .hand) (hhandle : s.handleable key r = true) (hnone : (s.core core).handlers = [])
    (hlate : r.tick + 1000000000 ≤ s.meridian) : Happens (.handlerPlaceTimeout core) s (s.doomCrew key r false) := by
  have hgo : (decide (s.service core key r = .hand) && s.handleable key r && decide (r.tick + Config.handlerLimit ≤ s.meridian)) =
      true := by simp [hserv, hhandle, show r.tick + Config.handlerLimit ≤ s.meridian from hlate]
  refine happens_of_eventOn (exec_handlerPlaceTimeout core s) hr ?_
  simp only [hnone, List.findSome?_nil, hhead, if_pos hgo]

theorem handlerPlaceTimeout_unplaced (hr : s.relocking (dieOfCore core) = false) (hhandlers : (s.core core).handlers = h :: rest)
    (hof : (s.task h).handlerOf = some (key, r)) (hlate : r.tick + 1000000000 ≤ s.meridian) :
    Happens (.handlerPlaceTimeout core) s (({ s with tasks := Tbl.del s.tasks h }.modCore core
      fun x => { x with handlers := rest }).doomCrew key r true) := by
  have herase : ({ s with tasks := Tbl.del s.tasks h }.modCore core fun x => { x with handlers := x.handlers.erase h }) =
      { s with tasks := Tbl.del s.tasks h }.modCore core fun x => { x with handlers := rest } := by
    have hcore : ((s.core core).handlers).erase h = rest := by rw [hhandlers, List.erase_cons_head]
    unfold State.modCore
    exact congrArg (fun l => State.setCore _ core { s.core core with handlers := l }) hcore
  refine happens_of_eventOn (exec_handlerPlaceTimeout core s) hr ?_
  simp only [hhandlers, List.findSome?_cons, hof, Option.filter_some,
    decide_eq_true (show r.tick + Config.handlerLimit ≤ s.meridian from hlate), if_true, Option.map_some, herase]

/-- The tasks that are ending with a fault and hold a core, which lose their crews once their operations are complete (spec/13 R237,
R238). -/
theorem taskFaultEnd_unhandled (hr : s.relocking (dieOfCore core) = false) (hhead : s.headReport core = some (key, r))
    (hserv : s.service core key r = .hand) (hhandle : s.handleable key r = false) : Happens (.taskFaultEnd core) s
      (((s.doomCrew key r false).tasks.filter fun t =>
          t.2.faulted.isSome && (t.2.parties.isEmpty || t.2.parties.any fun p => p / 16 = core)).foldl
        (fun s t => s.finishDoomed t.1) (s.doomCrew key r false)) := by
  have hgo : (decide (s.service core key r = .hand) && !s.handleable key r) = true := by simp [hserv, hhandle]
  refine happens_of_eventOn (exec_taskFaultEnd core s) hr ?_
  simp only [hhead, if_pos hgo]

end

/-! ## The answer of the host -/

section
variable {s : State} {core key : Nat}

theorem exec_hostPageReply (core : Nat) (granted : Bool) (s : State) :
    exec (.hostPageReply core granted) s = execHostPageReply core granted s := rfl

/-- The host's answer to the question of a core's agent (spec/13 R231). -/
theorem hostPageReply_answers (granted : Bool) (hport : s.ready.getLsbD 112 = true)
    (hr : s.relocking (dieOfCore core) = false) (hask : (s.core core).hostAsk = some (key, false)) :
    Happens (.hostPageReply core granted) s (s.pageReply core granted) := by
  rw [Happens, exec_hostPageReply, execHostPageReply, eventHost_of hport]
  simp only [hr, hask, Bool.false_eq_true, if_false]

theorem pageReply_declined (hask : (s.core core).hostAsk = some (key, false)) :
    s.pageReply core false = s.modCore core fun x => { x with hostAsk := some (key, true) } := by
  unfold State.pageReply
  simp only [hask, Bool.not_false, if_true]

theorem pageReply_mapped {r : Report} (hask : (s.core core).hostAsk = some (key, false))
    (hfind : (s.core core).reports.find? (fun y => y.1 = key) = some (key, r))
    (hserv : (s.modCore core fun x => { x with hostAsk := none }).service core key r = .mapped) :
    s.pageReply core true = (s.modCore core fun x => { x with hostAsk := none }).resumeServiced key r := by
  unfold State.pageReply
  simp only [hask, Bool.not_true, Bool.false_eq_true, if_false, State.core_modCore_self, hfind, hserv, if_true]

end

/-! ## The verdict of a handler -/

theorem exec_handlerVerdict (task : Nat) (s : State) : exec (.handlerVerdict task) s = execHandlerVerdict task s := rfl

/-- What the agent does with a crew by the verdict of its handler, whose task is over: a resumption that FRET refuses, and a verdict that
names none, end the task of the crew (spec/13 R236). -/
def State.obeyVerdict (t : State) (key : Nat) (r : Report) (v : Nat) : State :=
  let go (how : FretHow) (pc : DWord) : State :=
    if (t.crew key).refuses how pc then t.doomCrew key r true else t.resumeCrew key how pc
  match v with
  | 0 => go .pc ((t.crew key).pc + 12)
  | 1 => go .retry 0
  | 2 => go .region 0
  | _ => t.doomCrew key r true

theorem obeyVerdict_of_gt {t : State} {key v : Nat} {r : Report} (h : 2 < v) : t.obeyVerdict key r v = t.doomCrew key r true := by
  match v, h with
  | _ + 3, _ => rfl

/-- The verdict byte of a handler that is complete is read at its place, which is neither cut off nor held (spec/13 R236, spec/18
R287). -/
theorem handlerVerdict_happens {s : State} {task key pa : Nat} {r : Report} {a : Attr}
    (hr : s.relocking (s.task task).die = false) (hof : (s.task task).handlerOf = some (key, r))
    (hover : (s.task task).status = .complete) (htask : (s.partyOf key).task ≠ noTask) (hreport : (s.crew key).report = some r)
    (hplace : s.lookup (s.task task).ctx
      (((s.task task).args.getD 0 0).toNat + ((s.task task).args.getD 1 0).toNat * 2 ^ 32 + verdictOfs) .read = .ok (pa, a))
    (hcut : s.cutOff pa = false) (hheld : s.verdictHeld (s.task task).die a pa = false)
    (hfaulted : ({ s with tasks := Tbl.del s.tasks task }.taskOf key).faulted = none) :
    Happens (.handlerVerdict task) s
      ({ s with tasks := Tbl.del s.tasks task }.obeyVerdict key r (s.agentByte (s.task task).die pa).toNat) := by
  have hgo : ¬(decide (({ s with tasks := Tbl.del s.tasks task }.partyOf key).task = noTask) ||
      decide ((s.crew key).report ≠ some r) || ({ s with tasks := Tbl.del s.tasks task }.taskOf key).faulted.isSome) = true := by
    have : ({ s with tasks := Tbl.del s.tasks task }.partyOf key).task ≠ noTask := htask
    simp [this, hreport, hfaulted]
  refine happens_of_eventOn (exec_handlerVerdict task s) hr ?_
  simp only [hof, hover, hplace, hcut, hheld, Bool.false_eq_true, if_false, ne_eq, not_true_eq_false] at hgo ⊢
  rw [if_neg hgo]
  rfl

/-! ## Pre-emption -/

theorem exec_preemptRequest (party : Nat) (s : State) : exec (.preemptRequest party) s = execPreemptRequest party s := rfl

/-- The party stops, forgets the stalls and the waits of its crews, and the open groups of its core are ready (spec/13 R240). -/
theorem preemptRequest_happens {s : State} {party : Nat} {p : Party} (hr : s.relocking (dieOfCore (party / 16)) = false)
    (hp : Tbl.get? s.parties party = some p) :
    Happens (.preemptRequest party) s ((p.crews.foldl (fun t k => (t.discardStall k).cancelWait k)
      (((s.haltParty party).signalWake (party / 16) 7).modParty party fun p => { p with preempted := true })).modCore (party / 16)
        fun x => { x with groups := x.groups.map fun (g : Group) => { g with ready := true } }) := by
  refine happens_of_eventOn (exec_preemptRequest party s) hr ?_
  simp only [hp]

/-! ## Machine checks of a core -/

theorem exec_coreFailure (core : Nat) (s : State) : exec (.coreFailure core) s = execCoreFailure core s := rfl

/-- A core whose agents and caches are as after reset, and which no service crew answers any more (spec/13 R239). -/
def State.coreCleared (t : State) (core : Nat) : State :=
  let gone (k : Nat) : Bool := coreOf k = core && isAgentKey k
  { t with
    crews := t.crews.filter fun x => !gone x.1
    svcs := t.svcs.map fun (x : Nat × Svc) => (x.1,
      { x.2 with waiters := x.2.waiters.filter fun w => !gone w.crew
                 queue := x.2.queue.map fun (p : Packet) => if gone p.crew then { p with live := false } else p
                 replies := x.2.replies.filter fun y => !gone y.packet.crew })
    cur := match t.cur with | some k => if coreOf k = core then none else some k | none => none }.modCore core fun x =>
      { x with l1 := [], icache := [], tlb := [], groups := [], wake := 0, fw := {}, sc := {}, source := none, gated := false }

/-- The die's spare takes the number of a core that has failed, or the core is retired (spec/27 R364). -/
def State.coreReplaced (v : State) (core : Nat) : State :=
  if (v.die (dieOfCore core)).spareUsed then
    ((v.modCore core fun x => { x with retired := true }).clearReady core).logError (logRetire core)
  else (v.modDie (dieOfCore core) fun x => { x with spareUsed := true }).logError (logSpare core)

theorem agentFault_eq_false {s : State} {core : Nat}
    (h : ∀ k, coreOf k = core → isAgentKey k = true → (s.crew k).report = none) :
    (([agentSlot, 63].map fun n => crewKey core n).any fun k => isAgentKey k && (s.crew k).report.isSome) = false := by
  refine List.any_eq_false.mpr fun k hk => ?_
  have hcore : coreOf k = core := by
    simp only [List.map_cons, List.map_nil, List.mem_cons, List.not_mem_nil, or_false, crewKey, agentSlot] at hk
    unfold coreOf
    omega
  cases ha : isAgentKey k with
  | false => simp
  | true => simp [h k hcore ha]

/-- A core fails without a fault of its agents. -/
theorem coreFailure_happens {s : State} {core : Nat}
    (h : ∀ k, coreOf k = core → isAgentKey k = true → (s.crew k).report = none) :
    Happens (.coreFailure core) s (((s.coreTasksEnd core 1).coreCleared core).coreReplaced core) := by
  rw [Happens, exec_coreFailure, execCoreFailure, event]
  simp only [agentFault_eq_false h, Bool.false_eq_true, if_false]
  rfl

/-- Settles O55, an event at a time. -/
theorem faultEvents : Obligations.FaultEvents := by
  refine ⟨⟨?_, ?_, ?_, ?_, fun s party p => preemptRequest_happens⟩, ?_⟩
  · intro s core key r hr hhead
    exact ⟨faultService_resumes hr hhead, faultService_asks hr hhead, fun u va => handlerTaskStart_makes hr hhead,
      handlerPlaceTimeout_unmade hr hhead, taskFaultEnd_unhandled hr hhead⟩
  · intro s core granted key hport hr hask
    have hanswer := hostPageReply_answers granted hport hr hask
    refine ⟨?_, ?_⟩
    · rintro rfl
      exact hanswer.of_eq (pageReply_declined hask)
    · rintro r rfl hfind t hserv
      exact hanswer.of_eq (pageReply_mapped hask hfind hserv)
  · intro s core h rest key r hr hhandlers hof hlate
    exact handlerPlaceTimeout_unplaced hr hhandlers hof hlate
  · intro s task key r pa a hr hof hover htask hreport h hplace hcut hheld t hfaulted go v
    have hverdict := handlerVerdict_happens hr hof hover htask hreport hplace hcut hheld hfaulted
    refine ⟨fun hv => ?_, fun hv => ?_, fun hv => ?_, fun hv => hverdict.of_eq (obeyVerdict_of_gt hv)⟩ <;>
      exact hverdict.of_eq (congrArg (t.obeyVerdict key r) hv)
  · intro s core hnone t gone u v
    have hfails := coreFailure_happens hnone
    exact ⟨fun hspare => hfails.of_eq (if_neg (ne_true_of_eq_false hspare)), fun hspare => hfails.of_eq (if_pos hspare)⟩

end Sys2Proof.Machine

/-! The package after reset, and words of the encoding tables (spec/01 Tables 1-1 to 1-6, spec/15 R264, spec/18 R283, spec/27 R360). -/
namespace Sys2Proof.Machine

/-- A table that lists nothing gives every budget its default limit (spec/15 R264). -/
theorem reset_budget (k : Nat) : (Tbl.get? State.reset.budgets k).getD {} = {} := rfl

theorem reset_mer (d : Nat) : State.reset.mer d = 0 := Nat.zero_sub _

/-- Settles O7: time is zero and every table is empty. -/
theorem resetState : Obligations.ResetState :=
  ⟨rfl, rfl, rfl, rfl, fun k => congrArg Budget.limit (reset_budget k), reset_mer, reset_mem_wf⟩

end Sys2Proof.Machine

namespace Sys2Proof

/-- Settles O3: the words are closed, and each decodes by the form of its major opcode. -/
theorem decodedWords : Obligations.DecodedWords := ⟨rfl, rfl, rfl, rfl, rfl, rfl, rfl⟩

end Sys2Proof

/-! Faults of accesses: address, alignment, bound, peer and window (spec/05 R115, Table 5-8). -/
namespace Sys2Proof.Machine

/-! ## The report of the lowest lane at fault -/

/-- The fault of the lowest lane keeps its cause and its address, and names its lane (spec/05 R115). -/
theorem lowestFault_of_head {l : Nat} {r : Report} (fs : List (Nat × Report)) (hview : r.cause ≠ 0x19) :
    ∃ r' : Report, lowestFault ((l, r) :: fs) = some r' ∧ r'.cause = r.cause ∧ r'.addr = r.addr ∧ r'.d2 = BitVec.ofNat 32 l :=
  ⟨_, rfl, rfl, rfl, if_neg hview⟩

/-- Of lanes judged one by one, those before the first at fault leave no report. -/
theorem filterMap_first {α β : Type} {g : α → Option β} {low high : List α} {x : α} {y : β} (hlow : ∀ z ∈ low, g z = none)
    (hx : g x = some y) : (low ++ x :: high).filterMap g = y :: high.filterMap g := by
  rw [List.filterMap_append, List.filterMap_eq_nil_iff.mpr hlow, List.nil_append, List.filterMap_cons_some hx]

/-! ## Global addresses -/

theorem highByte_eq_zero_iff (va : DWord) : va.extractLsb' 56 8 = 0 ↔ va.toNat < 2 ^ 56 := by
  rw [← BitVec.toNat_inj, BitVec.extractLsb'_toNat, Nat.shiftRight_eq_div_pow]
  have := va.isLt
  simp only [BitVec.ofNat_eq_ofNat, BitVec.toNat_ofNat]
  omega

theorem addressFault_beyond {va : DWord} (n : Nat) (h : 2 ^ 56 ≤ va.toNat) :
    addressFault n va = some { cause := 0x06, addr := va } :=
  if_pos fun h0 => Nat.not_lt.mpr h ((highByte_eq_zero_iff va).mp h0)

theorem addressFault_within {va : DWord} (n : Nat) (h : va.toNat < 2 ^ 56) :
    addressFault n va = if va.toNat % n ≠ 0 then some { cause := 0x07, addr := va } else none :=
  if_neg (not_not.mpr ((highByte_eq_zero_iff va).mpr h))

theorem addressFault_misaligned {n : Nat} {va : DWord} (h : va.toNat < 2 ^ 56) (hal : va.toNat % n ≠ 0) :
    addressFault n va = some { cause := 0x07, addr := va } := (addressFault_within n h).trans (if_pos hal)

theorem addressFault_sound {n : Nat} {va : DWord} (h : va.toNat < 2 ^ 56) (hal : va.toNat % n = 0) :
    addressFault n va = none := (addressFault_within n h).trans (if_neg (not_not.mpr hal))

/-- An address at fault has one report: the address fault comes before the alignment fault (spec/05 Table 5-8). -/
theorem addressFault_of_faulty {n : Nat} {va : DWord} (h : 2 ^ 56 ≤ va.toNat ∨ va.toNat % n ≠ 0) :
    addressFault n va = some { cause := if 2 ^ 56 ≤ va.toNat then 0x06 else 0x07, addr := va } := by
  by_cases hb : 2 ^ 56 ≤ va.toNat
  · rw [if_pos hb, addressFault_beyond n hb]
  · rw [if_neg hb, addressFault_misaligned (Nat.lt_of_not_le hb) (h.resolve_left hb)]

section
variable {s : State} {key n : Nat} {need : Need}

/-- The judgement of a lane whose address names no view and is at fault. -/
theorem judge_fault {l : Nat} {va : DWord} {r : Report} (rest : List (Nat × DWord)) (hview : s.viewAccess key va.toNat = none)
    (hf : addressFault n va = some r) : s.judge key need n ((l, va) :: rest) =
      (.fault l r :: (s.judge key need n rest).1, (s.judge key need n rest).2) := by
  rw [State.judge, hview, hf]
  rfl

/-- That of a lane whose address is sound and translates. -/
theorem judge_sound {l pa : Nat} {va : DWord} {a : Attr} (rest : List (Nat × DWord)) (hview : s.viewAccess key va.toNat = none)
    (hf : addressFault n va = none) (ht : s.translate key need va.toNat = (.ok pa a, s)) :
    s.judge key need n ((l, va) :: rest) =
      (.ok { lane := l, va := va.toNat, pa := pa, attr := a } :: (s.judge key need n rest).1, (s.judge key need n rest).2) := by
  rw [State.judge, hview, hf, ht]
  rfl

/-- An address that names no view, and is at fault or translates at once. -/
def Decided (s : State) (key : Nat) (need : Need) (n : Nat) (va : DWord) : Prop :=
  s.viewAccess key va.toNat = none ∧
    (2 ^ 56 ≤ va.toNat ∨ va.toNat % n ≠ 0 ∨ ∃ pa a, s.translate key need va.toNat = (.ok pa a, s))

theorem Decided.translates {va : DWord} (h : Decided s key need n va) (hlow : va.toNat < 2 ^ 56) (hal : va.toNat % n = 0) :
    ∃ pa a, s.translate key need va.toNat = (.ok pa a, s) :=
  (h.2.resolve_left (Nat.not_le.mpr hlow)).resolve_left (not_not.mpr hal)

/-- Lanes whose addresses are decided wait for nothing. -/
theorem judge_decided {addrs : List (Nat × DWord)} (h : ∀ x ∈ addrs, Decided s key need n x.2) :
    ∀ v ∈ (s.judge key need n addrs).1, v.settled = true := by
  induction addrs with
  | nil => exact List.forall_mem_nil _
  | cons x rest ih =>
    obtain ⟨l, va⟩ := x
    have hx : Decided s key need n va := h (l, va) List.mem_cons_self
    have hrest := ih fun x hx => h x (List.mem_cons_of_mem _ hx)
    by_cases hbad : 2 ^ 56 ≤ va.toNat ∨ va.toNat % n ≠ 0
    · rw [judge_fault rest hx.1 (addressFault_of_faulty hbad)]
      exact List.forall_mem_cons.mpr ⟨rfl, hrest⟩
    · obtain ⟨hlow, hal⟩ := not_or.mp hbad
      obtain ⟨pa, a, ht⟩ := hx.translates (Nat.lt_of_not_le hlow) (not_not.mp hal)
      rw [judge_sound rest hx.1 (addressFault_sound (Nat.lt_of_not_le hlow) (not_not.mp hal)) ht]
      exact List.forall_mem_cons.mpr ⟨rfl, hrest⟩

/-- Sound lanes add no fault to those of the lanes after them. -/
theorem judge_faults_sound {low rest : List (Nat × DWord)} (h : ∀ x ∈ low, Decided s key need n x.2)
    (hlow : ∀ x ∈ low, x.2.toNat < 2 ^ 56 ∧ x.2.toNat % n = 0) :
    (s.judge key need n (low ++ rest)).1.filterMap LaneVerdict.fault? =
      (s.judge key need n rest).1.filterMap LaneVerdict.fault? := by
  induction low with
  | nil => rfl
  | cons x low ih =>
    obtain ⟨l, va⟩ := x
    obtain ⟨hb, hal⟩ := hlow (l, va) List.mem_cons_self
    have hx : Decided s key need n va := h (l, va) List.mem_cons_self
    obtain ⟨pa, a, ht⟩ := hx.translates hb hal
    rw [List.cons_append, judge_sound _ hx.1 (addressFault_sound hb hal) ht]
    exact ih (fun x hx => h x (List.mem_cons_of_mem _ hx)) fun x hx => hlow x (List.mem_cons_of_mem _ hx)

/-- An access with a faulty lane takes the fault of that lane (spec/05 R115, Table 5-8). -/
theorem access_of_faultyLane {addrs : List (Nat × DWord)} {l : Nat} {va : DWord} (h : FaultyLane s key need n addrs l va) :
    ∃ r, AddressReport va l r ∧ s.access key need n addrs = .fault r := by
  obtain ⟨hbad, hall, low, high, rfl, hlow⟩ := h
  have hfaults := judge_faults_sound (rest := (l, va) :: high) (fun x hx => hall x (List.mem_append_left _ hx)) hlow
  obtain ⟨hview, -⟩ := hall (l, va) (List.mem_append_right _ List.mem_cons_self)
  rw [judge_fault high hview (addressFault_of_faulty hbad)] at hfaults
  have hcause : (if 2 ^ 56 ≤ va.toNat then 0x06 else 0x07 : BitVec 8) ≠ 0x19 := by split <;> decide
  obtain ⟨r, hr, hc, ha, hd⟩ := lowestFault_of_head (l := l)
    (r := { cause := if 2 ^ 56 ≤ va.toNat then 0x06 else 0x07, addr := va })
    ((s.judge key need n high).1.filterMap LaneVerdict.fault?) hcause
  exact ⟨r, ⟨hc, ha, hd⟩, access_fault_of_settled (judge_decided hall) (hfaults ▸ hr)⟩

/-- The frame of a global access passes the fault on. -/
theorem held_of_faultyLane {addrs : List (Nat × DWord)} {l : Nat} {va : DWord} (h : FaultyLane s key need n addrs l va)
    (body : List LaneAcc → State → Issue) : ∃ r, AddressReport va l r ∧ held s key need n addrs body = .trap r := by
  obtain ⟨r, hr, hacc⟩ := access_of_faultyLane h
  exact ⟨r, hr, by rw [held, hacc]⟩

/-- The addresses of an access with a faulty lane are no contribution to views (spec/08 R153). -/
theorem onlyViews_of_faultyLane {addrs : List (Nat × DWord)} {l : Nat} {va : DWord} {c : Crew}
    (h : FaultyLane s key need n addrs l va) (hrole : (s.crew key).role = c.role) :
    addrs = [] ∨ c.role = none ∨ ∃ x ∈ addrs, isViewAddr x.2.toNat = false := by
  obtain ⟨-, hall, low, high, rfl, -⟩ := h
  have hmem : (l, va) ∈ low ++ (l, va) :: high := List.mem_append_right _ List.mem_cons_self
  obtain ⟨hview, -⟩ := hall _ hmem
  cases hr : c.role with
  | none => exact .inr (.inl rfl)
  | some role =>
    refine .inr (.inr ⟨_, hmem, ?_⟩)
    refine Bool.eq_false_of_not_eq_true fun hv => ?_
    rw [State.viewAccess, hrole, hr, hv] at hview
    cases hview

end

/-! ## Instructions with a global address -/

/-- A body that traps takes its fault when no load of its region waits. -/
theorem traps_of_trap {i : Instr} {f : Ctl} {s s0 : State} {key : Nat} {c : Crew} {body : State → Nat → Crew → Issue} {r : Report}
    (hx : exec i s = issue i s body) (h : Issues i s key) (hn : NoRegionLoad s key) (hi : Instr.isRejected i = false)
    (hf : Instr.hints i = f) (hs : s0 = s.entered key f) (hc : c = s0.crew key) (hb : body s0 key c = .trap r) :
    Traps i s key r := by
  subst hf hs hc
  exact hx.trans (issue_trap h hn hi hb)

/-- A fence leaves its crew in its role. -/
theorem fence_pass_role {s u : State} {key : Nat} {kind : Order} {sc : Scope} (h : s.fence key kind sc = .pass u) :
    (u.crew key).role = (s.crew key).role := by
  obtain ⟨ct, phase, hcrew⟩ := crew_fenceLooks s key kind sc
  have hlooks : ((s.fenceLooks key kind sc).crew key).role = (s.crew key).role := by rw [hcrew]
  obtain rfl | rfl := fence_pass_eq h <;> exact hlooks

theorem role_of_released {s t : State} {key : Nat} {rel : Bool} {sc : Scope} (h : Released s key rel sc t) :
    (t.crew key).role = (s.crew key).role := by
  obtain ⟨-, rfl⟩ | ⟨-, hf⟩ := h
  · rfl
  · exact fence_pass_role hf

section
variable {s s0 s1 : State} {key l : Nat} {f : Ctl} {c : Crew} {va : DWord} {sc : Scope}

theorem ld_faults {d a : Operand} {ofs : BitVec 20} {ty : MemTy} {acq fr hv : Bool} {hd : BitVec 2}
    (h : Issues (.ld f d a ofs ty acq sc fr hv hd) s key) (hn : NoRegionLoad s key) (hs : s0 = s.entered key f)
    (hc : c = s0.crew key) (hroom : c.loads.length < 63)
    (hlane : FaultyLane s0 key .read (MemTy.bytes ty) (globalAddrs s0 key c a ofs (accessLanes d (c.effLanes f))) l va) :
    ∃ r, AddressReport va l r ∧ Traps (.ld f d a ofs ty acq sc fr hv hd) s key r := by
  obtain ⟨r, hr, hacc⟩ := access_of_faultyLane hlane
  obtain ⟨hcause, -, -⟩ := id hr
  have hne : r.cause ≠ 0x05 := by rw [hcause]; split <;> decide
  unfold globalAddrs at hacc
  refine ⟨r, hr, traps_of_trap exec_ld h hn rfl hints_ld hs hc ?_⟩
  simp only [counterFull_of_room hroom, hacc, hne, decide_false, Bool.and_false, Bool.false_eq_true, if_false]

theorem st_faults {a b : Operand} {ofs : BitVec 20} {ty : StTy} {rel : Bool} {addrs : List (Nat × DWord)}
    (h : Issues (.st f a b ofs ty rel sc) s key) (hn : NoRegionLoad s key) (hs : s0 = s.entered key f) (hc : c = s0.crew key)
    (ha : addrs = globalAddrs s0 key c a ofs (c.effLanes f)) (hroom : c.stores.length < 63)
    (hbehind : c.behindLoad (StTy.bytes ty) (addrs.map (·.2)) = false) (hrel : Released s0 key rel sc s1)
    (hlane : FaultyLane s1 key .write (StTy.bytes ty) addrs l va) :
    ∃ r, AddressReport va l r ∧ Traps (.st f a b ofs ty rel sc) s key r := by
  have hviews := onlyViews_of_faultyLane hlane ((role_of_released hrel).trans (congrArg Crew.role hc.symm))
  obtain ⟨r, hr, htrap⟩ := held_of_faultyLane hlane _
  subst ha
  refine ⟨r, hr, traps_of_trap (exec_st f a b ofs ty rel sc s) h hn rfl (hints_st ..) hs hc ?_⟩
  exact (if_neg (ne_true_of_eq_false (counterFull_of_room hroom))).trans ((if_neg (ne_true_of_eq_false hbehind)).trans
    ((fenced_of_released hrel _).trans ((if_neg (ne_true_of_eq_false (onlyViews_eq_false hviews))).trans htrap)))

/-- A request with a faulty lane takes the fault of that lane (spec/06 R117). -/
theorem request_faults {q : Request} (hbehind : (s.crew key).behindLoad q.align (q.addrs.map (·.2)) = false)
    (hlane : FaultyLane s key .both q.align q.addrs l va) : ∃ r, AddressReport va l r ∧ s.request key c q = .trap r := by
  obtain ⟨r, hr, htrap⟩ := held_of_faultyLane hlane _
  exact ⟨r, hr, (if_neg (ne_true_of_eq_false hbehind)).trans htrap⟩

theorem atom_faults {d a b : Operand} {op : AtomOp} {sem : Order} {sz u : Bool}
    (h : Issues (.atom f d a b op sem sc sz u) s key) (hn : NoRegionLoad s key) (hs : s0 = s.entered key f) (hc : c = s0.crew key)
    (hroom : c.loads.length < 63) (hrel : Released s0 key (sem = .rel || sem = .ar) sc s1)
    (hbehind : (s1.crew key).behindLoad (if sz then 8 else 4)
      (((accessLanes d (c.effLanes f)).map fun l => (l, s1.operand key c true a l)).map (·.2)) = false)
    (hlane : FaultyLane s1 key .both (if sz then 8 else 4)
      ((accessLanes d (c.effLanes f)).map fun l => (l, s1.operand key c true a l)) l va) :
    ∃ r, AddressReport va l r ∧ Traps (.atom f d a b op sem sc sz u) s key r := by
  obtain ⟨r, hr, htrap⟩ := request_faults (q := atomRequest s1 key c f d a b op sem sc sz u) (c := c) hbehind hlane
  refine ⟨r, hr, traps_of_trap (exec_atom f d a b op sem sc sz u s) h hn rfl rfl hs hc ?_⟩
  exact (if_neg (ne_true_of_eq_false (counterFull_of_room hroom))).trans
    ((fenced_of_released hrel fun v => v.request key c (atomRequest v key c f d a b op sem sc sz u)).trans htrap)

/-- RED and FRED with a faulty lane take its fault, since their addresses are no contribution to views (spec/06 R122, R124). -/
theorem reduce_faults {a b : Operand} {n : Nat} {sz rel : Bool} {op : MemOp} {x : DWord → Contribution} (hc : c = s.crew key)
    (hroom : c.stores.length < 63) (hrel : Released s key rel sc s1)
    (hbehind : (s1.crew key).behindLoad n (((c.effLanes f).map fun l => (l, s1.operand key c true a l)).map (·.2)) = false)
    (hlane : FaultyLane s1 key .both n ((c.effLanes f).map fun l => (l, s1.operand key c true a l)) l va) :
    ∃ r, AddressReport va l r ∧ s.reduce key c f a b n sz rel sc op x = .trap r := by
  have hviews := onlyViews_of_faultyLane hlane ((role_of_released hrel).trans (congrArg Crew.role hc.symm))
  obtain ⟨r, hr, htrap⟩ := request_faults (c := c)
    (q := { op := op, bytes := n, align := n, store := true, wide := Scope.wide sc
            addrs := (c.effLanes f).map fun l => (l, s1.operand key c true a l), b := fun l => s1.operand key c sz b l }) hbehind hlane
  exact ⟨r, hr, (if_neg (ne_true_of_eq_false (counterFull_of_room hroom))).trans ((fenced_of_released hrel _).trans
    ((if_neg (ne_true_of_eq_false (onlyViews_eq_false hviews))).trans htrap))⟩

theorem cflush_faults {a : Operand} {ofs : BitVec 20} {inv : Bool} (h : Issues (.cflush f a ofs sc inv) s key)
    (hn : NoRegionLoad s key) (hs : s0 = s.entered key f) (hc : c = s0.crew key) (hroom : c.stores.length < 63)
    (hlane : FaultyLane s0 key .write 1 (globalAddrs s0 key c a ofs (c.effLanes f)) l va) :
    ∃ r, AddressReport va l r ∧ Traps (.cflush f a ofs sc inv) s key r := by
  obtain ⟨r, hr, htrap⟩ := held_of_faultyLane hlane _
  refine ⟨r, hr, traps_of_trap (exec_cflush f a ofs sc inv s) h hn rfl rfl hs hc ?_⟩
  exact (if_neg (ne_true_of_eq_false (counterFull_of_room hroom))).trans htrap

end

/-! ## Offsets, peers and window addresses -/

section
variable {low high : List (Nat × Nat)} {x : Nat × Nat}

/-- Of offsets judged one by one the first at fault has the report: that of its alignment comes before `cause` (spec/05 Table 5-8). -/
theorem offsetReport_of_first {g : Nat × Nat → Option (Nat × Report)} {cause : BitVec 8} {n : Nat} (hlow : ∀ y ∈ low, g y = none)
    (hx : g x = some (x.1, { cause := if x.2 % n ≠ 0 then 0x07 else cause, addr := BitVec.ofNat 64 x.2 })) (hcause : cause ≠ 0x19) :
    ∃ r, OffsetReport n cause x r ∧ lowestFault ((low ++ x :: high).filterMap g) = some r := by
  have hne : (if x.2 % n ≠ 0 then 0x07 else cause) ≠ 0x19 := by
    split
    · decide
    · exact hcause
  obtain ⟨r, hr, hc, ha, hd⟩ := lowestFault_of_head (l := x.1)
    (r := { cause := if x.2 % n ≠ 0 then 0x07 else cause, addr := BitVec.ofNat 64 x.2 }) (high.filterMap g) hne
  exact ⟨r, ⟨hc, ha, hd⟩, (congrArg lowestFault (filterMap_first hlow hx)).trans hr⟩

/-- The first offset that is not aligned, or does not lie in the allotment, has the report (spec/05 R101). -/
theorem localFault_of_first {cause : BitVec 8} {n len : Nat} (hlow : ∀ y ∈ low, y.2 % n = 0 ∧ y.2 + n ≤ len)
    (hx : x.2 % n ≠ 0 ∨ len < x.2 + n) (hcause : cause ≠ 0x19) :
    ∃ r, OffsetReport n cause x r ∧ localFault cause n len (low ++ x :: high) = some r := by
  refine offsetReport_of_first (fun y hy => ?_) ?_ hcause
  · obtain ⟨hal, hin⟩ := hlow y hy
    rw [if_neg (not_not.mpr hal), if_neg (Nat.not_lt.mpr hin)]
  · by_cases hal : x.2 % n ≠ 0
    · simp only [if_pos hal]
    · simp only [if_neg hal, if_pos (hx.resolve_left hal : x.2 + n > len)]

/-- The first window address that is not aligned, or names no allotted unit, has the report (spec/05 R103). -/
theorem windowFault_of_first {s : State} {ctx : Option Nat} (hlow : ∀ y ∈ low, y.2 % 4 = 0 ∧ (s.window ctx y.2).isSome = true)
    (hx : x.2 % 4 ≠ 0 ∨ s.window ctx x.2 = none) :
    ∃ r, OffsetReport 4 0x0B x r ∧ s.windowFault ctx (low ++ x :: high) = some r := by
  refine offsetReport_of_first (fun y hy => ?_) ?_ (by decide)
  · obtain ⟨hal, hw⟩ := hlow y hy
    rw [if_neg (not_not.mpr hal), if_neg (by rw [Option.isNone_iff_eq_none]; exact Option.isSome_iff_ne_none.mp hw)]
  · by_cases hal : x.2 % 4 ≠ 0
    · simp only [if_pos hal]
    · simp only [if_neg hal, hx.resolve_left hal, Option.isNone_none, if_true]

/-- A peer beyond the convoy is the fault of the lowest lane (spec/05 Table 5-8). -/
theorem peerFault_cons (x : Nat × Nat) (rest : List (Nat × Nat)) : ∃ r : Report, r.cause = 0x0A ∧ r.addr = BitVec.ofNat 64 x.2 ∧
    r.d2 = BitVec.ofNat 32 x.1 ∧ peerFault (x :: rest) = some r := by
  obtain ⟨r, hr, hc, ha, hd⟩ := lowestFault_of_head (l := x.1) (r := { cause := 0x0A, addr := BitVec.ofNat 64 x.2 })
    (rest.map fun x => (x.1, { cause := 0x0A, addr := BitVec.ofNat 64 x.2 })) (show (0x0A : BitVec 8) ≠ 0x19 by decide)
  exact ⟨r, hc, ha, hd, hr⟩

end

/-- The frame of an access of `n` bytes at some offsets of a scratchpad: the crew's own, or that of a peer, which may be away or beyond
the convoy (spec/05 R101, Table 5-8). `go` is what the instruction does with the party whose scratchpad it is. -/
def peered (s : State) (c : Crew) (peer : Option (BitVec 3)) (n : Nat) (at_ : List (Nat × Nat)) (go : Option Nat → Issue) : Issue :=
  if s.peerAway c peer then .wait .privileged s
  else
    match s.peerParty c peer with
    | none => match peerFault at_ with
      | some r => .trap r
      | none => go none
    | some k => match localFault 0x08 n (s.party k).scratchLen at_ with
      | some r => .trap r
      | none => go (some k)

section
variable {s : State} {c : Crew} {peer : Option (BitVec 3)} {n : Nat} {go : Option Nat → Issue} (haway : s.peerAway c peer = false)
include haway

theorem peered_bound {k : Nat} {low high : List (Nat × Nat)} {x : Nat × Nat} (hpeer : s.peerParty c peer = some k)
    (hlow : ∀ y ∈ low, y.2 % n = 0 ∧ y.2 + n ≤ (s.party k).scratchLen)
    (hx : x.2 % n ≠ 0 ∨ (s.party k).scratchLen < x.2 + n) :
    ∃ r, OffsetReport n 0x08 x r ∧ peered s c peer n (low ++ x :: high) go = .trap r := by
  obtain ⟨r, hr, hf⟩ := localFault_of_first (high := high) hlow hx (by decide : (0x08 : BitVec 8) ≠ 0x19)
  exact ⟨r, hr, by simp only [peered, haway, hpeer, hf, Bool.false_eq_true, if_false]⟩

theorem peered_beyond (x : Nat × Nat) (rest : List (Nat × Nat)) (hpeer : s.peerParty c peer = none) :
    ∃ r : Report, r.cause = 0x0A ∧ r.addr = BitVec.ofNat 64 x.2 ∧ r.d2 = BitVec.ofNat 32 x.1 ∧
      peered s c peer n (x :: rest) go = .trap r := by
  obtain ⟨r, hc, ha, hd, hf⟩ := peerFault_cons x rest
  exact ⟨r, hc, ha, hd, by simp only [peered, haway, hpeer, hf, Bool.false_eq_true, if_false]⟩

theorem peered_nowhere (hpeer : s.peerParty c peer = none) : peered s c peer n [] go = go none := by
  have hf : peerFault [] = none := rfl
  simp only [peered, haway, hpeer, hf, Bool.false_eq_true, if_false]

end

/-- An operation without register writes that is counted in S or in L. -/
def Crew.addBare (c : Crew) (store : Bool) (m : MemPend) : Crew := if store then c.addStore m else c.addLoad m

/-- What an access of a scratchpad answers when its offsets do not all lie in one, or it names no lane of a peer that is not there
(spec/05 Table 5-8). -/
structure PeerAnswers (i : Instr) (s s0 : State) (key : Nat) (c : Crew) (peer : Option (BitVec 3)) (n : Nat) (store : Bool)
    (at_ : List (Nat × Nat)) : Prop where
  bound : ∀ k low x high, s0.peerParty c peer = some k → at_ = low ++ x :: high →
    (∀ y ∈ low, y.2 % n = 0 ∧ y.2 + n ≤ (s0.party k).scratchLen) → (x.2 % n ≠ 0 ∨ (s0.party k).scratchLen < x.2 + n) →
    ∃ r, OffsetReport n 0x08 x r ∧ Traps i s key r
  beyond : ∀ x rest, s0.peerParty c peer = none → at_ = x :: rest →
    ∃ r : Report, r.cause = 0x0A ∧ r.addr = BitVec.ofNat 64 x.2 ∧ r.d2 = BitVec.ofNat 32 x.1 ∧ Traps i s key r
  nowhere : s0.peerParty c peer = none → at_ = [] → ∃ m : MemPend, m.writes = [] ∧
    Runs i s key (s0.modCrew key fun c => c.addBare store m)

section
variable {i : Instr} {f : Ctl} {s s0 : State} {key n : Nat} {c : Crew} {peer : Option (BitVec 3)} {store : Bool}
  {body : State → Nat → Crew → Issue} {go : Option Nat → Issue} {at_ : List (Nat × Nat)} {m : MemPend}

theorem peerAnswers_of_peered (hx : exec i s = issue i s body) (h : Issues i s key) (hn : NoRegionLoad s key)
    (hi : Instr.isRejected i = false) (hf : Instr.hints i = f) (hs : s0 = s.entered key f) (hc : c = s0.crew key)
    (haway : s0.peerAway c peer = false) (hb : body s0 key c = peered s0 c peer n at_ go)
    (hgo : go none = .done (s0.modCrew key fun c => c.addBare store m)) (hm : m.writes = []) :
    PeerAnswers i s s0 key c peer n store at_ where
  bound k low x high hpeer hat hlow hbad := by
    subst hat
    obtain ⟨r, hr, htrap⟩ := peered_bound (go := go) (high := high) haway hpeer hlow hbad
    exact ⟨r, hr, traps_of_trap hx h hn hi hf hs hc (hb.trans htrap)⟩
  beyond x rest hpeer hat := by
    subst hat
    obtain ⟨r, hcause, ha, hd, htrap⟩ := peered_beyond (n := n) (go := go) haway x rest hpeer
    exact ⟨r, hcause, ha, hd, traps_of_trap hx h hn hi hf hs hc (hb.trans htrap)⟩
  nowhere hpeer hat := by
    subst hat
    exact ⟨m, hm, runs_of_done hx h hf hs hc (hb.trans ((peered_nowhere haway hpeer).trans hgo))⟩

variable {a b d : Operand} {ofs : BitVec 20}

theorem lds_peerAnswers {ty : MemTy} (h : Issues (.lds f d a ofs ty peer) s key) (hn : NoRegionLoad s key) (hs : s0 = s.entered key f)
    (hc : c = s0.crew key) (hroom : c.loads.length < 63) (haway : s0.peerAway c peer = false) :
    PeerAnswers (.lds f d a ofs ty peer) s s0 key c peer (MemTy.bytes ty) false
      (localAddrs s0 key c a ofs (accessLanes d (c.effLanes f))) := by
  refine peerAnswers_of_peered (m := { id := 0, pc := c.pc, dsts := [d], wide := ty.regs })
    (go := fun k => match k with
      | none => localLoad d ty [] [] [] s0 key
      | some k => localLoad d ty (s0.party k).scratch (s0.party k).scratchBad
          (localAddrs s0 key c a ofs (accessLanes d (c.effLanes f))) s0 key)
    (exec_lds f d a ofs ty peer s) h hn rfl rfl hs hc haway
    (if_neg (ne_true_of_eq_false (counterFull_of_room hroom))) ?_ rfl
  subst hc
  exact congrArg Issue.done (modCrew_congr rfl)

theorem sts_peerAnswers {ty : StTy} (h : Issues (.sts f a b ofs ty peer) s key) (hn : NoRegionLoad s key) (hs : s0 = s.entered key f)
    (hc : c = s0.crew key) (hroom : c.stores.length < 63) (haway : s0.peerAway c peer = false) :
    PeerAnswers (.sts f a b ofs ty peer) s s0 key c peer (StTy.bytes ty) true (localAddrs s0 key c a ofs (c.effLanes f)) := by
  let push (t : State) : Issue := .done (t.modCrew key fun c => c.addStore { id := 0, pc := c.pc })
  refine peerAnswers_of_peered (m := { id := 0, pc := c.pc })
    (go := fun k => match k with
      | none => push s0
      | some k => push ((localAddrs s0 key c a ofs (c.effLanes f)).foldl (fun t x => t.modParty k fun p =>
          p.putScratch x.2 (toBytesLE (StTy.bytes ty) (s0.storeElem key c b ty x.1))) s0))
    (exec_sts f a b ofs ty peer s) h hn rfl rfl hs hc haway
    (if_neg (ne_true_of_eq_false (counterFull_of_room hroom))) ?_ rfl
  subst hc
  exact congrArg Issue.done (modCrew_congr rfl)

theorem atoms_peerAnswers {op : AtomOp} {sz u : Bool} (h : Issues (.atoms f d a b op peer sz u) s key) (hn : NoRegionLoad s key)
    (hs : s0 = s.entered key f) (hc : c = s0.crew key) (hroom : c.loads.length < 63) (haway : s0.peerAway c peer = false) :
    PeerAnswers (.atoms f d a b op peer sz u) s s0 key c peer (if sz then 8 else 4) false
      (localAddrs s0 key c a 0 (accessLanes d (c.effLanes f))) := by
  refine peerAnswers_of_peered (m := { id := 0, pc := c.pc, dsts := [d], wide := (if sz then 8 else 4) / 4 })
    (go := fun k => match k with
      | none => .done (s0.modCrew key fun c => c.addLoad { id := 0, pc := c.pc, dsts := [d], wide := (if sz then 8 else 4) / 4 })
      | some k => .done (s0.atomsCounted key k c d b op sz u (localAddrs s0 key c a 0 (accessLanes d (c.effLanes f)))))
    (exec_atoms f d a b op peer sz u s) h hn rfl rfl hs hc haway
    (if_neg (ne_true_of_eq_false (counterFull_of_room hroom))) ?_ rfl
  subst hc
  exact congrArg Issue.done (modCrew_congr rfl)

theorem ldw_faults {ty : MemTy} {low high : List (Nat × Nat)} {x : Nat × Nat} (h : Issues (.ldw f d a ofs ty) s key)
    (hn : NoRegionLoad s key) (hs : s0 = s.entered key f) (hc : c = s0.crew key) (hroom : c.loads.length < 63)
    (hat : localAddrs s0 key c a ofs (accessLanes d (c.effLanes f)) = low ++ x :: high)
    (hlow : ∀ y ∈ low, y.2 % MemTy.bytes ty = 0 ∧ y.2 + MemTy.bytes ty ≤ (s0.party c.party).weightLen)
    (hx : x.2 % MemTy.bytes ty ≠ 0 ∨ (s0.party c.party).weightLen < x.2 + MemTy.bytes ty) :
    ∃ r, OffsetReport (MemTy.bytes ty) 0x09 x r ∧ Traps (.ldw f d a ofs ty) s key r := by
  obtain ⟨r, hr, hf⟩ := localFault_of_first (high := high) hlow hx (by decide : (0x09 : BitVec 8) ≠ 0x19)
  refine ⟨r, hr, traps_of_trap (exec_ldw f d a ofs ty s) h hn rfl rfl hs hc ?_⟩
  simp only [counterFull_of_room hroom, map_localOfs, hat, hf, Bool.false_eq_true, if_false]

section
variable {low high : List (Nat × Nat)} {x : Nat × Nat} (hn : NoRegionLoad s key) (hs : s0 = s.entered key f) (hc : c = s0.crew key)
  (hheld : s0.windowHeld key at_ = none) (hat : at_ = low ++ x :: high)
  (hlow : ∀ y ∈ low, y.2 % 4 = 0 ∧ (s0.window (s0.windowCtx c) y.2).isSome = true)
  (hx : x.2 % 4 ≠ 0 ∨ s0.window (s0.windowCtx c) x.2 = none)
include hn hs hc hheld hat hlow hx

theorem ldr_faults (h : Issues (.ldr f d a ofs) s key) (ha : at_ = localAddrs s0 key c a ofs (accessLanes d (c.effLanes f)))
    (hroom : c.loads.length < 63) : ∃ r, OffsetReport 4 0x0B x r ∧ Traps (.ldr f d a ofs) s key r := by
  obtain ⟨r, hr, hf⟩ := windowFault_of_first (high := high) hlow hx
  rw [← hat, ha] at hf
  rw [ha] at hheld
  refine ⟨r, hr, traps_of_trap (exec_ldr f d a ofs s) h hn rfl rfl hs hc ?_⟩
  simp only [counterFull_of_room hroom, map_localOfs, hheld, held?_none, hf, Bool.false_eq_true, if_false]

theorem str_faults (h : Issues (.str f a b ofs) s key) (ha : at_ = localAddrs s0 key c a ofs (c.effLanes f))
    (hroom : c.stores.length < 63) : ∃ r, OffsetReport 4 0x0B x r ∧ Traps (.str f a b ofs) s key r := by
  obtain ⟨r, hr, hf⟩ := windowFault_of_first (high := high) hlow hx
  rw [← hat, ha] at hf
  rw [ha] at hheld
  refine ⟨r, hr, traps_of_trap (exec_str f a b ofs s) h hn rfl rfl hs hc ?_⟩
  simp only [counterFull_of_room hroom, map_localOfs, hheld, held?_none, hf, Bool.false_eq_true, if_false]

end

end

/-- Settles O28, each clause by the lemma about its form: the first lane at fault decides the report. -/
theorem addressFaults : Obligations.AddressFaults := by
  refine ⟨?_, ?_, ?_, ?_, ?_, ?_, ?_, ?_, ?_⟩
  · intro n va
    exact ⟨addressFault_beyond n, addressFault_misaligned, addressFault_sound⟩
  · intro s key need n addrs l va hlane
    exact access_of_faultyLane hlane
  · intro f d a ofs ty acq sc fr hv hd s key l va h hn s0 c hroom hlane
    exact ld_faults h hn rfl rfl hroom hlane
  · intro f a b ofs ty rel sc s key s1 l va h hn s0 c addrs hroom hbehind hrel hlane
    exact st_faults h hn rfl rfl rfl hroom hbehind hrel hlane
  · intro i f a d sc rel store lanes n s key s1 l va h hn s0 c hi hroom hrel addrs hbehind hlane
    obtain ⟨b, op, sem, sz, u, rfl, rfl, rfl, rfl, rfl⟩ | ⟨b, op, sz, u, rfl, rfl, rfl, rfl⟩ |
      ⟨b, ft, op, fz, cn, sat, rfl, rfl, rfl, rfl⟩ := hi
    · exact atom_faults h hn rfl rfl hroom hrel hbehind hlane
    · obtain ⟨r, hr, htrap⟩ := reduce_faults rfl hroom hrel hbehind hlane
      exact ⟨r, hr, traps_of_trap (exec_red_reduce f a b op rel sc sz u s) h hn rfl rfl rfl rfl htrap⟩
    · obtain ⟨r, hr, htrap⟩ := reduce_faults rfl hroom hrel hbehind hlane
      exact ⟨r, hr, traps_of_trap (exec_fred_reduce f a b ft op fz cn sat rel sc s) h hn rfl rfl rfl rfl htrap⟩
  · intro f a ofs sc inv s key l va h hn s0 c hroom hlane
    exact cflush_faults h hn rfl rfl hroom hlane
  · intro i f a ofs lanes store n peer s key h hn s0 c hi hroom haway
    have hanswers : PeerAnswers i s s0 key c peer n store (localAddrs s0 key c a ofs lanes) := by
      obtain ⟨d, ty, rfl, rfl, rfl, rfl⟩ | ⟨b, ty, rfl, rfl, rfl, rfl⟩ | ⟨d, b, op, sz, u, rfl, rfl, rfl, rfl, rfl⟩ := hi
      · exact lds_peerAnswers h hn rfl rfl hroom haway
      · exact sts_peerAnswers h hn rfl rfl hroom haway
      · exact atoms_peerAnswers h hn rfl rfl hroom haway
    refine ⟨hanswers.bound, hanswers.beyond, fun hpeer hlanes => hanswers.nowhere hpeer ?_⟩
    rw [hlanes]
    rfl
  · intro f d a ofs ty s key low x high h hn s0 c len hroom hat hlow hx
    exact ldw_faults h hn rfl rfl hroom hat hlow hx
  · intro i f a ofs lanes store s key low x high h hn s0 c at_ hi hroom hheld hat hlow hx
    obtain ⟨d, rfl, rfl, rfl⟩ | ⟨b, rfl, rfl, rfl⟩ := hi
    · exact ldr_faults hn rfl rfl hheld hat hlow hx h rfl hroom
    · exact str_faults hn rfl rfl hheld hat hlow hx h rfl hroom

end Sys2Proof.Machine

/-! What a change of a word at its home leaves of the package (spec/06 R126, spec/13 R242, spec/15 R253, spec/26 R358). -/
namespace Sys2Proof.Machine

/-- Folded updates of which each leaves some part of the state as it is leave that part as it is. -/
theorem foldl_keeps {α β γ : Type} (p : α → γ) (g : α → β → α) (hg : ∀ a x, p (g a x) = p a) (l : List β) (a : α) :
    p (l.foldl g a) = p a :=
  List.foldlRecOn (motive := fun b => p b = p a) l g rfl fun b hb x _ => (hg b x).trans hb

/-- Nothing changes but memory, the reports on their way, and what a word at its home tells of it: the waiters of service crews, the
dependences of launches, the crews and cores that are answered, and the mirrors. -/
def WordsOnly (s t : State) : Prop :=
  t = { s with mem := t.mem, bad := t.bad, svcs := t.svcs, launches := t.launches, crews := t.crews, cores := t.cores,
               mirrorsDue := t.mirrorsDue, posts := t.posts }

theorem WordsOnly.refl (s : State) : WordsOnly s s := rfl

theorem WordsOnly.trans {s t u : State} (h : WordsOnly s t) (h' : WordsOnly t u) : WordsOnly s u :=
  Eq.trans h' (congrArg (fun x : State => { x with mem := u.mem, bad := u.bad, svcs := u.svcs, launches := u.launches, crews := u.crews,
                                                    cores := u.cores, mirrorsDue := u.mirrorsDue, posts := u.posts }) h)

section
variable {s t : State} (h : WordsOnly s t)
include h

theorem WordsOnly.dies : t.dies = s.dies := by rw [h]
theorem WordsOnly.meridian : t.meridian = s.meridian := by rw [h]
theorem WordsOnly.outbox : t.outbox = s.outbox := by rw [h]
theorem WordsOnly.nextLaunch : t.nextLaunch = s.nextLaunch := by rw [h]

end

theorem wordsOnly_foldl {β : Type} (g : State → β → State) (hg : ∀ s x, WordsOnly s (g s x)) (l : List β) (s : State) :
    WordsOnly s (l.foldl g s) :=
  List.foldlRecOn (motive := WordsOnly s) l g (WordsOnly.refl s) fun t ht x _ => ht.trans (hg t x)

theorem wordsOnly_modCrew (s : State) (key : Nat) (g : Crew → Crew) : WordsOnly s (s.modCrew key g) := by
  unfold State.modCrew
  split <;> rfl

theorem wordsOnly_homePut (s : State) (a : Attr) (pa : Nat) (bytes : List Byte) : WordsOnly s (s.homePut a pa bytes).1 := rfl

theorem wordsOnly_answerWaiter (s : State) (svc : Nat) (w : Waiter) : WordsOnly s (s.answerWaiter svc w) := by
  have hgive (c : Crew → Crew) : WordsOnly s
      (((s.modSvc svc fun x => { x with waiters := x.waiters.erase w }).modCrew w.crew c).signalWake (coreOf w.crew) 1) :=
    (WordsOnly.trans (t := s.modSvc svc _) rfl (wordsOnly_modCrew _ _ _)).trans rfl
  unfold State.answerWaiter
  dsimp only
  split
  · exact WordsOnly.refl s
  split
  · exact hgive _
  split
  · exact WordsOnly.refl s
  cases w.got with
  | none => exact WordsOnly.refl s
  | some v => cases v <;> exact hgive _

theorem wordsOnly_testDeps (s : State) : WordsOnly s s.testDeps := by
  unfold State.testDeps
  split <;> rfl

theorem wordsOnly_notify (s : State) (svc : Nat) : WordsOnly s (s.notify svc) :=
  (WordsOnly.trans (t := s.modSvc svc _) rfl (wordsOnly_testDeps _)).trans (wordsOnly_foldl _ (fun t w => wordsOnly_answerWaiter t svc w) _ _)

theorem wordsOnly_mirrorWrite (s : State) (pa ct : Nat) : WordsOnly s (s.mirrorWrite pa ct) := by
  refine wordsOnly_foldl _ (fun t m => ?_) _ _
  split
  · split <;> rfl
  · rfl

theorem wordsOnly_signalPut (s : State) (a : Attr) (pa : Nat) (v : DWord) : WordsOnly s (s.signalPut a pa v).1 := by
  unfold State.signalPut
  split
  · exact WordsOnly.refl s
  · exact ((wordsOnly_homePut s a pa _).trans (wordsOnly_notify _ _)).trans (wordsOnly_mirrorWrite _ _ _)

theorem wordsOnly_bumpWord (s : State) (a : Attr) (pa : Nat) : WordsOnly s (s.bumpWord a pa) := wordsOnly_signalPut s a pa _

/-! ## The fault ring -/

section
variable {s t : State} {ctx : Nat}

theorem wordsOnly_of_countLost (h : s.countLost ctx = some t) : WordsOnly s t := by
  unfold State.countLost at h
  split at h
  · cases h; exact WordsOnly.refl s
  · split at h
    · cases h
    · cases h; exact wordsOnly_bumpWord s _ _

theorem wordsOnly_of_countPost (h : s.countPost ctx = some t) : WordsOnly s t := by
  unfold State.countPost at h
  split at h
  · cases h; exact WordsOnly.refl s
  · dsimp only at h
    split at h
    · cases h
    · cases hn : s.noteWord ctx ‹_› with
      | none => rw [hn] at h; cases h; exact wordsOnly_bumpWord s _ _
      | some n => rw [hn] at h; cases h; exact (wordsOnly_bumpWord s _ _).trans (wordsOnly_bumpWord _ _ _)

theorem wordsOnly_of_ringPut {r : Report} {va : Nat} (h : s.ringPut ctx r = .wrote t va) : WordsOnly s t := by
  unfold State.ringPut at h
  dsimp only at h
  repeat' split at h
  all_goals cases h
  all_goals rfl

theorem wordsOnly_ringReport (s : State) (ctx : Nat) (r : Report) : WordsOnly s (s.ringReport ctx r) := by
  unfold State.ringReport
  split
  · exact wordsOnly_of_ringPut ‹_›
  · exact WordsOnly.refl s
  · cases hu : s.countLost ctx with
    | none => rfl
    | some u => exact wordsOnly_of_countLost hu

theorem wordsOnly_postStep (s : State) (p : Post) (first : Bool) : WordsOnly s (s.postStep p first).1 := by
  unfold State.postStep
  split
  · split
    · exact wordsOnly_of_countLost ‹_›
    · exact WordsOnly.refl s
  · split
    · split
      · exact WordsOnly.refl s
      · split
        · exact WordsOnly.refl s
        · rfl
    · split
      · exact WordsOnly.refl s
      · split
        · exact wordsOnly_of_countPost ‹_›
        · exact WordsOnly.refl s

theorem wordsOnly_publish (s : State) : WordsOnly s s.publish := by
  unfold State.publish
  dsimp only
  split
  · exact WordsOnly.refl s
  · refine WordsOnly.trans (t := _) ?_ rfl
    exact List.foldlRecOn (motive := fun acc : State × List Post => WordsOnly s acc.1) s.posts _ (WordsOnly.refl s)
      fun acc hacc p _ => hacc.trans (wordsOnly_postStep acc.1 p _)

end

end Sys2Proof.Machine

/-! The start of gangs, and the admission of launches (spec/15 R250-R253, R255, R257). -/
namespace Sys2Proof.Machine

/-! ## GANG_START -/

/-- A core that a launch has reserved is free of it. -/
def Core.unreserve (launch : Nat) (c : Core) : Core :=
  match c.reserved with
  | some (li, _) => if li = launch then { c with reserved := none } else c
  | none => c

/-- The cores that a launch has reserved are free of it. -/
def State.unreserve (s : State) (launch : Nat) : State :=
  { s with cores := s.cores.map fun (c : Nat × Core) => match c.2.reserved with
      | some (li, _) => if li = launch then (c.1, { c.2 with reserved := none }) else c
      | none => c }

theorem unreserve_eq (s : State) (launch : Nat) :
    s.unreserve launch = { s with cores := s.cores.map fun (c : Nat × Core) => (c.1, c.2.unreserve launch) } := by
  refine congrArg (fun l => { s with cores := l }) (List.map_congr_left fun c _ => ?_)
  obtain ⟨k, x⟩ := c
  unfold Core.unreserve
  cases x.reserved with
  | none => rfl
  | some r => exact (apply_ite (Prod.mk k) _ _ _).symm

/-- The cores that a launch has reserved, each with its root. -/
def State.reservedFor (s : State) (launch : Nat) : List (Nat × Nat) :=
  s.cores.filterMap fun c => match c.2.reserved with
    | some (li, t) => if li = launch then some (c.1, t) else none
    | none => none

/-- A gang whose roots are placed has started, and its cores are reserved no more; the next gang may reserve them (spec/15 R257). -/
def State.gangRuns (u : State) (launch : Nat) : State :=
  ((u.modLaunch launch fun l => { l with gangStarted := true }).unreserve launch).reserveGang

theorem exec_gangStart (launch : Nat) (s : State) : exec (.gangStart launch) s = event s fun s =>
    let s := s.reserveGang
    let l := s.launch launch
    if (launchMask l).any fun d => s.relocking d || s.waitingFirst d then s
    else if l.status ≠ .running || !l.gang || l.gangStarted || !l.released ||
      (s.reservedFor launch).length ≠ packetRoots l.packet then s
    else match s.placeGang launch (s.reservedFor launch) with
      | none => s
      | some u => u.gangRuns launch := rfl

/-- A gang that is reserved, and for whose roots there is room, starts at once (spec/15 R257). -/
theorem gangStart_places {s u : State} {launch : Nat} (hres : s.reserveGang = s)
    (hdies : ∀ d ∈ launchMask (s.launch launch), s.relocking d = false ∧ s.waitingFirst d = false)
    (hrun : (s.launch launch).status = .running) (hgang : (s.launch launch).gang = true)
    (hnew : (s.launch launch).gangStarted = false) (hrel : (s.launch launch).released = true)
    (hlen : (s.reservedFor launch).length = packetRoots (s.launch launch).packet)
    (hplace : s.placeGang launch (s.reservedFor launch) = some u) : Happens (.gangStart launch) s (u.gangRuns launch) := by
  have hfree : ¬((launchMask (s.launch launch)).any fun d => s.relocking d || s.waitingFirst d) = true := by
    simpa using hdies
  have hready : ¬(decide ((s.launch launch).status ≠ .running) || !(s.launch launch).gang || (s.launch launch).gangStarted ||
      !(s.launch launch).released || decide ((s.reservedFor launch).length ≠ packetRoots (s.launch launch).packet)) = true := by
    simp [hrun, hgang, hnew, hrel, hlen]
  refine happens_of_event (exec_gangStart launch s) ?_
  simp only [hres]
  refine (if_neg hfree).trans ((if_neg hready).trans ?_)
  rw [hplace]

/-! ## ADMIT_NEXT -/

theorem exec_admitNext (core ctx queue : Nat) (s : State) : exec (.admitNext core ctx queue) s = execAdmitNext core ctx queue s := rfl

section
variable {s : State} {core ctx n : Nat} {p : BitVec 4096} {va : DWord}

/-- A refusal tells of it in a fault ring and in the completion word, and nothing else (spec/15 R253). -/
theorem wordsOnly_refuse (s : State) (ctx : Nat) (p : BitVec 4096) (n : Nat) (va : DWord) : WordsOnly s (s.refuse ctx p n va) := by
  unfold State.refuse
  dsimp only
  split
  · exact wordsOnly_ringReport s _ _
  · split
    · exact (wordsOnly_ringReport s _ _).trans (wordsOnly_signalPut _ _ _ _)
    · exact wordsOnly_ringReport s _ _

theorem reserveGang_nextLaunch (s : State) : s.reserveGang.nextLaunch = s.nextLaunch := by
  unfold State.reserveGang
  split
  · rfl
  · split
    · rfl
    · exact foldl_keeps State.nextLaunch (fun s (x : Nat × Nat) => State.modCore s x.1 _) (fun _ _ => rfl) _ _

/-- An admitted launch takes the next number. -/
theorem admitPacket_nextLaunch (s : State) (ctx : Nat) (p : BitVec 4096) : (s.admitPacket ctx p).nextLaunch = s.nextLaunch + 1 := by
  unfold State.admitPacket
  dsimp only
  split
  · exact reserveGang_nextLaunch _
  · rfl

theorem judgePacket_refuses (h : packetFails p (ctxBmask (s.ctxEntry ctx)) = some n) :
    s.judgePacket core ctx p va = some (s.refuse ctx p n va) := by
  simp only [State.judgePacket, h]

theorem probe_of_lookup {need : Need} {declined : Bool} (h : (s.lookup ctx va.toNat need).isOk = true) :
    s.probe ctx va need declined = .ok := by
  unfold State.probe
  cases hl : s.lookup ctx va.toNat need with
  | ok x => rfl
  | error e => rw [hl] at h; cases h

/-- A packet that meets the conditions, and whose words translate, is admitted with the dies that are ready (spec/15 R253). -/
theorem judgePacket_admits (hfine : packetFails p (ctxBmask (s.ctxEntry ctx)) = none)
    (hcmp : (s.lookup ctx (packetCmpaddr p).toNat .write).isOk = true)
    (hdep : packetDepaddr p = 0 ∨ (s.lookup ctx (packetDepaddr p).toNat .read).isOk = true) (hdies : s.admitDies p ≠ []) :
    s.judgePacket core ctx p va = some (s.admitPacket ctx p) := by
  have hword (declined : Bool) :
      (if packetDepaddr p = 0 then Probe.ok else s.probe ctx (packetDepaddr p) .read declined) = .ok := by
    obtain hzero | hok := hdep
    · exact if_pos hzero
    · rw [probe_of_lookup hok, ite_self]
  simp only [State.judgePacket, hfine, probe_of_lookup hcmp, hword, List.isEmpty_eq_false_iff.mpr hdies, Bool.false_eq_true, if_false]

end

/-- The agent of a core has the answer to what it asked about a packet. -/
theorem hostAsk_answered (core : Nat) (x : Option (Nat × Bool)) :
    (match x with
      | some (k, d) => if k = crewKey core agentSlot then none else some (k, d)
      | none => none) = x.filter fun y => y.1 != 128 * core + 64 := by
  cases x with
  | none => rfl
  | some y =>
    obtain ⟨k, d⟩ := y
    rw [Option.filter_some]
    by_cases hk : k = 128 * core + 64
    · simp [crewKey, agentSlot, hk]
    · simp [crewKey, agentSlot, hk]

theorem modCore_congr {s : State} {k : Nat} {g g' : Core → Core} (h : g (s.core k) = g' (s.core k)) : s.modCore k g = s.modCore k g' :=
  congrArg (s.setCore k) h

/-- The queue's ticket goes on by one packet, and the agent asks nothing about it any more (spec/15 R250). -/
def State.ticketPassed (u : State) (core : Nat) (a : Attr) (tk : Nat) : State :=
  (u.bumpWord a tk |>.bumpWord a (tk + 8)).modCore core
    fun c => { c with hostAsk := c.hostAsk.filter fun x => x.1 != 128 * core + 64 }

/-- A packet at the ticket of a queue: the queue's words and the packet translate, and it is the packet's turn (spec/15 R250). -/
structure State.Claims (s : State) (core ctx queue q tail tk pa : Nat) (qa ta a pb : Attr) : Prop where
  valid : ctxValid (s.ctxEntry ctx) = true
  queued : queue < ctxQcnt (s.ctxEntry ctx)
  desc : s.lookup ctx (ctxQtab (s.ctxEntry ctx) + 32 * queue) .read = .ok (q, qa)
  tailWord : s.lookup ctx (s.mem.field (q + 16) 8) .read = .ok (tail, ta)
  ticket : s.lookup ctx (s.mem.field (q + 24) 8) .write = .ok (tk, a)
  turn : s.mem.field (tk + 8) 8 = s.mem.field tk 8
  filled : s.mem.field tk 8 < s.mem.field tail 8
  packet : s.lookup ctx (s.mem.field q 8 + 512 * (s.mem.field tk 8 % 2 ^ s.mem.field (q + 8) 1)) .read = .ok (pa, pb)
  reached : ∀ x ∈ [(qa, q), (ta, tail), (a, tk), (pb, pa)], s.cutOff x.2 = false ∧ s.homeHeld core x.1 x.2 = none
  free : s.wordHeld a tk = false

/-- A claimed packet that is judged without a question to the host passes the ticket on (spec/15 R250). -/
theorem admitNext_passes {s u : State} {core ctx queue q tail tk pa : Nat} {qa ta a pb : Attr}
    (hr : s.relocking (dieOfCore core) = false) (hctx : ctx < 16)
    (h : (s.readCtx ctx).Claims core ctx queue q tail tk pa qa ta a pb)
    (hheld : (s.readCtx ctx).refusalHeld ctx (BitVec.ofNat 4096 (s.mem.field pa 512)) = false)
    (hjudge : (s.readCtx ctx).judgePacket core ctx (BitVec.ofNat 4096 (s.mem.field pa 512))
      (BitVec.ofNat 64 (s.mem.field q 8 + 512 * (s.mem.field tk 8 % 2 ^ s.mem.field (q + 8) 1))) = some u)
    (hasks : u.nextLaunch ≠ s.nextLaunch ∨ u.outbox = s.outbox) :
    Happens (.admitNext core ctx queue) s (u.ticketPassed core a tk) := by
  obtain ⟨hvalid, hqueued, hdesc, htail, hticket, hturn, hfilled, hpacket, hreached, hfree⟩ := h
  simp only [List.forall_mem_cons, readCtx_mem] at *
  obtain ⟨⟨hc1, hh1⟩, ⟨hc2, hh2⟩, ⟨hc3, hh3⟩, ⟨hc4, hh4⟩, -⟩ := hreached
  have hopen : ¬(decide (ctx > 15) || !ctxValid ((s.readCtx ctx).ctxEntry ctx) ||
      decide (ctxQcnt ((s.readCtx ctx).ctxEntry ctx) ≤ queue)) = true := by
    simp only [hvalid, Bool.or_eq_true, decide_eq_true_eq, Bool.not_true, Bool.false_eq_true, or_false, not_or]
    omega
  have hnext : ¬s.mem.field tail 8 ≤ s.mem.field tk 8 := Nat.not_le.mpr hfilled
  have hanswered : ¬(decide (u.nextLaunch = s.nextLaunch) && decide (u.outbox.length ≠ s.outbox.length) &&
      decide ((u.core core).hostAsk ≠ (s.core core).hostAsk)) = true := by
    obtain hn | ho := hasks
    · simp [hn]
    · simp [ho]
  refine happens_of_eventOn (exec_admitNext core ctx queue s) hr ((if_neg hopen).trans ?_)
  simp only [readCtx_mem, hdesc, htail, hticket, hturn, hpacket, hjudge, hc1, hh1, hc2, hh2, hc3, hh3, hc4, hh4, hfree, hheld, hnext,
    ne_eq, not_true_eq_false, decide_false, Option.isSome_none, Bool.or_self, Bool.false_eq_true, if_false]
  refine (if_neg hanswered).trans ?_
  exact modCore_congr (congrArg (fun x => { ((u.bumpWord a tk).bumpWord a (tk + 8)).core core with hostAsk := x })
    (hostAsk_answered core _))

/-- Settles O57: a gang starts by `gangStart_places`, and a packet that is admitted or refused passes the ticket on. -/
theorem admission : Obligations.Admission := by
  refine ⟨?_, ?_⟩
  · intro s launch u hres hdies mine hrun hgang hnew hrel hlen hplace v free
    have hstarts := gangStart_places hres hdies hrun hgang hnew hrel hlen hplace
    rw [State.gangRuns, unreserve_eq] at hstarts
    exact hstarts
  · intro s core ctx queue q qa tail ta tk a pa pb hr hctx s1 e m hvalid hqueue hdesc htail hticket next va hturn hfilled hpacket p
      passed hreached hfree hheld hnone
    have hclaims : s1.Claims core ctx queue q tail tk pa qa ta a pb :=
      ⟨hvalid, hqueue, hdesc, htail, hticket, hturn, hfilled, hpacket, hreached, hfree⟩
    refine ⟨fun hfine hcmp hdep hdies => ?_, fun n hfails => ?_⟩
    · refine admitNext_passes hr hctx hclaims hheld (judgePacket_admits hfine hcmp hdep hdies) (.inl ?_)
      rw [admitPacket_nextLaunch]
      exact Nat.succ_ne_self _
    · exact admitNext_passes hr hctx hclaims hheld (judgePacket_refuses hfails)
        (.inr (wordsOnly_refuse s1 ctx p n (BitVec.ofNat 64 va)).outbox)

end Sys2Proof.Machine

/-! Relocks and the passing of time (spec/18 R285-R287, log 3, log 59). -/
namespace Sys2Proof.Machine

/-! ## What leaves the relocks as they are -/

/-- No time passes, and no relock begins or ends. -/
def SameRelocks (s t : State) : Prop := t.meridian = s.meridian ∧ ∀ d, (t.die d).relock = (s.die d).relock

theorem SameRelocks.refl (s : State) : SameRelocks s s := ⟨rfl, fun _ => rfl⟩

theorem SameRelocks.trans {s t u : State} (h : SameRelocks s t) (h' : SameRelocks t u) : SameRelocks s u :=
  ⟨h'.1.trans h.1, fun d => (h'.2 d).trans (h.2 d)⟩

theorem sameRelocks_of_dies {s t : State} (hm : t.meridian = s.meridian) (hd : t.dies = s.dies) : SameRelocks s t :=
  ⟨hm, fun d => by rw [State.die, hd]; rfl⟩

theorem WordsOnly.sameRelocks {s t : State} (h : WordsOnly s t) : SameRelocks s t := sameRelocks_of_dies h.meridian h.dies

theorem sameRelocks_foldl {β : Type} (g : State → β → State) (hg : ∀ s x, SameRelocks s (g s x)) (l : List β) (s : State) :
    SameRelocks s (l.foldl g s) :=
  List.foldlRecOn (motive := SameRelocks s) l g (SameRelocks.refl s) fun t ht x _ => ht.trans (hg t x)

theorem sameRelocks_modDie {s : State} {k : Nat} {g : Die → Die} (hg : ∀ x, (g x).relock = x.relock) : SameRelocks s (s.modDie k g) := by
  refine ⟨rfl, fun d => ?_⟩
  rw [State.die_modDie]
  split
  · next h => rw [hg, h]
  · rfl

theorem sameRelocks_markStalls (s : State) : SameRelocks s s.markStalls :=
  sameRelocks_foldl _ (fun t k => (wordsOnly_modCrew t k _).sameRelocks) _ s

theorem sameRelocks_countHeld (s : State) (n : Nat) : SameRelocks s (s.countHeld n) := by
  refine sameRelocks_foldl _ (fun t d => sameRelocks_foldl _ (fun u e => ?_) _ t) _ s
  exact sameRelocks_modDie fun _ => rfl

theorem wordsOnly_countCycles (s : State) (core i n : Nat) : WordsOnly s (s.countCycles core i n) := by
  unfold State.countCycles
  split <;> rfl

theorem sameRelocks_countCores (s : State) (n : Nat) : SameRelocks s (s.countCores n) := by
  refine sameRelocks_foldl _ (fun t c => ?_) _ s
  dsimp only
  split
  · exact SameRelocks.refl t
  · exact sameRelocks_foldl _ (fun u i => (wordsOnly_countCycles u _ _ _).sameRelocks) _ t

theorem sameRelocks_chargeTime (s : State) (n : Nat) : SameRelocks s (s.chargeTime n) := by
  refine sameRelocks_foldl _ (fun t cls => ?_) _ s
  exact ⟨rfl, fun _ => rfl⟩

theorem sameRelocks_startPeriod (s : State) : SameRelocks s s.startPeriod := by
  unfold State.startPeriod
  dsimp only
  split <;> exact ⟨rfl, fun _ => rfl⟩

theorem sameRelocks_holdSpent (s : State) : SameRelocks s s.holdSpent := by
  unfold State.holdSpent
  split <;> exact ⟨rfl, fun _ => rfl⟩

theorem sameRelocks_leavePipe (s : State) (key : Nat) : SameRelocks s (s.leavePipe key) := by
  unfold State.leavePipe
  dsimp only
  split <;> exact ⟨rfl, fun _ => rfl⟩

theorem sameRelocks_endRun (s : State) (key : Nat) (re : Bool) : SameRelocks s (s.endRun key re) := by
  unfold State.endRun
  refine SameRelocks.trans ?_ ((wordsOnly_modCrew _ key _).sameRelocks.trans (sameRelocks_leavePipe _ key))
  split
  · exact SameRelocks.refl s
  · exact (wordsOnly_countCycles s _ _ _).sameRelocks

theorem sameRelocks_cutRuns (s : State) : SameRelocks s s.cutRuns :=
  sameRelocks_foldl _ (fun t k => (sameRelocks_endRun t k false).trans (wordsOnly_modCrew _ k _).sameRelocks) _ s

theorem sameRelocks_refetch (s : State) : SameRelocks s s.refetch := by
  unfold State.refetch
  dsimp only
  split
  · exact SameRelocks.refl s
  · split <;> exact ⟨rfl, fun _ => rfl⟩

theorem sameRelocks_flash (s : State) : SameRelocks s s.flash := by
  unfold State.flash
  split
  · exact SameRelocks.refl s
  · dsimp only
    split <;> exact ⟨rfl, fun _ => rfl⟩

/-! ## The answers that have waited -/

theorem wordsOnly_loseMem (s : State) (key id : Nat) : WordsOnly s (s.loseMem key id) := wordsOnly_modCrew s key _

theorem wordsOnly_dropOps (s : State) (key : Nat) : WordsOnly s (s.dropOps key) := by
  unfold State.dropOps
  dsimp only
  split <;> rfl

theorem wordsOnly_bindLoad (s : State) (key : Nat) (m : MemPend) : WordsOnly s (s.bindLoad key m) := by
  unfold State.bindLoad
  split
  · exact wordsOnly_loseMem s key _
  · refine WordsOnly.trans ?_ (wordsOnly_dropOps _ key)
    split
    · exact (wordsOnly_modCrew s key _).trans rfl
    · exact wordsOnly_modCrew s key _

theorem ite_wordsOnly {s t u : State} {p : Prop} [Decidable p] (h : WordsOnly s t) (h' : WordsOnly s u) :
    WordsOnly s (if p then t else u) := by
  split
  · exact h
  · exact h'

theorem wordsOnly_packetDone (s : State) (p : Packet) (x : Applied) : WordsOnly s (s.packetDone p x) := by
  have hsignal (g : Crew → Crew) : WordsOnly s ((s.modCrew p.crew g).signalWake (coreOf p.crew) 1) :=
    (wordsOnly_modCrew s p.crew g).trans rfl
  unfold State.packetDone
  dsimp only
  split
  · exact WordsOnly.refl s
  split
  · exact (hsignal _).trans (wordsOnly_modCrew _ _ _)
  split
  · exact (hsignal _).trans (wordsOnly_modCrew _ _ _)
  split
  · refine ite_wordsOnly ?_ ?_
    · exact (hsignal _).trans (wordsOnly_modCrew _ _ _)
    · exact ((hsignal _).trans (wordsOnly_modCrew _ _ _)).trans (wordsOnly_bindLoad _ _ _)
  · exact (hsignal _).trans (wordsOnly_modCrew _ _ _)

theorem wordsOnly_deliver (s : State) (die : Nat) : WordsOnly s (s.deliver die) := by
  refine wordsOnly_foldl _ (fun t x => WordsOnly.trans ?_ (wordsOnly_foldl _ (fun u y => wordsOnly_packetDone u _ _) _ _)) _ s
  split <;> rfl

/-! ## The end of relocks -/

/-- A relock that is due ends (spec/18 R286). -/
theorem relockOver_due {s : State} {die ms fr : Nat} (h : (s.die die).relock = some (ms, fr)) (hdue : ms + 1500 ≤ s.meridian) :
    s.relockOver die = (s.setDie die { (s.die die).addFreq
      { mer := ms + 1500, clk := match (s.die die).freqs with | e :: _ => e.cycleFrom ms | [] => 0, freq := fr } with
        relock := none, lastRelock := some (ms + 1500) }).deliver die := by
  unfold State.relockOver
  simp only [h]
  exact if_neg (Nat.not_lt.mpr hdue)

theorem relockOver_meridian (s : State) (die : Nat) : (s.relockOver die).meridian = s.meridian := by
  unfold State.relockOver
  dsimp only
  split
  · split
    · rfl
    · exact (wordsOnly_deliver _ die).meridian
  · rfl

/-- The end of a die's relock leaves the relocks of the others, and of its own none or the one that is not due. -/
theorem relock_relockOver (s : State) (die d : Nat) : ((s.relockOver die).die d).relock =
    if d = die then (s.die d).relock.filter fun r => s.meridian < r.1 + 1500 else (s.die d).relock := by
  cases h : (s.die die).relock with
  | none =>
    have hsame : s.relockOver die = s := by unfold State.relockOver; simp only [h]
    rw [hsame]
    split
    · next hd => rw [hd, h]; rfl
    · rfl
  | some r =>
    obtain ⟨ms, fr⟩ := r
    by_cases hdue : ms + 1500 ≤ s.meridian
    · rw [relockOver_due h hdue, (wordsOnly_deliver _ die).sameRelocks.2 d, State.die_setDie]
      split
      · next hd => rw [hd, h, Option.filter_some, if_neg (by simpa using hdue)]
      · rfl
    · have hsame : s.relockOver die = s := by
        unfold State.relockOver
        simp only [h]
        exact if_pos (Nat.lt_of_not_le hdue)
      rw [hsame]
      split
      · next hd => rw [hd, h, Option.filter_some, if_pos (by simpa using hdue)]
      · rfl

/-- The relock of a die, if it has one, is due. -/
def State.RelockDue (s : State) (die : Nat) : Prop := ∀ r, (s.die die).relock = some r → r.1 + 1500 ≤ s.meridian

theorem relockDue_relockOver {s : State} {die : Nat} (d : Nat) (h : s.RelockDue die) : (s.relockOver d).RelockDue die := by
  intro r hr
  rw [relock_relockOver] at hr
  rw [relockOver_meridian]
  split at hr
  · exact h r (Option.filter_eq_some_iff.mp hr).1
  · exact h r hr

theorem relock_relockOver_self {s : State} {die : Nat} (h : s.RelockDue die) : ((s.relockOver die).die die).relock = none := by
  rw [relock_relockOver, if_pos rfl, Option.filter_eq_none_iff]
  intro r hr
  simpa using h r hr

theorem relock_none_relockOver {s : State} {die : Nat} (d : Nat) (h : (s.die die).relock = none) :
    ((s.relockOver d).die die).relock = none := by
  rw [relock_relockOver, h, Option.filter_none, ite_self]

/-- Of the dies whose relocks are looked at, one whose relock is due has none afterwards. -/
theorem relock_foldl_relockOver {s : State} {die : Nat} {l : List Nat} (h : s.RelockDue die) (hl : die ∈ l) :
    ((l.foldl State.relockOver s).die die).relock = none := by
  obtain ⟨low, high, rfl⟩ := List.append_of_mem hl
  rw [List.foldl_append, List.foldl_cons]
  have hlow : (low.foldl State.relockOver s).RelockDue die :=
    List.foldlRecOn (motive := fun t : State => t.RelockDue die) low _ h fun t ht d _ => relockDue_relockOver d ht
  exact List.foldlRecOn (motive := fun t : State => (t.die die).relock = none) high _ (relock_relockOver_self hlow)
    fun t ht d _ => relock_none_relockOver d ht

/-! ## A tick -/

/-- Time up to the next edge: what is counted of it has been counted. -/
def State.elapsed (s : State) (n : Nat) (pace : List Nat) : State :=
  { ((s.countHeld n).countCores n).chargeTime n with meridian := s.meridian + n, pace := pace }

/-- What the passing of time brings besides the end of relocks. -/
def State.noted (s : State) : State := s.startPeriod.holdSpent.cutRuns.publish.sendMirrors.refetch.flash

theorem tick_eq (s : State) : ∃ pace, s.tick =
    ((upto 0 4).foldl State.relockOver (s.markStalls.elapsed (s.markStalls.untilEdge (s.markStalls.pace.headD 1)) pace)).noted :=
  ⟨_, rfl⟩

theorem sameRelocks_noted (s : State) : SameRelocks s s.noted :=
  (sameRelocks_startPeriod s).trans <| (sameRelocks_holdSpent _).trans <| (sameRelocks_cutRuns _).trans <|
    (wordsOnly_publish _).sameRelocks.trans <| SameRelocks.trans (t := State.sendMirrors _) ⟨rfl, fun _ => rfl⟩ <|
    (sameRelocks_refetch _).trans (sameRelocks_flash _)

theorem relock_elapsed (s : State) (n : Nat) (pace : List Nat) (d : Nat) : ((s.elapsed n pace).die d).relock = (s.die d).relock :=
  (((sameRelocks_countHeld s n).trans (sameRelocks_countCores _ n)).trans (sameRelocks_chargeTime _ n)).2 d

/-- Time stops at the end of a relock that has not been passed (log 3). -/
theorem untilEdge_le {s : State} {die ms fr : Nat} (n : Nat) (hd : die < 4) (h : (s.die die).relock = some (ms, fr))
    (hbefore : s.meridian ≤ ms + 1500) : s.meridian + s.untilEdge n ≤ ms + 1500 := by
  let edge (r : Nat × Nat) : Nat := (if s.meridian < r.1 then r.1 else r.1 + Config.relockTicks) - s.meridian
  have hmem : edge (ms, fr) ∈ (upto 0 4).filterMap fun d => (s.die d).relock.map edge :=
    List.mem_filterMap.mpr ⟨die, mem_upto.mpr (by omega), by rw [h, Option.map_some]⟩
  have hle : s.untilEdge n ≤ edge (ms, fr) := (foldl_min_le id _ _).2 _ hmem
  have hedge : edge (ms, fr) ≤ ms + 1500 - s.meridian := by
    show (if s.meridian < ms then ms else ms + 1500) - s.meridian ≤ _
    split <;> omega
  omega

/-- Time does not pass the end of a die's relock, which is over when it is reached (spec/18 R286). -/
theorem tick_relock {s : State} {die ms fr : Nat} (hd : die < 4) (h : (s.die die).relock = some (ms, fr))
    (hbefore : s.meridian ≤ ms + 1500) :
    s.tick.meridian ≤ ms + 1500 ∧ (s.tick.meridian = ms + 1500 → (s.tick.die die).relock = none) := by
  obtain ⟨hm, hr⟩ := sameRelocks_markStalls s
  obtain ⟨pace, htick⟩ := tick_eq s
  rw [← hm] at hbefore
  rw [← hr die] at h
  generalize s.markStalls = u at h hbefore htick
  have hedge := untilEdge_le (u.pace.headD 1) hd h hbefore
  have hmer : s.tick.meridian = u.meridian + u.untilEdge (u.pace.headD 1) := by
    rw [htick, (sameRelocks_noted _).1, foldl_keeps State.meridian _ relockOver_meridian]
    rfl
  refine ⟨hmer ▸ hedge, fun hend => ?_⟩
  rw [htick, (sameRelocks_noted _).2 die]
  refine relock_foldl_relockOver (fun r hrel => ?_) (mem_upto.mpr (by omega))
  rw [relock_elapsed, h] at hrel
  cases hrel
  exact (hend.symm.trans hmer).le

end Sys2Proof.Machine

/-! Gating, budgets, relocks, wakes and limits (spec/10 R195, spec/15 R263, R264, spec/16 R268, spec/18 R285-R287). -/
namespace Sys2Proof.Machine

/-! ## Cores that are gated (spec/15 R263) -/

theorem exec_coreGate (core : Nat) (s : State) : exec (.coreGate core) s = execCoreGate core s := rfl
theorem exec_coreWake (core code : Nat) (s : State) : exec (.coreWake core code) s = execCoreWake core code s := rfl

section
variable {s : State} {core code : Nat}

theorem coreGate_gates (hr : s.relocking (dieOfCore core) = false) (hg : s.gateable core = true) :
    Happens (.coreGate core) s (s.modCore core fun x => { x with gated := true, source := none }) :=
  happens_of_eventOn (exec_coreGate core s) hr (if_pos hg)

/-- The first source since a core was gated is kept, with its tick. -/
theorem signalWake_source (hg : (s.core core).gated = true) :
    ((s.signalWake core code).core core).source = some ((s.core core).source.getD (code, s.meridian)) := by
  rw [State.signalWake, State.core_modCore_self]
  refine (if_pos hg).trans ?_
  cases (s.core core).source <;> rfl

/-- The core after its wake latency (spec/15 R263). -/
theorem coreWake_wakes {at_ : Nat} (hr : s.relocking (dieOfCore core) = false) (hg : (s.core core).gated = true)
    (hsource : (s.core core).source = some (code, at_)) (hlate : at_ + 50 ≤ s.meridian) :
    Happens (.coreWake core code) s
      (s.modCore core fun x => { x with gated := false, wake := BitVec.ofNat 32 code, source := none }) := by
  refine happens_of_eventOn (exec_coreWake core code s) hr ?_
  simp only [hsource]
  exact if_pos (by simp [hg, show at_ + Config.wakeLatency ≤ s.meridian from hlate])

end

/-! ## Budgets (spec/15 R264) -/

theorem exec_budgetHold (cls : Nat) (s : State) : exec (.budgetHold cls) s = execBudgetHold cls s := rfl
theorem exec_budgetPeriodStart (s : State) : exec .budgetPeriodStart s = event s State.startPeriod := rfl

/-- A budget in a new period: its excess is deducted, and its new limit holds. -/
def Budget.renewed (b : Budget) : Budget :=
  let beyond := if b.limit = BitVec.allOnes 64 then 0 else b.used - b.limit.toNat
  { b with used := beyond, excess := beyond, limit := b.next.getD b.limit, next := none }

section
variable {s : State} (h : s.period < s.meridian / 100000)
include h

theorem startPeriod_eq : ∃ crews, s.startPeriod =
    { s with period := s.meridian / 100000, heldClasses := [], budgets := s.budgets.map fun x => (x.1, x.2.renewed), crews := crews } :=
  ⟨_, if_neg (Nat.not_le.mpr h)⟩

theorem startPeriod_renews : s.startPeriod.period = s.meridian / 100000 ∧ s.startPeriod.heldClasses = [] ∧
    ∀ k, Tbl.get? s.startPeriod.budgets k = (Tbl.get? s.budgets k).map Budget.renewed := by
  obtain ⟨crews, heq⟩ := startPeriod_eq h
  rw [heq]
  exact ⟨rfl, rfl, Tbl.get?_map s.budgets fun _ => Budget.renewed⟩

end

/-- A class of which a quantity has reached its limit is spent. -/
theorem classSpent_of_limit {s : State} {cls k : Nat} (hk : k < 4)
    (hlim : ((Tbl.get? s.budgets (4 * cls + k)).getD {}).limit ≠ BitVec.allOnes 64)
    (hused : ((Tbl.get? s.budgets (4 * cls + k)).getD {}).limit.toNat ≤ ((Tbl.get? s.budgets (4 * cls + k)).getD {}).used) :
    s.classSpent cls = true :=
  List.any_eq_true.mpr ⟨k, mem_upto.mpr (by omega), Bool.and_eq_true_iff.mpr ⟨decide_eq_true hlim, decide_eq_true hused⟩⟩

theorem budgetHold_holds {s : State} {cls : Nat} (hspent : s.classSpent cls = true) (hnew : s.heldClasses.contains cls = false) :
    Happens (.budgetHold cls) s { s with heldClasses := s.heldClasses ++ [cls] } :=
  happens_of_event (exec_budgetHold cls s) (if_pos (by rw [hspent, hnew]; rfl))

/-! ## Limits and relocks (spec/16 R268, spec/18 R285, R286) -/

theorem exec_spawnStallLimit (crew : Nat) (s : State) : exec (.spawnStallLimit crew) s = execSpawnStallLimit crew s := rfl
theorem exec_relockStart (die : Nat) (s : State) : exec (.relockStart die) s = execRelockStart die s := rfl
theorem exec_relockEnd (die : Nat) (s : State) : exec (.relockEnd die) s = event s fun s => s.relockOver die := rfl

theorem spawnStallLimit_faults {s : State} {crew : Nat} (hr : s.relocking (dieOfCore (coreOf crew)) = false)
    (hphase : (s.crew crew).phase = spawnPhase) (hnone : (s.crew crew).report = none)
    (hlate : (s.crew crew).aux.toNat + 1000000 ≤ s.meridian) :
    Happens (.spawnStallLimit crew) s (s.takeFault crew { cause := 0x16, sub := 1, d1 := BitVec.ofNat 32 s.pedTable.length }) :=
  happens_of_eventOn (exec_spawnStallLimit crew s) hr
    (if_pos (by simp [hphase, hnone, show (s.crew crew).aux.toNat + Config.spawnStall ≤ s.meridian from hlate]))

theorem relockStart_starts {s : State} {die fr : Nat} (hwant : (s.die die).wantF = some fr) (hnone : (s.die die).relock = none)
    (hgap : ∀ t, (s.die die).lastRelock = some t → t + 5000 ≤ s.meridian + 1) :
    Happens (.relockStart die) s (s.setDie die { s.die die with relock := some (s.meridian + 1, fr), wantF := none }) := by
  refine happens_of_event (exec_relockStart die s) ?_
  simp only [hwant, hnone, Option.isNone_none, Bool.true_and]
  cases hlast : (s.die die).lastRelock with
  | none => exact if_pos rfl
  | some t => exact if_pos (decide_eq_true (hgap t hlast))

/-! ## The wake of agents (spec/10 R195) -/

/-- The source that wakes an agent, if it sleeps and the source fired a wake latency ago. -/
def State.wakeOf (s : State) (core k : Nat) : Option (Nat × Nat) :=
  let y := (s.core core).alarm k
  if isAgentKey k && (s.crew k).asleep && (s.crew k).phase = 1 && y.fired + Config.wakeLatency ≤ s.meridian then
    y.code.map fun c => (k, c)
  else none

/-- An agent wakes: its SLEEP answers the code. -/
def State.agentWoken (core : Nat) (s : State) (x : Nat × Nat) : State :=
  (s.modCore core fun y => y.takeWake x.1 x.2).modCrew x.1 fun c =>
    { c.setS c.aux.toNat (BitVec.ofNat 32 x.2) with asleep := false, phase := 0, aux := 0, wait := none, stall := none
                                                    readyAt := s.clk (dieOfCore core), pc := c.pc + 12 }

theorem wakeable_eq (s : State) (core : Nat) : s.wakeable core = [128 * core + 64, 128 * core + 63].filterMap (s.wakeOf core) := rfl

theorem exec_agentWake (core : Nat) (s : State) :
    exec (.agentWake core) s = eventOn (dieOfCore core) s fun s => (s.wakeable core).foldl (State.agentWoken core) s := rfl

section
variable {s : State} {core : Nat}

theorem wakeOf_key {k : Nat} {x : Nat × Nat} (h : s.wakeOf core k = some x) : x.1 = k ∧ isAgentKey k = true := by
  unfold State.wakeOf at h
  dsimp only at h
  split at h
  · next hw =>
    obtain ⟨c, -, rfl⟩ := Option.map_eq_some_iff.mp h
    simp only [Bool.and_eq_true] at hw
    exact ⟨rfl, hw.1.1.1⟩
  · cases h

theorem wakeOf_eq {k code : Nat} (hcode : ((s.core core).alarm k).code = some code) (hagent : isAgentKey k = true)
    (hsleep : (s.crew k).asleep = true) (hphase : (s.crew k).phase = 1) (hfired : ((s.core core).alarm k).fired + 50 ≤ s.meridian) :
    s.wakeOf core k = some (k, code) := by
  refine (if_pos ?_).trans (by rw [hcode]; rfl)
  simp [hagent, hsleep, hphase, show ((s.core core).alarm k).fired + Config.wakeLatency ≤ s.meridian from hfired]

/-- Of a core's wake only its own agent and its own alarm are changed. -/
theorem alarm_takeWake (x : Core) (key code k : Nat) : (x.takeWake key code).alarm k =
    if slotOf k = agentSlot ↔ slotOf key = agentSlot then
      { x.alarm key with pending := (x.alarm key).pending &&& ~~~((1 : BitVec 9) <<< code) } else x.alarm k := by
  unfold Core.takeWake Core.alarm Core.setAlarm
  by_cases hk : slotOf key = agentSlot <;> by_cases hj : slotOf k = agentSlot <;> simp [hk, hj]

/-- A wake is pending no more once an agent has taken it. -/
theorem pending_takeWake (x : Core) (key code : Nat) : ((x.takeWake key code).alarm key).pending.getLsbD code = false := by
  rw [alarm_takeWake, if_pos Iff.rfl]
  by_cases hc : code < 9 <;> simp [hc]

theorem agentWoken_crew {k code : Nat} (h : isAgentKey k = true) : (s.agentWoken core (k, code)).crew k =
    { (s.crew k).setS (s.crew k).aux.toNat (BitVec.ofNat 32 code) with
      asleep := false, phase := 0, aux := 0, wait := none, stall := none, readyAt := s.clk (dieOfCore core), pc := (s.crew k).pc + 12 } :=
  crew_modCrew_self _ (by rw [h, Bool.or_true])

theorem agentWoken_core (x : Nat × Nat) : (s.agentWoken core x).core core = (s.core core).takeWake x.1 x.2 := by
  rw [State.agentWoken, State.core_modCrew, State.core_modCore_self]

theorem agentWoken_mem (x : Nat × Nat) : (s.agentWoken core x).mem = s.mem := by
  rw [State.agentWoken, State.modCrew_mem, State.modCore_mem]

/-- The wake of one agent leaves the other's crew and alarm as they are. -/
theorem agentWoken_other {k : Nat} {x : Nat × Nat} (hne : k ≠ x.1) (hslot : ¬(slotOf k = agentSlot ↔ slotOf x.1 = agentSlot)) :
    (s.agentWoken core x).crew k = s.crew k ∧ ((s.agentWoken core x).core core).alarm k = (s.core core).alarm k := by
  refine ⟨(State.crew_modCrew_ne _ _ hne).trans (State.crew_modCore ..), ?_⟩
  rw [agentWoken_core, alarm_takeWake, if_neg hslot]

/-- The agent that wakes is one of the core's two; the other, if it wakes too, has its own alarm. -/
theorem wakeable_split {k code : Nat} (hk : k = 128 * core + 64 ∨ k = 128 * core + 63) (hw : s.wakeOf core k = some (k, code)) :
    ∃ low high, s.wakeable core = low ++ (k, code) :: high ∧
      ∀ x ∈ low ++ high, k ≠ x.1 ∧ ¬(slotOf k = agentSlot ↔ slotOf x.1 = agentSlot) := by
  have hfw : slotOf (128 * core + 64) = agentSlot := by unfold slotOf agentSlot; omega
  have hsc : slotOf (128 * core + 63) ≠ agentSlot := by unfold slotOf agentSlot; omega
  have hone {x : Nat × Nat} {j : Nat} (hx : x ∈ [j].filterMap (s.wakeOf core)) : x.1 = j := by
    obtain ⟨i, hi, hwi⟩ := List.mem_filterMap.mp hx
    rw [(wakeOf_key hwi).1, List.mem_singleton.mp hi]
  rw [wakeable_eq]
  obtain rfl | rfl := hk
  · refine ⟨[], [128 * core + 63].filterMap (s.wakeOf core), List.filterMap_cons_some hw, fun x hx => ?_⟩
    rw [hone hx]
    exact ⟨by omega, fun h => hsc (h.mp hfw)⟩
  · refine ⟨[128 * core + 64].filterMap (s.wakeOf core), [], ?_, fun x hx => ?_⟩
    · rw [← List.singleton_append, List.filterMap_append, List.filterMap_cons_some hw]
      rfl
    · rw [hone (by simpa using hx)]
      exact ⟨by omega, fun h => hsc (h.mpr hfw)⟩

/-- The wake of other agents leaves a crew and its alarm as they are. -/
theorem foldl_agentWoken_other {k : Nat} {l : List (Nat × Nat)}
    (h : ∀ x ∈ l, k ≠ x.1 ∧ ¬(slotOf k = agentSlot ↔ slotOf x.1 = agentSlot)) :
    (l.foldl (State.agentWoken core) s).crew k = s.crew k ∧
      ((l.foldl (State.agentWoken core) s).core core).alarm k = (s.core core).alarm k :=
  List.foldlRecOn (motive := fun t : State => t.crew k = s.crew k ∧ (t.core core).alarm k = (s.core core).alarm k) l _ ⟨rfl, rfl⟩
    fun t ⟨hcrew, halarm⟩ x hx =>
      have ⟨hcrew', halarm'⟩ := agentWoken_other (s := t) (core := core) (h x hx).1 (h x hx).2
      ⟨hcrew'.trans hcrew, halarm'.trans halarm⟩

/-- An agent that wakes answers the code in its register and goes on, and the source is pending no more (spec/10 R195). -/
theorem wakeable_wakes {k code : Nat} (hk : k = 128 * core + 64 ∨ k = 128 * core + 63) (hw : s.wakeOf core k = some (k, code)) :
    let t := (s.wakeable core).foldl (State.agentWoken core) s
    ((t.core core).alarm k).pending.getLsbD code = false ∧ ∃ now, t.crew k =
      { (s.crew k).setS (s.crew k).aux.toNat (BitVec.ofNat 32 code) with
        asleep := false, phase := 0, aux := 0, wait := none, stall := none, readyAt := now, pc := (s.crew k).pc + 12 } := by
  obtain ⟨low, high, hsplit, hother⟩ := wakeable_split hk hw
  have hlow := foldl_agentWoken_other (s := s) (core := core) fun x hx => hother x (List.mem_append_left high hx)
  rw [hsplit, List.foldl_append, List.foldl_cons]
  generalize low.foldl (State.agentWoken core) s = u at hlow
  obtain ⟨hcrew, -⟩ := hlow
  obtain ⟨hcrew', halarm'⟩ := foldl_agentWoken_other (s := u.agentWoken core (k, code)) (core := core)
    fun x hx => hother x (List.mem_append_right low hx)
  refine ⟨?_, u.clk (dieOfCore core), ?_⟩
  · rw [halarm', agentWoken_core, pending_takeWake]
  · rw [hcrew', agentWoken_crew (wakeOf_key hw).2, hcrew]

theorem agentWake_happens (hr : s.relocking (dieOfCore core) = false) :
    Happens (.agentWake core) s ((s.wakeable core).foldl (State.agentWoken core) s) :=
  happens_of_eventOn (exec_agentWake core s) hr rfl

/-! ## Deadlines (spec/10 R195) -/

/-- Whether the deadline that an agent has armed has passed at its die. -/
def State.deadlineDue (s : State) (core : Nat) (y : Alarm) : Bool := y.deadline ≠ 0 && y.deadline ≤ s.mer (dieOfCore core)

/-- An alarm whose deadline has passed has its source pending, and no deadline. -/
def State.alarmRung (s : State) (core : Nat) (y : Alarm) : Alarm :=
  if s.deadlineDue core y then Alarm.signal { y with deadline := 0 } 5 s.meridian else y

theorem exec_wakeDeadline (core : Nat) (s : State) : exec (.wakeDeadline core) s = event s fun s =>
    if !s.deadlineDue core (s.core core).fw && !s.deadlineDue core (s.core core).sc then s
    else s.modCore core fun x =>
      { x with fw := s.alarmRung core x.fw, sc := s.alarmRung core x.sc
               source := if x.gated then x.source <|> some (5, s.meridian) else x.source } := rfl

theorem deadlineDue_iff {y : Alarm} :
    s.deadlineDue core y = true ↔ y.deadline ≠ 0 ∧ y.deadline ≤ s.mer (dieOfCore core) := by
  rw [State.deadlineDue, Bool.and_eq_true, decide_eq_true_iff, decide_eq_true_iff]

theorem alarmRung_due {y : Alarm} (h : y.deadline ≠ 0 ∧ y.deadline ≤ s.mer (dieOfCore core)) :
    (s.alarmRung core y).pending = y.pending ||| 32 ∧ (s.alarmRung core y).deadline = 0 := by
  rw [State.alarmRung, if_pos (deadlineDue_iff.mpr h)]
  exact ⟨rfl, rfl⟩

theorem alarmRung_early {y : Alarm} (h : ¬(y.deadline ≠ 0 ∧ y.deadline ≤ s.mer (dieOfCore core))) : s.alarmRung core y = y :=
  if_neg fun hd => h (deadlineDue_iff.mp hd)

theorem wakeDeadline_rings (h : s.deadlineDue core (s.core core).fw = true ∨ s.deadlineDue core (s.core core).sc = true) :
    Happens (.wakeDeadline core) s (s.modCore core fun x =>
      { x with fw := s.alarmRung core x.fw, sc := s.alarmRung core x.sc
               source := if x.gated then x.source <|> some (5, s.meridian) else x.source }) := by
  refine happens_of_event (exec_wakeDeadline core s) (if_neg ?_)
  obtain h | h := h <;> simp [h]

end

/-! ## The statement about timed events -/

/-- Settles O58, an event at a time: each happens under its guard, and time stops at the end of a relock (`tick_relock`). -/
theorem timedEvents : Obligations.TimedEvents := by
  refine ⟨?_, ?_, ?_, ?_, ?_, ?_, ?_, ?_, ?_, ?_, ?_⟩
  · intro s core hr hg
    exact coreGate_gates hr hg
  · intro s core code hg
    exact signalWake_source hg
  · intro s core code at_ hr hg hsource hlate
    exact ⟨_, coreWake_wakes hr hg hsource hlate, State.core_modCore_self .., fun k hk => by rw [State.core_modCore, if_neg hk], rfl, rfl⟩
  · intro s h
    obtain ⟨hperiod, hheld, hbudgets⟩ := startPeriod_renews h
    refine ⟨_, happens_of_event (exec_budgetPeriodStart s) rfl, hperiod, hheld, fun k b hb => ⟨b.renewed, ?_, rfl, rfl, rfl, rfl⟩⟩
    rw [hbudgets, hb, Option.map_some]
  · intro s cls k hk hnew b hlim hused
    exact budgetHold_holds (classSpent_of_limit hk hlim hused) hnew
  · intro s crew hr hphase hnone hlate
    exact spawnStallLimit_faults hr hphase hnone hlate
  · intro s die fr hwant hnone hgap
    exact relockStart_starts hwant hnone hgap
  · intro s die ms fr h hdue x e
    exact happens_of_event (exec_relockEnd die s) (relockOver_due h hdue)
  · intro s die ms fr hd h hbefore
    exact tick_relock hd h hbefore
  · intro s core code k hr hcode hk hsleep hphase hfired
    have hagent : isAgentKey k = true := by
      unfold isAgentKey slotOf coreOf agentSlot
      rw [Bool.or_eq_true, Bool.and_eq_true, decide_eq_true_iff, decide_eq_true_iff, decide_eq_true_iff]
      omega
    have hw := wakeOf_eq hcode hagent hsleep hphase hfired
    obtain ⟨hpending, now, hcrew⟩ := wakeable_wakes (hk.imp_right And.left) hw
    refine ⟨_, agentWake_happens hr, fun hone => ?_, hpending, ?_, ?_, ?_, ?_, foldl_mem _ (fun t x => agentWoken_mem x) _ _⟩
    · rw [hone, List.foldl_cons, List.foldl_nil, agentWoken_core]
      rfl
    · rw [hcrew]
    · rw [hcrew]
    · rw [hcrew]
      exact Sparse.get_set_self _ _ _
    · rw [hcrew]
      rfl
  · intro s core x due hdue
    refine ⟨_, wakeDeadline_rings (hdue.imp deadlineDue_iff.mpr deadlineDue_iff.mpr), rfl, rfl, ?_⟩
    rw [State.core_modCore_self]
    exact ⟨alarmRung_due, alarmRung_early, alarmRung_due, alarmRung_early⟩

end Sys2Proof.Machine

/-! The life of the package: power, reset, self test, firmware, retirement, spares and links (spec/26 R353, spec/27 R360-R367). -/
namespace Sys2Proof.Machine

/-! ## Power (spec/27 R366) -/

theorem exec_powerStepDown (die : Nat) (s : State) : exec (.powerStepDown die) s = execPowerStepDown die s := rfl
theorem exec_powerStepUp (die : Nat) (s : State) : exec (.powerStepUp die) s = execPowerStepUp die s := rfl

/-- A limit is reached from now on. -/
def State.overPower (s : State) : State := { s with powerOver := true, powerSince := s.meridian }

section
variable {s : State} {die : Nat}

theorem powerStepDown_lowers (hd : die < 4) (hf : 8 < s.running die) :
    Happens (.powerStepDown die) s (s.overPower.lower die (s.running die - 1)) :=
  happens_of_event (exec_powerStepDown die s) ((if_pos hd).trans (if_pos hf))

theorem powerStepDown_lowest (hd : die < 4) (hf : s.running die ≤ 8) :
    Happens (.powerStepDown die) s (s.overPower.modDie die fun x => { x with wantF := none, capFrom := x.capFrom <|> x.wantF }) :=
  happens_of_event (exec_powerStepDown die s) ((if_pos hd).trans (if_neg (Nat.not_lt.mpr hf)))

theorem powerStepUp_raises {top : Nat} (hover : s.powerOver = true) (hlong : s.powerSince + 10000000 ≤ s.meridian)
    (hcap : (s.die die).capFrom = some top) (htop : s.target die < top) :
    Happens (.powerStepUp die) s (s.modDie die fun x =>
      { x with wantF := some (s.target die + 1), capFrom := if s.target die + 1 < top then some top else none }) := by
  refine happens_of_event (exec_powerStepUp die s) ?_
  simp only [hcap, hover, Bool.true_and, decide_eq_true (show s.powerSince + Config.powerHold ≤ s.meridian from hlong), if_true,
    if_pos htop]

theorem powerStepUp_nothing (hcap : (s.die die).capFrom = none) : Happens (.powerStepUp die) s s := by
  refine happens_of_event (exec_powerStepUp die s) ?_
  simp only [hcap]

end

/-! ## Reset (spec/27 R360, R362, R363) -/

/-- Of a reset only the free values that it has drawn, the firmware, the ready bits and what is told the host depend on more than what
survives it (log 35). -/
def State.afterReset (s : State) (freeIx : Nat) (fw : Firmware) (ready : BitVec 128) (outbox : List HostMsg) : State :=
  { State.reset with pace := s.pace, freeIx := freeIx, agenda := s.agenda, mem := s.mem, bad := s.bad, ctxTable := s.ctxTable
                     pkgId := s.pkgId, domain := s.domain, firmware := fw, ready := ready, outbox := outbox }

theorem cutUpdate_eq (s : State) : ∃ fw n, s.cutUpdate = (fw, { s with freeIx := n }) := by
  unfold State.cutUpdate
  dsimp only
  split <;> exact ⟨_, _, rfl⟩

/-- After a reset no bit is ready but, in recovery, that of the Ethernet port (spec/27 Table 27-1, R362). -/
theorem restart_eq (s : State) : ∃ freeIx fw ready outbox, s.restart = s.afterReset freeIx fw ready outbox ∧
    (ready = 0 ∨ ready = BitVec.shiftLeft 1 112) := by
  obtain ⟨fw, n, hcut⟩ := cutUpdate_eq s
  unfold State.restart
  rw [hcut]
  dsimp only
  split
  · split
    · exact ⟨_, _, _, _, rfl, .inl rfl⟩
    · exact ⟨_, _, _, _, rfl, .inr rfl⟩
  · exact ⟨_, _, _, _, rfl, .inr rfl⟩

theorem exec_packageReset (s : State) : exec .packageReset s = .next s.restart := rfl
theorem exec_thermalReset (die : Nat) (s : State) :
    exec (.thermalReset die) s = .next (s.logError (logRetire (64 + die))).endAll.restart := rfl

/-- Of what survives a reset nothing is resident, and only memory holds what it held. -/
theorem restart_empties (s : State) : s.restart.meridian = 0 ∧ s.restart.crews = [] ∧ s.restart.tasks = [] ∧ s.restart.launches = [] ∧
    s.restart.budgets = [] ∧ s.restart.mem = s.mem := by
  obtain ⟨_, _, _, _, h, -⟩ := restart_eq s
  rw [h]
  exact ⟨rfl, rfl, rfl, rfl, rfl, rfl⟩

theorem restart_ready_low (s : State) : s.restart.ready.extractLsb' 0 112 = 0 := by
  obtain ⟨_, _, _, _, h, hready⟩ := restart_eq s
  obtain rfl | rfl := hready
  · rw [h]
    rfl
  · rw [h]
    show (BitVec.shiftLeft (1 : BitVec 128) 112).extractLsb' 0 112 = 0
    decide

/-- A reset starts the image that the flash holds whole, when the loader accepts it. -/
theorem restart_starts {s : State} {i : Image} (hwhole : s.firmware.writing = none) (himage : s.firmware.image = some i)
    (haccepts : s.firmware.accepts i = true) : s.restart.firmware.running = some i ∧ s.restart.ready = 0 := by
  have hcut : s.cutUpdate = (s.firmware, s) := by unfold State.cutUpdate; simp only [hwhole]
  unfold State.restart
  simp only [hcut, himage]
  split
  · exact ⟨rfl, rfl⟩
  · exact absurd haccepts ‹_›

/-! ## Self test and firmware (spec/27 R360, R362, R363) -/

theorem exec_selfTestPass (bit freq : Nat) (s : State) : exec (.selfTestPass bit freq) s = execSelfTestPass bit freq s := rfl
theorem exec_imageFetchRetry (img : Image) (s : State) : exec (.imageFetchRetry img) s = execImageFetchRetry img s := rfl
theorem exec_firmwareUpdate (img : Image) (s : State) : exec (.firmwareUpdate img) s = execFirmwareUpdate img s := rfl

theorem happens_of_eventHost {i : Instr} {s t : State} {g : State → State} (hx : exec i s = eventHost s g)
    (hport : s.ready.getLsbD 112 = true) (hg : g s = t) : Happens i s t := by
  rw [Happens, hx, eventHost_of hport, hg]

/-- A function of the started package that is no die becomes ready. -/
theorem selfTestPass_readies {s : State} {bit : Nat} (freq : Nat) (hrun : s.firmware.running.isSome = true) (hbit : bit < 113)
    (hdie : ¬(64 ≤ bit ∧ bit < 68)) (hgood : s.retiredBits.getLsbD bit = false) (hnew : s.ready.getLsbD bit = false) :
    let t := { s with ready := s.ready ||| BitVec.shiftLeft 1 bit }
    Happens (.selfTestPass bit freq) s (if bit < 64 then t.modCore bit id else t) := by
  intro t
  have hopen : ¬(s.firmware.running.isNone || decide (bit > 112) || s.retiredBits.getLsbD bit || s.ready.getLsbD bit) = true := by
    simp only [Option.isNone_eq_false_iff.mpr hrun, hgood, hnew, Bool.or_false, Bool.false_or, decide_eq_true_eq]
    omega
  have hother : (decide (64 ≤ bit) && decide (bit < 68)) = false := by
    rw [Bool.and_eq_false_iff, decide_eq_false_iff_not, decide_eq_false_iff_not]
    omega
  refine happens_of_event (exec_selfTestPass bit freq s) ((if_neg hopen).trans ?_)
  simp only [hother, Bool.false_and, Bool.false_eq_true, if_false]
  rfl

section
variable {s : State} {img : Image} (hport : s.ready.getLsbD 112 = true)
include hport

/-- In recovery an image that the host sends is judged by the loader. -/
theorem imageFetchRetry_judges (hnone : s.firmware.running = none) (hfetch : s.firmware.fetching = true) :
    Happens (.imageFetchRetry img) s
      (if s.firmware.accepts img then { s with firmware := { s.firmware with image := some img } }.restart
        else { s with firmware := { s.firmware with fetching := false } }) :=
  happens_of_eventHost (exec_imageFetchRetry img s) hport (if_neg (by simp [hnone, hfetch]))

/-- The loader asks again 10^9 ticks after it last asked. -/
theorem refetch_eq {at_ : Nat} (hnone : s.firmware.running = none) (hlast : s.firmware.lastFetch = some at_) :
    s.refetch = if s.meridian < at_ + 1000000000 then s else
      { s with firmware := { s.firmware with lastFetch := some s.meridian, fetching := true }, outbox := s.outbox ++ [.fetchImage] } := by
  unfold State.refetch
  simp only [hlast, hnone, hport, Option.isSome_none, Bool.false_or, Bool.not_true, Bool.or_false, decide_eq_true_eq]
  rfl

theorem firmwareUpdate_writes {r : Image} (hrun : s.firmware.running = some r) (hacc : s.firmware.accepts img = true)
    (hseq : r.seq ≤ img.seq) :
    Happens (.firmwareUpdate img) s { s with firmware := { s.firmware with writing := some img } } := by
  refine happens_of_eventHost (exec_firmwareUpdate img s) hport ?_
  simp only [hrun]
  exact if_pos (by simp [hacc, hseq])

end

/-- The flash has the image that is written to it now, or not yet (log 35). -/
theorem flash_writes {t : State} {img : Image} (h : t.firmware.writing = some img) : t.flash.firmware = t.firmware ∨
    t.flash.firmware = { t.firmware with image := some img, writing := none, started := false } := by
  unfold State.flash
  simp only [h]
  split
  · exact .inl rfl
  · exact .inr rfl

/-! ## The error log and the telemetry (spec/27 R365, Table 27-3) -/

/-- The corrections that come are counted in the entries of HBM stacks and Essia links alone (log 62). -/
theorem corrections_telemetry (now n ix : Nat) (x : List (Nat × Nat) × Sparse 64) {k : Nat} (hk : k < 1056 ∨ 1068 ≤ k) :
    Sparse.get (corrections now n ix x).2 k = Sparse.get x.2 k := by
  induction n generalizing ix x with
  | zero => rfl
  | succ n ih =>
    obtain ⟨log, tel⟩ := x
    rw [corrections, ih]
    exact Sparse.get_set_ne _ _ (by omega)

theorem logError_telemetry (s : State) (event : Nat) {k : Nat} (hk : k < 1056 ∨ 1068 ≤ k) :
    Sparse.get (s.logError event).telemetry k = Sparse.get s.telemetry k :=
  corrections_telemetry s.meridian _ _ (s.elog, s.telemetry) hk

theorem logError_retraining (s : State) (event : Nat) : (s.logError event).retraining = s.retraining := rfl

/-! ## Retirement (spec/27 R361, R364) -/

theorem exec_functionRetire (bit : Nat) (s : State) : exec (.functionRetire bit) s = execFunctionRetire bit s := rfl

/-- The ready bits, and those that stay clear. -/
def State.readiness (s : State) : BitVec 128 × BitVec 128 := (s.ready, s.retiredBits)

theorem unpark_readiness (s : State) (die : Nat) : (s.unpark die).readiness = s.readiness := by
  unfold State.unpark
  dsimp only
  split
  · rfl
  · split <;> rfl

theorem returnDet_readiness (s : State) (die li : Nat) : (s.returnDet die li).readiness = s.readiness := by
  unfold State.returnDet
  dsimp only
  split <;> rfl

theorem returnRoots_readiness (s : State) (die : Nat) : (s.returnRoots die).readiness = s.readiness := by
  unfold State.returnRoots
  refine (foldl_keeps State.readiness _ (fun t li => returnDet_readiness t die li) _ _).trans ?_
  refine Eq.trans ?_ (unpark_readiness s die)
  exact foldl_keeps State.readiness (fun (t : State) (r : Nat × Nat) => t.modLaunch r.1 fun l => { l with back := l.back ++ [r.2] })
    (fun _ _ => rfl) _ _

/-- A ready bit is cleared for good. -/
def State.clearBit (s : State) (bit : Nat) : State :=
  { s with ready := s.ready &&& ~~~(BitVec.shiftLeft 1 bit), retiredBits := s.retiredBits ||| BitVec.shiftLeft 1 bit }

/-- Whether a bit is not ready, and stays so. -/
def State.BitGone (s : State) (bit : Nat) : Prop := s.ready.getLsbD bit = false ∧ s.retiredBits.getLsbD bit = true

theorem bitGone_of_readiness {s t : State} {bit : Nat} (h : t.readiness = s.readiness) (hs : s.BitGone bit) : t.BitGone bit := by
  obtain ⟨hready, hretired⟩ := Prod.mk.inj h
  exact ⟨hready ▸ hs.1, hretired ▸ hs.2⟩

theorem getLsbD_bit {w bit : Nat} (h : bit < w) : (BitVec.shiftLeft (1 : BitVec w) bit).getLsbD bit = true := by
  simp [h]

theorem clearBit_gone {s : State} {bit : Nat} (h : bit < 128) : (s.clearBit bit).BitGone bit := by
  refine ⟨?_, ?_⟩
  · rw [State.clearBit, BitVec.getLsbD_and, BitVec.getLsbD_not, getLsbD_bit h]
    simp
  · rw [State.clearBit, BitVec.getLsbD_or, getLsbD_bit h, Bool.or_true]

theorem clearBit_keeps_gone {s : State} {bit : Nat} (b : Nat) (h : s.BitGone bit) : (s.clearBit b).BitGone bit := by
  refine ⟨?_, ?_⟩
  · rw [State.clearBit, BitVec.getLsbD_and, h.1, Bool.false_and]
  · rw [State.clearBit, BitVec.getLsbD_or, h.2, Bool.true_or]

/-- A function whose ready bit is cleared is not ready, and never will be (spec/27 R360, R361). -/
theorem clearReady_gone {s : State} {bit : Nat} (h : bit < 128) : (s.clearReady bit).BitGone bit := by
  have hgone : (s.clearBit bit).BitGone bit := clearBit_gone h
  unfold State.clearReady
  extract_lets clear t die
  split
  · exact hgone
  split
  · exact hgone
  refine bitGone_of_readiness (returnRoots_readiness _ _) ?_
  split
  · exact clearBit_keeps_gone _ hgone
  · exact hgone

theorem functionRetire_retires {s : State} {bit : Nat} (h : bit < 113) :
    let cores := if bit < 64 then [bit] else if 64 ≤ bit ∧ bit < 68 then dieCores (bit - 64)
      else if 76 ≤ bit ∧ bit < 80 then dieCores (bit - 76) else []
    let t := cores.foldl (fun t k => t.coreTasksEnd k 1) s
    let u := if bit < 64 then t.modCore bit fun x => { x with retired := true } else t
    Happens (.functionRetire bit) s ((u.clearReady bit).logError (logRetire bit)) := by
  refine happens_of_event (exec_functionRetire bit s) ((if_neg (by omega)).trans ?_)
  simp only [Bool.and_eq_true, decide_eq_true_eq]

/-! ## Spares, links and replays (spec/26 R353, spec/27 R364, R365) -/

theorem exec_hbmSpareRepair (stack : Nat) (s : State) : exec (.hbmSpareRepair stack) s = execHbmSpareRepair stack s := rfl
theorem exec_laneSpare (link : Nat) (s : State) : exec (.laneSpare link) s = execLaneSpare link s := rfl
theorem exec_retrainEnd (link : Nat) (s : State) : exec (.retrainEnd link) s = execRetrainEnd link s := rfl
theorem exec_ualinkPortDown (port : Nat) (s : State) : exec (.ualinkPortDown port) s = execUalinkPortDown port s := rfl
theorem exec_crcErrorReplay (port : Nat) (s : State) : exec (.crcErrorReplay port) s = execCrcErrorReplay port s := rfl

theorem hbmSpareRepair_logs {stack : Nat} (s : State) (h : stack < 8) :
    Happens (.hbmSpareRepair stack) s (s.logError (logSpare (68 + stack))) :=
  happens_of_event (exec_hbmSpareRepair stack s) (if_pos h)

theorem retrainEnd_ends (s : State) (link : Nat) :
    Happens (.retrainEnd link) s { s with retraining := s.retraining.filter fun x => x != link } :=
  happens_of_event (exec_retrainEnd link s) rfl

theorem ualinkPortDown_marks {port : Nat} (s : State) (h : port < 16) :
    Happens (.ualinkPortDown port) s { s with portsDown := s.portsDown ||| BitVec.shiftLeft 1 port } :=
  happens_of_event (exec_ualinkPortDown port s) (if_pos h)

/-- A link retrains, and the log tells of its spare lane. -/
def State.sparing (s : State) (link : Nat) : State :=
  { s with retraining := s.retraining ++ [link] }.logError (logSpare (if link < 16 then 80 + link else 60 + link))

/-- The spare lanes of a port are counted from bit 48 on (spec/27 Table 27-3). -/
def State.countSpare (s : State) (link : Nat) : State :=
  { s with telemetry := Sparse.set s.telemetry (1088 + link) (Sparse.get s.telemetry (1088 + link) + BitVec.shiftLeft 1 48) }

theorem sparing_telemetry (s : State) (link : Nat) {k : Nat} (hk : k < 1056 ∨ 1068 ≤ k) :
    Sparse.get (s.sparing link).telemetry k = Sparse.get s.telemetry k :=
  logError_telemetry { s with retraining := s.retraining ++ [link] } _ hk

theorem laneSpare_spares {s : State} {link : Nat} (h : link < 20) (hnew : s.retraining.contains link = false) :
    Happens (.laneSpare link) s (if link < 16 then (s.sparing link).countSpare link else s.sparing link) := by
  refine happens_of_event (exec_laneSpare link s) ((if_neg ?_).trans rfl)
  rw [hnew, Bool.or_false, decide_eq_true_eq]
  omega

/-- The replays of a port are counted in the low 48 bits of its entry (spec/27 Table 27-3). -/
def countReplay (v : DWord) : DWord :=
  BitVec.shiftLeft ((v.extractLsb' 48 16).setWidth 64) 48 ||| ((v.extractLsb' 0 48) + 1).setWidth 64

theorem low_of_halves (high : BitVec 16) (low : BitVec 48) :
    (BitVec.shiftLeft (high.setWidth 64) 48 ||| low.setWidth 64 : DWord).extractLsb' 0 48 = low := by
  ext i hi
  simp [hi]
  omega

theorem high_of_halves (high : BitVec 16) (low : BitVec 48) :
    (BitVec.shiftLeft (high.setWidth 64) 48 ||| low.setWidth 64 : DWord).extractLsb' 48 16 = high := by
  ext i hi
  simp [hi, show 48 + i < 64 by omega]

theorem crcErrorReplay_counts {port : Nat} (s : State) (h : port < 16) : Happens (.crcErrorReplay port) s
    ({ s with telemetry := Sparse.set s.telemetry (1088 + port) (countReplay (Sparse.get s.telemetry (1088 + port))) }.logError
      (logCorrect (80 + port))) :=
  happens_of_event (exec_crcErrorReplay port s) (if_neg (by omega))

theorem laneSpare_counts {s : State} {link : Nat} (h : link < 20) (hnew : s.retraining.contains link = false) :
    ∃ t, Happens (.laneSpare link) s t ∧ t.retraining = s.retraining ++ [link] ∧
      (link < 16 → Sparse.get t.telemetry (1088 + link) = Sparse.get s.telemetry (1088 + link) + BitVec.shiftLeft 1 48) ∧
      ∀ k, (16 ≤ link ∨ k ≠ 1088 + link) → (k < 1056 ∨ 1068 ≤ k) → Sparse.get t.telemetry k = Sparse.get s.telemetry k := by
  refine ⟨_, laneSpare_spares h hnew, ?_⟩
  by_cases hport : link < 16
  · rw [if_pos hport]
    refine ⟨rfl, fun _ => ?_, fun k hk hplace => ?_⟩
    · rw [State.countSpare, Sparse.get_set_self, sparing_telemetry s link (.inr (by omega))]
    · rw [State.countSpare, Sparse.get_set_ne _ _ (by omega), sparing_telemetry s link hplace]
  · rw [if_neg hport]
    exact ⟨rfl, fun hlow => absurd hlow hport, fun k _ hplace => sparing_telemetry s link hplace⟩

theorem crcErrorReplay_entry {port : Nat} (s : State) (h : port < 16) : ∃ t, Happens (.crcErrorReplay port) s t ∧
    (Sparse.get t.telemetry (1088 + port)).extractLsb' 0 48 = (Sparse.get s.telemetry (1088 + port)).extractLsb' 0 48 + 1 ∧
    (Sparse.get t.telemetry (1088 + port)).extractLsb' 48 16 = (Sparse.get s.telemetry (1088 + port)).extractLsb' 48 16 := by
  refine ⟨_, crcErrorReplay_counts s h, ?_⟩
  rw [logError_telemetry _ _ (.inr (by omega)), Sparse.get_set_self, countReplay]
  exact ⟨low_of_halves _ _, high_of_halves _ _⟩

/-- Settles O59: each event of the package's life by its lemma above, a reset by what survives it. -/
theorem lifeEvents : Obligations.LifeEvents := by
  unfold Obligations.LifeEvents
  refine ⟨fun s die hd => ⟨powerStepDown_lowers hd, powerStepDown_lowest hd⟩, fun s die top => powerStepUp_raises,
    fun s die => powerStepUp_nothing, fun s => ?_, fun s die => ?_, fun s bit freq hrun hbit hdie hgood hnew => ?_,
    fun s img hport hnone hfetch => ?_, fun s at_ hport => refetch_eq hport, fun s img r hport hrun hacc hseq => ?_, fun s bit hbit => ?_,
    fun s stack => hbmSpareRepair_logs s, fun s link => laneSpare_counts, retrainEnd_ends, fun s port => ualinkPortDown_marks s,
    fun s port => crcErrorReplay_entry s⟩
  case refine_1 =>
    obtain ⟨hmer, hcrews, htasks, hlaunches, hbudgets, hmem⟩ := restart_empties s
    exact ⟨_, exec_packageReset s, rfl, hmer, hcrews, htasks, hlaunches, hbudgets, hmem, fun i => restart_starts⟩
  case refine_2 =>
    obtain ⟨hmer, hcrews, htasks, -⟩ := restart_empties (s.logError (logRetire (64 + die))).endAll
    exact ⟨_, exec_thermalReset die s, hmer, hcrews, htasks, restart_ready_low _⟩
  case refine_3 =>
    refine ⟨_, selfTestPass_readies freq hrun hbit hdie hgood hnew, ?_⟩
    split <;> exact ⟨rfl, rfl, rfl⟩
  case refine_4 =>
    have hjudge := imageFetchRetry_judges (img := img) hport hnone hfetch
    exact ⟨fun hacc => by rwa [if_pos hacc] at hjudge, fun hrej => by rwa [hrej] at hjudge⟩
  case refine_5 => exact ⟨firmwareUpdate_writes hport hrun hacc hseq, fun t => flash_writes⟩
  case refine_6 => exact ⟨functionRetire_retires hbit, clearReady_gone (by omega)⟩

end Sys2Proof.Machine

/-! The events of the host link: requests on queue pairs, and what the host installs (spec/26 R355-R359). -/
namespace Sys2Proof.Machine

/-! ## A queue pair that serves its requests (spec/26 R357) -/

/-- A queue pair, and what one that nobody has used is. -/
def State.qp (s : State) (n : Nat) : QueuePair := (Tbl.get? s.qps n).getD {}

theorem qp_modQp_self (s : State) (n : Nat) (f : QueuePair → QueuePair) : (s.modQp n f).qp n = f (s.qp n) := by
  rw [State.qp, State.modQp, Tbl.get?_set_self, Option.getD_some, State.qp]

theorem modQp_crews (s : State) (n : Nat) (f : QueuePair → QueuePair) : (s.modQp n f).crews = s.crews := rfl

/-- Memory and the crews stay, and a queue pair holds what it held. -/
def HoldsOn (n : Nat) (s t : State) : Prop := t.mem = s.mem ∧ t.crews = s.crews ∧ (t.qp n).held = (s.qp n).held

theorem HoldsOn.refl (n : Nat) (s : State) : HoldsOn n s s := ⟨rfl, rfl, rfl⟩

theorem HoldsOn.trans {n : Nat} {s t u : State} (h : HoldsOn n s t) (h' : HoldsOn n t u) : HoldsOn n s u :=
  ⟨h'.1.trans h.1, h'.2.1.trans h.2.1, h'.2.2.trans h.2.2⟩

theorem holdsOn_reply (n : Nat) (s : State) (m : HostMsg) : HoldsOn n s (s.reply m) := ⟨rfl, rfl, rfl⟩

theorem holdsOn_modQp {n : Nat} (s : State) {f : QueuePair → QueuePair} (hf : ∀ x, (f x).held = x.held) :
    HoldsOn n s (s.modQp n f) :=
  ⟨rfl, rfl, by rw [qp_modQp_self, hf]⟩

theorem holdsOn_qpAway (n : Nat) (s : State) : HoldsOn n s (s.qpAway n) := by
  unfold State.qpAway
  dsimp only
  split
  · exact HoldsOn.refl n s
  split
  · refine HoldsOn.trans ?_ (holdsOn_modQp _ fun _ => rfl)
    split
    · exact holdsOn_reply n s _
    · exact HoldsOn.refl n s
  · split
    · exact HoldsOn.trans (t := s.free.2) ⟨rfl, rfl, rfl⟩ (holdsOn_modQp _ fun _ => rfl)
    · exact ⟨rfl, rfl, rfl⟩

section
variable {s : State} {n : Nat}

/-- A queue pair that nothing is written from waits for no other package. -/
theorem qpAway_of_home (haway : (s.qp n).away = false) : s.qpAway n = s := by
  unfold State.qpAway
  exact if_pos (by rw [State.qp] at haway; rw [haway]; rfl)

/-- A queue pair without requests has none after it is served: it may only be acknowledged. -/
theorem serveQp_empty (hheld : (s.qp n).held = []) (fuel : Nat) : HoldsOn n s (s.serveQp n (fuel + 1)) := by
  have haway := holdsOn_qpAway n s
  unfold State.serveQp
  generalize s.qpAway n = t at haway
  dsimp only
  split
  · exact haway
  have hnone : ((Tbl.get? t.qps n).getD {}).held = [] := haway.2.2.trans hheld
  rw [hnone]
  dsimp only
  split
  · exact haway.trans ((holdsOn_reply n t _).trans (holdsOn_modQp _ fun _ => rfl))
  · exact haway

/-- Nothing waits on a queue pair, and nothing is to be acknowledged. -/
def State.Clear (s : State) (n : Nat) : Prop :=
  (s.qp n).ackDue = false ∧ (s.qp n).away = false ∧ ((s.qp n).ct = 0 ∨ (s.qp n).ct + 2 < s.meridian)

theorem clear_hold (h : s.Clear n) (l : List HostReq) : (s.modQp n fun x => { x with held := l }).Clear n := by
  rw [State.Clear, qp_modQp_self]
  exact h

theorem clear_turn (h : s.Clear n) (l : List HostReq) : (s.modQp n fun x => { x with held := l, asked := false }).Clear n := by
  rw [State.Clear, qp_modQp_self]
  exact h

/-- The head of a queue pair that waits for nothing is carried out, and it turns to the rest. -/
theorem serveQp_head {q : HostReq} {rest : List HostReq} {u : State} {fuel : Nat} (hclear : s.Clear n)
    (hheld : (s.qp n).held = q :: rest) (hfree : s.hostHeld q = false) (hdo : s.hostDo n q = some u) :
    s.serveQp n (fuel + 1) = (u.modQp n fun y => { y with held := rest, asked := false }).serveQp n fuel := by
  obtain ⟨hack, haway, hct⟩ := hclear
  have hpast : (decide (s.meridian ≤ (s.qp n).ct + 2) && decide ((s.qp n).ct ≠ 0)) = false := by
    rw [Bool.and_eq_false_iff, decide_eq_false_iff_not, decide_eq_false_iff_not]
    omega
  rw [State.serveQp, qpAway_of_home haway]
  rw [State.qp] at hack haway hheld hpast
  simp only [hack, haway, hheld, hpast, hfree, hdo, Bool.or_false, Bool.false_eq_true, if_false]

/-- A queue pair without requests that waits for nothing stays as it is. -/
theorem serveQp_clear (hclear : s.Clear n) (hheld : (s.qp n).held = []) (fuel : Nat) : s.serveQp n fuel = s := by
  obtain ⟨hack, haway, -⟩ := hclear
  cases fuel with
  | zero => rfl
  | succ fuel =>
    rw [State.serveQp, qpAway_of_home haway]
    rw [State.qp] at hack hheld
    simp only [hack, hheld, Bool.false_eq_true, if_false, ite_self]

/-- A request on a queue pair that holds none and waits for nothing is carried out at once. -/
theorem hostArrive_serves {q : HostReq} {u : State} (hclear : s.Clear n) (hheld : (s.qp n).held = [])
    (hfree : (s.modQp n fun x => { x with held := [q] }).hostHeld q = false)
    (hdo : (s.modQp n fun x => { x with held := [q] }).hostDo n q = some u) :
    s.hostArrive n q = (u.modQp n fun y => { y with held := [], asked := false }).serveQp n 1 := by
  have harrive : (s.modQp n fun x => { x with held := x.held ++ [q] }) = s.modQp n fun x => { x with held := [q] } := by
    rw [State.qp] at hheld
    simp only [State.modQp, hheld, List.nil_append]
  have hself := qp_modQp_self s n fun x => { x with held := [q] }
  have hqp : (s.modQp n fun x => { x with held := [q] }).Clear n := clear_hold hclear [q]
  unfold State.hostArrive
  rw [harrive]
  have hone : ((Tbl.get? (s.modQp n fun x => { x with held := [q] }).qps n).getD {}).held = [q] := congrArg QueuePair.held hself
  dsimp only
  rw [hone]
  exact serveQp_head hqp hone hfree hdo

end

/-! ## Requests that arrive (spec/26 R355) -/

theorem exec_rdmaWrite (qp ctx : Nat) (key : Word) (va : DWord) (d : List Byte) (s : State) :
    exec (.rdmaWrite qp ctx key va d) s = hostRequest qp ctx { ctx := ctx, key := key, va := va, op := .write d } s := rfl
theorem exec_rdmaRead (qp ctx : Nat) (key : Word) (va : DWord) (n : Nat) (s : State) :
    exec (.rdmaRead qp ctx key va n) s = hostRequest qp ctx { ctx := ctx, key := key, va := va, op := .read n } s := rfl
theorem exec_atomicFetchAdd (qp ctx : Nat) (key : Word) (va x : DWord) (s : State) :
    exec (.atomicFetchAdd qp ctx key va x) s = hostRequest qp ctx { ctx := ctx, key := key, va := va, op := .fetchAdd x } s := rfl
theorem exec_atomicCmpSwap (qp ctx : Nat) (key : Word) (va x y : DWord) (s : State) :
    exec (.atomicCmpSwap qp ctx key va x y) s = hostRequest qp ctx { ctx := ctx, key := key, va := va, op := .cmpSwap x y } s := rfl
theorem exec_unsupportedRequest (qp : Nat) (s : State) :
    exec (.unsupportedRequest qp) s = hostRequest qp 0 { ctx := 0, key := 0, va := 0, op := .unsupported } s := rfl

/-- The instructions of the requests that a queue pair carries, and the request of each. -/
def HostReq.IsOf (q : HostReq) (qp : Nat) (i : Instr) : Prop :=
  (∃ d, i = .rdmaWrite qp q.ctx q.key q.va d ∧ q.op = .write d) ∨ (∃ n, i = .rdmaRead qp q.ctx q.key q.va n ∧ q.op = .read n) ∨
    (∃ x, i = .atomicFetchAdd qp q.ctx q.key q.va x ∧ q.op = .fetchAdd x) ∨
    (∃ x y, i = .atomicCmpSwap qp q.ctx q.key q.va x y ∧ q.op = .cmpSwap x y)

theorem exec_of_isOf {q : HostReq} {qp : Nat} {i : Instr} (h : q.IsOf qp i) (s : State) : exec i s = hostRequest qp q.ctx q s := by
  obtain ⟨ctx, key, va, op⟩ := q
  obtain ⟨d, rfl, hop⟩ | ⟨n, rfl, hop⟩ | ⟨x, rfl, hop⟩ | ⟨x, y, rfl, hop⟩ := h
  all_goals cases hop
  · exact exec_rdmaWrite ..
  · exact exec_rdmaRead ..
  · exact exec_atomicFetchAdd ..
  · exact exec_atomicCmpSwap ..

theorem happens_of_hostRequest {i : Instr} {s : State} {qp ctx : Nat} {q : HostReq} (hx : exec i s = hostRequest qp ctx q s)
    (hport : s.ready.getLsbD 112 = true) (hqp : qp < 1024) (hctx : ctx < 16) : Happens i s (s.hostArrive qp q) :=
  happens_of_eventHost hx hport (if_pos (by simp [hqp, hctx]))

theorem request_served {i : Instr} {s u : State} {qp : Nat} {q : HostReq} (hport : s.ready.getLsbD 112 = true) (hqp : qp < 1024)
    (hctx : q.ctx < 16) (hi : q.IsOf qp i) (hheld : (s.qp qp).held = []) (hclear : s.Clear qp)
    (hfree : (s.modQp qp fun x => { x with held := [q] }).hostHeld q = false)
    (hdo : (s.modQp qp fun x => { x with held := [q] }).hostDo qp q = some u) :
    ∃ t, Happens i s t ∧ t.mem = u.mem ∧ t.crews = u.crews ∧ (t.qp qp).held = [] := by
  have hserved := serveQp_empty (s := u.modQp qp fun y => { y with held := [], asked := false })
    (congrArg QueuePair.held (qp_modQp_self u qp _)) 0
  obtain ⟨hmem, hcrews, hnone⟩ := hserved
  refine ⟨_, happens_of_hostRequest (exec_of_isOf hi s) hport hqp hctx, ?_⟩
  rw [hostArrive_serves hclear hheld hfree hdo]
  exact ⟨hmem, hcrews, hnone.trans (congrArg QueuePair.held (qp_modQp_self u qp _))⟩

/-! ## What a request does (spec/26 R355, R356) -/

theorem pieces_zero (k a : Nat) : pieces k a 0 = [] := by cases k <;> rfl

theorem pieces_of_line {k a n : Nat} (hn : 0 < n) (hline : a % 128 + n ≤ 128) : pieces (k + 1) a n = [(a, n)] := by
  cases n with
  | zero => exact absurd hn (Nat.lt_irrefl 0)
  | succ n =>
    have hall : min (n + 1) (128 - a % 128) = n + 1 := Nat.min_eq_left (by omega)
    show (a, min (n + 1) (128 - a % 128)) :: pieces k (a + min (n + 1) (128 - a % 128)) (n + 1 - min (n + 1) (128 - a % 128)) = _
    rw [hall, Nat.sub_self, pieces_zero]

/-- A range that lies in one line is one piece. -/
theorem linePieces_of_line {va n : Nat} (hn : 0 < n) (hline : va % 128 + n ≤ 128) : linePieces va n = [(va, n)] :=
  pieces_of_line hn hline

theorem hostPieces_of_line {s : State} {ctx va n pa : Nat} {need : Need} {a : Attr} (hn : 0 < n) (hline : va % 128 + n ≤ 128)
    (hl : s.lookup ctx va need = .ok (pa, a)) : s.hostPieces ctx need (linePieces va n) = .ok [(pa, a, n)] := by
  rw [linePieces_of_line hn hline, State.hostPieces, hl]
  rfl

theorem tailWake_crews (s : State) (ctx va n : Nat) : (s.tailWake ctx va n).crews = s.crews := by
  unfold State.tailWake
  split
  · exact foldl_keeps State.crews (fun (t : State) k => t.signalWake k 8) (fun _ _ => rfl) _ _
  · rfl

theorem tailWake_outbox (s : State) (ctx va n : Nat) : (s.tailWake ctx va n).outbox = s.outbox := by
  unfold State.tailWake
  split
  · exact foldl_keeps State.outbox (fun (t : State) k => t.signalWake k 8) (fun _ _ => rfl) _ _
  · rfl

/-- A word whose package a port reaches has the new value. -/
theorem signalPut_mem {s : State} (a : Attr) {pa : Nat} (v : DWord) (hcut : s.cutOff pa = false) :
    (s.signalPut a pa v).1.mem = s.mem.writeBytes pa (toBytesLE 8 v.toNat) := by
  rw [State.signalPut, if_neg (by rw [hcut]; exact Bool.false_ne_true)]
  exact (mirrorWrite_mem _ _ _).trans (notify_mem _ _)

/-- A word has changed for the host: it has the old value, and its queue pair waits for the completion. -/
def State.wordGiven (s : State) (qp ctx va pa : Nat) (a : Attr) (old v : DWord) : State :=
  (((s.signalPut a pa v).1.reply (.old qp old)).modQp qp fun y =>
    { y with ct := (s.signalPut a pa v).2, away := s.foreign pa }).tailWake ctx va 8

theorem wordGiven_mem {s : State} {pa : Nat} (qp ctx va : Nat) (a : Attr) (old v : DWord) (hcut : s.cutOff pa = false) :
    (s.wordGiven qp ctx va pa a old v).mem = s.mem.writeBytes pa (toBytesLE 8 v.toNat) :=
  (tailWake_mem _ ctx va 8).trans (signalPut_mem a v hcut)

theorem wordGiven_outbox (s : State) (qp ctx va pa : Nat) (a : Attr) (old v : DWord) :
    (s.wordGiven qp ctx va pa a old v).outbox = s.outbox ++ [.old qp old] :=
  (tailWake_outbox _ ctx va 8).trans (congrArg (· ++ [HostMsg.old qp old]) (wordsOnly_signalPut s a pa v).outbox)

/-- Bytes have been written for the host: they lie at their home, and its queue pair waits for the completion. -/
def State.bytesGiven (s : State) (qp ctx va pa : Nat) (a : Attr) (d : List Byte) : State :=
  ((s.homePut a pa d).1.modQp qp fun x =>
    { x with ct := max 0 (s.homePut a pa d).2, ackDue := true, away := s.foreign pa }).tailWake ctx va d.length

section
variable {s : State} {qp ctx pa : Nat} {key : Word} {va : DWord} {a : Attr} (hqp : qp ≠ 1023) (hcut : s.cutOff pa = false)
include hqp hcut

theorem hostDo_read {n : Nat} (hn : 0 < n) (hline : va.toNat % 128 + n ≤ 128)
    (hreg : s.regionFor ctx key va n (fun r => r.r) = true) (hl : s.lookup ctx va.toNat .read = .ok (pa, a)) :
    s.hostDo qp ⟨ctx, key, va, .read n⟩ = some { s with outbox := s.outbox ++ [.data qp (s.mem.readBytes pa n)] } := by
  have hone := hostPieces_of_line hn hline hl
  have hallowed : s.regionFor ctx key va n (HostOp.allowed (.read n)) = true := hreg
  unfold State.hostDo
  simp [HostOp.bytes, HostOp.need, hallowed, hone, hqp, hcut, managementQp, State.reply]

theorem hostDo_write {d : List Byte} (hn : d ≠ []) (hline : va.toNat % 128 + d.length ≤ 128)
    (hreg : s.regionFor ctx key va d.length (fun r => r.w) = true) (hl : s.lookup ctx va.toNat .write = .ok (pa, a)) :
    s.hostDo qp ⟨ctx, key, va, .write d⟩ = some (s.bytesGiven qp ctx va.toNat pa a d) := by
  have hone := hostPieces_of_line (List.length_pos_iff.mpr hn) hline hl
  have hallowed : s.regionFor ctx key va d.length (HostOp.allowed (.write d)) = true := hreg
  unfold State.hostDo
  simp [HostOp.bytes, HostOp.need, hallowed, hone, hqp, hcut, managementQp, State.hostWrite, State.bytesGiven]

variable (hal : va.toNat % 8 = 0) (hreg : s.regionFor ctx key va 8 (fun r => r.atomic) = true)
  (hl : s.lookup ctx va.toNat .both = .ok (pa, a))
include hal hreg hl

theorem hostDo_fetchAdd (x : DWord) :
    let old : DWord := BitVec.ofNat 64 (s.mem.field pa 8)
    s.hostDo qp ⟨ctx, key, va, .fetchAdd x⟩ = some (s.wordGiven qp ctx va.toNat pa a old (old + x)) := by
  have hone := hostPieces_of_line (n := 8) (by decide) (by omega) hl
  have hallowed : s.regionFor ctx key va 8 (HostOp.allowed (.fetchAdd x)) = true := hreg
  unfold State.hostDo
  simp [HostOp.bytes, HostOp.need, hallowed, hone, hqp, hcut, hal, managementQp, State.wordGiven]

theorem hostDo_cmpSwap (cmp x : DWord) :
    let old : DWord := BitVec.ofNat 64 (s.mem.field pa 8)
    s.hostDo qp ⟨ctx, key, va, .cmpSwap cmp x⟩ = if old ≠ cmp then some (s.reply (.old qp old))
      else some (s.wordGiven qp ctx va.toNat pa a old x) := by
  have hone := hostPieces_of_line (n := 8) (by decide) (by omega) hl
  have hallowed : s.regionFor ctx key va 8 (HostOp.allowed (.cmpSwap cmp x)) = true := hreg
  unfold State.hostDo
  simp [HostOp.bytes, HostOp.need, hallowed, hone, hqp, hcut, hal, managementQp, State.wordGiven]

end

/-- The management queue pair carries no RDMA and no atomic (spec/26 R359, log 36). -/
theorem hostDo_management (s : State) (q : HostReq) :
    s.hostDo 1023 q = some { s with outbox := s.outbox ++ [.nakInvalid 1023] } :=
  if_pos (by simp [managementQp])

theorem hostDo_unsupported (s : State) {qp : Nat} {q : HostReq} (hop : q.op = .unsupported) :
    s.hostDo qp q = some (s.reply (.nakInvalid qp)) :=
  if_pos (by simp [hop])

theorem unsupportedRequest_naks {s : State} {qp : Nat} (hport : s.ready.getLsbD 112 = true) (hqp : qp < 1024)
    (hheld : (s.qp qp).held = []) (hclear : s.Clear qp) :
    ∃ t, Happens (.unsupportedRequest qp) s t ∧ t.mem = s.mem ∧ t.crews = s.crews ∧ t.outbox = s.outbox ++ [.nakInvalid qp] := by
  refine ⟨_, happens_of_hostRequest (exec_unsupportedRequest qp s) hport hqp (by decide), ?_⟩
  rw [hostArrive_serves hclear hheld rfl (hostDo_unsupported _ rfl)]
  have hasked : ((s.modQp qp fun x => { x with held := [⟨0, 0, 0, .unsupported⟩] }).reply (.nakInvalid qp)).Clear qp :=
    clear_hold hclear _
  rw [serveQp_clear (clear_turn hasked []) (congrArg QueuePair.held (qp_modQp_self _ qp _))]
  exact ⟨rfl, rfl, rfl⟩

/-! ## What the host installs (spec/26 R356, R358, R359) -/

theorem exec_regionInstall (ctx idx : Nat) (base len : DWord) (r w atomic : Bool) (key : Word) (s : State) :
    exec (.regionInstall ctx idx base len r w atomic key) s = execRegionInstall ctx idx base len r w atomic key s := rfl
theorem exec_mirroredPageInstall (ctx idx : Nat) (page host : DWord) (key : Word) (qp : Nat) (s : State) :
    exec (.mirroredPageInstall ctx idx page host key qp) s = execMirroredPageInstall ctx idx page host key qp s := rfl
theorem exec_contextTableUpdate (ctx : Nat) (entry : BitVec 512) (s : State) :
    exec (.contextTableUpdate ctx entry) s = execContextTableUpdate ctx entry s := rfl

section
variable {s : State} {ctx : Nat} (hport : s.ready.getLsbD 112 = true) (hctx : ctx < 16)
include hport hctx

theorem regionInstall_installs {idx : Nat} (base len : DWord) (r w atomic : Bool) (key : Word) (hidx : idx < 64) :
    Happens (.regionInstall ctx idx base len r w atomic key) s
      { s with regions := Tbl.set s.regions (64 * ctx + idx) { base := base, len := len, r := r, w := w, atomic := atomic, key := key } } := by
  refine happens_of_eventHost (exec_regionInstall ctx idx base len r w atomic key s) hport (if_neg ?_)
  rw [Bool.or_eq_true, decide_eq_true_eq, decide_eq_true_eq]
  omega

theorem mirroredPageInstall_installs {idx qp : Nat} {page : DWord} (host : DWord) (key : Word) (hidx : idx < 16)
    (hpage : page.toNat % 65536 = 0) (hqp : qp < 1023) :
    Happens (.mirroredPageInstall ctx idx page host key qp) s
      { s with mirrors := Tbl.set s.mirrors (16 * ctx + idx) { page := page, host := host, key := key, qp := qp } } := by
  refine happens_of_eventHost (exec_mirroredPageInstall ctx idx page host key qp s) hport (if_neg ?_)
  simp only [Bool.or_eq_true, decide_eq_true_eq]
  unfold managementQp
  omega

/-- An entry is put into the context table in memory. -/
def State.putCtx (s : State) (ctx : Nat) (entry : BitVec 512) : State :=
  { s with mem := (s.mem.clear (s.ctxTable + 64 * ctx) 64).writeBytes (s.ctxTable + 64 * ctx) (toBytesLE 64 entry.toNat) }

theorem contextTableUpdate_puts (entry : BitVec 512) : Happens (.contextTableUpdate ctx entry) s (s.putCtx ctx entry) :=
  happens_of_eventHost (exec_contextTableUpdate ctx entry s) hport (if_neg (by omega))

end

/-- The bytes of a number hold it, as far as they go. -/
theorem fromBytesLE_toBytesLE (n x : Nat) : fromBytesLE (toBytesLE n x) = x % 256 ^ n := by
  induction n generalizing x with
  | zero => rw [toBytesLE, fromBytesLE, Nat.pow_zero, Nat.mod_one]
  | succ n ih =>
    rw [toBytesLE, fromBytesLE, ih, BitVec.toNat_ofNat]
    exact ((congrArg (x % ·) Nat.pow_succ').trans Nat.mod_mul).symm

theorem read_clear_out (m : Memory) {a n x : Nat} (h : x < a ∨ a + n ≤ x) : (m.clear a n).read x = m.read x := by
  unfold Memory.read Memory.clear
  induction m with
  | nil => rfl
  | cons y t ih =>
    rw [List.filter_cons, Sparse.get_cons]
    split
    · rw [Sparse.get_cons, ih]
    · rename_i hcleared
      simp only [Bool.not_eq_true', Bool.not_eq_false, Bool.and_eq_true, decide_eq_true_eq] at hcleared
      rw [ih, if_neg (by omega)]

theorem putCtx_stored (s : State) (ctx : Nat) (entry : BitVec 512) : (s.putCtx ctx entry).ctxStored ctx = entry := by
  have hback := Memory.readBytes_writeBytes (s.mem.clear (s.ctxTable + 64 * ctx) 64) (s.ctxTable + 64 * ctx) (toBytesLE 64 entry.toNat)
  rw [length_toBytesLE] at hback
  show BitVec.ofNat 512 (fromBytesLE ((s.putCtx ctx entry).mem.readBytes (s.ctxTable + 64 * ctx) 64)) = entry
  rw [State.putCtx, hback, fromBytesLE_toBytesLE]
  exact BitVec.eq_of_toNat_eq (by rw [BitVec.toNat_ofNat]; omega)

theorem putCtx_read (s : State) (ctx : Nat) (entry : BitVec 512) {x : Nat}
    (h : x < s.ctxTable + 64 * ctx ∨ s.ctxTable + 64 * ctx + 64 ≤ x) : (s.putCtx ctx entry).mem.read x = s.mem.read x :=
  (Memory.read_writeBytes_out _ _ _ _ (by rwa [length_toBytesLE])).trans (read_clear_out _ h)

/-- Settles O60: a request by what its queue pair does with it (`request_served`), what it does by its one piece of a line, and the
installs by the tables that they write. -/
theorem hostEvents : Obligations.HostEvents := by
  unfold Obligations.HostEvents
  refine ⟨fun i s qp q u hport hqp hctx hi hheld hack haway hct => request_served hport hqp hctx hi hheld ⟨hack, haway, hct⟩,
    ?_, ?_, ?_, hostDo_management, fun s qp hport hqp hheld hack haway hct => unsupportedRequest_naks hport hqp hheld ⟨hack, haway, hct⟩,
    fun s ctx idx base len r w at_ key hport hctx => regionInstall_installs hport hctx base len r w at_ key,
    fun s ctx idx page host key qp hport hctx => mirroredPageInstall_installs hport hctx host key, fun s ctx entry hport hctx => ?_⟩
  case refine_1 =>
    rintro s qp ⟨ctx, key, va, op⟩ n a pa rfl hqp hcut hn hline hreg hl
    exact hostDo_read hqp hcut hn hline hreg hl
  case refine_2 =>
    rintro s qp ⟨ctx, key, va, op⟩ d a pa rfl hqp hcut hn hline hreg hl
    exact ⟨_, hostDo_write hqp hcut hn hline hreg hl, tailWake_mem _ _ _ _, tailWake_crews _ _ _ _⟩
  case refine_3 =>
    rintro s qp ⟨ctx, key, va, op⟩ a pa hqp hcut hal hreg hl
    refine ⟨?_, ?_⟩
    · rintro x rfl
      exact ⟨_, hostDo_fetchAdd hqp hcut hal hreg hl x, wordGiven_mem _ _ _ a _ _ hcut, wordGiven_outbox _ _ _ _ _ a _ _⟩
    · rintro cmp x rfl
      have hswap := hostDo_cmpSwap hqp hcut hal hreg hl cmp x
      refine ⟨fun heq => ?_, fun hne => hswap.trans (if_pos hne)⟩
      exact ⟨_, hswap.trans (if_neg (not_not.mpr heq)), wordGiven_mem _ _ _ a _ _ hcut, wordGiven_outbox _ _ _ _ _ a _ _⟩
  case refine_4 =>
    exact ⟨_, contextTableUpdate_puts hport hctx entry, putCtx_stored s ctx entry, fun x => putCtx_read s ctx entry, rfl⟩

end Sys2Proof.Machine
